-- ==== Sys2Proof/Word.lean ====
section
/-! DEFINITION. The word types of the UT16-K model and the sparse maps its state is held in: a map is a
plain list of (key, value) pairs in rising key order, and a key that is not listed reads as a default value. -/

namespace Sys2Proof

abbrev Byte := BitVec 8
/-- A register slot, a task register, a micro-register (R326, R389, R618). -/
abbrev U64 := BitVec 64
/-- A 64-byte block: a host line, a descriptor, a transfer-buffer block; byte i lies in bits [8i+7:8i] (R16). -/
abbrev Block := BitVec 512

/-- A sparse map from numbers to values, as plain data. -/
abbrev SMap (α : Type) := List (Nat × α)

end Sys2Proof
end

