-- ==== Sys2Proof/Syntax.lean ====
section
/-! DEFINITION. The commands of the UT16-K: one constructor of Instr for each row of the table of operations and
events, with the operands that the outside world (a pin, a port, a sensor, a unit's own response) gives it. -/

namespace Sys2Proof

/-! ## Unit numbers (R27 to R31, R145, R170, R584) -/

abbrev Vi := Fin 2048
abbrev Eng := Fin 256
abbrev Kiln := Fin 16
abbrev Flue := Fin 4
abbrev Port := Fin 32
abbrev HPort := Fin 2
abbrev Mover := Fin 32
abbrev Holder := Fin 17
abbrev Chan := Fin 128
abbrev Grp := Fin 4096
abbrev Ctr := Fin 352
/-- A host line: bits [51:6] of a host address. -/
abbrev LineA := BitVec 46

/-- An Ezben link, named by its end on the kiln die that reports it (R530): edge 0 north, 1 east, 2 south, 3 west. -/
structure Link where
  kiln : Kiln
  edge : Fin 4
  deriving DecidableEq, Repr

/-- The clock islands of R72. -/
inductive Island where
  | engine (e : Eng) | hub (k : Kiln) | memory (k : Kiln) | fport (p : Port) | coll (f : Flue)
  | flueTable (f : Flue) | hostPort (n : HPort) | home | ring | mgmt | aon
  deriving DecidableEq, Repr

/-- The units that report a fault or can be fenced (R529). -/
inductive FUnit where
  | engine (e : Eng) | hub (k : Kiln) | mover (m : Mover) | memory (k : Kiln) | channel (c : Chan)
  | rail (k : Kiln) | kilnTherm (k : Kiln) | kilnNet (k : Kiln) | link (l : Link)
  | fport (p : Port) | coll (f : Flue) | flueTable (f : Flue) | flueNet (f : Flue) | refclk (f : Flue)
  | flueTherm (f : Flue)
  | hostPort (n : HPort) | home | lineStore | ring | mgmt | aon | bootRom | fuses | spi | sharedRails
  | linkTherm | vset | linkNet
  deriving DecidableEq, Repr

/-- The units that take up a change set (R603). -/
inductive CUnit where
  | engine (e : Eng) | mover (m : Mover) | coll (f : Flue) | fport (p : Port) | memory (k : Kiln) | ring | home
  deriving DecidableEq, Repr

/-! ## Operands -/

/-- The strap levels at a rising edge of PWRGOOD; `none` for a strap that changes in the window of R650. -/
structure Straps where
  hp0Mode : Option Bool
  bootSrc : Option Bool
  debugEn : Option Bool
  deriving DecidableEq, Repr

/-- What a host read answers (R137). -/
inductive HostRes where
  | data (d : Block) | unsupported | abort | poisoned
  deriving DecidableEq, Repr

/-- What a host read that is outstanding serves (R137, R245, R426, R258, R266). -/
inductive HostRead where
  | line0 | fetch | mboxPayload (n : Fin 3) | moverBlock (m : Mover) | engineLoad (e : Eng) (tbi : BitVec 10)
  | waitPoll (idx : BitVec 32)
  /-- a 64-byte block that a collective unit or device firmware reads -/
  | block (addr : Nat)
  deriving DecidableEq, Repr

/-- The fields of configuration space that the manual names (R134 to R142, R160, R161, R669). -/
inductive CfgItem where
  | vendorId | deviceId | classCode | headerType | revisionId | subsystem | interruptPin | serial
  | capability (offset : BitVec 12) | initialVFs | totalVFs | firstVFOffset | vfStride | numVFs | vfEnable | ariHier
  | pageSizes | pageSize | bar (n : Fin 6) | vfBar (n : Fin 6) | busMaster | msixEnable | funcMask | relaxedOrdering
  | noSnoop | atomicReq | powerState | noSoftReset | routingId | maxPayload | maxReadReq | cplTimeoutRange | cplTimeoutOff
  deriving DecidableEq, Repr

inductive CfgAccess where
  | read (i : CfgItem)
  | write (i : CfgItem) (v : BitVec 32)
  deriving DecidableEq, Repr

/-- Which VIs a reset that has completed covers (R162, R164). -/
inductive ResetSet where
  | one (vi : Vi) | port1 | pfVfs (p : HPort)
  deriving DecidableEq, Repr

/-- A self-test failure: the unit and the failing address or channel (R531). -/
structure TestFail where
  unit : FUnit
  info : BitVec 64
  deriving DecidableEq, Repr

/-- A lane group of one direction of a link; `up` is the direction toward the higher die index. -/
structure Lane where
  link : Link
  up : Bool
  group : Fin 5
  deriving DecidableEq, Repr

/-- An image as it lies in a slot: its header of 512 bytes, and the body (Table: Image header). -/
structure Image where
  header : List Byte
  body : List Byte
  deriving DecidableEq, Repr

/-- The rails of R51: the shared ones numbered in table order from 0 (VDD_AUX) to 10 (VDDH_SDS), and the kiln rails. -/
inductive Rail where
  | shared (n : Fin 11) | kiln (k : Kiln)
  deriving DecidableEq, Repr

/-- A grant of the host (R188). -/
inductive Grant where
  | s | e | m
  deriving DecidableEq, Repr

/-- What a read of fetched descriptors answers. -/
inductive FetchRes where
  | data (d : List Block) | failed | poisoned
  deriving DecidableEq, Repr

/-- Which watched or polled line of a VI a read is for (R215). -/
inductive LineKind where
  | doorbell | mailbox
  deriving DecidableEq, Repr

/-- How a mover block ends on the host or the fabric side (R258). -/
inductive BlockRes where
  | done (src : List Byte) | hostFailed (srcSide : Bool) | poisoned
  deriving DecidableEq, Repr

/-- How an 8-byte or 64-byte host access of an engine ends. -/
inductive LoadRes where
  | data (d : Block) | failed | poisoned
  deriving DecidableEq, Repr

/-- How an STC ends at its target (R367, R371, R373). -/
inductive StcRes where
  | device | line (inM : Bool) | cas (original : U64) | casPoisoned | failed
  deriving DecidableEq, Repr

/-- What the check of one read finds: of a memory granule (R422 to R424), of a stored microword (R409). -/
inductive Ecc where
  | clean | corrected | uncorrectable
  deriving DecidableEq, Repr

/-- The fields of a scalar slot: SOP operands (R389). -/
structure Alu where
  dst : BitVec 6
  src1 : BitVec 6
  src2 : BitVec 6
  imm : BitVec 16
  sel : BitVec 2
  deriving DecidableEq, Repr

/-- The fields of a memory slot (R389). -/
structure MemSlot where
  addr : BitVec 6
  sp : BitVec 6
  tbi : BitVec 10
  ord : BitVec 2
  ainc : Bool
  deriving DecidableEq, Repr

/-- MXFMT (R389). -/
inductive MxFmt where
  | int4 | int8 | fp8 | bf16 | fp16
  deriving DecidableEq, Repr

structure StreamSlot where
  fmt : MxFmt
  acc : Bool
  e5t : Bool
  e5m : Bool
  src : BitVec 6
  dst : BitVec 6
  inc : Bool
  deriving DecidableEq, Repr

structure VecSlot where
  dst : BitVec 6
  src1 : BitVec 6
  src2 : BitVec 6
  inc : Bool
  deriving DecidableEq, Repr

/-- A hello (R461). -/
structure Hello where
  uid : BitVec 64
  node : BitVec 18
  nodeValid : Bool
  port : BitVec 5
  role : BitVec 2
  curEpoch : Bool
  seenUid : BitVec 64
  seenNode : BitVec 18
  seenValid : Bool
  seenPort : BitVec 5
  deriving DecidableEq, Repr

/-- A VFP frame's header and payload (R452). -/
structure Frame where
  ver : BitVec 4
  kind : BitVec 4
  vc : BitVec 3
  epoch : Bool
  esc : Bool
  reservedZero : Bool
  hops : BitVec 6
  dst : BitVec 18
  src : BitVec 18
  len : BitVec 13
  lseq : BitVec 12
  kspec : BitVec 120
  hcrcOk : Bool
  tagged : Bool
  payload : List Byte
  deriving DecidableEq, Repr

/-- How a received sequenced frame fares at the MAC (R456, R458). -/
inductive Fcs where
  | good | bad | stomped
  deriving DecidableEq, Repr

/-- A RoCEv2 packet as the flue die checks it (R432, R439). -/
structure Packet where
  icrcOk : Bool
  addrOk : Bool
  qpn : BitVec 24
  psn : BitVec 24
  opcode : BitVec 8
  ackReq : Bool
  va : BitVec 64
  rkey : BitVec 32
  dmaLen : BitVec 32
  imm : BitVec 32
  ce : Bool
  pcp : BitVec 3
  bytes : BitVec 20
  payload : List Byte
  deriving DecidableEq, Repr

/-- The frames that a port's role does not accept (R432, R447, R449). -/
inductive OtherFrame where
  | unknownType | roceOnFabric | vfpOnIngest | pause | cnp
  deriving DecidableEq, Repr

/-- An upset of the collector's own storage (R567, R568). -/
inductive Upset where
  | handshake | control | logCorrected | logDamaged (i : Fin 16)
  deriving DecidableEq, Repr

inductive Space where
  | mgmt | vi
  deriving DecidableEq, Repr

/-! ## The commands -/

/-- One constructor per row of the table of operations and events, in the table's order. -/
inductive Instr where
  | auxPowerOn (st : Straps)
  | vddAuxFall
  | suppliesLost
  | coldReset (lowNs : Nat) (st : Straps)
  | powerDown
  | perst0Assert (lowNs : Nat)
  | perst1Assert (lowNs : Nat)
  | hotReset (p : HPort)
  | hostLinkLoss (p : HPort)
  | hostLinkUp (p : HPort) (width : Nat) (speed : Nat) (cxl : Bool)
  | pfFlr (pf : HPort)
  | vfFlr (vi : Vi)
  | vfEnableClear (pf : HPort)
  | numvfsWrite (pf : HPort) (n : BitVec 16)
  | viResetDone (which : ResetSet)
  | deviceResetEnd
  | testReset
  | busMasterDisable (vi : Vi)
  | d3hotEntry (pf : HPort)
  | d0Return (pf : HPort)
  | configAccess (vi : Vi) (acc : CfgAccess)
  | hostPoisonedWrite (vi : Vi)
  | hostReadCompletion (vi : Vi) (what : HostRead) (res : HostRes)
  | hostCompletionTimeout (vi : Vi) (what : HostRead)
  | msixUnmask (vi : Vi) (vec : Fin 4)
  | holdoffExpiry (vi : Vi)
  | smbusRead (cmd : Byte)
  | smbusWrite (cmd : Byte) (data : List Byte)
  | selfTest (lanes : List Lane) (fails : List TestFail)
  | imageCheck (slot : Fin 2) (img : Image)
  | vendorImageLoad (slot : Fin 2)
  | go (fn : Vi) (w : U64)
  | enterFired
  | warmReset (fn : Vi)
  | stage (fn : Vi) (w : U64) (low : Bool)
  | stageSectorDone (ok : Bool) (last : Bool) (sector : BitVec 24)
  | thermalSample (readings : List (Fin 78 × Int))
  | damperWindowEnd (watts : Nat)
  | railPowerGood (k : Kiln)
  | vsetPgTimeout (k : Kiln)
  | vsetAlert (k : Kiln) (status : Byte)
  | railOut (r : Rail) (ns : Nat) (status : Byte)
  | clockChange (e : Eng)
  | refclkLost (f : Flue)
  | pllLockLoss (i : Island)
  | pllRelock (i : Island)
  | pllLost (i : Island)
  | unitStall (i : Island) (live : FUnit)
  | islandReset (i : Island)
  | flitAckErr (lane : Lane) (nth : Nat)
  | ezbenPhaseTimeout (lane : Lane)
  | ezbenErrorWindowEnd (l : Link)
  | detourInstall (l : Link)
  | sliceLoad (h : Holder) (line : LineA) (stream : Bool)
  | sliceStore (h : Holder) (line : LineA) (mask : BitVec 64) (data : Block) (stream : Bool)
  | gets (r : Holder) (line : LineA) (age : BitVec 4)
  | getm (r : Holder) (line : LineA) (age : BitVec 4)
  | getcur (r : Holder) (line : LineA) (age : BitVec 4)
  | puts (r : Holder) (line : LineA) (age : BitVec 4) (data : Block) (poison : Bool)
  | puto (r : Holder) (line : LineA) (age : BitVec 4) (data : Block) (poison : Bool)
  | putm (r : Holder) (line : LineA) (age : BitVec 4) (data : Block) (poison : Bool)
  | dataresp (h : Holder) (line : LineA) (data : Block) (dirty : Bool) (poison : Bool)
  | invack (h : Holder) (line : LineA)
  | done (h : Holder) (line : LineA)
  | datas (h : Holder) (line : LineA) (data : Block) (poison : Bool)
  | datam (h : Holder) (line : LineA) (data : Block) (poison : Bool)
  | datacur (h : Holder) (line : LineA) (data : Block) (poison : Bool)
  | grantm (h : Holder) (line : LineA)
  | fwds (h : Holder) (line : LineA)
  | downs (h : Holder) (line : LineA)
  | fwdm (h : Holder) (line : LineA)
  | inv (h : Holder) (line : LineA)
  | ownx (h : Holder) (line : LineA)
  | putack (h : Holder) (line : LineA)
  | retry (h : Holder) (line : LineA)
  | nackp (h : Holder) (line : LineA)
  | snpdata (line : LineA)
  | snpinv (line : LineA)
  | snpcur (line : LineA)
  | goGrant (line : LineA) (g : Grant) (data : Block) (poison : Bool)
  | goI (line : LineA) (data : Block) (poison : Bool)
  | goErr (line : LineA)
  | goWritepull (line : LineA)
  | goWritepullDrop (line : LineA)
  | viralRx
  | cohTimeout (line : LineA)
  | pollInterval (vi : Vi) (k : LineKind)
  | line0ReadReturn (vi : Vi) (k : LineKind) (res : HostRes)
  | descriptorFetchReturn (vi : Vi) (res : FetchRes)
  | line1Write (vi : Vi) (ok : Bool)
  | dispatch (vi : Vi)
  | descriptorComplete (vi : Vi) (idx : BitVec 32) (ok : Bool)
  | nop (vi : Vi) (idx : BitVec 32)
  | copy (vi : Vi) (idx : BitVec 32)
  | fill (vi : Vi) (idx : BitVec 32)
  | moverBlock (m : Mover) (res : BlockRes)
  | launch (vi : Vi) (idx : BitVec 32)
  | signal (vi : Vi) (idx : BitVec 32) (ok : Bool)
  | wait (vi : Vi) (idx : BitVec 32)
  | waitPoll (vi : Vi) (idx : BitVec 32) (res : HostRes)
  | fence (vi : Vi) (idx : BitVec 32)
  | segSet (vi : Vi) (idx : BitVec 32)
  | recipeLoad (vi : Vi) (idx : BitVec 32)
  | coll (vi : Vi) (idx : BitVec 32)
  | groupSetDefine (vi : Vi) (idx : BitVec 32)
  | groupSetDelete (vi : Vi) (idx : BitVec 32)
  | windowSetOpen (vi : Vi) (idx : BitVec 32)
  | windowSetClose (vi : Vi) (idx : BitVec 32)
  | stamp (vi : Vi) (idx : BitVec 32) (ok : Bool)
  | coneSnap (vi : Vi) (idx : BitVec 32) (ok : Bool)
  | mboxDeliver (vi : Vi) (payload : FetchRes)
  | mboxUpWrite (vi : Vi) (e : Eng) (slot : Fin 4)
  | viEnable (vi : Vi)
  | viDisable (vi : Vi)
  | mboxEnable (vi : Vi)
  | mboxDisable (vi : Vi)
  | segMissService (vi : Vi)
  | missWatchdog (vi : Vi)
  | taskWordFetch (e : Eng)
  | launchIndexStart (e : Eng)
  | sliceEnd (e : Eng)
  | precommitBudgetEnd (e : Eng)
  | postcommitBudgetEnd (e : Eng)
  | commit (e : Eng) (ecc : Ecc)
  | endWord (e : Eng)
  | seqNext (e : Eng) (ecc : Ecc)
  | seqJump (e : Eng) (target : BitVec 12)
  | seqLoop (e : Eng) (target : BitVec 12) (lc1 : Bool)
  | seqBz (e : Eng) (target : BitVec 12)
  | seqBnz (e : Eng) (target : BitVec 12)
  | seqBn (e : Eng) (target : BitVec 12)
  | wflag (e : Eng) (src1 : BitVec 6) (count : BitVec 16)
  | wslotd (e : Eng) (src1 : BitVec 6)
  | wslotf (e : Eng) (src1 : BitVec 6)
  | wload (e : Eng)
  | sopNop (e : Eng)
  | mov (e : Eng) (a : Alu)
  | add (e : Eng) (a : Alu)
  | sub (e : Eng) (a : Alu)
  | and (e : Eng) (a : Alu)
  | or (e : Eng) (a : Alu)
  | xor (e : Eng) (a : Alu)
  | shl (e : Eng) (a : Alu)
  | shr (e : Eng) (a : Alu)
  | sar (e : Eng) (a : Alu)
  | mul (e : Eng) (a : Alu)
  | cmpu (e : Eng) (a : Alu)
  | mopNop (e : Eng)
  | ld64 (e : Eng) (m : MemSlot)
  | st64 (e : Eng) (m : MemSlot)
  | tb2sp (e : Eng) (m : MemSlot)
  | sp2tb (e : Eng) (m : MemSlot)
  | ldr (e : Eng) (m : MemSlot)
  | stc (e : Eng) (m : MemSlot)
  | bar (e : Eng)
  | drain (e : Eng)
  | slotrd (e : Eng) (m : MemSlot)
  | slotwr (e : Eng) (m : MemSlot)
  | fclr (e : Eng) (m : MemSlot)
  | probe (e : Eng) (m : MemSlot)
  | mxNop (e : Eng)
  | shift (e : Eng) (fmt : MxFmt) (src : BitVec 6) (idx : BitVec 6)
  | swap (e : Eng)
  | stream (e : Eng) (x : StreamSlot)
  | vopNop (e : Eng)
  | fma (e : Eng) (v : VecSlot)
  | vadd (e : Eng) (v : VecSlot)
  | vmul (e : Eng) (v : VecSlot)
  | vmax (e : Eng) (v : VecSlot)
  | vmin (e : Eng) (v : VecSlot)
  | exp (e : Eng) (v : VecSlot)
  | rsq (e : Eng) (v : VecSlot)
  | cvt (e : Eng) (v : VecSlot) (srcT : BitVec 4) (dstT : BitVec 4) (sat : Bool)
  | loadReturn (e : Eng) (attempt : Nat) (tbi : BitVec 10) (res : LoadRes)
  | stcResult (e : Eng) (res : StcRes)
  | storeBufferPass (e : Eng) (ok : Bool)
  | gatherPass (k : Kiln)
  | shiftStall (e : Eng)
  | memRead (addr : BitVec 38) (ecc : Ecc)
  | scrubRead (c : Chan) (ecc : Ecc)
  | memFailed (k : Kiln) (stuck : BitVec 8)
  | portLinkUp (p : Port) (speed : BitVec 2)
  | portLinkLoss (p : Port)
  | helloTx (p : Port)
  | helloRx (p : Port) (h : Hello)
  | helloLoss (p : Port)
  | ingestFallback (p : Port)
  | linkTx (p : Port)
  | linkRx (p : Port) (cred : List (BitVec 12)) (ackLseq : BitVec 12) (nak : Bool)
  | seqFrameRx (p : Port) (f : Frame) (fcs : Fcs)
  | replayTimeout (p : Port)
  | routeFrame (f : Frame) (inPort : Option Port)
  | writeRx (f : Frame)
  | writeAckTx
  | ackRx (f : Frame)
  | writeTimeout (ctx : BitVec 12) (offset : BitVec 48)
  | epochArm (fn : Vi)
  | epochFlip (fn : Vi) (alsoArm : Bool)
  | graceEnd
  | ingestPacket (p : Port) (k : Packet)
  | ingestAck (qp : Grp)
  | ingestCompletion (vi : Vi) (ok : Bool)
  | pfcXoffRepeat (p : Port)
  | pfcXon (p : Port) (bytes : BitVec 20)
  | pfcRx (p : Port) (prios : BitVec 8) (quanta : BitVec 16)
  | collLaunch (vi : Vi) (idx : BitVec 32)
  | arrive (g : Grp) (seq : BitVec 16) (src : BitVec 18) (sig : BitVec 32) (payload : List Byte)
  | release (g : Grp) (seq : BitVec 16) (src : BitVec 18) (payload : List Byte)
  | grant (g : Grp) (seq : BitVec 16) (src : BitVec 18) (units : BitVec 32)
  | abort (g : Grp) (seq : BitVec 16) (src : BitVec 18) (code : Byte) (arg : BitVec 32)
  | collDataRx (g : Grp) (seq : BitVec 16) (src : BitVec 18) (up : Bool) (sherd : BitVec 24) (off : BitVec 22)
      (last : Bool) (crc : BitVec 32) (payload : List Byte)
  | stagePlace (g : Grp)
  | collDeadline (g : Grp)
  | collComplete (g : Grp)
  | collectorCycle (up : Option Upset)
  | unitFence (u : FUnit)
  | safeEntry
  | fltClearSeq (v : BitVec 32)
  | unfreeze
  | heartbeatStrobe
  | aliveHalfWindow
  | heartbeatWindowEnd
  | rtcTick
  | oscStopped
  | vbatSample (mv : Nat)
  | rtcSubsecRead (upperOnly : Bool)
  | rtcSet
  | counterEvent (c : Ctr) (event : BitVec 6) (unit : BitVec 4) (n : Nat)
  | counterWindowEnd (c : Ctr)
  | shadowSeqUpdate
  | windowEnable (on : Bool) (lenM1 : Option (BitVec 32))
  | cntValLoRead (c : Ctr)
  | cntValLoWrite (c : Ctr) (v : BitVec 32)
  | cntValHiWrite (c : Ctr) (v : BitVec 32)
  | genCommit (fn : Vi) (w : U64)
  | changeTakeup (u : CUnit)
  | forcedTakeup
  | changeLate
  | registerWrite (fn : Vi) (sp : Space) (off : BitVec 24) (size : Nat) (v : U64)
  | internalResetRelease (vbatMv : Nat)
  | memUeWindowEnd (k : Kiln)
  | linkRecovery (p : HPort) (back : Bool)
  | otherFrameRx (p : Port) (kind : OtherFrame)
  | pfcPauseExpiry (p : Port) (prio : Fin 8)
  | noticeGapEnd
  | testClockEdge (tms : Bool) (tdi : Bool)
  deriving DecidableEq, Repr

end Sys2Proof
end

