-- ==== Sys2Proof/Decode.lean ====
section
/-! DEFINITION. The table of operations and events gives no row any bits: a command is not spelled by a word, and
no word decodes to one. -/

namespace Sys2Proof

/-- The command that a word of the table's bits spells: the table has no such row. -/
def decodeTableWord (_nbits _w : Nat) : Option Instr := none

end Sys2Proof
end

