-- ==== Sys2Proof/Config.lean ====
section
/-! DEFINITION. What an implementation fixes and the manual does not give: constants and free values with no body. -/

namespace Sys2Proof

/-- The PCI vendor identifier FJ_VID, which the manual names and does not number (R625). -/
opaque Config.vendorId : BitVec 16

/-- A free value: nothing constrains it. A step that needs one applies it to State.freeCtr, which it advances. -/
opaque Config.freeNat : Nat → Nat

/-- Which result within 2 ulp VEXP returns for an operand (R391): the same on every engine of every device. -/
opaque Config.expPick : BitVec 32 → Nat

/-- Which result within 2 ulp VRSQ returns for an operand (R391). -/
opaque Config.rsqPick : BitVec 32 → Nat

/-- The subsystem identifier from fuses, which the manual does not give (Table: Function identity). -/
opaque Config.subsystemId : BitVec 32

/-- What an SMBus identity or status read returns for a command code; the manual gives no contents (R50). -/
opaque Config.smbusByte : BitVec 8 → Nat → BitVec 8

/-- The first flit of a packet of the kiln mesh, whose layout the manual does not give, by the message it carries. -/
opaque Config.meshHead : Instr → BitVec 128

end Sys2Proof
end

