-- ==== Sys2Proof/Machine/Bits.lean ====
section
/-! DEFINITION. Operations on sparse maps, bit fields, byte order and check sums. -/

namespace Sys2Proof

/-- The value at a key; a key that is not listed reads as `d`. -/
def mget {α : Type} (d : α) : SMap α → Nat → α
  | [], _ => d
  | (k', v) :: t, k => if k' = k then v else mget d t k

/-- The map without a key. -/
def mdel {α : Type} : SMap α → Nat → SMap α
  | [], _ => []
  | (k', v) :: t, k => if k' = k then mdel t k else (k', v) :: mdel t k

/-- The map with a key set, in rising key order. -/
def mins {α : Type} : SMap α → Nat → α → SMap α
  | [], k, v => [(k, v)]
  | (k', v') :: t, k, v =>
    if k < k' then (k, v) :: (k', v') :: t
    else if k' = k then (k, v) :: t
    else (k', v') :: mins t k v

/-- Set a key; a value equal to the default is not listed. -/
def mset {α : Type} [DecidableEq α] (d : α) (m : SMap α) (k : Nat) (v : α) : SMap α :=
  if v = d then mdel m k else mins m k v

/-- Apply a function at one key. -/
def mupd {α : Type} [DecidableEq α] (d : α) (m : SMap α) (k : Nat) (f : α → α) : SMap α :=
  mset d m k (f (mget d m k))

/-- The canonical form of a map: keys strictly rising, and no value equal to the default. -/
abbrev mwf {α : Type} [DecidableEq α] (d : α) (m : SMap α) : Prop :=
  m.Pairwise (fun a b => a.1 < b.1) ∧ ∀ p ∈ m, p.2 ≠ d

/-- Bits [lo + w - 1 : lo] of a number. -/
def bits (n lo w : Nat) : Nat := n / 2 ^ lo % 2 ^ w

/-- One bit of a number. -/
def bitAt (n i : Nat) : Bool := n / 2 ^ i % 2 == 1

/-- 1 for true. -/
def b2n (b : Bool) : Nat := if b then 1 else 0

/-- A number of `w` bits read as two's complement. -/
def signed (n w : Nat) : Int := if n % 2 ^ w < 2 ^ (w - 1) then (n % 2 ^ w : Nat) else (n % 2 ^ w : Nat) - (2 ^ w : Int)

/-- A count that saturates at the largest value of `w` bits. -/
def satAdd (n k w : Nat) : Nat := min (n + k) (2 ^ w - 1)

/-- The little-endian number of a byte list (R16). -/
def leNat : List Byte → Nat
  | [] => 0
  | b :: t => b.toNat + 256 * leNat t

/-- The first `n` bytes of a number, little-endian (R16). -/
def natBytes (n v : Nat) : List Byte := (List.range n).map fun i => BitVec.ofNat 8 (v / 256 ^ i)

/-- A field of a 64-byte block: `n` bytes from byte `at_`. -/
def blockField (b : Block) (at_ n : Nat) : Nat := bits b.toNat (8 * at_) (8 * n)

/-- The bytes of a block. -/
def blockBytes (b : Block) : List Byte := natBytes 64 b.toNat

/-- A block from bytes. -/
def bytesBlock (l : List Byte) : Block := BitVec.ofNat 512 (leNat (l.take 64))

/-- One step of a reflected CRC-32C over one bit (polynomial 0x1EDC_6F41, reflected 0x82F6_3B78). -/
def crc32cBit (c : Nat) : Nat := if c % 2 = 1 then (c / 2).xor 0x82F63B78 else c / 2

/-- One byte of CRC-32C. -/
def crc32cByte (c : Nat) (b : Byte) : Nat :=
  (List.range 8).foldl (fun c _ => crc32cBit c) (c.xor b.toNat)

/-- CRC-32C as 00_scope.md gives it: initial value and final XOR 0xFFFF_FFFF. -/
def crc32c (l : List Byte) : Nat := (l.foldl crc32cByte 0xFFFFFFFF).xor 0xFFFFFFFF

/-- One bit of the CRC-8 of R81: polynomial 0x07, not reflected. -/
def crc8Bit (c : Nat) : Nat := if c ≥ 128 then (2 * c % 256).xor 7 else 2 * c

/-- The CRC-8 of R81: initial value 0, no reflection, no final XOR. -/
def crc8 (l : List Byte) : Nat :=
  l.foldl (fun c b => (List.range 8).foldl (fun c _ => crc8Bit c) (c.xor b.toNat)) 0

end Sys2Proof
end

