-- ==== Sys2Proof/Machine/State.lean ====
section
/-! DEFINITION. The state of the UT16-K as plain data, its reset, and the reasons a step can stop. Arrays of units are
sparse maps: an unlisted key reads as the default value named beside the map. -/

namespace Sys2Proof.Machine

/-! ## Why a step stops -/

/-- The faults of a step: none. Where the manual calls a host error's result unpredictable the device goes on with free
values (R6, R7, R661). -/
inductive Fault where
  deriving DecidableEq, Repr

/-- The refusals of a step. -/
inductive Refusal where
  /-- Raised by exec's arm for a command that has no meaning yet. Safe. -/
  | notModelled (mnemonic : String)
  /-- Raised by a meaning whose command names a unit, a link or a form that the device does not have (Instr.wf is
  false). Safe. -/
  | noSuchUnit
  deriving DecidableEq, Repr

/-! ## Register fields that software writes, or that hardware counts in -/

/-- The stored register fields of chapter 19, one name each. Read-only fields that show a piece of state are read from
that state and are not listed here. -/
inductive F where
  | bootAdopt | stageOffset | noticeEn
  | dvfsTarget | damperMode | damperWindow | tempLimit | budget
  | delivery | pollNs | pollBudget
  | cohEnable | failMode | ageLimit | cohLog2 | plAddr | plCause | plOverrun | plValid
  | partMask | bindValid | rcpEn | bindPart | spBase | spSize | flagBase | flagCount | slotMask
  | allotDevBase | allotDevSize | allotHostBase | allotHostSize
  | retryLimit | segMisses | segSwaps | segFaults | segLongest | sliceUs
  | interleave | scrubHours | eccCorrected | eccUncorrected | lastUe | retainArm
  | ingEnable | rnrTimer | cnpInterval | pfcPrio | qpBase | portMask
  | nodeId | nodeValid | etherType | vcWeight | graceMs
  | portEnable | portRole | portSpeed | macLo | expectEn | expectPort | expectNode
  | discards | replays | stale | unreach
  | colEnable | groupBase | colTimeout | abortsOrig | abortsRx | crcFails | timeouts
  | fltNotice | noticeMinUs | missed | masked | selfCorr | fltMask | pinThreshold | pinPeriod
  | setSecLo | setSecHi | setSub | trim | vbatLow | oscStopped
  | cntEvent | cntUnit | cntEnable | cntMode | cntOvfIrq | cntAll
  | lenM1 | winEnable | clearOnEnd | ovfNotice | winNotice
  | viEnable | mboxEn | cmdBase | cmdLog2 | cplBase | cplLog2 | doorbell | mailbox | holdoffUs | ingestIrq
  | devVbase | devTarget | devSize | hostVbase | hostTarget | hostSize | hostAttr
  | ovfEnable | ovfOffset | collTimeoutUs | stageSp | stageSlots | fabKey
  deriving DecidableEq, Repr

/-! ## Parts of the state -/

/-- GEN_STATE.STATE (R95). -/
inductive Boot where
  | bisque | glazing | fired | safe
  deriving DecidableEq, Repr

/-- Table: Loss causes. -/
inductive Loss where
  | perst0 | linkLoss | hotReset | pf0Flr | warm | cold | safe
  deriving DecidableEq, Repr

/-- GEN_STATUS.STAGE_STATE (R122). -/
inductive StageState where
  | idle | checking | saving | writing | done | failed
  deriving DecidableEq, Repr

/-- GEN_STATUS.BOOT_ERR. -/
inductive BootErr where
  | none | slotFallback | noImage | layoutMismatch | notRetained | stageBad | stageFlash
  deriving DecidableEq, Repr

/-- HP_MODE.PORT0. -/
inductive Port0Mode where
  | pcie | cxl | cxlFallback
  deriving DecidableEq, Repr

/-- Table: Completion statuses. -/
inductive Status where
  | ok | zero | hostAccessErr | poisoned | segFault | collTimeout | collAbortPeer | collCheck | collLinkLost
  | collMismatch | fencedUnit | viReset | ingestWindow
  deriving DecidableEq, Repr

/-- The fuses (R56, R101, R625, R49). -/
structure Fuses where
  uid : BitVec 64 := 0
  revision : Byte := 0
  keyDigests : List (BitVec 384) := [0, 0, 0, 0]
  keyIntact : List Bool := [true, false, false, false]
  minSvn : Nat := 0
  trims : SMap Nat := []
  debugDisable : Bool := false
  deriving DecidableEq, Repr

/-- Supplies, straps and sideband pins (R47 to R51, R59). -/
structure Board where
  pwrgood : Bool := true
  vddAux : Bool := true
  vbatOk : Bool := true
  hp0Mode : Bool := false
  bootSrc : Bool := false
  debugEn : Bool := false
  perst0 : Bool := false
  perst1 : Bool := false
  alive : Bool := false
  thermAlert : Bool := false
  /-- the fabric SerDes are electrically idle, and the host SerDes have been released to link training (R59) -/
  serdesIdle : Bool := true
  hostDriven : Bool := false
  /-- SPI_CLK, SPI_CS_N and SPI_IO0 to SPI_IO3 are driven; otherwise they are at high impedance (R100, R564) -/
  spiDriven : Bool := true
  selfRefresh : Bool := false
  deriving DecidableEq, Repr

/-- The retention record (R116). -/
structure RetRec where
  valid : Nat := 0
  cause : Nat := 0
  generation : BitVec 32 := 0
  layoutCrc : Nat := 0
  lossSec : Nat := 0
  lossSub : Nat := 0
  fencedKiln : Nat := 0
  interleave : Nat := 0
  fwVer : BitVec 32 := 0
  srEntryNs : Nat := 0
  recordCrc : Nat := 0
  deriving DecidableEq, Repr

/-- One kiln die's rail and damper (R52 to R63): the clock ceiling in 50 MHz steps above 0.50 GHz, the voltage code that
is confirmed, a code written and not yet confirmed, the sensors whose critical reading still clamps the die, and the
samples of the open window. -/
structure Rails where
  ceiling : Nat := 18
  code : Nat := 30
  pend : Option Nat := none
  clamp : List (Fin 78) := []
  hot : Bool := false
  notCool : Bool := false
  deriving DecidableEq, Repr

/-- One direction of an Ezben link (R84 to R86). -/
structure Lanes where
  failed : List (Fin 5) := []
  spared : Option (Fin 5) := none
  window : SMap Nat := []
  deriving DecidableEq, Repr

/-- A descriptor that was dispatched: its command-ring index, and which enable of its VI it was dispatched under (R246). -/
structure Job where
  idx : BitVec 32 := 0
  lap : Nat := 0
  deriving DecidableEq, Repr

/-- Whom an access to a host line, carried by the slices and the home, serves: an engine's load, reserved load, store or
STC, a mover's source or destination, a read or write of the ring and mailbox engine, or a block that device firmware or a
collective unit has asked for. -/
inductive Who where
  | other
  | load (e : Eng) (att : Nat) (tbi : BitVec 10)
  | ldr (e : Eng) (att : Nat)
  | store (e : Eng) (v : Vi) (idx : Job) (k : Nat) (ea : Nat)
  | stc (e : Eng) (reg : Nat)
  | source (m : Mover)
  | dest (m : Mover) (v : Vi) (idx : Job) (pos : Nat) (a : Nat)
  | line (v : Vi) (k : LineKind)
  | fetch (v : Vi)
  | mbox (v : Vi)
  | poll (v : Vi) (idx : Job)
  | flag (v : Vi)
  | data (v : Vi) (idx : Job)
  | block (v : Vi) (a : Nat)
  deriving DecidableEq, Repr

/-! ### The kiln mesh (chapter 3) -/

/-- The message classes of R78, each with its own network channels. -/
inductive MCls where
  | request | response
  deriving DecidableEq, Repr

/-- Where a packet is: held back at its writer, in its source island's FIFO, on the hop of its route that it crosses until
the link has delivered so many flits in all, or in its destination island's FIFO (R77, R79). -/
inductive Stage where
  | held | out | hop (n : Nat) (upto : Nat) | arrived
  deriving DecidableEq, Repr

/-- A packet between two islands: the command that its arrival is, and its FIFO entries, which are its flits. -/
structure MeshPkt where
  src : Island
  dst : Island
  cls : MCls
  msg : Instr
  flits : List (BitVec 128)
  stage : Stage := .held
  /-- the links of its route, each with its direction, as it set out -/
  path : List (Link × Bool) := []
  who : Who := .other
  deriving DecidableEq, Repr

/-- The four phases of R82 on one half of a lane group: nothing raised; rails raised; acknowledged; returned to zero. -/
inductive HalfPhase where
  | zero | raised | acked | lowered
  deriving DecidableEq, Repr

/-- The dual-rail acknowledge (R80). -/
inductive Ack where
  | none | ok | err
  deriving DecidableEq, Repr

/-- One half of a logical lane group (R80, R82): the flit it moves and its number on the link, 68 digits of 4 rails, and
the acknowledge. -/
structure Half where
  phase : HalfPhase := .zero
  flit : Option (Nat × BitVec 128) := none
  rails : BitVec 272 := 0
  ack : Ack := .none
  deriving DecidableEq, Repr

/-- One direction of a link as its two monitors see it: flits not yet on a half, the number of the next one, the eight
halves, flits received out of turn, and how many the receiver has delivered in order. -/
structure Wire where
  queue : List (BitVec 128) := []
  next : Nat := 0
  halves : SMap Half := []
  rx : SMap (Option (BitVec 128)) := []
  given : Nat := 0
  deriving DecidableEq, Repr

/-- A host port's link (R130, R162). -/
structure HostPort where
  dlUp : Bool := false
  speed : Nat := 0
  width : Nat := 0
  cxl : Bool := false
  recovering : Bool := false
  deriving DecidableEq, Repr

/-- A PF's controls, with its BARs (0 to 5) and the VF BARs of its SR-IOV capability (16 to 21) (R140 to R142, R161,
R669). -/
structure Pf where
  numVFs : Nat := 0
  vfEnable : Bool := false
  ari : Bool := false
  pageSize : Nat := 1
  relaxed : Bool := true
  atomicReq : Bool := false
  /-- Max Payload Size and Max Read Request Size, as codes for 128 bytes times a power of two, and the completion timeout's
  range and disable (R134) -/
  maxPayload : Nat := 0
  maxReadReq : Nat := 2
  ctoRange : Nat := 0
  ctoOff : Bool := false
  bars : SMap (BitVec 32) := []
  d3hot : Bool := false
  deriving DecidableEq, Repr

/-- An MSI-X table entry. -/
structure MsixEntry where
  addr : BitVec 64 := 0
  data : BitVec 32 := 0
  masked : Bool := true
  deriving DecidableEq, Repr

/-- A function's own enables and interrupts (R157 to R160). -/
structure Fn where
  busMaster : Bool := false
  msixEnable : Bool := false
  funcMask : Bool := false
  msix : SMap MsixEntry := []
  pba : SMap Bool := []
  holdoff : Bool := false
  holdPending : Bool := false
  deriving DecidableEq, Repr

/-- How a descriptor ended (R277). `openValue`: no rule states VALUE for this ending, and the entry carries a free
value there. -/
structure Compl where
  status : Status := .ok
  value : U64 := 0
  addr : U64 := 0
  detail : BitVec 16 := 0
  openValue : Bool := false
  deriving DecidableEq, Repr

/-- A descriptor that has been dispatched and whose entry has not been written. -/
structure Fly where
  idx : Job
  desc : Block
  fin : Option Compl := none
  left : Nat := 0
  fail : Option Compl := none
  exitV : U64 := 0
  at_ : Nat := 0
  started : Bool := false
  deriving DecidableEq, Repr

/-- A down message that the ring engine has taken (R234). -/
structure Down where
  seq : BitVec 32
  veng : Nat
  slot : Nat
  len : Nat
  line0 : Block
  /-- the reads of its payload have been issued, and the lines that they have brought, by number -/
  asked : Bool := false
  payload : SMap (Option Block) := []
  deriving DecidableEq, Repr

/-- What the ring engine writes for a VI, in order (R229, R232, R239, R247): a line, the message that follows it, a mailbox
slot that it frees, and the report that all is written. -/
inductive RingOut where
  | line (off : Nat) (b : Block)
  | irq (vec : Fin 4)
  | free (e : Eng) (slot : Fin 4)
  | idle
  deriving DecidableEq, Repr

/-- Who waits on a segment miss (R298, R303). -/
inductive MissWho where
  | engine (e : Eng) | mover (m : Mover) | ring (idx : Job) | coll (g : Grp) | task (e : Eng)
  deriving DecidableEq, Repr

structure Miss where
  addr : Nat
  who : MissWho
  at_ : Nat
  deriving DecidableEq, Repr

/-- A VI: rings, doorbell, mailbox and service state (R205 to R249). -/
structure ViSt where
  ciCmd : BitVec 32 := 0
  pi : BitVec 32 := 0
  seqSeen : BitVec 32 := 0
  ciCpl : BitVec 32 := 0
  upAck : BitVec 32 := 0
  piCpl : BitVec 32 := 0
  reserved : Nat := 0
  lastDown : BitVec 32 := 0
  upSeq : BitVec 32 := 0
  mboxAck : BitVec 32 := 0
  mboxStatus : Nat := 0
  line1Due : Bool := false
  dbWake : Bool := false
  mbWake : Bool := false
  dbReading : Bool := false
  mbReading : Bool := false
  dbWatched : Bool := false
  mbWatched : Bool := false
  dbPolled : Bool := false
  mbPolled : Bool := false
  fetched : List (BitVec 32 × Block) := []
  fly : List Fly := []
  evenEntry : List Byte := []
  stopped : Bool := false
  stopCause : Nat := 0
  stopPoison : Bool := false
  ringIdle : Bool := true
  cplFull : Bool := false
  fetching : Nat := 0
  down : Option Down := none
  upMsgs : List (Eng × Fin 4) := []
  misses : List Miss := []
  segHit : SMap Nat := []
  changing : Option (Fin 16) := none
  resetting : Bool := false
  /-- what the ring engine has still to write, in order -/
  outq : List RingOut := []
  /-- the enable under which the VI runs, counted (R246) -/
  lap : Nat := 0
  /-- a host error of the VI stands: its result is unpredictable until the VI is reset or enabled again (R658, R660) -/
  wild : Bool := false
  /-- ENABLE was set while the ring engine could not start the VI (R214) -/
  startDue : Bool := false
  /-- ingest entries that wait to become visible (R444): status, detail, window, QP, value, address -/
  ingest : List (Compl × Nat × Nat) := []
  deriving DecidableEq, Repr

/-- A live segment, in 2 MiB units (Table: Contents of one segment). -/
structure Seg where
  vbase : Nat
  target : Nat
  size : Nat
  attr : Nat
  deriving DecidableEq, Repr

/-- Where a translated access lands. -/
inductive Target where
  | dev (a : Nat)
  | host (a : Nat) (stream : Bool)
  deriving DecidableEq, Repr

/-- A store-buffer entry (R359, R361). -/
structure SbEnt where
  tgt : Target
  data : List Byte
  release : Bool := false
  vi : Vi
  veng : Nat := 0
  addr : Nat := 0
  fly : Job := {}
  k : Nat := 0
  /-- the attempt of the routine that stored it: the blocks of one STSR share it -/
  att : Nat := 0
  deriving DecidableEq, Repr

/-- A die write gather entry (R350). -/
structure Gather where
  eng : Eng
  vi : Vi
  addr : Nat
  data : List Byte
  deriving DecidableEq, Repr

/-- A reservation (R366, R367): the target, the engine address of the LDR, the value loaded. -/
structure Resv where
  tgt : Target
  ea : Nat
  value : U64
  /-- the engine's slice keeps it, with the line in M -/
  cxl : Bool := false
  deriving DecidableEq, Repr

/-- An STC whose result has not arrived (R368): its launch index, the register, the target, whether the reservation holds
(for a host line: until its slice performs the store). -/
structure Stc where
  vi : Vi
  idx : Job
  k : Nat
  reg : Nat
  tgt : Target
  ea : Nat
  cxl : Bool
  ok : Bool
  compare : U64
  new : U64
  deriving DecidableEq, Repr

/-- A mailbox slot (R316). -/
inductive SlotSt where
  | free | down | up
  deriving DecidableEq, Repr

structure Slot where
  st : SlotSt := .free
  data : List Byte := []
  vi : Nat := 0
  deriving DecidableEq, Repr

/-- A sherd flag (R315). -/
inductive Flag where
  | clear | set | failed
  deriving DecidableEq, Repr

/-- A launch index (R261, R326). -/
structure Index where
  vi : Vi
  idx : Job
  k : Nat
  veng : Nat
  count : Nat
  task : BitVec 48
  arg : U64
  deriving DecidableEq, Repr

/-- Where a routine stands. -/
inductive Phase where
  | between | pre | post
  deriving DecidableEq, Repr

/-- The private registers of a routine (Table: Microword registers). -/
structure Regs where
  u : SMap U64 := []
  x : SMap U64 := []
  lc0 : BitVec 16 := 0
  lc1 : BitVec 16 := 0
  mres : U64 := 0
  nexta : Option (BitVec 48) := none
  exitv : Option U64 := none
  z : Bool := false
  n : Bool := false
  deriving DecidableEq, Repr

/-- A host load that is out: transfer-buffer block, host address, engine address, whether the home carries it, and the
bytes that the engine's own store buffer held for it when it was issued (R359). -/
structure HLoad where
  tbi : BitVec 10
  host : Nat
  ea : Nat
  cxl : Bool
  fwd : List (Nat × List Byte)
  deriving DecidableEq, Repr

/-- What an engine has loaded of the next LDS ahead of the running one (R356): its task word, its address, the blocks by
number, and the host loads still out. -/
structure Ahead where
  word : U64
  addr : Nat
  got : SMap (Option Block) := []
  loads : List HLoad := []
  deriving DecidableEq, Repr

/-- A launch index on its engine: task registers, the routine of the held task word, and the word being issued. -/
structure Run where
  ix : Index
  task : BitVec 48
  word : U64 := 0
  phase : Phase := .between
  open_ : Bool := false
  upc : Nat := 0
  attempt : Nat := 0
  cycles : Nat := 0
  regs : Regs := {}
  /-- the registers as they stood when the word's first slot issued; none between words (R393) -/
  src : Option Regs := none
  sopDst : Option (BitVec 6) := none
  incs : List (BitVec 6 × Nat) := []
  /-- slots of the word that have issued: 0 scalar, 1 memory, 2 matrix, 3 vector, 4 commit -/
  done : List Nat := []
  /-- the accesses that a vendor routine makes before its commit microword have been issued in this attempt -/
  begun : Bool := false
  tbIn : SMap Block := []
  /-- host loads outstanding -/
  loads : List HLoad := []
  /-- the entries of the die write gather that a BAR waits for: those present when it issued (R358) -/
  gate : Option (List Gather) := none
  ahead : Option Ahead := none
  acquire : Bool := false
  /-- segments that the attempt has hit: host kind, contents -/
  hits : List (Bool × Seg) := []
  pins : List (Fin 16) := []
  retries : Nat := 0
  waitMiss : Bool := false
  resv : Option Resv := none
  fail : Option Compl := none
  ldr : Option (BitVec 10 × Target × Nat) := none
  ldrDone : Bool := false
  deriving DecidableEq, Repr

/-- An engine (R312 to R317, R350, R383): its stores, mailbox slots, flags, buffers, recipe banks and array planes. -/
structure EngSt where
  clk : Nat := 14
  want : Nat := 14
  queue : List Index := []
  run : Option Run := none
  away : List Run := []
  /-- the VI last taken up, and whether its slice has ended (R342) -/
  turn : Nat := 0
  sliceDue : Bool := false
  scratch : SMap Byte := []
  tbOut : List (BitVec 10 × SbEnt) := []
  sb : List SbEnt := []
  slots : SMap Slot := []
  flags : SMap Flag := []
  resv : Option Resv := none
  /-- STCs whose results are to come, oldest first -/
  stcs : List Stc := []
  bank0 : SMap (BitVec 192) := []
  bank1 : SMap (BitVec 192) := []
  active : Bool := false
  swapDue : Bool := false
  shadow : SMap Byte := []
  plane : SMap Byte := []
  deriving DecidableEq, Repr

/-- A mover: queued descriptors, the first of which runs, and the bytes of whole blocks it has written (R258). -/
structure MvSt where
  queue : List (Vi × Job) := []
  pos : Nat := 0
  /-- how much of the block's source has been asked of the host -/
  asked : Nat := 0
  ctx : Option (BitVec 12) := none
  failed : Option Compl := none
  sentAll : Bool := false
  deriving DecidableEq, Repr

/-! ### Coherence (chapter 6) -/

/-- Holder states (R192). -/
inductive HSt where
  | i | s | o | m | isD | imD | smG | omG | siA | oiA | miA | iiA
  deriving DecidableEq, Repr

/-- A waiting access of a holder. -/
inductive Wait where
  | load (stream : Bool)
  | store (mask : BitVec 64) (data : Block) (stream : Bool)
  deriving DecidableEq, Repr

/-- An access that its holder has ended and that its unit has not yet taken up: the line's data with its poison flag, or a
failure. `kept`: the line stands in the holder. `lost`: the line has left M or has been met by a home message since. -/
structure HRet where
  h : Holder
  line : LineA
  who : Who
  data : Block := 0
  poison : Bool := false
  failed : Bool := false
  kept : Bool := false
  lost : Bool := false
  deriving DecidableEq, Repr

/-- A line in a holder's store, or on its way there or home (R171, R192). -/
structure HLine where
  st : HSt := .i
  data : Block := 0
  poison : Bool := false
  age : Nat := 0
  lru : Nat := 0
  waits : List (Wait × Who) := []
  /-- the first waiting access needs a request that may not leave yet (R171, R190) -/
  parked : Bool := false
  /-- the line is to leave as soon as its Put may go (R184, R190), and the state in which its Put was sent (R177) -/
  leave : Bool := false
  put : HSt := .i
  deriving DecidableEq, Repr

/-- The host's grant in a directory entry. -/
inductive Hgrant where
  | i | s | x
  deriving DecidableEq, Repr

/-- HSTATE (R194). -/
inductive HomeSt where
  | idle | waitHost | waitLocal | waitDone | evict | evictSnooped | orphan
  deriving DecidableEq, Repr

inductive ReqKind where
  | getS | getM | getCur | itoM | wrCur | rdCur | put
  deriving DecidableEq, Repr

inductive Snoop where
  | data | inv | cur
  deriving DecidableEq, Repr

/-- What a home transaction does once every awaited response is in. -/
inductive Then where
  | reply (k : ReqKind) (r : Holder) (upgrade : Bool)
  | answer (s : Snoop)
  | recall
  | ringWrite (data : Block) (who : Who)
  deriving DecidableEq, Repr

/-- A directory entry with the home's transaction on it (R173, R179 to R199). -/
structure Dir where
  h : Hgrant := .i
  p : List Holder := []
  owner : Option Holder := none
  hs : HomeSt := .idle
  lru : Nat := 0
  /-- the request that waits on the host -/
  req : Option (ReqKind × Holder) := none
  /-- holders whose response is awaited -/
  await : List Holder := []
  todo : Option Then := none
  /-- a host response that came in while snoop responses were awaited (R187) -/
  hostData : Option (Block × Bool) := none
  data : Option (Block × Bool × Bool) := none
  held : List Snoop := []
  snoop : Option Snoop := none
  reissues : Nat := 0
  /-- COH_CTL.FAIL_MODE in force when the host request was issued -/
  domain : Bool := false
  hostReq : Option ReqKind := none
  /-- whom a whole-line write that waits for its write pull serves -/
  who : Who := .other
  deriving DecidableEq, Repr

/-- A request in the aged queue (R189). -/
structure Aged where
  line : LineA
  r : Holder
  kind : ReqKind
  data : Block := 0
  poison : Bool := false
  who : Who := .other
  deriving DecidableEq, Repr

/-! ### Fabric, ingest and collectives -/

/-- FAB_PORT_STATUS.STATE (R462). -/
inductive PState where
  | disabled | down | init | up | conflict | loop | miswired | ingest | held | fenced
  deriving DecidableEq, Repr

/-- The last collective frame that crossed a port, per group (R524). -/
structure CrossRec where
  seq : Nat := 0
  src : Nat := 0
  dst : Nat := 0
  valid : Bool := false
  deriving DecidableEq, Repr

/-- What a port sends to an appliance (R433): the NAK codes are those of the InfiniBand AETH. -/
inductive Roce where
  | ack (destQpn : Nat) (psn : Nat) (msn : Nat)
  | nak (destQpn : Nat) (psn : Nat) (msn : Nat) (code : Nat)
  | rnr (destQpn : Nat) (psn : Nat) (msn : Nat) (timer : Nat)
  | cnp (destQpn : Nat)
  deriving DecidableEq, Repr

structure PortSt where
  st : PState := .down
  cause : Nat := 0
  speed : Nat := 0
  linkUp : Bool := false
  heard : Bool := false
  nbr : Option Hello := none
  heardAt : Nat := 0
  upAt : Nat := 0
  downs : List Nat := []
  txSeq : Nat := 0
  rxSeq : Nat := 4095
  /-- a frame arrived in error: sequenced frames are discarded until the expected one comes -/
  waitSeq : Bool := false
  /-- credits spent and returned per virtual channel, modulo 4,096 (R454, R455) -/
  spent : SMap Nat := []
  back : SMap Nat := []
  owed : SMap Nat := []
  sent : SMap Nat := []
  hold : List (Frame × Nat) := []
  deficit : SMap Nat := []
  /-- priorities that a received PFC frame pauses, and what waits on them -/
  paused : SMap Nat := []
  heldTx : List (Nat × Roce) := []
  rxBytes : Nat := 0
  xoff : Bool := false
  cross : SMap CrossRec := []
  deriving DecidableEq, Repr

/-- A requester context: the WRITEs of a remote descriptor (R481). -/
structure Ctx where
  used : Bool := false
  vi : Nat := 0
  idx : Job := {}
  mover : Option Mover := none
  /-- WRITEs not yet acknowledged: offset, length, time sent, descriptor position -/
  pend : List (Nat × Nat × Nat × Nat) := []
  /-- the lowest failing block: descriptor position and offset -/
  fail : Option (Nat × Nat) := none
  total : Nat := 0
  all : Bool := false
  deriving DecidableEq, Repr

/-- An open fabric or ingest window (R271). -/
structure Win where
  open_ : Bool := false
  vi : Nat := 0
  rkey : BitVec 32 := 0
  base : Nat := 0
  size : Nat := 0
  peer : Nat := 0
  qp : Nat := 0
  deriving DecidableEq, Repr

/-- A bound queue pair (R434, R435). -/
structure Qp where
  bound : Bool := false
  window : Nat := 0
  rtr : Bool := false
  errCause : Nat := 0
  port : Nat := 0
  pmtu : Nat := 0
  pcp : Nat := 0
  destQpn : Nat := 0
  epsn : Nat := 0
  msn : Nat := 0
  drops : Nat := 0
  inMsg : Bool := false
  va : Nat := 0
  dmaLen : Nat := 0
  got : Nat := 0
  gapNak : Bool := false
  cnpAt : Option Nat := none
  sinceAck : Nat := 0
  ackDue : Bool := false
  deriving DecidableEq, Repr

/-- A collective that the device runs (R495 to R523). Edge 0 is the parent, edge 1 + j child j. -/
structure CollSt where
  active : Bool := false
  launched : Bool := false
  vi : Nat := 0
  idx : Job := {}
  desc : Block := 0
  deadline : Nat := 0
  members : Nat := 1
  rank : Nat := 0
  parent : Option Nat := none
  kids : List Nat := []
  listCrc : Nat := 0
  arrived : List Nat := []
  arriveSent : Bool := false
  released : Bool := false
  /-- 64 KiB units granted to this member, and bytes sent, per edge -/
  grants : SMap Nat := []
  sent : SMap Nat := []
  /-- bytes received per edge, by result offset, and the piece CRCs received -/
  got : SMap Nat := []
  rx : SMap (Option Byte) := []
  crcs : SMap (Option Nat) := []
  /-- pieces whose CRC has been checked, in order: edge × 2^24 + sherd -/
  checked : List Nat := []
  /-- payloads of ARRIVE and RELEASE of a SCALAR_REDUCE -/
  scalars : SMap (List Byte) := []
  /-- the member's own source bytes that have been read, by sherd (R504) -/
  src : SMap (Option (List Byte)) := []
  written : List Nat := []
  placed : List Nat := []
  /-- ARRIVEs that came before the launch: SEQ, sender, signature, payload -/
  early : List (Nat × Nat × Nat × List Byte) := []
  /-- GRANTs that came before the launch: SEQ, sender, units -/
  earlyGr : List (Nat × Nat × Nat) := []
  stageSp : Nat := 0
  stageSlots : Nat := 2
  deriving DecidableEq, Repr

/-- A flag range that stays FAILED after an abort (R523). -/
structure Refail where
  vi : Nat
  eng : Eng
  base : Nat
  count : Nat
  deriving DecidableEq, Repr

/-! ### Faults, clock and counters -/

/-- A fault raised and not yet read by the collector (R532, R533). -/
structure Raised where
  src : Nat
  cause : Nat
  info : BitVec 64
  vi : Option Nat
  part : Option Nat
  deriving DecidableEq, Repr

/-- A kiln log record (R540). -/
structure LogRec where
  seq : BitVec 32 := 0
  src : Nat := 0
  cause : Nat := 0
  freeze : Bool := false
  damaged : Bool := false
  sec : Nat := 0
  sub : Nat := 0
  gen : BitVec 32 := 0
  vi : Option Nat := none
  part : Option Nat := none
  repeats : Nat := 0
  info : BitVec 64 := 0
  deriving DecidableEq, Repr

structure Flt where
  raised : List Raised := []
  log : SMap LogRec := []
  newest : BitVec 32 := 0
  cleared : BitVec 32 := 0
  frozen : Bool := false
  collErr : Bool := false
  /-- the pin set: sequence number and class (R554) -/
  pins : List (BitVec 32 × Nat) := []
  safeStepsDone : Bool := false
  noticeGap : Bool := false
  noticeDue : Bool := false
  /-- heartbeat (R557 to R560) -/
  hbRunning : Bool := false
  hbStrobed : Bool := false
  hbMisses : Nat := 0
  hbWindow : Nat := 0
  hbPeriod : Nat := 10
  hbLost : Bool := false
  deriving DecidableEq, Repr

structure Rtc where
  sec : Nat := 0
  sub : Nat := 0
  /-- the correction accumulator of R578, in units of 0.5 millionths -/
  acc : Int := 0
  running : Bool := true
  staged : Option (Nat × Nat) := none
  snapSec : Nat := 0
  snapSub : Nat := 0
  deriving DecidableEq, Repr

structure CtrSt where
  val : Nat := 0
  ovf : Bool := false
  latch : Nat := 0
  latchOvf : Bool := false
  hi : Nat := 0
  deriving DecidableEq, Repr

structure WinGen where
  running : Bool := false
  k : Nat := 0
  wrote : List Nat := []
  seq : Nat := 0
  deriving DecidableEq, Repr

/-- The TAP controller of IEEE 1149.1. -/
inductive Tap where
  | testLogicReset | runTestIdle | selectDr | captureDr | shiftDr | exit1Dr | pauseDr | exit2Dr | updateDr
  | selectIr | captureIr | shiftIr | exit1Ir | pauseIr | exit2Ir | updateIr
  deriving DecidableEq, Repr

/-- What the device writes outside itself, or sends between its own units: recorded here in the order it is sent. -/
inductive Emit where
  | hostWrite (port : HPort) (vi : Vi) (addr : Nat) (data : List Byte) (relaxed : Bool)
  | hostRead (port : HPort) (vi : Vi) (addr : Nat) (what : HostRead)
  | sliceLoad (h : Holder) (line : LineA) (stream : Bool)
  | sliceStore (h : Holder) (line : LineA) (mask : BitVec 64) (data : Block) (stream : Bool)
  | cas (port : HPort) (vi : Vi) (addr : Nat) (compare : U64) (new : U64)
  | msix (vi : Vi) (vec : Fin 4) (addr : BitVec 64) (data : BitVec 32)
  | cfgReply (vi : Vi) (v : Option Nat)
  | smbus (reply : Option Byte)
  | aer (fn : Vi) (fatal : Bool)
  | aerAdvisory (fn : Vi)
  | viral
  | d2h (line : LineA) (k : ReqKind)
  | evict (line : LineA) (dirty : Bool) (poison : Bool)
  | pullData (line : LineA) (data : Block) (poison : Bool) (bogus : Bool)
  | snoopRsp (line : LineA) (name : String) (data : Option (Block × Bool))
  | toHome (h : Holder) (line : LineA) (msg : String) (age : Nat) (data : Option (Block × Bool × Bool))
  | toHolder (h : Holder) (line : LineA) (msg : String) (data : Option (Block × Bool))
  | loadDone (h : Holder) (line : LineA) (data : Block) (poison : Bool)
  | vset (k : Kiln) (code : Nat)
  | regRead (v : Nat)
  | frame (p : Port) (f : Frame)
  | linkFrame (p : Port) (cred : List Nat) (ack : Nat) (nak : Bool)
  | helloFrame (p : Port) (h : Hello)
  | roce (p : Port) (prio : Nat) (r : Roce)
  | pfc (p : Port) (prio : Nat) (xoff : Bool)
  | collCtl (g : Grp) (dst : Nat) (op : Nat) (code : Nat) (arg : Nat) (payload : List Byte)
  | collData (g : Grp) (dst : Nat) (up : Bool) (sherd : Nat) (off : Nat) (last : Bool) (crc : Nat) (payload : List Byte)
  | spiCopy (slot : Fin 2)
  | retry (lane : Lane)
  | tdo (v : Bool)
  deriving DecidableEq, Repr

/-! ## The state -/

structure State where
  /-- commands that wait, first in, first out -/
  pending : List Instr := []
  out : List Emit := []
  /-- index of the next free value: the model's own field, not the manual's -/
  freeCtr : Nat := 0
  /-- nanoseconds since the auxiliary power-on, counted by idle steps: the model's own timebase -/
  nowNs : Nat := 0
  /-- the ring engine's 1.0 GHz cycles since the last device reset (R274) -/
  ringCycles : Nat := 0
  fuses : Fuses := {}
  board : Board := {}
  boot : Boot := .bisque
  resetting : Option Loss := none
  /-- when the last device reset was triggered (R128) -/
  resetAt : Option Nat := none
  degraded : Bool := false
  generation : BitVec 32 := 0
  records : List RetRec := []
  bootErr : BootErr := .none
  rejected : List (Fin 2) := []
  bootSlot : Option (Fin 2) := none
  fwVer : BitVec 32 := 0
  /-- the body of the image that the boot ROM started -/
  fwBody : List Byte := []
  selfTested : Bool := false
  stage : StageState := .idle
  stageTries : Nat := 0
  /-- STAGE_OFFSET of the write that started the staging (R641) -/
  stageAt : Nat := 0
  /-- a GO that is being acted on: some adopting (R108, R109) -/
  going : Option Bool := none
  vendor : List (BitVec 192) := []
  vendorId : BitVec 32 := 0
  vendorSt : Nat := 0
  lastLoad : Nat × Nat := (0, 0)
  fld : SMap Nat := []
  /-- pending shadows of C fields, and the change set being applied with the units that have not taken it up -/
  shadow : SMap Nat := []
  chg : SMap Nat := []
  unitsLeft : List CUnit := []
  applying : Bool := false
  setId : BitVec 16 := 0
  late : Bool := false
  rails : SMap Rails := []
  temps : SMap (Option Int) := []
  damped : Bool := true
  /-- PWR_BUDGET and TEMP_LIMIT as the open damper window started (R600) -/
  winBudget : Nat := 3200
  winLimit : Nat := 95
  lanes : SMap Lanes := []
  detours : List Link := []
  /-- packets in the kiln mesh, oldest first, and the links' directions that move flits -/
  mesh : List MeshPkt := []
  wires : SMap Wire := []
  fenced : List FUnit := []
  pllParked : List Island := []
  /-- when each parked island lost its lock (R94) -/
  parkAt : List (Island × Nat) := []
  parked : List Island := []
  stopped : List Island := []
  refSeen : List Flue := []
  hostPorts : SMap HostPort := []
  port0 : Port0Mode := .pcie
  pfs : SMap Pf := []
  fns : SMap Fn := []
  advisories : Nat := 0
  vis : SMap ViSt := []
  engs : SMap EngSt := []
  movers : SMap MvSt := []
  gathers : SMap (List Gather) := []
  dir : SMap Dir := []
  hl : SMap HLine := []
  hret : List HRet := []
  /-- blocks of host memory that a collective unit or device firmware has asked for, with their answers -/
  hblocks : List (Vi × Nat × Option HostRes) := []
  aged : List Aged := []
  domainDown : Bool := false
  viralRx : Bool := false
  viralTx : Bool := false
  lruCtr : Nat := 0
  mem : List Host.Cell := []
  /-- 32-byte granules that hold the poison check pattern (R424) -/
  poison : SMap Bool := []
  ueWindow : SMap Nat := []
  scrubAt : SMap Nat := []
  ports : SMap PortSt := []
  rt : SMap (BitVec 64) := []
  epochCur : Bool := false
  epochArm : Bool := false
  grace : Bool := false
  ctxs : SMap Ctx := []
  fwin : SMap Win := []
  iwin : SMap Win := []
  qps : SMap Qp := []
  ackq : List Frame := []
  /-- frames that wait in the routers, with the port each arrived on -/
  waitq : List (Frame × Option Port) := []
  colls : SMap CollSt := []
  collWait : List (Vi × Job) := []
  collLast : SMap Nat := []
  refail : List Refail := []
  flt : Flt := {}
  rtc : Rtc := {}
  ctrs : SMap CtrSt := []
  shadowBank : SMap Nat := []
  win : WinGen := {}
  tap : Tap := .testLogicReset
  /-- the instruction register holds an instruction beyond boundary scan (R49) -/
  tapDebug : Bool := false
  deriving DecidableEq, Repr

/-- The machine right after the auxiliary power-on and the rising edge of PWRGOOD (R95, R111): BISQUE, every register at
its reset value, every map empty, no command waiting. -/
def State.reset : State := {}

end Sys2Proof.Machine
end

