-- ==== Sys2Proof/WellFormed.lean ====
section
/-! DEFINITION. Well-formed commands: what the operand types alone do not say. A command that is not well formed names
a thing the device does not have, and its meaning refuses it. -/

namespace Sys2Proof

/-- A link is named by its end on the lower die index (R28 to R30, R530): north and east edges of every kiln die, the
south edge of row 0 (the link die) and the west edge of column 0 (F0). -/
def Link.ok (l : Link) : Bool :=
  match l.edge with
  | 0 => true
  | 1 => true
  | 2 => l.kiln.val < 4
  | 3 => l.kiln.val % 4 == 0

/-- A payload is as long as LEN says, and at most 4,096 bytes (R452). -/
def Frame.ok (f : Frame) : Bool := f.payload.length == f.len.toNat

/-- A negotiated link has one of the widths and speeds of R134. -/
def linkWidthOk (width speed : Nat) : Bool := [1, 2, 4, 8, 16].contains width && 1 ≤ speed && speed ≤ 5

/-- VI n is a VF when its function is not PF0 or PF1 (R145). -/
def isVf (v : Vi) : Bool := v.val % 1024 != 0

/-- A unit exists. -/
def FUnit.ok : FUnit → Bool
  | .link l => l.ok
  | _ => true

/-- The checks that the operand types do not carry. -/
def Instr.wf : Instr → Bool
  | .vfFlr v => isVf v
  | .hostLinkUp _ w s _ => linkWidthOk w s
  | .selfTest ls fs => ls.all (fun l => l.link.ok) && fs.all (fun f => f.unit.ok)
  | .flitAckErr l _ => l.link.ok
  | .ezbenPhaseTimeout l => l.link.ok
  | .ezbenErrorWindowEnd l => l.ok
  | .detourInstall l => l.ok
  | .linkRx _ cred _ _ => cred.length == 8
  | .seqFrameRx _ f _ => f.ok
  | .routeFrame f _ => f.ok
  | .writeRx f => f.ok
  | .unitFence u => u.ok
  | _ => true

end Sys2Proof
end

