-- ==== Sys2Proof/Machine/Ops.lean ====
section
/-! DEFINITION. The named operations over the state: register fields, unit tables, device memory, outputs, descriptor
endings, MSI-X, and the geometry of the package. -/

namespace Sys2Proof.Machine

abbrev Out := Host.Outcome State Fault Refusal

/-! ## Free values and outputs -/

/-- The next free value; the counter that names it advances. -/
def free (s : State) : Nat := Config.freeNat s.freeCtr
def tick (s : State) : State := { s with freeCtr := s.freeCtr + 1 }

/-- Send something out of the device, or between its islands. -/
def emit (e : Emit) (s : State) : State := { s with out := s.out ++ [e] }
def emits (l : List Emit) (s : State) : State := { s with out := s.out ++ l }

/-! ## Stored register fields -/

/-- The key of field `f` of element `i`. -/
def fkey (f : F) (i : Nat) : Nat := f.ctorIdx * 2 ^ 20 + i

/-- The reset value of a stored field (R623 to R636). -/
def resetOf (fs : Fuses) : F → Nat → Nat
  | .dvfsTarget, _ => 18 | .damperMode, _ => 1 | .damperWindow, _ => 10 | .tempLimit, _ => 95 | .budget, _ => 3200
  | .pollNs, _ => 2000 | .pollBudget, _ => 64
  | .cohEnable, _ => 1 | .ageLimit, _ => 8 | .cohLog2, _ => 16
  | .rcpEn, _ => 1 | .spSize, _ => 32 | .flagCount, _ => 32 | .slotMask, _ => 15
  | .retryLimit, _ => 16 | .sliceUs, _ => 100 | .scrubHours, _ => 24
  | .rnrTimer, _ => 1 | .cnpInterval, _ => 50
  | .etherType, _ => 0x88B5 | .vcWeight, v => bits 0x4040011060602040 (8 * v) 8 | .graceMs, _ => 10
  | .portEnable, _ => 1 | .macLo, p => fs.uid.toNat % 2 ^ 19 * 32 + p
  | .colEnable, _ => 1 | .colTimeout, _ => 100000
  | .fltNotice, _ => 14 | .pinThreshold, _ => 1 | .pinPeriod, _ => 10
  | .oscStopped, _ => 1 | .cntAll, _ => 1 | .stageSlots, _ => 2
  | _, _ => 0

/-- The live value of a field. -/
def fget (s : State) (f : F) (i : Nat := 0) : Nat := mget (resetOf s.fuses f i) s.fld (fkey f i)

/-- Set the live value of a field. -/
def fset (f : F) (i v : Nat) (s : State) : State :=
  { s with fld := mset (resetOf s.fuses f i) s.fld (fkey f i) v }

/-- A saturating count of `w` bits kept in a field. -/
def fcount (f : F) (i w k : Nat) (s : State) : State := fset f i (satAdd (fget s f i) k w) s

/-- The value of a C field for a unit: the captured set once the unit has taken it up (R605). -/
def fgetU (s : State) (u : CUnit) (f : F) (i : Nat := 0) : Nat :=
  if s.applying && !s.unitsLeft.contains u then ((s.chg.lookup (fkey f i)).getD (fget s f i)) else fget s f i

/-- The fields that R580 keeps across every reset while a supply is in range. -/
def F.kept : F → Bool
  | .setSecLo => true | .setSecHi => true | .setSub => true | .trim => true | .vbatLow => true | .oscStopped => true
  | _ => false

/-- The fields after a cold reset or a device reset (R623). -/
def keptFields (s : State) : SMap Nat :=
  s.fld.filter fun p => [F.setSecLo, F.setSecHi, F.setSub, F.trim, F.vbatLow, F.oscStopped].any
    fun f => p.1 / 2 ^ 20 == f.ctorIdx

/-! ## Geometry and numbers (R27 to R31, R529) -/

def kilnOf (e : Eng) : Kiln := ⟨e.val / 16, by omega⟩
def flueOf (p : Port) : Flue := ⟨p.val / 8, by omega⟩
def kilnOfMover (m : Mover) : Kiln := ⟨m.val / 2, by omega⟩
def kilnOfChan (c : Chan) : Kiln := ⟨c.val / 8, by omega⟩
/-- The host port of a VI (R145). -/
def portOf (v : Vi) : HPort := ⟨v.val / 1024, by omega⟩
/-- The PF of a VI's host port. -/
def pfVi (p : HPort) : Vi := ⟨p.val * 1024, by omega⟩
def vi0 : Vi := 0
def kilns : List Kiln := List.finRange 16
def engsOf (k : Kiln) : List Eng := (List.finRange 16).map fun i => ⟨k.val * 16 + i.val, by omega⟩
def allEngs : List Eng := List.finRange 256
def allMovers : List Mover := List.finRange 32
def portsOf (f : Flue) : List Port := (List.finRange 8).map fun i => ⟨f.val * 8 + i.val, by omega⟩

/-- The dies at the two ends of a link: kiln dies 0 to 15, flue dies 16 to 19, the link die 20. -/
def linkEnds (l : Link) : Nat × Nat :=
  let k := l.kiln.val
  match l.edge with
  | 0 => (k, if k < 12 then k + 4 else if k < 14 then 18 else 19)
  | 1 => (k, if k % 4 < 3 then k + 1 else 17)
  | 2 => (k, 20)
  | 3 => (k, 16)

/-- Every link, by its end on the lower die index (R28, R29). -/
def allLinks : List Link :=
  kilns.flatMap fun k => ((List.finRange 4).map fun e => ({ kiln := k, edge := e } : Link)).filter Link.ok

/-- The fault source number of a unit: die index × 64 + unit index (R529). -/
def srcOf : FUnit → Nat
  | .engine e => e.val / 16 * 64 + e.val % 16
  | .hub k => k.val * 64 + 16
  | .mover m => m.val / 2 * 64 + 17 + m.val % 2
  | .memory k => k.val * 64 + 19
  | .channel c => c.val / 8 * 64 + 20 + c.val % 8
  | .rail k => k.val * 64 + 28
  | .kilnTherm k => k.val * 64 + 29
  | .kilnNet k => k.val * 64 + 30
  | .link l => l.kiln.val * 64 + 31 + l.edge.val
  | .fport p => (16 + p.val / 8) * 64 + p.val % 8
  | .coll f => (16 + f.val) * 64 + 8
  | .flueTable f => (16 + f.val) * 64 + 9
  | .flueNet f => (16 + f.val) * 64 + 10
  | .refclk f => (16 + f.val) * 64 + 11
  | .flueTherm f => (16 + f.val) * 64 + 12
  | .hostPort n => 1280 + n.val
  | .home => 1282 | .lineStore => 1283 | .ring => 1284 | .mgmt => 1285 | .aon => 1286 | .bootRom => 1287
  | .fuses => 1288 | .spi => 1289 | .sharedRails => 1290 | .linkTherm => 1291 | .vset => 1292 | .linkNet => 1293

/-- The unit that stands for an island. -/
def isleUnit : Island → FUnit
  | .engine e => .engine e | .hub k => .hub k | .memory k => .memory k | .fport p => .fport p | .coll f => .coll f
  | .flueTable f => .flueTable f | .hostPort n => .hostPort n | .home => .home | .ring => .ring | .mgmt => .mgmt
  | .aon => .aon

/-! ## Unit tables -/

def eng (s : State) (e : Eng) : EngSt := mget {} s.engs e.val
def updEng (e : Eng) (f : EngSt → EngSt) (s : State) : State := { s with engs := mupd {} s.engs e.val f }
def getVi (s : State) (v : Vi) : ViSt := mget {} s.vis v.val
def updVi (v : Vi) (f : ViSt → ViSt) (s : State) : State := { s with vis := mupd {} s.vis v.val f }
def getFn (s : State) (v : Vi) : Fn := mget {} s.fns v.val
def updFn (v : Vi) (f : Fn → Fn) (s : State) : State := { s with fns := mupd {} s.fns v.val f }
def getPf (s : State) (p : HPort) : Pf := mget {} s.pfs p.val
def updPf (p : HPort) (f : Pf → Pf) (s : State) : State := { s with pfs := mupd {} s.pfs p.val f }
def getMv (s : State) (m : Mover) : MvSt := mget {} s.movers m.val
def updMv (m : Mover) (f : MvSt → MvSt) (s : State) : State := { s with movers := mupd {} s.movers m.val f }
def getPort (s : State) (p : Port) : PortSt := mget {} s.ports p.val
def updPort (p : Port) (f : PortSt → PortSt) (s : State) : State := { s with ports := mupd {} s.ports p.val f }
def getHp (s : State) (p : HPort) : HostPort := mget {} s.hostPorts p.val
def updHp (p : HPort) (f : HostPort → HostPort) (s : State) : State := { s with hostPorts := mupd {} s.hostPorts p.val f }
def getRail (s : State) (k : Kiln) : Rails := mget {} s.rails k.val
def updRail (k : Kiln) (f : Rails → Rails) (s : State) : State := { s with rails := mupd {} s.rails k.val f }
def getColl (s : State) (g : Grp) : CollSt := mget {} s.colls g.val
def updColl (g : Grp) (f : CollSt → CollSt) (s : State) : State := { s with colls := mupd {} s.colls g.val f }
def getCtr (s : State) (n : Ctr) : CtrSt := mget {} s.ctrs n.val
def updCtr (n : Ctr) (f : CtrSt → CtrSt) (s : State) : State := { s with ctrs := mupd {} s.ctrs n.val f }
def getCtx (s : State) (c : Nat) : Ctx := mget {} s.ctxs c
def updCtx (c : Nat) (f : Ctx → Ctx) (s : State) : State := { s with ctxs := mupd {} s.ctxs c f }
def getQp (s : State) (q : Grp) : Qp := mget {} s.qps q.val
def updQp (q : Grp) (f : Qp → Qp) (s : State) : State := { s with qps := mupd {} s.qps q.val f }
def gather (s : State) (k : Kiln) : List Gather := mget [] s.gathers k.val
def updGather (k : Kiln) (f : List Gather → List Gather) (s : State) : State :=
  { s with gathers := mupd [] s.gathers k.val f }
def getDir (s : State) (l : LineA) : Dir := mget {} s.dir l.toNat
def updDir (l : LineA) (f : Dir → Dir) (s : State) : State := { s with dir := mupd {} s.dir l.toNat f }
def hkey (h : Holder) (l : LineA) : Nat := l.toNat * 32 + h.val
def getHl (s : State) (h : Holder) (l : LineA) : HLine := mget {} s.hl (hkey h l)
def updHl (h : Holder) (l : LineA) (f : HLine → HLine) (s : State) : State := { s with hl := mupd {} s.hl (hkey h l) f }
def updFlt (f : Flt → Flt) (s : State) : State := { s with flt := f s.flt }
def updRtc (f : Rtc → Rtc) (s : State) : State := { s with rtc := f s.rtc }
def updBoard (f : Board → Board) (s : State) : State := { s with board := f s.board }

/-! ## Which units are in service (R36, R44, R150, R551) -/

/-- A kiln die is fenced as a whole through its hub, its memory island, its rail or its on-die network. -/
def kilnFenced (s : State) (k : Kiln) : Bool :=
  s.fenced.any fun u => u == .hub k || u == .memory k || u == .rail k || u == .kilnNet k
def engFenced (s : State) (e : Eng) : Bool := s.fenced.contains (.engine e) || kilnFenced s (kilnOf e)
def moverFenced (s : State) (m : Mover) : Bool := s.fenced.contains (.mover m) || kilnFenced s (kilnOfMover m)
def linkFenced (s : State) (l : Link) : Bool :=
  s.fenced.contains (.link l) ||
  s.fenced.any fun u => match u with
    | .rail k => (linkEnds l).1 == k.val || (linkEnds l).2 == k.val
    | .kilnNet k => (linkEnds l).1 == k.val || (linkEnds l).2 == k.val
    | _ => false
/-- Dies that an unfenced path of links joins to die `d`: one round per die. -/
def reachStep (s : State) (l : List Nat) : List Nat :=
  (allLinks.filter fun k => !linkFenced s k).foldl (fun acc k =>
    let e := linkEnds k
    if acc.contains e.1 && !acc.contains e.2 then acc ++ [e.2]
    else if acc.contains e.2 && !acc.contains e.1 then acc ++ [e.1] else acc) l
def reachFrom (s : State) (d : Nat) : List Nat := (List.range 21).foldl (fun acc _ => reachStep s acc) [d]
/-- A flue die whose links to the mesh are all fenced (R45's corner). -/
def flueCut (s : State) (f : Flue) : Bool :=
  (allLinks.filter fun l => (linkEnds l).2 == 16 + f.val).all fun l => linkFenced s l
/-- A flue die leaves service with its collective island, its tables, its network, its clock or its last link. -/
def portFenced (s : State) (p : Port) : Bool :=
  s.fenced.any (fun u => u == .fport p || u == .refclk (flueOf p) || u == .coll (flueOf p) ||
    u == .flueTable (flueOf p) || u == .flueNet (flueOf p)) || flueCut s (flueOf p)
def collFenced (s : State) (f : Flue) : Bool :=
  s.fenced.any (fun u => u == .coll f || u == .flueTable f || u == .flueNet f) || flueCut s f
def fencedKilns (s : State) : Nat := (kilns.filter (kilnFenced s)).foldl (fun a k => a + 2 ^ k.val) 0
def enginesIn (s : State) : Nat := (allEngs.filter fun e => !engFenced s e).length
def kilnsIn (s : State) : Nat := (kilns.filter fun k => !kilnFenced s k).length
def cunitIn (s : State) : CUnit → Bool
  | .engine e => !engFenced s e
  | .mover m => !moverFenced s m
  | .coll f => !collFenced s f
  | .fport p => !portFenced s p
  | .memory k => !kilnFenced s k
  | .ring => true
  | .home => true
/-- The 342 units that take up a change set (R603). -/
def allCUnits : List CUnit :=
  allEngs.map .engine ++ allMovers.map .mover ++ (List.finRange 4).map .coll ++ (List.finRange 32).map .fport ++
  kilns.map .memory ++ [.ring, .home]

/-- The units act: power is good, no reset is in progress, and the device is in FIRED (R95, R106, R565). -/
def running (s : State) : Bool := s.board.pwrgood && s.resetting.isNone && s.boot == .fired

/-! ## Partitions (R148, R149, R151) -/

/-- The mask of a partition as a 256-bit number, as unit `u` sees it. -/
def partMask (s : State) (u : CUnit) (p : Nat) : Nat :=
  (List.range 4).foldl (fun a w => a + fgetU s u .partMask (4 * p + w) * 2 ^ (64 * w)) 0
def viMask (s : State) (u : CUnit) (v : Vi) : Nat :=
  if fgetU s u .bindValid v.val = 1 then partMask s u (fgetU s u .bindPart v.val) else 0
/-- The engines of a VI in rising order: virtual engine v is the v-th (R149). -/
def viEngines (s : State) (u : CUnit) (v : Vi) : List Eng :=
  let m := viMask s u v
  allEngs.filter fun e => bitAt m e.val
def engineCount (s : State) (v : Vi) : Nat := (viEngines s .ring v).length
/-- The partition of an engine's VI, for a fault record. -/
def partOf (s : State) (v : Vi) : Option Nat :=
  if fget s .bindValid v.val = 1 then some (fget s .bindPart v.val) else none

/-! ## Device memory (R417 to R425) -/

/-- One byte of device memory; a byte never written holds the zero fill of R108. -/
def cellGet (m : List Host.Cell) (a : Nat) : Byte := mget 0 m a
def readByte (s : State) (a : Nat) : Byte := cellGet s.mem a
def writeByte (a : Nat) (b : Byte) (s : State) : State := { s with mem := mset 0 s.mem a b }
def readBytes (s : State) (a n : Nat) : List Byte := (List.range n).map fun i => readByte s (a + i)
def memTop : Nat := 0x3000000000
/-- The channel that an address maps to (R417). -/
def chanOf (interleave d : Nat) : Nat :=
  if interleave = 0 then d / 256 % 128 else 8 * (d / (12 * 2 ^ 30)) + d % (12 * 2 ^ 30) / 256 % 8
/-- The address of offset `o` of channel `c` (the inverse of R417). -/
def chanAddr (interleave c o : Nat) : Nat :=
  if interleave = 0 then (o / 256 * 128 + c) * 256 + o % 256
  else c / 8 * (12 * 2 ^ 30) + (o / 256 * 8 + c % 8) * 256 + o % 256
/-- A hole: above the top, or on a channel of a fenced kiln die (R417, R419). -/
def isHole (s : State) (d : Nat) : Bool :=
  d ≥ memTop || (kilns.any fun k => kilnFenced s k && chanOf (fget s .interleave) d / 8 == k.val)
def poisoned (s : State) (a : Nat) : Bool := mget false s.poison (a / 32)
def setPoison (a : Nat) (b : Bool) (s : State) : State := { s with poison := mset false s.poison (a / 32) b }
/-- The 32-byte granules that n bytes from a touch. -/
def granules (a n : Nat) : List Nat :=
  if n = 0 then [] else (List.range ((a + n - 1) / 32 - a / 32 + 1)).map fun i => a / 32 + i
/-- A read of n bytes touches a hole. -/
def anyHole (s : State) (a n : Nat) : Bool := (granules a n).any fun g => isHole s (32 * g)
def anyPoison (s : State) (a n : Nat) : Bool := (granules a n).any fun g => !isHole s (32 * g) && poisoned s (32 * g)
/-- The first address of the range that lies in a hole. -/
def firstHole (s : State) (a n : Nat) : Nat :=
  ((granules a n).find? fun g => isHole s (32 * g)).elim a fun g => max a (32 * g)
/-- A write of bytes: the pieces outside holes land; a granule written whole loses its poison (R420, R425). -/
def writeGo : List Byte → Nat → State → State
  | [], _, s => s
  | b :: t, a, s => writeGo t (a + 1) (if isHole s a then s else writeByte a b s)
def memWrite (a : Nat) (l : List Byte) (s : State) : State :=
  let s := writeGo l a s
  (granules a l.length).foldl (fun s g =>
    if a ≤ 32 * g && 32 * g + 32 ≤ a + l.length && !isHole s (32 * g) then setPoison (32 * g) false s else s) s
/-- A reservation on a granule that n bytes from a touch (Table: Reservation targets). -/
def resvMet (a n : Nat) : Option Resv → Bool
  | some r => match r.tgt with
    | .dev x => n != 0 && decide (a / 256 ≤ x / 256 && x / 256 ≤ (a + n - 1) / 256)
    | .host _ _ => false
  | none => false
def clearMet (a n : Nat) (x : EngSt) : EngSt :=
  { x with
    resv := if resvMet a n x.resv then none else x.resv
    run := x.run.map fun r => { r with resv := if resvMet a n r.resv then none else r.resv } }
/-- A controller accepts a write: the bytes land, and every reservation on their granules is cleared. -/
def acceptWrite (a : Nat) (l : List Byte) (s : State) : State :=
  let s := memWrite a l s
  s.engs.foldl (fun s p => { s with engs := mupd {} s.engs p.1 (clearMet a l.length) }) s
def read64 (s : State) (a : Nat) : Nat := leNat (readBytes s a 8)

/-! ## Calendar time -/

/-- Record 0 of the retention store and the adoption test (R117, R129). -/
def recBytes (r : RetRec) : List Byte :=
  natBytes 2 1 ++ natBytes 1 r.valid ++ natBytes 1 r.cause ++ natBytes 4 r.generation.toNat ++ natBytes 4 r.layoutCrc ++
  natBytes 6 r.lossSec ++ natBytes 2 r.lossSub ++ natBytes 2 r.fencedKiln ++ natBytes 1 r.interleave ++ natBytes 1 0 ++
  natBytes 4 r.fwVer.toNat ++ natBytes 4 r.srEntryNs ++ natBytes 28 0
def recSeal (r : RetRec) : RetRec := { r with recordCrc := crc32c (recBytes r) }
def recOk (r : RetRec) : Bool := r.recordCrc == crc32c (recBytes r)
def adoptable (s : State) : Bool := match s.records with
  | r :: _ => r.valid == 1 && recOk r
  | [] => false
/-- A new record pushes the oldest of 16 out (R116). -/
def pushRec (r : RetRec) (s : State) : State := { s with records := (recSeal r :: s.records).take 16 }
def updRec0 (f : RetRec → RetRec) (s : State) : State :=
  { s with records := match s.records with | r :: t => recSeal (f r) :: t | [] => [] }

/-- The layout image of R118, and its CRC. -/
def layoutImage (s : State) : List Byte :=
  natBytes 4 (fget s .interleave) ++ natBytes 4 (fencedKilns s) ++
  ((List.range 2048).flatMap fun v => natBytes 8 (fget s .allotDevBase v) ++ natBytes 8 (fget s .allotDevSize v)) ++
  ((List.range 1024).flatMap fun i => natBytes 8 (fget s .partMask i))
def layoutCrc (s : State) : Nat := crc32c (layoutImage s)

/-- A VI exists while its function is enabled (R147). -/
def viExists (s : State) (v : Vi) : Bool :=
  v.val % 1024 == 0 || ((getPf s (portOf v)).vfEnable && v.val % 1024 ≤ (getPf s (portOf v)).numVFs)

def isPf (v : Vi) : Bool := v.val % 1024 == 0
/-- The function answers memory requests: it is there, and its PF is not in D3hot (R161, R669). -/
def answers (s : State) (v : Vi) : Bool := viExists s v && !(getPf s (portOf v)).d3hot

/-! ## MSI-X (R157 to R160) -/

def vecVal : Fin 4 → Nat := Fin.val
/-- Table: MSI-X vectors; vector 0 COMPLETION, 1 MAILBOX, 2 VI_ERROR, 3 NOTICE. -/
def vecCompletion : Fin 4 := 0
def vecMailbox : Fin 4 := 1
def vecError : Fin 4 := 2
def vecNotice : Fin 4 := 3

/-- Requests of a VI may leave: Bus Master Enable of its function and, in CXL mode, of PF0 (R160). -/
def mayMaster (s : State) (v : Vi) : Bool :=
  (getFn s v).busMaster && (!(getHp s 0).cxl || (getFn s 0).busMaster)

/-- A message of a vector may leave now; in SAFE none does (R565). -/
def vecOpen (s : State) (v : Vi) (n : Fin 4) : Bool :=
  s.boot != .safe && viExists s v && (getFn s v).msixEnable && !(getFn s v).funcMask && !(mget {} (getFn s v).msix n.val).masked && mayMaster s v &&
  !(getHp s (portOf v)).recovering

/-- An event on a vector: a message, or the pending bit (R157, R158). A VI that no longer exists raises none (R147). -/
def raiseVec (v : Vi) (n : Fin 4) (s : State) : State :=
  if !viExists s v then s
  else if vecOpen s v n then
    let en := mget {} (getFn s v).msix n.val
    let s := emit (.msix v n en.addr en.data) s
    if n = vecCompletion && fget s .holdoffUs v.val ≠ 0 then updFn v (fun x => { x with holdoff := true }) s else s
  else updFn v (fun x => { x with pba := mset false x.pba n.val true }) s

/-- A COMPLETION event under the holdoff of R159. -/
def raiseCompletion (v : Vi) (s : State) : State :=
  if (getFn s v).holdoff then updFn v (fun x => { x with holdPending := true }) s else raiseVec v vecCompletion s

/-- Messages that wait leave once their vector is open (R158, R160). -/
def flushVec (v : Vi) (s : State) : State :=
  (List.finRange 4).foldl (fun s n =>
    if mget false (getFn s v).pba n.val && vecOpen s v n then
      let s := updFn v (fun x => { x with pba := mset false x.pba n.val false }) s
      if n = vecCompletion then raiseCompletion v s else raiseVec v n s
    else s) s

/-- NOTICE of PF0. -/
def notice (s : State) : State := raiseVec vi0 vecNotice s

/-! ## Descriptor endings -/

def flyOf (s : State) (v : Vi) (i : Job) : Option Fly := (getVi s v).fly.find? fun f => f.idx == i
def updFly (v : Vi) (i : Job) (f : Fly → Fly) (s : State) : State :=
  updVi v (fun x => { x with fly := x.fly.map fun y => if y.idx == i then f y else y }) s
/-- The dispatched descriptor of a ring index: the one of the running enable, or else an older one (R246). -/
def jobOf (s : State) (v : Vi) (i : BitVec 32) : Job :=
  let j : Job := { idx := i, lap := (getVi s v).lap }
  if (flyOf s v j).isSome then j
  else (((getVi s v).fly.find? fun f => f.idx.idx == i).map Fly.idx).getD j
/-- A dispatched descriptor ends; the first ending stands. -/
def finish (v : Vi) (i : Job) (c : Compl) (s : State) : State :=
  updFly v i (fun y => if y.fin.isSome then y else { y with fin := some c }) s

/-- LAUNCH and FENCED_UNIT failures name the virtual engine in DETAIL (R277). -/
def failC (st : Status) (value : Nat := 0) (addr : Nat := 0) (detail : Nat := 0) : Compl :=
  { status := st, value := BitVec.ofNat 64 value, addr := BitVec.ofNat 64 addr, detail := BitVec.ofNat 16 detail }

/-- A failure whose VALUE no failure rule states (R277): the entry carries a free value. -/
def openC (st : Status) (addr : Nat := 0) (detail : Nat := 0) : Compl := { failC st 0 addr detail with openValue := true }

/-- Table: Completion statuses. -/
def statusCode : Status → Nat
  | .ok => 0x00 | .zero => 0x01 | .hostAccessErr => 0x10 | .poisoned => 0x11 | .segFault => 0x12 | .collTimeout => 0x20
  | .collAbortPeer => 0x21 | .collCheck => 0x22 | .collLinkLost => 0x23 | .collMismatch => 0x24 | .fencedUnit => 0x30
  | .viReset => 0x31 | .ingestWindow => 0x40

/-! ## Host errors (R6, R7, R655 to R661) -/

def allStatus : List Status :=
  [.ok, .zero, .hostAccessErr, .poisoned, .segFault, .collTimeout, .collAbortPeer, .collCheck, .collLinkLost, .collMismatch,
   .fencedUnit, .viReset, .ingestWindow]
/-- A host error of a VI: from now on its effects may show anywhere in the VI's reach (log 94). -/
def hostError (v : Vi) (s : State) : State := updVi v (fun x => { x with wild := true }) s
/-- The n-th free value from here. -/
def freeAt (s : State) (n : Nat) : Nat := Config.freeNat (s.freeCtr + n)
def ticks (n : Nat) (s : State) : State := { s with freeCtr := s.freeCtr + n }
/-- Any status of Table: Completion statuses, with any VALUE, ADDR and DETAIL. -/
def wildCompl (s : State) : Compl :=
  {
    status := (allStatus[free s % 13]?).getD .ok, value := BitVec.ofNat 64 (freeAt s 1), addr := BitVec.ofNat 64 (freeAt s 2),
    detail := BitVec.ofNat 16 (freeAt s 3) }

/-! ## Reporting a fault (R531 to R533) -/

/-- The class of a cause (R528). -/
def causeClass (c : Nat) : Nat := c / 32 % 4

/-- A unit raises a fault: its source holds one pending fault; a further one replaces it only if its class is higher,
and every fault that is not taken is counted (R533). -/
def report (u : FUnit) (cause info : Nat) (vi part : Option Nat) (s : State) : State :=
  let r : Raised := { src := srcOf u, cause := cause, info := BitVec.ofNat 64 info, vi := vi, part := part }
  match s.flt.raised.find? fun x => x.src == srcOf u with
  | none => updFlt (fun f => { f with raised := f.raised ++ [r] }) s
  | some x =>
    if causeClass cause > causeClass x.cause then
      fcount .missed 0 16 1 (updFlt (fun f => { f with raised := f.raised.map fun y => if y.src == srcOf u then r else y }) s)
    else fcount .missed 0 16 1 s

/-- A class 3 fault sets the SAFE latch without waiting for the collector (R561). -/
def latchSafe (s : State) : State :=
  if s.boot = .safe then s else { s with boot := .safe, resetting := none, flt := { s.flt with safeStepsDone := false } }
def fatal (u : FUnit) (cause info : Nat) (s : State) : State := latchSafe (report u cause info none none s)

/-! ## Host addresses (R133) -/

def hostBase (s : State) (v : Vi) : Nat := fgetU s .ring .allotHostBase v.val * 2 ^ 21
def lineOf (a : Nat) : LineA := BitVec.ofNat 46 (a / 64)

/-- Port 0 runs CXL and the caches are used (R202). -/
def cxlOn (s : State) : Bool := (getHp s 0).cxl && fget s .cohEnable == 1

/-- Host-segment accesses of a VI fail outright: the domain is down (R200, step 5). -/
def domainFails (s : State) (v : Vi) : Bool := s.domainDown && (portOf v).val == 0
/-- Host accesses of a VI may be issued: Bus Master Enable, the domain up, the port's link there (R160, R168, R200). -/
def hostOk (s : State) (v : Vi) : Bool := mayMaster s v && !domainFails s v && (getHp s (portOf v)).dlUp
/-- A host access of a VI goes through the slices and the home (R202, R203). -/
def viaHome (s : State) (v : Vi) : Bool := cxlOn s && (portOf v).val == 0

/-! ## Runs -/

def runOf (s : State) (e : Eng) : Option Run := (eng s e).run
def updRun (e : Eng) (f : Run → Run) (s : State) : State := updEng e (fun x => { x with run := x.run.map f }) s
/-- A failure that shows at the next task boundary (R300, R340, R392): the first one stands. -/
def failLate (c : Compl) (r : Run) : Run := { r with fail := match r.fail with | some x => some x | none => some c }
def lateFail (e : Eng) (c : Compl) (s : State) : State := updRun e (failLate c) s
/-- A launch index that is on an engine, running or switched away. -/
def isIndex (v : Vi) (i : Job) (k : Nat) (r : Run) : Bool := r.ix.vi == v && r.ix.idx == i && r.ix.k == k
/-- A store of a launch index failed: the index, wherever it stands, ends at its next task boundary (R340). -/
def storeFailed (e : Eng) (v : Vi) (i : Job) (k : Nat) (c : Compl) (s : State) : State :=
  updEng e (fun x => { x with
    run := x.run.map fun r => if isIndex v i k r then failLate c r else r
    away := x.away.map fun r => if isIndex v i k r then failLate c r else r }) s

end Sys2Proof.Machine
end

