-- ==== Sys2Proof/Machine/Numeric.lean ====
section
/-! DEFINITION. The number formats of R320 and their arithmetic: exact dyadic values, one rounding to nearest with ties
to even (R321), conversions (R323, R324), and the combine of R510. A value of a format is the number of its bits. -/

namespace Sys2Proof.Machine

/-- A floating-point format: exponent bits, fraction bits, bias, and whether it has infinities. -/
structure Fmt where
  eb : Nat
  mb : Nat
  bias : Nat
  hasInf : Bool
  deriving DecidableEq, Repr

def fp32 : Fmt := { eb := 8, mb := 23, bias := 127, hasInf := true }
def fp16 : Fmt := { eb := 5, mb := 10, bias := 15, hasInf := true }
def bf16 : Fmt := { eb := 8, mb := 7, bias := 127, hasInf := true }
def e5m2 : Fmt := { eb := 5, mb := 2, bias := 15, hasInf := true }
def e4m3 : Fmt := { eb := 4, mb := 3, bias := 7, hasInf := false }

def fmtWidth (f : Fmt) : Nat := 1 + f.eb + f.mb
/-- The code of infinity, without the sign. -/
def infCode (f : Fmt) : Nat := (2 ^ f.eb - 1) * 2 ^ f.mb
/-- The code of the largest finite value: 448 for FP8_E4M3. -/
def maxCode (f : Fmt) : Nat := if f.hasInf then infCode f - 1 else 2 ^ (f.eb + f.mb) - 2
/-- The quiet NaN of R321. -/
def qnan (f : Fmt) : Nat := if f.hasInf then infCode f + 2 ^ (f.mb - 1) else 2 ^ (f.eb + f.mb) - 1
def signBit (f : Fmt) (neg : Bool) : Nat := if neg then 2 ^ (f.eb + f.mb) else 0
def infOf (f : Fmt) (neg : Bool) : Nat := infCode f + signBit f neg

/-- A floating-point value: (-1)^neg × m × 2^e. -/
inductive FV where
  | nan
  | inf (neg : Bool)
  | fin (neg : Bool) (m : Nat) (e : Int)
  deriving DecidableEq, Repr

def fdecode (f : Fmt) (c : Nat) : FV :=
  let neg := bitAt c (f.eb + f.mb)
  let mag := c % 2 ^ (f.eb + f.mb)
  if f.hasInf && mag > infCode f then .nan
  else if f.hasInf && mag == infCode f then .inf neg
  else if !f.hasInf && mag == qnan f then .nan
  else
    let ex := mag / 2 ^ f.mb
    let fr := mag % 2 ^ f.mb
    let emin : Int := 1 - (f.bias : Int) - f.mb
    if ex = 0 then .fin neg fr emin else .fin neg (fr + 2 ^ f.mb) (emin + ex - 1)

/-- m / 2^k rounded to nearest, ties to even. -/
def rne (m k : Nat) : Nat :=
  let q := m / 2 ^ k
  let r := m % 2 ^ k
  if k = 0 then m
  else if 2 * r > 2 ^ k then q + 1
  else if 2 * r = 2 ^ k then q + q % 2
  else q

/-- The magnitude code nearest to m × 2^e; a code above `maxCode` is an overflow. -/
def magCode (f : Fmt) (m : Nat) (e : Int) : Nat :=
  if m = 0 then 0 else
  let emin : Int := 1 - (f.bias : Int) - f.mb
  let q : Int := max ((Nat.log2 m : Int) + e - f.mb) emin
  let r := if q ≤ e then m * 2 ^ (e - q).toNat else rne m (q - e).toNat
  (q - emin).toNat * 2 ^ f.mb + r

/-- Round to a format. On overflow: infinity, or NaN in FP8_E4M3; with `sat` the largest finite value (R323). -/
def fround (f : Fmt) (sat : Bool) : FV → Nat
  | .nan => qnan f
  | .inf neg =>
    if f.hasInf then infOf f neg else if sat then maxCode f + signBit f neg else qnan f
  | .fin neg m e =>
    let c := magCode f m e
    if c > maxCode f then
      if sat then maxCode f + signBit f neg else if f.hasInf then infOf f neg else qnan f
    else c + signBit f neg

/-- The exact sum of two values. -/
def vadd : FV → FV → FV
  | .nan, _ => .nan
  | _, .nan => .nan
  | .inf a, .inf b => if a = b then .inf a else .nan
  | .inf a, _ => .inf a
  | _, .inf b => .inf b
  | .fin na ma ea, .fin nb mb eb =>
    let e := min ea eb
    let x : Int := (if na then -1 else 1) * (ma * 2 ^ (ea - e).toNat : Nat)
    let y : Int := (if nb then -1 else 1) * (mb * 2 ^ (eb - e).toNat : Nat)
    let z := x + y
    if z = 0 then .fin (na && nb) 0 e else .fin (z < 0) z.natAbs e

/-- The exact product of two values. -/
def vmul : FV → FV → FV
  | .nan, _ => .nan
  | _, .nan => .nan
  | .inf a, .inf b => .inf (a != b)
  | .inf a, .fin nb m _ => if m = 0 then .nan else .inf (a != nb)
  | .fin na m _, .inf b => if m = 0 then .nan else .inf (na != b)
  | .fin na ma ea, .fin nb mb eb => .fin (na != nb) (ma * mb) (ea + eb)

def fadd (f : Fmt) (a b : Nat) : Nat := fround f false (vadd (fdecode f a) (fdecode f b))
def fmul (f : Fmt) (a b : Nat) : Nat := fround f false (vmul (fdecode f a) (fdecode f b))
/-- A fused multiply-add: one rounding. -/
def ffma (f : Fmt) (a b c : Nat) : Nat :=
  fround f false (vadd (vmul (fdecode f a) (fdecode f b)) (fdecode f c))

/-- The position of a finite or infinite code in the order that puts -0 below +0 (R662). -/
def forder (f : Fmt) (c : Nat) : Int :=
  let mag := c % 2 ^ (f.eb + f.mb)
  if bitAt c (f.eb + f.mb) then -(mag : Int) - 1 else mag
def isNan (f : Fmt) (c : Nat) : Bool := fdecode f c == .nan
def fmax (f : Fmt) (a b : Nat) : Nat :=
  if isNan f a || isNan f b then qnan f else if forder f a ≥ forder f b then a else b
def fmin (f : Fmt) (a b : Nat) : Nat :=
  if isNan f a || isNan f b then qnan f else if forder f a ≤ forder f b then a else b

/-! ## Data types (Table: Collective data types) -/

def dtypeFmt : Nat → Option Fmt
  | 5 => some e4m3 | 6 => some e5m2 | 7 => some fp16 | 8 => some bf16 | 9 => some fp32
  | _ => none
/-- Bytes of an element; 0 for a reserved type. -/
def dtypeBytes : Nat → Nat
  | 0 => 1 | 1 => 1 | 2 => 4 | 3 => 4 | 4 => 8 | 5 => 1 | 6 => 1 | 7 => 2 | 8 => 2 | 9 => 4
  | _ => 0
def dtypeSigned : Nat → Bool
  | 0 => true | 2 => true | 4 => true
  | _ => false
/-- The integer that an element of an integer type holds. -/
def intVal (t c : Nat) : Int := if dtypeSigned t then signed c (8 * dtypeBytes t) else (c % 2 ^ (8 * dtypeBytes t) : Nat)
def intCode (t : Nat) (v : Int) : Nat := (v % (2 ^ (8 * dtypeBytes t) : Nat)).toNat
def intLo (t : Nat) : Int := if dtypeSigned t then -(2 ^ (8 * dtypeBytes t - 1) : Nat) else 0
def intHi (t : Nat) : Int :=
  if dtypeSigned t then (2 ^ (8 * dtypeBytes t - 1) : Nat) - 1 else (2 ^ (8 * dtypeBytes t) : Nat) - 1
def clampInt (t : Nat) (v : Int) : Int := max (intLo t) (min (intHi t) v)

/-- One combine step of a pug (Table: Combination): REDOP 0 SUM, 1 MIN, 2 MAX. -/
def combine (t op a b : Nat) : Nat :=
  match dtypeFmt t with
  | some f => if op = 0 then fadd f a b else if op = 1 then fmin f a b else fmax f a b
  | none =>
    if op = 0 then intCode t (intVal t a + intVal t b)
    else if op = 1 then (if intVal t a ≤ intVal t b then a else b)
    else (if intVal t a ≥ intVal t b then a else b)

/-- Combine two byte strings element by element. -/
def combineBytes (t op : Nat) : Nat → List Byte → List Byte → List Byte
  | 0, _, _ => []
  | n + 1, x, y =>
    let w := dtypeBytes t
    if w = 0 then x else
    natBytes w (combine t op (leNat (x.take w)) (leNat (y.take w))) ++ combineBytes t op n (x.drop w) (y.drop w)
def combineAll (t op : Nat) (x y : List Byte) : List Byte :=
  combineBytes t op (x.length / max 1 (dtypeBytes t)) x y

/-! ## Conversion (R323, R324) -/

/-- A finite value rounded to the nearest integer, ties to even. -/
def roundInt (neg : Bool) (m : Nat) (e : Int) : Int :=
  let r := if e ≥ 0 then m * 2 ^ e.toNat else rne m (-e).toNat
  if neg then -(r : Int) else r

def vcvt (src dst : Nat) (sat : Bool) (c : Nat) : Nat :=
  match dtypeFmt src, dtypeFmt dst with
  | some f, some g => fround g sat (fdecode f c)
  | some f, none =>
    match fdecode f c with
    | .nan => 0
    | .inf neg => intCode dst (if neg then intLo dst else intHi dst)
    | .fin neg m e => intCode dst (clampInt dst (roundInt neg m e))
  | none, some g =>
    let v := intVal src c
    fround g sat (.fin (v < 0) v.natAbs 0)
  | none, none =>
    let v := intVal src c
    intCode dst (if sat then clampInt dst v else v)

/-! ## VEXP and VRSQ (R391): a result within 2 ulp of the exact value -/

/-- floor(e^(n / 2^100) × 2^100) for 0 ≤ n < 2^100, to within a few units: 40 Taylor terms. -/
def expTaylor (n : Nat) : Nat :=
  ((List.range 40).foldl (fun (acc : Nat × Nat) k =>
    let t := acc.1 * n / 2 ^ 100 / (k + 1)
    (t, acc.2 + t)) (2 ^ 100, 2 ^ 100)).2

/-- ln 2 × 2^120, rounded down. -/
def ln2 : Nat := 921350637599661305226344307672478454

/-- e^x for finite x = ±m × 2^e as m' × 2^e', to far less than one ulp of FP32. -/
def expVal (neg : Bool) (m : Nat) (e : Int) : FV :=
  let big := m ≠ 0 ∧ (Nat.log2 m : Int) + e ≥ 8
  if big then (if neg then .fin false 0 0 else .inf false)
  else
    -- x × 2^120, floor for both signs
    let a := if e + 120 ≥ 0 then m * 2 ^ (e + 120).toNat else m / 2 ^ (-(e + 120)).toNat
    let x : Int := if neg then -(a : Int) else a
    let k := Int.fdiv x ln2
    let r := (x - k * ln2).toNat
    .fin false (expTaylor (r / 2 ^ 20)) (k - 100)

/-- 1 / sqrt(m × 2^e) for m > 0, by an integer square root with 100 spare bits. -/
def rsqVal (m : Nat) (e : Int) : FV :=
  let (m, e) := if e % 2 = 0 then (m, e) else (2 * m, e - 1)
  .fin false (Nat.sqrt (2 ^ 200 / m)) (-100 - e / 2)

/-- Distance of a finite FP32 code from a value is at most 2 ulp of the value. -/
def within2ulp (exact : FV) (c : Nat) : Bool :=
  match exact, fdecode fp32 c with
  | .fin ne me ee, .fin nc mc ec =>
    let e := min ee ec
    let x : Int := (if ne then -1 else 1) * (me * 2 ^ (ee - e).toNat : Nat)
    let y : Int := (if nc then -1 else 1) * (mc * 2 ^ (ec - e).toNat : Nat)
    let ulp : Int := max ((Nat.log2 me : Int) + ee - 23) (-149)
    let two : Nat := if ulp + 1 ≥ e then 2 ^ (ulp + 1 - e).toNat else 0
    (x - y).natAbs ≤ two
  | _, _ => false

/-- The nearest FP32 code, moved by a free amount that stays within 2 ulp of the exact value. -/
def pickUlp (exact : FV) (pick : Nat) : Nat :=
  let near := fround fp32 false exact
  let c := near + pick % 5 - 2
  if c ≤ maxCode fp32 && within2ulp exact c then c else near

/-- VEXP of an FP32 code. -/
def fexp (c : BitVec 32) : Nat :=
  match fdecode fp32 c.toNat with
  | .nan => qnan fp32
  | .inf neg => if neg then 0 else infOf fp32 false
  | .fin neg m e => pickUlp (expVal neg m e) (Config.expPick c)

/-- VRSQ of an FP32 code. -/
def frsq (c : BitVec 32) : Nat :=
  match fdecode fp32 c.toNat with
  | .nan => qnan fp32
  | .inf neg => if neg then qnan fp32 else 0
  | .fin neg m e =>
    if m = 0 then infOf fp32 neg
    else if neg then qnan fp32
    else pickUlp (rsqVal m e) (Config.rsqPick c)

end Sys2Proof.Machine
end

