-- ==== Sys2Proof/Machine/Operands.lean ====
section
/-! DEFINITION. Operand forms: engine addresses through a VI's segments (chapter 9), descriptor address spaces (R253 to
R256), scratchpad, flag and slot windows (R317), and the fields of a descriptor (chapter 8). -/

namespace Sys2Proof.Machine

/-! ## Segments -/

/-- Slots 0 to 7 are device segments, 8 to 15 host segments. -/
def isHostSlot (i : Fin 16) : Bool := i.val ≥ 8

def seg (s : State) (v : Vi) (i : Fin 16) : Seg :=
  if i.val < 8 then
    let k := v.val * 8 + i.val
    { vbase := fget s .devVbase k, target := fget s .devTarget k, size := fget s .devSize k, attr := 0 }
  else
    let k := v.val * 8 + (i.val - 8)
    { vbase := fget s .hostVbase k, target := fget s .hostTarget k, size := fget s .hostSize k, attr := fget s .hostAttr k }

def setSeg (v : Vi) (i : Fin 16) (g : Seg) (s : State) : State :=
  if i.val < 8 then
    let k := v.val * 8 + i.val
    fset .devSize k g.size (fset .devTarget k g.target (fset .devVbase k g.vbase s))
  else
    let k := v.val * 8 + (i.val - 8)
    fset .hostAttr k g.attr (fset .hostSize k g.size (fset .hostTarget k g.target (fset .hostVbase k g.vbase s)))

/-- A segment covers an engine address (R284). -/
def covers (g : Seg) (a : Nat) : Bool := g.vbase ≤ a / 2 ^ 21 && a / 2 ^ 21 < g.vbase + g.size

/-- The live slot that covers an address, leaving out a slot that a SEG_SET is changing (R310). -/
def liveSlot (s : State) (v : Vi) (a : Nat) : Option (Fin 16) :=
  (List.finRange 16).find? fun i => covers (seg s v i) a && (getVi s v).changing != some i

/-- Where an access lands: a target, a miss, or a segment fault. -/
inductive Tr where
  | hit (t : Target) (slot : Fin 16)
  | miss
  | fault
  deriving DecidableEq, Repr

def allotDev (s : State) (u : CUnit) (v : Vi) : Nat × Nat :=
  (fgetU s u .allotDevBase v.val * 2 ^ 21, fgetU s u .allotDevSize v.val * 2 ^ 21)
def allotHost (s : State) (u : CUnit) (v : Vi) : Nat × Nat :=
  (fgetU s u .allotHostBase v.val * 2 ^ 21, fgetU s u .allotHostSize v.val * 2 ^ 21)

/-- Offset to target in an allotment, checked for n bytes (R152, R288). -/
def inDev (s : State) (u : CUnit) (v : Vi) (off n : Nat) : Option Target :=
  if off + n ≤ (allotDev s u v).2 then some (.dev ((allotDev s u v).1 + off)) else none
def inHost (s : State) (u : CUnit) (v : Vi) (off n : Nat) (stream : Bool) : Option Target :=
  if off + n ≤ (allotHost s u v).2 then some (.host ((allotHost s u v).1 + off) stream) else none

/-- Translate n bytes at an engine address through one slot (R284, R288). -/
def viaSlot (s : State) (u : CUnit) (v : Vi) (i : Fin 16) (a n : Nat) : Tr :=
  let g := seg s v i
  let off := g.target * 2 ^ 21 + (a - g.vbase * 2 ^ 21)
  match (if isHostSlot i then inHost s u v off n (g.attr == 1) else inDev s u v off n) with
  | some t => .hit t i
  | none => .fault

/-- Translate n bytes at an engine address (R283, R288). -/
def translate (s : State) (u : CUnit) (v : Vi) (a n : Nat) : Tr :=
  match liveSlot s v a with
  | some i => viaSlot s u v i a n
  | none => .miss

/-- An access counts as a hit on its slot (R294). -/
def touchSlot (v : Vi) (i : Fin 16) (s : State) : State :=
  updVi v (fun x => { x with segHit := mset 0 x.segHit i.val (s.lruCtr + 1) }) { s with lruCtr := s.lruCtr + 1 }

/-- A unit waits on a miss (R298, R303). -/
def addMiss (v : Vi) (a : Nat) (w : MissWho) (s : State) : State :=
  updVi v (fun x => { x with misses := x.misses ++ [{ addr := a, who := w, at_ := s.nowNs }] }) s

/-! ## Descriptor fields (chapter 8) -/

def dOp (d : Block) : Nat := blockField d 0 1
def dCpl (d : Block) : Bool := bitAt (blockField d 1 1) 0
def dIrq (d : Block) : Bool := bitAt (blockField d 1 1) 1
def dTag (d : Block) : Nat := blockField d 2 2

/-! ### SEG_SET (Table: SEG_SET body) -/

def sgSlot (d : Block) : Nat := blockField d 8 1 % 64
def sgHost (d : Block) : Bool := bitAt (blockField d 8 1) 6
def sgSeg (d : Block) : Seg :=
  {
    vbase := blockField d 0x10 8 / 2 ^ 21 % 2 ^ 27, target := blockField d 0x18 8 / 2 ^ 21 % 2 ^ 27,
    size := blockField d 0x0C 4 % 2 ^ 27, attr := if sgHost d then blockField d 8 1 / 128 else 0 }
/-- The live slot that a SEG_SET names: device slots 0 to 7, host slots 8 to 15. -/
def sgLive (d : Block) : Option (Fin 16) :=
  if sgSlot d < 8 then some ⟨sgSlot d % 8 + (if sgHost d then 8 else 0), by split <;> omega⟩ else none

/-! ### Address spaces -/

/-- A descriptor address: SPACE 0 DEV, 1 HOST, 2 SEG, 3 SCRATCH, 4 FABRIC (R253). -/
def trSpace (s : State) (u : CUnit) (v : Vi) (space a n : Nat) : Tr :=
  match space with
  | 0 => match inDev s u v a n with | some t => .hit t 0 | none => .fault
  | 1 => match inHost s u v a n true with | some t => .hit t 0 | none => .fault
  | _ => translate s u v a n

/-! ## Engine windows (R317) -/

/-- Engine scratchpad offset of a VI's offset range of n bytes. -/
def spWindow (s : State) (u : CUnit) (v : Vi) (o n : Nat) : Option Nat :=
  let b := fgetU s u .spBase v.val * 2 ^ 17
  if o + n ≤ fgetU s u .spSize v.val * 2 ^ 17 && b + o + n ≤ 2 ^ 22 then some (b + o) else none
/-- Engine flag of a VI's flag. -/
def flagWindow (s : State) (u : CUnit) (v : Vi) (f : Nat) : Option Nat :=
  let b := fgetU s u .flagBase v.val * 32
  if f < fgetU s u .flagCount v.val * 32 && b + f < 1024 then some (b + f) else none
def slotWindow (s : State) (u : CUnit) (v : Vi) (n : Nat) : Bool := n < 4 && bitAt (fgetU s u .slotMask v.val) n

/-! ## Scratchpad bytes -/

def spRead (s : State) (e : Eng) (o n : Nat) : List Byte := (List.range n).map fun i => mget 0 (eng s e).scratch (o + i)
def spGo : List Byte → Nat → SMap Byte → SMap Byte
  | [], _, m => m
  | b :: t, o, m => spGo t (o + 1) (mset 0 m o b)
def spWrite (e : Eng) (o : Nat) (l : List Byte) (s : State) : State :=
  updEng e (fun x => { x with scratch := spGo l o x.scratch }) s

end Sys2Proof.Machine
end

