-- ==== Sys2Proof/Machine/Fabric.lean ====
section
/-! DEFINITION. The fabric as the rest of the device uses it (chapter 14): frames, credits, routing by the tables, the
arbiter, and what a port drops when it leaves UP. -/

namespace Sys2Proof.Machine

def ownNode (s : State) : Nat := fget s .nodeId
def nodeOk (s : State) : Bool := fget s .nodeValid == 1
def portUp (s : State) (p : Port) : Bool := (getPort s p).st == .up && !portFenced s p
def allPorts : List Port := List.finRange 32
/-- A flue die is in service for R468. -/
def flueIn (s : State) (f : Flue) : Bool := !collFenced s f && (portsOf f).any fun p => !portFenced s p
def anyFlue (s : State) : Bool := (List.finRange 4).any (flueIn s)

/-! ## Frames (R452) -/

/-- A frame of a source unit: HOPS 63 and EPOCH at CURRENT (R467). -/
def mkFrame (s : State) (kind vc dst kspec : Nat) (payload : List Byte) : Frame :=
  {
    ver := 1, kind := BitVec.ofNat 4 kind, vc := BitVec.ofNat 3 vc, epoch := s.epochCur, esc := false,
    reservedZero := true, hops := 63, dst := BitVec.ofNat 18 dst, src := BitVec.ofNat 18 (ownNode s),
    len := BitVec.ofNat 13 payload.length, lseq := 0, kspec := BitVec.ofNat 120 kspec, hcrcOk := true, tagged := false,
    payload := payload }

/-- A field of the kind-specific bytes: bits counted from header byte 0x10. -/
def ks (f : Frame) (lo w : Nat) : Nat := bits f.kspec.toNat lo w
/-- Credits of 256 bytes that a sequenced frame spends (R454). -/
def frameCredits (f : Frame) : Nat := (32 + f.len.toNat + 255) / 256
/-- Credits free for a virtual channel of a port: 128 less those spent and not returned (R454). -/
def creditsFree (s : State) (p : Port) (v : Nat) : Nat :=
  128 - (mget 0 (getPort s p).spent v + 4096 - mget 0 (getPort s p).back v) % 4096
def canSend (s : State) (p : Port) (f : Frame) (v : Nat) : Bool := frameCredits f ≤ creditsFree s p v

/-- The record of R524: the last collective frame of a group that crossed the port. -/
def recCross (p : Port) (f : Frame) (s : State) : State :=
  if f.kind = 4 || f.kind = 5 then
    updPort p (fun x => { x with
        cross := mset {} x.cross (ks f 0 12)
          { seq := ks f 16 16, src := f.src.toNat, dst := f.dst.toNat, valid := true } }) s
  else s

/-- Credits of a received frame are owed to the neighbour once the frame has left the buffer. -/
def oweCredits (inPort : Option Port) (v : Nat) (f : Frame) (s : State) : State :=
  match inPort with
  | some p => updPort p (fun x => { x with owed := mupd 0 x.owed v (· + frameCredits f) }) s
  | none => s

/-- Send a sequenced frame on a port: HOPS falls, LSEQ counts, credits are spent, the replay buffer keeps it. -/
def sendOn (p : Port) (f : Frame) (s : State) : State :=
  let x := getPort s p
  let f := { f with hops := f.hops - 1, lseq := BitVec.ofNat 12 x.txSeq }
  let s := updPort p (fun x => { x with
    txSeq := (x.txSeq + 1) % 4096, hold := x.hold ++ [(f, 1)],
    spent := mupd 0 x.spent f.vc.toNat (fun c => (c + frameCredits f) % 4096) }) s
  recCross p f (emit (.frame p f) s)

/-! ## Routing (R465, R467, R473) -/

/-- The entry of a bank for a destination (R465). -/
def rtEntry (s : State) (bank : Nat) (dst : Nat) : Nat :=
  let own := ownNode s
  let k := if dst / 512 ≠ own / 512 then (2 * bank) * 512 + dst / 512 else (2 * bank + 1) * 512 + dst % 512
  (mget 0 s.rt k).toNat

def curBank (s : State) : Nat := b2n s.epochCur

/-- The bank of a frame, and whether it is stale (R473). -/
def frameBank (s : State) (f : Frame) : Nat × Bool :=
  if f.epoch = s.epochCur then (curBank s, false)
  else if s.grace || s.epochArm then (1 - curBank s, false)
  else (curBank s, true)

inductive Route where
  | send (p : Port) (f : Frame)
  | deliver
  | drop (unreach : Bool)
  | hold
  deriving DecidableEq, Repr

def portNo (n : Nat) : Port := ⟨n % 32, by omega⟩

/-- The escape of R467: usable with ESC_V and the port UP; it sends once its channel has the credits. -/
def escape (s : State) (f : Frame) (e : Nat) : Option (Port × Frame × Bool) :=
  let p := portNo (bits e 24 5)
  if bitAt e 29 && portUp s p then
    let v := if bitAt e 30 then 7 else if bitAt e 31 then 6 else if f.esc then f.vc.toNat else 6
    some (p, { f with vc := BitVec.ofNat 3 v, esc := true }, canSend s p f v)
  else none

/-- The adaptive candidates that are usable, in order (R467). -/
def candidates (s : State) (e : Nat) (inPort : Option Port) : List Port :=
  ((List.range 4).filter fun i => bitAt e (6 * i + 5) && portUp s (portNo (bits e (6 * i) 5)) &&
    inPort != some (portNo (bits e (6 * i) 5))).map fun i => portNo (bits e (6 * i) 5)

def bestPort (s : State) (v : Nat) : List Port → Option Port
  | [] => none
  | p :: t => match bestPort s v t with
    | none => some p
    | some q => if creditsFree s q v > creditsFree s p v then some q else some p

/-- Table: route(f) of R467. -/
def decideRoute (s : State) (f : Frame) (inPort : Option Port) : Route :=
  if f.dst.toNat = ownNode s then .deliver
  else if f.hops = 0 then .drop false
  else
    let e := rtEntry s (frameBank s f).1 f.dst.toNat
    if f.vc = 1 then
      let p := portNo (bits e 32 5)
      if bitAt e 37 && portUp s p then (if canSend s p f 1 then .send p f else .hold) else .drop true
    else
      let tail := match escape s f e with
        | none => Route.drop true
        | some (p, g, now) => if now then .send p g else .hold
      if f.esc then tail
      else
        let cs := candidates s e inPort
        if cs.isEmpty then tail
        else match bestPort s f.vc.toNat (cs.filter fun p => canSend s p f f.vc.toNat) with
          | some p => .send p f
          | none => match escape s f e with
            | some (p, g, true) => .send p g
            | _ => .hold

/-- The port on which a discarded frame is counted: where it arrived, or the first port of the first flue die. -/
def countPort (inPort : Option Port) : Port := inPort.getD 0

/-- Route a frame (R459, R467, R473). -/
def routeIn (f : Frame) (inPort : Option Port) (s : State) : State :=
  if !nodeOk s then s else
  let stale := f.dst.toNat ≠ ownNode s && (frameBank s f).2
  let s := if stale then fcount .stale (countPort inPort).val 16 1 s else s
  let v := f.vc.toNat
  let f := if stale then { f with epoch := s.epochCur } else f
  match decideRoute s f inPort with
  | .send p g => oweCredits inPort v f (sendOn p g s)
  | .deliver => oweCredits inPort v f s
  | .drop unreach =>
    oweCredits inPort v f (fcount (if unreach then .unreach else .discards) (countPort inPort).val 16 1 s)
  | .hold => { s with waitq := s.waitq ++ [(f, inPort)] }

/-- A source unit sends a routed frame. -/
def sendFrame (f : Frame) (s : State) : State := routeIn f none s

/-- Every waiting frame is routed again: a port has changed (R467, R488). -/
def rerouteAll (s : State) : State :=
  s.waitq.foldl (fun s w => routeIn w.1 w.2 s) { s with waitq := [] }

/-! ## The arbiter (R476) -/

def frameBytes (f : Frame) : Nat := 32 + f.len.toNat

/-- The first waiting frame of a channel that can now leave on port p within the deficit, and the rest. -/
def pickWait (s : State) (p : Port) (v : Nat) (budget : Nat) :
    List (Frame × Option Port) → Option ((Frame × Option Port) × Frame × List (Frame × Option Port))
  | [] => none
  | w :: t =>
    let ok := match decideRoute s w.1 w.2 with
      | .send q g => if q == p && w.1.vc.toNat == v && frameBytes w.1 ≤ budget then some g else none
      | _ => none
    match ok with
    | some g => some (w, g, t)
    | none => (pickWait s p v budget t).map fun x => (x.1, x.2.1, w :: x.2.2)

/-- Serve one channel of a port while its deficit lasts. -/
def drrServe (p : Port) (v : Nat) : Nat → State → State
  | 0, s => s
  | n + 1, s =>
    match pickWait s p v (mget 0 (getPort s p).deficit v) s.waitq with
    | none => s
    | some (w, g, rest) =>
      let s := updPort p (fun x => { x with deficit := mupd 0 x.deficit v (fun d => d - frameBytes w.1) }) { s with waitq := rest }
      drrServe p v n (oweCredits w.2 w.1.vc.toNat w.1 (sendOn p g s))

/-- One visit of the deficit round-robin to a channel: its quantum is 256 bytes × its weight. -/
def drrVisit (p : Port) (v : Nat) (s : State) : State :=
  if s.waitq.any (fun w => w.1.vc.toNat == v) then
    let q := 256 * max 1 (fgetU s (.fport p) .vcWeight v)
    drrServe p v s.waitq.length (updPort p (fun x => { x with deficit := mupd 0 x.deficit v (· + q) }) s)
  else updPort p (fun x => { x with deficit := mset 0 x.deficit v 0 }) s

/-- Credits have come back to a port: 17 rounds carry the longest frame at the least weight. -/
def drainPort (p : Port) (s : State) : State :=
  if s.waitq.isEmpty then s else
  (List.range 17).foldl (fun s _ => (List.range 8).foldl (fun s v => drrVisit p v s) s) s

/-! ## A port enters and leaves UP -/

/-- Link counters and credits start afresh at each UP (R454, chapter 14 corner). -/
def freshLink (x : PortSt) : PortSt :=
  { x with
    txSeq := 0, rxSeq := 4095, waitSeq := false, spent := [], back := [], owed := [], sent := [],
    hold := [], deficit := [], cross := [] }

def enterUp (p : Port) (s : State) : State :=
  rerouteAll (updPort p (fun x => { freshLink x with st := .up }) s)

/-- The frames of the replay buffer are discarded and counted (R488). -/
def dropHold (p : Port) (s : State) : State :=
  updPort p (fun x => { x with hold := [] }) (fcount .discards p.val 16 (getPort s p).hold.length s)

end Sys2Proof.Machine
end

