-- ==== Sys2Proof/Machine/Mesh.lean ====
section
/-! DEFINITION. The kiln mesh (chapter 3): which islands run, flits and their digits, the four phases of a half, the FIFOs
between islands and the network, routes and detours, and the order in which packets arrive. -/

namespace Sys2Proof.Machine

/-! ## Islands (R72, R74) -/

/-- An island runs while its PLL is locked and it has not stopped (R74). -/
def islandRuns (s : State) (i : Island) : Bool := !s.pllParked.contains i && !s.stopped.contains i
/-- The die of an island: kiln dies 0 to 15, flue dies 16 to 19, the link die 20. -/
def dieOf : Island → Nat
  | .engine e => e.val / 16 | .hub k => k.val | .memory k => k.val
  | .fport p => 16 + p.val / 8 | .coll f => 16 + f.val | .flueTable f => 16 + f.val
  | .hostPort _ => 20 | .home => 20 | .ring => 20 | .mgmt => 20 | .aon => 20
/-- The island of a holder: the hub of a kiln die, or the link-die line store's reader, the ring engine (R170). -/
def holderIsle (h : Holder) : Island := if hh : h.val < 16 then .hub ⟨h.val, hh⟩ else .ring

/-! ## Flits (R80, R81) -/

/-- A flit with its CRC-8 above it: 68 digits of two bits. -/
def flitDigits (f : BitVec 128) : Nat := f.toNat + crc8 (natBytes 16 f.toNat) * 2 ^ 128
/-- One rail of four is high for each digit (R80). -/
def railsOf (x : Nat) : Nat := (List.range 68).foldl (fun a j => a + 2 ^ (4 * j + x / 4 ^ j % 4)) 0
def encodeFlit (f : BitVec 128) : BitVec 272 := BitVec.ofNat 272 (railsOf (flitDigits f))
/-- The value of a digit from its rails: none while no rail, or more than one, is high. -/
def digitOf (r : Nat) : Option Nat := match r with
  | 1 => some 0 | 2 => some 1 | 4 => some 2 | 8 => some 3 | _ => none
def railsAt (r : BitVec 272) (j : Nat) : Nat := bits r.toNat (4 * j) 4
/-- The flit that the rails carry, when every digit has exactly one rail high and the CRC agrees. -/
def decodeRails (r : BitVec 272) : Option (BitVec 128) :=
  let ds := (List.range 68).map fun j => digitOf (railsAt r j)
  if ds.all Option.isSome then
    let x := ds.foldr (fun d a => d.getD 0 + 4 * a) 0
    let f : BitVec 128 := BitVec.ofNat 128 x
    if crc8 (natBytes 16 f.toNat) = x / 2 ^ 128 then some f else none
  else none
/-- What the receiver answers: nothing until every digit has a rail high, then ACK_OK or ACK_ERR (R82, R83). -/
def verdict (r : BitVec 272) : Ack :=
  if (List.range 68).any fun j => railsAt r j == 0 then .none
  else if (decodeRails r).isSome then .ok else .err

/-! ## Lane groups and halves (R82 to R86) -/

def laneKey (l : Link) (up : Bool) : Nat := (l.kiln.val * 4 + l.edge.val) * 2 + b2n up
def lanesOf (s : State) (l : Link) (up : Bool) : Lanes := mget {} s.lanes (laneKey l up)
def updLanes (l : Link) (up : Bool) (f : Lanes → Lanes) (s : State) : State :=
  { s with lanes := mupd {} s.lanes (laneKey l up) f }
def wireOf (s : State) (l : Link) (up : Bool) : Wire := mget {} s.wires (laneKey l up)
def updWire (l : Link) (up : Bool) (f : Wire → Wire) (s : State) : State :=
  { s with wires := mupd {} s.wires (laneKey l up) f }

/-- The half that flit n travels on: logical group n mod 4, half (n div 4) mod 2. -/
def halfKey (n : Nat) : Nat := n % 4 * 2 + n / 4 % 2
/-- The logical group that a physical one carries: the spare carries the group it replaces. -/
def logicalOf (x : Lanes) (g : Fin 5) : Option Nat :=
  if g.val < 4 then (if x.failed.contains g then none else some g.val)
  else if x.failed.contains g then none else x.spared.map Fin.val

/-- The next phase of a half (R82, R83): an acknowledged flit is done; one answered ACK_ERR is raised again. -/
def nextPhase (x : Half) : Half := match x.phase with
  | .zero => match x.flit with
    | some f => { x with phase := .raised, rails := encodeFlit f.2 }
    | none => x
  | .raised => match verdict x.rails with
    | .none => x
    | a => { x with phase := .acked, ack := a }
  | .acked => { x with phase := .lowered, rails := 0 }
  | .lowered => { x with phase := .zero, flit := if x.ack = .err then x.flit else none, ack := .none }

/-- The flit that a half's receiver takes in this phase: one that it has just answered with ACK_OK. -/
def takenFlit (x y : Half) : Option (Nat × BitVec 128) :=
  if x.phase = .raised ∧ y.phase = .acked ∧ y.ack = .ok then y.flit else none

/-- One half moves one phase; the receiver keeps what it took. -/
def stepHalf (w : Wire) (k : Nat) : Wire :=
  let x := mget {} w.halves k
  let y := nextPhase x
  let w := { w with halves := mset {} w.halves k y }
  match takenFlit x y with
  | some f => { w with rx := mset none w.rx f.1 (some f.2) }
  | none => w

/-- The next flit of the queue goes to its half once that half is free. -/
def loadHalf (w : Wire) : Wire := match w.queue with
  | f :: t =>
    let k := halfKey w.next
    if mget {} w.halves k = {} then
      { w with halves := mset {} w.halves k { flit := some (w.next, f) }, queue := t, next := w.next + 1 }
    else w
  | [] => w

/-- The receiver reassembles in the rotation: a flit is delivered once every earlier one has been. -/
def giveFlit (w : Wire) : Wire :=
  if (mget none w.rx w.given).isSome then { w with rx := mset none w.rx w.given none, given := w.given + 1 } else w

/-- One direction of a link moves on: every half by one phase, then deliveries and new flits. -/
def stepWire (w : Wire) : Wire :=
  let w := (List.range 8).foldl stepHalf w
  let w := (List.range 8).foldl (fun w _ => giveFlit w) w
  (List.range 8).foldl (fun w _ => loadHalf w) w

/-- The receiver of a physical group answers ACK_ERR: the half of it whose rails are raised will raise the same flit
again (R83). -/
def nackHalf (x : Lanes) (g : Fin 5) (w : Wire) : Wire := match logicalOf x g with
  | none => w
  | some n => match [2 * n, 2 * n + 1].find? fun k => (mget {} w.halves k).phase == .raised with
    | some k => { w with halves := mupd {} w.halves k fun y => { y with phase := .acked, ack := .err } }
    | none => w
/-- A group is repaired: its halves send their unacknowledged flits again, on the spare (R85). -/
def resendHalves (n : Nat) (w : Wire) : Wire :=
  [2 * n, 2 * n + 1].foldl (fun w k => { w with halves := mupd {} w.halves k fun y =>
    if y.ack = .ok then { y with phase := .lowered, rails := 0 } else { flit := y.flit } }) w

/-! ## Routes (R27 to R29, R88) -/

/-- The kiln dies by which a die meets the mesh: itself, or those of Table: Edge attachments. -/
def attach (d : Nat) : List Nat :=
  if d < 16 then [d]
  else match d with
    | 16 => [0, 4, 8, 12] | 17 => [3, 7, 11, 15] | 18 => [12, 13] | 19 => [14, 15] | _ => [0, 1, 2, 3]
def gap (a b : Nat) : Nat := (a - b) + (b - a)
/-- Mesh steps between two kiln dies. -/
def dist (a b : Nat) : Nat := gap (a % 4) (b % 4) + gap (a / 4) (b / 4)
/-- Where a packet enters and leaves the kiln mesh: the nearest pair of attachments. -/
def ends (a b : Nat) : Nat × Nat :=
  ((attach a).flatMap fun x => (attach b).map fun y => (x, y)).foldl
    (fun m p => if dist p.1 p.2 < dist m.1 m.2 then p else m) ((attach a).headD 0, (attach b).headD 0)
/-- X, then Y (the picture of Transport): the kiln dies passed, the last one left out. -/
def xySteps : Nat → Nat → Nat → List Nat
  | 0, _, _ => []
  | n + 1, a, b =>
    if a % 4 < b % 4 then a :: xySteps n (a + 1) b
    else if b % 4 < a % 4 then a :: xySteps n (a - 1) b
    else if a / 4 < b / 4 then a :: xySteps n (a + 4) b
    else if b / 4 < a / 4 then a :: xySteps n (a - 4) b
    else []
/-- The dies on the way from a to b, both included. -/
def xyDies (a b : Nat) : List Nat :=
  let (x, y) := ends a b
  (if a < 16 then [] else [a]) ++ xySteps 7 x y ++ [y] ++ (if b < 16 then [] else [b])
/-- The link between two neighbouring dies. -/
def linkAt (a b : Nat) : Option Link := allLinks.find? fun l => linkEnds l == (a, b) || linkEnds l == (b, a)
/-- The links between each die of a list and the next, each with its direction. -/
def linksAlong : List Nat → List (Link × Bool)
  | a :: b :: t => (linkAt a b).toList.map (fun l => (l, decide (a < b))) ++ linksAlong (b :: t)
  | _ => []
def xyRoute (a b : Nat) : List (Link × Bool) := if a = b then [] else linksAlong (xyDies a b)

/-- The way in which a hop over a link leaves die a: 0 north, 1 east, 2 south, 3 west. -/
def heading (a : Nat) (l : Link) : Nat := if (linkEnds l).1 == a then l.edge.val else (l.edge.val + 2) % 4
/-- One more hop of every partial path that obeys the west-first turn rule: once another way than west has been taken, west
is not taken again (R88). A node is a die and whether west is still allowed. -/
def hopsFrom (s : State) (x : (Nat × Bool) × List (Link × Bool)) : List ((Nat × Bool) × List (Link × Bool)) :=
  let (n, path) := x
  (allLinks.filter fun l => !linkFenced s l && ((linkEnds l).1 == n.1 || (linkEnds l).2 == n.1)).filterMap fun l =>
    let b := if (linkEnds l).1 == n.1 then (linkEnds l).2 else (linkEnds l).1
    let west := heading n.1 l == 3
    if west && !n.2 then none else some ((b, west), path ++ [(l, decide (n.1 < b))])
/-- Breadth first: paths to nodes not yet reached. -/
def spread (s : State) (seen : List ((Nat × Bool) × List (Link × Bool))) : List ((Nat × Bool) × List (Link × Bool)) :=
  (seen.flatMap (hopsFrom s)).foldl (fun acc x => if acc.any (fun y => y.1 == x.1) then acc else acc ++ [x]) seen
/-- A shortest route over unfenced links under the west-first turn rule. -/
def westFirst (s : State) (a b : Nat) : Option (List (Link × Bool)) :=
  (((List.range 21).foldl (fun l _ => spread s l) [((a, true), [])]).find? fun x => x.1.1 == b).map Prod.snd
/-- The route in force: X then Y; around fenced links the detour, once it is installed; none until then (R88, R667). -/
def route (s : State) (a b : Nat) : Option (List (Link × Bool)) :=
  let r := xyRoute a b
  let cut := (r.map Prod.fst).filter (linkFenced s)
  if cut.isEmpty then some r
  else if cut.all fun l => s.detours.contains l then westFirst s a b else none
/-- Packets pass between two dies. -/
def meshOpen (s : State) (a b : Nat) : Bool := (route s a b).isSome
/-- No link is out of service. -/
def meshWhole (s : State) : Bool := allLinks.all fun l => !linkFenced s l
/-- The memory island of a die can be reached from a die, and runs. -/
def dieOpen (s : State) (d k : Nat) : Bool := meshOpen s d k && islandRuns s (.memory ⟨k % 16, by omega⟩)
/-- A die's accesses to n bytes of device memory are performed; while they are not, they wait in the mesh (R88, R89, R667).
An access to a hole is answered without a controller. -/
def memOpen (s : State) (d a n : Nat) : Bool :=
  (meshWhole s && s.pllParked.isEmpty && s.stopped.isEmpty) ||
  (if n = 0 then [] else (List.range ((a + n - 1) / 256 - a / 256 + 1)).map fun i => (a / 256 + i) * 256).all
    fun x => isHole s x || dieOpen s d (chanOf (fget s .interleave) x / 8)

/-! ## FIFOs and packets (R77, R78, R89) -/

/-- The FIFO entries of a message: one for its head, and four for a block that it carries (DESIGN CHOICE, log 82). -/
def flitsOf (c : Instr) (d : Option Block) : List (BitVec 128) :=
  Config.meshHead c :: match d with
    | some b => (List.range 4).map fun i => b.extractLsb' (128 * i) 128
    | none => []
def entries (l : List MeshPkt) (p : MeshPkt → Bool) : Nat := ((l.filter p).map fun x => x.flits.length).sum
/-- Entries in an island's FIFO into the network, and in its FIFO out of it. -/
def outFill (s : State) (i : Island) : Nat := entries s.mesh fun p => p.src == i && p.stage == .out
def inFill (s : State) (i : Island) : Nat := entries s.mesh fun p => p.dst == i && p.stage == .arrived
def fifoDepth : Nat := 16
def sameOrder (p q : MeshPkt) : Bool := p.src == q.src && p.dst == q.dst && p.cls == q.cls

/-- An island writes a packet. -/
def send (src dst : Island) (cls : MCls) (c : Instr) (d : Option Block) (w : Who) (s : State) : State :=
  { s with mesh := s.mesh ++ [{ src := src, dst := dst, cls := cls, msg := c, flits := flitsOf c d, who := w }] }

/-- Replace the packet at a position. -/
def setPacket (n : Nat) (p : MeshPkt) (s : State) : State := { s with mesh := s.mesh.set n p }
/-- A packet starts hop n of its path, or has made its last one: then it waits for room in the destination's FIFO. One
whose next link has left service is routed again. -/
def startHop (at_ : Nat) (p : MeshPkt) (n : Nat) (s : State) : State :=
  match p.path[n]? with
  | some (l, up) =>
    if linkFenced s l then setPacket at_ { p with stage := .out } s
    else
      let w := wireOf s l up
      setPacket at_ { p with stage := .hop n (w.next + w.queue.length + p.flits.length) }
        (updWire l up (fun w => { w with queue := w.queue ++ p.flits }) s)
  | none => if inFill s p.dst + p.flits.length ≤ fifoDepth then setPacket at_ { p with stage := .arrived } s else s
/-- A packet between the same dies is still in flight on another route (R88). -/
def otherRoute (s : State) (p : MeshPkt) (r : List (Link × Bool)) : Bool :=
  s.mesh.any fun q => dieOf q.src == dieOf p.src && dieOf q.dst == dieOf p.dst && q.path != r &&
    (match q.stage with | .hop _ _ => true | _ => false)
/-- A packet sets out on the route in force; without one it waits, and behind those in flight on an earlier route (R88,
R667). -/
def setOut (at_ : Nat) (p : MeshPkt) (s : State) : State :=
  match route s (dieOf p.src) (dieOf p.dst) with
  | some r => if otherRoute s p r then s else startHop at_ { p with path := r } 0 s
  | none => s

/-- One packet moves on: from its writer into the FIFO when there is room and nothing of the writer is before it; into the
network behind the earlier packets of its order; over a link when its flits have been delivered. A full FIFO holds it. -/
def movePacket (s : State) (at_ : Nat) : State :=
  match s.mesh[at_]? with
  | none => s
  | some p =>
    let before := s.mesh.take at_
    match p.stage with
    | .held => if before.any (fun q => q.src == p.src && q.stage == .held) then s
      else if outFill s p.src + p.flits.length ≤ fifoDepth then setPacket at_ { p with stage := .out } s else s
    | .out => if before.any fun q => sameOrder p q && (q.stage == .out || q.stage == .held) then s else setOut at_ p s
    | .hop n upto => match p.path[n]? with
      | some (l, up) => if (wireOf s l up).given < upto then s else startHop at_ p (n + 1) s
      | none => startHop at_ p n s
    | .arrived => s

/-- A nanosecond of the mesh: every packet and every link direction that is busy moves on. -/
def meshTick (s : State) : State :=
  let s := (List.range s.mesh.length).foldl movePacket s
  { s with wires := s.wires.map fun q => (q.1, stepWire q.2) }

/-- A packet can be read: it has reached its island's FIFO, with nothing of its order before it, and the island runs (R78,
R89). -/
def deliverable (s : State) (n : Nat) (p : MeshPkt) : Bool :=
  p.stage == .arrived && islandRuns s p.dst && !(s.mesh.take n).any (sameOrder p)
/-- The packet that a command brings: the oldest one of that message that can be read, or else the oldest one. -/
def packetOf (s : State) (c : Instr) : Option (Nat × MeshPkt) :=
  ((s.mesh.zipIdx.find? fun q => q.1.msg == c && deliverable s q.2 q.1).orElse
    fun _ => s.mesh.zipIdx.find? fun q => q.1.msg == c).map fun q => (q.2, q.1)
/-- A message arrives once it can be read. One that the mesh does not hold comes from outside the model's islands. -/
def arrives (s : State) (c : Instr) : Bool := match packetOf s c with
  | some (n, p) => deliverable s n p
  | none => true
/-- Whom the message serves. -/
def whoOf (s : State) (c : Instr) : Who := ((packetOf s c).map fun q => q.2.who).getD .other
/-- The message is read out of its FIFO. -/
def taken (c : Instr) (s : State) : State := match packetOf s c with
  | some (n, _) => { s with mesh := s.mesh.eraseIdx n }
  | none => s

/-- The far sides of an island discard what they hold for it, and it starts with empty crossings (R93). -/
def clearCrossings (i : Island) (s : State) : State :=
  { s with mesh := s.mesh.filter fun p => p.src != i && p.dst != i }
/-- The crossings of every island of a die. -/
def clearDie (d : Nat) (s : State) : State :=
  { s with mesh := s.mesh.filter fun p => dieOf p.src != d && dieOf p.dst != d }

/-- A unit no longer waits for the accesses that `p` names: they go on, and their ends serve no one. -/
def forget (p : Who → Bool) (s : State) : State :=
  let q := fun (w : Who) => if p w then Who.other else w
  { s with
    hret := s.hret.filter fun x => !p x.who
    mesh := s.mesh.map fun x => { x with who := q x.who }
    hl := s.hl.map fun x => (x.1, { x.2 with waits := x.2.waits.map fun w => (w.1, q w.2) }) }

end Sys2Proof.Machine
end

