-- ==== Sys2Proof/Machine/Coll.lean ====
section
/-! DEFINITION. Collectives as the rest of the device uses them (chapter 15): the tree, the extents of each edge,
the signature, the common abort, and a port that leaves UP. -/

namespace Sys2Proof.Machine

/-! ## The COLL body -/

def cGroup (d : Block) : Nat := blockField d 8 2 % 4096
def cKind (d : Block) : Nat := blockField d 0x0A 1 % 16
def cDtype (d : Block) : Nat := blockField d 0x0A 1 / 16
def cOp (d : Block) : Nat := blockField d 0x0B 1 % 4
def cFixed (d : Block) : Bool := bitAt (blockField d 0x0B 1) 2
def cStaged (d : Block) : Bool := bitAt (blockField d 0x0B 1) 3 && cKind d ≥ 2
def cSherd (d : Block) : Nat := 4096 * 2 ^ (blockField d 0x0B 1 / 16)
def cSeq (d : Block) : Nat := blockField d 0x0C 4
def cCount (d : Block) : Nat := blockField d 0x10 8 % 2 ^ 40
def cSrc (d : Block) : Nat := blockField d 0x18 8 % 2 ^ 48
def cDst (d : Block) : Nat := blockField d 0x20 8 % 2 ^ 48
def cRoot (d : Block) : Nat := blockField d 0x28 4 % 2 ^ 18
def cTimeout (d : Block) : Nat := blockField d 0x2C 4 % 2 ^ 26
def cFlagVeng (d : Block) : Nat := blockField d 0x30 2
def cFlagBase (d : Block) : Nat := blockField d 0x32 2 % 1024
/-- Bytes that one member contributes, or receives of one slice. -/
def cBytes (d : Block) : Nat := cCount d * dtypeBytes (cDtype d)

/-! ## The tree (R493) -/

def grp (n : Nat) : Grp := ⟨n % 4096, by omega⟩
def fluef (n : Nat) : Flue := ⟨n % 4, by omega⟩

/-- The children of node(lo, m): child root and the ranks it covers. -/
def kidsOf (lo m : Nat) : List (Nat × Nat) :=
  let q := (m - 1 + 7) / 8
  if q = 0 then [] else
  ((List.range 8).map fun i => (lo + 1 + i * q, min q (lo + m - (lo + 1 + i * q)))).filter fun x => x.1 < lo + m

/-- The subtree that rank r roots, found from node(0, MEMBERS), with its parent's rank. -/
def findNode (r : Nat) : Nat → (Nat × Nat) → Option Nat → (Nat × Nat) × Option Nat
  | 0, n, par => (n, par)
  | k + 1, (lo, m), par =>
    if lo = r then ((lo, m), par) else
    match (kidsOf lo m).find? fun x => x.1 ≤ r && r < x.1 + x.2 with
    | some x => findNode r k x (some lo)
    | none => ((lo, m), par)
def nodeOf (members r : Nat) : (Nat × Nat) × Option Nat := findNode r 20 (0, members) none
def subSize (members r : Nat) : Nat := (nodeOf members r).1.2
def parentRank (members r : Nat) : Option Nat := (nodeOf members r).2
def childRanges (members r : Nat) : List (Nat × Nat) := kidsOf r (subSize members r)

/-! ## Group entries (R490) -/

def groupAddr (s : State) (g : Nat) : Nat :=
  (allotDev s (.coll (fluef g)) vi0).1 + fget s .groupBase * 2 ^ 16 + 64 * g
def gField (s : State) (g off n : Nat) : Nat := leNat (readBytes s (groupAddr s g + off) n)
def gMembers (s : State) (g : Nat) : Nat := gField s g 0 4 % 2 ^ 19
def gRank (s : State) (g : Nat) : Nat := gField s g 4 4 % 2 ^ 18
def gTimeout (s : State) (g : Nat) : Nat := gField s g 8 4 % 2 ^ 26
def gOwner (s : State) (g : Nat) : Nat := gField s g 0x0C 2 % 2 ^ 11
def gValid (s : State) (g : Nat) : Bool := bitAt (gField s g 0x0C 2) 15
def gParent (s : State) (g : Nat) : Option Nat :=
  if bitAt (gField s g 0x10 4) 31 then some (gField s g 0x10 4 % 2 ^ 18) else none
def gKids (s : State) (g : Nat) : List Nat :=
  (List.range (gField s g 0x0E 1 % 16)).map fun i => gField s g (0x14 + 4 * i) 4 % 2 ^ 18
def gListCrc (s : State) (g : Nat) : Nat := gField s g 0x38 4
def gLastSeq (s : State) (g : Nat) : Nat := gField s g 0x3C 4

/-! ## Extents (R502, R505): result bytes as half-open intervals -/

abbrev Ext := List (Nat × Nat)
def extLen (x : Ext) : Nat := x.foldl (fun a i => a + (i.2 - i.1)) 0
def clip (x : Ext) (lo hi : Nat) : Ext := (x.map fun i => (max i.1 lo, min i.2 hi)).filter fun i => i.1 < i.2

def totalBytes (d : Block) (members : Nat) : Nat :=
  match cKind d with
  | 2 => members * cBytes d | 3 => members * cBytes d | 4 => cBytes d | 5 => cBytes d
  | _ => 0
def sherdCount (d : Block) (members : Nat) : Nat := (totalBytes d members + cSherd d - 1) / cSherd d

/-- What the subtree [c, c + n) sends up. -/
def upExt (d : Block) (members c n : Nat) : Ext :=
  let b := cBytes d
  match cKind d with
  | 2 => [(c * b, (c + n) * b)]
  | 3 => [(0, totalBytes d members)]
  | 4 => [(0, totalBytes d members)]
  | 5 => if cRoot d ≠ 0 && c ≤ cRoot d && cRoot d < c + n then [(0, totalBytes d members)] else []
  | _ => []
/-- What is sent down to the subtree [c, c + n). -/
def downExt (d : Block) (members c n : Nat) : Ext :=
  let b := cBytes d
  match cKind d with
  | 2 => [(0, c * b), ((c + n) * b, members * b)]
  | 3 => [(c * b, (c + n) * b)]
  | 4 => [(0, totalBytes d members)]
  | 5 => [(0, totalBytes d members)]
  | _ => []
/-- What a member writes to its destination. -/
def destExt (d : Block) (members rank : Nat) : Ext :=
  match cKind d with
  | 3 => [(rank * cBytes d, (rank + 1) * cBytes d)]
  | _ => [(0, totalBytes d members)]
/-- The offset in DST of a result byte. -/
def destOff (d : Block) (rank off : Nat) : Nat := if cKind d = 3 then off - rank * cBytes d else off
def sherdOf (d : Block) (x : Ext) (i : Nat) : Ext := clip x (i * cSherd d) ((i + 1) * cSherd d)

/-- The edges of a member: 0 the parent, 1 + j child j, with what arrives and what leaves on each. -/
def edgeIn (c : CollSt) (e : Nat) : Ext :=
  if e = 0 then (if c.parent.isSome then downExt c.desc c.members c.rank (subSize c.members c.rank) else [])
  else match (childRanges c.members c.rank)[e - 1]? with
    | some x => upExt c.desc c.members x.1 x.2
    | none => []
def edgeOut (c : CollSt) (e : Nat) : Ext :=
  if e = 0 then (if c.parent.isSome then upExt c.desc c.members c.rank (subSize c.members c.rank) else [])
  else match (childRanges c.members c.rank)[e - 1]? with
    | some x => downExt c.desc c.members x.1 x.2
    | none => []
def edges (c : CollSt) : List Nat := List.range (c.kids.length + 1)
def edgeNode (c : CollSt) (e : Nat) : Option Nat := if e = 0 then c.parent else c.kids[e - 1]?
def edgeRank (c : CollSt) (e : Nat) : Nat :=
  if e = 0 then (parentRank c.members c.rank).getD 0
  else ((childRanges c.members c.rank)[e - 1]?.map Prod.fst).getD 0
def nodeEdge (c : CollSt) (node : Nat) : Option Nat := (edges c).find? fun e => edgeNode c e == some node

/-- Bytes that a member reads from SRC and writes to DST (R502). -/
def srcLen (d : Block) (members : Nat) : Nat :=
  match cKind d with
  | 0 => 0 | 3 => members * cBytes d | _ => cBytes d
def destLen (d : Block) (members rank : Nat) : Nat :=
  match cKind d with
  | 0 => 0 | 1 => cBytes d | _ => extLen (destExt d members rank)
/-- SRC and DST overlap other than as R504 allows. -/
def overlapBad (d : Block) (members rank : Nat) : Bool :=
  let a := cSrc d
  let b := cDst d
  let same := match cKind d with
    | 2 => a == b + rank * cBytes d
    | 3 => false
    | _ => a == b
  !same && !(cKind d == 5 && rank != cRoot d) &&
    decide (a < b + destLen d members rank && b < a + srcLen d members)
/-- The host errors of R272, R504 and R505: the collective synchronises, and DST and the staging window of the member
hold free bytes afterwards (R661). -/
def collBad (d : Block) (members rank : Nat) : Bool :=
  (cKind d == 1 && decide (cCount d > 32)) || decide (sherdCount d members > 2 ^ 24) || overlapBad d members rank
def reducing (d : Block) : Bool := cKind d == 3 || cKind d == 4
def isBad (c : CollSt) : Bool := collBad c.desc c.members c.rank
/-- The collective moves no data and only synchronises, or carries its data in ARRIVE and RELEASE. -/
def barrierLike (c : CollSt) : Bool := totalBytes c.desc c.members == 0 || isBad c

/-! ## The signature (R500) -/

def signature (c : CollSt) : Nat :=
  let d := c.desc
  crc32c (natBytes 1 (cKind d) ++ natBytes 1 (cDtype d) ++ natBytes 1 (cOp d) ++ natBytes 1 (b2n (cFixed d)) ++
    natBytes 1 (blockField d 0x0B 1 / 16) ++ natBytes 3 0 ++ natBytes 8 (cCount d) ++ natBytes 4 (cRoot d) ++
    natBytes 4 c.members ++ natBytes 4 (cSeq d) ++ natBytes 4 c.listCrc)

/-! ## Frames -/

def collCtl (s : State) (g : Nat) (seq dst op code arg : Nat) (payload : List Byte) : Frame :=
  mkFrame s 5 4 dst (g + seq % 2 ^ 16 * 2 ^ 16 + op * 2 ^ 32 + code * 2 ^ 40 + arg * 2 ^ 48) payload
def collData (s : State) (g : Nat) (seq dst : Nat) (up : Bool) (sherd off : Nat) (last : Bool) (crc : Nat)
    (payload : List Byte) : Frame :=
  mkFrame s 4 (if up then 2 else 3) dst
    (g + seq % 2 ^ 16 * 2 ^ 16 + sherd * 2 ^ 32 + off * 2 ^ 56 + b2n last * 2 ^ 78 + crc * 2 ^ 80) payload

def collVi (c : CollSt) : Vi := ⟨c.vi % 2048, by omega⟩

/-! ## The common abort (R518 to R523) -/

def groupOfColl (c : CollSt) : Nat := cGroup c.desc
def neighbours (c : CollSt) : List Nat := c.parent.toList ++ c.kids
def sendAbort (g seq code arg : Nat) (dsts : List Nat) (s : State) : State :=
  dsts.foldl (fun s d => sendFrame (collCtl s g seq d 3 code arg []) s) s

def flagEng (s : State) (c : CollSt) : Option Eng := (viEngines s .ring (collVi c))[cFlagVeng c.desc]?

/-- The engine flags of the STAGED range, clear ones to FAILED (R523). -/
def failFlags (e : Eng) (base n : Nat) (s : State) : State :=
  updEng e (fun x => { x with
    flags := (List.range n).foldl (fun m i =>
    if mget .clear m (base + i) = .clear then mset .clear m (base + i) .failed else m) x.flags }) s

def abortFlags (g : Nat) (c : CollSt) (s : State) : State :=
  if cStaged c.desc && c.launched then
    match flagEng s c, flagWindow s (.coll (fluef g)) (collVi c) (cFlagBase c.desc) with
    | some e, some b =>
      let s := failFlags e b c.stageSlots s
      { s with refail := s.refail ++ [{ vi := c.vi, eng := e, base := b, count := c.stageSlots }] }
    | _, _ => s
  else s

/-- The last SEQ a group completed, and whether an ABORT for it has been forwarded (R521). -/
def noteLast (g seq : Nat) (fwd : Bool) (s : State) : State :=
  { s with collLast := mset 0 s.collLast g (seq % 2 ^ 16 * 2 + b2n fwd + 1) }

/-- The context is free again, and what was asked of the host for its VI's collectives is let go. -/
def clearColl (g : Nat) (s : State) : State :=
  let v := collVi (getColl s (grp g))
  let mine := fun (w : Who) => match w with | .block x _ => x == v | _ => false
  let s := forget mine { s with hblocks := s.hblocks.filter fun b => b.1 != v }
  updColl (grp g) (fun c => { early := c.early, earlyGr := c.earlyGr }) s

/-- The member ends with a status and passes the ABORT on. -/
def endColl (g : Nat) (fin : Option Compl) (fromNode : Option Nat) (code arg : Nat) (s : State) : State :=
  let c := getColl s (grp g)
  let s := sendAbort g (cSeq c.desc) code arg ((neighbours c).filter fun n => some n != fromNode) s
  let s := abortFlags g c s
  let s := match fin with
    | some x => finish (collVi c) c.idx x s
    | none => s
  clearColl g (noteLast g (cSeq c.desc) true s)

/-- A member originates an abort (R518). `who` is the rank that the status concerns. -/
def originate (g : Nat) (st : Status) (who : Nat) (s : State) : State :=
  let c := getColl s (grp g)
  let s := fcount .abortsOrig 0 32 1 s
  let s := if st = .collTimeout then fcount .timeouts 0 32 1 s else s
  let s := if st = .collCheck then fcount .crcFails 0 32 1 s else s
  endColl g (some (openC st who)) none (statusCode st) c.rank s

/-- A member receives an ABORT (R519 to R521). -/
def recvAbort (g seq : Nat) (src : Option Nat) (code arg : Nat) (s : State) : State :=
  let c := getColl s (grp g)
  let s := fcount .abortsRx 0 32 1 s
  if c.active && c.launched && cSeq c.desc % 2 ^ 16 == seq then
    let who := if bitAt arg 31 then 0 else arg % 2 ^ 18
    if s.nowNs ≥ c.deadline then
      endColl g (some (openC .collTimeout)) src code arg (fcount .timeouts 0 32 1 s)
    else endColl g (some (openC (if code = 0x23 then .collLinkLost else .collAbortPeer) who)) src code arg s
  else if mget 0 s.collLast g = seq * 2 + 1 then
    noteLast g seq true (sendAbort g seq code arg
      (((gParent s g).toList ++ gKids s g).filter fun n => some n != src) s)
  else s

/-- A failure of the source or the destination aborts the collective (R518, R420). -/
def collFail (g : Nat) (x : Compl) (s : State) : State :=
  let c := getColl s (grp g)
  let s := fcount .abortsOrig 0 32 1 s
  endColl g (some x) none (statusCode x.status) c.rank s

/-! ## A port leaves UP (R486 to R489, R524) -/

/-- ABORT with COLL_LINK_LOST to SRC and DST of every record of the port; then the records are cleared. -/
def crossAborts (p : Port) (s : State) : State :=
  let recs := (getPort s p).cross
  let s := updPort p (fun x => { x with cross := [] }) s
  recs.foldl (fun s r =>
    if !r.2.valid then s else
    [r.2.src, r.2.dst].foldl (fun s n =>
      if n = ownNode s then recvAbort r.1 r.2.seq none 0x23 (2 ^ 31) s
      else sendFrame (collCtl s r.1 r.2.seq n 3 0x23 (2 ^ 31) []) s) s) s

/-- A port goes from whatever state to a state that is not UP. -/
def leaveUp (p : Port) (st : PState) (s : State) : State :=
  if (getPort s p).st = .up then
    crossAborts p (rerouteAll (dropHold p (updPort p (fun x => { x with st := st }) s)))
  else updPort p (fun x => { x with st := st }) s

/-- A port that enters DOWN from UP for the eighth time within 60 s enters HELD (R462). -/
def portDown (p : Port) (cause : Nat) (s : State) : State :=
  let was := (getPort s p).st == .up
  let recent := ((getPort s p).downs.filter fun t => s.nowNs < t + 60000000000) ++ (if was then [s.nowNs] else [])
  let s := updPort p (fun x => { x with cause := cause, downs := recent, heard := false }) s
  leaveUp p (if was && recent.length ≥ 8 then .held else .down) s

end Sys2Proof.Machine
end

