-- ==== Sys2Proof/Machine/Engine.lean ====
section
/-! DEFINITION. Engines as the rest of the device uses them (chapters 10 to 12): launch indices and how they end,
abandonment, the store buffer and the die write gather, entries of the recipe store, loads and translation. -/

namespace Sys2Proof.Machine

def runVi (r : Run) : Vi := r.ix.vi
/-- The engine's own reading of C fields. -/
def eu (e : Eng) : CUnit := .engine e

/-! ## Store buffer and die write gather (R350, R353, R359 to R362, R374) -/

/-- Two ranges of bytes touch a common 64-byte block. -/
def shareBlock (a n b m : Nat) : Bool := decide (0 < n && 0 < m && a / 64 ≤ (b + m - 1) / 64 && b / 64 ≤ (a + n - 1) / 64)
/-- The entries of a gather that pass to the controller when those that `p` names do: with each of them, in order, every
earlier entry of its block, whoever stored it (R353). -/
def passing (p : Gather → Bool) : List Gather → List Gather
  | [] => []
  | g :: t =>
    let r := passing p t
    if p g || r.any fun x => shareBlock g.addr g.data.length x.addr x.data.length then g :: r else r
/-- The named entries of a die's gather are accepted, the oldest first, but for what the mesh keeps waiting (R667). -/
def acceptThose (k : Kiln) (p : Gather → Bool) (s : State) : State :=
  let l := passing (fun g => p g && memOpen s k.val g.addr g.data.length) (gather s k)
  l.foldl (fun s g => acceptWrite g.addr g.data s) (updGather k (fun m => l.foldl List.erase m) s)
/-- Every entry of an engine is accepted (Table: Drain triggers). -/
def acceptOwn (e : Eng) (s : State) : State := acceptThose (kilnOf e) (fun g => g.eng == e) s

/-- A store to device memory enters its die's write gather; a full gather passes its oldest entry on. -/
def pushGather (e : Eng) (v : Vi) (a : Nat) (l : List Byte) (s : State) : State :=
  let k := kilnOf e
  let s := match gather s k with
    | g :: t => if t.length ≥ 63 then acceptWrite g.addr g.data (updGather k (fun _ => t) s) else s
    | [] => s
  updGather k (fun g => g ++ [{ eng := e, vi := v, addr := a, data := l }]) s

def sliceOf (k : Kiln) : Holder := ⟨k.val, by omega⟩
/-- The lines that n bytes from a touch. -/
def linesOf (a n : Nat) : List Nat := if n = 0 then [] else (List.range ((a + n - 1) / 64 - a / 64 + 1)).map fun i => a / 64 + i
/-- The part of a write that falls in one line: a byte mask and the line's bytes. -/
def lineMask (l a : Nat) (bs : List Byte) : BitVec 64 :=
  BitVec.ofNat 64 (leNatBits ((List.range 64).map fun i => decide (a ≤ 64 * l + i && 64 * l + i < a + bs.length)))
where
  leNatBits : List Bool → Nat
    | [] => 0
    | b :: t => b2n b + 2 * leNatBits t
def linePart (l a : Nat) (bs : List Byte) : Block :=
  bytesBlock ((List.range 64).map fun i => if a ≤ 64 * l + i then bs.getD (64 * l + i - a) 0 else 0)
/-- A unit of a kiln die sends an access of a line to its slice. -/
def toSlice (src : Island) (k : Kiln) (c : Instr) (d : Option Block) (w : Who) (s : State) : State :=
  let s := match c with
    | .sliceLoad h l st => emit (.sliceLoad h l st) s
    | .sliceStore h l m b st => emit (.sliceStore h l m b st) s
    | _ => s
  send src (.hub k) .request c d w s
/-- A kiln die's unit reads host memory: through its slice, or by a memory read of its VI (R154, R179, R184, R202). -/
def hostLoad (src : Island) (k : Kiln) (v : Vi) (a n : Nat) (stream : Bool) (what : HostRead) (w : Who) (s : State) : State :=
  if viaHome s v then
    (linesOf a n).foldl (fun s l => toSlice src k (.sliceLoad (sliceOf k) (BitVec.ofNat 46 l) stream) none w s) s
  else emit (.hostRead (portOf v) v a what) s
/-- Data writes may carry the Relaxed Ordering attribute while the PF's enable is set (R134, R363). -/
def relaxes (s : State) (v : Vi) : Bool := (getPf s (portOf v)).relaxed
/-- A kiln die's unit writes host memory. -/
def hostStore (src : Island) (k : Kiln) (v : Vi) (a : Nat) (bs : List Byte) (stream relaxed : Bool) (w : Who) (s : State) :
    State :=
  if viaHome s v then
    (linesOf a bs.length).foldl (fun s l =>
      let b := linePart l a bs
      toSlice src k (.sliceStore (sliceOf k) (BitVec.ofNat 46 l) (lineMask l a bs) b stream) (some b) w s) s
  else emit (.hostWrite (portOf v) v a bs (relaxed && relaxes s v)) s

/-- LDR obtains the line in M: a store of no bytes, carried as through a CACHED segment (Table: Reservation targets,
R370). -/
def hostReserve (src : Island) (k : Kiln) (v : Vi) (a : Nat) (what : HostRead) (w : Who) (s : State) : State :=
  if viaHome s v then toSlice src k (.sliceStore (sliceOf k) (lineOf a) 0 0 false) none w s
  else emit (.hostRead (portOf v) v a what) s

/-- The loads of an engine. -/
def loadOf (e : Eng) : Who → Bool
  | .load x _ _ => x == e
  | .ldr x _ => x == e
  | _ => false

/-- Accesses of a kind that the home carries and that are not yet performed (R351): on their way to the holder, in it, or
written out and not yet pulled. -/
def underWay (s : State) (p : Who → Bool) : Bool :=
  s.mesh.any (fun x => p x.who) || s.hl.any (fun q => q.2.waits.any fun w => p w.2) ||
  s.dir.any (fun q => p q.2.who || (match q.2.todo with | some (.ringWrite _ w) => p w | _ => false)) ||
  s.aged.any (fun a => p a.who)
def storeOf (e : Eng) : Who → Bool
  | .store x _ _ _ _ => x == e
  | .stc x _ => x == e
  | _ => false
/-- A data write of a VI. -/
def dataOf (v : Vi) : Who → Bool
  | .store _ x _ _ _ => x == v
  | .dest _ x _ _ _ => x == v
  | .data x _ => x == v
  | _ => false

/-- A reservation on a host address, in the granule of a line. -/
def hostResvMet (line : Nat) : Option Resv → Bool
  | some r => match r.tgt with
    | .host a _ => a / 256 == line / 4
    | .dev _ => false
  | none => false
/-- One that the engine's slice keeps. -/
def sliceResvMet (line : Nat) (r : Option Resv) : Bool := hostResvMet line r && r.any Resv.cxl
/-- The slice of a kiln die loses or writes a line, or receives a home message for it: the reservations of its engines
on the line's granule are cleared, those of an LDR whose data is still on its way and of an STC that the slice has not yet
performed among them (Table: Reservation targets). -/
def clearHostResv (h : Holder) (line : Nat) (s : State) : State :=
  let s := { s with hret := s.hret.map fun x => match x.who with
    | .ldr _ _ => if x.h == h && x.line.toNat / 4 == line / 4 then { x with lost := true } else x
    | _ => x }
  if hh : h.val < 16 then
    (engsOf ⟨h.val, hh⟩).foldl (fun s e => updEng e (fun x => { x with
      resv := if sliceResvMet line x.resv then none else x.resv
      stcs := x.stcs.map fun c => match c.tgt with
        | .host a _ => if c.cxl && a / 256 == line / 4 then { c with ok := false } else c
        | .dev _ => c
      run := x.run.map fun r => { r with resv := if sliceResvMet line r.resv then none else r.resv } }) s) s
  else s

/-- A store-buffer entry is passed to the hub, the slice or the port; release stores carry no Relaxed Ordering (R363), and
follow every earlier store of the engine. A host store whose access may not be issued fails, and its index with it (R160,
R168, R340). -/
def passEntry (e : Eng) (x : SbEnt) (s : State) : State :=
  match x.tgt with
  | .dev a => pushGather e x.vi a x.data (if x.release then acceptOwn e s else s)
  | .host a stream =>
    if !hostOk s x.vi then storeFailed e x.vi x.fly x.k (failC .hostAccessErr x.addr) s
    else
      let s := if x.release then acceptOwn e s else s
      -- a store of the engine clears its reservation on the granule
      let s := updEng e (fun y => { y with resv := if hostResvMet (a / 64) y.resv then none else y.resv }) s
      hostStore (.engine e) (kilnOf e) x.vi a x.data stream (!x.release) (.store e x.vi x.fly x.k x.addr) s

/-- The stores of an engine that have not been passed on, the oldest first. -/
def ownStores (s : State) (e : Eng) : List SbEnt := (eng s e).sb ++ (eng s e).tbOut.map Prod.snd
/-- A target holds an entry back (R361): a host port in Recovery, or a full gather whose oldest entry waits in the mesh. -/
def heldBack (s : State) (e : Eng) (x : SbEnt) : Bool := match x.tgt with
  | .host _ _ => (getHp s (portOf x.vi)).recovering
  | .dev _ => match gather s (kilnOf e) with
    | g :: t => decide (t.length ≥ 63) && !memOpen s (kilnOf e).val g.addr g.data.length
    | [] => false
/-- The oldest entry may leave: its target takes it, and for a release store every earlier store is visible (R355). -/
def mayLeave (s : State) (e : Eng) (x : SbEnt) : Bool :=
  !heldBack s e x && (!x.release || !underWay s (storeOf e))
/-- Entries are passed on in order, as far as they may leave; the rest is returned. -/
def passAll (e : Eng) : List SbEnt → State → List SbEnt × State
  | [], s => ([], s)
  | x :: t, s => if mayLeave s e x then passAll e t (passEntry e x s) else (x :: t, s)
/-- The stores that stay: those of blocks still outbound in the transfer buffer stay there. -/
def keepStores (l : List SbEnt) (y : EngSt) : EngSt :=
  let out := y.tbOut.drop (y.tbOut.length - l.length)
  { y with sb := l.take (l.length - out.length), tbOut := out }
/-- The oldest n stores of an engine are passed on, as far as they may leave. -/
def flushN (e : Eng) (n : Nat) (s : State) : State :=
  let l := ownStores s e
  let r := passAll e (l.take n) s
  updEng e (keepStores (r.1 ++ l.drop n)) r.2
/-- Every entry of the engine's store buffer is passed on. -/
def flushSb (e : Eng) (s : State) : State := flushN e (ownStores s e).length s
/-- Every store of the engine is passed on, and its entries of the gather are accepted (Table: Drain triggers). -/
def drainEngine (e : Eng) (s : State) : State := acceptOwn e (flushSb e s)

/-- A store enters the store buffer; a full one passes its oldest entry on first (Table: Drain triggers), and while that
entry is held back the block stays outbound in the transfer buffer (R396). -/
def pushSb (e : Eng) (tbi : BitVec 10) (x : SbEnt) (s : State) : State :=
  let y := eng s e
  if !y.tbOut.isEmpty then updEng e (fun y => { y with tbOut := y.tbOut ++ [(tbi, x)] }) s
  else match y.sb with
    | o :: t =>
      if y.sb.length < 32 then updEng e (fun y => { y with sb := y.sb ++ [x] }) s
      else if !mayLeave s e o then updEng e (fun y => { y with tbOut := y.tbOut ++ [(tbi, x)] }) s
      else passEntry e o (updEng e (fun y => { y with sb := t ++ [x] }) s)
    | [] => updEng e (fun y => { y with sb := [x] }) s

/-- Every store of the engine is globally visible (R350 to R352, Table: Drain triggers). -/
def drained (s : State) (e : Eng) : Bool :=
  (ownStores s e).isEmpty && ((gather s (kilnOf e)).all fun g => g.eng != e) && !underWay s (storeOf e)
/-- The condition of BAR (R358). The gather is asked for at issue: entries that came later wait behind none of BAR's. -/
def barMet (s : State) (e : Eng) : Bool :=
  drained s e && match (runOf s e).bind Run.gate with
    | some l => (gather s (kilnOf e)).all fun g => !l.contains g
    | none => (gather s (kilnOf e)).isEmpty
/-- BAR issues: it waits for the entries that its die's gather holds now. -/
def barIssue (e : Eng) (s : State) : State :=
  updRun e (fun r => { r with gate := some (r.gate.getD (gather s (kilnOf e))) }) s

def overlay (base : List Byte) (a : Nat) (at_ : Nat) (l : List Byte) : List Byte :=
  (List.range base.length).map fun i =>
    if at_ ≤ a + i && a + i < at_ + l.length then l.getD (a + i - at_) 0 else base.getD i 0

/-- The bytes an engine loads from device memory: store buffer, then write gather, then memory (R359). DESIGN CHOICE
(log 89): a block still outbound in the transfer buffer is newer than every store-buffer entry, and is forwarded like one. -/
def loadDev (s : State) (e : Eng) (a n : Nat) : List Byte :=
  let base := readBytes s a n
  let base := (gather s (kilnOf e)).foldl (fun b g => overlay b a g.addr g.data) base
  (ownStores s e).foldl (fun b x => match x.tgt with
    | .dev t => overlay b a t x.data
    | .host _ _ => b) base
/-- What the engine's own stores hold of a host block as its load is issued. -/
def forwards (s : State) (e : Eng) (a n : Nat) : List (Nat × List Byte) :=
  (ownStores s e).filterMap fun x => match x.tgt with
    | .host t _ => if shareBlock a n t x.data.length then some (t, x.data) else none
    | .dev _ => none
/-- Forwarding over the bytes that the host or the slice returned. -/
def loadHost (fwd : List (Nat × List Byte)) (a : Nat) (l : List Byte) : List Byte :=
  fwd.foldl (fun b x => overlay b a x.1 x.2) l

def inGranule (a : Nat) : Target → Bool
  | .dev t => t / 256 == a / 256
  | .host t _ => t / 256 == a / 256
/-- LDR and STC: the engine's own entries as far as the last one of the granule are passed on, and the gather's entries of
the granule accepted, first (R360). -/
def passGranule (e : Eng) (a : Nat) (s : State) : State :=
  let l := ownStores s e
  let n := ((List.range l.length).filter fun i => (l[i]?).any fun x => inGranule a x.tgt).foldl (fun _ i => i + 1) 0
  acceptThose (kilnOf e) (fun g => g.addr / 256 == a / 256) (flushN e n s)
/-- Entries of the granule are still on their way: the access waits. -/
def granuleHeld (s : State) (e : Eng) (a : Nat) : Bool :=
  (ownStores s e).any (fun x => inGranule a x.tgt) || (gather s (kilnOf e)).any fun g => g.addr / 256 == a / 256
def targetAddr : Target → Nat
  | .dev a => a
  | .host a _ => a
/-- An engine's access to n bytes can be performed: the mesh passes it (R667). -/
def accessOpen (s : State) (e : Eng) (v : Vi) (a n : Nat) : Bool := match translate s (eu e) v a n with
  | .hit (.dev t) _ => memOpen s (kilnOf e).val t n
  | _ => true
/-- An LDR or STC can be performed (R360). -/
def granuleOpen (s : State) (e : Eng) (v : Vi) (a : Nat) : Bool := accessOpen s e v a 8 &&
  match translate s (eu e) v a 8 with
  | .hit t _ => !granuleHeld (passGranule e (targetAddr t) s) e (targetAddr t)
  | _ => true

/-! ## Launch indices end (R263, R339 to R341) -/

/-- A launch index of a LAUNCH has ended: with a failure, or with OK and an exit value for index 0. -/
def indexEnded (x : Index) (fail : Option Compl) (exitV : U64) (s : State) : State :=
  updFly x.vi x.idx (fun f =>
    let f := { f with
      left := f.left - 1
      fail := match f.fail, fail with
        | some c, _ => some c
        | none, some c => some { c with detail := BitVec.ofNat 16 x.veng }
        | none, none => none
      exitV := if x.k = 0 && fail.isNone then exitV else f.exitV }
    if f.left = 0 && f.fin.isNone then
      { f with fin := some (match f.fail with | some c => c | none => { status := .ok, value := f.exitV }) }
    else f) s

/-- A bank swap that waits takes place at a task boundary (R349). -/
def swapBank (x : EngSt) : EngSt := if x.swapDue then { x with active := !x.active, swapDue := false } else x

/-- The running index ends: its stores are passed on, its reservation is cleared (R362, R369). -/
def endIndex (e : Eng) (fail : Option Compl) (exitV : U64) (s : State) : State :=
  match runOf s e with
  | none => s
  | some r =>
    let s := flushSb e s
    let s := updEng e (fun x => swapBank { x with run := none, resv := none, shadow := [], plane := [] }) (forget (loadOf e) s)
    let s := updVi r.ix.vi (fun v => { v with misses := v.misses.filter fun m => m.who != .engine e && m.who != .task e }) s
    indexEnded r.ix fail exitV s

/-- End with a status and a VALUE; DETAIL names the virtual engine. -/
def failIndex (e : Eng) (st : Status) (value : Nat) (s : State) : State := endIndex e (some (failC st value)) 0 s

/-- The 64-byte block of an engine address: VALUE of an access failure other than a segment fault (R304, R340). -/
def blockAddr (a : Nat) : Nat := a / 64 * 64

/-! ## The recipe store (R383 to R388) -/

def wordHead (w : BitVec 192) : Bool := bitAt w.toNat 191
def wordEntry (w : BitVec 192) : Nat := bits w.toNat 179 12
def activeBank (x : EngSt) : SMap (BitVec 192) := if x.active then x.bank1 else x.bank0
/-- The first word of an open entry: the lowest address whose HEAD names it. -/
def openEntry (x : EngSt) (entry : Nat) : Option Nat :=
  ((activeBank x).find? fun p => wordHead p.2 && wordEntry p.2 == entry).map fun p => 3072 + p.1 % 1024
def vendorEntry (s : State) (entry : Nat) : Nat := (s.vendor.findIdx fun w => wordHead w && wordEntry w == entry) % 3072
/-- The word address that follows, or that a TARGET names (R388). -/
def wordAddr (open_ : Bool) (a : Nat) : Nat := if open_ then 3072 + a % 1024 else a % 3072

/-! ## Abandonment (R404) -/

/-- The attempt is dropped: private state is discarded, task registers and the task address stay (Table: Abandonment
steps). -/
def dropAttempt (r : Run) : Run :=
  { r with
    attempt := r.attempt + 1, cycles := 0, src := none, sopDst := none, incs := [], done := [], begun := false, gate := none, ahead := none,
    regs := { x := r.regs.x }, tbIn := [], loads := [], acquire := false, hits := [], resv := none, ldr := none,
    ldrDone := false }

/-- Abandon a routine before its commit microword. -/
def abandon (e : Eng) (s : State) : State :=
  forget (loadOf e) <| updEng e (fun x => { x with
    shadow := []
    run := x.run.map fun r => { dropAttempt r with
      upc := if r.open_ then (openEntry x (r.word.toNat % 4096)).getD 3072 else r.upc } }) s

/-- A miss before commit: wait and restart, or a segment fault once the retry limit is reached (R298, R302). -/
def engMiss (e : Eng) (a : Nat) (s : State) : State :=
  match runOf s e with
  | none => s
  | some r =>
    if r.retries ≥ fget s .retryLimit then
      fcount .segFaults 0 12 1 (fcount .segMisses 0 20 1 (failIndex e .segFault a s))
    else
      let s := abandon e s
      let s := updRun e (fun r => { r with retries := r.retries + 1, waitMiss := true }) s
      addMiss r.ix.vi a (.engine e) s

/-- Note a hit on a slot's segment for the pin check (R299). -/
def noteHit (e : Eng) (v : Vi) (i : Fin 16) (s : State) : State :=
  let h := (isHostSlot i, seg s v i)
  touchSlot v i (updRun e (fun r => { r with hits := if r.hits.contains h then r.hits else r.hits ++ [h] }) s)

/-- Load a 64-byte block before commit: device memory answers at once, host memory by LOAD_RETURN (R359). -/
def loadBlock (e : Eng) (a : Nat) (tbi : BitVec 10) (acq : Bool) (s : State) : State :=
  match runOf s e with
  | none => s
  | some r =>
    let v := r.ix.vi
    if a % 64 ≠ 0 then failIndex e .segFault a s
    else match translate s (eu e) v a 64 with
    | .miss => engMiss e a s
    | .fault => failIndex e .segFault a s
    | .hit (.dev t) i =>
      let s := noteHit e v i s
      if anyHole s t 64 then failIndex e .fencedUnit a s
      else if anyPoison s t 64 then failIndex e .poisoned a s
      else updRun e (fun r => { r with tbIn := mset 0 r.tbIn tbi.toNat (bytesBlock (loadDev s e t 64)) }) s
    | .hit (.host t st) i =>
      if !hostOk s v then failIndex e .hostAccessErr a s
      else
        let x : HLoad := { tbi := tbi, host := t, ea := a, cxl := viaHome s v, fwd := forwards s e t 64 }
        let s := updRun e (fun r => { r with loads := r.loads ++ [x], acquire := r.acquire || acq }) (noteHit e v i s)
        hostLoad (.engine e) (kilnOf e) v t 64 st (.engineLoad e tbi) (.load e r.attempt tbi) s

/-- Translate n bytes of a block and count a hit (R301). -/
def probeAt (e : Eng) (a n : Nat) (s : State) : State :=
  match runOf s e with
  | none => s
  | some r =>
    match translate s (eu e) r.ix.vi a n with
    | .miss => engMiss e a s
    | .fault => failIndex e .segFault a s
    | .hit _ i => noteHit e r.ix.vi i s
/-- PROBE of a block. -/
def probeBlock (e : Eng) (a : Nat) (s : State) : State := probeAt e a 64 s

/-- The reserved load of LDR (R360, R366). -/
def loadReserved (e : Eng) (a : Nat) (tbi : BitVec 10) (s : State) : State :=
  match runOf s e with
  | none => s
  | some r =>
    let v := r.ix.vi
    if a % 8 ≠ 0 then failIndex e .segFault a s
    else match translate s (eu e) v a 8 with
    | .miss => engMiss e a s
    | .fault => failIndex e .segFault a s
    | .hit (.dev t) i =>
      let s := noteHit e v i s
      if anyHole s t 8 then failIndex e .fencedUnit (blockAddr a) s
      else
        let s := passGranule e t s
        if anyPoison s t 8 then failIndex e .poisoned (blockAddr a) s
        else
          let x := BitVec.ofNat 64 (read64 s t)
          updRun e (fun r => { r with regs := { r.regs with mres := x }, ldrDone := true, resv := some { tgt := .dev t, ea := a, value := x } }) s
    | .hit (.host t st) i =>
      if !hostOk s v then failIndex e .hostAccessErr (blockAddr a) s
      else
        let s := passGranule e t (noteHit e v i s)
        let s := updRun e (fun r => { r with ldr := some (tbi, .host t st, a), acquire := true }) s
        hostReserve (.engine e) (kilnOf e) v t (.engineLoad e tbi) (.ldr e r.attempt) s

/-- A store of bytes after commit through the pinned segments (R300). -/
def storeBlock (e : Eng) (a : Nat) (tbi : BitVec 10) (l : List Byte) (rel : Bool) (s : State) : State :=
  match runOf s e with
  | none => s
  | some r =>
    let v := r.ix.vi
    match r.pins.find? fun i => covers (seg s v i) a with
    | none => lateFail e (failC .segFault a) s
    | some i =>
      let s := touchSlot v i s
      match viaSlot s (eu e) v i a l.length with
      | .hit t _ =>
        match t with
        | .dev x =>
          if anyHole s x l.length then lateFail e (failC .fencedUnit a) s
          else pushSb e tbi { tgt := t, data := l, release := rel, vi := v, veng := r.ix.veng, addr := a, fly := r.ix.idx, k := r.ix.k, att := r.attempt } s
        | .host _ _ =>
          pushSb e tbi { tgt := t, data := l, release := rel, vi := v, veng := r.ix.veng, addr := a, fly := r.ix.idx, k := r.ix.k, att := r.attempt } s
      | _ => lateFail e (failC .segFault a) s

/-- The slot in which a segment that was hit is live now. -/
def liveAs (s : State) (v : Vi) (h : Bool × Seg) : Option (Fin 16) :=
  (List.finRange 16).find? fun i => isHostSlot i == h.1 && seg s v i == h.2 && (getVi s v).changing != some i
/-- The pin check, the pins and the reservation of the commit microword (R299, R366, R400): whether it issues. -/
def pinsOk (s : State) (r : Run) : Bool := r.hits.all fun h => (liveAs s r.ix.vi h).isSome

def takeCommit (e : Eng) (s : State) : State :=
  updEng e (fun x => { x with
    run := x.run.map fun r => { r with phase := .post, pins := r.hits.filterMap (liveAs s r.ix.vi), retries := 0, cycles := 0, resv := none }
    resv := match x.run with | some r => if r.ldrDone then r.resv else x.resv | none => x.resv }) s

end Sys2Proof.Machine
end

