-- ==== Sys2Proof/Machine/Home.lean ====
section
/-! DEFINITION. The coherence home and its directory (chapter 6): requests and Puts of the holders, responses, host
snoops, host answers, timeouts and domain-down. -/

namespace Sys2Proof.Machine

/-- The home acts: CXL with the caches in use, in FIRED, and the domain not down. -/
def homeOn (s : State) : Bool := running s && cxlOn s && !s.domainDown
/-- The home's island runs too: while it does not, what reaches it waits (R89). -/
def homeRuns (s : State) : Bool := homeOn s && islandRuns s .home

/-! ## Accesses that a holder has ended -/

/-- An access has ended at its holder; its unit takes it up when the data reaches it. -/
def returned (x : HRet) (s : State) : State := { s with hret := s.hret ++ [x] }
/-- The end of an access through a holder, as an answer of the host. -/
def resOf (r : HRet) : HostRes := if r.failed then .abort else if r.poison then .poisoned else .data r.data
/-- The end that waits for a unit, and its taking up. -/
def retOf (s : State) (w : Who) : Option HRet := s.hret.find? fun x => x.who == w
def dropRet (w : Who) (s : State) : State := { s with hret := s.hret.eraseP fun x => x.who == w }
/-- What a unit does with the end of an access that no unit takes up by a command of its own: a failed store ends its
launch index, or the descriptor that wrote (R192, R200, R340). -/
def storeEnds (w : Who) (st : Status) (s : State) : State := match w with
  | .store e v i k ea =>
    if (runOf s e).any (isIndex v i k) || (eng s e).away.any (isIndex v i k) then storeFailed e v i k (failC st ea) s
    else updFly v i (fun f => { f with
      fail := f.fail.orElse fun _ => some (failC st ea 0 (blockField f.desc 0x10 2 + k)) }) s
  | .dest _ v i pos a => updFly v i (fun f => { f with fail := match f.fail with
      | some c => if pos < c.value.toNat then some (failC st pos a) else some c
      | none => some (failC st pos a) }) s
  | .data v i => updFly v i (fun f => { f with fail := f.fail.orElse fun _ => some (openC st) }) s
  | _ => s
/-- An access ends without effect: it fails, or completes as POISONED. -/
def accessEnds (h : Holder) (l : LineA) (w : Who) (st : Status) (s : State) : State := match w with
  | .other => s
  | .store _ _ _ _ _ => storeEnds w st s
  | .dest _ _ _ _ _ => storeEnds w st s
  | .data _ _ => storeEnds w st s
  | .flag _ => returned { h := h, line := l, who := w, failed := true } s
  | _ => returned { h := h, line := l, who := w, poison := st == .poisoned, failed := st != .poisoned } s
/-- The holder that an access in the mesh is on its way to, with its line. -/
def accessOf : Instr → Option (Holder × LineA)
  | .sliceLoad h l _ => some (h, l)
  | .sliceStore h l _ _ _ => some (h, l)
  | _ => none

/-! ## Poison log and domain-down -/

/-- A poison event (R628): 1 HOST_POISON, 2 TIMEOUT, 3 GO_ERR, 4 FENCED_OWNER. -/
def logPoison (l : LineA) (cause : Nat) (s : State) : State :=
  let s := if fget s .plValid = 1 then fset .plOverrun 0 1 s else s
  fset .plValid 0 1 (fset .plCause 0 cause (fset .plAddr 0 l.toNat s))

def hostAddr (l : LineA) : Nat := l.toNat * 64

/-- The reads of a VI's lines, descriptors and messages. -/
def ringRead (v : Vi) : Who → Bool
  | .line x _ => x == v
  | .fetch x => x == v
  | .mbox x => x == v
  | _ => false
/-- Blocks that a VI's firmware work or collectives have asked for. -/
def blockOf (v : Vi) : Who → Bool
  | .block x _ => x == v
  | _ => false
/-- A mailbox slot is free again (R316). -/
def freeSlot (e : Eng) (slot : Fin 4) (s : State) : State :=
  updEng e (fun y => { y with slots := mset {} y.slots slot.val {} }) s
/-- Slots that a VI's flags were to free are freed now; the rest of its flags is dropped. -/
def dropFlags (v : Vi) (s : State) : State :=
  updVi v (fun x => { x with outq := [] }) ((getVi s v).outq.foldl (fun s r => match r with
    | .free e slot => freeSlot e slot s
    | _ => s) s)
/-- What a stopped VI still does of what it had to write: it frees slots and reports RING_IDLE. -/
def staysOut : RingOut → Bool
  | .free _ _ => true
  | .idle => true
  | _ => false
/-- Ring and mailbox service of a VI stops, with VI_ERROR; a VF's error shows in its PF's AER (R139, R200, R245). Fetched
descriptors and flags not yet on their way are dropped (R246). DESIGN CHOICE (log 93): R245 names ring service alone for
a failed access; the mailbox of the VI stops with it, as domain-down states for both. -/
def stopVi (v : Vi) (cause : Nat) (poison : Bool) (s : State) : State :=
  raiseVec v vecError (emit (.aer (pfVi (portOf v)) false) <| forget (ringRead v) <| updVi v (fun x => { x with
    stopped := true, stopCause := cause, stopPoison := poison, fetched := [], fetching := 0, outq := x.outq.filter staysOut,
    dbReading := false, mbReading := false, dbWatched := false, mbWatched := false, dbPolled := false, mbPolled := false }) s)

def viServed (s : State) (v : Vi) : Bool := fget s .viEnable v.val == 1 || fget s .mboxEn v.val == 1
/-- The VIs of host port p with a service enabled. -/
def servedVis (s : State) (p : HPort) : List Vi := (List.finRange 2048).filter fun v => portOf v == p && viServed s v

/-- A message of Table: Internal messages, or an access on its way to a holder. -/
def coherent : Instr → Bool
  | .sliceLoad _ _ _ => true | .sliceStore _ _ _ _ _ => true | .gets _ _ _ => true | .getm _ _ _ => true
  | .getcur _ _ _ => true | .puts _ _ _ _ _ => true | .puto _ _ _ _ _ => true | .putm _ _ _ _ _ => true
  | .dataresp _ _ _ _ _ => true | .invack _ _ => true | .done _ _ => true | .datas _ _ _ _ => true
  | .datam _ _ _ _ => true | .datacur _ _ _ _ => true | .grantm _ _ => true | .fwds _ _ => true | .downs _ _ => true
  | .fwdm _ _ => true | .inv _ _ => true | .ownx _ _ => true | .putack _ _ => true | .retry _ _ => true
  | .nackp _ _ => true
  | _ => false
/-- Every access that waits in a holder, at the home, or on its way to a holder, with its line. -/
def waitingAccesses (s : State) : List (Holder × LineA × Who) :=
  (s.mesh.filterMap fun p => (accessOf p.msg).map fun x => (x.1, x.2, p.who)) ++
  (s.hl.flatMap fun p => p.2.waits.map fun w => (Fin.ofNat 17 (p.1 % 32), BitVec.ofNat 46 (p.1 / 32), w.2)) ++
  (s.dir.map fun p => ((16 : Holder), BitVec.ofNat 46 p.1, p.2.who)) ++
  (s.aged.map fun a => (a.r, a.line, a.who))
/-- Every waiting access completes with HOST_ACCESS_ERR (step 3). -/
def failAll (s : State) : State :=
  (waitingAccesses s).foldl (fun s x => accessEnds x.1 x.2.1 x.2.2 .hostAccessErr s) s

/-- Table: Domain-down steps; cause 0 timeout, 1 protocol, 2 viral received (R200). -/
def domainFall (cause : Nat) (s : State) : State :=
  if s.domainDown then s else
  let s := report .home 0x40 cause none none { s with domainDown := true }
  let s := if cause = 2 || s.viralTx then s else emit .viral { s with viralTx := true }
  let s := failAll s
  let s := { s with hl := [], dir := [], aged := [], mesh := s.mesh.filter fun p => !coherent p.msg }
  (servedVis s 0).foldl (fun s v => stopVi v 5 false s) s

/-! ## Directory entries -/

def putDir (l : LineA) (d : Dir) (s : State) : State := updDir l (fun _ => d) s
def hasEntry (s : State) (l : LineA) : Bool := s.dir.any fun p => p.1 == l.toNat
/-- The entries of a line's set (R173). -/
def setOf (s : State) (l : LineA) : SMap Dir := s.dir.filter fun p => p.1 % 65536 == l.toNat % 65536
def lowest (p : List Holder) : Option Holder := p.foldl (fun a h => match a with
  | none => some h | some x => if h.val < x.val then some h else some x) none
/-- A message of the home as its arrival, with its class in the kiln mesh (Table: Internal messages). -/
def homeMsg (h : Holder) (l : LineA) (msg : String) (d : Block × Bool) : Option (MCls × Instr) :=
  match msg with
  | "DataS" => some (.response, .datas h l d.1 d.2) | "DataM" => some (.response, .datam h l d.1 d.2)
  | "DataCur" => some (.response, .datacur h l d.1 d.2) | "GrantM" => some (.response, .grantm h l)
  | "FwdS" => some (.request, .fwds h l) | "DownS" => some (.request, .downs h l) | "FwdM" => some (.request, .fwdm h l)
  | "Inv" => some (.request, .inv h l) | "OwnX" => some (.request, .ownx h l) | "PutAck" => some (.response, .putack h l)
  | "Retry" => some (.response, .retry h l) | "NackP" => some (.response, .nackp h l)
  | _ => none
/-- The home sends a message to a holder. -/
def toHolder (h : Holder) (l : LineA) (msg : String) (d : Option (Block × Bool)) (s : State) : State :=
  match homeMsg h l msg (d.getD (0, false)) with
  | some m => send .home (holderIsle h) m.1 m.2 (d.map Prod.fst) .other (emit (.toHolder h l msg d) s)
  | none => s
def sendAll (hs : List Holder) (l : LineA) (msg : String) (s : State) : State :=
  hs.foldl (fun s h => toHolder h l msg none s) s
def touchDir (d : Dir) (s : State) : Dir := { d with lru := s.lruCtr + 1 }
def bumpLru (s : State) : State := { s with lruCtr := s.lruCtr + 1 }

/-- The home issues a device-to-host request and waits (R179, R197). -/
def askHost (l : LineA) (d : Dir) (k : ReqKind) (s : State) : State :=
  emit (.d2h l k) (putDir l { d with hs := .waitHost, hostReq := some k, domain := fgetU s .home .failMode == 1 } s)

/-- The line is written out: the entry holds the data until the write pull (R181, R183). -/
def startEvict (l : LineA) (data : Block) (poison dirty : Bool) (s : State) : State :=
  emit (.evict l dirty poison) (putDir l
    {
      hs := .evict, data := some (data, poison, dirty), domain := fgetU s .home .failMode == 1,
      lru := s.lruCtr, held := (getDir s l).held } s)

/-- The line is written out and no holder gave its data: what a write pull takes is not stated. -/
def evictBare (l : LineA) (poison dirty : Bool) (s : State) : State :=
  startEvict l (BitVec.ofNat 512 (free s)) poison dirty (tick s)

/-- ItoMWr or WrCur: the data waits for the write pull (R184). -/
def startWrite (l : LineA) (k : ReqKind) (data : Block) (w : Who) (s : State) : State :=
  emit (.d2h l k) (putDir l
    {
      hs := .evict, data := some (data, false, true), hostReq := some k, who := w, domain := fgetU s .home .failMode == 1,
      lru := s.lruCtr, held := (getDir s l).held } s)

/-- The reply that ends the gathering of a request (R179, R188): P and OWNER take the new holders. -/
def replyReq (l : LineA) (k : ReqKind) (r : Holder) (d : Dir) (s : State) : State :=
  let dat : Option (Block × Bool) := match d.hostData with
    | some x => some x
    | none => d.data.map fun x => (x.1, x.2.1)
  let d' : Dir := { d with
    hs := .waitDone, req := some (k, r), await := [], todo := none, hostData := none,
    data := none, hostReq := none, reissues := 0, snoop := none }
  match k with
  | .getS => toHolder r l "DataS" dat (putDir l { d' with
      h := if d.h = .i then .s else d.h,
      p := if d.p.contains r then d.p else d.p ++ [r] } s)
  | .getM =>
    let grant := d.p.contains r
    toHolder r l (if grant then "GrantM" else "DataM") (if grant then none else dat)
      (putDir l { d' with h := .x, p := [r], owner := some r } s)
  | _ => toHolder r l "DataCur" dat (putDir l d' s)

/-- Start a request on an IDLE line (Table: Serving a request). -/
def serveReq (l : LineA) (k : ReqKind) (r : Holder) (s : State) : State :=
  let s := bumpLru s
  let d := touchDir (getDir s l) s
  let others := d.p.filter fun h => h != r
  match k, d.h with
  | .getS, .i => askHost l { d with req := some (.getS, r) } .getS s
  | .getM, .i => askHost l { d with req := some (.getM, r) } .getM s
  | .getM, .s => sendAll others l "Inv" (askHost l { d with req := some (.getM, r), await := others } .getM s)
  | .getM, .x =>
    if d.p.contains r then
      if others.isEmpty then replyReq l .getM r d s
      else sendAll others l "Inv" (putDir l { d with
        hs := .waitLocal, req := some (.getM, r), await := others,
        todo := some (.reply .getM r true) } s)
    else
      let own := d.owner.toList
      let rest := d.p.filter fun h => !own.contains h
      sendAll rest l "Inv" (sendAll own l "FwdM" (putDir l { d with
        hs := .waitLocal, req := some (.getM, r),
        await := d.p, todo := some (.reply .getM r false) } s))
  | _, .i => askHost l { d with req := some (.getCur, r) } .rdCur s
  | k, _ =>
    let src := match d.owner with | some o => some o | none => lowest d.p
    sendAll src.toList l "FwdS" (putDir l { d with
      hs := .waitLocal, req := some (k, r), await := src.toList,
      todo := some (.reply k r false) } s)

/-- A whole-line write of the ring engine to an IDLE line (R184). -/
def serveRingWrite (l : LineA) (data : Block) (w : Who) (s : State) : State :=
  let d := getDir s l
  if d.p.isEmpty then startWrite l .wrCur data w s
  else
    let own := d.owner.toList
    let rest := d.p.filter fun h => !own.contains h
    sendAll rest l "Inv" (sendAll own l "FwdM" (putDir l { d with
      hs := .waitLocal, await := d.p,
      todo := some (.ringWrite data w) } s))

/-- R180 and R181: a Put on an IDLE line. -/
def servePut (l : LineA) (r : Holder) (data : Block) (poison : Bool) (s : State) : State :=
  let d := getDir s l
  let s := toHolder r l "PutAck" none s
  if !d.p.contains r then s
  else
    let rest := d.p.filter fun h => h != r
    let wasOwner := d.owner == some r
    match lowest rest with
    | none => startEvict l data poison wasOwner s
    | some h =>
      if wasOwner then toHolder h l "OwnX" none (putDir l { d with p := rest, owner := some h } s)
      else putDir l { d with p := rest } s

def snoopRsp (l : LineA) (name : String) (data : Option (Block × Bool)) (s : State) : State :=
  emit (.snoopRsp l name data) s

/-- Answer or start a snoop on an IDLE line (Table: Snoop responses). -/
def serveSnoop (l : LineA) (sn : Snoop) (s : State) : State :=
  let d := getDir s l
  let own := d.owner.toList
  let rest := d.p.filter fun h => !own.contains h
  let hold := fun (aw : List Holder) => ({ d with hs := .waitLocal, await := aw, todo := some (.answer sn), snoop := some sn } : Dir)
  match sn, d.h with
  | _, .i => snoopRsp l "RspIHitI" none s
  | .data, .s => snoopRsp l "RspSHitSE" none s
  | .cur, .s => snoopRsp l "RspVHitV" none s
  | .inv, _ => sendAll rest l "Inv" (sendAll own l "FwdM" (putDir l (hold d.p) s))
  | .data, .x => sendAll own l "DownS" (putDir l (hold own) s)
  | .cur, .x => sendAll own l "FwdS" (putDir l (hold own) s)

/-- The state of an idle line once its last holder is gone. -/
def idleDir (d : Dir) : Dir :=
  if d.p.isEmpty then {} else { h := d.h, p := d.p, owner := d.owner, lru := d.lru }

/-- A line that a fence has left without its owner (R204): the lowest holder that remains becomes the owner; with none, the
line leaves as poisoned and the loss is logged. Every other line is IDLE. -/
def settleLine (l : LineA) (d : Dir) (s : State) : State :=
  if d.h = .x && d.owner.isNone then
    match lowest d.p with
    | some o => toHolder o l "OwnX" none (putDir l (idleDir { d with owner := some o }) s)
    | none => evictBare l true true (logPoison l 4 s)
  else putDir l (idleDir d) s

/-- The entries of a full set (R173). -/
def setFull (s : State) (l : LineA) : Bool := !hasEntry s l && decide ((setOf s l).length ≥ 16)

def serveAged (a : Aged) (s : State) : State :=
  match a.kind with
  | .put => servePut a.line a.r a.data a.poison s
  | .wrCur => serveRingWrite a.line a.data a.who s
  | .itoM => startWrite a.line .itoM a.data a.who s
  | k => serveReq a.line k a.r s

/-- The oldest aged request that a condition admits, with the queue without it. -/
def takeAged (p : Aged → Bool) : List Aged → Option (Aged × List Aged)
  | [] => none
  | a :: t => if p a then some (a, t) else (takeAged p t).map fun x => (x.1, a :: x.2)

/-- The aged requests of an IDLE line, the oldest first, until one leaves it busy; then one that waits for a place in the
line's directory set (R174, R186). -/
def serveQueue (l : LineA) : Nat → State → State
  | 0, s => s
  | n + 1, s =>
    if (getDir s l).hs ≠ .idle then s else
    match takeAged (fun a => a.line == l) s.aged with
    | some (a, t) => if setFull s l then s else serveQueue l n (serveAged a { s with aged := t })
    | none =>
      if hasEntry s l then s else
      match takeAged (fun a => a.line.toNat % 65536 == l.toNat % 65536 && !hasEntry s a.line) s.aged with
      | some (a, t) => serveAged a { s with aged := t }
      | none => s

/-- A line is IDLE again: held snoops, then its aged requests (R186, R187). -/
def wakeLine (l : LineA) (held : List Snoop) (s : State) : State :=
  let s := held.foldl (fun s sn =>
    if (getDir s l).hs = .idle then serveSnoop l sn s
    else updDir l (fun d => { d with held := d.held ++ [sn] }) s) s
  serveQueue l (s.aged.length + 1) s

def toIdle (l : LineA) (d : Dir) (s : State) : State :=
  wakeLine l d.held (settleLine l d s)

/-- The snoop's holder responses are all in (R182, R187). -/
def answerSnoop (l : LineA) (d : Dir) (sn : Snoop) (s : State) : Dir × State :=
  let dat := d.data.map fun x => (x.1, x.2.1)
  let d1 := { d with snoop := none, data := none }
  match sn with
  | .data => ({ d1 with h := .s, owner := none }, snoopRsp l "RspSFwdM" dat s)
  | .cur => (d1, snoopRsp l "RspVFwdV" dat s)
  | .inv => ({ d1 with h := .i, p := [], owner := none },
      if d.h = .x then snoopRsp l "RspIFwdM" dat s else snoopRsp l "RspIHitSE" none s)

/-- Everything awaited is in: answer a snoop, then go on with the transaction. -/
def gathered (l : LineA) (s : State) : State :=
  let d := getDir s l
  if !d.await.isEmpty then s else
  let (d, s) := match d.snoop with
    | some sn => answerSnoop l d sn s
    | none => (d, s)
  let s := putDir l d s
  match d.hs with
  | .waitLocal =>
    match d.todo, d.req with
    | some (.reply k r _), _ => replyReq l k r d s
    | some (.answer _), _ => toIdle l d s
    | some .recall, _ =>
      match d.data with
      | some (b, p, dirty) => startEvict l b p dirty s
      | none => evictBare l false false s
    | some (.ringWrite b w), _ => startWrite l .wrCur b w s
    | none, some (k, r) => replyReq l k r d s
    | none, none => toIdle l d s
  | .waitHost =>
    match d.hostData, d.req with
    | some _, some (k, r) => replyReq l k r d s
    | _, _ => s
  | _ => s

/-- Holders that drop the line when they answer. -/
def dropsLine (d : Dir) : Bool :=
  d.snoop == some .inv || (match d.req with | some (.getM, _) => true | _ => false) ||
  (match d.todo with | some .recall => true | some (.ringWrite _ _) => true | _ => false)

/-- A response of a holder is collected (R194). -/
def collect (h : Holder) (l : LineA) (resp : Option (Block × Bool × Bool)) (s : State) : State :=
  let d := getDir s l
  if d.hs ≠ .waitHost && d.hs ≠ .waitLocal then domainFall 1 s
  else if !d.await.contains h then s
  else
    let data := match resp, d.data with
      | some x, none => some x
      | some x, some y => if x.2.2 then some x else some y
      | none, y => y
    let d := { d with
      await := d.await.filter (fun x => x != h), data := data,
      p := if dropsLine d then d.p.filter (fun x => x != h) else d.p }
    gathered l (putDir l d s)

/-! ## Requests (R179, R189) -/

/-- Retry, or the aged queue once AGE has reached its limit (R189). -/
def retryReq (a : Aged) (age : Nat) (s : State) : State :=
  if age ≥ fget s .ageLimit then { s with aged := s.aged ++ [a] }
  else toHolder a.r a.line "Retry" none s

/-- The least recently used IDLE entry of a set (R174). -/
def victimOf (set : SMap Dir) : Option (Nat × Dir) :=
  (set.filter fun p => p.2.hs == .idle).foldl (fun a p => match a with
    | none => some p | some q => if p.2.lru < q.2.lru then some p else some q) none

/-- A full set recalls its victim: FwdM to the owner, Inv to every other holder, then the eviction (R174). -/
def recallLine (v : LineA) (s : State) : State :=
  let d := getDir s v
  let own := d.owner.toList
  let rest := d.p.filter fun h => !own.contains h
  sendAll rest v "Inv" (sendAll own v "FwdM" (putDir v { d with hs := .waitLocal, await := d.p, todo := some .recall } s))

/-- A request to an IDLE line: served when its entry is there or has a place; a full set recalls its victim, and the
request waits in the aged queue; with no victim it is retried, or queued where it cannot be (R174, R189). -/
def serveNew (a : Aged) (age : Nat) (s : State) : State :=
  if !setFull s a.line then serveAged a s
  else match victimOf (setOf s a.line) with
    | some (v, _) => recallLine (BitVec.ofNat 46 v) { s with aged := s.aged ++ [a] }
    | none => retryReq a age s

def holderReq (k : ReqKind) (r : Holder) (l : LineA) (age : BitVec 4) (s : State) : State :=
  if !homeOn s then s else
  let a : Aged := { line := l, r := r, kind := k }
  match (getDir s l).hs with
  | .orphan => toHolder r l "NackP" none s
  | .idle => serveNew a age.toNat s
  | _ => retryReq a age.toNat s

def holderPut (r : Holder) (l : LineA) (age : BitVec 4) (data : Block) (poison : Bool) (s : State) : State :=
  if !homeOn s then s else
  match (getDir s l).hs with
  | .idle => servePut l r data poison s
  | .evict => toHolder r l "PutAck" none s
  | .evictSnooped => toHolder r l "PutAck" none s
  | .orphan => toHolder r l "PutAck" none (updDir l (fun d => { d with p := d.p.filter fun h => h != r }) s)
  | _ => retryReq { line := l, r := r, kind := .put, data := data, poison := poison } age.toNat s

/-- An age at which the home queues a request and sends no Retry. -/
def noRetry : Nat := 16
/-- A whole-line write that goes to the home without an internal message: WrCur of the ring engine, or ItoMWr of a STREAM
store with no entry (R184). DESIGN CHOICE (log 88): Table: Internal messages has no Retry for these writes, so one that
meets a line that is not IDLE (ORPHAN among them), or a set with no victim, waits in the aged queue. -/
def lineWrite (k : ReqKind) (h : Holder) (l : LineA) (data : Block) (w : Who) (s : State) : State :=
  let a : Aged := { line := l, r := h, kind := k, data := data, who := w }
  if (getDir s l).hs = .idle then serveNew a noRetry s else { s with aged := s.aged ++ [a] }
def ringLineWrite (l : LineA) (data : Block) (w : Who) (s : State) : State := lineWrite .wrCur 16 l data w s

/-! ## Host snoops and answers -/

def hostSnoop (l : LineA) (sn : Snoop) (s : State) : State :=
  if !((getHp s 0).cxl && s.board.pwrgood && s.resetting.isNone) then s
  else if !homeOn s then snoopRsp l "RspIHitI" none s
  else
    let d := getDir s l
    match d.hs with
    | .idle => serveSnoop l sn s
    | .waitHost =>
      if d.h = .i then snoopRsp l "RspIHitI" none s
      else match sn with
        | .data => snoopRsp l "RspSHitSE" none s
        | .cur => snoopRsp l "RspVHitV" none s
        | .inv =>
          let more := d.p.filter fun h => !d.await.contains h
          gathered l (sendAll more l "Inv" (putDir l { d with snoop := some .inv, await := d.await ++ more } s))
    | .waitLocal => putDir l { d with held := d.held ++ [sn] } s
    | .waitDone => putDir l { d with held := d.held ++ [sn] } s
    | .evict =>
      let dirty := match d.data with | some x => x.2.2 | none => false
      let dat := d.data.map fun x => (x.1, x.2.1)
      match sn with
      | .cur => if dirty then snoopRsp l "RspVFwdV" dat s else snoopRsp l "RspVHitV" none s
      | _ =>
        let s := putDir l { d with hs := .evictSnooped } s
        if dirty then snoopRsp l "RspIFwdM" dat s else snoopRsp l "RspIHitSE" none s
    | .evictSnooped => snoopRsp l "RspIHitI" none s
    | .orphan => snoopRsp l "RspIHitI" none s

/-- Host data with poison (R196). -/
def notePoison (l : LineA) (poison : Bool) (s : State) : State :=
  if poison then report .home 0x04 (hostAddr l) none none (logPoison l 1 s) else s

/-- A GO with its data (R188, R199). -/
def hostGo (l : LineA) (data : Block) (poison : Bool) (s : State) : State :=
  let d := getDir s l
  match d.hs with
  | .waitHost =>
    let d := { d with hostData := some (data, poison), hostReq := none, hs := if d.await.isEmpty then .waitHost else .waitLocal }
    gathered l (notePoison l poison (putDir l d s))
  | .orphan => startEvict l data poison false (notePoison l poison s)
  | _ => domainFall 1 s

/-- The request fails: NackP to the waiting holder, which leaves P; the transaction ends (R191, R198). -/
def nackReq (l : LineA) (hs : HomeSt) (s : State) : State :=
  let d := getDir s l
  let d' := { d with req := none, hostReq := none, hostData := none, reissues := 0 }
  match d.req with
  | some (_, r) =>
    let d' := { d' with p := d.p.filter fun h => h != r }
    let s := toHolder r l "NackP" none s
    if hs = .orphan then putDir l { d' with hs := .orphan, await := [] } s
    else if d.await.isEmpty then toIdle l d' s
    else putDir l { d' with hs := .waitLocal } s
  | none => if hs = .orphan then putDir l { d' with hs := .orphan, await := [] } s else toIdle l d' s

/-- GO-I: the data of RdCurr; for RdShared and RdOwn, issue again up to AGE_LIMIT times (R191, R199). -/
def hostGoI (l : LineA) (data : Block) (poison : Bool) (s : State) : State :=
  let d := getDir s l
  match d.hs with
  | .waitHost =>
    if d.hostReq = some .rdCur then hostGo l data poison s
    else if d.reissues < fget s .ageLimit then
      emits (d.hostReq.toList.map fun k => .d2h l k) (putDir l { d with reissues := d.reissues + 1 } s)
    else nackReq l .idle s
  | .orphan => toIdle l { d with p := [], h := .i, owner := none, hs := .idle } s
  | _ => domainFall 1 s

/-- A write whose data will not reach the host ends: its store or flag fails (R191, R198). -/
def writeFails (l : LineA) (st : Status) (d : Dir) (s : State) : State := accessEnds 16 l d.who st s
/-- The line that is written out leaves the directory. -/
def freeLine (l : LineA) (d : Dir) (s : State) : State := toIdle l { d with p := [], h := .i, owner := none, hs := .idle } s

/-- GO-Err (R191). It answers any request: for one that is written out, with no holder waiting, the data is dropped and
the entry freed, where Table: Home states and events has no cell of its own. -/
def hostGoErr (l : LineA) (s : State) : State :=
  let d := getDir s l
  let note := fun (s : State) => report .home 0x06 (hostAddr l) none none (logPoison l 3 s)
  match d.hs with
  | .waitHost => nackReq l .idle (note s)
  | .orphan => freeLine l d s
  | .evict => freeLine l d (writeFails l .poisoned d (note s))
  | .evictSnooped => freeLine l d (writeFails l .poisoned d (note s))
  | _ => domainFall 1 s

/-- A write pull: data, Bogus data after a snoop, none on Drop; the entry is freed (R183, R194). A flag of the ring engine is
visible from here on (R229). -/
def writePull (l : LineA) (drop : Bool) (s : State) : State :=
  let d := getDir s l
  let fin := fun (bogus : Bool) =>
    let s := if drop then s else match d.data with
      | some (b, p, _) => emit (.pullData l b p bogus) s
      | none => emit (.pullData l 0 false true) s
    freeLine l d s
  match d.hs with
  | .evict => fin false
  | .evictSnooped => fin true
  | _ => domainFall 1 s

/-- Expiry of a device-to-host request (R197, R198, R200). -/
def homeTimeout (l : LineA) (s : State) : State :=
  let d := getDir s l
  match d.hs with
  | .waitHost =>
    if d.domain then domainFall 0 s
    else nackReq l .orphan (report .home 0x05 (hostAddr l) none none (logPoison l 2 s))
  | .orphan => logPoison l 2 s
  | .idle => s
  | .waitLocal => s
  | .waitDone => s
  | _ =>
    if d.domain then domainFall 0 s
    else freeLine l d (writeFails l .hostAccessErr d (report .home 0x05 (hostAddr l) none none (logPoison l 2 s)))

/-! ## The commands -/

/-- A message reaches the home: once it stands in the home's FIFO with nothing of its order before it (R78, R89). -/
def atHome (c : Instr) (f : State → State) (s : State) : Out :=
  .next (if homeRuns s && arrives s c then f (taken c s) else s)

def execGets (r : Holder) (l : LineA) (age : BitVec 4) (s : State) : Out := atHome (.gets r l age) (holderReq .getS r l age) s
def execGetm (r : Holder) (l : LineA) (age : BitVec 4) (s : State) : Out := atHome (.getm r l age) (holderReq .getM r l age) s
def execGetcur (r : Holder) (l : LineA) (age : BitVec 4) (s : State) : Out :=
  atHome (.getcur r l age) (holderReq .getCur r l age) s
def execPuts (r : Holder) (l : LineA) (age : BitVec 4) (data : Block) (poison : Bool) (s : State) : Out :=
  atHome (.puts r l age data poison) (holderPut r l age data poison) s
def execPuto (r : Holder) (l : LineA) (age : BitVec 4) (data : Block) (poison : Bool) (s : State) : Out :=
  atHome (.puto r l age data poison) (holderPut r l age data poison) s
def execPutm (r : Holder) (l : LineA) (age : BitVec 4) (data : Block) (poison : Bool) (s : State) : Out :=
  atHome (.putm r l age data poison) (holderPut r l age data poison) s
def execDataresp (h : Holder) (l : LineA) (data : Block) (dirty poison : Bool) (s : State) : Out :=
  atHome (.dataresp h l data dirty poison) (collect h l (some (data, poison, dirty))) s
def execInvack (h : Holder) (l : LineA) (s : State) : Out := atHome (.invack h l) (collect h l none) s
/-- Done ends the transaction (R185). -/
def doneNow (h : Holder) (l : LineA) (s : State) : State :=
  let d := getDir s l
  match d.hs with
  | .waitDone => if d.req.map Prod.snd = some h then toIdle l d s else s
  | _ => domainFall 1 s
def execDone (h : Holder) (l : LineA) (s : State) : Out := atHome (.done h l) (doneNow h l) s

/-- A host message on CXL.cache reaches the home while its island runs. -/
def fromHost (f : State → State) (s : State) : Out := .next (if homeRuns s then f s else s)
def execSnpdata (l : LineA) (s : State) : Out := .next (if islandRuns s .home then hostSnoop l .data s else s)
def execSnpinv (l : LineA) (s : State) : Out := .next (if islandRuns s .home then hostSnoop l .inv s else s)
def execSnpcur (l : LineA) (s : State) : Out := .next (if islandRuns s .home then hostSnoop l .cur s else s)
def execGoGrant (l : LineA) (_g : Grant) (data : Block) (poison : Bool) (s : State) : Out :=
  fromHost (hostGo l data poison) s
def execGoI (l : LineA) (data : Block) (poison : Bool) (s : State) : Out := fromHost (hostGoI l data poison) s
/-- A write pull; after domain-down one is answered with Bogus data (chapter 6, corner). -/
def pullNow (l : LineA) (s : State) : State :=
  if homeRuns s then writePull l false s
  else if running s && s.domainDown then emit (.pullData l 0 false true) s else s
/-- A viral indication from the host (R200). -/
def execViralRx (s : State) : Out :=
  .next (if running s && cxlOn s then domainFall 2 { s with viralRx := true } else s)

end Sys2Proof.Machine
end

