-- ==== Sys2Proof/Machine/Faults.lean ====
section
/-! DEFINITION. Faults and fences (chapter 16): raising a fault with the effect of its class, what a fence takes out of
service, and the change set that a fenced unit leaves (R608). -/

namespace Sys2Proof.Machine

/-! ## The change set (R603 to R608) -/

/-- The fields of class C. -/
def cFields : List F :=
  [.delivery, .failMode, .partMask, .bindValid, .rcpEn, .bindPart, .spBase, .spSize, .flagBase, .flagCount, .slotMask,
   .allotDevBase, .allotDevSize, .allotHostBase, .allotHostSize, .vcWeight, .expectEn, .expectPort, .expectNode]
def fieldOfKey (k : Nat) : Option F := cFields.find? fun f => f.ctorIdx == k / 2 ^ 20
/-- The captured values become live. -/
def applySet (s : State) : State :=
  s.chg.foldl (fun s p => match fieldOfKey p.1 with
    | some f => fset f (p.1 % 2 ^ 20) p.2 s
    | none => s) { s with chg := [] }
/-- The fields of a VI's binding and allotments. -/
def bindFields : List F :=
  [.bindValid, .rcpEn, .bindPart, .spBase, .spSize, .flagBase, .flagCount, .slotMask, .allotDevBase, .allotDevSize,
   .allotHostBase, .allotHostSize]
/-- The VIs other than PF0 whose binding or allotments a change set holds: each is due a NOTICE. -/
def changedVis (s : State) : List Nat :=
  ((s.chg.filter fun p => bindFields.any (fun f => f.ctorIdx == p.1 / 2 ^ 20) && p.1 % 2 ^ 20 != 0).map
    fun p => p.1 % 2 ^ 20).eraseDups
def viNo (n : Nat) : Vi := ⟨n % 2048, by omega⟩
def noticeVis (l : List Nat) (s : State) : State := l.foldl (fun s n => if viExists s (viNo n) then raiseVec (viNo n) vecNotice s else s) s
/-- The VIs other than PF0 whose partition holds an engine. -/
def visWith (s : State) (p : Eng → Bool) : List Nat :=
  ((s.fld.filter fun q => q.1 / 2 ^ 20 == F.bindValid.ctorIdx && q.2 == 1 && q.1 % 2 ^ 20 != 0).map fun q => q.1 % 2 ^ 20).filter
    fun n => (viEngines s .ring (viNo n)).any p
/-- Every unit has taken the set up: APPLYING and LATE clear, NOTICE is raised if asked for (R608). -/
def finishSet (s : State) : State :=
  let vis := changedVis s
  let s := noticeVis vis (applySet s)
  let s := { s with applying := false, late := false, unitsLeft := [] }
  if fget s .noticeEn = 1 then notice s else s
/-- A unit has taken the set up, or has left service. -/
def leaveSet (p : CUnit → Bool) (s : State) : State :=
  if !s.applying then s else
  let left := s.unitsLeft.filter fun u => !p u
  if left.isEmpty then finishSet s else { s with unitsLeft := left }

/-! ## What leaves with a unit -/

/-- Every launch index of an engine ends with FENCED_UNIT (R150). Its stores not yet passed on are discarded; what its
die's gather holds of it is written when the die stays in service (R382). -/
def fenceEngine (e : Eng) (keepGather : Bool) (s : State) : State :=
  let s := updEng e (fun x => { x with sb := [], tbOut := [], resv := none, stcs := [] }) s
  let s := if keepGather then acceptOwn e s else s
  let x := eng s e
  let s := endIndex e (some (openC .fencedUnit)) 0 s
  let others := x.away.map Run.ix ++ x.queue
  let s := updEng e (fun x => { x with away := [], queue := [], run := none, resv := none }) s
  others.foldl (fun s i => indexEnded i (some (openC .fencedUnit)) 0 s) (clearCrossings (.engine e) s)

def dDst (d : Block) : Nat := blockField d 0x20 8
/-- The descriptors of a mover end with FENCED_UNIT (Table: Fences). -/
def fenceMover (m : Mover) (s : State) : State :=
  let x := getMv s m
  let s := match x.queue with
    | (v, i) :: t =>
      let dst := ((flyOf s v i).map fun f => dDst f.desc).getD 0
      let s := finish v i (failC .fencedUnit x.pos (dst + x.pos)) s
      t.foldl (fun s q => finish q.1 q.2 (failC .fencedUnit) s) s
    | [] => s
  let s := match x.ctx with
    | some c => updCtx c.toNat (fun _ => {}) s
    | none => s
  updMv m (fun _ => {}) (forget (fun w => w == .source m) s)

/-- The data that a fenced owner was asked for is lost: it counts as poisoned, and the loss is logged (R204). -/
def loseData (l : LineA) (d : Dir) (s : State) : Dir × State :=
  if d.data.isSome then (d, s)
  else ({ d with data := some (BitVec.ofNat 512 (free s), true, true) }, tick (logPoison l 4 s))
/-- The home removes a fenced holder from every P (R204). DESIGN CHOICE (log 90): the rule does not name the holder's own
request. One that waits on the host leaves its entry in ORPHAN, since the host's answer is still to come; one that waits
for Done ends, and the line is settled as if its owner had left. -/
def dropHolderLine (h : Holder) (s : State) (q : Nat × Dir) : State :=
  let l : LineA := BitVec.ofNat 46 q.1
  let d := q.2
  let owned := d.owner == some h
  let mine := (d.req.map Prod.snd) == some h
  let asked := owned && d.await.contains h
  let d1 : Dir := { d with
    p := d.p.filter fun x => x != h, owner := if owned then none else d.owner, await := d.await.filter fun x => x != h }
  match d.hs with
  | .idle => if d.p.contains h then dropIdle l owned d1 s else s
  | .waitDone => if mine then toIdle l d1 s else putDir l d1 s
  | .waitHost =>
    if mine then putDir l { d1 with hs := .orphan, req := none, await := [] } s
    else
      let x := if asked then loseData l d1 s else (d1, s)
      gathered l (putDir l x.1 x.2)
  | .waitLocal =>
    let x := if asked then loseData l d1 s else (d1, s)
    if mine then (if d1.await.isEmpty then toIdle l { x.1 with req := none, todo := none } x.2
      else putDir l { x.1 with req := none, todo := none } x.2)
    else gathered l (putDir l x.1 x.2)
  | _ => putDir l d1 s
where
  dropIdle (l : LineA) (owned : Bool) (d : Dir) (s : State) : State :=
    if !owned && d.p.isEmpty then evictBare l false false s else settleLine l d s

/-- The holder of a die leaves: its lines and requests are gone, and so is what was on its way. -/
def fenceHolder (k : Kiln) (s : State) : State :=
  let h : Holder := ⟨k.val, by omega⟩
  let s := { s with
    hl := s.hl.filter (fun p => p.1 % 32 != k.val), aged := s.aged.filter (fun a => a.r != h)
    hret := s.hret.filter fun x => x.h != h, mesh := s.mesh.filter fun p => p.src != Island.hub k && p.dst != Island.hub k }
  s.dir.foldl (fun s q => dropHolderLine h s q) s

/-- A whole kiln die leaves service (R36, R204, R382, R420). -/
def fenceKiln (k : Kiln) (s : State) : State :=
  let s := updGather k (fun _ => []) s
  let s := (engsOf k).foldl (fun s e => fenceEngine e false s) s
  let s := (allMovers.filter fun m => kilnOfMover m == k).foldl (fun s m => fenceMover m s) s
  clearDie k.val (fenceHolder k s)

def fencePort (p : Port) (s : State) : State := leaveUp p .fenced s

/-- Collectives of a flue die whose island leaves service end as at their deadline (R527). -/
def fenceColls (f : Flue) (s : State) : State :=
  (s.colls.filter fun q => q.2.active && q.1 % 4 == f.val).foldl (fun s q =>
    if q.2.launched then originate q.1 .collTimeout 0 s
    else clearColl q.1 (finish (collVi q.2) q.2.idx (openC .fencedUnit) s)) s

/-- The units of Table: Fences. -/
def fenceable : FUnit → Bool
  | .engine _ => true | .mover _ => true | .hub _ => true | .memory _ => true | .rail _ => true | .kilnNet _ => true
  | .link _ => true | .fport _ => true | .refclk _ => true | .coll _ => true | .flueTable _ => true | .flueNet _ => true
  | _ => false

/-- Flue dies that have lost their last link leave service with their ports. -/
def dropCutFlues (before : List Flue) (s : State) : State :=
  ((List.finRange 4).filter fun f => flueCut s f && !before.contains f).foldl (fun s f =>
    fenceColls f ((portsOf f).foldl (fun s p => fencePort p s) s)) s

/-- The link die has lost all four of its links (R45). -/
def linkDieCut (s : State) : Bool := (allLinks.filter fun l => l.edge == 2).all fun l => linkFenced s l

/-- What crosses a link that leaves service goes back to where it entered, to be routed again (R88). -/
def rehop (s : State) : State :=
  { s with
    mesh := s.mesh.map fun p => match p.stage with
      | .hop n _ =>
        if p.path[n]?.any fun x => linkFenced s x.1 then { p with stage := .out } else p
      | _ => p
    wires := s.wires.filter fun q => !allLinks.any fun l => linkFenced s l && (q.1 == laneKey l true || q.1 == laneKey l false) }

/-- A fence (R550, R553): the unit and what goes with it leave service. -/
def fence (u : FUnit) (s : State) : State :=
  if !fenceable u || s.fenced.contains u then s else
  let cut := (List.finRange 4).filter (flueCut s)
  let s0 := s
  let s := { s with fenced := s.fenced ++ [u], degraded := true }
  let s := match u with
    | .engine e => fenceEngine e true s
    | .mover m => fenceMover m s
    | .hub k => fenceKiln k s
    | .memory k => fenceKiln k s
    | .rail k => fenceKiln k s
    | .kilnNet k => fenceKiln k s
    | .fport p => fencePort p s
    | .refclk f => (portsOf f).foldl (fun s p => fencePort p s) s
    | .coll f => fenceColls f ((portsOf f).foldl (fun s p => fencePort p s) s)
    | .flueTable f => fenceColls f ((portsOf f).foldl (fun s p => fencePort p s) s)
    | .flueNet f => fenceColls f ((portsOf f).foldl (fun s p => fencePort p s) s)
    | _ => s
  let s := if allLinks.any fun l => linkFenced s l && !linkFenced s0 l then rehop s else s
  let s := noticeVis (visWith s fun e => engFenced s e && !engFenced s0 e) s
  let s := leaveSet (fun c => !cunitIn s c) (dropCutFlues cut s)
  if linkDieCut s && !linkDieCut s0 then fatal .linkNet 0x63 0 s else s

/-! ## Raising (R528, R666) -/

/-- The VI that a fault of a unit concerns. -/
def unitVi (s : State) : FUnit → Option Vi
  | .engine e => (runOf s e).map fun r => r.ix.vi
  | .mover m => (getMv s m).queue.head?.map Prod.fst
  | _ => none

/-- A unit raises a fault, with the effect of its class: 1 fences the unit, 3 sets the SAFE latch. -/
def raise (u : FUnit) (cause info : Nat) (s : State) : State :=
  let v := unitVi s u
  let s := report u cause info (v.map Fin.val) (v.bind (partOf s)) s
  if causeClass cause = 1 then fence u s
  else if causeClass cause = 3 then latchSafe s
  else s

end Sys2Proof.Machine
end

