-- ==== Sys2Proof/Machine/Reset.lean ====
section
/-! DEFINITION. Supplies and resets (chapters 2, 4, 5): what each reset kind clears and keeps, the retention record, and
the reset of virtual interfaces. -/

namespace Sys2Proof.Machine

/-! ## Voltage for a clock (R52 to R56): clocks in 50 MHz steps above 0.50 GHz, codes of 5 mV above 0.700 V -/

/-- Table: Minimum kiln-rail voltage. -/
def tableCode (clk : Nat) : Nat :=
  if clk ≤ 5 then 0 else if clk ≤ 8 then 10 else if clk ≤ 11 then 20 else if clk ≤ 14 then 30 else if clk ≤ 16 then 40 else 50
/-- The code of a die with its fused trim of 0 to 8 steps below the table, floored at 0.70 V (R56). -/
def needCode (s : State) (k : Kiln) (clk : Nat) : Nat := tableCode clk - min 8 (mget 0 s.fuses.trims k.val)
/-- The fastest clock that a code supports. -/
def maxClock (s : State) (k : Kiln) (code : Nat) : Nat :=
  (List.range 19).foldl (fun a c => if needCode s k c ≤ code then c else a) 0

/-! ## What the always-on island keeps (R111, R580, R623) -/

/-- The collector's state after a cold reset or a device reset: the log stays, the pin set empties, the heartbeat
stops (R541, R554, R560). -/
def fltReset (f : Flt) : Flt :=
  { f with
    pins := [], safeStepsDone := false, noticeGap := false, noticeDue := false, hbRunning := false, hbStrobed := false,
    hbMisses := 0, hbWindow := 0, hbPeriod := 10, hbLost := false }

/-- The snapshot that R574 gives after a reset: the clock's value at its end. -/
def snapNow (s : State) : State := updRtc (fun r => { r with snapSec := r.sec, snapSub := r.sub }) s

/-- ALIVE low, THERM_ALERT_N released, no SerDes lane driven (R59). -/
def quietPins (b : Board) : Board :=
  { b with alive := false, thermAlert := false, serdesIdle := true, hostDriven := false }
/-- Fabric ports that a fence has taken out of service stay FENCED (R71, R104). -/
def fencedPorts (s : State) : SMap PortSt :=
  ((List.finRange 32).filter (portFenced s)).map fun p => (p.val, { st := .fenced })

/-- Every island but the always-on island is reset; fences and repair map stay until a self-test rebuilds them. -/
def resetIslands (s : State) : State :=
  { ({} : State) with
    pending := s.pending, out := s.out, freeCtr := s.freeCtr, nowNs := s.nowNs, fuses := s.fuses,
    board := quietPins s.board, boot := s.boot, resetAt := s.resetAt, degraded := s.degraded,
    generation := s.generation, records := s.records, fld := keptFields s, lanes := s.lanes, detours := s.detours,
    winBudget := s.winBudget, winLimit := s.winLimit, ports := fencedPorts s,
    fenced := s.fenced, flt := fltReset s.flt, rtc := s.rtc, tap := s.tap, tapDebug := s.tapDebug }

/-- A regulator holds its code until the device writes another (R53), a reset or not. DESIGN CHOICE (log 100): a critical
reading's clamp outlasts a device reset too, until a reading below the limit (R61). -/
def resetRails (s : State) : SMap Rails :=
  (s.rails.map fun p => (p.1, ({ code := p.2.code, pend := p.2.pend, clamp := p.2.clamp } : Rails))).filter
    fun p => p.2 != {}
/-- The clock of an engine after a reset: at most step 14, what its rail's voltage supports, and step 0 under a clamp. -/
def resetClock (s : State) (x : EngSt) (e : Eng) : EngSt :=
  let r := getRail s (kilnOf e)
  let c := if r.clamp.isEmpty then min (min x.clk 14) (maxClock s (kilnOf e) r.code) else 0
  { clk := c, want := c }
def resetEngs (s : State) : SMap EngSt :=
  (allEngs.map fun e => (e.val, resetClock s (eng s e) e)).filter fun p => p.2 != {}

/-! ## The retention record (R114 to R117, R127) -/

def lossCode : Loss → Nat
  | .perst0 => 1 | .linkLoss => 2 | .hotReset => 3 | .pf0Flr => 4 | .warm => 5 | .cold => 6 | .safe => 7

def armed (s : State) : Bool := fget s .retainArm == 1
/-- Device memory survives the reset: retention is armed, or an adoption had not yet ended (R127). -/
def retains (s : State) : Bool := armed s || s.going == some true

/-- The record of a loss, but for its CRC. SR_ENTRY_NS is measured: any time, within 50 µs where R114 bounds it. -/
def lossRec (c : Loss) (s : State) : RetRec :=
  let base : RetRec :=
    {
      valid := 0, cause := lossCode c, generation := s.generation, layoutCrc := layoutCrc s, lossSec := s.rtc.sec,
      lossSub := s.rtc.sub, fencedKiln := fencedKilns s, interleave := fget s .interleave, fwVer := s.fwVer,
      srEntryNs := free s % 2 ^ 32 }
  if c = .cold then base
  else if c = .safe then { base with srEntryNs := free s % 50001 }
  else match s.going, s.records with
    | some false, _ => { base with valid := 3 }
    | some true, r :: _ =>
      { base with
        valid := 1, generation := r.generation, layoutCrc := r.layoutCrc, fencedKiln := r.fencedKiln,
        srEntryNs := free s % 50001 }
    | _, _ => if armed s then { base with valid := 1, srEntryNs := free s % 50001 } else base

def writeRec (c : Loss) (s : State) : State := tick (pushRec (lossRec c s) s)

/-- Every store-buffer and write-gather entry for device memory reaches its controller (R114). -/
def drainAll (s : State) : State :=
  let s := s.gathers.foldl (fun s g => g.2.foldl (fun s x => acceptWrite x.addr x.data s) s) s
  let s := s.engs.foldl (fun s p => (p.2.sb ++ p.2.tbOut.map Prod.snd).foldl (fun s x => match x.tgt with
    | .dev a => acceptWrite a x.data s
    | .host _ _ => s) s) s
  { s with gathers := [] }

/-! ## Device reset (R111 to R114, R128, R566) -/

/-- The 50 µs of retention entry have not ended since the last trigger (R128). -/
def entering (s : State) : Bool := s.resetAt.any fun t => s.nowNs < t + 50000
/-- Every island but the always-on island is reset by the trigger `c`; memory, rails and the clocks' limits stay as given. -/
def resetFor (c : Loss) (k : State) : State :=
  { resetIslands k with
    resetting := some c, mem := k.mem, poison := k.poison, refSeen := k.refSeen, engs := resetEngs k, rails := resetRails k }
/-- The trigger of a device reset. One that comes within the 50 µs of an earlier one's entry adds no record and drops no
memory: it belongs to the reset in progress, or, once that has ended, resets the islands again. -/
def deviceReset (c : Loss) (s : State) : State :=
  if !s.board.pwrgood || s.boot == .safe then s
  else if entering s then (if s.resetting.isSome then s else resetFor c s)
  else
    let s := writeRec c s
    let keep := retains s
    let k := if keep then drainAll s else { s with mem := [], poison := [] }
    { resetFor c k with resetAt := some s.nowNs, board := { quietPins k.board with selfRefresh := keep } }

/-! ## VI resets (R162 to R167) -/

/-- The launch indices of a VI leave an engine: those before commit at once, one past it at its task boundary. -/
def dropIndexes (v : Vi) (c : Compl) (s : State) (e : Eng) : State :=
  let x := eng s e
  let gone := (x.queue.filter fun i => i.vi == v) ++ (x.away.filter fun r => r.ix.vi == v).map Run.ix
  let s := updEng e (fun x => { x with queue := x.queue.filter (fun i => i.vi != v), away := x.away.filter fun r => r.ix.vi != v }) s
  let s := match x.run with
    | some r => if r.ix.vi ≠ v then s
      else if r.phase = .post then lateFail e c s
      else endIndex e (some c) 0 s
    | none => s
  gone.foldl (fun s i => indexEnded i (some c) 0 s) s

/-- Queued descriptors leave a mover; the running one ends at its next 4 KiB boundary. -/
def dropMover (v : Vi) (s : State) (m : Mover) : State :=
  updMv m (fun x => { x with queue := match x.queue with
    | h :: t => h :: t.filter (fun q => q.1 != v)
    | [] => [] }) s

def collsOf (s : State) (v : Vi) : SMap CollSt := s.colls.filter fun q => q.2.active && q.2.vi == v.val
/-- The common abort with no entry (Table: Abort causes, VI reset). -/
def resetColls (v : Vi) (s : State) : State :=
  (collsOf s v).foldl (fun s q =>
    if q.2.launched then endColl q.1 none none 0x31 q.2.rank (fcount .abortsOrig 0 32 1 s) else clearColl q.1 s)
    { s with collWait := s.collWait.filter fun w => w.1 != v }

/-- The device address of a QP entry (R434). -/
def qpAddr (s : State) (q : Nat) : Nat := (allotDev s .ring vi0).1 + fget s .qpBase * 2 ^ 12 + 64 * q
/-- The fields that the device writes back into a QP entry (R435). -/
def writeBackQp (q : Grp) (s : State) : State :=
  let x := getQp s q
  let a := qpAddr s q.val
  let b0 := (readByte s a).toNat / 4 * 4 + (if x.rtr then 1 else 2)
  let b7 := (readByte s (a + 7)).toNat / 16 * 16 + x.errCause
  acceptWrite (a + 0x14) (natBytes 4 x.drops) (acceptWrite (a + 0x10) (natBytes 3 x.msn)
    (acceptWrite (a + 0x0C) (natBytes 3 x.epsn) (acceptWrite (a + 7) (natBytes 1 b7) (acceptWrite a (natBytes 1 b0) s))))
/-- An ingest window closes: the QP entry is written back and unbound (R448). -/
def closeIngest (w : Nat) (s : State) : State :=
  let x := mget {} s.iwin w
  let s := updQp (grp x.qp) (fun _ => {}) (writeBackQp (grp x.qp) s)
  { s with iwin := mset {} s.iwin w {} }
def closeIngestOf (v : Vi) (s : State) : State :=
  (s.iwin.filter fun p => p.2.open_ && p.2.vi == v.val).foldl (fun s p => closeIngest p.1 s) s

/-- The start of a VI reset (R163). -/
def viResetStart (s : State) (v : Vi) : State :=
  let s := allEngs.foldl (dropIndexes v (openC .viReset)) s
  let s := allMovers.foldl (dropMover v) s
  let s := forget (fun w => ringRead v w || blockOf v w) (dropFlags v (closeIngestOf v (resetColls v s)))
  let s := { s with hblocks := s.hblocks.filter fun b => b.1 != v }
  updVi v (fun x => { x with
    fetched := [], fetching := 0, misses := [], down := none, dbReading := false, mbReading := false, dbWatched := false,
    mbWatched := false, dbPolled := false, mbPolled := false, dbWake := false, mbWake := false, startDue := false,
    ingest := [], resetting := true }) s

/-- VIs in use: those that have state, descriptors or a register away from its reset value. -/
def port1Vis : List Vi := (List.finRange 1024).map fun i => ⟨1024 + i.val, by omega⟩
def vfsOf (p : HPort) : List Vi := (List.finRange 1023).map fun i => ⟨p.val * 1024 + 1 + i.val, by omega⟩

/-- A port 1 reset (R111, R162, R166). -/
def port1Reset (s : State) : State :=
  port1Vis.foldl viResetStart { updHp 1 (fun _ => {}) s with
    pfs := mset {} s.pfs 1 {}, stopped := s.stopped.filter fun i => i != .hostPort 1 }

/-! ## Completion of a VI reset (R164, R165) -/

/-- The fields of one VI's register space, with how many elements each has. -/
def viFields : List (F × Nat) :=
  [(.viEnable, 1), (.mboxEn, 1), (.cmdBase, 1), (.cmdLog2, 1), (.cplBase, 1), (.cplLog2, 1), (.doorbell, 1), (.mailbox, 1),
   (.holdoffUs, 1), (.ingestIrq, 1), (.devVbase, 8), (.devTarget, 8), (.devSize, 8), (.hostVbase, 8), (.hostTarget, 8),
   (.hostSize, 8), (.hostAttr, 8), (.ovfEnable, 1), (.ovfOffset, 1), (.collTimeoutUs, 1), (.stageSp, 1), (.stageSlots, 1),
   (.fabKey, 1)]
def ownedBy (v : Vi) (key : Nat) : Bool :=
  viFields.any fun q => key / 2 ^ 20 == q.1.ctorIdx && key % 2 ^ 20 / q.2 == v.val
/-- Every register of the VI space at its reset value. -/
def viRegsReset (v : Vi) (s : State) : State := { s with fld := s.fld.filter fun p => !ownedBy v p.1 }

/-- The flags of a VI's window return to CLEAR on the engines of its partition (R315). -/
def clearFlags (v : Vi) (s : State) : State :=
  let b := fget s .flagBase v.val * 32
  let n := fget s .flagCount v.val * 32
  let s := (viEngines s .ring v).foldl (fun s e => updEng e (fun x =>
    { x with flags := x.flags.filter fun p => !(b ≤ p.1 && p.1 < b + n) }) s) s
  { s with refail := s.refail.filter fun r => r.vi != v.val }

/-- Stores of a VI stand in an engine's store buffer, or wait outbound (R396). -/
def storesHere (s : State) (v : Vi) (e : Eng) : Bool := (ownStores s e).any fun x => x.vi == v
/-- The stores of a VI leave the store buffers and the gathers (R164, R242). What is held back stays. -/
def drainVi (v : Vi) (s : State) : State :=
  let s := (allEngs.filter (storesHere s v)).foldl (fun s e => flushSb e s) s
  kilns.foldl (fun s k => acceptThose k (fun g => g.vi == v) s) s
/-- Work of the VI is still to end: a routine past its commit, a mover's block, a store or a flag that is not visible. -/
def viBusy (s : State) (v : Vi) : Bool :=
  s.engs.any (fun p => p.2.run.any (fun r => r.ix.vi == v)) || allEngs.any (storesHere s v) ||
  s.movers.any (fun p => p.2.queue.head?.any fun q => q.1 == v) || underWay s fun w => dataOf v w || w == .flag v
/-- The VI's fabric windows close: through one of them a peer would write for the reset VI (R164). -/
def closeFabricOf (v : Vi) (s : State) : State :=
  { s with fwin := s.fwin.filter fun p => !(p.2.open_ && p.2.vi == v.val) }

/-- A VI reset completes once all its work has ended; up messages stay in their slots (R163, R164, R240). The count of
enables goes on. -/
def viResetEnd (s : State) (v : Vi) : State :=
  if !(getVi s v).resetting then s else
  let s := drainVi v s
  if viBusy s v then s else
  let s := closeFabricOf v (clearFlags v s)
  updFn v (fun _ => {}) (updVi v (fun x => { upMsgs := x.upMsgs, lap := x.lap }) (viRegsReset v s))

/-! ## Straps and pulses (R48, R49, R649, R650) -/

def strap (x : Option Bool) (s : State) : Bool := x.getD (free s % 2 == 1)
def strap1 (x : Option Bool) (s : State) : State := if x.isNone then tick s else s
/-- The straps as sampled at the edge; one that changes in its window is sampled as either value. -/
def sampleStraps (st : Straps) (s : State) : State :=
  let s := strap1 st.hp0Mode (updBoard (fun b => { b with hp0Mode := strap st.hp0Mode s }) s)
  let s := strap1 st.bootSrc (updBoard (fun b => { b with bootSrc := strap st.bootSrc s }) s)
  strap1 st.debugEn (updBoard (fun b => { b with debugEn := strap st.debugEn s }) s)

/-- A pulse is recognised at `long` ns or more, ignored below 100 ns, and either between them (R649). -/
def seen (lowNs long : Nat) (s : State) : Bool :=
  long ≤ lowNs || (100 ≤ lowNs && free s % 2 == 1)
def afterPulse (lowNs long : Nat) (s : State) : State := if 100 ≤ lowNs && lowNs < long then tick s else s

/-! ## The commands: supplies -/

/-- The calendar clock after both supplies were lost (R581). -/
def clockLost (s : State) : State := { s with rtc := {}, fld := s.fld.filter fun p => p.1 / 2 ^ 20 == F.vbatLow.ctorIdx || !keptKey p.1 }
where
  keptKey (k : Nat) : Bool := [F.setSecLo, F.setSecHi, F.setSub, F.trim, F.oscStopped].any fun f => k / 2 ^ 20 == f.ctorIdx

/-- Every island as at power-up; of the always-on island only the calendar clock's fields stay. -/
def powerUp (s : State) : State :=
  { ({} : State) with
    pending := s.pending, out := s.out, freeCtr := s.freeCtr, fuses := s.fuses,
    board := { quietPins s.board with selfRefresh := false, spiDriven := true },
    fld := keptFields s, rtc := { s.rtc with staged := none } }

def execAuxPowerOn (st : Straps) (s : State) : Out :=
  let s := updBoard (fun b => { b with vddAux := true, pwrgood := true }) (powerUp s)
  .next (snapNow (sampleStraps st (updRtc (fun r => { r with running := true }) s)))

/-- R69: as at power-up, and the clock goes on only from VBAT. -/
def execVddAuxFall (s : State) : Out :=
  let s := updBoard (fun b => { b with vddAux := false, pwrgood := false, spiDriven := false }) (powerUp s)
  .next (if s.board.vbatOk then s else updRtc (fun r => { r with running := false }) (clockLost s))

def execSuppliesLost (s : State) : Out := .next (clockLost s)

/-- The kiln rails after a cold reset. Over a pulse of PWRGOOD they hold their codes (R53); while PWRGOOD was down the
board may have taken them down, and then they start at code 30 again: which, the device does not see. -/
def coldRails (s : State) : SMap Rails := if s.board.pwrgood || free s % 2 == 0 then resetRails s else []

/-- PWRGOOD rises after a low that counts (R649). -/
def execColdReset (lowNs : Nat) (st : Straps) (s : State) : Out :=
  let hit := s.board.vddAux && (!s.board.pwrgood || seen lowNs 10000 s)
  let s := if s.board.pwrgood then afterPulse lowNs 10000 s else s
  if !hit then .next s else
  let s := writeRec .cold s
  let k := { s with rails := coldRails s }
  let s := tick { resetIslands k with boot := .bisque, resetAt := none, rails := k.rails, engs := resetEngs k }
  .next (snapNow (sampleStraps st (updBoard (fun b => { b with
    pwrgood := true, perst0 := false, perst1 := false, selfRefresh := false, spiDriven := true }) s)))

/-- PWRGOOD low: every island but the always-on island stops, HBM3 enters self-refresh, the SerDes go idle and the flash
pins to high impedance (Table: Power-down sequence, R100). -/
def execPowerDown (s : State) : Out :=
  .next { s with
    board := { quietPins s.board with pwrgood := false, selfRefresh := true, spiDriven := false },
    hostPorts := [], ports := [], mesh := [], wires := [], flt := fltReset s.flt }

/-! ## The commands: device resets -/

def execPerst0Assert (lowNs : Nat) (s : State) : Out :=
  let hit := s.board.pwrgood && seen lowNs 1000 s
  let s := afterPulse lowNs 1000 s
  if !hit then .next s
  else if s.boot = .safe then .next (updHp 0 (fun _ => {}) s)
  else .next (updBoard (fun b => { b with perst0 := true }) (deviceReset .perst0 s))

/-- A trigger on port 1: within a device reset it adds nothing; in SAFE it resets only the port's link. -/
def port1Trigger (s : State) : State :=
  if !s.board.pwrgood || s.resetting.isSome then s
  else if s.boot = .safe then updHp 1 (fun _ => {}) s
  else port1Reset s

def execPerst1Assert (lowNs : Nat) (s : State) : Out :=
  let hit := s.board.pwrgood && seen lowNs 1000 s
  let s := afterPulse lowNs 1000 s
  .next (if hit then port1Trigger (updBoard (fun b => { b with perst1 := true }) s) else s)

def execHotReset (p : HPort) (s : State) : Out :=
  .next (if p = 1 then port1Trigger s
    else if s.boot = .safe then updHp 0 (fun _ => {}) s
    else deviceReset .hotReset s)

/-- The port's Data Link Layer leaves DL_Active; a port that is down loses nothing. -/
def linkLoss (p : HPort) (s : State) : State :=
  if p = 1 then port1Trigger s
  else if s.boot = .safe then updHp 0 (fun _ => {}) s
  else deviceReset .linkLoss s
def execHostLinkLoss (p : HPort) (s : State) : Out :=
  .next (if (getHp s p).dlUp then linkLoss p s else s)

def execPfFlr (pf : HPort) (s : State) : Out :=
  .next (if s.boot = .safe then s else if pf = 1 then port1Trigger s else deviceReset .pf0Flr s)

/-- Boot step 1 restarts in BISQUE (R112). -/
def execDeviceResetEnd (s : State) : Out :=
  .next (if s.resetting.isNone then s
    else snapNow { s with resetting := none, boot := .bisque, board := { s.board with perst0 := false } })

/-- GEN_BOOT_CTL.WARM_RESET: PF0 only, in GLAZING and FIRED (R111, R146). -/
def warmReset (s : State) : State :=
  if s.resetting.isNone && (s.boot == .glazing || s.boot == .fired) then deviceReset .warm s else s
def execWarmReset (fn : Vi) (s : State) : Out := .next (if fn = vi0 && answers s fn then warmReset s else s)

/-! ## The commands: VI resets -/

def execVfFlr (v : Vi) (s : State) : Out :=
  if !(Instr.vfFlr v).wf then .refused .noSuchUnit
  else .next (if s.board.pwrgood && s.resetting.isNone && s.boot != .safe && viExists s v then viResetStart s v else s)

/-- VF Enable of a PF is cleared: every VF of it starts a VI reset (R162); in SAFE no unit holds work of one. -/
def clearVfEnable (pf : HPort) (s : State) : State :=
  if (getPf s pf).vfEnable then
    let s := updPf pf (fun x => { x with vfEnable := false }) s
    if s.boot = .safe then s else (vfsOf pf).foldl viResetStart s
  else s
/-- Configuration requests are served in every state (R144). -/
def execVfEnableClear (pf : HPort) (s : State) : Out :=
  .next (if s.board.pwrgood && s.resetting.isNone then clearVfEnable pf s else s)

/-- R169: NumVFs stands while VF Enable is set. -/
def execNumvfsWrite (pf : HPort) (n : BitVec 16) (s : State) : Out :=
  .next (if s.board.pwrgood && s.resetting.isNone && !(getPf s pf).vfEnable then
    updPf pf (fun x => { x with numVFs := n.toNat }) s
  else s)

def execViResetDone (which : ResetSet) (s : State) : Out :=
  .next (match which with
    | .one v => viResetEnd s v
    | .port1 => updBoard (fun b => { b with perst1 := false }) (port1Vis.foldl viResetEnd s)
    | .pfVfs p => (vfsOf p).foldl viResetEnd s)

def execTestReset (s : State) : Out := .next { s with tap := .testLogicReset, tapDebug := false }

end Sys2Proof.Machine
end

