-- ==== Sys2Proof/Machine/Rails.lean ====
section
/-! DEFINITION. Kiln rails, thermal sensors and the damper (chapter 2). -/

namespace Sys2Proof.Machine

/-- The device is powered, in no reset, and not in SAFE. -/
def powered (s : State) : Bool := s.board.pwrgood && s.resetting.isNone && s.boot != .safe

/-! ## Clocks and rails (R55, R56, R63) -/

/-- The clock that an engine may have: its target, its die's ceiling in DAMPED mode, 0.50 GHz while clamped (R63). -/
def wantClock (s : State) (e : Eng) : Nat :=
  let r := getRail s (kilnOf e)
  if !r.clamp.isEmpty then 0
  else if s.damped then min (fget s .dvfsTarget e.val) r.ceiling else fget s .dvfsTarget e.val

/-- An engine runs at its wanted clock, or at the fastest one that the confirmed voltage supports (R55). -/
def setClock (s : State) (e : Eng) : State :=
  let w := wantClock s e
  let c := min w (maxClock s (kilnOf e) (getRail s (kilnOf e)).code)
  updEng e (fun x => { x with want := w, clk := c }) s

/-- The fastest wanted clock of a die's engines in service. -/
def fastest (s : State) (k : Kiln) : Nat :=
  ((engsOf k).filter fun e => !engFenced s e).foldl (fun a e => max a (wantClock s e)) 0

/-- The rail of a die follows its fastest clock: clocks fall before a lower voltage is written, and rise only after
power good at a higher one (R55, R56). -/
def settleDie (s : State) (k : Kiln) : State :=
  if kilnFenced s k then s else
  let need := needCode s k (fastest s k)
  let r := getRail s k
  let s := (engsOf k).foldl setClock s
  if r.pend.getD r.code = need then s
  else
    let s := emit (.vset k need) s
    updRail k (fun x => { x with code := min x.code need, pend := some need }) s

/-! ## Thermal samples (R61) -/

def isStack (i : Fin 78) : Bool := i.val ≥ 70
/-- The kiln dies that a sensor's reading affects (Table: PWR_TEMP index). -/
def affects (i : Fin 78) : List Kiln :=
  if i.val < 64 then [⟨i.val / 4 % 16, by omega⟩]
  else if i.val < 70 then kilns
  else kilns.filter fun k => k.val / 2 == i.val - 70
def limitOf (s : State) (i : Fin 78) : Int := (fget s .tempLimit : Int) - (if isStack i then 10 else 0)
def alertAt (i : Fin 78) : Int := if isStack i then 90 else 100
def criticalAt (i : Fin 78) : Int := if isStack i then 95 else 105
def tripAt (i : Fin 78) : Int := if isStack i then 105 else 115
/-- The unit that reports a sensor (R529, R530). -/
def sensorUnit (i : Fin 78) : FUnit :=
  if i.val < 64 then .kilnTherm ⟨i.val / 4 % 16, by omega⟩
  else if i.val < 68 then .flueTherm ⟨(i.val - 64) % 4, by omega⟩
  else if i.val < 70 then .linkTherm
  else .kilnTherm ⟨2 * (i.val - 70) % 16, by omega⟩
/-- INFO of THERMAL_TRIP: the sensor of its die; the number of a stack readout is not given. -/
def sensorNo (s : State) (i : Fin 78) : Nat :=
  if i.val < 64 then i.val % 4 else if i.val < 68 then 0 else if i.val < 70 then i.val - 68 else free s % 256

/-- The limit that the open damper window started with (R600). -/
def winLimitOf (s : State) (i : Fin 78) : Int := (s.winLimit : Int) - (if isStack i then 10 else 0)

/-- One reading acts on the window, the clamp and the trip. -/
def oneReading (s : State) (x : Fin 78 × Int) : State :=
  let (i, t) := x
  let lim := limitOf s i
  let win := winLimitOf s i
  let s := { s with temps := mset none s.temps i.val (some t) }
  let s := (affects i).foldl (fun s k => updRail k (fun r => { r with
    hot := r.hot || decide (win ≤ t), notCool := r.notCool || decide (win - 5 < t),
    clamp := if criticalAt i ≤ t then (if r.clamp.contains i then r.clamp else r.clamp ++ [i])
      else if t < lim then r.clamp.filter (fun j => j != i) else r.clamp }) s) s
  if tripAt i ≤ t then
    raise (sensorUnit i) 0x60 (sensorNo s i + 256 * (BitVec.ofInt 8 t).toNat) (if isStack i then tick s else s)
  else s

/-- THERM_ALERT_N: asserted at a reading at its alert threshold, released when every reading is 5 °C below (R61). -/
def alertPin (s : State) : Bool :=
  let any := (List.finRange 78).any fun i => match mget none s.temps i.val with
    | some t => decide (alertAt i ≤ t)
    | none => false
  let calm := (List.finRange 78).all fun i => match mget none s.temps i.val with
    | some t => decide (t ≤ alertAt i - 5)
    | none => true
  if any then true else if calm then false else s.board.thermAlert

def execThermalSample (readings : List (Fin 78 × Int)) (s : State) : Out :=
  if !s.board.pwrgood then .next s else
  let s := readings.foldl oneReading s
  let s := updBoard (fun b => { b with thermAlert := alertPin s }) s
  .next (if powered s then kilns.foldl settleDie s else s)

/-! ## Damper windows (R62, R613) -/

def stepCeiling (s : State) (watts : Nat) (k : Kiln) : State :=
  let b := s.winBudget
  updRail k (fun r => { r with
    ceiling := if watts > b || r.hot then r.ceiling - 1
      else if 100 * watts ≤ 95 * b && !r.notCool then min (r.ceiling + 1) 18
      else r.ceiling }) s
def openWindow (s : State) (k : Kiln) : State := updRail k (fun r => { r with hot := false, notCool := false }) s
/-- The next window starts with no samples, and keeps the values that the live fields have now (R600). -/
def nextWindow (s : State) : State :=
  { kilns.foldl openWindow s with winBudget := fget s .budget, winLimit := fget s .tempLimit }
/-- What a window's end does to the ceilings and the clocks: a change of MODE takes effect here (R613). -/
def damperStep (watts : Nat) (s : State) : State :=
  let mode := fget s .damperMode == 1
  let s := if mode && s.damped then kilns.foldl (fun s k => stepCeiling s watts k) s
    else { kilns.foldl (fun s k => updRail k (fun r => { r with ceiling := 18 }) s) s with damped := mode }
  kilns.foldl settleDie s

/-- Windows run on the always-on timebase from PWRGOOD, so one ends and the next begins in a reset and in SAFE too. -/
def execDamperWindowEnd (watts : Nat) (s : State) : Out :=
  .next (if !s.board.pwrgood then s else nextWindow (if powered s then damperStep watts s else s))

/-! ## Regulators (R54, R55, R67, R68) -/

def execRailPowerGood (k : Kiln) (s : State) : Out :=
  .next (match (getRail s k).pend with
    | some c => if powered s then settleDie (updRail k (fun r => { r with code := c, pend := none }) s) k else s
    | none => s)

def execVsetPgTimeout (k : Kiln) (s : State) : Out :=
  .next (if powered s && (getRail s k).pend.isSome then
    raise (.rail k) 0x23 0xFF (updRail k (fun r => { r with pend := none }) s)
  else s)

/-- VSET_ALERT_N with a fault status; in SAFE it is ignored (Table: Pins in SAFE). -/
def execVsetAlert (k : Kiln) (status : Byte) (s : State) : Out :=
  .next (if powered s && bitAt status.toNat 1 then raise (.rail k) 0x23 status.toNat s else s)

/-- A rail out of range for more than 1 µs; VBAT is rail 1 of the table and records nothing (R68). -/
def execRailOut (r : Rail) (ns : Nat) (status : Byte) (s : State) : Out :=
  .next (if !s.board.pwrgood || ns ≤ 1000 then s else match r with
    | .shared n => if n = 1 then s else raise .sharedRails 0x61 n.val s
    | .kiln k => raise (.rail k) 0x23 (status.toNat + 256) s)

/-- An engine island changes its clock; no routine is abandoned (R57). -/
def execClockChange (e : Eng) (s : State) : Out :=
  .next (if powered s && !engFenced s e then setClock s e else s)

end Sys2Proof.Machine
end

