-- ==== Sys2Proof/Machine/Islands.lean ====
section
/-! DEFINITION. Clock islands, stalls and Ezben links (chapter 3). -/

namespace Sys2Proof.Machine

/-! ## Lane groups (R84 to R87) -/

/-- A physical group carries flits: groups 0 to 3, and the spare group 4 once it is mapped. -/
def laneUsed (s : State) (l : Lane) : Bool :=
  let x := lanesOf s l.link l.up
  !linkFenced s l.link && !x.failed.contains l.group && (l.group.val < 4 || x.spared.isSome)

/-- A group fails: the first in a direction is spared, and its unacknowledged flits are sent again there; the second fences
the link (R85, R86). -/
def laneFail (l : Lane) (s : State) : State :=
  let x := lanesOf s l.link l.up
  if linkFenced s l.link || x.failed.contains l.group then s
  else if x.failed.isEmpty then
    report (.link l.link) 0x01 (l.group.val + 8 * b2n l.up) none none
      (updLanes l.link l.up (fun x => { x with
        failed := [l.group], spared := if l.group.val < 4 then some l.group else none,
        window := mset 0 x.window l.group.val 0 })
      (if l.group.val < 4 then updWire l.link l.up (resendHalves l.group.val) s else s))
  else
    raise (.link l.link) 0x20 (8 * b2n l.up)
      (updLanes l.link l.up (fun x => { x with failed := x.failed ++ [l.group] }) s)

/-- An ACK_ERR, the nth in succession for its flit: the flit is resent on the same half, or the group fails at the third
in succession or the sixteenth in the window (R83, R84). -/
def execFlitAckErr (l : Lane) (nth : Nat) (s : State) : Out :=
  if !(Instr.flitAckErr l nth).wf then .refused .noSuchUnit
  else if !powered s || !laneUsed s l then .next s
  else
    let n := mget 0 (lanesOf s l.link l.up).window l.group.val + 1
    let s := updLanes l.link l.up (fun x => { x with window := mset 0 x.window l.group.val n }) s
    .next (if nth ≥ 3 || n ≥ 16 then laneFail l s
      else emit (.retry l) (updWire l.link l.up (nackHalf (lanesOf s l.link l.up) l.group) s))

def execEzbenPhaseTimeout (l : Lane) (s : State) : Out :=
  if !(Instr.ezbenPhaseTimeout l).wf then .refused .noSuchUnit
  else .next (if powered s && laneUsed s l then laneFail l s else s)

def execEzbenErrorWindowEnd (l : Link) (s : State) : Out :=
  if !(Instr.ezbenErrorWindowEnd l).wf then .refused .noSuchUnit
  else .next (updLanes l true (fun x => { x with window := [] }) (updLanes l false (fun x => { x with window := [] }) s))

/-- The links at the four edges of a kiln die: north, east, south, west. -/
def edgeLinks (k : Kiln) : List Link :=
  [{ kiln := k, edge := 0 }, { kiln := k, edge := 1 },
   if k.val < 4 then { kiln := k, edge := 2 } else { kiln := ⟨k.val - 4, by omega⟩, edge := 0 },
   if k.val % 4 = 0 then { kiln := k, edge := 3 } else { kiln := ⟨k.val - 1, by omega⟩, edge := 1 }]
def fencedEdges (s : State) (k : Kiln) : Nat :=
  ((edgeLinks k).zip [1, 2, 4, 8]).foldl (fun a x => if linkFenced s x.1 then a + x.2 else a) 0

/-- Kiln dies with no path to the link die are fenced (R667). -/
def cutKilns (s : State) : State :=
  let r := reachFrom s 20
  (kilns.filter fun k => !r.contains k.val && !kilnFenced s k).foldl (fun s k => raise (.hub k) 0x2A (fencedEdges s k) s) s

/-- Detours around a fenced link (R88). -/
def execDetourInstall (l : Link) (s : State) : Out :=
  if !(Instr.detourInstall l).wf then .refused .noSuchUnit
  else .next (if !powered s || !linkFenced s l then s
    else cutKilns { s with detours := if s.detours.contains l then s.detours else s.detours ++ [l] })

/-! ## Parking, loss of lock and stalls (R74, R89 to R94, R552) -/

/-- An island parks when its PLL loses lock; the always-on island runs from its oscillator inputs and has none, and an
island that has stopped does not park (R94). -/
def execPllLockLoss (i : Island) (s : State) : Out :=
  .next (if powered s && i != .aon && !s.pllParked.contains i && !s.stopped.contains i then
    { s with pllParked := s.pllParked ++ [i], parked := s.parked ++ [i], parkAt := s.parkAt ++ [(i, s.nowNs)] }
  else s)

def unpark (i : Island) (s : State) : State :=
  { s with
    pllParked := s.pllParked.filter (fun j => j != i), parked := s.parked.filter (fun j => j != i)
    parkAt := s.parkAt.filter fun q => q.1 != i }
def execPllRelock (i : Island) (s : State) : Out := .next (if s.pllParked.contains i then unpark i s else s)

/-- Table: Stopped island outcome: class 1 islands are fenced under `cause`; a host port loses its link; any other
island takes the device to SAFE. The always-on island holds the collector, so its own stop leaves no record. -/
def stopIsland (i : Island) (cause info : Nat) (s : State) : State :=
  match i with
  | .hostPort n => linkLoss n (report (.hostPort n) 0x42 info none none s)
  | .home => raise .home 0x64 info s
  | .ring => raise .ring 0x64 info s
  | .mgmt => raise .mgmt 0x64 info s
  | .aon => latchSafe s
  | i => raise (isleUnit i) cause info s

def lostToRefclk (s : State) : Island → Bool
  | .fport p => s.fenced.contains (.refclk (flueOf p))
  | _ => false
def execPllLost (i : Island) (s : State) : Out :=
  .next (if !powered s || !s.pllParked.contains i || lostToRefclk s i then s
    else
      let s := unpark i s
      let info := match i with
        | .engine _ => 0 | .hub _ => 0 | .memory _ => 0 | .fport _ => 0 | .coll _ => 0 | .flueTable _ => 0 | _ => 0xFFFF
      stopIsland i 0x22 info { s with stopped := s.stopped ++ [i] })

/-- The island of a unit that is one. -/
def isleOf : FUnit → Option Island
  | .engine e => some (.engine e) | .hub k => some (.hub k) | .memory k => some (.memory k) | .fport p => some (.fport p)
  | .coll f => some (.coll f) | .flueTable f => some (.flueTable f) | .hostPort n => some (.hostPort n)
  | .home => some .home | .ring => some .ring | .mgmt => some .mgmt | .aon => some .aon
  | _ => none
/-- A unit of the island has left service: it has parked (R89). -/
def islandOut (s : State) : Island → Bool
  | .engine e => engFenced s e
  | .hub k => kilnFenced s k
  | .memory k => kilnFenced s k
  | .fport p => portFenced s p
  | .coll f => collFenced s f
  | .flueTable f => collFenced s f
  | _ => false
/-- A crossing that sees PARK counts no stall, and a fenced island has parked (R89); a PARK seen in the cycle in which the
count is reached comes too late (R94). -/
def islandQuiet (s : State) (i : Island) : Bool :=
  islandOut s i || (s.parked.contains i && !s.parkAt.contains (i, s.nowNs))
/-- The live side of a crossing: another island, in service and running (R91). -/
def liveSide (s : State) (i : Island) (live : FUnit) : Bool := match isleOf live with
  | some j => j != i && !islandOut s j && islandRuns s j
  | none => false
/-- A later stall of an island whose record the collector has not yet taken: the lowest live side is named (R92). -/
def renameStall (i : Island) (n : Nat) (s : State) : State :=
  updFlt (fun f => { f with raised := f.raised.map (lower n) }) s
where
  lower (n : Nat) (x : Raised) : Raised :=
    let stall := x.cause == 0x21 || x.cause == 0x64 || x.cause == 0x42
    if decide (x.src = srcOf (isleUnit i)) && stall && x.info.toNat != 0xFFFF && decide (n < x.info.toNat) then
      { x with info := BitVec.ofNat 64 n }
    else x
def execUnitStall (i : Island) (live : FUnit) (s : State) : Out :=
  .next (if !powered s || !liveSide s i live then s
    else if s.stopped.contains i then renameStall i (srcOf live) s
    else if islandQuiet s i then s
    else stopIsland i 0x21 (srcOf live) (unpark i { s with stopped := s.stopped ++ [i] }))

/-- What the far sides of an island held for it is discarded, and the work it was for ends (R92, R93). -/
def dropCrossings (i : Island) (s : State) : State :=
  let l := s.mesh.filter fun p => p.src == i || p.dst == i
  l.foldl (fun s p => match accessOf p.msg with
    | some x => accessEnds x.1 x.2 p.who .fencedUnit s
    | none => s) (clearCrossings i s)
/-- One island and its crossings are reset in one step (R93). -/
def resetIsland (i : Island) (s : State) : State :=
  let s := dropCrossings i s
  let s := match i with
    | .engine e => fenceEngine e false s
    | .hub k => fenceHolder k ((allMovers.filter fun m => kilnOfMover m == k).foldl (fun s m => fenceMover m s) (updGather k (fun _ => []) s))
    | .coll f => fenceColls f s
    | .fport p => leaveUp p .down s
    | .hostPort n => updHp n (fun _ => {}) s
    | .home => let s := failAll s; { s with hl := [], dir := [], aged := [], mesh := s.mesh.filter fun p => !coherent p.msg }
    | _ => s
  unpark i { s with stopped := s.stopped.filter fun j => j != i }
def execIslandReset (i : Island) (s : State) : Out := .next (if powered s then resetIsland i s else s)

/-- A flue reference clock stops after a port of its die has been up (R71). -/
def execRefclkLost (f : Flue) (s : State) : Out :=
  .next (if powered s && s.refSeen.contains f && !s.fenced.contains (.refclk f) then raise (.refclk f) 0x27 0 s else s)

end Sys2Proof.Machine
end

