-- ==== Sys2Proof/Machine/Signature.lean ====
section
/-! DEFINITION. The checks of an image that R101 takes from FIPS 180-4 and FIPS 186-5: SHA-384, and ECDSA over P-384. The
manual names the two algorithms, and the standards give their constants (PRESUMED, log 91). -/

namespace Sys2Proof.Machine

def beNat (l : List Byte) : Nat := l.foldl (fun a b => 256 * a + b.toNat) 0
def beBytes (n x : Nat) : List Byte := (natBytes n x).reverse

/-! ## SHA-384 (FIPS 180-4) -/

/-- The greatest m below 2^(n + 1), built bit by bit, with m^k ≤ x. -/
def rootBits (k x : Nat) : Nat → Nat → Nat
  | 0, m => if (m + 1) ^ k ≤ x then m + 1 else m
  | n + 1, m => rootBits k x n (if (m + 2 ^ (n + 1)) ^ k ≤ x then m + 2 ^ (n + 1) else m)
/-- The first 64 bits of the fraction of the k-th root of q. -/
def rootFrac (k q : Nat) : Nat := rootBits k (q * 2 ^ (64 * k)) 70 0 % 2 ^ 64
def isPrime (n : Nat) : Bool := decide (2 ≤ n) && (List.range 21).all fun d => decide (d < 2 || d = n) || n % d != 0
/-- The first 80 primes. -/
def primes80 : List Nat := ((List.range 410).filter isPrime).take 80
def shaK : List Nat := primes80.map (rootFrac 3)
def shaH0 : List Nat := ((primes80.drop 8).take 8).map (rootFrac 2)

def rotr (x r : Nat) : Nat := Nat.lor (x >>> r) (x <<< (64 - r) % 2 ^ 64)
def xor3 (a b c : Nat) : Nat := Nat.xor (Nat.xor a b) c
/-- The message schedule: each word from four of the sixteen before it, newest first. -/
def shaWords : Nat → List Nat → List Nat
  | 0, w => w
  | n + 1, w =>
    let a := w.getD 1 0
    let b := w.getD 14 0
    shaWords n (((xor3 (rotr a 19) (rotr a 61) (a >>> 6) + w.getD 6 0 +
      xor3 (rotr b 1) (rotr b 8) (b >>> 7) + w.getD 15 0) % 2 ^ 64) :: w)
/-- One round on the eight working variables. -/
def shaRound (v : List Nat) (kw : Nat × Nat) : List Nat :=
  match v with
  | [a, b, c, d, e, f, g, h] =>
    let ch := Nat.xor (Nat.land e f) (Nat.land (2 ^ 64 - 1 - e) g)
    let t1 := h + xor3 (rotr e 14) (rotr e 18) (rotr e 41) + ch + kw.1 + kw.2
    let t2 := xor3 (rotr a 28) (rotr a 34) (rotr a 39) + xor3 (Nat.land a b) (Nat.land a c) (Nat.land b c)
    [(t1 + t2) % 2 ^ 64, a, b, c, (d + t1) % 2 ^ 64, e, f, g]
  | v => v
/-- One block of 128 bytes. -/
def shaBlock (h : List Nat) (m : List Byte) : List Nat :=
  let w := (shaWords 64 ((List.range 16).map fun i => beNat ((m.drop (8 * i)).take 8)).reverse).reverse
  (h.zip ((shaK.zip w).foldl shaRound h)).map fun p => (p.1 + p.2) % 2 ^ 64
def shaBlocks : Nat → List Nat → List Byte → List Nat
  | 0, h, _ => h
  | n + 1, h, m => shaBlocks n (shaBlock h (m.take 128)) (m.drop 128)
def sha384 (m : List Byte) : BitVec 384 :=
  let zeros := (111 + 128 - m.length % 128) % 128
  let l := m ++ [(0x80 : Byte)] ++ natBytes zeros 0 ++ beBytes 16 (8 * m.length)
  BitVec.ofNat 384 (((shaBlocks (l.length / 128) shaH0 l).take 6).foldl (fun a x => a * 2 ^ 64 + x) 0)

/-! ## ECDSA over P-384 (FIPS 186-5) -/

def ecP : Nat := 2 ^ 384 - 2 ^ 128 - 2 ^ 96 + 2 ^ 32 - 1
def ecN : Nat :=
  0xffffffffffffffffffffffffffffffffffffffffffffffffc7634d81f4372ddf581a0db248b0a77aecec196accc52973
def ecB : Nat :=
  0xb3312fa7e23ee7e4988e056be3f82d19181d9c6efe8141120314088f5013875ac656398d8a2ed19d2a85c8edd3ec2aef
def ecG : Nat × Nat :=
  (0xaa87ca22be8b05378eb1c71ef320ad746e1d3b628ba79b9859f741e082542a385502f25dbf55296c3a545e3872760ab7,
   0x3617de4a96262c6f5d9e98bf9292dc29f8f41dbd289a147ce9da3113b5f0b8c00a60b1ce1d7e819d7a431d7c90ea0e5f)

/-- b^e modulo m, by the bits of e from bit n down. -/
def powMod (m b e : Nat) : Nat → Nat → Nat
  | 0, a => a
  | n + 1, a => powMod m b e n (if e.testBit n then a * a % m * b % m else a * a % m)
/-- The inverse modulo a prime. -/
def invMod (m x : Nat) : Nat := powMod m (x % m) (m - 2) 384 1
def subMod (a b : Nat) : Nat := (a + ecP - b % ecP) % ecP
/-- A point (X, Y, Z) of the curve is (X / Z^2, Y / Z^3); Z = 0 is the point at infinity. -/
abbrev EcPoint := Nat × Nat × Nat
def ecDouble (u : EcPoint) : EcPoint :=
  let (x, y, z) := u
  let m := 3 * subMod x (z * z) * (x + z * z) % ecP
  let b := 4 * x * y * y % ecP
  let x3 := subMod (m * m) (2 * b)
  (x3, subMod (m * subMod b x3) (8 * y * y * y * y), 2 * y * z % ecP)
def ecAdd (u v : EcPoint) : EcPoint :=
  let (x1, y1, z1) := u
  let (x2, y2, z2) := v
  if z1 = 0 then v
  else if z2 = 0 then u
  else
    let a := x1 * z2 * z2 % ecP
    let c := y1 * z2 * z2 * z2 % ecP
    let h := subMod (x2 * z1 * z1) a
    let r := subMod (y2 * z1 * z1 * z1) c
    if h = 0 then (if r = 0 then ecDouble u else (1, 1, 0))
    else
      let b := a * h * h % ecP
      let x3 := subMod (r * r) (h * h * h + 2 * b)
      (x3, subMod (r * subMod b x3) (c * h * h * h), h * z1 * z2 % ecP)
/-- k times a point, by the bits of k from bit n down. -/
def ecMul (k : Nat) (p : EcPoint) : Nat → EcPoint → EcPoint
  | 0, a => a
  | n + 1, a => ecMul k p n (if k.testBit n then ecAdd (ecDouble a) p else ecDouble a)
/-- The x of a point, which has one. -/
def ecX (u : EcPoint) : Option Nat :=
  if u.2.2 = 0 then none else some (u.1 * invMod ecP (u.2.2 * u.2.2) % ecP)
def onCurve (x y : Nat) : Bool :=
  decide (x < ecP && y < ecP) && y * y % ecP == (x * x * x + (ecP - 3) * x + ecB) % ecP
/-- A signature (r, s) of a digest verifies under a public key. -/
def ecdsaOk (q : Nat × Nat) (r s e : Nat) : Bool :=
  onCurve q.1 q.2 && decide (1 ≤ r && r < ecN && 1 ≤ s && s < ecN) &&
  (let w := invMod ecN s
   let p := fun (k : Nat) (x : Nat × Nat) => ecMul (k % ecN) (x.1, x.2, 1) 384 (1, 1, 0)
   match ecX (ecAdd (p (e * w) ecG) (p (r * w) q)) with
    | some x => x % ecN == r
    | none => false)

end Sys2Proof.Machine
end

