-- ==== Sys2Proof/Machine/Boot.lean ====
section
/-! DEFINITION. From BISQUE to GLAZING, GO and staging (chapter 4). -/

namespace Sys2Proof.Machine

/-! ## Self-test (R87, R104) -/

/-- The last reset was a cold reset or the auxiliary power-on: no device-reset record lies above it. -/
def coldBoot (s : State) : Bool := match s.records with
  | r :: _ => r.cause == 6
  | [] => true

/-- A failing item of Table: Self-test; what the table does not test fails nothing. -/
def selfTestFail (s : State) (f : TestFail) : State :=
  match f.unit with
  | .engine _ => raise f.unit 0x24 f.info.toNat s
  | .hub _ => raise f.unit 0x24 f.info.toNat s
  | .memory _ => raise f.unit 0x24 f.info.toNat s
  | .home => raise f.unit 0x65 f.info.toNat s
  | .lineStore => raise f.unit 0x65 f.info.toNat s
  | _ => s

def execSelfTest (ls : List Lane) (fails : List TestFail) (s : State) : Out :=
  if !(Instr.selfTest ls fails).wf then .refused .noSuchUnit
  else if !(powered s && s.boot == .bisque && !s.selfTested) then .next s
  else
    let s := if coldBoot s then
        ls.foldl (fun s l => laneFail l s) { s with fenced := [], degraded := false, detours := [], lanes := [], ports := [] }
      else s
    let s := fails.foldl selfTestFail s
    .next { s with selfTested := true, board := { s.board with hostDriven := true } }

/-! ## Image checks (R99 to R103) -/

def imgField (i : Image) (at_ n : Nat) : Nat := leNat ((i.header.drop at_).take n)
def imgLen (i : Image) : Nat := imgField i 0x10 4
/-- Every reserved byte of the header is 0. -/
def imgReserved (i : Image) : Bool :=
  [(0x006, 2), (0x014, 12), (0x081, 255), (0x1E0, 32)].all fun r => imgField i r.1 r.2 == 0
/-- PUBKEY is one of the keys whose digest is fused and not revoked. -/
def keyOk (fs : Fuses) (i : Image) : Bool :=
  let d := sha384 ((i.header.drop 0x20).take 97)
  (List.range 4).any fun n => fs.keyDigests[n]? == some d && fs.keyIntact.getD n false
/-- SIG verifies over the signed part of the header and the body; PUBKEY is 0x04, X and Y. -/
def sigOk (i : Image) : Bool :=
  let be := fun (at_ : Nat) => beNat ((i.header.drop at_).take 48)
  imgField i 0x20 1 == 4 &&
    ecdsaOk (be 0x21, be 0x51) (be 0x180) (be 0x1B0) (sha384 (i.header.take 0x180 ++ i.body)).toNat
/-- The checks of R101. -/
def imageOk (s : State) (i : Image) : Bool :=
  i.header.length == 512 && imgField i 0 4 == 0x54314B46 && imgField i 4 2 == 1 && imgReserved i &&
  decide (1 ≤ imgLen i && imgLen i ≤ 8388096 && i.body.length = imgLen i) &&
  keyOk s.fuses i && decide (s.fuses.minSvn ≤ imgField i 0x0C 4) && sigOk i

/-- The slot that BOOT_SRC selects. -/
def firstSlot (s : State) : Fin 2 := if s.board.bootSrc then 1 else 0
def otherSlot (n : Fin 2) : Fin 2 := if n = 0 then 1 else 0
/-- The slot that the boot ROM tries next. -/
def nextSlot (s : State) : Option (Fin 2) :=
  if s.bootSlot.isSome then none
  else match s.rejected with
    | [] => some (firstSlot s)
    | [_] => some (otherSlot (firstSlot s))
    | _ => none

def execImageCheck (slot : Fin 2) (img : Image) (s : State) : Out :=
  .next (if !(powered s && s.boot == .bisque && s.selfTested && nextSlot s == some slot) then s
    else if imageOk s img then
      let s := { s with bootSlot := some slot, fwVer := BitVec.ofNat 32 (imgField img 0x08 4), fwBody := img.body }
      if s.rejected.isEmpty then s
      else report .bootRom 0x02 (firstSlot s).val none none { s with bootErr := .slotFallback }
    else
      let s := { s with rejected := s.rejected ++ [slot] }
      if s.rejected.length < 2 then s else raise .bootRom 0x62 0 { s with bootErr := .noImage })

/-! ## The vendor recipe image (R407, R408) -/

/-- A field of n bytes of the body. -/
def bodyField (b : List Byte) (at_ n : Nat) : Nat := leNat ((b.drop at_).take n)
/-- An entry of the section table: TYPE, OFFSET, LENGTH, and whether its reserved bytes are 0. -/
structure Section where
  type : Nat
  offset : Nat
  length : Nat
  reservedZero : Bool
  deriving DecidableEq, Repr
def sections (b : List Byte) : List Section :=
  (List.range 8).map fun i =>
    {
      type := bodyField b (16 * i) 4, offset := bodyField b (16 * i + 4) 4, length := bodyField b (16 * i + 8) 4,
      reservedZero := bodyField b (16 * i + 12) 4 == 0 }
def sectionsOf (b : List Byte) (type : Nat) : List Section := (sections b).filter fun x => x.type == type
/-- The bytes of a section that lies within the body. -/
def sectionBytes (b : List Byte) (x : Section) : List Byte :=
  if x.offset + x.length ≤ b.length then (b.drop x.offset).take x.length else []
/-- The vendor recipe image: the TYPE 2 section. -/
def vendorBytes (b : List Byte) : List Byte := ((sectionsOf b 2).head?.map (sectionBytes b)).getD []
def vendorCount (v : List Byte) : Nat := bodyField v 8 4
def vendorWords (v : List Byte) : List (BitVec 192) :=
  (List.range (vendorCount v)).map fun i => BitVec.ofNat 192 (bodyField v (0x40 + 24 * i) 24)
/-- The section table and the vendor recipe image are well formed (R407). -/
def vendorOk (b : List Byte) : Bool :=
  let v := vendorBytes b
  decide (128 ≤ b.length) && (sectionsOf b 1).length == 1 && (sectionsOf b 2).length == 1 &&
  (sectionsOf b 1 ++ sectionsOf b 2).all (fun x => x.reservedZero) &&
  bodyField v 0 4 == 0x52435031 && bodyField v 4 2 == 1 && bodyField v 6 2 == 0 && bodyField v 0x14 44 == 0 &&
  decide (1 ≤ vendorCount v && vendorCount v ≤ 3072 && 0x40 + 24 * vendorCount v ≤ v.length) &&
  crc32c ((v.drop 0x40).take (24 * vendorCount v)) == bodyField v 0x10 4

/-- Device firmware of the slot that was taken loads the vendor recipe image of its body. -/
def execVendorImageLoad (slot : Fin 2) (s : State) : Out :=
  .next (if !(powered s && s.boot == .bisque && s.selfTested && s.bootSlot == some slot) then s
    else
      let v := vendorBytes s.fwBody
      if vendorOk s.fwBody then
        { s with vendor := vendorWords v, vendorId := BitVec.ofNat 32 (bodyField v 0x0C 4), vendorSt := 1, boot := .glazing }
      else raise .mgmt 0x66 0 { s with vendorSt := 2 })

/-! ## GO (R107 to R109, R119, R126, R641) -/

/-- The fields that a write of GEN_BOOT_CTL sets beside its command bits; ADOPT is of class S. -/
def bootCtlFields (w : U64) (s : State) : State :=
  let s := if s.boot = .glazing then fset .bootAdopt 0 (bits w.toNat 1 1) s else s
  fset .stageOffset 0 (bits w.toNat 21 27) s

def fillMemory (s : State) : State :=
  let s := if adoptable s then updRec0 (fun r => { r with valid := 3 }) s else s
  { s with mem := [], poison := [], going := some false, board := { s.board with selfRefresh := false } }

/-- Table: Adoption outcome (R119, R129). -/
def adopt (s : State) : State :=
  match s.records with
  | r :: _ =>
    if !adoptable s then { s with bootErr := .notRetained }
    else if r.layoutCrc ≠ layoutCrc s || r.fencedKiln ≠ fencedKilns s then { s with bootErr := .layoutMismatch }
    else
      let s := updRec0 (fun r => { r with valid := 2 }) s
      { s with going := some true, board := { s.board with selfRefresh := false } }
  | [] => { s with bootErr := .notRetained }

/-- GO in GLAZING, with the ADOPT of its own write. -/
def goNow (s : State) : State :=
  if !(powered s && s.boot == .glazing && s.going.isNone) then s
  else if fget s .bootAdopt = 1 then adopt s else fillMemory s

def execGo (fn : Vi) (w : U64) (s : State) : Out :=
  .next (if fn ≠ vi0 || !answers s fn || !powered s || !(s.boot == .glazing || s.boot == .fired) then s
    else
      let s := bootCtlFields w s
      if bitAt w.toNat 2 then warmReset s else if bitAt w.toNat 0 then goNow s else s)

/-! ## Staging (R121 to R125) -/

def staging (s : State) : Bool := s.stage == .checking || s.stage == .saving || s.stage == .writing

/-- STAGE = 1 in FIRED: device firmware begins to check the staged image. -/
def stageNow (s : State) : State :=
  if !running s || staging s then s else { s with stage := .checking, stageTries := 0, stageAt := fget s .stageOffset }

/-- The image that COPY has put into PF0's device allotment at STAGE_OFFSET; none where it runs past the allotment, into a
hole, or over poison (DEDUCED, log 25). -/
def stagedImage (s : State) : Option Image :=
  let off := s.stageAt * 2 ^ 21
  let part := fun (o n : Nat) =>
    if off + o + n ≤ fget s .allotDevSize 0 * 2 ^ 21 then
      let a := fget s .allotDevBase 0 * 2 ^ 21 + off + o
      if anyHole s a n || anyPoison s a n then none else some (readBytes s a n)
    else none
  match part 0 512 with
  | none => none
  | some h => (part 512 (min 8388096 (leNat ((h.drop 0x10).take 4)))).map fun b => { header := h, body := b }
/-- CHECKING ends: the checks of R101, then the copy of the running image (R121, R125). -/
def stageCheck (s : State) : State :=
  if !running s || s.stage != .checking then s
  else match stagedImage s with
    | some i => if imageOk s i then { s with stage := .saving } else { s with stage := .failed, bootErr := .stageBad }
    | none => { s with stage := .failed, bootErr := .stageBad }

/-- What GEN_BOOT_CTL is written with by a write of w: of its low half alone, the upper part of STAGE_OFFSET stands. -/
def bootCtlWord (w : U64) (low : Bool) (s : State) : U64 :=
  if low then BitVec.ofNat 64 (w.toNat % 2 ^ 32 + fget s .stageOffset / 2 ^ 11 * 2 ^ 32) else w
def execStage (fn : Vi) (w : U64) (low : Bool) (s : State) : Out :=
  .next (if fn ≠ vi0 || !answers s fn || !running s then s
    else
      let s := bootCtlFields (bootCtlWord w low s) s
      if bitAt w.toNat 2 then warmReset s else if bitAt w.toNat 3 then stageNow s else s)

/-- A sector of the slot being written ends; it is repeated up to 3 times before staging fails (R125). -/
def execStageSectorDone (ok last : Bool) (sector : BitVec 24) (s : State) : Out :=
  .next (if !(running s && (s.stage == .saving || s.stage == .writing)) then s
    else
      let slot := if s.stage = .saving then otherSlot (firstSlot s) else firstSlot s
      if ok then
        let s := { s with stageTries := 0 }
        if !last then s
        else emit (.spiCopy slot) { s with stage := if s.stage = .saving then .writing else .done }
      else if s.stageTries < 3 then { s with stageTries := s.stageTries + 1 }
      else report .spi 0x0F (slot.val + 256 * sector.toNat) none none { s with stage := .failed, bootErr := .stageFlash })

end Sys2Proof.Machine
end

