-- ==== Sys2Proof/Machine/HostPort.lean ====
section
/-! DEFINITION. Host ports, configuration space, power states, MSI-X and the SMBus target (chapters 2 and 5). -/

namespace Sys2Proof.Machine

/-- Registers of the BARs act: GLAZING or FIRED, and no reset (R96). -/
def barsLive (s : State) : Bool := powered s && s.boot != .bisque

/-! ## Links (R130, R131, R162) -/

/-- Port 0 decides anew at each link-up whether it runs CXL: both protocols, x4 or more, 8 GT/s or more. -/
def portMode (s : State) (width speed : Nat) (cxl : Bool) : Port0Mode :=
  if !s.board.hp0Mode then .pcie else if cxl && width ≥ 4 && speed ≥ 3 then .cxl else .cxlFallback

/-- The port's PERST is asserted. -/
def perst (s : State) (p : HPort) : Bool := if p = 1 then s.board.perst1 else s.board.perst0
def execHostLinkUp (p : HPort) (width speed : Nat) (cxl : Bool) (s : State) : Out :=
  if !(Instr.hostLinkUp p width speed cxl).wf then .refused .noSuchUnit
  else if !(s.board.pwrgood && s.resetting.isNone) || (getHp s p).dlUp || perst s p then .next s
  else
    -- the lanes are driven from boot step 3, before which no link trains (R59)
    let s := updBoard (fun b => { b with hostDriven := true }) s
    if p = 1 then .next (updHp 1 (fun _ => { dlUp := true, speed := speed, width := width }) s)
    else
    let m := portMode s width speed cxl
    let s := { updHp 0 (fun _ => { dlUp := true, speed := speed, width := width, cxl := m == .cxl }) s with port0 := m }
    .next (if m = .cxlFallback then report (.hostPort 0) 0x03 0 none none s else s)

/-- VIs of a port that hold pending messages. -/
def flushPort (p : HPort) (s : State) : State :=
  if s.boot = .safe then s else
  (s.fns.filter fun q => q.1 / 1024 == p.val).foldl (fun s q => flushVec ⟨q.1 % 2048, by omega⟩ s) s

/-- A pass through Recovery: traffic of the port waits, and it is no loss. -/
def execLinkRecovery (p : HPort) (back : Bool) (s : State) : Out :=
  .next (if !(getHp s p).dlUp then s
    else
      let s := updHp p (fun x => { x with recovering := !back }) s
      if back then flushPort p s else s)

/-! ## Enables and power states (R160, R161, R669) -/

def execBusMasterDisable (v : Vi) (s : State) : Out :=
  .next (if viExists s v then updFn v (fun x => { x with busMaster := false }) s else s)
def execD3hotEntry (pf : HPort) (s : State) : Out :=
  .next (if s.board.pwrgood && s.resetting.isNone then updPf pf (fun x => { x with d3hot := true }) s else s)

/-- A poisoned write is ignored and logged as advisory, on the PF for a VF (R138, R139). -/
def execHostPoisonedWrite (v : Vi) (s : State) : Out :=
  .next (if s.board.pwrgood && s.resetting.isNone then
    emit (.aerAdvisory (pfVi (portOf v))) { s with advisories := s.advisories + 1 }
  else s)

/-! ## MSI-X (R157 to R159) -/

def execMsixUnmask (v : Vi) (n : Fin 4) (s : State) : Out :=
  .next (if barsLive s && answers s v then
    flushVec v (updFn v (fun x => { x with msix := mupd {} x.msix n.val fun e => { e with masked := false } }) s)
  else s)

def execHoldoffExpiry (v : Vi) (s : State) : Out :=
  .next (if !barsLive s || !(getFn s v).holdoff then s
    else
      let due := (getFn s v).holdPending
      let s := updFn v (fun x => { x with holdoff := false, holdPending := false }) s
      if due then raiseVec v vecCompletion s else s)

/-! ## SMBus (R50, R97) -/

def execSmbusRead (cmd : Byte) (s : State) : Out :=
  .next (if s.board.vddAux then emit (.smbus (some (Config.smbusByte cmd s.freeCtr))) (tick s) else s)
def execSmbusWrite (_cmd : Byte) (_data : List Byte) (s : State) : Out :=
  .next (if s.board.vddAux then emit (.smbus none) s else s)

end Sys2Proof.Machine
end

