-- ==== Sys2Proof/Machine/Collector.lean ====
section
/-! DEFINITION. The fault collector, the kiln log, FAULT_N, the heartbeat and the safe state (chapter 16). -/

namespace Sys2Proof.Machine

/-! ## Sequence numbers (R535) -/

def above (a b : BitVec 32) : Bool := decide (1 ≤ (a - b).toNat) && decide ((a - b).toNat < 2 ^ 31)
/-- The next sequence number: 0 is never assigned. -/
def nextSeq (a : BitVec 32) : BitVec 32 := if a + 1 = 0 then 1 else a + 1
def uncleared (f : Flt) (q : BitVec 32) : Bool := above q f.cleared

/-! ## NOTICE with its least gap (R539, FLT_CTL.NOTICE_MIN_US) -/

def faultNotice (s : State) : State :=
  if s.flt.noticeGap then updFlt (fun f => { f with noticeDue := true }) s
  else notice (updFlt (fun f => { f with noticeGap := fget s .noticeMinUs != 0 }) s)

/-! ## Recording (R534, R537 to R544) -/

def classOf (r : Raised) : Nat := causeClass r.cause
/-- Descending class, then ascending source. -/
def before (a b : Raised) : Bool := classOf a > classOf b || (classOf a == classOf b && a.src ≤ b.src)
def insertRaised (r : Raised) : List Raised → List Raised
  | [] => [r]
  | x :: t => if before r x then r :: x :: t else x :: insertRaised r t
def sortRaised (l : List Raised) : List Raised := l.foldr insertRaised []

def newRec (s : State) (r : Raised) (q : BitVec 32) (freeze : Bool) : LogRec :=
  {
    seq := q, src := r.src, cause := r.cause, freeze := freeze, sec := s.rtc.sec, sub := s.rtc.sub, gen := s.generation,
    vi := r.vi, part := r.part, info := r.info }

/-- The index of the lowest sequence number among the records that a test admits. -/
def oldest (log : SMap LogRec) (p : LogRec → Bool) : Option Nat :=
  (log.filter fun x => p x.2).foldl (fun a x => match a with
    | none => some x.1
    | some i => if above (mget {} log i).seq x.2.seq then some x.1 else some i) none

/-- The index of the newest record. -/
def newestAt (log : SMap LogRec) : Option Nat :=
  log.foldl (fun a x => match a with
    | none => some x.1
    | some i => if above x.2.seq (mget {} log i).seq then some x.1 else some i) none

/-- The newest record takes a repeat instead of a new record (R538). -/
def mergesAt (s : State) (r : Raised) : Option Nat :=
  (newestAt s.flt.log).filter fun i =>
    let x := mget {} s.flt.log i
    classOf r == 0 && x.src == r.src && x.cause == r.cause && uncleared s.flt x.seq && decide (x.repeats < 255) && !x.damaged
/-- The index of a record that a class 3 fault replaces while the log is frozen: one never written, then the oldest that
is not class 3, then the oldest (R543). -/
def victimAt (log : SMap LogRec) : Nat :=
  match (List.range 16).find? fun i => (mget {} log i).seq == 0 with
  | some i => i
  | none => (oldest log fun x => causeClass x.cause != 3).getD ((oldest log fun _ => true).getD 0)

/-- Take one fault; `first` says that no class 3 fault of this cycle has been recorded before it. -/
def takeFault (s : State) (first : Bool) (r : Raised) : State :=
  let c := classOf r
  if c = 0 && bitAt (fget s .fltMask) r.cause then fcount .masked 0 16 1 s
  else if !s.flt.frozen && (mergesAt s r).isSome then
    updFlt (fun f => { f with log := mupd {} f.log ((mergesAt s r).getD 0) fun x => { x with repeats := x.repeats + 1 } }) s
  else
    let q := nextSeq s.flt.newest
    let s := updFlt (fun f => { f with newest := q, pins := f.pins ++ [(q, c)] }) s
    if s.flt.frozen && c < 3 then fcount .missed 0 16 1 s
    else
      let at_ := if !s.flt.frozen then q.toNat % 16 else victimAt s.flt.log
      let s := updFlt (fun f => { f with log := mset {} f.log at_ (newRec s r q (c == 3 && first && !f.frozen)) }) s
      if bitAt (fget s .fltNotice) c then faultNotice s else s

def takeAll : List Raised → Bool → State → State
  | [], _, s => s
  | r :: t, first, s => takeAll t (first && classOf r != 3) (takeFault s first r)

/-- One 40 ns cycle: every pending fault is taken, and the log freezes at its end if it held a class 3 fault. -/
def collect40 (s : State) : State :=
  let l := sortRaised s.flt.raised
  let s := takeAll l true (updFlt (fun f => { f with raised := [] }) s)
  if l.any fun r => classOf r == 3 then updFlt (fun f => { f with frozen := true }) s else s

/-- The collector runs with the always-on island. -/
def collectorOn (s : State) : Bool := s.board.vddAux && !s.stopped.contains .aon

/-- A damaged record keeps SEQ alone (R567). -/
def damage (x : LogRec) : LogRec := { seq := x.seq, damaged := true }

def execCollectorCycle (up : Option Upset) (s : State) : Out :=
  .next (if !collectorOn s then s else match up with
    | none => collect40 s
    | some .handshake =>
      collect40 (latchSafe (report .aon 0x68 0 none none (updFlt (fun f => { f with collErr := true }) s)))
    | some .control => latchSafe (updFlt (fun f => { f with collErr := true, frozen := true }) s)
    | some .logCorrected => collect40 (fcount .selfCorr 0 16 1 s)
    | some (.logDamaged i) => collect40 (updFlt (fun f => { f with log := mupd {} f.log i.val damage }) s))

/-! ## Clearing (R545 to R549) -/

def clearSeq (v : BitVec 32) (s : State) : State :=
  if above v s.flt.cleared then
    updFlt (fun f => { f with cleared := if above v f.newest then f.newest else v }) s
  else s
def unfreezeLog (s : State) : State := updFlt (fun f => { f with frozen := false, collErr := false }) s

def execFltClearSeq (v : BitVec 32) (s : State) : Out := .next (if barsLive s && answers s vi0 then clearSeq v s else s)
def execUnfreeze (s : State) : Out := .next (if barsLive s && answers s vi0 then unfreezeLog s else s)

/-- FLT_FIRST: index, VALID, FIRST_LOST (R536, R548). -/
def fltFirst (f : Flt) : Nat × Bool × Bool :=
  if !above f.newest f.cleared then (0, false, false)
  else match f.log.find? fun x => x.2.seq == nextSeq f.cleared with
    | some x => (x.1, true, false)
    | none => ((oldest f.log fun _ => true).getD 0, true, true)

/-- FAULT_N is asserted (R554, R563, R59). -/
def faultPin (s : State) : Bool :=
  s.flt.hbRunning &&
    (s.boot == .safe || s.flt.pins.any fun p => uncleared s.flt p.1 && decide (fget s .pinThreshold ≤ p.2))
/-- Classes of uncleared faults in the pin set (FLT_SUMMARY.PEND). -/
def pendClasses (f : Flt) : Nat :=
  (List.range 4).foldl (fun a c => if f.pins.any (fun p => uncleared f p.1 && p.2 == c) then a + 2 ^ c else a) 0

def execNoticeGapEnd (s : State) : Out :=
  .next (if !s.flt.noticeGap then s
    else if s.flt.noticeDue then notice (updFlt (fun f => { f with noticeDue := false }) s)
    else updFlt (fun f => { f with noticeGap := false }) s)

/-! ## Fences (R550, R666) -/

def execUnitFence (u : FUnit) (s : State) : Out :=
  if !(Instr.unitFence u).wf then .refused .noSuchUnit else .next (if powered s then fence u s else s)

/-! ## The heartbeat (R557 to R560) -/

/-- The first heartbeat also ends the idleness of the fabric lanes of a device in FIRED (R59). -/
def execHeartbeatStrobe (s : State) : Out :=
  .next (if !powered s || s.stopped.contains .mgmt then s
    else if s.flt.hbRunning then updFlt (fun f => { f with hbStrobed := true }) s
    else updFlt (fun f => { f with
      hbRunning := true, hbStrobed := true, hbMisses := 0, hbWindow := 1, hbPeriod := fget s .pinPeriod })
      (updBoard (fun b => { b with serdesIdle := b.serdesIdle && s.boot != .fired }) s))

def execAliveHalfWindow (s : State) : Out :=
  .next (if powered s && s.flt.hbRunning && !s.flt.hbLost then updBoard (fun b => { b with alive := !b.alive }) s else s)

def execHeartbeatWindowEnd (s : State) : Out :=
  .next (if !(powered s && s.flt.hbRunning) then s
    else
      let w := s.flt.hbWindow
      let miss := !s.flt.hbStrobed
      let n := if miss then s.flt.hbMisses + 1 else 0
      let s := updFlt (fun f => { f with
        hbStrobed := false, hbMisses := n, hbWindow := w + 1, hbPeriod := fget s .pinPeriod }) s
      let s := if miss then report .mgmt 0x0E w none none s else s
      if n ≥ 2 then
        updBoard (fun b => { b with alive := false }) (raise .mgmt 0x67 0 (updFlt (fun f => { f with hbLost := true }) s))
      else s)

/-! ## The safe state (R561 to R565) -/

/-- Engines stop with their store buffers discarded (Table: Units in SAFE). -/
def haltEng (x : EngSt) : EngSt := { x with sb := [], tbOut := [], clk := 0, want := 0 }
/-- AER fatal on PF0 and PF1 while their links are up (R139). -/
def aerFatal (s : State) : State :=
  [(0 : HPort), 1].foldl (fun s p => if (getHp s p).dlUp then emit (.aer (pfVi p) true) s else s) s
/-- Code 0 to each kiln regulator. -/
def railsOff (s : State) : State :=
  kilns.foldl (fun s k => emit (.vset k 0) (updRail k (fun r => { r with code := 0, pend := none }) s)) s

/-- Steps 1 to 6 of Table: SAFE entry steps, once. -/
def execSafeEntry (s : State) : Out :=
  .next (if !(s.board.pwrgood && s.boot == .safe && !s.flt.safeStepsDone) then s
    else
      let s := updFlt (fun f => { f with safeStepsDone := true }) s
      let s := { s with
        board := { s.board with alive := false, serdesIdle := true, selfRefresh := true },
        engs := s.engs.map fun p => (p.1, haltEng p.2), gathers := [], hl := [], hret := [], hblocks := [], dir := [], aged := [], waitq := [], mesh := [], wires := [] }
      let s := if (getHp s 0).cxl && !s.viralTx then emit .viral { s with viralTx := true } else s
      railsOff (writeRec .safe (aerFatal s)))

end Sys2Proof.Machine
end

