-- ==== Sys2Proof/Machine/Clock.lean ====
section
/-! DEFINITION. The calendar clock (chapter 17). -/

namespace Sys2Proof.Machine

/-! ## Ticks (R570, R576, R578) -/

/-- TRIM in 0.5 ppm steps. -/
def trimOf (s : State) : Int := signed (fget s .trim) 11
def whole : Int := 2000000
/-- How far one tick advances subseconds, and the accumulator after it. -/
def tickAdvance (acc : Int) : Nat × Int :=
  if whole ≤ acc then (2, acc - whole) else if acc ≤ -whole then (0, acc + whole) else (1, acc)
def advanceRtc (r : Rtc) (n : Nat) : Rtc :=
  if r.sub + n < 32768 then { r with sub := r.sub + n }
  else { r with sub := r.sub + n - 32768, sec := (r.sec + 1) % 2 ^ 48 }

/-- One tick: a staged set lands whole; otherwise trim and advance. -/
def tickRtc (trim : Int) (r : Rtc) : Rtc :=
  match r.staged with
  | some (sec, sub) => { r with sec := sec, sub := sub, staged := none }
  | none =>
    let x := tickAdvance (r.acc + trim)
    advanceRtc { r with acc := x.2 } x.1

def execRtcTick (s : State) : Out :=
  .next (if s.rtc.running then updRtc (tickRtc (trimOf s)) s else s)

/-- No tick for 1 ms (R582). -/
def execOscStopped (s : State) : Out := .next (fset .oscStopped 0 1 s)

/-! ## VBAT (R583) -/

def sampleVbat (mv : Nat) (s : State) : State :=
  let s := updBoard (fun b => { b with vbatOk := decide (2000 ≤ mv && mv ≤ 3600) }) s
  if mv < 2000 then fset .vbatLow 0 1 s else s
def execVbatSample (mv : Nat) (s : State) : Out := .next (if s.board.vddAux then sampleVbat mv s else s)
/-- Step 3 of the power-up sequence: the first sample. -/
def execInternalResetRelease (vbatMv : Nat) (s : State) : Out := .next (if s.board.vddAux then sampleVbat vbatMv s else s)

/-! ## Reading and setting (R573 to R577, R619) -/

/-- The host can read registers. -/
def readable (s : State) : Bool := s.board.pwrgood && s.resetting.isNone

/-- A read that covers byte 0 latches the snapshot; a read of the upper half returns 0. -/
def execRtcSubsecRead (upperOnly : Bool) (s : State) : Out :=
  .next (if !(readable s && answers s vi0) then s
    else if upperOnly then emit (.regRead 0) s
    else
      let s := snapNow s
      emit (.regRead s.rtc.snapSub) s)

def stageSet (s : State) : State :=
  if s.rtc.staged.isSome then s
  else updRtc (fun r => { r with staged := some (fget s .setSecLo + 2 ^ 32 * fget s .setSecHi, fget s .setSub) }) s
def execRtcSet (s : State) : Out := .next (if barsLive s && answers s vi0 then stageSet s else s)

/-! ## The calendar view (R572) -/

def leap (y : Nat) : Bool := y % 4 == 0 && (y % 100 != 0 || y % 400 == 0)
def yearDays (y : Nat) : Nat := if leap y then 366 else 365
def monthDays (y m : Nat) : Nat :=
  if m = 2 then (if leap y then 29 else 28) else if [4, 6, 9, 11].contains m then 30 else 31
/-- The year since 2000 and the day in it, from days since 2000-01-01. -/
def yearOf : Nat → Nat → Nat → Nat × Nat
  | 0, y, d => (y, d)
  | n + 1, y, d => if d < yearDays (2000 + y) then (y, d) else yearOf n (y + 1) (d - yearDays (2000 + y))
def monthOf : Nat → Nat → Nat → Nat → Nat × Nat
  | 0, _, m, d => (m, d)
  | n + 1, y, m, d => if d < monthDays y m then (m, d) else monthOf n y (m + 1) (d - monthDays y m)

/-- RTC_CAL of a number of seconds (Table: RTC_CAL fields). -/
def calendar (sec : Nat) : Nat :=
  if !(946684800 ≤ sec && sec < 7258118400) then 0 else
  let days := sec / 86400
  let (y, yd) := yearOf 200 0 (days - 10957)
  let (m, d) := monthOf 12 (2000 + y) 1 yd
  let t := sec % 86400
  y + m * 2 ^ 8 + (d + 1) * 2 ^ 12 + t / 3600 * 2 ^ 17 + t % 3600 / 60 * 2 ^ 22 + t % 60 * 2 ^ 28 +
    (days + 4) % 7 * 2 ^ 34 + (yd + 1) * 2 ^ 37 + 2 ^ 63

end Sys2Proof.Machine
end

