-- ==== Sys2Proof/Machine/Counters.lean ====
section
/-! DEFINITION. Event counters, windows and shadows (chapter 17). -/

namespace Sys2Proof.Machine

/-! ## Placement and selection (R584 to R587) -/

inductive DieKind where
  | kiln | flue | link
  deriving DecidableEq, Repr

def kindOf (c : Ctr) : DieKind := if c.val < 256 then .kiln else if c.val < 320 then .flue else .link
/-- The counter's island is in service (R596). -/
def ctrIn (s : State) (c : Ctr) : Bool :=
  if h : c.val < 256 then !kilnFenced s ⟨c.val / 16, by omega⟩
  else if h : c.val < 320 then !collFenced s ⟨(c.val - 256) / 16, by omega⟩
  else true

/-- The island in whose cycles a counter counts (R584, R588). -/
def ctrIsle (c : Ctr) : Island :=
  if h : c.val < 256 then .hub ⟨c.val / 16, by omega⟩
  else if h : c.val < 320 then .coll ⟨(c.val - 256) / 16, by omega⟩
  else .ring

/-- Table: Event catalog: the units that ALL = 0 may name; none when the code is not counted on that die kind. -/
def catalog (k : DieKind) (code : Nat) : Option Nat :=
  if code ≤ 1 then some 0
  else match k with
    | .kiln =>
      if code ≤ 0x0B then some 16
      else if 0x10 ≤ code && code ≤ 0x13 then some 0
      else if code = 0x14 then some 2
      else if code = 0x18 || code = 0x19 then some 8
      else if code = 0x1B || code = 0x1C then some 4
      else none
    | .flue =>
      if (0x20 ≤ code && code ≤ 0x28) || code = 0x2A then some 8
      else if 0x2C ≤ code && code ≤ 0x2E then some 0
      else none
    | .link =>
      if [0x30, 0x31, 0x36, 0x37, 0x39, 0x3A].contains code then some 2
      else if [0x32, 0x33, 0x34, 0x38, 0x3C].contains code then some 0
      else none

/-- SOURCE and ALL form no reserved encoding (R586). -/
def sourceOk (c : Ctr) (event unit all : Nat) : Bool :=
  match catalog (kindOf c) event with
  | none => false
  | some n => all == 1 || decide (unit < n)

/-- A counter counts an event of a unit. -/
def selects (s : State) (c : Ctr) (event unit : Nat) : Bool :=
  fget s .cntEnable c.val == 1 && fget s .cntEvent c.val == event && event != 0 &&
    (catalog (kindOf c) event).isSome && (fget s .cntAll c.val == 1 || fget s .cntUnit c.val == unit)

/-! ## Counting (R588, R591) -/

/-- A count of n more, with the overflow flag of its mode. -/
def countUp (saturate : Bool) (x : CtrSt) (n : Nat) : CtrSt :=
  if x.val + n < 2 ^ 48 then { x with val := x.val + n }
  else { x with val := if saturate then 2 ^ 48 - 1 else (x.val + n) % 2 ^ 48, ovf := true }

def countEvent (c : Ctr) (n : Nat) (s : State) : State :=
  let was := (getCtr s c).ovf
  let s := updCtr c (fun x => countUp (fget s .cntMode c.val == 1) x n) s
  if (getCtr s c).ovf && !was && fget s .cntOvfIrq c.val = 1 && fget s .ovfNotice = 1 then notice s else s

def execCounterEvent (c : Ctr) (event : BitVec 6) (unit : BitVec 4) (n : Nat) (s : State) : Out :=
  .next (if powered s && ctrIn s c && islandRuns s (ctrIsle c) && selects s c event.toNat unit.toNat then countEvent c n s else s)

/-! ## Windows and shadows (R592 to R596) -/

def shadowKey (b n : Nat) : Nat := b * 352 + n
/-- The value and flag of a counter in the format of R275. -/
def snapWord (x : CtrSt) : Nat := x.val + b2n x.ovf * 2 ^ 48
/-- A counter reads 0 while its island is out of service. -/
def ctrWord (s : State) (c : Ctr) : Nat := if ctrIn s c then snapWord (getCtr s c) else 0
def putShadow (k : Nat) (c : Ctr) (s : State) : State :=
  { s with shadowBank := mset 0 s.shadowBank (shadowKey (k % 2) c.val) (ctrWord s c) }

/-- The end of the open window at one counter. -/
def execCounterWindowEnd (c : Ctr) (s : State) : Out :=
  .next (if !(powered s && s.win.running) || !islandRuns s (ctrIsle c) || s.win.wrote.contains c.val then s
    else
      let s := putShadow s.win.k c s
      let s := { s with win := { s.win with wrote := s.win.wrote ++ [c.val] } }
      if fget s .clearOnEnd = 1 then updCtr c (fun x => { x with val := 0, ovf := false }) s else s)

/-- Every counter in service has written its bank: SHADOW_SEQ takes the window's number (R595). -/
def execShadowSeqUpdate (s : State) : Out :=
  let all : List Ctr := List.finRange 352
  .next (if !(powered s && s.win.running) || !(all.all fun c => !ctrIn s c || s.win.wrote.contains c.val) then s
    else
      let s := (all.filter fun c => !ctrIn s c).foldl (fun s c => putShadow s.win.k c s) s
      let s := { s with win := { s.win with seq := s.win.k, k := s.win.k + 1, wrote := [] } }
      if fget s .winNotice = 1 then notice s else s)

/-- The generator starts or stops; LEN_M1 is taken only while ENABLE was 0 (R592, R640). -/
def windowSet (on : Bool) (len : Option Nat) (s : State) : State :=
  let was := fget s .winEnable == 1
  let s := match len with
    | some n => if was then s else fset .lenM1 0 n s
    | none => s
  let s := fset .winEnable 0 (b2n on) s
  if on && !was then { s with win := { s.win with running := true, k := 1, wrote := [] } }
  else if !on then { s with win := { s.win with running := false, wrote := [] } }
  else s

def execWindowEnable (on : Bool) (lenM1 : Option (BitVec 32)) (s : State) : Out :=
  .next (if barsLive s && answers s vi0 then windowSet on (lenM1.map BitVec.toNat) s else s)

/-! ## Reading and writing (R589, R590) -/

def readCtrLo (c : Ctr) (s : State) : State :=
  let x := if ctrIn s c then getCtr s c else {}
  updCtr c (fun y => { y with latch := x.val, latchOvf := x.ovf }) s
def execCntValLoRead (c : Ctr) (s : State) : Out :=
  .next (if !answers s vi0 then s else if barsLive s then
      let s := readCtrLo c s
      emit (.regRead ((getCtr s c).latch % 2 ^ 32)) s
    else if readable s then emit (.regRead 0) s else s)

def writeCtrLo (c : Ctr) (v : Nat) (s : State) : State :=
  if ctrIn s c then updCtr c (fun x => { x with val := x.hi * 2 ^ 32 + v % 2 ^ 32 }) s else s
def writeCtrHi (c : Ctr) (hi : Option Nat) (clear : Bool) (s : State) : State :=
  updCtr c (fun x => { x with hi := hi.getD x.hi, ovf := x.ovf && !clear }) s
def execCntValLoWrite (c : Ctr) (v : BitVec 32) (s : State) : Out :=
  .next (if barsLive s && answers s vi0 then writeCtrLo c v.toNat s else s)
def execCntValHiWrite (c : Ctr) (v : BitVec 32) (s : State) : Out :=
  .next (if barsLive s && answers s vi0 then writeCtrHi c (some (v.toNat % 2 ^ 16)) (bitAt v.toNat 16) s else s)

end Sys2Proof.Machine
end

