-- ==== Sys2Proof/Machine/Holders.lean ====
section
/-! DEFINITION. The holders of host lines: the sixteen slices and the link-die line store (chapter 6). -/

namespace Sys2Proof.Machine

/-- A holder acts: the home is on, its kiln die is in service, and its island runs. -/
def holderOn (s : State) (h : Holder) : Bool :=
  homeOn s && islandRuns s (holderIsle h) && (if hh : h.val < 16 then !kilnFenced s ⟨h.val, hh⟩ else true)
def setHl (h : Holder) (l : LineA) (x : HLine) (s : State) : State := updHl h l (fun _ => x) s

/-- A message of a holder as its arrival, with its class in the kiln mesh (Table: Internal messages). `d` is the data, the
dirty flag and the poison flag. -/
def holderMsg (h : Holder) (l : LineA) (msg : String) (age : Nat) (d : Block × Bool × Bool) : Option (MCls × Instr) :=
  let a : BitVec 4 := BitVec.ofNat 4 (min age 15)
  match msg with
  | "GetS" => some (.request, .gets h l a) | "GetM" => some (.request, .getm h l a)
  | "GetCur" => some (.request, .getcur h l a) | "PutS" => some (.request, .puts h l a d.1 d.2.2)
  | "PutO" => some (.request, .puto h l a d.1 d.2.2) | "PutM" => some (.request, .putm h l a d.1 d.2.2)
  | "DataResp" => some (.response, .dataresp h l d.1 d.2.1 d.2.2) | "InvAck" => some (.response, .invack h l)
  | "Done" => some (.response, .done h l)
  | _ => none
/-- A message to the home (R177): Puts and DataResp carry data, dirty flag and poison flag. -/
def sendHome (h : Holder) (l : LineA) (msg : String) (age : Nat) (d : Option (Block × Bool × Bool)) (s : State) : State :=
  match holderMsg h l msg age (d.getD (0, false, false)) with
  | some m => send (holderIsle h) .home m.1 m.2 (d.map Prod.fst) .other (emit (.toHome h l msg age d) s)
  | none => s

def stable : HSt → Bool
  | .s => true | .o => true | .m => true | _ => false
/-- A request or Put of the line is outstanding. -/
def busyLine (x : HLine) : Bool := (!stable x.st && x.st != .i) || (x.st == .i && !x.waits.isEmpty && !x.parked)
def dirtySt : HSt → Bool
  | .m => true | .o => true | .miA => true | .oiA => true | _ => false

/-! ## Watched lines (R208, R215 to R218) -/

def lineOff (s : State) (v : Vi) : LineKind → Nat
  | .doorbell => fget s .doorbell v.val * 128
  | .mailbox => fget s .mailbox v.val * 512
def lineAddr (s : State) (v : Vi) (k : LineKind) : Nat := hostBase s v + lineOff s v k
def isWatched (x : ViSt) : LineKind → Bool
  | .doorbell => x.dbWatched
  | .mailbox => x.mbWatched
def isReading (x : ViSt) : LineKind → Bool
  | .doorbell => x.dbReading
  | .mailbox => x.mbReading
def isPolled (x : ViSt) : LineKind → Bool
  | .doorbell => x.dbPolled
  | .mailbox => x.mbPolled
def setWatched (k : LineKind) (b : Bool) (x : ViSt) : ViSt :=
  match k with
  | .doorbell => { x with dbWatched := b }
  | .mailbox => { x with mbWatched := b }
def setReading (k : LineKind) (b : Bool) (x : ViSt) : ViSt :=
  match k with
  | .doorbell => { x with dbReading := b }
  | .mailbox => { x with mbReading := b }
def setWake (k : LineKind) (b : Bool) (x : ViSt) : ViSt :=
  match k with
  | .doorbell => { x with dbWake := b }
  | .mailbox => { x with mbWake := b }
def setPolled (k : LineKind) (b : Bool) (x : ViSt) : ViSt :=
  match k with
  | .doorbell => { x with dbPolled := b }
  | .mailbox => { x with mbPolled := b }
def kinds : List LineKind := [.doorbell, .mailbox]
/-- A read whose data is still on its way to the ring engine no longer leaves its line watched. -/
def loseCopy (l : LineA) (x : HRet) : HRet := match x.who with
  | .line _ _ => if x.h == 16 && x.line == l then { x with lost := true } else x
  | _ => x
/-- The link-die store loses its copy of a line: each VI that watches it is woken, and a read whose data is still on its way
to the ring engine does not leave the line watched (R217, R218). -/
def dropWatch (l : LineA) (s : State) : State :=
  let s := { s with hret := s.hret.map (loseCopy l) }
  (s.vis.filter fun p => p.1 < 1024).foldl (fun s p => kinds.foldl (fun s k =>
    let v := viNo p.1
    if isWatched p.2 k && lineOf (lineAddr s v k) == l then updVi v (fun x => setWake k true (setWatched k false x)) s
    else s) s) s
def storeLoses (h : Holder) (l : LineA) (s : State) : State := if h.val = 16 then dropWatch l s else s

/-! ## Sets and victims (R171, R190) -/

def setIndex (h : Holder) (l : Nat) : Nat := if h.val < 16 then l % 2048 else l % 256
/-- The lines of holder h in the set of a line. -/
def holderSet (s : State) (h : Holder) (l : LineA) : SMap HLine :=
  s.hl.filter fun p => p.1 % 32 == h.val && setIndex h (p.1 / 32) == setIndex h l.toNat
/-- Requests and Puts that the holder has outstanding on other lines. -/
def outstanding (s : State) (h : Holder) (l : LineA) : Nat :=
  (s.hl.filter fun p => p.1 % 32 == h.val && p.1 != hkey h l && busyLine p.2).length
def mayRequest (s : State) (h : Holder) (l : LineA) : Bool :=
  decide (outstanding s h l < (if h.val < 16 then 48 else 32))

def putName : HSt → String
  | .o => "PutO" | .m => "PutM" | _ => "PutS"
def putState : HSt → HSt
  | .o => .oiA | .m => .miA | _ => .siA
/-- A stable line leaves with the matching Put, as soon as one more may be outstanding (R190). -/
def evictLine (h : Holder) (l : LineA) (s : State) : State :=
  let x := getHl s h l
  if !stable x.st then s
  else if !mayRequest s h l then updHl h l (fun x => { x with leave := true }) s
  else
    let s := storeLoses h l (clearHostResv h l.toNat s)
    sendHome h l (putName x.st) 0 (some (x.data, dirtySt x.st, x.poison))
      (setHl h l { x with st := putState x.st, put := x.st, age := 0, leave := false } s)

/-- The least recently used stable line of a set that is not already to leave. -/
def victim (set : SMap HLine) : Option Nat :=
  ((set.filter fun p => stable p.2.st && !p.2.leave).foldl (fun a p => match a with
    | none => some p
    | some q => if p.2.lru < q.2.lru then some p else some q) none).map fun p => p.1 / 32
/-- A line on its way out of its set. -/
def leaving (x : HLine) : Bool :=
  x.leave || (match x.st with | .siA => true | .oiA => true | .miA => true | .iiA => true | _ => false)
/-- A way of the line's set is free (R171). -/
def hasRoom (s : State) (h : Holder) (l : LineA) : Bool :=
  decide (((holderSet s h l).filter fun p => p.2.st != .i).length < 16)
/-- The line's access waits for a way; unless one is already being freed for each that waits, a victim leaves. -/
def awaitRoom (h : Holder) (l : LineA) (s : State) : State :=
  let s := updHl h l (fun x => { x with parked := true }) s
  let set := holderSet s h l
  if (set.filter fun p => leaving p.2).length < (set.filter fun p => p.2.st == .i && p.2.parked).length then
    match victim set with
    | some v => evictLine h (BitVec.ofNat 46 v) s
    | none => s
  else s

/-! ## Waiting accesses -/

def mergeBytes (old new : Block) (mask : BitVec 64) : Block :=
  bytesBlock ((List.range 64).map fun i => if bitAt mask.toNat i then (blockBytes new).getD i 0 else (blockBytes old).getD i 0)

/-- Ask the home, once one more request may be outstanding (R190). -/
def request (h : Holder) (l : LineA) (msg : String) (st : HSt) (s : State) : State :=
  if mayRequest s h l then sendHome h l msg 0 none (updHl h l (fun x => { x with st := st, age := 0, parked := false }) s)
  else updHl h l (fun x => { x with parked := true }) s
/-- A request that takes a way of the set. -/
def place (h : Holder) (l : LineA) (msg : String) (st : HSt) (s : State) : State :=
  if hasRoom s h l then request h l msg st s else awaitRoom h l s

/-- A load has its data. -/
def loadEnds (h : Holder) (l : LineA) (w : Who) (data : Block) (poison kept : Bool) (s : State) : State :=
  let s := emit (.loadDone h l data poison) s
  if w = .other then s else returned { h := h, line := l, who := w, data := data, poison := poison, kept := kept } s
/-- The reservation of the STC that a store serves still holds (R367); any other store is performed in any case. -/
def stcHolds (s : State) : Who → Bool
  | .stc e r => ((eng s e).stcs.reverse.find? fun c => c.cxl && c.reg == r).any Stc.ok
  | _ => true
/-- A store is performed on a line in M. A store of no bytes is LDR's, and returns the line. -/
def storeDone (h : Holder) (l : LineA) (m : BitVec 64) (d : Block) (w : Who) (s : State) : State :=
  let x := getHl s h l
  let s := if m = 0 then s else clearHostResv h l.toNat s
  let s := updHl h l (fun x => { x with data := mergeBytes x.data d m, lru := s.lruCtr + 1 }) (bumpLru s)
  match w with
  | .ldr _ _ => returned { h := h, line := l, who := w, data := x.data, poison := x.poison, kept := true } s
  | .stc _ _ => returned { h := h, line := l, who := w, kept := true } s
  | _ => s

def popWait (h : Holder) (l : LineA) (s : State) : State := updHl h l (fun x => { x with waits := x.waits.tail }) s

/-- Serve the waiting accesses of a line that is stable or I (Table: Holder, local events). -/
def serveWaits (h : Holder) (l : LineA) : Nat → State → State
  | 0, s => s
  | n + 1, s =>
    let x := getHl s h l
    match x.waits with
    | [] => s
    | (w, who) :: t =>
      match w, x.st with
      | .load false, .i => place h l "GetS" .isD s
      | .load true, .i => request h l "GetCur" .i s
      | .load _, _ =>
        serveWaits h l n (loadEnds h l who x.data x.poison true
          (setHl h l { x with waits := t, lru := s.lruCtr + 1 } (bumpLru s)))
      | .store m d stream, st =>
        if !stcHolds s who then serveWaits h l n (returned { h := h, line := l, who := who } (popWait h l s))
        else match st with
          | .i => place h l "GetM" .imD s
          | .s => request h l "GetM" .smG s
          | .o => request h l "GetM" .omG s
          | .m =>
            let s := storeDone h l m d who (popWait h l s)
            if stream then evictLine h l s else serveWaits h l n s
          | _ => s
def goOn (h : Holder) (l : LineA) (s : State) : State :=
  if (getHl s h l).leave then s else serveWaits h l ((getHl s h l).waits.length + 1) s

/-- A line of the holder that could not go on before: its Put, or its request, may leave now. -/
def resumeOne (h : Holder) (s : State) (l : LineA) : State :=
  let x := getHl s h l
  if x.leave then evictLine h l s
  else if x.parked && mayRequest s h l && (x.st == .i || stable x.st) then goOn h l s
  else s
def resumeLine (h : Holder) (s : State) : State :=
  (s.hl.filter fun p => p.1 % 32 == h.val && (p.2.parked || p.2.leave)).foldl
    (fun s p => resumeOne h s (BitVec.ofNat 46 (p.1 / 32))) s

/-- A waiting access joins the line. -/
def waitOn (h : Holder) (l : LineA) (w : Wait) (who : Who) (s : State) : State :=
  updHl h l (fun x => { x with waits := x.waits ++ [(w, who)] }) s

/-- A local access: it hits, waits behind a transient line or an earlier access, or starts a request. -/
def access (h : Holder) (l : LineA) (w : Wait) (who : Who) (s : State) : State :=
  let x := getHl s h l
  let queue := waitOn h l w who s
  let hit := match w with
    | .load _ => loadEnds h l who x.data x.poison false s
    | .store _ _ _ => queue
  match x.st with
  | .i => if x.waits.isEmpty then goOn h l queue else queue
  | .s => goOn h l queue
  | .o => goOn h l queue
  | .m => goOn h l queue
  | .smG => hit
  | .omG => hit
  | _ => queue

/-! ## The commands: accesses -/

/-- A message reaches a holder: once it stands in its island's FIFO with nothing of its order before it. -/
def atHolder (h : Holder) (c : Instr) (f : State → State) (s : State) : Out :=
  .next (if holderOn s h && arrives s c then f (taken c s) else s)

def execSliceLoad (h : Holder) (l : LineA) (stream : Bool) (s : State) : Out :=
  let w := whoOf s (.sliceLoad h l stream)
  atHolder h (.sliceLoad h l stream) (access h l (.load stream) w) s

/-- A STREAM store of a whole line with no directory entry goes to the host as ItoMWr (R184). -/
def sliceStoreNow (h : Holder) (l : LineA) (mask : BitVec 64) (data : Block) (stream : Bool) (w : Who) (s : State) : State :=
  if stream && mask == BitVec.allOnes 64 && !hasEntry s l && (getHl s h l).st == .i && (getHl s h l).waits.isEmpty then
    lineWrite .itoM h l data w (clearHostResv h l.toNat s)
  else access h l (.store mask data stream) w s
def execSliceStore (h : Holder) (l : LineA) (mask : BitVec 64) (data : Block) (stream : Bool) (s : State) : Out :=
  let c : Instr := .sliceStore h l mask data stream
  let w := whoOf s c
  atHolder h c (sliceStoreNow h l mask data stream w) s

/-! ## Reading watched and polled lines (R208, R215 to R219) -/

/-- A VI's ring service stops (R245): the class 2 fault, STOPPED with its cause, VI_ERROR. -/
def stopRing (v : Vi) (cause : Nat) (poison : Bool) (s : State) : State :=
  if (getVi s v).stopped then s
  else stopVi v cause poison (report .ring 0x41 cause (some v.val) (partOf s v) s)

/-- A range of n bytes at an offset lies in the VI's host allotment (R152, R208). -/
def inHostAllot (s : State) (v : Vi) (off n : Nat) : Bool := decide (off + n ≤ (allotHost s .ring v).2)

/-- A line may be watched, but for a place in the store (R215). -/
def watchable (s : State) (v : Vi) : Bool :=
  (portOf v).val == 0 && s.port0 == .cxl && cxlOn s && !s.domainDown && fgetU s .ring .delivery == 0
/-- Lines of a link-die set that are watched, or being read to be watched, but for one of them (R216). -/
def watchedIn (s : State) (set : Nat) (v : Vi) (k : LineKind) : Nat :=
  (s.vis.filter fun p => p.1 < 1024).foldl (fun a p =>
    a + (kinds.filter fun j => !(p.1 == v.val && j == k) && (isWatched p.2 j || (isReading p.2 j && !isPolled p.2 j)) &&
      (lineOf (lineAddr s (viNo p.1) j)).toNat % 256 == set).length) 0

/-- The ring engine reads a line: through the line store to be watched, as RdCurr in CXL mode otherwise, or by a memory
read. A read that may not leave waits with the wake flag set (R160). -/
def readLine (v : Vi) (k : LineKind) (s : State) : State :=
  if !mayMaster s v || (getHp s (portOf v)).recovering then updVi v (setWake k true) s
  else if !inHostAllot s v (lineOff s v k) 64 then stopRing v 2 false s
  else
    let l := lineOf (lineAddr s v k)
    let can := watchable s v
    let room := decide (watchedIn s (l.toNat % 256) v k < 12)
    let s := updVi v (fun x => setPolled k (can && !room) (setReading k true (setWake k false x))) s
    if viaHome s v then access 16 l (.load (!(can && room))) (.line v k) s
    else emit (.hostRead (portOf v) v (lineAddr s v k) .line0) s

/-- VIs that were woken, and may read, issue the re-arm read (R217, R218). -/
def rearm (s : State) : State :=
  s.vis.foldl (fun s p => kinds.foldl (fun s k =>
    let v := viNo p.1
    let x := getVi s v
    let wake := match k with | .doorbell => x.dbWake | .mailbox => x.mbWake && fget s .mboxEn v.val == 1
    if wake && !isReading x k && running s && islandRuns s .ring && viExists s v && fget s .viEnable v.val == 1 &&
      !x.stopped && !x.resetting then readLine v k s
    else s) s) s

/-! ## Home messages (Table: Holder, home messages) -/

inductive HMsg where
  | dataS | dataM | grantM | fwdS | downS | fwdM | inv | ownX | putAck
  deriving DecidableEq, Repr

/-- What a cell sends: DataResp, InvAck, Done, or nothing. -/
inductive HResp where
  | d | a | done | none
  deriving DecidableEq, Repr

/-- The table's cells; none for ✗. -/
def cell : HMsg → HSt → Option (HResp × HSt)
  | .dataS, .isD => some (.done, .s)
  | .dataM, .imD => some (.done, .m)
  | .dataM, .smG => some (.done, .m)
  | .dataM, .omG => some (.done, .m)
  | .grantM, .smG => some (.done, .m)
  | .grantM, .omG => some (.done, .m)
  | .fwdS, .s => some (.d, .s)
  | .fwdS, .o => some (.d, .o)
  | .fwdS, .m => some (.d, .o)
  | .fwdS, .smG => some (.d, .smG)
  | .fwdS, .omG => some (.d, .omG)
  | .fwdS, .siA => some (.d, .siA)
  | .fwdS, .oiA => some (.d, .oiA)
  | .fwdS, .miA => some (.d, .oiA)
  | .downS, .s => some (.d, .s)
  | .downS, .o => some (.d, .s)
  | .downS, .m => some (.d, .s)
  | .downS, .smG => some (.d, .smG)
  | .downS, .omG => some (.d, .smG)
  | .downS, .siA => some (.d, .siA)
  | .downS, .oiA => some (.d, .siA)
  | .downS, .miA => some (.d, .siA)
  | .fwdM, .s => some (.d, .i)
  | .fwdM, .o => some (.d, .i)
  | .fwdM, .m => some (.d, .i)
  | .fwdM, .smG => some (.d, .imD)
  | .fwdM, .omG => some (.d, .imD)
  | .fwdM, .siA => some (.d, .iiA)
  | .fwdM, .oiA => some (.d, .iiA)
  | .fwdM, .miA => some (.d, .iiA)
  | .inv, .i => some (.a, .i)
  | .inv, .s => some (.a, .i)
  | .inv, .o => some (.d, .i)
  | .inv, .m => some (.d, .i)
  | .inv, .smG => some (.a, .imD)
  | .inv, .omG => some (.d, .imD)
  | .inv, .siA => some (.a, .iiA)
  | .inv, .oiA => some (.d, .iiA)
  | .inv, .miA => some (.d, .iiA)
  | .ownX, .s => some (.none, .o)
  | .ownX, .smG => some (.none, .omG)
  | .ownX, .siA => some (.none, .oiA)
  | .putAck, .siA => some (.none, .i)
  | .putAck, .oiA => some (.none, .i)
  | .putAck, .miA => some (.none, .i)
  | .putAck, .iiA => some (.none, .i)
  | _, _ => none

/-- An impossible message: it is discarded and the kiln die is fenced; the link-die store lies on no kiln die (R193). -/
def holderFault (h : Holder) (l : LineA) (s : State) : State :=
  if hh : h.val < 16 then raise (.hub ⟨h.val, hh⟩) 0x25 (hostAddr l) s else raise .lineStore 0x25 (hostAddr l) s

/-- A message takes its cell; data that comes with it replaces the line's. -/
def onMsg (h : Holder) (l : LineA) (m : HMsg) (data : Option (Block × Bool)) (s : State) : State :=
  let s := clearHostResv h l.toNat s
  let x := getHl s h l
  match cell m x.st with
  | none => holderFault h l s
  | some (r, st) =>
    let x' : HLine := match data with
      | some d => { x with st := st, data := d.1, poison := d.2, age := 0 }
      | none => { x with st := st }
    let x' : HLine := if st = .i then
        { waits := x.waits, parked := x.st == .i && x.parked, age := if x.st = .i then x.age else 0 } else x'
    let s := setHl h l x' s
    let s := match r with
      | .d => sendHome h l "DataResp" 0 (some (x.data, dirtySt x.st, x.poison)) s
      | .a => sendHome h l "InvAck" 0 none s
      | .done => sendHome h l "Done" 0 none s
      | .none => s
    let s := if m = .inv || m = .fwdM then storeLoses h l s else s
    let s := if stable st || m = .putAck || (st = .i && stable x.st) || x.parked then goOn h l s else s
    resumeLine h (if h.val = 16 then rearm s else s)

def execDatas (h : Holder) (l : LineA) (data : Block) (poison : Bool) (s : State) : Out :=
  atHolder h (.datas h l data poison) (onMsg h l .dataS (some (data, poison))) s
def execDatam (h : Holder) (l : LineA) (data : Block) (poison : Bool) (s : State) : Out :=
  atHolder h (.datam h l data poison) (onMsg h l .dataM (some (data, poison))) s
def execGrantm (h : Holder) (l : LineA) (s : State) : Out := atHolder h (.grantm h l) (onMsg h l .grantM none) s
def execFwds (h : Holder) (l : LineA) (s : State) : Out := atHolder h (.fwds h l) (onMsg h l .fwdS none) s
def execDowns (h : Holder) (l : LineA) (s : State) : Out := atHolder h (.downs h l) (onMsg h l .downS none) s
def execFwdm (h : Holder) (l : LineA) (s : State) : Out := atHolder h (.fwdm h l) (onMsg h l .fwdM none) s
def execInv (h : Holder) (l : LineA) (s : State) : Out := atHolder h (.inv h l) (onMsg h l .inv none) s
def execOwnx (h : Holder) (l : LineA) (s : State) : Out := atHolder h (.ownx h l) (onMsg h l .ownX none) s
def execPutack (h : Holder) (l : LineA) (s : State) : Out := atHolder h (.putack h l) (onMsg h l .putAck none) s

/-- The head access waits for a GetCur. -/
def curWaits (x : HLine) : Bool := x.st == .i && !x.parked && (match x.waits with | (.load true, _) :: _ => true | _ => false)
def headWho (x : HLine) : Who := (x.waits.head?.map Prod.snd).getD .other

/-- DataCur completes a STREAM load without keeping the line; the home awaits Done (R184, R185). -/
def dataCur (h : Holder) (l : LineA) (data : Block) (poison : Bool) (s : State) : State :=
  let s := clearHostResv h l.toNat s
  let x := getHl s h l
  if !curWaits x then holderFault h l s
  else resumeLine h (goOn h l
    (sendHome h l "Done" 0 none (loadEnds h l (headWho x) data poison false (setHl h l { x with waits := x.waits.tail } s))))
def execDatacur (h : Holder) (l : LineA) (data : Block) (poison : Bool) (s : State) : Out :=
  atHolder h (.datacur h l data poison) (dataCur h l data poison) s

/-- Retry: the request or Put goes out again with AGE one higher (R189). -/
def resend (h : Holder) (l : LineA) (msg : String) (d : Option (Block × Bool × Bool)) (s : State) : State :=
  let a := (getHl s h l).age + 1
  sendHome h l msg a d (updHl h l (fun x => { x with age := a }) s)
/-- What a Retry sends again: a Put keeps the kind under which it was first sent (R177, R192). -/
def retryNow (h : Holder) (l : LineA) (s : State) : State :=
  let s := clearHostResv h l.toNat s
  let x := getHl s h l
  let put := resend h l (putName x.put) (some (x.data, dirtySt x.put, x.poison))
  match x.st with
  | .isD => resend h l "GetS" none s
  | .imD => resend h l "GetM" none s
  | .smG => resend h l "GetM" none s
  | .omG => resend h l "GetM" none s
  | .siA => put s
  | .oiA => put s
  | .miA => put s
  | .iiA => put s
  | .i => if curWaits x then resend h l "GetCur" none s else holderFault h l s
  | _ => holderFault h l s
def execRetry (h : Holder) (l : LineA) (s : State) : Out := atHolder h (.retry h l) (retryNow h l) s

/-- NackP: the access that asked completes as POISONED, a store without effect (R192, R616). -/
def nackNow (h : Holder) (l : LineA) (s : State) : State :=
  let s := clearHostResv h l.toNat s
  let x := getHl s h l
  let ok := x.st == .isD || x.st == .imD || x.st == .smG || curWaits x
  if !ok then holderFault h l s
  else
    let s := storeLoses h l (setHl h l { waits := x.waits.tail } s)
    let s := match x.waits with
      | (.load _, _) :: _ => emit (.loadDone h l 0 true) s
      | _ => s
    let s := accessEnds h l (headWho x) .poisoned s
    resumeLine h (goOn h l (if h.val = 16 then rearm s else s))
def execNackp (h : Holder) (l : LineA) (s : State) : Out := atHolder h (.nackp h l) (nackNow h l) s

end Sys2Proof.Machine
end

