-- ==== Sys2Proof/Machine/Rings.lean ====
section
/-! DEFINITION. The rings' reading and writing sides, doorbells and the mailbox (chapter 7). -/

namespace Sys2Proof.Machine

/-- The ring and mailbox engine runs. -/
def ringRuns (s : State) : Bool := running s && islandRuns s .ring
/-- The ring and mailbox engine serves a VI. -/
def ringOn (s : State) (v : Vi) : Bool :=
  ringRuns s && viExists s v && !(getVi s v).resetting && !(getHp s (portOf v)).recovering
def viOn (s : State) (v : Vi) : Bool := fget s .viEnable v.val == 1
def mbOn (s : State) (v : Vi) : Bool := viOn s v && fget s .mboxEn v.val == 1
/-- Ring service runs: enabled and not stopped. -/
def served (s : State) (v : Vi) : Bool := viOn s v && !(getVi s v).stopped

/-- Ring sizes: a LOG2 of 0 means 6 (R205). -/
def ringLog (n : Nat) : Nat := if n = 0 then 6 else n
def cmdLog (s : State) (v : Vi) : Nat := ringLog (fget s .cmdLog2 v.val)
def cplLog (s : State) (v : Vi) : Nat := ringLog (fget s .cplLog2 v.val)
/-- The offset of the slot of a command index and of a completion index (R209). -/
def cmdOff (s : State) (v : Vi) (i : Nat) : Nat := fget s .cmdBase v.val * 2 ^ 12 + i % 2 ^ cmdLog s v * 64
def cplOff (s : State) (v : Vi) (j : Nat) : Nat := fget s .cplBase v.val * 2 ^ 12 + j % 2 ^ cplLog s v * 32
def line1Off (s : State) (v : Vi) : Nat := fget s .doorbell v.val * 128 + 64

/-! ## Flags, in order (R184, R229, R232, R239, R247) -/

/-- A flag of the VI has gone to the home and is not yet visible. -/
def flagOut (s : State) (v : Vi) : Bool := underWay s fun w => w == .flag v
/-- Every data write of a VI is visible (R242, R380). -/
def viVisible (s : State) (v : Vi) : Bool :=
  s.engs.all (fun p => (p.2.sb ++ p.2.tbOut.map Prod.snd).all fun x => x.vi != v) &&
  s.gathers.all (fun p => p.2.all fun x => x.vi != v) && !underWay s (dataOf v)
/-- A whole line that the ring engine writes leaves: through the home in CXL mode, as a memory write otherwise (R184). -/
def sendLine (v : Vi) (off : Nat) (b : Block) (s : State) : State :=
  let a := hostBase s v + off
  if viaHome s v then ringLineWrite (lineOf a) b (.flag v) s
  else emit (.hostWrite (portOf v) v a (blockBytes b) false) s
/-- The VI's writes may leave (R160, R162). -/
def mayWrite (s : State) (v : Vi) : Bool := mayMaster s v && !(getHp s (portOf v)).recovering

/-- The first of a VI's flags that wait leaves, if it may: a line, or a message, once the lines before it are visible. -/
def pumpOne (v : Vi) (s : State) : Option State :=
  match (getVi s v).outq with
  | [] => none
  | r :: t =>
    let s' := updVi v (fun x => { x with outq := t }) s
    match r with
    | .free e slot => some (freeSlot e slot s')
    | .line off b => if mayWrite s v && !(viaHome s v && flagOut s v) then some (sendLine v off b s') else none
    | .irq n => if flagOut s v then none else some (if n = vecCompletion then raiseCompletion v s' else raiseVec v n s')
    | .idle => if flagOut s v || !viVisible s v then none else some (updVi v (fun x => { x with ringIdle := true }) s')
def pumpN (v : Vi) : Nat → State → State
  | 0, s => s
  | n + 1, s => match pumpOne v s with
    | some s => pumpN v n s
    | none => s
def pump (v : Vi) (s : State) : State := pumpN v (getVi s v).outq.length s
/-- A flag whose write failed at the home stops the VI's ring (R191, R198, R245). -/
def flagFails (v : Vi) (s : State) : State :=
  match retOf s (.flag v) with
  | none => s
  | some x => stopRing v (if x.line = lineOf (hostBase s v + line1Off s v) then 4 else 3) false (dropRet (.flag v) s)
/-- Every VI's flags go on. -/
def pumpAll (s : State) : State :=
  if !ringRuns s then s else
  s.vis.foldl (fun s p => pump (viNo p.1) (flagFails (viNo p.1) s)) s

/-- The ring engine writes something for a VI, behind what it has written before. -/
def ringOut (v : Vi) (l : List RingOut) (s : State) : State := pump v (updVi v (fun x => { x with outq := x.outq ++ l }) s)
def ringWrite (v : Vi) (off : Nat) (l : Block) (s : State) : State := ringOut v [.line off l] s

/-- Answers of the host to writes that the home carries: what waited for one of them goes on. -/
def execGoErr (l : LineA) (s : State) : Out := fromHost (fun s => pumpAll (hostGoErr l s)) s
def execGoWritepull (l : LineA) (s : State) : Out :=
  .next (if islandRuns s .home then pumpAll (pullNow l s) else s)
def execGoWritepullDrop (l : LineA) (s : State) : Out := fromHost (fun s => pumpAll (writePull l true s)) s
def execCohTimeout (l : LineA) (s : State) : Out := fromHost (fun s => pumpAll (homeTimeout l s)) s

/-! ## Fetching (R212, R222, R223) -/

/-- Descriptors that one read takes: what is new, what the buffer holds, and no further than the ring's end. -/
def fetchCount (s : State) (v : Vi) : Nat :=
  let x := getVi s v
  min (min (x.pi - x.ciCmd).toNat (32 - x.fetched.length)) (2 ^ cmdLog s v - x.ciCmd.toNat % 2 ^ cmdLog s v)
/-- The ring engine fetches from a VI that has descriptors and room (D3hot pauses its rings, R161): RdCurr of each line in
CXL mode, a memory read otherwise (R184). -/
def fetchNow (v : Vi) (s : State) : State :=
  let n := fetchCount s v
  if n = 0 || !served s v || (getVi s v).fetching ≠ 0 || !mayMaster s v || (getPf s (portOf v)).d3hot then s
  else
    let off := cmdOff s v (getVi s v).ciCmd.toNat
    if !inHostAllot s v off (64 * n) then stopRing v 1 false s
    else
      let s := updVi v (fun x => { x with fetching := n }) s
      let a := hostBase s v + off
      if viaHome s v then
        (List.range n).foldl (fun s i => access 16 (lineOf (a + 64 * i)) (.load true) (.fetch v) s) s
      else emit (.hostRead (portOf v) v a .fetch) s

def indexed (i : BitVec 32) : List Block → List (BitVec 32 × Block)
  | [] => []
  | d :: t => (i, d) :: indexed (i + 1) t

/-- Fetched descriptors enter the buffer and CI_CMD advances; a failed or poisoned read stops the ring (R223, R245). -/
def fetchReturn (v : Vi) (res : FetchRes) (s : State) : State :=
  if !served s v || (getVi s v).fetching = 0 then s
  else match res with
    | .failed => stopRing v 1 false s
    | .poisoned => stopRing v 1 true s
    | .data ds =>
      let l := ds.take (getVi s v).fetching
      fetchNow v (updVi v (fun x => { x with
        fetched := x.fetched ++ indexed x.ciCmd l, ciCmd := x.ciCmd + BitVec.ofNat 32 l.length,
        fetching := x.fetching - l.length, line1Due := true }) s)
/-- The descriptors that the home's accesses have brought: all that were asked for, or none yet. -/
def fetchHere (s : State) (v : Vi) : Option FetchRes :=
  let x := getVi s v
  let a := hostBase s v + cmdOff s v x.ciCmd.toNat
  let rs := (List.range x.fetching).filterMap fun i => s.hret.find? fun r => r.who == .fetch v && r.line == lineOf (a + 64 * i)
  if rs.length < x.fetching then none
  else if rs.any HRet.failed then some .failed
  else if rs.any HRet.poison then some .poisoned
  else some (.data (rs.map HRet.data))
def fetchEnds (v : Vi) (res : FetchRes) (s : State) : State :=
  if !viaHome s v then fetchReturn v res s
  else match fetchHere s v with
    | some r => fetchReturn v r (forget (fun w => w == .fetch v) s)
    | none => s

def execDescriptorFetchReturn (v : Vi) (res : FetchRes) (s : State) : Out :=
  .next (if ringOn s v then fetchEnds v res s else s)

/-! ## Line 0 and the down header (R210, R213, R217, R234, R235) -/

/-- CPL_FULL: no completion slot can be reserved (R226, R248). -/
def cplRoom (s : State) (v : Vi) : Bool :=
  let x := getVi s v
  decide ((x.piCpl - x.ciCpl).toNat + x.reserved < 2 ^ cplLog s v)

def line0Data (v : Vi) (d : Block) (s : State) : State :=
  let x := getVi s v
  let pi := BitVec.ofNat 32 (blockField d 0 4)
  let sq := BitVec.ofNat 32 (blockField d 4 4)
  let ci := BitVec.ofNat 32 (blockField d 8 4)
  let ack := BitVec.ofNat 32 (blockField d 12 4)
  -- R210, R661: any slot may be fetched any number of times, including 0: both indices are free within their rings
  let wild := decide ((pi - x.ciCmd).toNat > 2 ^ cmdLog s v) || decide ((x.piCpl - ci).toNat > 2 ^ cplLog s v)
  let pi := if wild then x.ciCmd + BitVec.ofNat 32 (free s % (2 ^ cmdLog s v + 1)) else pi
  let ci := if wild then x.piCpl - BitVec.ofNat 32 (free s / 2 ^ 32 % (2 ^ cplLog s v + 1)) else ci
  let s := if wild then tick s else s
  let s := updVi v (fun x => { x with
    pi := pi, seqSeen := sq, ciCpl := ci, upAck := ack, line1Due := x.line1Due || sq != x.seqSeen }) s
  fetchNow v (updVi v (fun x => { x with cplFull := x.cplFull && !cplRoom s v }) s)

/-- Lines beyond the header line that a message's payload covers (R234). -/
def payLines (len : Nat) : Nat := (16 + len + 63) / 64 - 1
def payLine (s : State) (v : Vi) (n : Nat) : Nat := lineAddr s v .mailbox + 64 + 64 * n
/-- A line of the payload is read. -/
def readPay (v : Vi) (s : State) (n : Nat) : State :=
  if viaHome s v then access 16 (lineOf (payLine s v n)) (.load true) (.mbox v) s
  else emit (.hostRead (portOf v) v (payLine s v n) (.mboxPayload (Fin.ofNat 3 n))) s
/-- The payload reads of a message leave once the VI's requests may (R160). -/
def readPayload (v : Vi) (s : State) : State := match (getVi s v).down with
  | some m =>
    if m.asked || !mayWrite s v || (getVi s v).stopped then s
    else (List.range (payLines m.len)).foldl (readPay v) (updVi v (fun x => { x with down := some { m with asked := true } }) s)
  | none => s

/-- A header with a new SEQ is taken, and the payload lines that LEN covers are read. -/
def headerData (v : Vi) (d : Block) (s : State) : State :=
  let sq := BitVec.ofNat 32 (blockField d 0 4)
  let len := blockField d 7 1
  if sq = (getVi s v).lastDown || (getVi s v).down.isSome then s
  else if len > 240 then
    -- R661: any 256 bytes to any slot or nothing (nothing here); MBOX_ACK and MBOX_STATUS take free values
    tick (updVi v (fun x => { x with
      lastDown := sq, mboxAck := BitVec.ofNat 32 (free s), mboxStatus := free s / 2 ^ 32 % 256, line1Due := true }) s)
  else
    let m : Down := { seq := sq, veng := blockField d 4 2, slot := blockField d 6 1 % 4, len := len, line0 := d }
    readPayload v (updVi v (fun x => { x with lastDown := sq, down := some m }) s)

/-- The data of a re-arm or poll read (R217): a line read to be watched is watched while the store keeps it; one that lost
its copy meanwhile is read again. -/
def lineReturn (v : Vi) (k : LineKind) (res : HostRes) (kept lost : Bool) (s : State) : State :=
  if !isReading (getVi s v) k || !served s v then s
  else
    let s := updVi v (setReading k false) s
    match res with
    | .poisoned => stopRing v 2 true s
    | .unsupported => stopRing v 2 false s
    | .abort => stopRing v 2 false s
    | .data d =>
      let s := updVi v (fun x => setWake k (lost || (match k with | .doorbell => x.dbWake | .mailbox => x.mbWake))
        (setWatched k (kept && !lost && watchable s v) x)) s
      rearm (match k with
        | .doorbell => line0Data v d s
        | .mailbox => if mbOn s v then headerData v d s else s)
/-- In CXL mode the data is what the holder has returned. -/
def lineEnds (v : Vi) (k : LineKind) (res : HostRes) (s : State) : State :=
  if !viaHome s v then lineReturn v k res false false s
  else match retOf s (.line v k) with
    | some x =>
      lineReturn v k (resOf x) (x.kept && !isPolled (getVi s v) k) x.lost (dropRet (.line v k) s)
    | none => s

def execLine0ReadReturn (v : Vi) (k : LineKind) (res : HostRes) (s : State) : Out :=
  .next (if ringOn s v then lineEnds v k res s else s)

/-- The interval of a polled line ends, or a wake waits: the line is read (R219, R221). -/
def execPollInterval (v : Vi) (k : LineKind) (s : State) : Out :=
  let on := match k with | .doorbell => viOn s v | .mailbox => mbOn s v
  let x := getVi s v
  .next (if ringOn s v && served s v && on && !isReading x k && !isWatched x k then readLine v k s else s)

/-! ## Line 1 (R213) -/

def line1 (x : ViSt) : Block :=
  bytesBlock (natBytes 4 x.ciCmd.toNat ++ natBytes 4 x.seqSeen.toNat ++ natBytes 4 x.mboxAck.toNat ++ natBytes 4 x.mboxStatus ++
    natBytes 4 x.piCpl.toNat ++ natBytes 44 0)
def execLine1Write (v : Vi) (ok : Bool) (s : State) : Out :=
  .next (if !ringOn s v || !(getVi s v).line1Due || (getVi s v).stopped || !mayMaster s v then s
    else
      let s := updVi v (fun x => { x with line1Due := false }) s
      if !ok || !inHostAllot s v (line1Off s v) 64 then stopRing v 4 false s else ringWrite v (line1Off s v) (line1 (getVi s v)) s)

/-! ## Enabling and disabling (R214, R221, R240, R247) -/

/-- VI_CTL.ENABLE goes to 1: indices restart, line 1 is written with zeros, line 0 is read. Work of an earlier enable runs
on and writes no entry (R246). -/
def startVi (v : Vi) (s : State) : State :=
  let s := forget (ringRead v) (dropFlags v s)
  let s := updVi v (fun x =>
    {
      fly := x.fly, lap := x.lap + 1, upMsgs := x.upMsgs, segHit := x.segHit, misses := x.misses, changing := x.changing,
      ringIdle := false }) s
  let s := if domainFails s v then stopVi v 5 false s
    else if !inHostAllot s v (line1Off s v) 64 then stopRing v 4 false s else ringWrite v (line1Off s v) 0 s
  if (getVi s v).stopped then s
  else
    let s := readLine v .doorbell s
    if mbOn s v then readLine v .mailbox s else s
/-- The ring engine starts a VI that was enabled while it could not. -/
def startNow (v : Vi) (s : State) : State := if ringOn s v && viOn s v && (getVi s v).startDue then startVi v s else s
def startAll (s : State) : State := s.vis.foldl (fun s p => if p.2.startDue then startNow (viNo p.1) s else s) s

def enableVi (v : Vi) (s : State) : State :=
  if viOn s v then s else startNow v (updVi v (fun x => { x with startDue := true }) (fset .viEnable v.val 1 s))

/-- A down message taken and not delivered is discarded; with ENABLE still 1 it is acknowledged with VI_RESET. -/
def dropDown (v : Vi) (ack : Bool) (s : State) : State :=
  forget (fun w => w == .mbox v || w == .line v .mailbox) <| updVi v (fun x =>
    let x := { x with mbReading := false, mbWatched := false, mbPolled := false, mbWake := false }
    match x.down with
    | some m => if ack then { x with down := none, mboxAck := m.seq, mboxStatus := 0x31, line1Due := true } else { x with down := none }
    | none => x) s

def disableMbox (v : Vi) (s : State) : State :=
  if fget s .mboxEn v.val = 0 then s else dropDown v (viOn s v) (fset .mboxEn v.val 0 s)
def enableMbox (v : Vi) (s : State) : State :=
  if fget s .mboxEn v.val = 1 then s
  else
    let s := fset .mboxEn v.val 1 s
    if ringOn s v && served s v && !(getVi s v).startDue then readLine v .mailbox s
    else updVi v (fun x => { x with mbWake := viOn s v && !x.startDue }) s

/-- Opcodes that the ring engine runs itself and that wait: 0x05 is WAIT (Table: Opcodes). -/
def isWait (d : Block) : Bool := dOp d == 0x05
/-- A dispatched LAUNCH whose indices have not yet joined their queues: they end without starting (R341). -/
def notStarted (f : Fly) : Bool := dOp f.desc == 0x03 && !f.started && f.fin.isNone && blockField f.desc 0x12 2 % 512 != 0

/-- VI_CTL.ENABLE is cleared: WAITs and launch indices end with VI_RESET, undispatched descriptors are dropped (R247, R267,
R341). -/
def disableVi (v : Vi) (s : State) : State :=
  if !viOn s v then s
  else
    let s := fset .viEnable v.val 0 s
    let s := (getVi s v).fly.foldl (fun s f => if isWait f.desc || notStarted f then finish v f.idx (openC .viReset) s else s) s
    let s := allEngs.foldl (dropIndexes v (openC .viReset)) s
    let s := forget (ringRead v) (dropDown v false s)
    let s := updVi v (fun x => { x with
      fetched := [], fetching := 0, dbReading := false, dbWatched := false, dbPolled := false, dbWake := false,
      cplFull := false, startDue := false }) s
    if (getVi s v).fly.isEmpty then ringOut v [.idle] s else s

def execViEnable (v : Vi) (s : State) : Out := .next (if barsLive s && answers s v then enableVi v s else s)
def execViDisable (v : Vi) (s : State) : Out := .next (if barsLive s && answers s v then disableVi v s else s)
def execMboxEnable (v : Vi) (s : State) : Out := .next (if barsLive s && answers s v then enableMbox v s else s)
def execMboxDisable (v : Vi) (s : State) : Out := .next (if barsLive s && answers s v then disableMbox v s else s)

/-! ## Mailbox messages (R234 to R239) -/

def mboxDone (v : Vi) (m : Down) (st : Nat) (s : State) : State :=
  updVi v (fun x => { x with down := none, mboxAck := m.seq, mboxStatus := st, line1Due := true }) s

/-- The payload lines that have been read, in order; none while one is missing. -/
def payBlocks (m : Down) : Option (List Block) := (List.range (payLines m.len)).mapM fun i => mget none m.payload i
/-- The 256 bytes of a message: header line, payload lines. Lines that LEN does not cover are not read, and what the slot
holds there is not given. -/
def msgBytes (s : State) (m : Down) (rest : List Block) : List Byte :=
  let l := blockBytes m.line0 ++ rest.flatMap blockBytes
  (l ++ natBytes (256 - l.length) (free s)).take 256

/-- A payload line arrives; a failed read ends the message (R236). -/
def payIn (v : Vi) (n : Nat) (res : HostRes) (s : State) : State :=
  match (getVi s v).down, res with
  | none, _ => s
  | some m, .data d => updVi v (fun x => { x with down := some { m with payload := mset none m.payload n (some d) } }) s
  | some m, .poisoned => mboxDone v m 0x11 s
  | some m, _ => mboxDone v m 0x10 s
/-- What an operand, or the holder in CXL mode, has returned of the payload. -/
def payEnds (v : Vi) (res : FetchRes) (s : State) : State :=
  if viaHome s v then
    (s.hret.filter fun x => x.who == .mbox v).foldl (fun s x =>
      payIn v (x.line.toNat - payLine s v 0 / 64) (resOf x) s)
      (forget (fun w => w == .mbox v) s)
  else match res with
    | .failed => payIn v 0 .abort s
    | .poisoned => payIn v 0 .poisoned s
    | .data l => l.zipIdx.foldl (fun s q => payIn v q.2 (.data q.1) s) s

/-- A message that is wholly read enters its slot; while the slot is occupied it waits with its payload (R237). -/
def deliver (v : Vi) (s : State) : State :=
  match (getVi s v).down with
  | none => s
  | some m =>
    match (viEngines s .ring v)[m.veng]? with
    | none => mboxDone v m 0x30 s
    | some e =>
      if engFenced s e || !bitAt (fgetU s .ring .slotMask v.val) m.slot then mboxDone v m 0x30 s
      else match payBlocks m with
        | none => s
        | some rest =>
          if (mget {} (eng s e).slots m.slot).st ≠ .free then s
          else
            let b := msgBytes s m rest
            mboxDone v m 0 (tick (updEng e (fun y => { y with
              slots := mset {} y.slots m.slot { st := .down, data := b, vi := v.val } }) s))
/-- What is still to come of a payload counts only while it is not here. -/
def deliverWith (v : Vi) (res : FetchRes) (s : State) : State :=
  let due := match (getVi s v).down with
    | some m => (payBlocks m).isNone
    | none => false
  deliver v (if due then payEnds v res s else s)

def execMboxDeliver (v : Vi) (payload : FetchRes) (s : State) : Out :=
  .next (if !ringOn s v || !mbOn s v || (getVi s v).stopped then s else deliverWith v payload s)

/-- The up header: SEQ and VENG from the device, the rest as the routine wrote it. -/
def upBytes (seq veng : Nat) (l : List Byte) : List Byte :=
  natBytes 4 seq ++ natBytes 2 veng ++ (l.drop 6).take 250
def upLine (b : List Byte) (i : Nat) : Block := bytesBlock ((b.drop (64 * i)).take 64)

/-- Lines 1 to 3, then line 0; the slot is free, and MAILBOX raised, once they are visible (R239). -/
def execMboxUpWrite (v : Vi) (e : Eng) (slot : Fin 4) (s : State) : Out :=
  .next (
    let x := getVi s v
    if !ringOn s v || !mbOn s v || x.stopped || !mayMaster s v || x.upMsgs.head? ≠ some (e, slot) || x.upAck ≠ x.upSeq then s
    else
      let off := fget s .mailbox v.val * 512 + 256
      if !inHostAllot s v off 256 then stopRing v 4 false s
      else
        let y := mget {} (eng s e).slots slot.val
        let veng := (viEngines s .ring v).findIdx fun g => g == e
        let b := upBytes (x.upSeq + 1).toNat veng y.data
        let s := updVi v (fun x => { x with upSeq := x.upSeq + 1, upMsgs := x.upMsgs.tail }) s
        ringOut v (([1, 2, 3, 0].map fun i => .line (off + 64 * i) (upLine b i)) ++ [.irq vecMailbox, .free e slot]) s)

end Sys2Proof.Machine
end

