-- ==== Sys2Proof/Machine/Access.lean ====
section
/-! DEFINITION. Accesses of movers and of the ring engine to the spaces of R253: pieces, reads and writes of device
memory, host memory and scratchpads (R253 to R256, R258, R374 to R376, R420), and the overflow list as it is read. -/

namespace Sys2Proof.Machine

/-! ## Pieces -/

/-- A piece of an access: its offset in the range, its length, where it lands. -/
structure Piece where
  off : Nat
  len : Nat
  tr : Tr
  deriving DecidableEq, Repr

/-- Cut n bytes at an address where segments and allotments may end: at multiples of 2 MiB. -/
def cuts : Nat → Nat → Nat → Nat → List (Nat × Nat)
  | 0, _, _, _ => []
  | k + 1, off, a, n =>
    if n = 0 then [] else
    let m := min n (2 ^ 21 - a % 2 ^ 21)
    (off, m) :: cuts k (off + m) (a + m) (n - m)
def cutsOf (a n : Nat) : List (Nat × Nat) := cuts (n / 2 ^ 21 + 2) 0 a n

def piecesOf (s : State) (u : CUnit) (v : Vi) (space a n : Nat) : List Piece :=
  (cutsOf a n).map fun c => { off := c.1, len := c.2, tr := trSpace s u v space (a + c.1) c.2 }

/-- Segments that an access of space SEG hits (R294). -/
def touchAll (v : Vi) (space : Nat) (l : List Piece) (s : State) : State :=
  if space = 2 then l.foldl (fun s p => match p.tr with
    | .hit _ i => touchSlot v i s
    | _ => s) s
  else s

/-! ## SCRATCH addresses (R256) -/

inductive Sp where
  | at_ (e : Eng) (off : Nat)
  | bad (c : Compl)
  deriving DecidableEq, Repr

def spAddr (s : State) (u : CUnit) (v : Vi) (a n : Nat) : Sp :=
  let veng := a / 2 ^ 48
  match (viEngines s u v)[veng]? with
  | none => .bad (failC .fencedUnit 0 0 veng)
  | some e =>
    if engFenced s e then .bad (failC .fencedUnit 0 0 veng)
    else match spWindow s u v (a % 2 ^ 22) n with
      | none => .bad (failC .segFault 0 a)
      | some o => .at_ e o

/-! ## How an access ends -/

/-- Done with the bytes read, waiting on a miss at an address, waiting on the host's data, or failed with a status and an
offset in the range. -/
inductive Acc where
  | ok (l : List Byte)
  | wait (a : Nat)
  | pend
  | fail (st : Status) (off : Nat)
  deriving DecidableEq, Repr

/-- What the host has answered: the bytes of the range by offset, a failure of its first host piece, what the holder has
returned, line by line, to whom the access serves, or the blocks that a VI's firmware work has asked for. -/
inductive HostAns where
  | given (l : List Byte)
  | bad (st : Status)
  | home (w : Who)
  | blocks (v : Vi)
  deriving DecidableEq, Repr

/-- The first granule of device memory that a read of n bytes cannot take: a hole or poison, in address order (R280). -/
def firstBad (s : State) (a n : Nat) : Option (Status × Nat) :=
  (granules a n).findSome? fun g =>
    if isHole s (32 * g) then some (.fencedUnit, max a (32 * g))
    else if poisoned s (32 * g) then some (.poisoned, max a (32 * g)) else none

/-- What a holder has returned of a line. -/
def lineRes (s : State) (w : Who) (l : Nat) : Option HostRes :=
  (s.hret.find? fun r => r.who == w && r.line.toNat == l % 2 ^ 46).map resOf
/-- The answer to a block that firmware or a collective unit has asked for (R137). -/
def blockRes (s : State) (v : Vi) (l : Nat) : Option HostRes :=
  if viaHome s v then lineRes s (.block v (64 * l)) l
  else (s.hblocks.find? fun b => b.1 == v && b.2.1 == 64 * l).bind fun b => b.2.2
/-- The bytes [x, x + n) of host memory from the answers for its lines. -/
def homeBytes (ans : Nat → Option HostRes) (x n : Nat) : List Nat → Acc
  | [] => .ok []
  | l :: t =>
    let lo := max x (64 * l)
    match ans l with
    | none => .pend
    | some .poisoned => .fail .poisoned (lo - x)
    | some (.data d) => match homeBytes ans x n t with
      | .ok m => .ok (((blockBytes d).drop (lo - 64 * l)).take (min (x + n) (64 * l + 64) - lo) ++ m)
      | y => y
    | some _ => .fail .hostAccessErr (lo - x)
/-- A host piece, from the answers for its lines. -/
def hostPiece (ans : Nat → Option HostRes) (p : Piece) (x : Nat) : Acc := match homeBytes ans x p.len (linesOf x p.len) with
  | .fail st off => .fail st (p.off + off)
  | r => r

/-- One piece of a read. -/
def readPiece (s : State) (v : Vi) (a : Nat) (p : Piece) (host : HostAns) : Acc :=
  match p.tr with
  | .hit (.dev x) _ => match firstBad s x p.len with
    | some b => .fail b.1 (p.off + (b.2 - x))
    | none => .ok (readBytes s x p.len)
  | .hit (.host x _) _ =>
    if !hostOk s v then .fail .hostAccessErr p.off
    else match host with
      | .given l => if p.off + p.len ≤ l.length then .ok ((l.drop p.off).take p.len) else .pend
      | .bad st => .fail st p.off
      | .home w => hostPiece (lineRes s w) p x
      | .blocks u => hostPiece (blockRes s u) p x
  | .fault => .fail .segFault p.off
  | .miss => .wait (a + p.off)

/-- Every piece is read in address order; the first that fails, misses or waits stands (R280, R420). -/
def readAll (s : State) (v : Vi) (a : Nat) (host : HostAns) : List Piece → Acc
  | [] => .ok []
  | p :: t => match readPiece s v a p host with
    | .ok l => match readAll s v a host t with
      | .ok r => .ok (l ++ r)
      | x => x
    | x => x

/-- The pieces that lie in device memory can be reached from a die (R667). -/
def openPieces (s : State) (d : Nat) (l : List Piece) : Bool := l.all fun p => match p.tr with
  | .hit (.dev x) _ => memOpen s d x p.len
  | _ => true
/-- A host piece is among the pieces. -/
def isHostPiece (p : Piece) : Bool := match p.tr with | .hit (.host _ _) _ => true | _ => false
def needsHost (l : List Piece) : Bool := l.any isHostPiece
/-- The first piece that misses. -/
def firstMiss (l : List Piece) : Option Piece := l.find? fun p => p.tr == .miss

/-! ## Blocks of host memory for firmware and the collective units (R137, R179, R184) -/

/-- The host lines of the pieces, as far as the first one that misses. -/
def hostLines (v : Vi) : List Piece → List Nat
  | [] => []
  | p :: t => match p.tr with
    | .hit (.host x _) _ => linesOf x p.len ++ hostLines v t
    | .miss => []
    | _ => hostLines v t
/-- A block is asked for once: as RdCurr through the home in CXL mode, by a memory read otherwise. -/
def askBlock (v : Vi) (s : State) (l : Nat) : State :=
  if s.hblocks.any fun b => b.1 == v && b.2.1 == 64 * l then s
  else
    let s := { s with hblocks := s.hblocks ++ [(v, 64 * l, none)] }
    if viaHome s v then access 16 (BitVec.ofNat 46 l) (.load true) (.block v (64 * l)) s
    else emit (.hostRead (portOf v) v (64 * l) (.block (64 * l))) s
def askBlocks (v : Vi) (l : List Piece) (s : State) : State :=
  if hostOk s v then (hostLines v l).foldl (askBlock v) s else s
/-- The answer to a block arrives. -/
def blockEnds (v : Vi) (a : Nat) (res : HostRes) (s : State) : State :=
  { s with hblocks := s.hblocks.map fun b => if b.1 == v && b.2.1 == a && b.2.2.isNone then (b.1, b.2.1, some res) else b }
/-- Blocks that have been used, or are no longer needed, are let go. -/
def dropBlocks (v : Vi) (l : List Piece) (s : State) : State :=
  let ls := hostLines v l
  forget (fun w => ls.any fun x => w == .block v (64 * x))
    { s with hblocks := s.hblocks.filter fun b => !(b.1 == v && ls.any fun x => b.2.1 == 64 * x) }

/-- Who writes: a mover through the slice of its kiln die, or the ring engine (R184). -/
inductive Writer where
  | mover (m : Mover) (w : Who) | ring (w : Who)
  deriving DecidableEq, Repr

/-- The ring engine writes host memory. Through the home it writes whole lines only (R184): part of a line is composed in
the line store, which obtains the line, and evicts it at once (DESIGN CHOICE, log 40). -/
def hostRing (v : Vi) (a : Nat) (bs : List Byte) (w : Who) (s : State) : State :=
  if viaHome s v then
    (linesOf a bs.length).foldl (fun s l =>
      let m := lineMask l a bs
      if m = BitVec.allOnes 64 then ringLineWrite (BitVec.ofNat 46 l) (linePart l a bs) w s
      else access 16 (BitVec.ofNat 46 l) (.store m (linePart l a bs) true) w s) s
  else emit (.hostWrite (portOf v) v a bs (getPf s (portOf v)).relaxed) s

/-- One piece of a write: the bytes outside holes land (R420). -/
def writePiece (w : Writer) (v : Vi) (p : Piece) (bs : List Byte) (s : State) : Option (Status × Nat) × State :=
  let here := (bs.drop p.off).take p.len
  match p.tr with
  | .hit (.dev x) _ =>
    (if anyHole s x p.len then some (.fencedUnit, p.off + (firstHole s x p.len - x)) else none, acceptWrite x here s)
  | .hit (.host x stream) _ =>
    if hostOk s v then
      (none, match w with
        | .mover m who => hostStore (.hub (kilnOfMover m)) (kilnOfMover m) v x here stream true who s
        | .ring who => hostRing v x here who s)
    else (some (.hostAccessErr, p.off), s)
  | .fault => (some (.segFault, p.off), s)
  | .miss => (none, s)

/-- Every piece is written that can be; the first failure stands (R376, R420). -/
def writeAll (w : Writer) (v : Vi) (bs : List Byte) : List Piece → State → Option (Status × Nat) × State
  | [], s => (none, s)
  | p :: t, s =>
    let x := writePiece w v p bs s
    let y := writeAll w v bs t x.2
    (x.1.orElse fun _ => y.1, y.2)

/-- Write bytes to translated pieces; nothing is written while a piece misses. -/
def writePieces (w : Writer) (v : Vi) (space a : Nat) (l : List Piece) (bs : List Byte) (s : State) : Acc × State :=
  match firstMiss l with
  | some p => (.wait (a + p.off), s)
  | none =>
    match writeAll w v bs l (touchAll v space l s) with
    | (none, s) => (.ok [], s)
    | (some f, s) => (.fail f.1 f.2, s)
def writeSpace (w : Writer) (u : CUnit) (v : Vi) (space a : Nat) (bs : List Byte) (s : State) : Acc × State :=
  writePieces w v space a (piecesOf s u v space a bs.length) bs s

/-! ## The overflow list (R289 to R293, R670) -/

def ovfOn (s : State) (v : Vi) : Bool := fget s .ovfEnable v.val == 1
/-- The list's offset: 2 KiB aligned. -/
def ovfOff (s : State) (v : Vi) : Nat := fget s .ovfOffset v.val * 2 ^ 11
/-- The whole list lies in the device allotment in force. -/
def ovfInside (s : State) (v : Vi) : Bool := decide (ovfOff s v + 1792 ≤ (allotDev s .ring v).2)
def ovfAddr (s : State) (v : Vi) (e : Nat) : Nat := (allotDev s .ring v).1 + ovfOff s v + 32 * e

/-- An overflow entry as it is read. -/
structure Ovf where
  seg : Seg
  valid : Bool
  host : Bool
  deriving DecidableEq, Repr
def readOvf (s : State) (v : Vi) (e : Nat) : Ovf :=
  let l := readBytes s (ovfAddr s v e) 32
  let b := leNat ((l.drop 0x14).take 1)
  {
    seg := {
      vbase := leNat (l.take 8) / 2 ^ 21 % 2 ^ 27, target := leNat ((l.drop 8).take 8) / 2 ^ 21 % 2 ^ 27,
      size := leNat ((l.drop 16).take 4) % 2 ^ 27, attr := b / 4 % 2 },
    valid := bitAt b 0, host := bitAt b 1 }
/-- An entry that the search may use: valid, sized, and neither in a hole nor poisoned. -/
def ovfUsable (s : State) (v : Vi) (a e : Nat) : Bool :=
  let x := ovfAddr s v e
  !anyHole s x 32 && !anyPoison s x 32 && (readOvf s v e).valid && covers (readOvf s v e).seg a
def findOvf (s : State) (v : Vi) (a : Nat) : Option Nat :=
  if ovfOn s v && ovfInside s v then (List.range 56).find? (ovfUsable s v a) else none
/-- Where n bytes at an address that misses will land, once its overflow entry has been swapped in. -/
def ovfTarget (s : State) (u : CUnit) (v : Vi) (a n : Nat) : Option Target :=
  (findOvf s v a).bind fun e =>
    let x := readOvf s v e
    let off := x.seg.target * 2 ^ 21 + (a - x.seg.vbase * 2 ^ 21)
    if x.host then inHost s u v off n (x.seg.attr == 1) else inDev s u v off n

end Sys2Proof.Machine
end

