-- ==== Sys2Proof/Machine/Remote.lean ====
section
/-! DEFINITION. Remote writes: fabric windows and their checks, requester contexts, WRITE and ACK (R479 to R485). -/

namespace Sys2Proof.Machine

/-! ## Frames (Table: WRITE and ACK fields) -/

def writeFrame (s : State) (dst window rkey ctx off : Nat) (payload : List Byte) : Frame :=
  mkFrame s 2 0 dst (off % 2 ^ 48 + window % 4096 * 2 ^ 48 + rkey % 2 ^ 32 * 2 ^ 64 + ctx % 4096 * 2 ^ 96) payload
def ackFrame (s : State) (dst window ctx off code len : Nat) : Frame :=
  mkFrame s 3 1 dst
    (off % 2 ^ 48 + window % 4096 * 2 ^ 48 + (code % 16 + len % 2 ^ 13 * 2 ^ 16) * 2 ^ 64 + ctx % 4096 * 2 ^ 96) []
def fOff (f : Frame) : Nat := ks f 0 48
def fWindow (f : Frame) : Nat := ks f 48 12
def fRkey (f : Frame) : Nat := ks f 64 32
def fCode (f : Frame) : Nat := ks f 64 4
def fAckLen (f : Frame) : Nat := ks f 80 13
def fCtx (f : Frame) : Nat := ks f 96 12

/-! ## The receiving side (R482) -/

def fwinOf (s : State) (w : Nat) : Win := mget {} s.fwin w
/-- The device address that a window offset reaches. -/
def winAddr (s : State) (w : Win) (off : Nat) : Nat := (allotDev s .ring (viNo w.vi)).1 + w.base + off
/-- Table: Window checks, in order. An empty range lies in every window (as R287 says of an allotment). -/
def windowCode (s : State) (window src rkey off len : Nat) : Nat :=
  let w := fwinOf s window
  if !w.open_ then 1
  else if src ≠ w.peer then 2
  else if rkey ≠ w.rkey.toNat then 3
  else if len ≠ 0 && off + len > w.size then 4
  else if anyHole s (winAddr s w off) len then 5
  else if len ≠ 0 && w.base + off + len > (allotDev s .ring (viNo w.vi)).2 then 6
  else 0
/-- The WRITE lands when no row matches; the code is returned. -/
def writeWindow (window src rkey off : Nat) (payload : List Byte) (s : State) : Nat × State :=
  let code := windowCode s window src rkey off payload.length
  (code, if code = 0 then acceptWrite (winAddr s (fwinOf s window) off) payload s else s)

/-! ## Requester contexts (R481, R483, R484) -/

/-- The lowest free context from c on. -/
def freeCtxFrom (s : State) : Nat → Nat → Option Nat
  | 0, _ => none
  | n + 1, c => if (getCtx s c).used then freeCtxFrom s n (c + 1) else some c
def freeCtx (s : State) : Option Nat := freeCtxFrom s 4096 0

/-- The descriptor's ending once its WRITEs are all answered: the lowest failing block stands, a failure of the source
among them. -/
def ctxCompl (x : Ctx) (src : Option Compl) : Compl :=
  match x.fail, src with
  | none, none => { status := .ok, value := BitVec.ofNat 64 x.total }
  | none, some c => c
  | some f, none => failC .hostAccessErr f.1 f.2
  | some f, some c => if f.1 ≤ c.value.toNat then failC .hostAccessErr f.1 f.2 else c

/-- A context whose last WRITE has been sent and answered ends its descriptor and is free again. -/
def ctxCheck (c : Nat) (s : State) : State :=
  let x := getCtx s c
  if x.used && x.all && x.pend.isEmpty then
    let v := viNo x.vi
    let src := (flyOf s v x.idx).bind fun f => f.fail
    updCtx c (fun _ => {}) (finish v x.idx (ctxCompl x src) s)
  else s

/-- One WRITE of a context is answered: with a code, or with none by its deadline. -/
def ctxAnswer (c off : Nat) (len : Option Nat) (code : Nat) (s : State) : State :=
  let x := getCtx s c
  match x.pend.find? fun p => p.1 == off && (len.isNone || len == some p.2.1) with
  | none => s
  | some p =>
    let fail := if code = 0 then x.fail
      else match x.fail with
        | some f => if p.2.2.2 < f.1 then some (p.2.2.2, off) else some f
        | none => some (p.2.2.2, off)
    ctxCheck c (updCtx c (fun x => { x with pend := x.pend.erase p, fail := fail }) s)

/-- Fabric addresses of this device stay inside it. -/
def isOwn (s : State) (node : Nat) : Bool := nodeOk s && node == ownNode s
/-- A destination that the device can try to reach (R469). -/
def canReach (s : State) (node : Nat) : Bool := isOwn s node || anyFlue s

/-- Send one WRITE of a descriptor (R479, R480); a WRITE to the own node is checked here and leaves no frame. -/
def sendWrite (c : Nat) (v : Vi) (node window off pos : Nat) (payload : List Byte) (s : State) : State :=
  let s := updCtx c (fun x => { x with pend := x.pend ++ [(off, payload.length, s.nowNs, pos)] }) s
  let rkey := fget s .fabKey v.val
  if isOwn s node then
    let r := writeWindow window node rkey off payload s
    ctxAnswer c off none r.1 r.2
  else sendFrame (writeFrame s node window rkey c off payload) s

def dNode (d : Block) : Nat := blockField d 0x14 4 % 2 ^ 18
def dWindow (d : Block) : Nat := blockField d 0x14 4 / 2 ^ 18 % 4096

end Sys2Proof.Machine
end

