-- ==== Sys2Proof/Machine/Descriptors.lean ====
section
/-! DEFINITION. Dispatch, completion entries, and the descriptors that the ring engine runs itself, with LAUNCH
(chapters 7 and 8). -/

namespace Sys2Proof.Machine

/-! ## Reserved bits and encodings (R12, R13, R250, R255, R668) -/

/-- The fields of a descriptor as (first bit, width); every other bit is reserved. -/
def descFields (d : Block) : List (Nat × Nat) :=
  let remote : Nat → List (Nat × Nat) := fun space => if space = 4 then [(160, 30)] else []
  let addr : Nat → Nat → List (Nat × Nat) := fun lo space => if space = 3 then [(lo, 22), (lo + 48, 16)] else [(lo, 48)]
  let lowSp := blockField d 0x10 1 % 16
  let highSp := blockField d 0x10 1 / 16
  [(0, 10), (16, 16)] ++
  match dOp d with
  | 0x01 => [(64, 40), (128, 16)] ++ remote highSp ++ addr 192 lowSp ++ addr 256 highSp
  | 0x02 => [(64, 40), (132, 12), (144, 2), (192, 64)] ++ remote highSp ++ addr 256 highSp
  | 0x03 => [(64, 48), (128, 16), (144, 9), (160, 32), (192, 64)]
  | 0x04 => [(64, 8), (256, 64)] ++ remote (blockField d 8 1 % 16) ++ addr 192 0
  | 0x05 => [(64, 8), (256, 64), (320, 64)] ++ addr 192 0
  | 0x07 => [(64, 7), (96, 27), (149, 27), (213, 27)] ++ (if bitAt (blockField d 8 1) 6 then [(71, 1)] else [])
  | 0x08 => [(64, 16), (80, 9), (96, 10), (112, 11), (128, 1), (192, 48)]
  | 0x09 => [(64, 12), (80, 48), (128, 40), (192, 48), (256, 48), (352, 26), (384, 16), (400, 10)] ++
      (if blockField d 0x0A 1 % 16 = 5 then [(320, 18)] else [])
  | 0x0A => if bitAt (blockField d 0x0A 1) 0 then [(64, 12), (80, 1)]
      else [(64, 12), (80, 1), (96, 19), (128, 18), (160, 26), (192, 48)]
  | 0x0B => [(64, 12), (80, 2)] ++
      (if bitAt (blockField d 0x0A 1) 0 then []
       else [(96, 32), (140, 36), (204, 36)] ++ (if bitAt (blockField d 0x0A 1) 1 then [(288, 12)] else [(256, 18)]))
  | 0x0C => [(128, 4)] ++ addr 192 lowSp
  | 0x0D => [(64, 9), (80, 9), (96, 1), (128, 4)] ++ addr 192 lowSp
  | _ => []

/-- Every bit outside the fields is 0. -/
def reservedClear (d : Block) : Bool :=
  (descFields d).foldl (fun a f => a - bits a f.1 f.2 * 2 ^ f.1) d.toNat == 0

/-- No reserved encoding and no misaligned address. -/
def encodingsOk (d : Block) : Bool :=
  let lowSp := blockField d 0x10 1 % 16
  let highSp := blockField d 0x10 1 / 16
  match dOp d with
  | 0x00 => true
  | 0x01 => decide (lowSp ≤ 3 && highSp ≤ 4 && blockField d 0x11 1 ≤ 0x20)
  | 0x02 => decide (highSp ≤ 4 && blockField d 0x11 1 ≤ 0x20)
  | 0x03 => blockField d 8 8 % 8 == 0
  | 0x04 => [0, 1, 2, 4].contains (blockField d 8 1 % 16) && decide (blockField d 8 1 / 16 ≤ 1) && blockField d 0x18 8 % 8 == 0
  | 0x05 => decide (blockField d 8 1 % 16 ≤ 2 && blockField d 8 1 / 16 ≤ 2) && blockField d 0x18 8 % 8 == 0
  | 0x06 => true
  | 0x07 => true
  | 0x08 => blockField d 0x18 8 % 8 == 0 && decide (blockField d 0x0A 2 ≤ 256 && blockField d 0x0E 2 ≤ 1024)
  | 0x09 =>
    decide (cKind d ≤ 5 && cDtype d ≤ 9 && blockField d 0x0B 1 / 16 ≤ 10) &&
      (if cKind d = 1 || reducing d then cOp d != 3 else cOp d == 0) &&
      (cTimeout d == 0 || decide (10 ≤ cTimeout d && cTimeout d ≤ 60000000))
  | 0x0A => decide (blockField d 0x0C 4 ≤ 262144)
  | 0x0B => true
  | 0x0C => decide (lowSp ≤ 3) && blockField d 0x18 8 % 16 == 0
  | 0x0D => decide (lowSp ≤ 3) && blockField d 0x18 8 % 8 == 0
  | _ => false
def descOk (d : Block) : Bool := reservedClear d && encodingsOk d

/-! ## Dispatch (R224 to R227, R242, R266, R309, R414) -/

/-- Work in flight that holds back every later descriptor of its VI: WAIT, FENCE, SEG_SET, RECIPE_LOAD, a COLL that waits
for its reservation (R242, R266, R309, R414, R497). -/
def holdsBack (f : Fly) : Bool :=
  [0x05, 0x06, 0x07, 0x08].contains (dOp f.desc) || (dOp f.desc == 0x09 && !f.started && f.fin.isNone)
/-- WAITs that all VIs have running. -/
def waitsRunning (s : State) : Nat :=
  s.vis.foldl (fun a p => a + (p.2.fly.filter fun f => isWait f.desc && f.fin.isNone).length) 0

/-- What a descriptor samples as it is dispatched: the time for STAMP (R274), SHADOW_SEQ for CONE_SNAP (R597). -/
def sampleAt (s : State) (d : Block) : Nat :=
  if dOp d = 0x0C then s.rtc.sec * 2 ^ 80 + s.rtc.sub * 2 ^ 64 + s.ringCycles % 2 ^ 64
  else if dOp d = 0x0D then s.win.seq
  else s.nowNs

/-- From its dispatch on a SEG_SET that changes a live slot takes the old contents out of use (R310, R311). -/
def changingAt (s : State) (v : Vi) (d : Block) : Option (Fin 16) :=
  if dOp d = 0x07 then (sgLive d).filter fun i => seg s v i != sgSeg d else (getVi s v).changing

/-! ### Launch queues (R261, R338) -/

def lFirst (d : Block) : Nat := blockField d 0x10 2
def lCount (d : Block) : Nat := blockField d 0x12 2 % 512
/-- The engine of launch index k. -/
def launchEng (s : State) (v : Vi) (d : Block) (k : Nat) : Option Eng := (viEngines s .ring v)[lFirst d + k]?
/-- Engines that a LAUNCH names, but for fenced ones. -/
def launchEngs (s : State) (v : Vi) (d : Block) : List Eng :=
  ((List.range (lCount d)).filterMap (launchEng s v d)).filter fun e => !engFenced s e
/-- Entries of an engine's queue that dispatched LAUNCHes are still to take. -/
def owed (s : State) (e : Eng) : Nat :=
  s.vis.foldl (fun a p => a + ((p.2.fly.filter notStarted).map fun f => (launchEngs s (viNo p.1) f.desc).count e).sum) 0
/-- Every engine that the LAUNCH names, but for fenced ones, has a free launch-queue entry. A LAUNCH that starts nothing asks
for none. -/
def launchRoom (s : State) (v : Vi) (d : Block) : Bool :=
  decide (lFirst d + lCount d > (viEngines s .ring v).length) ||
  (launchEngs s v d).all fun e => decide ((eng s e).queue.length + owed s e < 8)

/-- A descriptor that breaks R12 or R13 is a host error of its VI (R661): it ends with any status, or with no entry. -/
def badDesc (v : Vi) (f : Fly) (s : State) : State :=
  let c := wildCompl (tick s)
  updVi v (fun x => if free s % 2 = 0 then x else
    { x with fly := x.fly ++ [{ f with fin := some c }], reserved := x.reserved + 1 }) (ticks 5 (hostError v s))

/-- The next descriptor of a VI goes to its destination with one completion slot reserved. -/
def execDispatch (v : Vi) (s : State) : Out :=
  if !ringOn s v || !served s v || (getPf s (portOf v)).d3hot then .next s
  else match (getVi s v).fetched with
    | [] => .next s
    | (i, d) :: rest =>
      if (getVi s v).fly.any holdsBack || (isWait d && waitsRunning s ≥ 32) then .next s
      else if !cplRoom s v then .next (updVi v (fun x => { x with cplFull := true }) s)
      else
        let f : Fly := { idx := { idx := i, lap := (getVi s v).lap }, desc := d, at_ := sampleAt s d }
        if !descOk d then
          .next (fetchNow v (updVi v (fun x => { x with fetched := rest, cplFull := false }) (badDesc v f s)))
        else if dOp d = 0x03 && !launchRoom s v d then .next s
        else .next (fetchNow v (updVi v (fun x => { x with
          fetched := rest, fly := x.fly ++ [f], reserved := x.reserved + 1, cplFull := false, changing := changingAt s v d }) s))

/-! ## Completion entries (R227 to R232, R246, R247, R277) -/

def phaseOf (log j : Nat) : Bool := j / 2 ^ log % 2 == 0
/-- Table: Completion entry. -/
def entryBytes (tag status opcode idx stamp : Nat) (phase : Bool) (c : Compl) : List Byte :=
  natBytes 2 tag ++ natBytes 1 status ++ natBytes 1 opcode ++ natBytes 4 idx ++ natBytes 4 stamp ++
  natBytes 1 (b2n phase) ++ natBytes 1 0 ++ natBytes 2 c.detail.toNat ++ natBytes 8 c.value.toNat ++ natBytes 8 c.addr.toNat
/-- The odd half of a line whose entry is not yet written: zeros with the previous lap's phase (R230). -/
def oddEmpty (phase : Bool) : List Byte := natBytes 12 0 ++ natBytes 1 (b2n (!phase)) ++ natBytes 19 0

/-- Write the next entry of a VI: a line whole, and the index advances. -/
def putEntry (v : Vi) (tag status opcode idx : Nat) (c : Compl) (s : State) : State :=
  let x := getVi s v
  let j := x.piCpl.toNat
  let ph := phaseOf (cplLog s v) j
  let e := entryBytes tag status opcode idx (s.ringCycles % 2 ^ 32) ph c
  let line := if j % 2 = 0 then e ++ oddEmpty ph else x.evenEntry ++ e
  let s := ringWrite v (cplOff s v (j / 2 * 2)) (bytesBlock line) s
  updVi v (fun x => { x with
    piCpl := x.piCpl + 1, line1Due := true, evenEntry := if j % 2 = 0 then e else [] }) s

/-- With the last of a disabled VI's work done, RING_IDLE is set once all is visible (R247, R380). -/
def idleDue (v : Vi) (s : State) : State := if !viOn s v && (getVi s v).fly.isEmpty then ringOut v [.idle] s else s
/-- A descriptor has ended and its slot is released, if the running enable reserved it (R227, R246). -/
def dropFly (v : Vi) (i : Job) (s : State) : State :=
  idleDue v (updVi v (fun x => { x with
    fly := x.fly.filter fun f => f.idx != i, reserved := if i.lap = x.lap then x.reserved - 1 else x.reserved }) s)

/-- OK and ZERO with CPL clear write no entry. -/
def silent (d : Block) (st : Status) : Bool := !dCpl d && (st == .ok || st == .zero)
/-- The completion line lies in the host allotment. -/
def cplInAllot (s : State) (v : Vi) : Bool := inHostAllot s v (cplOff s v ((getVi s v).piCpl.toNat / 2 * 2)) 64

/-- What the entry carries: a VALUE that no rule states is a free value (R277). -/
def entryCompl (c : Compl) (s : State) : Compl := if c.openValue then { c with value := BitVec.ofNat 64 (free s) } else c

/-- How a dispatched descriptor ended: a data write that the home carried and that failed counts against an OK. -/
def ended (f : Fly) : Option Compl := match f.fin, f.fail with
  | some c, some x => if c.status = .ok then some x else some c
  | c, _ => c
/-- Data writes of a descriptor that its status waits for. -/
def jobWrites (v : Vi) (j : Job) : Who → Bool
  | .store _ x i _ _ => x == v && i == j
  | .dest _ x i _ _ => x == v && i == j
  | .data x i => x == v && i == j
  | _ => false
/-- The descriptor of a ring index that has ended, with how; the oldest enable first (R246). -/
def endedFly (s : State) (v : Vi) (i : BitVec 32) : Option (Fly × Compl) :=
  (getVi s v).fly.findSome? fun f => if f.idx.idx == i && !underWay s (jobWrites v f.idx) then (ended f).map (f, ·) else none
/-- The entry, then the interrupt once it is visible (R227, R232, R252). -/
def writeEntry (v : Vi) (f : Fly) (c : Compl) (s : State) : State :=
  let s := putEntry v (dTag f.desc) (statusCode c.status) (dOp f.desc) f.idx.idx.toNat (entryCompl c s) s
  let s := if c.openValue then tick s else s
  dropFly v f.idx (if dIrq f.desc then ringOut v [.irq vecCompletion] s else s)

/-- A dispatched descriptor that has ended leaves, with its entry where one is due: none for work of an earlier enable
(R246). -/
def execDescriptorComplete (v : Vi) (i : BitVec 32) (ok : Bool) (s : State) : Out :=
  .next (if !ringOn s v then s
    else match endedFly s v i with
      | none => s
      | some (f, c) =>
        if (getVi s v).stopped || f.idx.lap != (getVi s v).lap || silent f.desc c.status then dropFly v f.idx s
        else if !mayMaster s v then s
        else if !ok || !cplInAllot s v then stopRing v 3 false (dropFly v f.idx s)
        else writeEntry v f c s)

/-! ## The ring engine's own descriptors -/

/-- The descriptor that a command runs: dispatched, of that opcode, neither ended nor taken. -/
def fresh (s : State) (v : Vi) (i : BitVec 32) (op : Nat) : Option Fly :=
  if !ringOn s v then none
  else (getVi s v).fly.find? fun f => f.idx.idx == i && dOp f.desc == op && f.fin.isNone && !f.started
def okC (value : Nat) : Compl := { status := .ok, value := BitVec.ofNat 64 value }
/-- DESIGN CHOICE (log 84): VALUE in a ZERO entry is 0, but for LAUNCH's. -/
def zeroC : Compl := { status := .zero }

def execNop (v : Vi) (i : BitVec 32) (s : State) : Out :=
  .next (match fresh s v i 0x00 with
    | none => s
    | some f => finish v f.idx (okC 0) s)

/-- Every earlier descriptor of the VI has completed. -/
def fenceReady (s : State) (v : Vi) (i : Job) : Bool := (getVi s v).fly.head?.any fun f => f.idx == i

/-- The engines of the VI's partition. -/
def fenceEngs (s : State) (v : Vi) : List Eng := (viEngines s .ring v).filter fun e => !engFenced s e
/-- FENCE's row of Table: Drain triggers: every store of the partition's engines, every gather entry of their dies, and
whatever the VI has elsewhere. -/
def fenceDrain (v : Vi) (s : State) : State :=
  let es := fenceEngs s v
  let s := es.foldl (fun s e => flushSb e s) s
  drainVi v ((es.map kilnOf).eraseDups.foldl (fun s k => acceptThose k (fun _ => true) s) s)
def fenceMet (s : State) (v : Vi) : Bool :=
  viVisible s v && (fenceEngs s v).all fun e => drained s e && (gather s (kilnOf e)).isEmpty
/-- FENCE drains, and completes once all earlier data of the VI is visible (R242, R243). -/
def execFence (v : Vi) (i : BitVec 32) (s : State) : Out :=
  .next (match fresh s v i 0x06 with
    | none => s
    | some f =>
      if fenceReady s v f.idx then
        let s := fenceDrain v s
        if fenceMet s v then finish v f.idx (okC 0) s else s
      else s)

/-- A ring-engine access that misses waits (R303). -/
def ringMiss (v : Vi) (i : Job) (a : Nat) (s : State) : State :=
  if (getVi s v).misses.any (fun m => m.who == .ring i) then s else addMiss v a (.ring i) s
/-- How a failed ring-engine access ends its descriptor: a hole names its address (R420). -/
def ringFail (st : Status) (a : Nat) : Compl := openC st (if st = .fencedUnit then a else 0)

/-! ### SIGNAL (R265) -/

/-- The granule of an ADD is read and written at the controller. -/
def signalAdd (v : Vi) (i : Job) (x a operand : Nat) (s : State) : State :=
  if anyHole s x 8 then finish v i (ringFail .fencedUnit a) s
  else if anyPoison s x 8 then finish v i (failC .poisoned 0 a) s
  else
    let old := read64 s x
    finish v i (okC old) (acceptWrite x (natBytes 8 ((old + operand) % 2 ^ 64)) s)

/-- SIGNAL WRITE to a fabric window: one WRITE of 8 bytes under a context of its own. -/
def signalFabric (v : Vi) (f : Fly) (a operand : Nat) (s : State) : State :=
  let node := dNode f.desc
  if !canReach s node then finish v f.idx (openC .fencedUnit) s
  else match freeCtx s with
    | none => s
    | some c =>
      let s := updCtx c (fun _ => { used := true, vi := v.val, idx := f.idx, all := true }) s
      sendWrite c v node (dWindow f.desc) a 0 (natBytes 8 operand) (updFly v f.idx (fun y => { y with started := true }) s)

def signalNow (v : Vi) (f : Fly) (ok : Bool) (s : State) : State :=
  let space := blockField f.desc 8 1 % 16
  let isAdd := blockField f.desc 8 1 / 16 == 1
  let a := blockField f.desc 0x18 8
  let operand := blockField f.desc 0x20 8
  if space = 4 then (if isAdd then finish v f.idx (openC .hostAccessErr) s else signalFabric v f a operand s)
  else match trSpace s .ring v space a 8 with
    | .miss => ringMiss v f.idx a s
    | .fault => finish v f.idx (openC .segFault) s
    | .hit (.dev x) slot =>
      if !memOpen s 20 x 8 then s else
      let s := if space = 2 then touchSlot v slot s else s
      if isAdd then signalAdd v f.idx x a operand s
      else if anyHole s x 8 then finish v f.idx (ringFail .fencedUnit a) s
      else finish v f.idx (okC 0) (acceptWrite x (natBytes 8 operand) s)
    | .hit (.host x _) slot =>
      let s := if space = 2 then touchSlot v slot s else s
      if isAdd || !hostOk s v then finish v f.idx (openC .hostAccessErr) s
      else
        let s := hostRing v x (natBytes 8 operand) (.data v f.idx) s
        finish v f.idx (if ok || viaHome s v then okC 0 else openC .hostAccessErr) s

def execSignal (v : Vi) (i : BitVec 32) (ok : Bool) (s : State) : Out :=
  .next (match fresh s v i 0x04 with
    | none => s
    | some f => signalNow v f ok s)

/-! ### WAIT (R266, R267) -/

/-- COND of WAIT on masked values. -/
def waitHolds (cond value operand mask : Nat) : Bool :=
  let a := value.land mask
  let b := operand.land mask
  match cond with
  | 0 => a == b
  | 1 => a != b
  | _ => decide (b ≤ a)

/-- The read that a WAIT on host memory issues, where it may (R160): RdCurr in CXL mode, a memory read otherwise (R184). -/
def waitRead (v : Vi) (i : Job) (d : Block) (s : State) : State :=
  match trSpace s .ring v (blockField d 8 1 % 16) (blockField d 0x18 8) 8 with
  | .hit (.host x _) _ =>
    if !hostOk s v then s
    else if viaHome s v then access 16 (lineOf x) (.load true) (.poll v i) s
    else emit (.hostRead (portOf v) v x (.waitPoll i.idx)) s
  | _ => s

def execWait (v : Vi) (i : BitVec 32) (s : State) : Out :=
  .next (match fresh s v i 0x05 with
    | none => s
    | some f => waitRead v f.idx f.desc (updFly v f.idx (fun y => { y with started := true }) s))

/-- The value read is compared; the WAIT goes on while the condition does not hold. -/
def waitValue (v : Vi) (f : Fly) (value : Nat) (s : State) : State :=
  let d := f.desc
  if waitHolds (blockField d 8 1 / 16) value (blockField d 0x20 8) (blockField d 0x28 8) then finish v f.idx (okC value) s
  else waitRead v f.idx d s

/-- The host's answer to a WAIT's read. -/
def waitAnswer (v : Vi) (f : Fly) (x : Nat) (res : HostRes) (s : State) : State := match res with
  | .data d => waitValue v f (leNat (((blockBytes d).drop (x % 64)).take 8)) s
  | .poisoned => finish v f.idx (openC .poisoned) s
  | .unsupported => finish v f.idx (openC .hostAccessErr) s
  | .abort => finish v f.idx (openC .hostAccessErr) s
/-- In CXL mode the answer is what the holder has returned; a read that is not out is issued. -/
def waitHome (v : Vi) (f : Fly) (x : Nat) (s : State) : State := match retOf s (.poll v f.idx) with
  | some r => waitAnswer v f x (resOf r) (dropRet (.poll v f.idx) s)
  | none => if underWay s fun w => w == .poll v f.idx then s else waitRead v f.idx f.desc s

def waitPoll (v : Vi) (f : Fly) (res : HostRes) (s : State) : State :=
  let a := blockField f.desc 0x18 8
  match trSpace s .ring v (blockField f.desc 8 1 % 16) a 8 with
  | .miss => ringMiss v f.idx a s
  | .fault => finish v f.idx (openC .segFault) s
  | .hit (.dev x) slot =>
    if !memOpen s 20 x 8 then s else
    let s := if blockField f.desc 8 1 % 16 = 2 then touchSlot v slot s else s
    if anyHole s x 8 then finish v f.idx (ringFail .fencedUnit a) s
    else if anyPoison s x 8 then finish v f.idx (openC .poisoned) s
    else waitValue v f (read64 s x) s
  | .hit (.host x _) slot =>
    let s := if blockField f.desc 8 1 % 16 = 2 then touchSlot v slot s else s
    if !hostOk s v then finish v f.idx (openC .hostAccessErr) s
    else if viaHome s v then waitHome v f x s
    else waitAnswer v f x res s

/-- A running WAIT. -/
def waiting (s : State) (v : Vi) (i : BitVec 32) : Option Fly :=
  if !ringOn s v then none
  else (getVi s v).fly.find? fun f => f.idx.idx == i && isWait f.desc && f.fin.isNone && f.started
def execWaitPoll (v : Vi) (i : BitVec 32) (res : HostRes) (s : State) : Out :=
  .next (match waiting s v i with
    | none => s
    | some f => waitPoll v f res s)

/-! ### STAMP and CONE_SNAP (R274 to R276, R597) -/

/-- The ring engine writes a result to DST and the descriptor ends with a value. -/
def putResult (v : Vi) (f : Fly) (bs : List Byte) (value : Nat) (ok : Bool) (s : State) : State :=
  let space := blockField f.desc 0x10 1 % 16
  let a := blockField f.desc 0x18 8
  if space = 3 then
    match spAddr s .ring v a bs.length with
    | .bad c => finish v f.idx { c with openValue := true } s
    | .at_ e o => finish v f.idx (okC value) (spWrite e o bs s)
  else
    let l := piecesOf s .ring v space a bs.length
    if !openPieces s 20 l then s else
    match writePieces (.ring (.data v f.idx)) v space a l bs s with
    | (.wait m, s) => ringMiss v f.idx m s
    | (.fail st off, s) => finish v f.idx (ringFail st (a + off)) s
    | (_, s) => finish v f.idx (if needsHost l && !ok && !viaHome s v then openC .hostAccessErr else okC value) s

/-- The 16 bytes of a STAMP. -/
def stampBytes (at_ : Nat) : List Byte :=
  natBytes 6 (at_ / 2 ^ 80) ++ natBytes 2 (at_ / 2 ^ 64 % 2 ^ 15) ++ natBytes 8 (at_ % 2 ^ 64)
def execStamp (v : Vi) (i : BitVec 32) (ok : Bool) (s : State) : Out :=
  .next (match fresh s v i 0x0C with
    | none => s
    | some f => putResult v f (stampBytes f.at_) (f.at_ % 2 ^ 64) ok s)

/-- The words that a CONE_SNAP writes; with FIRST + COUNT above 352 the destination holds free bytes (R661). -/
def coneBytes (s : State) (d : Block) (seq : Nat) : List Byte :=
  let first := blockField d 8 2 % 512
  let count := blockField d 0x0A 2 % 512
  if first + count > 352 then natBytes (8 * count) (free s)
  else (List.range count).flatMap fun n =>
    natBytes 8 (if bitAt (blockField d 0x0C 1) 0 then mget 0 s.shadowBank (shadowKey (seq % 2) (first + n))
      else if h : first + n < 352 then ctrWord s ⟨first + n, h⟩ else 0)
def execConeSnap (v : Vi) (i : BitVec 32) (ok : Bool) (s : State) : Out :=
  .next (match fresh s v i 0x0D with
    | none => s
    | some f =>
      let count := blockField f.desc 0x0A 2 % 512
      if count = 0 then finish v f.idx zeroC s
      else if v ≠ vi0 then finish v f.idx (openC .fencedUnit) s
      else putResult v f (coneBytes s f.desc f.at_) count ok (tick s))

/-! ### LAUNCH (R261 to R263) -/

def launchIndex (v : Vi) (i : Job) (d : Block) (k : Nat) : Index :=
  {
    vi := v, idx := i, k := k, veng := lFirst d + k, count := lCount d,
    task := BitVec.ofNat 48 (blockField d 8 8 + 8 * k * blockField d 0x14 4), arg := BitVec.ofNat 64 (blockField d 0x18 8) }
/-- Launch index k joins its engine's queue; on a fenced engine it ends at once (R150). -/
def placeIndex (v : Vi) (i : Job) (d : Block) (s : State) (k : Nat) : State :=
  let x := launchIndex v i d k
  match launchEng s v d k with
  | none => s
  | some e =>
    if engFenced s e then indexEnded x (some (openC .fencedUnit)) 0 s
    else updEng e (fun y => { y with queue := y.queue ++ [x] }) s

def execLaunch (v : Vi) (i : BitVec 32) (s : State) : Out :=
  .next (match fresh s v i 0x03 with
    | none => s
    | some f =>
      let n := (viEngines s .ring v).length
      if lCount f.desc = 0 then finish v f.idx { zeroC with openValue := true } s
      else if lFirst f.desc + lCount f.desc > n then finish v f.idx (openC .fencedUnit 0 (max (lFirst f.desc) n)) s
      else
        let s := updFly v f.idx (fun y => { y with started := true, left := lCount f.desc }) s
        (List.range (lCount f.desc)).foldl (placeIndex v f.idx f.desc) s)

end Sys2Proof.Machine
end

