-- ==== Sys2Proof/Machine/CollData.lean ====
section
/-! DEFINITION. The data of a collective: its source and destination bytes, pieces and their reduction, what a member sends
on each edge and writes, and its progress (chapter 15). -/

namespace Sys2Proof.Machine

/-! ## Source and destination bytes (R303, R504, R518) -/

inductive Src where
  | ok (l : List Byte)
  | wait
  | fail (c : Compl)
  deriving DecidableEq, Repr

/-- The collective waits on a miss, once for an address. -/
def collMiss (g : Nat) (v : Vi) (a : Nat) (s : State) : State :=
  if (getVi s v).misses.any (fun m => m.who == .coll (grp g) && m.addr == a) then s else addMiss v a (.coll (grp g)) s

/-- n source bytes at an engine address. Host memory is asked for in blocks of 64 bytes, and waited for (R137). -/
def srcBytes (g : Nat) (c : CollSt) (a n : Nat) (s : State) : Src × State :=
  let v := collVi c
  let l := piecesOf s (.coll (fluef g)) v 2 a n
  if !openPieces s (16 + g % 4) l then (.wait, s)
  else match readAll s v a (.blocks v) l with
    | .ok bs => (.ok bs, dropBlocks v l (touchAll v 2 l s))
    | .wait m => (.wait, collMiss g v m s)
    | .pend => (.wait, askBlocks v l s)
    | .fail st off => (.fail (ringFail st (a + off)), dropBlocks v l s)

/-- Result bytes go to DST. In CXL mode the link-die line store carries them, as it does the ring engine's writes (DESIGN
CHOICE, log 65). -/
def dstBytes (g : Nat) (c : CollSt) (a : Nat) (bs : List Byte) (s : State) : Src × State :=
  let v := collVi c
  let l := piecesOf s (.coll (fluef g)) v 2 a bs.length
  if !openPieces s (16 + g % 4) l then (.wait, s)
  else match writePieces (.ring (.data v c.idx)) v 2 a l bs s with
    | (.ok _, s) => (.ok [], s)
    | (.wait m, s) => (.wait, collMiss g v m s)
    | (.pend, s) => (.wait, s)
    | (.fail st off, s) => (.fail (ringFail st (a + off)), s)

/-! ## Pieces -/

def rxKey (e off : Nat) : Nat := e * 2 ^ 64 + off
def pieceKey (e i : Nat) : Nat := e * 2 ^ 24 + i
def isChecked (c : CollSt) (e i : Nat) : Bool := (sherdOf c.desc (edgeIn c e) i).isEmpty || c.checked.contains (pieceKey e i)
/-- Data of a child is used only after its ARRIVE (R501). -/
def usable (c : CollSt) (e i : Nat) : Bool := isChecked c e i && (e == 0 || c.arrived.contains (e - 1))
def rxByte (c : CollSt) (e off : Nat) : Byte := (mget none c.rx (rxKey e off)).getD 0
def rxBytes (c : CollSt) (e : Nat) (x : Ext) : List Byte :=
  x.flatMap fun i => (List.range (i.2 - i.1)).map fun k => rxByte c e (i.1 + k)

/-- The result bytes that the member contributes or combines itself, and the offset in SRC of one of them (R502). -/
def ownExt (c : CollSt) : Ext :=
  let d := c.desc
  match cKind d with
  | 2 => [(c.rank * cBytes d, (c.rank + 1) * cBytes d)]
  | 3 => [(0, totalBytes d c.members)]
  | 4 => [(0, totalBytes d c.members)]
  | 5 => if c.rank = cRoot d then [(0, totalBytes d c.members)] else []
  | _ => []
def ownOff (c : CollSt) (off : Nat) : Nat := if cKind c.desc = 2 then off - c.rank * cBytes c.desc else off
def extLo (x : Ext) : Nat := (x.head?.map Prod.fst).getD 0
/-- The member's own bytes of sherd i, read once: SRC may be overwritten by the result afterwards (R504). -/
def ownSherd (g i : Nat) (s : State) : Src × State :=
  let c := getColl s (grp g)
  let x := sherdOf c.desc (ownExt c) i
  if x.isEmpty then (.ok [], s)
  else match mget none c.src i with
    | some l => (.ok l, s)
    | none => match srcBytes g c (cSrc c.desc + ownOff c (extLo x)) (extLen x) s with
      | (.ok l, s) => (.ok l, updColl (grp g) (fun c => { c with src := mset none c.src i (some l) }) s)
      | r => r

/-- Where a result byte comes from at this member. -/
inductive Orig where
  | own
  | edge (e : Nat)
  deriving DecidableEq, Repr

def childOf (c : CollSt) (r : Nat) : Option Nat :=
  (List.range c.kids.length).find? fun j => match (childRanges c.members c.rank)[j]? with
    | some x => x.1 ≤ r && r < x.1 + x.2
    | none => false
/-- The way to the contribution of a rank. -/
def viaRank (c : CollSt) (r : Nat) : Orig :=
  if r = c.rank then .own else match childOf c r with
    | some j => .edge (j + 1)
    | none => .edge 0
/-- The origin of a byte that is not a reduction; `up` asks for what goes toward rank 0. -/
def origin (c : CollSt) (up : Bool) (off : Nat) : Orig :=
  let d := c.desc
  match cKind d with
  | 2 => viaRank c (off / max 1 (cBytes d))
  | 5 => if up || c.parent.isNone then viaRank c (cRoot d) else .edge 0
  | _ => .edge 0
def offsOf (x : Ext) : List Nat := x.flatMap fun i => (List.range (i.2 - i.1)).map fun k => i.1 + k
/-- The bytes of an extent of sherd i, each from its origin. -/
def gatherBytes (c : CollSt) (up : Bool) (i : Nat) (x : Ext) (own : List Byte) : List Byte :=
  let lo := extLo (sherdOf c.desc (ownExt c) i)
  (offsOf x).map fun off => match origin c up off with
    | .own => own.getD (off - lo) 0
    | .edge e => rxByte c e off
/-- The edges that a piece of non-reduced data rests on. -/
def neededEdges (c : CollSt) (up : Bool) (x : Ext) : List Nat :=
  ((offsOf x).filterMap fun off => match origin c up off with
    | .edge e => some e
    | .own => none).eraseDups

def kidEdges (c : CollSt) : List Nat := (List.range c.kids.length).map (· + 1)
/-- The children in the order in which their values are combined: ascending, or as their pieces arrived (R511, R512). -/
def combineOrder (c : CollSt) (i : Nat) : List Nat :=
  if cFixed c.desc then kidEdges c
  else c.checked.filterMap fun k => if k % 2 ^ 24 = i && k / 2 ^ 24 ≠ 0 then some (k / 2 ^ 24) else none
/-- The partial reduction of this subtree over an extent of sherd i: every combine runs over the whole sherd. -/
def reduced (c : CollSt) (i : Nat) (x : Ext) (own : List Byte) : List Byte :=
  let whole := sherdOf c.desc [(0, totalBytes c.desc c.members)] i
  let l := (combineOrder c i).foldl (fun acc e => combineAll (cDtype c.desc) (cOp c.desc) acc (rxBytes c e whole)) own
  x.flatMap fun k => (l.drop (k.1 - i * cSherd c.desc)).take (k.2 - k.1)

/-- The bytes of an extent of sherd i, toward rank 0 (`up`) or of the result; none while a piece is missing. -/
def pieceData (g : Nat) (up : Bool) (i : Nat) (x : Ext) (s : State) : Option (Src × State) :=
  let c := getColl s (grp g)
  let red := reducing c.desc && (up || c.parent.isNone)
  if !(if red then kidEdges c else neededEdges c up x).all (fun e => usable c e i) then none
  else if !red && (offsOf x).all (fun off => origin c up off != .own) then some (.ok (gatherBytes c up i x []), s)
  else match ownSherd g i s with
    | (.ok own, s) => some (.ok (if red then reduced c i x own else gatherBytes c up i x own), s)
    | r => some r

/-! ## Progress of a collective -/

def grantsOf (c : CollSt) (e : Nat) : Nat := mget 0 c.grants e

/-- Position in an edge's stream: the sherd and the bytes of its piece before it. -/
def locate (d : Block) (x : Ext) : Nat → Nat → Nat → Option (Nat × Nat)
  | 0, _, _ => none
  | k + 1, i, pos =>
    let n := extLen (sherdOf d x i)
    if pos < n then some (i, pos) else locate d x k (i + 1) (pos - n)

/-- The result offset and the length of the contiguous run at byte k of an extent. -/
def runAt : Ext → Nat → Nat × Nat
  | [], _ => (0, 0)
  | i :: t, k => if k < i.2 - i.1 then (i.1 + k, i.2 - i.1 - k) else runAt t (k - (i.2 - i.1))

/-- Send on one edge what is final and granted, a frame at a time (R506 to R508). -/
def sendEdge (g e : Nat) : Nat → State → State
  | 0, s => s
  | k + 1, s =>
    let c := getColl s (grp g)
    let up := e == 0
    let x := edgeOut c e
    if !c.launched || (!up && c.parent.isNone && !c.released) then s else
    match edgeNode c e, locate c.desc x (sherdCount c.desc c.members + 1) 0 (mget 0 c.sent e) with
    | some node, some (i, pos) =>
      let px := sherdOf c.desc x i
      let (off, run) := runAt px pos
      let n := min 4096 run
      if mget 0 c.sent e + n > grantsOf c e * 65536 then s else
      match pieceData g up i px s with
      | none => s
      | some (.wait, s) => s
      | some (.fail f, s) => collFail g f s
      | some (.ok l, s) =>
        let last := pos + n == extLen px
        let f := collData s g (cSeq c.desc) node up i (off - i * cSherd c.desc) last
          (if last then crc32c l else 0) ((l.drop pos).take n)
        sendEdge g e k (sendFrame f (updColl (grp g) (fun c => { c with sent := mupd 0 c.sent e (· + n) }) s))
    | _, _ => s

/-- The sherds that this member writes. -/
def mySherds (c : CollSt) : List Nat :=
  (List.range (sherdCount c.desc c.members)).filter fun i => !(sherdOf c.desc (destExt c.desc c.members c.rank) i).isEmpty

/-- Write one result sherd to DST when it is final (R514); the member's own bytes of it have been read (R504). -/
def writeSherd (g i : Nat) (s : State) : State :=
  let c := getColl s (grp g)
  if !c.launched || c.written.contains i then s else
  let x := sherdOf c.desc (destExt c.desc c.members c.rank) i
  match pieceData g false i x s with
  | none => s
  | some (.wait, s) => s
  | some (.fail f, s) => collFail g f s
  | some (.ok l, s) =>
    match dstBytes g c (cDst c.desc + destOff c.desc c.rank (extLo x)) l s with
    | (.ok _, s) => updColl (grp g) (fun c => { c with written := c.written ++ [i] }) s
    | (.wait, s) => s
    | (.fail f, s) => collFail g f s

/-- The value that this member carries for a SCALAR_REDUCE: its own, then its children's (R510 to R512). -/
def scalarValue (g : Nat) (c : CollSt) (s : State) : Src × State :=
  match srcBytes g c (cSrc c.desc) (cBytes c.desc) s with
  | (.ok own, s) =>
    let order := if cFixed c.desc then List.range c.kids.length else c.arrived
    (.ok (order.foldl (fun acc j => combineAll (cDtype c.desc) (cOp c.desc) acc (mget [] c.scalars (j + 1))) own), s)
  | r => r

/-- Free bytes over the staging window of a member. -/
def spoilStage (g : Nat) (c : CollSt) (s : State) : State :=
  if !cStaged c.desc then s else
  let n := c.stageSlots * cSherd c.desc
  match flagEng s c, spWindow s (.coll (fluef g)) (collVi c) (c.stageSp * 2 ^ 17) n with
  | some e, some o => tick (spWrite e o (natBytes n (free s)) s)
  | _, _ => s
/-- Free bytes over DST and the staging window (R661); bytes of DST that nothing maps stay. -/
def spoil (g : Nat) (c : CollSt) (s : State) : State :=
  let v := collVi c
  let n := destLen c.desc c.members c.rank
  let l := piecesOf s (.coll (fluef g)) v 2 (cDst c.desc) n
  let s := spoilStage g c s
  tick (writeAll (.ring .other) v (natBytes n (free s)) l s).2
def noteWritten (g : Nat) (s : State) : State := updColl (grp g) (fun c => { c with written := [0] }) s

/-- What a released member without a data stream still owes DST: nothing, the scalar result, or the free bytes of a host
error. -/
def landScalar (g : Nat) (s : State) : State :=
  let c := getColl s (grp g)
  if !c.released || !barrierLike c || c.written.contains 0 then s
  else if isBad c then noteWritten g (spoil g c s)
  else
    let l := mget [] c.scalars 0
    if cKind c.desc = 1 && !l.isEmpty then
      match dstBytes g c (cDst c.desc) l s with
      | (.ok _, s) => noteWritten g s
      | (.wait, s) => s
      | (.fail f, s) => collFail g f s
    else noteWritten g s
/-- Pass RELEASE down, and take the scalar result (R503). -/
def releaseDown (g : Nat) (payload : List Byte) (s : State) : State :=
  let s := updColl (grp g) (fun c => { c with released := true, scalars := mset [] c.scalars 0 payload }) s
  let c := getColl s (grp g)
  if !barrierLike c then s else
  landScalar g (c.kids.foldl (fun s n => sendFrame (collCtl s g (cSeq c.desc) n 1 0 0 payload) s) s)

/-- Once every child's ARRIVE is in, the member's own goes up; at rank 0 the collective is released (R501, R503). -/
def arriveUp (g : Nat) (s : State) : State :=
  let c := getColl s (grp g)
  if !c.launched || c.arriveSent || c.arrived.length < c.kids.length then s else
  let val : Src × State := if cKind c.desc = 1 && !isBad c then scalarValue g c s else (.ok [], s)
  match val with
  | (.wait, s) => s
  | (.fail f, s) => collFail g f s
  | (.ok l, s) =>
    let s := updColl (grp g) (fun c => { c with arriveSent := true }) s
    match c.parent with
    | some n => sendFrame (collCtl s g (cSeq c.desc) n 0 0 (signature c) l) s
    | none => releaseDown g l s

/-- Everything that has become possible: ARRIVE, frames on every edge, result sherds. -/
def progress (g : Nat) (s : State) : State :=
  let s := landScalar g (arriveUp g s)
  let c := getColl s (grp g)
  if !c.launched || isBad c then s else
  let s := (edges c).foldl (fun s e =>
    sendEdge g e (sherdCount c.desc c.members * 2 + grantsOf (getColl s (grp g)) e * 16 + 2) s) s
  (mySherds c).foldl (fun s i => writeSherd g i s) s

/-- Every edge has sent all that it carries. -/
def allSent (c : CollSt) : Bool := (edges c).all fun e => mget 0 c.sent e == extLen (edgeOut c e)
/-- The result is delivered, placed and, where the home carries it, written (R503, R516). -/
def collDone (s : State) (c : CollSt) : Bool :=
  c.launched && c.arriveSent && !underWay s (jobWrites (collVi c) c.idx) &&
  (if barrierLike c then c.released && c.written.contains 0
   else allSent c && (mySherds c).all (fun i => c.written.contains i) &&
     (!cStaged c.desc || (mySherds c).all fun i => c.placed.contains i))

end Sys2Proof.Machine
end

