-- ==== Sys2Proof/Machine/Movers.lean ====
section
/-! DEFINITION. COPY and FILL through the movers (R257 to R260, R479, R481, R484). -/

namespace Sys2Proof.Machine

/-! ## Descriptor fields -/

def mLen (d : Block) : Nat := blockField d 8 5
def mSrcSpace (d : Block) : Nat := blockField d 0x10 1 % 16
def mDstSpace (d : Block) : Nat := blockField d 0x10 1 / 16
def mSrc (d : Block) : Nat := blockField d 0x18 8
def mDst (d : Block) : Nat := blockField d 0x20 8
def isCopy (d : Block) : Bool := dOp d == 0x01

/-! ## The choice of a mover (R257) -/

/-- The movers that AUTO may choose: those of the kiln dies that hold engines of the VI's partition, or all. -/
def autoMovers (s : State) (v : Vi) : List Mover :=
  let ks := (viEngines s .ring v).map kilnOf
  if ks.isEmpty then allMovers else allMovers.filter fun m => ks.contains (kilnOfMover m)
/-- The mover in service with the fewest queued descriptors; ties go to the lower number. -/
def leastQueued (s : State) : List Mover → Option Mover
  | [] => none
  | m :: t =>
    let r := leastQueued s t
    if moverFenced s m then r
    else match r with
      | none => some m
      | some q => if (getMv s q).queue.length < (getMv s m).queue.length then some q else some m
def chooseMover (s : State) (v : Vi) (d : Block) : Option Mover :=
  let n := blockField d 0x11 1
  if n = 0 then leastQueued s (autoMovers s v)
  else
    let m : Mover := ⟨(n - 1) % 32, by omega⟩
    if moverFenced s m then none else some m

/-! ## Blocks (R258) -/

/-- The bytes of the block at position pos: blocks end at 4 KiB boundaries of the destination. -/
def blockLen (d : Block) (pos : Nat) : Nat := min (mLen d - pos) (4096 - (mDst d + pos) % 4096)

/-- The runs of memory that a range reaches, for the overlap test of R259: through a live segment, or through the one that
its overflow entry will make live. -/
inductive Mem where
  | dev | host | sp (e : Eng)
  deriving DecidableEq, Repr
def reachTarget (n : Nat) : Target → Mem × Nat × Nat
  | .dev x => (.dev, x, n)
  | .host x _ => (.host, x, n)
def reach (s : State) (m : Mover) (v : Vi) (space a n : Nat) : List (Mem × Nat × Nat) :=
  if space = 3 then match spAddr s (.mover m) v a n with
    | .at_ e o => [(.sp e, o, n)]
    | .bad _ => []
  else (piecesOf s (.mover m) v space a n).filterMap fun p => match p.tr with
    | .hit t _ => some (reachTarget p.len t)
    | .miss => (ovfTarget s (.mover m) v (a + p.off) p.len).map (reachTarget p.len)
    | .fault => none
/-- Source and destination of a COPY overlap in what they reach. -/
def overlaps (s : State) (m : Mover) (v : Vi) (d : Block) : Bool :=
  isCopy d && mDstSpace d != 4 &&
  (reach s m v (mSrcSpace d) (mSrc d) (mLen d)).any fun x =>
    (reach s m v (mDstSpace d) (mDst d) (mLen d)).any fun y =>
      x.1 == y.1 && decide (x.2.1 < y.2.1 + y.2.2 && y.2.1 < x.2.1 + x.2.2)

/-- The pieces of a mover's block. A block already begun goes on under the contents of a slot that a SEG_SET is changing
(R310). -/
def blockPieces (s : State) (m : Mover) (v : Vi) (space a n : Nat) : List Piece :=
  piecesOf (if (getMv s m).asked = 0 then s else updVi v (fun x => { x with changing := none }) s) (.mover m) v space a n
def sourcePieces (s : State) (m : Mover) (v : Vi) (d : Block) (pos : Nat) : List Piece :=
  blockPieces s m v (mSrcSpace d) (mSrc d + pos) (blockLen d pos)
def destPieces (s : State) (m : Mover) (v : Vi) (d : Block) (pos : Nat) : List Piece :=
  blockPieces s m v (mDstSpace d) (mDst d + pos) (blockLen d pos)
/-- The source of the block is memory, and not a scratchpad or a pattern. -/
def memSource (d : Block) : Bool := isCopy d && mSrcSpace d != 3
def memDest (d : Block) : Bool := mDstSpace d < 3

/-- A block that fails: VALUE and ADDR as R258 gives; for a SCRATCH address of a fenced engine DETAIL names it (R277). -/
def blockFail (st : Status) (pos space a : Nat) : Compl :=
  failC st pos a (if st = .fencedUnit ∧ space = 3 then a / 2 ^ 48 else 0)

/-- The bytes of a block: the source's, or the pattern's (R260). -/
def blockSource (s : State) (m : Mover) (v : Vi) (d : Block) (pos : Nat) (host : HostAns) : Acc :=
  let n := blockLen d pos
  if !isCopy d then
    .ok ((List.range n).map fun i =>
      BitVec.ofNat 8 (blockField d 0x18 8 / 256 ^ ((pos + i) % 2 ^ (blockField d 0x12 1 % 4))))
  else if mSrcSpace d = 3 then match spAddr s (.mover m) v (mSrc d + pos) n with
    | .at_ e o => .ok (spRead s e o n)
    | .bad c => .fail c.status 0
  else readAll s v (mSrc d + pos) host (sourcePieces s m v d pos)

/-- The mover asks for the host pieces of its block from where it has asked before, as far as the first piece that misses
(R303). -/
def askPieces (m : Mover) (v : Vi) : List Piece → State → State
  | [], s => s
  | p :: t, s =>
    if p.off < (getMv s m).asked then askPieces m v t s
    else match p.tr with
      | .miss => s
      | .hit (.host x stream) _ =>
        let k := kilnOfMover m
        let s := if hostOk s v then hostLoad (.hub k) k v x p.len stream (.moverBlock m) (.source m) s else s
        askPieces m v t (updMv m (fun y => { y with asked := p.off + p.len }) s)
      | _ => askPieces m v t (updMv m (fun y => { y with asked := p.off + p.len }) s)
/-- A mover stands between two descriptors: its safe point (R8). -/
def betweenMoves (s : State) (m : Mover) : Bool := (getMv s m).pos == 0 && (getMv s m).asked == 0 && (getMv s m).ctx.isNone
/-- There it takes up a committed set before it begins another (R605). -/
def heldForSet (s : State) (m : Mover) : Bool := s.applying && s.unitsLeft.contains (.mover m) && betweenMoves s m
/-- A mover begins its block, or goes on asking for it. -/
def startBlock (m : Mover) (s : State) : State :=
  if heldForSet s m then s else
  match (getMv s m).queue with
  | [] => s
  | (v, i) :: _ => match flyOf s v i with
    | none => s
    | some f => if memSource f.desc then askPieces m v (sourcePieces s m v f.desc (getMv s m).pos) s else s

/-- What was read for the mover's last block is taken up. -/
def takenUp (m : Mover) (s : State) : State := forget (fun w => w == .source m) s
/-- The mover turns to its next block, or to its next descriptor. -/
def nextBlock (m : Mover) (pos : Nat) (s : State) : State :=
  startBlock m (takenUp m (updMv m (fun x => { x with pos := pos, asked := 0 }) s))
def nextDesc (m : Mover) (s : State) : State :=
  startBlock m (takenUp m (updMv m (fun x => { queue := x.queue.tail }) s))
def endDesc (m : Mover) (v : Vi) (i : Job) (c : Compl) (s : State) : State := nextDesc m (finish v i c s)

/-! ## COPY and FILL start -/

/-- The engine checks of SCRATCH addresses, then their windows (R256). -/
def scratchCheck (s : State) (m : Mover) (v : Vi) (d : Block) : Option Compl :=
  let src := if isCopy d && mSrcSpace d = 3 then [spAddr s (.mover m) v (mSrc d) (mLen d)] else []
  let dst := if mDstSpace d = 3 then [spAddr s (.mover m) v (mDst d) (mLen d)] else []
  let bad := (src ++ dst).filterMap fun x => match x with | .bad c => some c | .at_ _ _ => none
  (bad.find? fun c => c.status == .fencedUnit).orElse fun _ => bad.head?

/-- COPY and FILL: ZERO, then the mover, then the engines of SCRATCH addresses; then the mover's queue. -/
def startMove (v : Vi) (f : Fly) (s : State) : State :=
  let d := f.desc
  if mLen d = 0 then finish v f.idx zeroC s
  else match chooseMover s v d with
    | none => finish v f.idx (failC .fencedUnit) s
    | some m => match scratchCheck s m v d with
      | some c => finish v f.idx c s
      | none =>
        let idle := (getMv s m).queue.isEmpty
        let s := updMv m (fun x => { x with queue := x.queue ++ [(v, f.idx)] }) (updFly v f.idx (fun y => { y with started := true }) s)
        if idle then startBlock m s else s

def execCopy (v : Vi) (i : BitVec 32) (s : State) : Out :=
  .next (match fresh s v i 0x01 with
    | none => s
    | some f => startMove v f s)
def execFill (v : Vi) (i : BitVec 32) (s : State) : Out :=
  .next (match fresh s v i 0x02 with
    | none => s
    | some f => startMove v f s)

/-! ## One block -/

def moverMiss (m : Mover) (v : Vi) (a : Nat) (s : State) : State :=
  if (getVi s v).misses.any (fun x => x.who == .mover m) then s else addMiss v a (.mover m) s

/-- A block was written: on to the next, or the descriptor ends with OK. -/
def blockDone (m : Mover) (v : Vi) (f : Fly) (s : State) : State :=
  let pos := (getMv s m).pos
  let pos := pos + blockLen f.desc pos
  if pos ≥ mLen f.desc then endDesc m v f.idx (okC (mLen f.desc)) s else nextBlock m pos s

/-- No more WRITEs follow: the context waits for its last answer, and the mover goes on (R481, R484). -/
def closeCtx (m : Mover) (c : Nat) (s : State) : State :=
  nextDesc m (ctxCheck c (updCtx c (fun x => { x with all := true }) s))

/-- A source failure of a descriptor with a FABRIC destination: WRITEs already sent are awaited. -/
def sourceFail (m : Mover) (v : Vi) (f : Fly) (c : Compl) (s : State) : State :=
  match (getMv s m).ctx with
  | none => endDesc m v f.idx c s
  | some k => closeCtx m k.toNat (updFly v f.idx (fun y => { y with fail := some c }) s)

/-- The block goes out as one WRITE; the first one takes a context, and waits in the mover while none is free. -/
def fabricBlock (m : Mover) (v : Vi) (f : Fly) (pos : Nat) (l : List Byte) (s : State) : State :=
  let d := f.desc
  if (getMv s m).ctx.isNone && !canReach s (dNode d) then endDesc m v f.idx (failC .fencedUnit) s
  else
    let c := match (getMv s m).ctx with
      | some k => some k.toNat
      | none => freeCtx s
    match c with
    | none => s
    | some c =>
      let s := if (getMv s m).ctx.isSome then s
        else updMv m (fun x => { x with ctx := some (BitVec.ofNat 12 c) })
          (updCtx c (fun _ => { used := true, vi := v.val, idx := f.idx, mover := some m, total := mLen d }) s)
      let s := sendWrite c v (dNode d) (dWindow d) (mDst d + pos) pos l s
      if pos + l.length ≥ mLen d then closeCtx m c s else nextBlock m (pos + l.length) s

/-- How the writing of a block ends. -/
inductive BlockEnd where
  | written | wait (a : Nat) | failed (c : Compl)
  deriving DecidableEq, Repr
/-- Write the bytes of one block to a destination on this device or in host memory; `ok` says what the host port answers to
its writes where the home does not carry them. -/
def blockWrite (m : Mover) (v : Vi) (f : Fly) (pos : Nat) (l : List Byte) (ok : Bool) (s : State) : BlockEnd × State :=
  let d := f.desc
  let a := mDst d + pos
  if mDstSpace d = 3 then match spAddr s (.mover m) v a l.length with
    | .bad c => (.failed (blockFail c.status pos 3 a), s)
    | .at_ e o => (.written, spWrite e o l s)
  else
    let ps := destPieces s m v d pos
    match writePieces (.mover m (.dest m v f.idx pos a)) v (mDstSpace d) a ps l s with
    | (.wait x, s) => (.wait x, s)
    | (.fail st _, s) => (.failed (blockFail st pos (mDstSpace d) a), s)
    | (_, s) => (if needsHost ps && !ok && !viaHome s v then .failed (failC .hostAccessErr pos a) else .written, s)

/-- What the host has answered about the block's source. -/
def blockAns (s : State) (m : Mover) (v : Vi) (res : BlockRes) : HostAns :=
  if viaHome s v then .home (.source m)
  else match res with
    | .done l => .given l
    | .poisoned => .bad .poisoned
    | .hostFailed true => .bad .hostAccessErr
    | .hostFailed false => .given []
/-- The destination's host writes are answered with a failure. -/
def destOk : BlockRes → Bool
  | .hostFailed b => b
  | _ => true
/-- The bytes to write: free bytes where source and destination overlap (R259), the source counting as hit (R294). -/
def blockData (s : State) (m : Mover) (v : Vi) (d : Block) (l : List Byte) : List Byte :=
  if overlaps s m v d then natBytes l.length (free s) else l
def touchBlock (s : State) (m : Mover) (v : Vi) (d : Block) : State :=
  let t := if overlaps s m v d then tick s else s
  if memSource d then touchAll v (mSrcSpace d) (sourcePieces s m v d (getMv s m).pos) t else t

/-- The dies that the block's device memory lies on can be reached (R667). -/
def blockOpen (s : State) (m : Mover) (v : Vi) (d : Block) : Bool :=
  let pos := (getMv s m).pos
  let k := (kilnOfMover m).val
  (!memSource d || openPieces s k (sourcePieces s m v d pos)) && (!memDest d || openPieces s k (destPieces s m v d pos))

/-- One block of the running descriptor. A failure in the order of addresses, source first, ends it (R258, R280); a block
whose host data is not whole has not ended. -/
def doBlock (m : Mover) (v : Vi) (f : Fly) (res : BlockRes) (s : State) : State :=
  let d := f.desc
  let pos := (getMv s m).pos
  if !blockOpen s m v d then s else
  match blockSource s m v d pos (blockAns s m v res) with
  | .pend => s
  | .wait a => moverMiss m v a s
  | .fail st _ => sourceFail m v f (blockFail st pos (mSrcSpace d) (mSrc d + pos)) s
  | .ok l =>
    let bs := blockData s m v d l
    let s := touchBlock s m v d
    if mDstSpace d = 4 then fabricBlock m v f pos bs s
    else match blockWrite m v f pos bs (destOk res) s with
      | (.wait a, s) => moverMiss m v a s
      | (.failed c, s) => endDesc m v f.idx c s
      | (.written, s) => blockDone m v f s

/-- The running descriptor leaves without an ending. -/
def dropMove (m : Mover) (s : State) : State :=
  nextDesc m (match (getMv s m).ctx with
    | some c => updCtx c.toNat (fun _ => {}) s
    | none => s)
/-- The last block of a transfer whose VI is being reset: a block already begun is finished, and the transfer ends at its
boundary (R163). -/
def lastBlock (m : Mover) (v : Vi) (f : Fly) (res : BlockRes) (s : State) : State :=
  let d := f.desc
  let pos := (getMv s m).pos
  if (getMv s m).asked = 0 then dropMove m s
  else match blockSource s m v d pos (blockAns s m v res) with
    | .pend => s
    | .ok l =>
      dropMove m (if mDstSpace d = 4 then fabricLast m v f pos (blockData s m v d l) s
        else (blockWrite m v f pos (blockData s m v d l) (destOk res) (touchBlock s m v d)).2)
    | _ => dropMove m s
where
  fabricLast (m : Mover) (v : Vi) (f : Fly) (pos : Nat) (l : List Byte) (s : State) : State :=
    match (getMv s m).ctx with
    | some c => sendWrite c.toNat v (dNode f.desc) (dWindow f.desc) (mDst f.desc + pos) pos l s
    | none => s

/-- A mover acts: it is in service, its hub runs, and its descriptor does not wait on a miss. -/
def moverOn (s : State) (m : Mover) : Bool := running s && !moverFenced s m && islandRuns s (.hub (kilnOfMover m))

def execMoverBlock (m : Mover) (res : BlockRes) (s : State) : Out :=
  .next (if !moverOn s m then s
    else match (getMv s m).queue with
      | [] => s
      | (v, i) :: _ => match flyOf s v i with
        | none => dropMove m s
        | some f =>
          if (getVi s v).resetting then lastBlock m v f res s
          else if f.fin.isSome then nextDesc m s
          else if heldForSet s m || (getVi s v).misses.any (fun x => x.who == .mover m) then s
          else doBlock m v f res s)

end Sys2Proof.Machine
end

