-- ==== Sys2Proof/Machine/Segments.lean ====
section
/-! DEFINITION. Segments in service: miss service, the watchdog and SEG_SET (chapter 9). -/

namespace Sys2Proof.Machine

/-- Device firmware acts. -/
def firmwareOn (s : State) : Bool := running s && islandRuns s .mgmt

/-! ## The overflow list (R289 to R293, R670) -/

/-- Table: Overflow entry, with every reserved bit 0. -/
def ovfBytes (g : Seg) (valid host : Bool) : List Byte :=
  natBytes 8 (g.vbase * 2 ^ 21) ++ natBytes 8 (g.target * 2 ^ 21) ++ natBytes 4 g.size ++
  natBytes 1 (b2n valid + 2 * b2n host + 4 * (if host then g.attr else 0)) ++ natBytes 11 0
/-- The entry that a SEG_SET to an overflow slot writes (R670). -/
def sgOvf (d : Block) : Ovf := { seg := sgSeg d, valid := (sgSeg d).size != 0, host := sgHost d }
/-- The overflow entry that a SEG_SET in flight changes: from its dispatch on, its old contents are out of use (R310,
R311). -/
def ovfChanging (s : State) (v : Vi) : Option Nat :=
  ((getVi s v).fly.find? fun f => dOp f.desc == 0x07 && f.fin.isNone && decide (sgSlot f.desc ≥ 8) &&
    readOvf s v (sgSlot f.desc - 8) != sgOvf f.desc).map fun f => sgSlot f.desc - 8

/-! ## The slot that a swap replaces (R294) -/

/-- A routine past its commit microword pins the slot. -/
def pinned (s : State) (v : Vi) (i : Fin 16) : Bool :=
  s.engs.any fun p => p.2.run.any fun r => r.ix.vi == v && r.phase == .post && r.pins.contains i
/-- When a slot was last hit; a disabled slot counts before all. -/
def hitOrder (s : State) (v : Vi) (i : Fin 16) : Nat := if (seg s v i).size = 0 then 0 else mget 0 (getVi s v).segHit i.val + 1
def kindSlots (host : Bool) : List (Fin 16) := (List.finRange 16).filter fun i => isHostSlot i == host
/-- The least recently hit unpinned slot of a kind; ties go to the lower slot. -/
def swapSlot (s : State) (v : Vi) (host : Bool) : Option (Fin 16) :=
  ((kindSlots host).filter fun i => !pinned s v i && (getVi s v).changing != some i).foldl (fun a i => match a with
    | none => some i
    | some j => if hitOrder s v i < hitOrder s v j then some i else some j) none

/-! ## Misses that end -/

/-- A unit that waited on a miss goes on: a routine starts again, a collective continues, a mover asks for the rest of its
block, and a WAIT reads (R298, R303). -/
def wakeRun (v : Vi) (r : Run) : Run := if r.ix.vi = v then { r with waitMiss := false } else r
def wakeWho (v : Vi) (w : MissWho) (s : State) : State :=
  match w with
  | .engine e => updEng e (fun x => { x with run := x.run.map (wakeRun v), away := x.away.map (wakeRun v) }) s
  | .task e => updEng e (fun x => { x with run := x.run.map (wakeRun v), away := x.away.map (wakeRun v) }) s
  | .coll g => progress g.val s
  | .mover m => startBlock m s
  | .ring i => match (flyOf s v i).filter fun f => isWait f.desc && f.started && f.fin.isNone with
    | some f => waitRead v i f.desc s
    | none => s
/-- Every miss of the VI that a predicate names is tried again. -/
def wakeMisses (v : Vi) (p : Miss → Bool) (s : State) : State :=
  let l := (getVi s v).misses.filter p
  let s := l.foldl (fun s m => wakeWho v m.who s) s
  let us := (l.map fun m => (s.nowNs - m.at_) / 1000).foldl max 0
  let s := fset .segLongest 0 (min (max (fget s .segLongest) us) 4095) s
  updVi v (fun x => { x with misses := x.misses.filter fun m => !p m }) (fcount .segMisses 0 20 l.length s)

/-- The side of a mover's block that a miss address lies on. -/
def moverFault (m : Mover) (v : Vi) (a : Nat) (s : State) : State :=
  match (getMv s m).queue.head?.bind fun q => flyOf s q.1 q.2 with
  | none => s
  | some f =>
    let pos := (getMv s m).pos
    let n := blockLen f.desc pos
    let src := mSrc f.desc + pos
    if isCopy f.desc && mSrcSpace f.desc = 2 && src ≤ a && a < src + n then
      sourceFail m v f (blockFail .segFault pos 2 src) s
    else endDesc m v f.idx (blockFail .segFault pos 2 (mDst f.desc + pos)) s

/-- An access that waited completes as a segment fault (R292, R304, R305). -/
def missFault (v : Vi) (m : Miss) (s : State) : State :=
  let s := updVi v (fun x => { x with misses := x.misses.erase m }) s
  let s := fcount .segFaults 0 12 1 (fcount .segMisses 0 20 1 s)
  match m.who with
  | .engine e => failIndex e .segFault m.addr s
  | .task e => failIndex e .segFault m.addr s
  | .ring i => finish v i (openC .segFault) s
  | .mover k => moverFault k v m.addr s
  | .coll g => collFail g.val (openC .segFault) s
/-- The run that waits on a miss was switched away: its index ends from there. -/
def missFaultOf (v : Vi) (m : Miss) (s : State) : State :=
  let away := fun (e : Eng) => match (eng s e).away.find? fun r => r.ix.vi == v with
    | some r =>
      let s := updVi v (fun x => { x with misses := x.misses.erase m }) s
      let s := fcount .segFaults 0 12 1 (fcount .segMisses 0 20 1 s)
      let s := updEng e (fun x => { x with away := x.away.filter fun r => r.ix.vi != v }) s
      indexEnded r.ix (some (failC .segFault m.addr)) 0 s
    | none => missFault v m s
  match m.who with
  | .engine e => away e
  | .task e => away e
  | _ => missFault v m s

/-! ## Serving a miss (R292 to R296) -/

/-- Exchange entry e with a live slot: the slot's contents go back first. An entry in a hole is never found, so that write
meets none (R293). -/
def swapIn (v : Vi) (e : Nat) (i : Fin 16) (s : State) : State :=
  let x := readOvf s v e
  let old := seg s v i
  let s := acceptWrite (ovfAddr s v e) (ovfBytes old (old.size != 0) (isHostSlot i)) s
  let s := setSeg v i (if isHostSlot i then x.seg else { x.seg with attr := 0 }) s
  touchSlot v i (fcount .segSwaps 0 20 1 s)

/-- The oldest miss of a VI is served. -/
def serveMiss (v : Vi) (m : Miss) (s : State) : State :=
  match liveSlot s v m.addr with
  | some i => wakeMisses v (fun x => covers (seg s v i) x.addr) s
  | none =>
    -- R310: an address that only a changing slot covers is served after the SEG_SET
    if (getVi s v).changing.any fun i => covers (seg s v i) m.addr then s
    else match findOvf s v m.addr with
      | none => missFaultOf v m s
      | some e => if ovfChanging s v = some e then s else match swapSlot s v (readOvf s v e).host with
        | none => s
        | some i =>
          let g := (readOvf s v e).seg
          wakeMisses v (fun x => covers g x.addr) (swapIn v e i s)

def execSegMissService (v : Vi) (s : State) : Out :=
  .next (if !firmwareOn s then s
    else match (getVi s v).misses with
      | [] => s
      | m :: _ => serveMiss v m s)

/-- The watchdog of R297 acts on the miss that has waited longest. -/
def execMissWatchdog (v : Vi) (s : State) : Out :=
  .next (if !running s then s
    else match (getVi s v).misses with
      | [] => s
      | m :: _ =>
        let s := report .mgmt 0x26 v.val (some v.val) (partOf s v) s
        missFaultOf v m s)

/-! ## SEG_SET (R268, R286, R287, R309 to R311) -/

/-- The cases of R287 in which nothing changes, with the status. -/
def segSetBad (s : State) (v : Vi) (d : Block) : Option Status :=
  let g := sgSeg d
  let allot := if sgHost d then (allotHost s .ring v).2 else (allotDev s .ring v).2
  if (g.vbase + g.size) * 2 ^ 21 > 2 ^ 48 then some .segFault
  else if g.size > 0 && (g.target + g.size) * 2 ^ 21 > allot then some .segFault
  else if sgSlot d ≥ 8 && (!ovfOn s v || !ovfInside s v) then some .segFault
  else if sgSlot d ≥ 8 && anyHole s (ovfAddr s v (sgSlot d - 8)) 32 then some .fencedUnit
  else none

/-- Routines of the VI before commit that have hit the slot are abandoned (R310). -/
def abandonHits (v : Vi) (i : Fin 16) (s : State) : State :=
  allEngs.foldl (fun s e => match runOf s e with
    | some r => if r.ix.vi = v && r.phase = .pre && r.hits.contains (isHostSlot i, seg s v i) then abandon e s else s
    | none => s) s
/-- A COLL of the VI named an address that a segment covers. -/
def collUses (g : Seg) (c : CollSt) : Bool :=
  let hit := fun (a n : Nat) => decide (a < (g.vbase + g.size) * 2 ^ 21 && g.vbase * 2 ^ 21 < a + n)
  let n := max (totalBytes c.desc c.members) (cBytes c.desc)
  hit (cSrc c.desc) n || hit (cDst c.desc) n
/-- A mover's block that has begun names an address that a segment covers. -/
def moverUses (s : State) (v : Vi) (g : Seg) (m : Mover) : Bool :=
  let x := getMv s m
  let hit := fun (a n : Nat) => decide (a < (g.vbase + g.size) * 2 ^ 21 && g.vbase * 2 ^ 21 < a + n)
  x.asked != 0 && match x.queue with
    | (w, j) :: _ => w == v && (flyOf s w j).any fun f =>
        (isCopy f.desc && mSrcSpace f.desc == 2 && hit (mSrc f.desc + x.pos) (blockLen f.desc x.pos)) ||
        (mDstSpace f.desc == 2 && hit (mDst f.desc + x.pos) (blockLen f.desc x.pos))
    | [] => false
/-- The old segment is out of use: no pin, no mover block begun, no COLL in flight that names it (R310). -/
def segFree (s : State) (v : Vi) (i : Fin 16) : Bool :=
  !pinned s v i && !allMovers.any (moverUses s v (seg s v i)) &&
  s.colls.all fun q => !(q.2.active && q.2.vi == v.val && collUses (seg s v i) q.2)

/-- SEG_SET's entry names its slot in DETAIL (R277). -/
def segOk (d : Block) : Compl := { okC 0 with detail := BitVec.ofNat 16 (sgSlot d) }
def endSegSet (v : Vi) (i : Job) (c : Compl) (s : State) : State :=
  finish v i c (updVi v (fun x => { x with changing := none }) s)

/-- A live slot changes: its old contents leave use first. -/
def setLive (v : Vi) (f : Fly) (i : Fin 16) (s : State) : State :=
  let g := sgSeg f.desc
  if seg s v i = g then endSegSet v f.idx (segOk f.desc) s
  else
    let s := abandonHits v i (updVi v (fun x => { x with changing := some i }) s)
    if !segFree s v i then s else endSegSet v f.idx (segOk f.desc) (setSeg v i g s)

/-- An overflow entry is written whole (R670) once no COLL in flight names an address in its old segment; equal contents
change nothing (R311). -/
def setOvf (v : Vi) (f : Fly) (e : Nat) (s : State) : State :=
  let old := readOvf s v e
  if old = sgOvf f.desc then finish v f.idx (segOk f.desc) s
  else if old.valid && s.colls.any (fun q => q.2.active && q.2.vi == v.val && collUses old.seg q.2) then s
  else
    let g := sgSeg f.desc
    finish v f.idx (segOk f.desc) (acceptWrite (ovfAddr s v e) (ovfBytes g (g.size != 0) (sgHost f.desc)) s)

def execSegSet (v : Vi) (i : BitVec 32) (s : State) : Out :=
  .next (match (if firmwareOn s then fresh s v i 0x07 else none) with
    | none => s
    | some f =>
      match segSetBad s v f.desc with
      | some st => endSegSet v f.idx (openC st 0 (sgSlot f.desc)) s
      | none => match sgLive f.desc with
        | some k => setLive v f k s
        | none => setOvf v f (sgSlot f.desc - 8) s)

end Sys2Proof.Machine
end

