-- ==== Sys2Proof/Machine/Firmware.lean ====
section
/-! DEFINITION. Descriptors that device firmware serves, but for SEG_SET: RECIPE_LOAD (chapter 12), GROUP_SET
(chapter 15) and WINDOW_SET (chapters 13 and 14). -/

namespace Sys2Proof.Machine

/-- Device firmware serves the descriptors of one VI in dispatch order. -/
def isFirmware (d : Block) : Bool := [0x07, 0x08, 0x0A, 0x0B].contains (dOp d)
def firstServed (s : State) (v : Vi) (i : BitVec 32) : Bool :=
  ((getVi s v).fly.find? fun f => isFirmware f.desc && f.fin.isNone).any fun f => f.idx.idx == i
def served1 (s : State) (v : Vi) (i : BitVec 32) (op : Nat) : Option Fly :=
  if firmwareOn s && firstServed s v i then fresh s v i op else none

/-! ## RECIPE_LOAD (R269, R410 to R414) -/

def rFirst (d : Block) : Nat := blockField d 8 2
def rCount (d : Block) : Nat := blockField d 0x0A 2 % 512
def rOff (d : Block) : Nat := blockField d 0x0C 2 % 1024
def rWords (d : Block) : Nat := blockField d 0x0E 2 % 2048
def rActivate (d : Block) : Bool := bitAt (blockField d 0x10 1) 0
/-- The first virtual engine that is out of range or fenced (R411). -/
def recipeBadVeng (s : State) (v : Vi) (d : Block) : Option Nat :=
  ((List.range (rCount d)).map (· + rFirst d)).find? fun n => match (viEngines s .ring v)[n]? with
    | some e => engFenced s e
    | none => true
/-- The engines that it names. -/
def recipeEngs (s : State) (v : Vi) (d : Block) : List Eng :=
  (List.range (rCount d)).filterMap fun k => (viEngines s .ring v)[rFirst d + k]?

/-- The words of an image, 24 bytes each. -/
def wordsOf (n : Nat) (l : List Byte) : List (BitVec 192) :=
  (List.range n).map fun k => BitVec.ofNat 192 (leNat ((l.drop (24 * k)).take 24))
def putWords : List (BitVec 192) → Nat → SMap (BitVec 192) → SMap (BitVec 192)
  | [], _, m => m
  | w :: t, k, m => putWords t (k + 1) (mset 0 m k w)
/-- Change the inactive open bank of an engine (R269). -/
def updBank (f : SMap (BitVec 192) → SMap (BitVec 192)) (x : EngSt) : EngSt :=
  if x.active then { x with bank0 := f x.bank0 } else { x with bank1 := f x.bank1 }
/-- Unpredictable words (R413, R661): free ones. -/
def freeBank (n : Nat) : SMap (BitVec 192) := (List.range 1024).map fun k => (k, BitVec.ofNat 192 (n / 2 ^ (192 * k)))
def spoilBanks (v : Vi) (d : Block) (s : State) : State :=
  tick ((recipeEngs s v d).foldl (fun s e => updEng e (updBank fun _ => freeBank (free s)) s) s)

def endRecipe (v : Vi) (i : Job) (c : Compl) (s : State) : State :=
  finish v i c { s with lastLoad := (statusCode c.status, v.val) }

/-- Between routines an engine swaps at once. -/
def betweenRoutines (x : EngSt) : Bool := x.run.all fun r => r.phase == .between
/-- The loaded bank is to become active: now, or at the engine's next task boundary (R349, R412). -/
def activateBank (e : Eng) (s : State) : State :=
  updEng e (fun x => if betweenRoutines x then swapBank { x with swapDue := true } else { x with swapDue := true }) s

/-- Step 2: SRC is read once through the VI's device segments; what a host segment maps is a segment fault. -/
def recipeSource (s : State) (v : Vi) (d : Block) : Acc :=
  let a := blockField d 0x18 8
  readAll s v a (.given []) ((piecesOf s .ring v 2 a (24 * rWords d)).map fun p => if isHostPiece p then { p with tr := .fault } else p)

/-- Step 3 and 4 on every named engine. -/
def loadBanks (v : Vi) (d : Block) (l : List Byte) (s : State) : State :=
  let es := recipeEngs s v d
  let s := if rOff d + rWords d > 1024 then spoilBanks v d s
    else es.foldl (fun s e => updEng e (updBank (putWords (wordsOf (rWords d) l) (rOff d))) s) s
  if rActivate d then es.foldl (fun s e => activateBank e s) s else s

/-- The load completes after its last step: every swap has taken place, or its engine has left service. -/
def recipeDone (v : Vi) (f : Fly) (s : State) : State :=
  if (recipeEngs s v f.desc).all fun e => engFenced s e || !(eng s e).swapDue then
    endRecipe v f.idx (okC (rWords f.desc * rCount f.desc)) s
  else s

def recipeStart (v : Vi) (f : Fly) (s : State) : State :=
  let d := f.desc
  if rCount d = 0 || rWords d = 0 then endRecipe v f.idx zeroC s
  else if fgetU s .ring .rcpEn v.val = 0 then endRecipe v f.idx (openC .fencedUnit) s
  else match recipeBadVeng s v d with
    | some n => endRecipe v f.idx (openC .fencedUnit 0 n) s
    | none => if !openPieces s 20 (piecesOf s .ring v 2 (blockField d 0x18 8) (24 * rWords d)) then s else
      match recipeSource s v d with
      | .pend => s
      | .wait a => ringMiss v f.idx a s
      | .fail st off => endRecipe v f.idx (ringFail st (blockField d 0x18 8 + off)) (spoilBanks v d s)
      | .ok l =>
        let s := touchAll v 2 (piecesOf s .ring v 2 (blockField d 0x18 8) (24 * rWords d)) s
        let s := loadBanks v d l (updFly v f.idx (fun y => { y with started := true }) s)
        recipeDone v f s

/-- The command serves a fresh load, and completes one that waits for its swaps. -/
def execRecipeLoad (v : Vi) (i : BitVec 32) (s : State) : Out :=
  .next (if !firmwareOn s || !ringOn s v then s
    else match (getVi s v).fly.find? fun f => f.idx.idx == i && dOp f.desc == 0x08 && f.fin.isNone with
      | none => s
      | some f => if f.started then recipeDone v f s else recipeStart v f s)

/-! ## GROUP_SET (R270, R490, R491) -/

def gsGroup (d : Block) : Nat := blockField d 8 2 % 4096
def gsDelete (d : Block) : Bool := bitAt (blockField d 0x0A 1) 0
def gsMembers (d : Block) : Nat := blockField d 0x0C 4 % 2 ^ 19
def gsRank (d : Block) : Nat := blockField d 0x10 4 % 2 ^ 18
def gsTimeout (d : Block) : Nat := blockField d 0x14 4 % 2 ^ 26
def gsList (d : Block) : Nat := blockField d 0x18 8 % 2 ^ 48

/-- An access to a table entry in PF0's device allotment: what stops it (R420, R426). DESIGN CHOICE (log 84): no space of the
descriptor names a table entry, and ADDR of one in a hole is its device address. -/
def tableStop (s : State) (off a n : Nat) : Option Compl :=
  if off + n > (allotDev s .ring vi0).2 then some (openC .segFault)
  else if anyHole s a n then some (openC .fencedUnit a)
  else if anyPoison s a n then some (openC .poisoned)
  else none
def groupStop (s : State) (g : Nat) : Option Compl :=
  tableStop s (fget s .groupBase * 2 ^ 16 + 64 * g) (groupAddr s g) 64
def groupBusy (s : State) (g : Nat) : Bool := (getColl s (grp g)).active
/-- The group belongs to another VI. -/
def groupForeign (s : State) (g : Nat) (v : Vi) : Bool := gValid s g && gOwner s g != v.val

/-- The node ID of list entry k. -/
def listNode (l : List Byte) (k : Nat) : Nat := leNat ((l.drop (4 * k)).take 4) % 2 ^ 18
/-- Table: Group entry, with PARENT and CHILD of R493. -/
def groupEntry (v : Vi) (d : Block) (l : List Byte) : List Byte :=
  let kids := (childRanges (gsMembers d) (gsRank d)).map fun x => listNode l x.1
  let par := match parentRank (gsMembers d) (gsRank d) with
    | some r => listNode l r + 2 ^ 31
    | none => 0
  natBytes 4 (gsMembers d) ++ natBytes 4 (gsRank d) ++ natBytes 4 (gsTimeout d) ++ natBytes 2 (v.val + 2 ^ 15) ++
  natBytes 1 kids.length ++ natBytes 1 0 ++ natBytes 4 par ++ (kids.flatMap fun n => natBytes 4 n) ++
  natBytes (32 - 4 * kids.length) 0 ++ natBytes 4 0 ++ natBytes 4 (crc32c l) ++ natBytes 4 0

/-- A group's entry is written; LAST_SEQ restarts, and with it what a closed collective left behind. -/
def defineGroup (v : Vi) (f : Fly) (s : State) : State :=
  let d := f.desc
  let g := gsGroup d
  let n := 4 * gsMembers d
  if gsRank d ≥ gsMembers d then finish v f.idx (openC .collMismatch) s
  else
    let ps := piecesOf s .ring v 2 (gsList d) n
    if !openPieces s 20 ps then s else
    match readAll s v (gsList d) (.blocks v) ps with
    | .pend => askBlocks v ps s
    | .wait a => ringMiss v f.idx a (askBlocks v ps s)
    | .fail st off => finish v f.idx (ringFail st (gsList d + off)) (dropBlocks v ps s)
    | .ok l =>
      let s := touchAll v 2 ps (dropBlocks v ps s)
      if listNode l (gsRank d) ≠ ownNode s then finish v f.idx (openC .collMismatch) s
      else finish v f.idx (okC 0) (acceptWrite (groupAddr s g) (groupEntry v d l) s)

def execGroupSetDefine (v : Vi) (i : BitVec 32) (s : State) : Out :=
  .next (match served1 s v i 0x0A with
    | none => s
    | some f =>
      let g := gsGroup f.desc
      if gsDelete f.desc then s
      else if gsMembers f.desc = 0 then finish v f.idx zeroC s
      else match groupStop s g with
        | some c => finish v f.idx c s
        | none =>
          if groupBusy s g then s
          else if groupForeign s g v then finish v f.idx (openC .collMismatch) s
          else defineGroup v f s)

/-- VALID of the entry clears; a group that nobody has defined has none to clear. -/
def execGroupSetDelete (v : Vi) (i : BitVec 32) (s : State) : Out :=
  .next (match served1 s v i 0x0A with
    | none => s
    | some f =>
      let g := gsGroup f.desc
      if !gsDelete f.desc then s
      else match groupStop s g with
        | some c => finish v f.idx c s
        | none =>
          if groupBusy s g then s
          else if groupForeign s g v then finish v f.idx (openC .collMismatch) s
          else
            let a := groupAddr s g + 0x0D
            finish v f.idx (okC 0) (acceptWrite a (natBytes 1 ((readByte s a).toNat % 128)) s))

/-! ## WINDOW_SET (R271, R435, R437, R448) -/

def wsWindow (d : Block) : Nat := blockField d 8 2 % 4096
def wsClose (d : Block) : Bool := bitAt (blockField d 0x0A 1) 0
def wsIngest (d : Block) : Bool := bitAt (blockField d 0x0A 1) 1
def wsBase (d : Block) : Nat := blockField d 0x10 8 % 2 ^ 48
def wsSize (d : Block) : Nat := blockField d 0x18 8 % 2 ^ 48
def wsPeer (d : Block) : Nat := blockField d 0x20 4 % 2 ^ 18
def wsQp (d : Block) : Nat := blockField d 0x24 2 % 4096
def winOf (s : State) (ingest : Bool) (w : Nat) : Win := mget {} (if ingest then s.iwin else s.fwin) w
def newWin (v : Vi) (d : Block) : Win :=
  {
    open_ := true, vi := v.val, rkey := BitVec.ofNat 32 (blockField d 0x0C 4), base := wsBase d, size := wsSize d,
    peer := wsPeer d, qp := wsQp d }

/-- The QP entry as WINDOW_SET OPEN reads it (Table: QP entry). -/
def readQp (s : State) (q w : Nat) : Qp :=
  let a := qpAddr s q
  let byte := fun (o : Nat) => (readByte s (a + o)).toNat
  let word := fun (o n : Nat) => leNat (readBytes s (a + o) n)
  {
    bound := true, window := w, rtr := byte 0 % 4 == 1, errCause := byte 7 % 16, port := byte 2 % 32,
    pmtu := 2 ^ (7 + byte 1 % 8), pcp := byte 3 % 8, destQpn := word 8 3, epsn := word 0x0C 3, msn := word 0x10 3,
    drops := word 0x14 4 }
def qpStop (s : State) (q : Nat) : Option Compl :=
  tableStop s (fget s .qpBase * 2 ^ 12 + 64 * q) (qpAddr s q) 64

/-- An ingest window opens with its QP: not bound yet, in RTR, its port's mask bit set. -/
def openIngest (v : Vi) (f : Fly) (s : State) : State :=
  let d := f.desc
  let q := wsQp d
  if (getQp s (grp q)).bound then finish v f.idx (openC .ingestWindow) s
  else match qpStop s q with
    | some c => finish v f.idx c s
    | none =>
      let x := readQp s q (wsWindow d)
      if !x.rtr || !bitAt (fget s .portMask) x.port then finish v f.idx (openC .ingestWindow) s
      else
        let s := if (winOf s true (wsWindow d)).open_ then closeIngest (wsWindow d) s else s
        let s := updQp (grp q) (fun _ => x) s
        finish v f.idx (okC 0) { s with iwin := mset {} s.iwin (wsWindow d) (newWin v d) }

def execWindowSetOpen (v : Vi) (i : BitVec 32) (s : State) : Out :=
  .next (match served1 s v i 0x0B with
    | none => s
    | some f =>
      let d := f.desc
      let old := winOf s (wsIngest d) (wsWindow d)
      if wsClose d then s
      else if wsSize d = 0 then finish v f.idx zeroC s
      else if old.open_ && old.vi != v.val then finish v f.idx (openC .ingestWindow) s
      else if wsIngest d && (getQp s (grp (wsQp d))).bound then finish v f.idx (openC .ingestWindow) s
      else if wsBase d + wsSize d > (allotDev s .ring v).2 then finish v f.idx (openC .segFault) s
      else if wsIngest d then openIngest v f s
      else finish v f.idx (okC 0) { s with fwin := mset {} s.fwin (wsWindow d) (newWin v d) })

def execWindowSetClose (v : Vi) (i : BitVec 32) (s : State) : Out :=
  .next (match served1 s v i 0x0B with
    | none => s
    | some f =>
      let d := f.desc
      let old := winOf s (wsIngest d) (wsWindow d)
      if !wsClose d then s
      else if !old.open_ || old.vi != v.val then finish v f.idx (openC .ingestWindow) s
      else if wsIngest d then finish v f.idx (okC 0) (closeIngest (wsWindow d) s)
      else finish v f.idx (okC 0) { s with fwin := mset {} s.fwin (wsWindow d) {} })

end Sys2Proof.Machine
end

