-- ==== Sys2Proof/Machine/Flags.lean ====
section
/-! DEFINITION. Every flag the manual computes: Z and N of the scalar unit, and the states of sherd flags and mailbox
slots that waits test (chapters 10 and 12). -/

namespace Sys2Proof.Machine

/-! ## Z and N (Table: SOP encodings) -/

def zOf (r : U64) : Bool := r == 0
def nOf (r : U64) : Bool := r.msb
/-- CMPU: Z if equal, N if the first is unsigned below the second. -/
def cmpuZ (a b : U64) : Bool := a == b
def cmpuN (a b : U64) : Bool := decide (a.toNat < b.toNat)

/-! ## Sherd flags (R315 to R317, R336, R398, R523) -/

def flagAt (s : State) (e : Eng) (f : Nat) : Flag := mget .clear (eng s e).flags f
/-- The VI's flags v to v + n - 1, as engine flags; none for one outside the window. -/
def flagRange (s : State) (e : Eng) (v : Vi) (f n : Nat) : List (Nat × Option Nat) :=
  (List.range n).map fun k => (f + k, flagWindow s (eu e) v (f + k))
/-- What a wait on flags finds: an invalid flag, a FAILED one, one still CLEAR, or all set. -/
inductive FlagWait where
  | invalid (f : Nat) | failed (f : Nat) | clear | met
  deriving DecidableEq, Repr
def flagWait (s : State) (e : Eng) (v : Vi) (f n : Nat) : FlagWait :=
  let l := flagRange s e v f n
  match l.find? fun p => p.2.isNone with
  | some p => .invalid p.1
  | none =>
    match l.find? fun p => p.2.any fun g => flagAt s e g == .failed with
    | some p => .failed p.1
    | none => if l.any fun p => p.2.any fun g => flagAt s e g == .clear then .clear else .met

/-- A flag of a range that stays FAILED returns to FAILED (R523). -/
def refails (s : State) (e : Eng) (g : Nat) : Bool :=
  s.refail.any fun r => r.eng == e && decide (r.base ≤ g && g < r.base + r.count)
def clearFlag (e : Eng) (s : State) (g : Nat) : State :=
  updEng e (fun x => { x with flags := mset .clear x.flags g (if refails s e g then .failed else .clear) }) s

/-! ## Mailbox slots (R316) -/

def slotAt (s : State) (e : Eng) (n : Nat) : Slot := mget {} (eng s e).slots n
def slotOk (s : State) (e : Eng) (v : Vi) (n : Nat) : Bool := slotWindow s (eu e) v n

end Sys2Proof.Machine
end

