-- ==== Sys2Proof/Machine/Arrays.lean ====
section
/-! DEFINITION. What the matrix array and the vector unit compute over scratchpad bytes (R320 to R324, R332, R333,
R662, R663). -/

namespace Sys2Proof.Machine

/-! ## Matrix shapes and elements (Table: Matrix shapes and rates) -/

def mxK : MxFmt → Nat
  | .int4 => 256 | .int8 => 256 | .fp8 => 256 | .bf16 => 128 | .fp16 => 128
def mxN : MxFmt → Nat
  | .int4 => 256 | .int8 => 128 | .fp8 => 128 | .bf16 => 64 | .fp16 => 64
/-- Bits of an element. -/
def mxBits : MxFmt → Nat
  | .int4 => 4 | .int8 => 8 | .fp8 => 8 | .bf16 => 16 | .fp16 => 16
def mxIsInt : MxFmt → Bool
  | .int4 => true | .int8 => true | _ => false
def tileBytes (f : MxFmt) : Nat := mxK f * mxN f * mxBits f / 8
def rowBytes (f : MxFmt) : Nat := mxK f * mxBits f / 8
/-- One of the 256 row slices of a shift. -/
def sliceBytes (f : MxFmt) : Nat := tileBytes f / 256

/-- The code of element i of an operand. -/
def elemCode (f : MxFmt) (l : List Byte) (i : Nat) : Nat :=
  match f with
  | .int4 => (l.getD (i / 2) 0).toNat / 16 ^ (i % 2) % 16
  | .int8 => (l.getD i 0).toNat
  | .fp8 => (l.getD i 0).toNat
  | _ => leNat ((l.drop (2 * i)).take 2)
/-- The floating-point format of an operand; `e5` selects FP8_E5M2. -/
def mxFmt (f : MxFmt) (e5 : Bool) : Fmt :=
  match f with
  | .bf16 => bf16 | .fp16 => fp16 | _ => if e5 then e5m2 else e4m3

/-- One level of the balanced tree: neighbouring pairs are added in FP32. -/
def addPairs : List FV → List FV
  | a :: b :: t => fdecode fp32 (fround fp32 false (Machine.vadd a b)) :: addPairs t
  | l => l
def treeSum : Nat → List FV → FV
  | 0, l => l.headD (.fin false 0 0)
  | n + 1, l => match l with
    | [x] => x
    | l => treeSum n (addPairs l)

/-- The sum of products of one element of a matrix product (R322), without the prior accumulator. -/
def dotFp (f : MxFmt) (e5t e5m : Bool) (row tile : List Byte) (n : Nat) : Nat :=
  fround fp32 false (treeSum 9 ((List.range (mxK f)).map fun k =>
    Machine.vmul (fdecode (mxFmt f e5m) (elemCode f row k)) (fdecode (mxFmt f e5t) (elemCode f tile (k * mxN f + n)))))
def dotInt (f : MxFmt) (row tile : List Byte) (n : Nat) : Int :=
  (List.range (mxK f)).foldl (fun a k =>
    a + signed (elemCode f row k) (mxBits f) * signed (elemCode f tile (k * mxN f + n)) (mxBits f)) 0

/-- The accumulators of one moving row, from the prior ones when ACC is set (R322). -/
def streamRow (f : MxFmt) (acc e5t e5m : Bool) (row tile prior : List Byte) : List Byte :=
  (List.range (mxN f)).flatMap fun n =>
    let old := leNat ((prior.drop (4 * n)).take 4)
    natBytes 4 (
      if mxIsInt f then ((dotInt f row tile n + (if acc then (old : Int) else 0)) % (2 ^ 32 : Nat)).toNat
      else if acc then fadd fp32 (dotFp f e5t e5m row tile n) old
      else dotFp f e5t e5m row tile n)

/-! ## Vectors of 512 lanes -/

/-- Vector operations (VOP and entries 0x030 to 0x037). -/
inductive VOp where
  | fma | add | mul | max | min | exp | rsq
  deriving DecidableEq, Repr

def laneOf (l : List Byte) (w i : Nat) : Nat := leNat ((l.drop (w * i)).take w)
/-- One lane: A = B × C + A, B + C, B × C, max, min, e^B, 1/√B. -/
def vlane (op : VOp) (a b c : Nat) : Nat :=
  match op with
  | .fma => ffma fp32 b c a
  | .add => fadd fp32 b c
  | .mul => fmul fp32 b c
  | .max => fmax fp32 b c
  | .min => fmin fp32 b c
  | .exp => fexp (BitVec.ofNat 32 b)
  | .rsq => frsq (BitVec.ofNat 32 b)
def vectorOp (op : VOp) (a b c : List Byte) : List Byte :=
  (List.range 512).flatMap fun i => natBytes 4 (vlane op (laneOf a 4 i) (laneOf b 4 i) (laneOf c 4 i))
def vectorCvt (src dst : Nat) (sat : Bool) (b : List Byte) : List Byte :=
  (List.range 512).flatMap fun i => natBytes (dtypeBytes dst) (vcvt src dst sat (laneOf b (dtypeBytes src) i))

end Sys2Proof.Machine
end

