-- ==== Sys2Proof/Machine/Micro.lean ====
section
/-! DEFINITION. The microword, the registers of a routine, and the issue of one slot of a word (R389 to R399). Slot
commands run open routines; what a vendor routine does is given whole (R330). -/

namespace Sys2Proof.Machine

/-! ## The microword (Table: Microword) -/

def wCommit (w : Nat) : Bool := bitAt w 178
def wEnd (w : Nat) : Bool := bitAt w 177
def wSeq (w : Nat) : Nat := bits w 173 4
def wTarget (w : Nat) : Nat := bits w 161 12
def wLcsel (w : Nat) : Bool := bitAt w 160
def wSop (w : Nat) : Nat := bits w 156 4
def wMop (w : Nat) : Nat := bits w 108 4
def wMxop (w : Nat) : Nat := bits w 76 4
def wVop (w : Nat) : Nat := bits w 44 4
def wSrc1 (w : Nat) : Nat := bits w 144 6
def wSimm (w : Nat) : Nat := bits w 122 16
def wTbi (w : Nat) : Nat := bits w 86 10
/-- The operands of each slot as the word holds them. -/
def wAlu (w : Nat) : Alu :=
  {
    dst := BitVec.ofNat 6 (bits w 150 6), src1 := BitVec.ofNat 6 (wSrc1 w), src2 := BitVec.ofNat 6 (bits w 138 6),
    imm := BitVec.ofNat 16 (wSimm w), sel := BitVec.ofNat 2 (bits w 120 2) }
def wMem (w : Nat) : MemSlot :=
  {
    addr := BitVec.ofNat 6 (bits w 102 6), sp := BitVec.ofNat 6 (bits w 96 6), tbi := BitVec.ofNat 10 (wTbi w),
    ord := BitVec.ofNat 2 (bits w 84 2), ainc := bitAt w 83 }
def mxOf : Nat → MxFmt
  | 0 => .int4 | 1 => .int8 | 2 => .fp8 | 3 => .bf16 | _ => .fp16
def wFmt (w : Nat) : MxFmt := mxOf (bits w 73 3)
def wStream (w : Nat) : StreamSlot :=
  {
    fmt := wFmt w, acc := bitAt w 72, e5t := bitAt w 71, e5m := bitAt w 70, src := BitVec.ofNat 6 (bits w 64 6),
    dst := BitVec.ofNat 6 (bits w 58 6), inc := bitAt w 51 }
def wMsrc (w : Nat) : BitVec 6 := BitVec.ofNat 6 (bits w 64 6)
def wMidx (w : Nat) : BitVec 6 := BitVec.ofNat 6 (bits w 52 6)
def wVec (w : Nat) : VecSlot :=
  {
    dst := BitVec.ofNat 6 (bits w 38 6), src1 := BitVec.ofNat 6 (bits w 32 6), src2 := BitVec.ofNat 6 (bits w 26 6),
    inc := bitAt w 16 }
def wCvtSrc (w : Nat) : Nat := bits w 22 4
def wCvtDst (w : Nat) : Nat := bits w 18 4
def wSat (w : Nat) : Bool := bitAt w 17

/-- A reserved bit that is not 0, or a reserved encoding (R389). -/
def wordBad (w : Nat) : Bool :=
  bits w 112 8 != 0 || bits w 80 3 != 0 || bits w 48 3 != 0 || bits w 0 16 != 0 ||
  decide (wSeq w > 9 || wSop w > 0xB || wMop w > 0xC || wMxop w > 3 || wVop w > 8) || bits w 84 2 == 3 ||
  decide (wMxop w != 0 && bits w 73 3 > 4) || (wVop w == 8 && decide (wCvtSrc w > 9 || wCvtDst w > 9))

/-- The word at an address of the running routine's region (R383, R388). -/
def wordAt (s : State) (e : Eng) (a : Nat) : Nat :=
  if a ≥ 3072 then (mget 0 (activeBank (eng s e)) (a - 3072)).toNat else (s.vendor.getD a 0).toNat

/-! ## Registers (Table: Microword registers, R390) -/

/-- The routine runs its words: the register file as the word's sources see it. -/
def srcRegs (r : Run) : Regs := r.src.getD r.regs
def opA (r : Run) : Nat := bits r.word.toNat 16 16
def opB (r : Run) : Nat := bits r.word.toNat 32 16
def opC (r : Run) : Nat := bits r.word.toNat 48 16
def xReg (g : Regs) (n : Nat) : U64 := mget 0 g.x n
/-- A register's value. A read of EXITV, which the manual gives none, is a free value `fr`. -/
def readReg (r : Run) (fr : Nat) (n : BitVec 6) : U64 :=
  let g := srcRegs r
  let k := n.toNat
  if k < 0x10 then mget 0 g.u k
  else if k < 0x20 then xReg g (k - 0x10)
  else match k with
    | 0x20 => BitVec.ofNat 64 (opA r)
    | 0x21 => BitVec.ofNat 64 (opB r)
    | 0x22 => BitVec.ofNat 64 (opC r)
    | 0x23 => xReg g (opA r % 16)
    | 0x24 => xReg g (opB r % 16)
    | 0x25 => xReg g (opC r % 16)
    | 0x26 => r.task.setWidth 64
    | 0x27 => (g.nexta.getD (r.task + 8)).setWidth 64
    | 0x28 => g.lc0.setWidth 64
    | 0x29 => g.lc1.setWidth 64
    | 0x2A => BitVec.ofNat 64 r.cycles
    | 0x2B => g.mres
    | 0x2C => BitVec.ofNat 64 fr
    | _ => 0

def setX (g : Regs) (n : Nat) (v : U64) : Regs := { g with x := mset 0 g.x n v }
/-- Write a register; writes to read-only and reserved registers are discarded. -/
def writeReg (r : Run) (n : BitVec 6) (v : U64) : Run :=
  let g := r.regs
  let k := n.toNat
  if k < 0x10 then { r with regs := { g with u := mset 0 g.u k v } }
  else if k < 0x20 then { r with regs := setX g (k - 0x10) v }
  else match k with
    | 0x23 => { r with regs := setX g (opA r % 16) v }
    | 0x24 => { r with regs := setX g (opB r % 16) v }
    | 0x25 => { r with regs := setX g (opC r % 16) v }
    | 0x27 => { r with regs := { g with nexta := some (v.setWidth 48) } }
    | 0x28 => { r with regs := { g with lc0 := v.setWidth 16 } }
    | 0x29 => { r with regs := { g with lc1 := v.setWidth 16 } }
    | 0x2C => { r with regs := { g with exitv := some v } }
    | _ => r
/-- Operand 2 of the scalar slot (SEL). -/
def operand2 (r : Run) (fr : Nat) (a : Alu) : U64 :=
  match a.sel with
  | 0 => readReg r fr a.src2
  | 1 => a.imm.setWidth 64
  | 2 => a.imm.signExtend 64
  | 3 => a.imm.setWidth 64 <<< 16

/-! ## Holding (R395) and the run of words -/

/-- An engine issues: in service, running, its island neither parked nor stopped. -/
def engOn (s : State) (e : Eng) : Bool := running s && !engFenced s e && islandRuns s (.engine e)

/-- The open routine of an engine and the word it is at. -/
def openWord (s : State) (e : Eng) : Option (Run × Nat) :=
  if !engOn s e then none
  else match runOf s e with
    | some r => if r.open_ && r.phase != .between && !r.waitMiss then some (r, wordAt s e r.upc) else none
    | none => none

/-- The commit microword: the first word with COMMIT, or END, to issue (R399). -/
def isCommitWord (r : Run) (w : Nat) : Bool := r.phase == .pre && (wCommit w || wEnd w)
def tbBusy (s : State) (e : Eng) (n : Nat) : Bool := (eng s e).tbOut.any fun p => p.1.toNat == n
/-- Every LD64 and LDR of the attempt has been performed. -/
def loadsDone (r : Run) : Bool := r.loads.isEmpty && r.ldr.isNone

/-- The wait of SEQ is met; after commit a wait encoding acts as NEXT, and a word with END ignores SEQ (R397, R398). -/
def seqMet (s : State) (e : Eng) (r : Run) (w : Nat) : Bool :=
  let v := readReg r (free s) (BitVec.ofNat 6 (wSrc1 w))
  let slot := fun (st : SlotSt) => slotOk s e r.ix.vi (v.toNat % 4) && (slotAt s e (v.toNat % 4)).st == st
  if r.phase != .pre || wEnd w then true
  else match wSeq w with
    | 6 => flagWait s e r.ix.vi (v.toNat % 1024) (wSimm w) == .met
    | 7 => slot .down
    | 8 => slot .free
    | 9 => loadsDone r
    | _ => true
/-- Every store of the engine can be made visible at once, as an STC's does before it (R355, Table: Drain triggers). -/
def drainMet (s : State) (e : Eng) : Bool := drained (drainEngine e s) e
/-- The memory slot's own condition is met. A load or a reserved access also waits for what the mesh, or its granule, holds
back (R360, R667); a conditional store for the engine's earlier stores (R355). -/
def mopMet (s : State) (e : Eng) (r : Run) (w : Nat) : Bool :=
  let a := (readReg r (free s) (wMem w).addr).toNat
  match wMop w with
  | 1 => !tbBusy s e (wTbi w) && accessOpen s e r.ix.vi a 64
  | 3 => !tbBusy s e (wTbi w)
  | 4 => !tbBusy s e (wTbi w)
  | 5 => granuleOpen s e r.ix.vi a
  | 6 => drainMet s e && granuleOpen s e r.ix.vi a
  | 7 => r.phase != .pre || (barMet s e && loadsDone r)
  | 8 => r.phase != .pre || drained s e
  | _ => true
/-- A held word issues nothing. The commit microword also waits for every load of the attempt. -/
def held (s : State) (e : Eng) (r : Run) (w : Nat) : Bool :=
  !seqMet s e r w || !mopMet s e r w || (r.acquire && !loadsDone r) || (isCommitWord r w && !loadsDone r)

/-- One held cycle. -/
def holdCycle (e : Eng) (s : State) : State := updRun e (fun r => { r with cycles := r.cycles + 1 }) s

/-! ## Issuing one slot -/

/-- The first slot of a word fixes what every slot of it reads. -/
def markSlot (k : Nat) (r : Run) : Run := { r with src := some (srcRegs r), done := r.done ++ [k] }

/-- A word with a reserved bit or encoding is a host error of the routine's VI (R389, R661). It goes on by its fields; where
it holds an encoding of no command it never ends, until R402 ends the index. -/
def badWord (r : Run) (w : Nat) (s : State) : State := if wordBad w then hostError r.ix.vi s else s
/-- Issue slot k of the word when the word holds what the command names: the slot has not issued, the word is not held, and
a commit microword has committed. What the slot does gets the run, the word and a free value. -/
def issue (e : Eng) (k : Nat) (is : Nat → Bool) (act : Run → Nat → Nat → State → Out) (s : State) : Out :=
  match openWord s e with
  | none => .next s
  | some (r, w) =>
    if r.done.contains k || !is w then .next s
    else if isCommitWord r w || held s e r w then .next s
    else act { r with src := some (srcRegs r) } w (free s) (tick (updRun e (markSlot k) (badWord r w s)))

/-- A slot that may be used only before, or only after, the commit microword (Table: MOP encodings). In the wrong phase it is
a host error (R661): it issues, and does nothing of its own. -/
def beforeCommit (e : Eng) (k : Nat) (is : Nat → Bool) (act : Run → Nat → Nat → State → Out) (s : State) : Out :=
  issue e k is (fun r w fr s => if r.phase = .pre then act r w fr s else .next (hostError r.ix.vi s)) s
def afterCommit (e : Eng) (k : Nat) (is : Nat → Bool) (act : Run → Nat → Nat → State → Out) (s : State) : Out :=
  issue e k is (fun r w fr s => if r.phase = .post then act r w fr s else .next (hostError r.ix.vi s)) s

/-- An operand check that fails: before commit the index ends, after it at its task boundary (R319, R392). -/
def opFail (e : Eng) (st : Status) (value : Nat) (s : State) : State :=
  match runOf s e with
  | some r => if r.phase = .post then lateFail e (failC st value) s else failIndex e st value s
  | none => s
/-- The engine offset of n bytes at a VI's scratchpad offset: 64-byte aligned and in the window (R317, R331). -/
def spCheck (s : State) (e : Eng) (v : Vi) (o n : Nat) : Option Nat := if o % 64 ≠ 0 then none else spWindow s (eu e) v o n

/-- Increments of U registers that take effect at the end of the word (R390, R393, R394). -/
def addIncs (e : Eng) (l : List (BitVec 6 × Nat)) (s : State) : State :=
  updRun e (fun r => { r with incs := r.incs ++ l.filter fun p => decide (p.1.toNat < 16) }) s
/-- Each register that a slot names, once. -/
def onceEach : List (BitVec 6 × Nat) → List (BitVec 6 × Nat)
  | [] => []
  | p :: t => p :: (onceEach t).filter fun q => q.1 != p.1

/-! ## The end of a word -/

/-- Every slot that the word uses has issued. -/
def wordDone (r : Run) (w : Nat) : Bool :=
  (wSop w == 0 || r.done.contains 0) && (wMop w == 0 && !(wMem w).ainc || r.done.contains 1) && (wMxop w == 0 || r.done.contains 2) &&
  (wVop w == 0 || r.done.contains 3)
/-- Increments land, but on the register that the scalar slot wrote. -/
def applyIncs (r : Run) : Run :=
  let r' := r.incs.foldl (fun x p =>
    if r.sopDst == some p.1 then x
    else writeReg x p.1 (mget 0 x.regs.u p.1.toNat + BitVec.ofNat 64 p.2)) r
  { r' with incs := [], sopDst := none, src := none, done := [], gate := none, cycles := r.cycles + 1 }
/-- The word ends and the sequencer goes to a word address of the routine's region. -/
def endWord (e : Eng) (next : Nat) (s : State) : State :=
  updRun e (fun r => { applyIncs r with upc := wordAddr r.open_ next }) s

/-- A sequencing command: the word's other slots have issued, and the word has no END. -/
def sequence (e : Eng) (is : Nat → Bool) (act : Run → Nat → State → Out) (s : State) : Out :=
  match openWord s e with
  | none => .next s
  | some (r, w) =>
    if !is w || wEnd w || !wordDone r w then .next s
    else if isCommitWord r w then .next s
    else if held s e r w then .next (holdCycle e (tick s))
    else act { r with src := some (srcRegs r) } w (tick (badWord r w s))

end Sys2Proof.Machine
end

