-- ==== Sys2Proof/Machine/Vendor.lean ====
section
/-! DEFINITION. The vendor routines (R330 to R337, R354): what each checks and does before its commit microword, what
its commit waits for, and what it does after (Tables: Vendor routines, Ordering routines). -/

namespace Sys2Proof.Machine

/-- The vendor routines by entry. -/
inductive Rt where
  | nop | exit | setw | add | addi | loop
  | lds (acq : Bool) | sts (rel : Bool)
  | mm (f : MxFmt) (wait : Bool)
  | vec (op : VOp) | vcvt
  | mbrx | mbtx | fwait | fclr | ldr | stc | bar
  deriving DecidableEq, Repr

def rtOf (entry : Nat) : Option Rt :=
  match entry with
  | 0x000 => some .nop | 0x001 => some .exit | 0x002 => some .setw | 0x003 => some .add | 0x004 => some .addi
  | 0x005 => some .loop
  | 0x008 => some (.lds false) | 0x009 => some (.sts false) | 0x00A => some (.lds true) | 0x00B => some (.sts true)
  | 0x010 => some (.mm .int4 false) | 0x011 => some (.mm .int8 false) | 0x012 => some (.mm .fp8 false)
  | 0x013 => some (.mm .bf16 false) | 0x014 => some (.mm .fp16 false)
  | 0x020 => some (.mm .int4 true) | 0x021 => some (.mm .int8 true) | 0x022 => some (.mm .fp8 true)
  | 0x023 => some (.mm .bf16 true) | 0x024 => some (.mm .fp16 true)
  | 0x030 => some (.vec .fma) | 0x031 => some (.vec .add) | 0x032 => some (.vec .mul) | 0x033 => some (.vec .max)
  | 0x034 => some (.vec .min) | 0x035 => some (.vec .exp) | 0x036 => some (.vec .rsq) | 0x037 => some .vcvt
  | 0x040 => some .mbrx | 0x041 => some .mbtx | 0x048 => some .fwait | 0x049 => some .fclr
  | 0x050 => some .ldr | 0x051 => some .stc | 0x052 => some .bar
  | _ => none

/-! ## Operands -/

/-- How wide each of the operands A, B, C is that a routine names; the bits above are reserved (R12). -/
def rtWidths : Rt → Nat × Nat × Nat
  | .nop => (0, 0, 0) | .exit => (4, 0, 0) | .setw => (4, 16, 16) | .add => (4, 4, 4) | .addi => (4, 4, 16)
  | .loop => (4, 16, 0)
  | .lds _ => (4, 4, 16) | .sts _ => (4, 4, 16) | .mm _ _ => (4, 4, 4) | .vec _ => (4, 4, 4) | .vcvt => (4, 4, 4)
  | .mbrx => (2, 4, 0) | .mbtx => (2, 4, 0) | .fwait => (4, 0, 16) | .fclr => (4, 0, 16)
  | .ldr => (4, 4, 0) | .stc => (4, 4, 4) | .bar => (0, 0, 0)
/-- A reserved bit of the task word is not 0. -/
def taskBad (rt : Rt) (r : Run) : Bool :=
  let w := rtWidths rt
  bits r.word.toNat 12 4 != 0 || decide (opA r ≥ 2 ^ w.1 || opB r ≥ 2 ^ w.2.1 || opC r ≥ 2 ^ w.2.2)

def xa (r : Run) : Nat := (xReg r.regs (opA r % 16)).toNat
def xb (r : Run) : Nat := (xReg r.regs (opB r % 16)).toNat
def xc (r : Run) : Nat := (xReg r.regs (opC r % 16)).toNat
/-- X14 (R332). -/
def m14 (r : Run) : Nat := (xReg r.regs 14).toNat % 2 ^ 16
def acc14 (r : Run) : Bool := (xReg r.regs 14).toNat.testBit 16
def e5t14 (r : Run) : Bool := (xReg r.regs 14).toNat.testBit 17
def e5m14 (r : Run) : Bool := (xReg r.regs 14).toNat.testBit 18
def cvtSrc12 (r : Run) : Nat := (xReg r.regs 12).toNat % 16
def cvtDst12 (r : Run) : Nat := (xReg r.regs 12).toNat / 16 % 16
def sat12 (r : Run) : Bool := (xReg r.regs 12).toNat.testBit 8

/-- A count of zero: the routine waits for nothing and does nothing (R334). -/
def rtEmpty (rt : Rt) (r : Run) : Bool :=
  match rt with
  | .nop => true
  | .lds _ => opC r == 0 | .sts _ => opC r == 0 | .mm _ _ => m14 r == 0 | .vec _ => m14 r == 0 | .vcvt => m14 r == 0
  | .fwait => opC r == 0 | .fclr => opC r == 0
  | _ => false

/-! ## Checks before commit (R319, R330, R331, R335) -/

/-- What a check that fails ends the index with: a status and a VALUE, or one the manual does not state. -/
inductive Chk where
  | ok | bad (st : Status) (value : Nat) | badFree (st : Status)
  deriving DecidableEq, Repr

/-- The first offset of a range of 64-byte blocks that is not valid. -/
def firstBadSp (s : State) (e : Eng) (v : Vi) (o n : Nat) : Nat :=
  ((List.range ((n + 63) / 64)).map fun k => o + 64 * k).find? (fun x => (spWindow s (eu e) v x 1).isNone || (spWindow s (eu e) v (x + 63) 1).isNone)
    |>.getD o
def spRange (s : State) (e : Eng) (v : Vi) (o n : Nat) : Chk :=
  if o % 64 ≠ 0 then .bad .segFault o
  else if (spWindow s (eu e) v o n).isSome then .ok
  else .bad .segFault (firstBadSp s e v o n)
def slotChk (s : State) (e : Eng) (v : Vi) (n : Nat) : Chk := if slotOk s e v n then .ok else .bad .fencedUnit n
def flagChk (s : State) (e : Eng) (v : Vi) (f n : Nat) : Chk :=
  match (flagRange s e v f n).find? fun p => p.2.isNone with
  | some p => .bad .fencedUnit p.1
  | none => .ok
def Chk.and : Chk → Chk → Chk
  | .ok, y => y
  | x, _ => x
def chkAll (l : List Chk) : Chk := l.foldl Chk.and .ok

/-- The bytes that the operands of a vector routine span. -/
def vecSpan : Nat → Nat := fun m => m * 2048
/-- The operand checks of a vendor routine (R319, R330, R331, R335). DESIGN CHOICE (log 97): where several fail, the first in
the order written here is reported. -/
def rtCheck (s : State) (e : Eng) (rt : Rt) (r : Run) : Chk :=
  let v := r.ix.vi
  let aligned := fun (a : Nat) => if a % 64 = 0 then Chk.ok else .bad .segFault a
  let align8 := fun (a : Nat) => if a % 8 = 0 then Chk.ok else .bad .segFault a
  match rt with
  | .lds _ => if opC r > 1024 then .badFree .segFault else chkAll [aligned (xb r), spRange s e v (xa r) (64 * opC r)]
  | .sts _ => if opC r > 1024 then .badFree .segFault else chkAll [aligned (xb r), spRange s e v (xa r) (64 * opC r)]
  | .mm f w =>
    if m14 r > 1024 then .badFree .segFault
    else chkAll [spRange s e v (xa r) (m14 r * mxN f * 4), spRange s e v (xb r) (tileBytes f),
      spRange s e v (xc r) (m14 r * rowBytes f),
      if w then flagChk s e v ((xReg r.regs 13).toNat % 1024) 1 else .ok]
  | .vec op =>
    if m14 r > 2048 then .badFree .segFault
    else chkAll ([spRange s e v (xa r) (vecSpan (m14 r)), spRange s e v (xb r) (vecSpan (m14 r))] ++
      (if op = .exp || op = .rsq then [] else [spRange s e v (xc r) (vecSpan (m14 r))]))
  | .vcvt =>
    if m14 r > 2048 || cvtSrc12 r > 9 || cvtDst12 r > 9 then .badFree .segFault
    else chkAll [spRange s e v (xa r) (m14 r * 512 * dtypeBytes (cvtDst12 r)),
      spRange s e v (xb r) (m14 r * 512 * dtypeBytes (cvtSrc12 r))]
  | .mbrx => chkAll [slotChk s e v (opA r % 4), spRange s e v (xb r) 256]
  | .mbtx => chkAll [slotChk s e v (opA r % 4), spRange s e v (xb r) 256]
  | .fwait => flagChk s e v (xa r) (opC r)
  | .fclr => flagChk s e v (xa r) (opC r)
  | .ldr => align8 (xb r)
  | .stc => align8 (xb r)
  | _ => .ok

/-! ## Before commit -/

/-- The attempt goes on: neither the index nor the attempt has ended. -/
def sameAttempt (s : State) (e : Eng) (n : Nat) : Bool := (runOf s e).any fun r => r.attempt == n && !r.waitMiss
/-- Blocks of an LDS, each into the transfer-buffer block of its number. -/
def loadMany (e : Eng) (a : Nat) (acq : Bool) (att : Nat) : Nat → Nat → State → State
  | 0, _, s => s
  | n + 1, k, s =>
    let s := match aheadBlock s e a k with
      | some f => updRun e f (probeAt e (a + 64 * k) 64 s)
      | none => loadBlock e (a + 64 * k) (BitVec.ofNat 10 k) acq s
    if sameAttempt s e att then loadMany e a acq att n (k + 1) s else s
where
  /-- what a lookahead holds of block k: its bytes, or a host load that is out (R356) -/
  aheadBlock (s : State) (e : Eng) (a k : Nat) : Option (Run → Run) :=
    match (runOf s e).bind fun r => r.ahead.filter fun x => x.word == r.word && x.addr == a with
    | none => none
    | some x => match mget none x.got k, x.loads.find? fun l => l.tbi.toNat == k with
      | some b, _ => some fun r => { r with tbIn := mset 0 r.tbIn k b }
      | none, some l => some fun r => { r with loads := r.loads ++ [l] }
      | none, none => none
def probeMany (e : Eng) (a : Nat) (att : Nat) : Nat → Nat → State → State
  | 0, _, s => s
  | n + 1, k, s =>
    let s := probeBlock e (a + 64 * k) s
    if sameAttempt s e att then probeMany e a att n (k + 1) s else s
/-- Scratchpad blocks copied into the transfer buffer. -/
def copyIn (e : Eng) (o n : Nat) (s : State) : State :=
  updRun e (fun r => { r with
    tbIn := (List.range n).foldl (fun m k => mset 0 m k (bytesBlock (spRead s e (o + 64 * k) 64))) r.tbIn }) s
/-- The transfer-buffer blocks that a routine uses hold no outbound data (R395). -/
def tbFree (s : State) (e : Eng) (n : Nat) : Bool := (eng s e).tbOut.all fun p => decide (n ≤ p.1.toNat)

/-- Note that the accesses of the attempt have been issued. -/
def setBegun (e : Eng) (s : State) : State := updRun e (fun r => { r with begun := true }) s
/-- Every block of a range can be read: the mesh keeps none waiting (R667). -/
def blocksOpen (s : State) (e : Eng) (v : Vi) (a n : Nat) : Bool := (List.range n).all fun k => accessOpen s e v (a + 64 * k) 64
/-- The accesses that a vendor routine makes before its commit microword. Where one cannot be performed yet, the routine has
not begun. -/
def rtBegin (e : Eng) (rt : Rt) (r : Run) (s : State) : State :=
  let s1 := setBegun e s
  match rt with
  | .lds acq =>
    if tbFree s e (opC r) && blocksOpen s e r.ix.vi (xb r) (opC r) then loadMany e (xb r) acq r.attempt (opC r) 0 s1 else s
  | .sts _ =>
    if tbFree s e (opC r) then
      probeMany e (xb r) r.attempt (opC r) 0 (copyIn e ((spWindow s (eu e) r.ix.vi (xa r) (64 * opC r)).getD 0) (opC r) s1)
    else s
  | .ldr => if granuleOpen s e r.ix.vi (xb r) then loadReserved e (xb r) 0 s1 else s
  | .stc => probeAt e (xb r) 8 s1
  | .bar => barIssue e s1
  | _ => s1

/-- A vendor routine starts, or starts again: its checks, then its accesses. DESIGN CHOICE (log 97): one with a count of zero
does nothing, its checks among what it does not do (R334). -/
def vendorBegin (e : Eng) (rt : Rt) (s : State) : State :=
  match runOf s e with
  | none => s
  | some r =>
    if rtEmpty rt r then setBegun e s
    else match rtCheck s e rt r with
      | .bad st value => failIndex e st value s
      | .badFree st => failIndex e st (free s) (tick s)
      | .ok => rtBegin e rt r s

/-! ### Lookahead (R356, R357) -/

/-- The task word that follows, where it can be read. -/
def nextTask (s : State) (e : Eng) (r : Run) : Option U64 :=
  let a := (r.task + 8).toNat
  match translate s (eu e) r.ix.vi a 8 with
  | .hit (.dev t) _ =>
    if !anyHole s t 8 && !anyPoison s t 8 && memOpen s (kilnOf e).val t 8 then some (BitVec.ofNat 64 (leNat (loadDev s e t 8))) else none
  | _ => none
/-- The running ordinary LDS is followed by another one, with no common block and no STC result to wait for: its run, as it
would start. -/
def nextLds (s : State) (e : Eng) (r : Run) : Option Run :=
  (nextTask s e r).bind fun w =>
    let n := { r with word := w }
    let apart := decide (xb r + 64 * opC r ≤ xb n || xb n + 64 * opC n ≤ xb r)
    if rtOf (w.toNat % 4096) = some (.lds false) && !taskBad (.lds false) n && !rtEmpty (.lds false) n &&
      rtCheck s e (.lds false) n = .ok && apart && ((eng s e).stcs.all fun c => !isIndex c.vi c.idx c.k r) then some n else none
/-- One block of the next LDS is loaded ahead, where a live segment covers it. -/
def aheadLoad (e : Eng) (n : Run) (s : State) (k : Nat) : State :=
  let a := xb n + 64 * k
  let put := fun (f : Ahead → Ahead) => updRun e fun r => { r with ahead := r.ahead.map f }
  match translate s (eu e) n.ix.vi a 64 with
  | .hit (.dev t) _ =>
    if anyHole s t 64 || anyPoison s t 64 || !memOpen s (kilnOf e).val t 64 then s
    else put (fun x => { x with got := mset none x.got k (some (bytesBlock (loadDev s e t 64))) }) s
  | .hit (.host t st) _ =>
    if !hostOk s n.ix.vi then s
    else
      let l : HLoad := { tbi := BitVec.ofNat 10 k, host := t, ea := a, cxl := viaHome s n.ix.vi, fwd := forwards s e t 64 }
      hostLoad (.engine e) (kilnOf e) n.ix.vi t 64 st (.engineLoad e l.tbi) (.load e (n.attempt + 1) l.tbi)
        (put (fun x => { x with loads := x.loads ++ [l] }) s)
  | _ => s
/-- The engine looks ahead. -/
def lookAhead (e : Eng) (n : Run) (s : State) : State :=
  (List.range (opC n)).foldl (aheadLoad e n) (updRun e (fun r => { r with ahead := some { word := n.word, addr := xb n } }) s)

/-- A vendor routine starts. An ordinary LDS before another one may leave its own loads for later, behind those of the next
one: the manual leaves it to the engine, and a free value decides. -/
def vendorStart (e : Eng) (rt : Rt) (s : State) : State :=
  match (runOf s e).bind fun r => if rt = .lds false && r.ahead.isNone then nextLds s e r else none with
  | some n => if free s % 2 = 0 then vendorBegin e rt (tick s) else lookAhead e n (tick s)
  | none => vendorBegin e rt s

/-! ## What the commit microword waits for -/

def rtFlags (s : State) (e : Eng) (rt : Rt) (r : Run) : FlagWait :=
  match rt with
  | .mm _ true => flagWait s e r.ix.vi ((xReg r.regs 13).toNat % 1024) 1
  | .fwait => flagWait s e r.ix.vi (xa r) (opC r)
  | _ => .met
def rtReady (s : State) (e : Eng) (rt : Rt) (r : Run) : Bool :=
  loadsDone r &&
  (match rt with
    | .mbrx => (slotAt s e (opA r % 4)).st == .down
    | .mbtx => (slotAt s e (opA r % 4)).st == .free
    | .sts true => drained s e
    | .stc => drained s e && granuleOpen s e r.ix.vi (xb r)
    | .bar => barMet s e
    | _ => true)

/-- A matrix routine shifts its tile before it commits: the shadow plane becomes active. -/
def rtShift (e : Eng) (rt : Rt) (r : Run) (s : State) : State :=
  match rt with
  | .mm f _ =>
    match spWindow s (eu e) r.ix.vi (xb r) (tileBytes f) with
    | some o => updEng e (fun x => { x with plane := spGo (spRead s e o (tileBytes f)) 0 [] }) s
    | none => s
  | _ => s

/-! ## After commit -/

def setXof (e : Eng) (n : Nat) (v : U64) (s : State) : State := updRun e (fun r => { r with regs := setX r.regs n v }) s
/-- Write scratchpad at a VI's offset; an offset that a change of the window has put outside it is not written, and the
index ends at its task boundary (R392). -/
def spPut (e : Eng) (v : Vi) (o : Nat) (l : List Byte) (s : State) : State :=
  match spCheck s e v o l.length with
  | some x => spWrite e x l s
  | none => lateFail e (failC .segFault o) s
/-- Blocks of a transfer buffer to scratchpad, and to memory. -/
def tbBlock (r : Run) (k : Nat) : List Byte := blockBytes (mget 0 r.tbIn k)
def storeMany (e : Eng) (a : Nat) (rel : Bool) (r : Run) : Nat → Nat → State → State
  | 0, _, s => s
  | n + 1, k, s => storeMany e a rel r n (k + 1) (storeBlock e (a + 64 * k) (BitVec.ofNat 10 k) (tbBlock r k) rel s)

/-- One moving row of a matrix routine (R322, R333). -/
def mmRow (e : Eng) (f : MxFmt) (r : Run) (s : State) (m : Nat) : State :=
  let v := r.ix.vi
  let tile := (List.range (tileBytes f)).map fun i => mget 0 (eng s e).plane i
  let o := xa r + m * mxN f * 4
  match spWindow s (eu e) v (xc r + m * rowBytes f) (rowBytes f), spWindow s (eu e) v o (mxN f * 4) with
  | some src, some dst =>
    spWrite e dst (streamRow f (acc14 r) (e5t14 r) (e5m14 r) (spRead s e src (rowBytes f)) tile (spRead s e dst (mxN f * 4))) s
  | _, _ => lateFail e (failC .segFault o) s
/-- One vector operation on scratchpad offsets of the VI. -/
def vecAt (e : Eng) (v : Vi) (op : VOp) (a b c : Nat) (s : State) : State :=
  let unary := op == .exp || op == .rsq
  match spCheck s e v a 2048, spCheck s e v b 2048, spCheck s e v (if unary then b else c) 2048 with
  | some x, some y, some z => spWrite e x (vectorOp op (spRead s e x 2048) (spRead s e y 2048) (spRead s e z 2048)) s
  | none, _, _ => lateFail e (failC .segFault a) s
  | _, none, _ => lateFail e (failC .segFault b) s
  | _, _, _ => lateFail e (failC .segFault c) s
/-- One vector conversion. -/
def cvtAt (e : Eng) (v : Vi) (src dst : Nat) (sat : Bool) (a b : Nat) (s : State) : State :=
  match spCheck s e v a (512 * dtypeBytes dst), spCheck s e v b (512 * dtypeBytes src) with
  | some x, some y => spWrite e x (vectorCvt src dst sat (spRead s e y (512 * dtypeBytes src))) s
  | none, _ => lateFail e (failC .segFault a) s
  | _, _ => lateFail e (failC .segFault b) s
def vecRow (e : Eng) (op : VOp) (r : Run) (s : State) (m : Nat) : State :=
  vecAt e r.ix.vi op (xa r + 2048 * m) (xb r + 2048 * m) (xc r + 2048 * m) s
def cvtRow (e : Eng) (r : Run) (s : State) (m : Nat) : State :=
  cvtAt e r.ix.vi (cvtSrc12 r) (cvtDst12 r) (sat12 r) (xa r + 512 * dtypeBytes (cvtDst12 r) * m)
    (xb r + 512 * dtypeBytes (cvtSrc12 r) * m) s

/-- A slot is read into scratchpad and becomes FREE (R316). -/
def slotRead (e : Eng) (v : Vi) (n o : Nat) (s : State) : State :=
  let x := slotAt s e n
  let l := (x.data ++ natBytes (256 - x.data.length) (free s)).take 256
  let s := tick (updEng e (fun y => { y with slots := mset {} y.slots n {} }) s)
  let s := { s with vis := s.vis.map fun p => (p.1, { p.2 with upMsgs := p.2.upMsgs.filter fun m => !(m.1 == e && m.2.val == n) }) }
  spPut e v o l s
/-- 256 bytes go into a slot, which becomes UP; the up header's VENG and SLOT are the device's (R337). -/
def slotWrite (e : Eng) (v : Vi) (veng n o : Nat) (s : State) : State :=
  match spCheck s e v o 256 with
  | none => lateFail e (failC .segFault o) s
  | some x =>
    let l := spRead s e x 256
    let b := natBytes 4 0 ++ natBytes 2 veng ++ natBytes 1 n ++ (l.drop 7)
    let s := updEng e (fun y => { y with slots := mset {} y.slots n { st := .up, data := b, vi := v.val } }) s
    let k : Eng × Fin 4 := (e, ⟨n % 4, by omega⟩)
    updVi v (fun y => { y with upMsgs := if y.upMsgs.contains k then y.upMsgs else y.upMsgs ++ [k] }) s

/-! ### STC (R366 to R373) -/

/-- The engine's reservation holds for an address. -/
def resvHolds (s : State) (e : Eng) (a : Nat) : Option Resv := (eng s e).resv.filter fun r => r.ea == a

/-- The reservation is taken from the engine: what an STC at an address finds. -/
def takeResv (e : Eng) (a : Nat) (s : State) : Option Resv × State :=
  (resvHolds s e a, updEng e (fun x => { x with resv := none }) s)
/-- Note an STC whose result is to come. -/
def noteStc (e : Eng) (x : Stc) (s : State) : State := updEng e (fun y => { y with stcs := y.stcs ++ [x] }) s
/-- An STC whose access fails at once: 0 to its register, and the index ends at its task boundary (R373). -/
def stcFails (e : Eng) (reg : Nat) (c : Compl) (s : State) : State :=
  setXof e reg 0 (lateFail e c (takeResv e 0 s).2)

/-- A conditional store: the entries of the granule pass first (R360), then the reservation decides and is cleared; the
result arrives by STC_RESULT. -/
def storeCond (e : Eng) (a reg : Nat) (value : U64) (s : State) : State :=
  match runOf s e with
  | none => s
  | some r =>
    let v := r.ix.vi
    match r.pins.find? fun i => covers (seg s v i) a with
    | none => stcFails e reg (failC .segFault a) s
    | some i =>
      let s := touchSlot v i s
      let x : Stc := { vi := v, idx := r.ix.idx, k := r.ix.k, reg := reg, tgt := .dev 0, ea := a, cxl := false, ok := false, compare := 0, new := value }
      match viaSlot s (eu e) v i a 8 with
      | .hit (.dev t) _ =>
        if anyHole s t 8 then stcFails e reg (failC .fencedUnit (blockAddr a)) s
        else
          let (res, s) := takeResv e a (passGranule e t s)
          let ok := res.any fun x => x.tgt == .dev t
          let s := noteStc e { x with tgt := .dev t, ok := ok } s
          if ok then acceptWrite t (natBytes 8 value.toNat) s else s
      | .hit (.host t st) _ =>
        let cas := !viaHome s v
        if !hostOk s v || (cas && !(getPf s (portOf v)).atomicReq) then stcFails e reg (failC .hostAccessErr (blockAddr a)) s
        else
          let (res, s) := takeResv e a (passGranule e t s)
          let ok := res.any fun x => x.tgt == .host t st
          let old := (res.map Resv.value).getD 0
          let s := noteStc e { x with tgt := .host t st, cxl := !cas, ok := ok, compare := old } s
          if !ok then s
          else if cas then emit (.cas (portOf v) v t old value) s
          else hostStore (.engine e) (kilnOf e) v t (natBytes 8 value.toNat) st false (.stc e reg) s
      | _ => stcFails e reg (failC .segFault a) s

/-- The effect of a vendor routine after its commit microword, but for where the program goes on. DESIGN CHOICE (log 98):
where a source and a destination overlap in part, rows are taken in ascending order, each read whole before its result is
written (R333). -/
def rtEffect (e : Eng) (rt : Rt) (s : State) : State :=
  match runOf s e with
  | none => s
  | some r =>
    let v := r.ix.vi
    let a := opA r % 16
    if rtEmpty rt r then s else
    match rt with
    | .setw => setXof e a ((BitVec.ofNat 32 (opC r * 2 ^ 16 + opB r)).signExtend 64) s
    | .add => setXof e a (xReg r.regs (opB r % 16) + xReg r.regs (opC r % 16)) s
    | .addi => setXof e a (xReg r.regs (opB r % 16) + (BitVec.ofNat 16 (opC r)).signExtend 64) s
    | .loop => setXof e a (xReg r.regs a - 1) s
    | .lds _ => spPut e v (xa r) ((List.range (opC r)).flatMap fun k => tbBlock r k) s
    | .sts rel => storeMany e (xb r) rel r (opC r) 0 s
    | .mm f _ => (List.range (m14 r)).foldl (mmRow e f r) s
    | .vec op => (List.range (m14 r)).foldl (vecRow e op r) s
    | .vcvt => (List.range (m14 r)).foldl (cvtRow e r) s
    | .mbrx => slotRead e v (opA r % 4) (xb r) s
    | .mbtx => slotWrite e v r.ix.veng (opA r % 4) (xb r) s
    | .fclr => (flagRange s e v (xa r) (opC r)).foldl (fun s p => match p.2 with
        | some g => clearFlag e s g
        | none => lateFail e (failC .fencedUnit p.1) s) s
    | .ldr => setXof e a r.regs.mres s
    | .stc => storeCond e (xb r) a (xReg r.regs (opC r % 16)) s
    | _ => s

/-- Where the program goes on: the exit value of EXIT, the target of a LOOP that is taken, or the next word. -/
def rtNext (rt : Rt) (r : Run) : Option U64 × BitVec 48 :=
  match rt with
  | .exit => (some (xReg r.regs (opA r % 16)), r.task + 8)
  | .loop =>
    -- the register has been decremented
    if xReg r.regs (opA r % 16) ≠ 0 then (none, r.task + 8 * (BitVec.ofNat 16 (opB r)).signExtend 48) else (none, r.task + 8)
  | _ => (none, r.task + 8)

end Sys2Proof.Machine
end

