-- ==== Sys2Proof/Machine/Tasks.lean ====
section
/-! DEFINITION. Launch indices on engines: starting, fetching task words, commit, the task boundary, slices and budgets
(chapters 10 and 12). -/

namespace Sys2Proof.Machine

/-! ## Taking up a launch index (R326, R339, R342 to R344) -/

/-- The VIs with work on an engine: queued indices, or one switched away. -/
def engVis (x : EngSt) : List Nat := ((x.away.map fun r => r.ix.vi.val) ++ x.queue.map fun i => i.vi.val).eraseDups
/-- The least number of a list above `n`, or the least. -/
def nextVi (l : List Nat) (n : Nat) : Option Nat := ((l.filter (n < ·)).min?).orElse fun _ => l.min?
/-- The VI to serve: the one last served goes on until its slice ends, then the next in ascending order. -/
def pickVi (x : EngSt) : Option Nat :=
  if !x.sliceDue && (engVis x).contains x.turn then some x.turn else nextVi (engVis x) x.turn

/-- The registers at the start of a launch index (R326). -/
def startRegs (i : Index) : Regs :=
  { x := mset 0 (mset 0 (mset 0 (mset 0 [] 0 i.arg) 1 (BitVec.ofNat 64 i.k)) 2 (BitVec.ofNat 64 i.veng)) 3 (BitVec.ofNat 64 i.count) }
def startRun (i : Index) : Run := { ix := i, task := i.task, regs := startRegs i }

/-- The engine takes up a VI: the index switched away resumes, or the first queued one starts. Another VI starts only once
the engine's stores are globally visible (R344, Table: Drain triggers). -/
def takeUp (e : Eng) (n : Nat) (s : State) : State :=
  let s := if n = (eng s e).turn then s else drainEngine e s
  if n != (eng s e).turn && !drained s e then s else
  updEng e (fun x =>
    let x := { x with turn := n, sliceDue := false }
    match x.away.find? fun r => r.ix.vi.val == n with
    | some r => { x with run := some r, away := x.away.filter fun r => r.ix.vi.val != n }
    | none => match x.queue.find? fun i => i.vi.val == n with
      | some i => { x with run := some (startRun i), queue := x.queue.erase i }
      | none => x) s

def execLaunchIndexStart (e : Eng) (s : State) : Out :=
  .next (if !engOn s e || (runOf s e).isSome then s
    else match pickVi (eng s e) with
      | some n => takeUp e n s
      | none => s)

/-- The running index leaves for another VI; it resumes at its task word, which is fetched again (R343, R406). -/
def switchAway (e : Eng) (s : State) : State :=
  forget (loadOf e) <| updEng e (fun x => { x with
    away := x.away ++ (x.run.map fun r => { dropAttempt r with phase := .between }).toList
    run := none, resv := none, shadow := [], plane := [], sliceDue := true }) s
/-- Another VI waits for the engine. -/
def otherWaits (x : EngSt) : Bool := match x.run with
  | some r => (engVis x).any fun n => n != r.ix.vi.val
  | none => false

def execSliceEnd (e : Eng) (s : State) : Out :=
  .next (if !engOn s e || !otherWaits (eng s e) then s
    else match runOf s e with
      | none => s
      | some r =>
        if r.phase = .post then updEng e (fun x => { x with sliceDue := true }) s else switchAway e s)

/-! ## The task boundary (R349, R397) -/

/-- What was loaded ahead stays for the next word (R356). -/
def clearRoutine (r : Run) (next : BitVec 48) : Run :=
  { dropAttempt r with
    task := next, word := 0, phase := .between, open_ := false, upc := 0, pins := [], retries := 0, ahead := r.ahead }
/-- A routine has ended: a failure that was due shows, an exit ends the index, or the next task word is due. -/
def boundary (e : Eng) (exit : Option U64) (next : BitVec 48) (s : State) : State :=
  match runOf s e with
  | none => s
  | some r => match r.fail, exit with
    | some c, _ => endIndex e (some c) 0 s
    | none, some v => endIndex e none v s
    | none, none =>
      let s := updEng e (fun x => swapBank { x with run := some (clearRoutine r next), shadow := [], plane := [] }) s
      if (eng s e).sliceDue && otherWaits (eng s e) then switchAway e s else s

/-! ## Task words (R325, R327, R330, R368, R406) -/

/-- The 8 bytes of a task word, through the VI's device segments. -/
def fetchTask (e : Eng) (r : Run) (s : State) : Acc :=
  let a := r.task.toNat
  match translate s (eu e) r.ix.vi a 8 with
  | .miss => .wait a
  | .fault => .fail .segFault a
  | .hit (.host _ _) _ => .fail .segFault a
  | .hit (.dev t) _ =>
    if !memOpen s (kilnOf e).val t 8 then .pend
    else if anyHole s t 8 then .fail .fencedUnit (blockAddr a)
    else if anyPoison s t 8 then .fail .poisoned (blockAddr a)
    else .ok (loadDev s e t 8)

/-- The fetch counts as a hit on its segment (R294). -/
def touchTask (e : Eng) (r : Run) (s : State) : State := match translate s (eu e) r.ix.vi r.task.toNat 8 with
  | .hit _ i => touchSlot r.ix.vi i s
  | _ => s

/-- The routine of the word starts. An entry that holds no routine ends the index. A reserved bit of the word is a host error
of the VI (R12, R661), and the routine goes by the other bits. -/
def startRoutine (e : Eng) (w : U64) (s : State) : Out :=
  let entry := w.toNat % 4096
  let s := updRun e (fun r => { r with word := w, phase := .pre, cycles := 0, begun := false }) s
  match runOf s e with
  | none => .next s
  | some r =>
    if entry ≥ 0xC00 then
      match openEntry (eng s e) entry with
      | none => .next (endIndex e (some (openC .fencedUnit)) 0 s)
      | some a =>
        .next (updRun e (fun r => { r with open_ := true, upc := a, ahead := none }) (if bits w.toNat 12 4 ≠ 0 then hostError r.ix.vi s else s))
    else match rtOf entry with
      | none => .next (endIndex e (some (openC .fencedUnit)) 0 s)
      | some rt =>
        .next (vendorStart e rt (updRun e (fun r => { r with
          open_ := false, upc := vendorEntry s entry, ahead := r.ahead.filter fun x => x.word == w })
          (if taskBad rt r then hostError r.ix.vi s else s)))

/-- A word that names the register of an STC of its index, whose result is out, waits at its start. DESIGN CHOICE (log 95):
which operands of an open routine's word name registers is its author's to say, and all three are taken to. -/
def namesStc (s : State) (e : Eng) (r : Run) (w : U64) : Bool :=
  ((eng s e).stcs.filter fun c => isIndex c.vi c.idx c.k r).any fun x =>
    let ops := [bits w.toNat 16 4, bits w.toNat 32 4, bits w.toNat 48 4]
    let widths : Nat × Nat × Nat := match rtOf (w.toNat % 4096) with
      | some rt => rtWidths rt
      | none => (4, 4, 4)
    let isReg := [widths.1 == 4, widths.2.1 == 4, widths.2.2 == 4]
    (ops.zip isReg).any fun p => p.2 && p.1 == x.reg

def execTaskWordFetch (e : Eng) (s : State) : Out :=
  if !engOn s e then .next s
  else match runOf s e with
    | none => .next s
    | some r =>
      if r.phase ≠ .between || r.waitMiss then .next s
      else match fetchTask e r s with
        | .wait a => .next (addMiss r.ix.vi a (.task e) (updRun e (fun r => { r with waitMiss := true }) s))
        | .fail st a => .next (failIndex e st a s)
        | .pend => .next s
        | .ok l =>
          let w := BitVec.ofNat 64 (leNat l)
          if namesStc s e r w then .next s else startRoutine e w (touchTask e r s)

/-! ## Stored words with errors (R409) -/

/-- The check of a stored word: none, or the fault and what becomes of the index; `vendor` names the word's region. -/
def wordCheck (e : Eng) (ecc : Ecc) (s : State) : Option State :=
  match runOf s e with
  | none => none
  | some r =>
    let info := r.upc % 4096
    match ecc with
    | .clean => none
    | .corrected => some (raise (.engine e) 0x09 info s)
    | .uncorrectable =>
      if r.open_ && r.phase = .pre then some (endIndex e (some (openC .poisoned)) 0 (raise (.engine e) 0x0A info s))
      else some (raise (.engine e) 0x29 info s)

/-! ## Commit (R366, R399, R400) -/

/-- The pin check, then the reservation; a failed check abandons the routine. -/
def commitNow (e : Eng) (s : State) : State :=
  match runOf s e with
  | none => s
  | some r => if pinsOk s r then takeCommit e s else abandon e s

def commitVendor (e : Eng) (rt : Rt) (r : Run) (s : State) : State :=
  if !r.begun then vendorBegin e rt s
  else if rtEmpty rt r then commitNow e s
  else match rtFlags s e rt r with
    | .invalid f => failIndex e .fencedUnit f s
    | .failed f => failIndex e .poisoned f s
    | .clear => s
    | .met =>
      if !rtReady s e rt r then s
      else
        let s := commitNow e (rtShift e rt r s)
        s

/-- The commit microword of an open routine, before every other slot of its word. -/
def commitOpen (e : Eng) (r : Run) (s : State) : Out :=
  let w := wordAt s e r.upc
  if !isCommitWord r w then .next s
  else if held s e r w then .next (holdCycle e (tick s))
  else .next (commitNow e (tick (badWord r w s)))

def execCommit (e : Eng) (ecc : Ecc) (s : State) : Out :=
  if !engOn s e then .next s
  else match runOf s e with
    | none => .next s
    | some r =>
      if r.phase ≠ .pre || r.waitMiss then .next s
      else
        let go := fun (s : State) =>
          if r.open_ then commitOpen e r s
          else match rtOf (r.word.toNat % 4096) with
            | some rt => .next (commitVendor e rt r s)
            | none => .next s
        match wordCheck e ecc s with
        | none => go s
        | some s' => if ecc = .corrected then go s' else .next s'

/-! ## END (R397) -/

/-- An open routine's last word: EXITV ends the index, else NEXTA or the next word follows. -/
def endOpen (e : Eng) (s : State) : State :=
  let s := updRun e applyIncs s
  match runOf s e with
  | none => s
  | some r => boundary e r.regs.exitv (r.regs.nexta.getD (r.task + 8)) s
def endVendor (e : Eng) (rt : Rt) (s : State) : State :=
  let s := rtEffect e rt s
  match runOf s e with
  | none => s
  | some r =>
    let n := rtNext rt r
    boundary e n.1 n.2 s

def execEndWord (e : Eng) (s : State) : Out :=
  if !engOn s e then .next s
  else match runOf s e with
    | none => .next s
    | some r =>
      if r.phase ≠ .post then .next s
      else if r.open_ then
        let w := wordAt s e r.upc
        if !wEnd w || !wordDone r w then .next s
        else .next (endOpen e (badWord r w s))
      else match rtOf (r.word.toNat % 4096) with
        | some rt => .next (endVendor e rt s)
        | none => .next s

/-! ## Budgets (R345, R401, R402) -/

def execPrecommitBudgetEnd (e : Eng) (s : State) : Out :=
  .next (if !engOn s e then s
    else match runOf s e with
      | some r => if r.phase = .pre && !r.waitMiss then abandon e s else s
      | none => s)

/-- Effects issued stand, and the index ends there. -/
def execPostcommitBudgetEnd (e : Eng) (s : State) : Out :=
  .next (if !engOn s e then s
    else match runOf s e with
      | some r => if r.phase = .post && r.open_ then endIndex e (some (openC .fencedUnit)) 0 s else s
      | none => s)

end Sys2Proof.Machine
end

