-- ==== Sys2Proof/Machine/Scalar.lean ====
section
/-! DEFINITION. The scalar slot of a microword (Table: SOP encodings). -/

namespace Sys2Proof.Machine

/-- The slot holds scalar operation `code` with these operands. -/
def isSop (code : Nat) (a : Alu) (w : Nat) : Bool := wSop w == code && wAlu w == a

/-- A scalar operation: its result goes to SDST, and Z and N follow the result. A routine that writes a task register
before commit is a host error of R403, whose result R661 gives: the register keeps the value of any attempt. -/
def sop (code : Nat) (f : U64 → U64 → U64) (e : Eng) (a : Alu) (s : State) : Out :=
  issue e 0 (isSop code a) (fun r _ fr s =>
    let v := f (readReg r fr a.src1) (operand2 r fr a)
    .next (updRun e (fun x =>
      let x := writeReg x a.dst v
      { x with sopDst := some a.dst, regs := { x.regs with z := zOf v, n := nOf v } }) s)) s

def execSopNop (e : Eng) (s : State) : Out := issue e 0 (fun w => wSop w == 0) (fun _ _ _ s => .next s) s
def execMov (e : Eng) (a : Alu) (s : State) : Out := sop 1 (fun _ y => y) e a s
def execAdd (e : Eng) (a : Alu) (s : State) : Out := sop 2 (fun x y => x + y) e a s
def execSub (e : Eng) (a : Alu) (s : State) : Out := sop 3 (fun x y => x - y) e a s
def execAnd (e : Eng) (a : Alu) (s : State) : Out := sop 4 (fun x y => x &&& y) e a s
def execOr (e : Eng) (a : Alu) (s : State) : Out := sop 5 (fun x y => x ||| y) e a s
def execXor (e : Eng) (a : Alu) (s : State) : Out := sop 6 (fun x y => x ^^^ y) e a s
/-- Shifts take their count from operand 2 [5:0]. -/
def shiftCount (y : U64) : Nat := y.toNat % 64
def execShl (e : Eng) (a : Alu) (s : State) : Out := sop 7 (fun x y => x <<< shiftCount y) e a s
def execShr (e : Eng) (a : Alu) (s : State) : Out := sop 8 (fun x y => x >>> shiftCount y) e a s
def execSar (e : Eng) (a : Alu) (s : State) : Out := sop 9 (fun x y => x.sshiftRight (shiftCount y)) e a s
def execMul (e : Eng) (a : Alu) (s : State) : Out := sop 10 (fun x y => x * y) e a s

/-- CMPU writes nothing but Z and N. -/
def execCmpu (e : Eng) (a : Alu) (s : State) : Out :=
  issue e 0 (isSop 11 a) (fun r _ fr s =>
    let x := readReg r fr a.src1
    let y := operand2 r fr a
    .next (updRun e (fun q => { q with regs := { q.regs with z := cmpuZ x y, n := cmpuN x y } }) s)) s

end Sys2Proof.Machine
end

