-- ==== Sys2Proof/Machine/MemSlots.lean ====
section
/-! DEFINITION. The memory slot of a microword (Table: MOP encodings), and what comes back to an engine: host loads, STC
results, and the passing of its stores (chapters 11 and 12). -/

namespace Sys2Proof.Machine

/-! ## Forms -/

/-- The slot holds memory operation `code` with these operands. -/
def isMop (code : Nat) (m : MemSlot) (w : Nat) : Bool := wMop w == code && wMem w == m
def ldAcquires (m : MemSlot) : Bool := m.ord == 1
def stReleases (m : MemSlot) : Bool := m.ord == 2
/-- AINC: after issue, 64 is added to the registers that MADDR and MSP name. -/
def ainc (e : Eng) (m : MemSlot) (s : State) : State :=
  if m.ainc then addIncs e (onceEach [(m.addr, 64), (m.sp, 64)]) s else s
/-- The engine address, slot or flag, and the scratchpad offset, value or count, that the slot names. DESIGN CHOICE (log 96):
an engine address is the register's 64 bits, so that one with a bit of [63:48] set lies in no segment (R283). -/
def mAddr (r : Run) (fr : Nat) (m : MemSlot) : Nat := (readReg r fr m.addr).toNat
def mSp (r : Run) (fr : Nat) (m : MemSlot) : Nat := (readReg r fr m.sp).toNat

/-- A memory operation before the commit microword. -/
def mopBefore (code : Nat) (e : Eng) (m : MemSlot) (act : Run → Nat → State → State) (s : State) : Out :=
  beforeCommit e 1 (isMop code m) (fun r _ fr s => .next (act r fr (ainc e m s))) s
/-- A memory operation after it. -/
def mopAfter (code : Nat) (e : Eng) (m : MemSlot) (act : Run → Nat → State → State) (s : State) : Out :=
  afterCommit e 1 (isMop code m) (fun r _ fr s => .next (act r fr (ainc e m s))) s

/-! ## The operations -/

def execMopNop (e : Eng) (s : State) : Out :=
  issue e 1 (fun w => wMop w == 0) (fun _ w _ s => .next (ainc e (wMem w) s)) s

def execLd64 (e : Eng) (m : MemSlot) (s : State) : Out :=
  mopBefore 1 e m (fun r fr s => loadBlock e (mAddr r fr m) m.tbi (ldAcquires m) s) s

/-- The block of the transfer buffer goes to memory through the pinned segments; a block address that is not aligned
ends the index at its task boundary (R331, R392). -/
def execSt64 (e : Eng) (m : MemSlot) (s : State) : Out :=
  mopAfter 2 e m (fun r fr s =>
    let a := mAddr r fr m
    if a % 64 ≠ 0 then lateFail e (failC .segFault a) s
    else storeBlock e a m.tbi (tbBlock r m.tbi.toNat) (stReleases m) s) s

def execTb2sp (e : Eng) (m : MemSlot) (s : State) : Out :=
  mopAfter 3 e m (fun r fr s => spPut e r.ix.vi (mSp r fr m) (tbBlock r m.tbi.toNat) s) s

/-- A scratchpad block goes into the transfer buffer, in any phase. -/
def execSp2tb (e : Eng) (m : MemSlot) (s : State) : Out :=
  issue e 1 (isMop 4 m) (fun r _ fr s =>
    let s := ainc e m s
    .next (match spCheck s e r.ix.vi (mSp r fr m) 64 with
      | some o => updRun e (fun x => { x with tbIn := mset 0 x.tbIn m.tbi.toNat (bytesBlock (spRead s e o 64)) }) s
      | none => opFail e .segFault (mSp r fr m) s)) s

def execLdr (e : Eng) (m : MemSlot) (s : State) : Out :=
  mopBefore 5 e m (fun r fr s => loadReserved e (mAddr r fr m) m.tbi s) s

/-- An STC follows the engine's earlier stores, all of them visible (R355). -/
def execStc (e : Eng) (m : MemSlot) (s : State) : Out :=
  mopAfter 6 e m (fun r fr s =>
    let a := mAddr r fr m
    let reg := opA r % 16
    if a % 8 ≠ 0 then stcFails e reg (failC .segFault a) s
    else storeCond e a reg (readReg r fr m.sp) (drainEngine e s)) s

/-- BAR and DRAIN hold their word; once it issues they do nothing more. BAR's first attempt to issue fixes the gather entries
that it waits for (R358). -/
def barTries (e : Eng) (s : State) : State := match openWord s e with
  | some (r, w) => if wMop w = 7 && r.phase = .pre && !r.done.contains 1 then barIssue e s else s
  | none => s
def execBar (e : Eng) (s : State) : Out :=
  beforeCommit e 1 (fun w => wMop w == 7) (fun _ w _ s => .next (ainc e (wMem w) s)) (barTries e s)
def execDrain (e : Eng) (s : State) : Out :=
  beforeCommit e 1 (fun w => wMop w == 8) (fun _ w _ s => .next (ainc e (wMem w) s)) s

/-- A slot's contents go to scratchpad, and the slot becomes FREE; nothing is done when the slot or the offset fails its
check (R392). -/
def execSlotrd (e : Eng) (m : MemSlot) (s : State) : Out :=
  mopAfter 9 e m (fun r fr s =>
    let n := mAddr r fr m % 4
    let o := mSp r fr m
    if !slotOk s e r.ix.vi n then opFail e .fencedUnit n s
    else if (spCheck s e r.ix.vi o 256).isNone then opFail e .segFault o s
    else slotRead e r.ix.vi n o s) s

def execSlotwr (e : Eng) (m : MemSlot) (s : State) : Out :=
  mopAfter 0xA e m (fun r fr s =>
    let n := mAddr r fr m % 4
    if !slotOk s e r.ix.vi n then opFail e .fencedUnit n s
    else slotWrite e r.ix.vi r.ix.veng n (mSp r fr m) s) s

/-- The flags of a range become CLEAR; a range with an invalid flag is left as it is (R392). A range of more than 1,024
flags always holds an invalid one among its first 1,025. -/
def execFclr (e : Eng) (m : MemSlot) (s : State) : Out :=
  mopAfter 0xB e m (fun r fr s =>
    let l := flagRange s e r.ix.vi (mAddr r fr m % 1024) (min (mSp r fr m) 1025)
    match l.find? fun p => p.2.isNone with
    | some p => opFail e .fencedUnit p.1 s
    | none => l.foldl (fun s p => match p.2 with | some g => clearFlag e s g | none => s) s) s

/-- PROBE moves no data: the block that holds the address is translated and a hit is counted. -/
def execProbe (e : Eng) (m : MemSlot) (s : State) : Out :=
  mopBefore 0xC e m (fun r fr s => probeBlock e (mAddr r fr m / 64 * 64) s) s

/-! ## What returns to an engine -/

/-- 8 bytes of a 64-byte line. -/
def lineWord (d : Block) (a : Nat) : U64 := BitVec.ofNat 64 (blockField d (a % 64) 8)
/-- An LDR from the host returns its value and makes the reservation, unless a line of the granule has been lost to the
slice since (R366, R367). -/
def ldrReturn (e : Eng) (t : Target) (ea : Nat) (v : U64) (cxl lost : Bool) (s : State) : State :=
  updRun e (fun r => { r with
    ldr := none, ldrDone := true, regs := { r.regs with mres := v }
    resv := if lost then none else some { tgt := t, ea := ea, value := v, cxl := cxl } }) s
/-- The answer to a load: of the slice through the home, or of the host port. -/
def loadAnswer (s : State) (cxl : Bool) (w : Who) (res : LoadRes) : Option (LoadRes × Bool) :=
  if cxl then (retOf s w).map fun x => (if x.failed then .failed else if x.poison then .poisoned else .data x.data, x.lost)
  else some (res, false)
/-- The load of an LDR ends. -/
def ldrEnds (e : Eng) (r : Run) (p : BitVec 10 × Target × Nat) (res : LoadRes) (s : State) : State :=
  let w : Who := .ldr e r.attempt
  let cxl := viaHome s r.ix.vi
  match loadAnswer s cxl w res with
  | none => s
  | some (.failed, _) => failIndex e .hostAccessErr (blockAddr p.2.2) (dropRet w s)
  | some (.poisoned, _) => failIndex e .poisoned (blockAddr p.2.2) (dropRet w s)
  | some (.data d, lost) => ldrReturn e p.2.1 p.2.2 (lineWord d (targetAddr p.2.1)) cxl lost (dropRet w s)
/-- A load of a block ends (R340, R359). -/
def loadEndsAt (e : Eng) (r : Run) (p : HLoad) (res : LoadRes) (s : State) : State :=
  let w : Who := .load e r.attempt p.tbi
  match loadAnswer s p.cxl w res with
  | none => s
  | some (.failed, _) => failIndex e .hostAccessErr p.ea (dropRet w s)
  | some (.poisoned, _) => failIndex e .poisoned p.ea (dropRet w s)
  | some (.data d, _) =>
    updRun e (fun r => { r with
      loads := r.loads.erase p, tbIn := mset 0 r.tbIn p.tbi.toNat (bytesBlock (loadHost p.fwd p.host (blockBytes d))) })
      (dropRet w s)
/-- A load made ahead ends: its block waits for its routine. One that fails is made again there. -/
def aheadEnds (e : Eng) (p : HLoad) (res : LoadRes) (s : State) : State :=
  updRun e (fun r => { r with ahead := r.ahead.map fun x => { x with
    loads := x.loads.erase p
    got := match res with
      | .data d => mset none x.got p.tbi.toNat (some (bytesBlock (loadHost p.fwd p.host (blockBytes d))))
      | _ => x.got } }) s
/-- A host load of the running attempt, or of one ahead of it, ends; one of an attempt that was abandoned is discarded
(R404). What the home carries is taken from what the slice has returned. -/
def execLoadReturn (e : Eng) (attempt : Nat) (tbi : BitVec 10) (res : LoadRes) (s : State) : Out :=
  .next (match runOf s e with
    | none => s
    | some r =>
      if !engOn s e then s
      else if r.attempt + 1 = attempt then
        match (r.ahead.bind fun x => x.loads.find? fun p => p.tbi == tbi && !p.cxl) with
        | some p => aheadEnds e p res s
        | none => s
      else if r.attempt ≠ attempt || r.phase ≠ .pre then s
      else match r.ldr.filter fun p => p.1 == tbi with
        | some p => ldrEnds e r p res s
        | none => match r.loads.find? fun p => p.tbi == tbi with
          | none => s
          | some p => loadEndsAt e r p res s)

/-- What the register of an STC receives, and the failure that shows at the task boundary (R367, R371, R373); none while
the answer is not there. A store to device memory, and one without a reservation, has its answer at once. -/
def stcValue (s : State) (e : Eng) (x : Stc) (res : StcRes) : Option (Nat × Option Status) :=
  match x.tgt, x.cxl, res with
  | .dev _, _, _ => some (b2n x.ok, none)
  | .host _ _, true, _ => match retOf s (.stc e x.reg) with
    | some h => some (if h.failed then (0, some .hostAccessErr) else if h.poison then (0, some .poisoned) else (b2n h.kept, none))
    | none => if underWay s (fun w => w == .stc e x.reg) then none else some (0, none)
  | .host _ _, false, .cas original => some (b2n (x.ok && original == x.compare), none)
  | .host _ _, false, .failed => if x.ok then some (0, some .hostAccessErr) else some (0, none)
  | .host _ _, false, .casPoisoned => if x.ok then some (0, some .poisoned) else some (0, none)
  | .host _ _, false, _ => if x.ok then none else some (0, none)
/-- The result reaches the register of the index that issued the STC. -/
def takeStc (x : Stc) (v : Nat × Option Status) (r : Run) : Run :=
  if isIndex x.vi x.idx x.k r then
    { r with
      regs := setX r.regs x.reg (BitVec.ofNat 64 v.1)
      fail := r.fail.orElse fun _ => v.2.map fun st => failC st (blockAddr x.ea) }
  else r
/-- The oldest STC whose answer is there ends, for the index that runs or for the one switched away that issued it. -/
def execStcResult (e : Eng) (res : StcRes) (s : State) : Out :=
  .next (if !engOn s e then s
    else match (eng s e).stcs.findSome? fun x => (stcValue s e x res).map fun v => (x, v) with
      | none => s
      | some (x, v) =>
        let s := if x.cxl then dropRet (.stc e x.reg) s else s
        updEng e (fun y => { y with
          stcs := y.stcs.erase x, run := y.run.map (takeStc x v), away := y.away.map (takeStc x v) }) s)

/-- A block that waited outbound in the transfer buffer enters the store buffer (R396). -/
def refillSb (e : Eng) (s : State) : State :=
  updEng e (fun y => match y.tbOut with
    | p :: t => if y.sb.length < 32 then { y with sb := y.sb ++ [p.2], tbOut := t } else y
    | [] => y) s
/-- Two entries touch a common 64-byte block. -/
def sameBlock (x y : SbEnt) : Bool :=
  match x.tgt, y.tgt with
  | .dev a, .dev b => a / 64 == b / 64
  | .host a _, .host b _ => a / 64 == b / 64
  | _, _ => false
/-- Blocks of one release store. -/
def sameRelease (x y : SbEnt) : Bool :=
  y.release && x.att == y.att && x.fly == y.fly && x.k == y.k && x.vi == y.vi
/-- Entry i may be the next to pass: no earlier entry shares its block, and a release store follows everything earlier but
the other blocks of its own routine (Table: Program order kept). -/
def sbMayPass (l : List SbEnt) (i : Nat) : Bool :=
  match l[i]? with
  | none => false
  | some x => (l.take i).all fun y => !sameBlock x y && (!x.release || sameRelease x y)
/-- Entry i of a write gather may be the next to pass: no earlier entry shares its block (R353). -/
def gatherMayPass (l : List Gather) (i : Nat) : Bool :=
  match l[i]? with
  | none => false
  | some x => (l.take i).all fun y => x.addr / 64 != y.addr / 64
/-- The manual gives no order among the entries that may pass: the only one, or a free choice. -/
def pickFree (fr : Nat) : List Nat → Nat
  | [] => 0
  | [i] => i
  | l => l.getD (fr % l.length) 0

/-- An entry of a store buffer is passed on, where its target takes it; a release store first waits for the engine's earlier
ones. `ok` is the host port's answer to a write that the home does not carry. -/
def execStoreBufferPass (e : Eng) (ok : Bool) (s : State) : Out :=
  .next (if !engOn s e || !islandRuns s (.hub (kilnOf e)) then s
    else
      let l := (eng s e).sb
      let i := pickFree (free s) ((List.range l.length).filter (sbMayPass l))
      match l[i]? with
      | none => s
      | some x =>
        if !mayLeave s e x then s else
        let s := refillSb e (updEng e (fun y => { y with sb := l.eraseIdx i }) (tick s))
        match x.tgt, ok || viaHome s x.vi with
        | .host _ _, false => storeFailed e x.vi x.fly x.k (failC .hostAccessErr x.addr) s
        | _, _ => passEntry e x s)

/-- The pieces of a gather entry: an aligned 32 bytes at a time (R374). -/
def gatherPieces (g : Gather) : List Gather :=
  (granules g.addr g.data.length).map fun n =>
    let lo := max g.addr (32 * n)
    { g with addr := lo, data := (g.data.drop (lo - g.addr)).take (min (g.addr + g.data.length) (32 * n + 32) - lo) }
/-- The die's write gather passes an entry to the controller, a piece at a time and in no order (R350, R374). -/
def passPiece (k : Kiln) (l : List Gather) (i : Nat) (g : Gather) (s : State) : State :=
  let ps := gatherPieces g
  match ps[free s % ps.length]? with
  | some p => acceptWrite p.addr p.data (updGather k (fun _ => l.take i ++ ps.erase p ++ l.drop (i + 1)) (tick s))
  | none => updGather k (fun _ => l.eraseIdx i) s
def execGatherPass (k : Kiln) (s : State) : Out :=
  .next (if !running s || kilnFenced s k || !islandRuns s (.hub k) then s
    else
      let l := gather s k
      let i := pickFree (free s) ((List.range l.length).filter (gatherMayPass l))
      match l[i]? with
      | none => s
      | some g => if memOpen s k.val g.addr g.data.length then passPiece k l i g (tick s) else s)

end Sys2Proof.Machine
end

