-- ==== Sys2Proof/Machine/ArraySlots.lean ====
section
/-! DEFINITION. The matrix and vector slots of a microword (Table: Microword, R322, R391 to R394). -/

namespace Sys2Proof.Machine

def isMx (code : Nat) (w : Nat) : Bool := wMxop w == code

def execMxNop (e : Eng) (s : State) : Out := issue e 2 (isMx 0) (fun _ _ _ s => .next s) s

/-- SHIFT: slice s of the tile at [MSRC] goes into shadow slice s. -/
def execShift (e : Eng) (fmt : MxFmt) (src idx : BitVec 6) (s : State) : Out :=
  issue e 2 (fun w => isMx 1 w && wFmt w == fmt && wMsrc w == src && wMidx w == idx) (fun r _ fr s =>
    let n := sliceBytes fmt
    let k := (readReg r fr idx).toNat % 256
    let o := (readReg r fr src).toNat + n * k
    .next (match spCheck s e r.ix.vi o n with
      | some x => updEng e (fun y => { y with shadow := spGo (spRead s e x n) (n * k) y.shadow }) s
      | none => opFail e .segFault o s)) s

/-- SWAP makes the shadow plane active. -/
def execSwap (e : Eng) (s : State) : Out :=
  issue e 2 (isMx 2) (fun _ _ _ s => .next (updEng e (fun y => { y with plane := y.shadow, shadow := y.plane }) s)) s

/-- RINC: the row bytes are added to MSRC and N × 4 to MACC. -/
def rinc (e : Eng) (x : StreamSlot) (s : State) : State :=
  if x.inc then addIncs e (onceEach [(x.src, rowBytes x.fmt), (x.dst, mxN x.fmt * 4)]) s else s
/-- STREAM: one moving row times the active plane into N accumulators. -/
def execStream (e : Eng) (x : StreamSlot) (s : State) : Out :=
  afterCommit e 2 (fun w => isMx 3 w && wStream w == x) (fun r _ fr s =>
    let s := rinc e x s
    let o := (readReg r fr x.dst).toNat
    let a := (readReg r fr x.src).toNat
    let tile := (List.range (tileBytes x.fmt)).map fun i => mget 0 (eng s e).plane i
    .next (match spCheck s e r.ix.vi a (rowBytes x.fmt), spCheck s e r.ix.vi o (mxN x.fmt * 4) with
      | some src, some dst =>
        spWrite e dst (streamRow x.fmt x.acc x.e5t x.e5m (spRead s e src (rowBytes x.fmt)) tile
          (spRead s e dst (mxN x.fmt * 4))) s
      | none, _ => opFail e .segFault a s
      | _, none => opFail e .segFault o s)) s

/-! ## Vectors -/

def isVop (code : Nat) (v : VecSlot) (w : Nat) : Bool := wVop w == code && wVec w == v
/-- VINC: the bytes that each operand spans are added to its register. -/
def vinc (e : Eng) (v : VecSlot) (l : List (BitVec 6 × Nat)) (s : State) : State :=
  if v.inc then addIncs e (onceEach l) s else s
def execVopNop (e : Eng) (s : State) : Out := issue e 3 (fun w => wVop w == 0) (fun _ _ _ s => .next s) s
/-- An operation on vectors of 512 FP32 lanes; EXP and RSQ have no second source. -/
def vop (code : Nat) (op : VOp) (e : Eng) (v : VecSlot) (s : State) : Out :=
  afterCommit e 3 (isVop code v) (fun r _ fr s =>
    let two := [(v.dst, 2048), (v.src1, 2048)]
    let s := vinc e v (if op = .exp || op = .rsq then two else two ++ [(v.src2, 2048)]) s
    .next (vecAt e r.ix.vi op (readReg r fr v.dst).toNat (readReg r fr v.src1).toNat (readReg r fr v.src2).toNat s)) s
def execFma (e : Eng) (v : VecSlot) (s : State) : Out := vop 1 .fma e v s
def execVadd (e : Eng) (v : VecSlot) (s : State) : Out := vop 2 .add e v s
def execVmul (e : Eng) (v : VecSlot) (s : State) : Out := vop 3 .mul e v s
def execVmax (e : Eng) (v : VecSlot) (s : State) : Out := vop 4 .max e v s
def execVmin (e : Eng) (v : VecSlot) (s : State) : Out := vop 5 .min e v s
def execExp (e : Eng) (v : VecSlot) (s : State) : Out := vop 6 .exp e v s
def execRsq (e : Eng) (v : VecSlot) (s : State) : Out := vop 7 .rsq e v s
def execCvt (e : Eng) (v : VecSlot) (srcT dstT : BitVec 4) (sat : Bool) (s : State) : Out :=
  afterCommit e 3 (fun w => isVop 8 v w && wCvtSrc w == srcT.toNat && wCvtDst w == dstT.toNat && wSat w == sat)
    (fun r _ fr s =>
      let s := vinc e v [(v.dst, 512 * dtypeBytes dstT.toNat), (v.src1, 512 * dtypeBytes srcT.toNat)] s
      .next (cvtAt e r.ix.vi srcT.toNat dstT.toNat sat (readReg r fr v.dst).toNat (readReg r fr v.src1).toNat s)) s

/-- The array's shift pauses for one engine cycle: a bank is yielded to another unit (R313, R395). -/
def execShiftStall (e : Eng) (s : State) : Out :=
  .next (match openWord s e with
    | some _ => holdCycle e s
    | none => s)

end Sys2Proof.Machine
end

