-- ==== Sys2Proof/Machine/Sequencing.lean ====
section
/-! DEFINITION. The sequencing slot of a microword (Table: SEQ encodings, R393, R397, R398, R409). -/

namespace Sys2Proof.Machine

/-- The word that follows. -/
def nextWord (e : Eng) (r : Run) (s : State) : Out := .next (endWord e (r.upc + 1) s)
/-- Go to TARGET when a condition on the run holds, else to the next word. -/
def branch (code : Nat) (e : Eng) (target : BitVec 12) (c : Regs → Bool) (s : State) : Out :=
  sequence e (fun w => wSeq w == code && wTarget w == target.toNat) (fun r _ s =>
    if c (srcRegs r) then .next (endWord e target.toNat s) else nextWord e r s) s

/-- NEXT; the word's check bits are read as it issues (R409). -/
def execSeqNext (e : Eng) (ecc : Ecc) (s : State) : Out :=
  match openWord s e with
  | none => .next s
  | some (r, w) =>
    if wSeq w ≠ 0 || wEnd w || isCommitWord r w then .next s
    else
      let go := sequence e (fun w => wSeq w == 0) (fun r _ s => nextWord e r s)
      match wordCheck e ecc s with
      | none => go s
      | some s' => if ecc = .corrected then go s' else .next s'

def execSeqJump (e : Eng) (target : BitVec 12) (s : State) : Out := branch 1 e target (fun _ => true) s

/-- The counter that LOOP decrements, and the register that names it. -/
def lcOf (g : Regs) (lc1 : Bool) : BitVec 16 := if lc1 then g.lc1 else g.lc0
def lcReg (lc1 : Bool) : BitVec 6 := if lc1 then 0x29 else 0x28
def setLc (lc1 : Bool) (v : BitVec 16) (r : Run) : Run :=
  { r with regs := if lc1 then { r.regs with lc1 := v } else { r.regs with lc0 := v } }
/-- LOOP decrements the counter that the word read; a scalar result written to the same counter prevails. -/
def execSeqLoop (e : Eng) (target : BitVec 12) (lc1 : Bool) (s : State) : Out :=
  sequence e (fun w => wSeq w == 2 && wTarget w == target.toNat && wLcsel w == lc1) (fun r _ s =>
    let v := lcOf (srcRegs r) lc1 - 1
    let s := if r.sopDst == some (lcReg lc1) then s else updRun e (setLc lc1 v) s
    if v ≠ 0 then .next (endWord e target.toNat s) else nextWord e r s) s

def execSeqBz (e : Eng) (target : BitVec 12) (s : State) : Out := branch 3 e target (fun g => g.z) s
def execSeqBnz (e : Eng) (target : BitVec 12) (s : State) : Out := branch 4 e target (fun g => !g.z) s
def execSeqBn (e : Eng) (target : BitVec 12) (s : State) : Out := branch 5 e target (fun g => g.n) s

/-- A wait word: what the wait finds before commit comes first, then the word ends as NEXT does. -/
def waitWord (code : Nat) (e : Eng) (src1 : BitVec 6) (more : Nat → Bool) (chk : Run → Nat → State → Option State)
    (s : State) : Out :=
  let is := fun w => wSeq w == code && wSrc1 w == src1.toNat && more w
  match openWord s e with
  | none => .next s
  | some (r, w) =>
    if !is w || wEnd w then .next s
    else match (if r.phase = .pre then chk r (readReg r (free s) src1).toNat s else none) with
      | some s' => .next s'
      | none => sequence e is (fun r _ s => nextWord e r s) s

/-- WFLAG (R398): an invalid flag or a FAILED one ends the index. -/
def execWflag (e : Eng) (src1 : BitVec 6) (count : BitVec 16) (s : State) : Out :=
  waitWord 6 e src1 (fun w => wSimm w == count.toNat) (fun r v s =>
    match flagWait s e r.ix.vi (v % 1024) count.toNat with
    | .invalid f => some (failIndex e .fencedUnit f s)
    | .failed f => some (failIndex e .poisoned f s)
    | _ => none) s

def slotFail (e : Eng) (r : Run) (v : Nat) (s : State) : Option State :=
  if slotOk s e r.ix.vi (v % 4) then none else some (failIndex e .fencedUnit (v % 4) s)
def execWslotd (e : Eng) (src1 : BitVec 6) (s : State) : Out := waitWord 7 e src1 (fun _ => true) (slotFail e) s
def execWslotf (e : Eng) (src1 : BitVec 6) (s : State) : Out := waitWord 8 e src1 (fun _ => true) (slotFail e) s
def execWload (e : Eng) (s : State) : Out := sequence e (fun w => wSeq w == 9) (fun r _ s => nextWord e r s) s

end Sys2Proof.Machine
end

