-- ==== Sys2Proof/Machine/Ports.lean ====
section
/-! DEFINITION. Fabric ports, hellos, delivery over one hop, routed frames, epochs and the peer side of remote writes
(chapter 14). -/

namespace Sys2Proof.Machine

/-! ## Links and port states (R449 to R451, R462, R486) -/

/-- The port's island works: the device is in FIRED, and the port is in service, not parked and not stopped. -/
def portOn (s : State) (p : Port) : Bool := running s && !portFenced s p && islandRuns s (.fport p)
def roleOf (s : State) (p : Port) : Nat := fget s .portRole p.val
/-- Roles FABRIC (0) and BOTH (2) speak VFP (Table: Port roles). -/
def speaksVfp (s : State) (p : Port) : Bool := roleOf s p ≠ 1
def portEnabled (s : State) (p : Port) : Bool := fget s .portEnable p.val == 1
/-- FAB_PORT_CTL.SPEED allows a negotiated speed: 1 is 100 Gb/s, 2 is 200 Gb/s. -/
def speedOk (s : State) (p : Port) (speed : Nat) : Bool :=
  match fget s .portSpeed p.val with
  | 0 => speed == 1 || speed == 2 | 1 => speed == 2 | 2 => speed == 1 | _ => false

/-- A port comes up: INIT, or INGEST for role INGEST. A held port stays held. -/
def execPortLinkUp (p : Port) (speed : BitVec 2) (s : State) : Out :=
  let x := getPort s p
  .next (if !portOn s p || !portEnabled s p || x.linkUp || x.st == .held || !speedOk s p speed.toNat then s
    else updPort p (fun x => { x with
        linkUp := true, speed := speed.toNat, upAt := s.nowNs, heard := false
        st := if roleOf s p = 1 then .ingest else .init })
      { s with refSeen := if s.refSeen.contains (flueOf p) then s.refSeen else s.refSeen ++ [flueOf p] })

/-- The states in which a loss is a change to DOWN. -/
def PState.live : PState → Bool
  | .init => true | .up => true | .conflict => true | .loop => true | .miswired => true | .ingest => true | _ => false

/-- A live port goes DOWN with a cause, and a class 0 fault is recorded (R486). -/
def losePort (p : Port) (cause : Nat) (s : State) : State :=
  if (getPort s p).st.live then raise (.fport p) 0x0B (cause - 1) (portDown p cause s) else s

def execPortLinkLoss (p : Port) (s : State) : Out :=
  .next (if !portOn s p || !(getPort s p).linkUp then s
    else losePort p 1 (updPort p (fun x => { x with linkUp := false, speed := 0 }) s))

/-! ## Hellos (R461 to R463) -/

def helloOf (s : State) (p : Port) : Hello :=
  let seen := (getPort s p).nbr
  {
    uid := s.fuses.uid, node := BitVec.ofNat 18 (ownNode s), nodeValid := nodeOk s, port := BitVec.ofNat 5 p.val,
    role := BitVec.ofNat 2 (roleOf s p), curEpoch := s.epochCur
    seenUid := (seen.map Hello.uid).getD 0, seenNode := (seen.map Hello.node).getD 0
    seenValid := (seen.map Hello.nodeValid).getD false, seenPort := (seen.map Hello.port).getD 0 }

/-- The port sends and hears hellos: its link is up, its role speaks VFP, and it is neither disabled, held nor fenced. -/
def helloOn (s : State) (p : Port) : Bool :=
  let st := (getPort s p).st
  portOn s p && portEnabled s p && (getPort s p).linkUp && speaksVfp s p && st != .disabled && st != .held && st != .fenced

def execHelloTx (p : Port) (s : State) : Out :=
  .next (if helloOn s p then emit (.helloFrame p (helloOf s p)) s else s)

/-- The neighbour's node ID belongs to another device: this one, or the neighbour of another port that is UP. -/
def conflictOf (s : State) (p : Port) (h : Hello) : Bool :=
  h.nodeValid && ((nodeOk s && h.node.toNat == ownNode s && h.uid != s.fuses.uid) ||
    allPorts.any fun q => q != p && portUp s q &&
      ((getPort s q).nbr.any fun g => g.nodeValid && g.node == h.node && g.uid != h.uid))
def miswiredOf (s : State) (p : Port) (h : Hello) : Bool :=
  let u : CUnit := .fport p
  fgetU s u .expectEn p.val == 1 &&
    (h.node.toNat != fgetU s u .expectNode p.val || h.port.toNat != fgetU s u .expectPort p.val)
/-- The state that a hello gives the port; where several of the table's conditions hold, the lowest value stands. -/
def helloState (s : State) (p : Port) (h : Hello) : PState :=
  if conflictOf s p h then .conflict
  else if h.uid == s.fuses.uid then .loop
  else if miswiredOf s p h then .miswired
  else if h.seenUid == s.fuses.uid && h.seenPort.toNat == p.val && (getPort s p).st != .ingest then .up
  else .init
def PState.code : PState → Nat
  | .disabled => 0 | .down => 1 | .init => 2 | .up => 3 | .conflict => 4 | .loop => 5 | .miswired => 6 | .ingest => 7
  | .held => 8 | .fenced => 9
def PState.bad : PState → Bool
  | .conflict => true | .loop => true | .miswired => true | _ => false

/-- The port moves to a state that a hello gives; entering CONFLICT, LOOP or MISWIRED is recorded. -/
def setHello (p : Port) (st : PState) (s : State) : State :=
  let old := (getPort s p).st
  if old = st then s
  else
    let s := if st = .up then enterUp p s else leaveUp p st s
    if st.bad then raise (.fport p) 0x0D st.code s else s

/-- 30 ms have passed since the last hello: the window of R463 has ended. -/
def helloLate (s : State) (p : Port) : Bool := (getPort s p).heard && decide ((getPort s p).heardAt + 30000000 ≤ s.nowNs)
/-- A hello is recorded and the port's state follows. -/
def takeHello (p : Port) (h : Hello) (s : State) : State :=
  setHello p (helloState s p h) (updPort p (fun x => { x with nbr := some h, heard := true, heardAt := s.nowNs }) s)
/-- A late hello takes the port DOWN, and is then the first of a new INIT; UP takes a further exchange (DEDUCED, log 103). -/
def lateHello (p : Port) (h : Hello) (s : State) : State :=
  let s := losePort p 2 s
  if (getPort s p).st == .held then s
  else
    let st := helloState s p h
    setHello p (if st == .up then .init else st)
      (updPort p (fun x => { x with st := .init, nbr := some h, heard := true, heardAt := s.nowNs }) s)

/-- A hello arrives, in time or late; a port of role INGEST discards it and counts it. -/
def execHelloRx (p : Port) (h : Hello) (s : State) : Out :=
  .next (if helloOn s p then (if helloLate s p then lateHello p h s else takeHello p h s)
    else if portOn s p && portEnabled s p && (getPort s p).linkUp && (getPort s p).st == .ingest then fcount .discards p.val 16 1 s
    else s)

def execHelloLoss (p : Port) (s : State) : Out :=
  .next (if portOn s p && helloLate s p then losePort p 2 s else s)

def execIngestFallback (p : Port) (s : State) : Out :=
  let x := getPort s p
  .next (if portOn s p && roleOf s p = 2 && x.linkUp && x.st == .init && !x.heard then updPort p (fun x => { x with st := .ingest }) s
    else s)

/-! ## Delivery over one hop (R453 to R458) -/

/-- Send a LINK frame: credits go back to the neighbour, with the last LSEQ received in sequence. -/
def sendLink (p : Port) (s : State) : State :=
  let x := getPort s p
  let cred := (List.range 8).map fun v => (mget 0 x.sent v + mget 0 x.owed v) % 4096
  let s := updPort p (fun x => { x with
    sent := (List.range 8).foldl (fun m v => mset 0 m v ((mget 0 m v + mget 0 x.owed v) % 4096)) x.sent, owed := [] }) s
  emit (.linkFrame p cred x.rxSeq x.waitSeq) s
def linkOn (s : State) (p : Port) : Bool := portOn s p && nodeOk s && (getPort s p).st == .up
/-- 16 or more credits of one channel wait to be returned: a LINK frame leaves at once. -/
def linkDue (s : State) : State :=
  allPorts.foldl (fun s p =>
    if linkOn s p && (List.range 8).any (fun v => decide (mget 0 (getPort s p).owed v ≥ 16)) then sendLink p s else s) s
def execLinkTx (p : Port) (s : State) : Out := .next (if linkOn s p then sendLink p s else s)

/-- Frames up to an acknowledged LSEQ leave the replay buffer. -/
def coverHold (ack : Nat) (l : List (Frame × Nat)) : List (Frame × Nat) :=
  match l.findIdx? fun q => q.1.lseq.toNat == ack with
  | some i => l.drop (i + 1)
  | none => l
/-- Resend every held frame in order; a frame that has been sent 8 times takes the port DOWN. -/
def replay (p : Port) (s : State) : State :=
  let x := getPort s p
  if x.hold.isEmpty then s
  else if x.hold.any fun q => decide (q.2 ≥ 8) then losePort p 3 s
  else
    let s := x.hold.foldl (fun s q => emit (.frame p q.1) s) s
    fcount .replays p.val 16 x.hold.length (updPort p (fun x => { x with hold := x.hold.map fun q => (q.1, q.2 + 1) }) s)

def execLinkRx (p : Port) (cred : List (BitVec 12)) (ackLseq : BitVec 12) (nak : Bool) (s : State) : Out :=
  if !(Instr.linkRx p cred ackLseq nak).wf then .refused .noSuchUnit
  else .next (if !linkOn s p then s
    else
      let s := updPort p (fun x => { x with
        back := (List.range 8).foldl (fun m v => mset 0 m v (cred.getD v 0).toNat) x.back
        hold := coverHold ackLseq.toNat x.hold }) s
      linkDue (drainPort p (if nak then replay p s else s)))

def execReplayTimeout (p : Port) (s : State) : Out := .next (if linkOn s p then replay p s else s)

/-- A frame that R453 discards. -/
def badFrame (f : Frame) : Bool :=
  !f.hcrcOk || f.ver != 1 || decide (f.kind.toNat > 5) || !f.reservedZero || decide (f.len.toNat > 4096) || f.tagged
/-- A reception error: NAK is sent, and sequenced frames are discarded until the expected one arrives. -/
def rxError (p : Port) (s : State) : State := sendLink p (updPort p (fun x => { x with waitSeq := true }) s)
/-- The frame is accepted in sequence. -/
def rxAccept (p : Port) (s : State) : State :=
  updPort p (fun x => { x with rxSeq := (x.rxSeq + 1) % 4096, waitSeq := false }) s
def execSeqFrameRx (p : Port) (f : Frame) (fcs : Fcs) (s : State) : Out :=
  if !(Instr.seqFrameRx p f fcs).wf then .refused .noSuchUnit
  else .next (
    if !portOn s p then s
    else if (getPort s p).st == .ingest && roleOf s p = 1 then fcount .discards p.val 16 1 s
    else if !linkOn s p || f.kind.toNat < 2 then s
    else if badFrame f then rxError p (fcount .discards p.val 16 1 s)
    else if fcs = .bad || f.lseq.toNat ≠ ((getPort s p).rxSeq + 1) % 4096 then rxError p s
    else if fcs = .stomped then linkDue (oweCredits (some p) f.vc.toNat f (rxAccept p s))
    else rxAccept p s)

/-! ## Routed frames (R464, R467 to R469, R473) -/

/-- A frame of a source unit (`inPort` none) or one accepted on a port is routed. -/
def execRouteFrame (f : Frame) (inPort : Option Port) (s : State) : Out :=
  if !(Instr.routeFrame f inPort).wf then .refused .noSuchUnit
  else .next (
    if !running s || !nodeOk s || badFrame f || f.kind.toNat < 2 then s
    else match inPort with
      | none => if anyFlue s then linkDue (sendFrame f s) else s
      | some p =>
        if !linkOn s p then s
        else if f.src.toNat = ownNode s then
          linkDue (oweCredits inPort f.vc.toNat f (raise (.fport p) 0x0C f.src.toNat s))
        else linkDue (routeIn f inPort s))

/-! ## Remote writes at the peer, and their ACKs (R477, R482 to R484) -/

/-- The frame is for this device. -/
def forMe (s : State) (f : Frame) : Bool := running s && nodeOk s && f.dst.toNat == ownNode s
/-- The die at which a frame for this device leaves the fabric: the first flue die in service (DESIGN CHOICE, log 102). -/
def landDie (s : State) : Nat := 16 + ((List.finRange 4).findIdx (flueIn s)) % 4
/-- The memory that a WRITE of a window reaches can be reached; while it cannot, the WRITE waits (R667). -/
def landOpen (s : State) (f : Frame) : Bool :=
  memOpen s (landDie s) (winAddr s (fwinOf s (fWindow f)) (fOff f)) f.payload.length
/-- A WRITE waits for a place among 4,096 ACKs. -/
def execWriteRx (f : Frame) (s : State) : Out :=
  if !(Instr.writeRx f).wf then .refused .noSuchUnit
  else .next (
    if !forMe s f || badFrame f || f.kind.toNat ≠ 2 || s.ackq.length ≥ 4096 || !landOpen s f then s
    else
      let r := writeWindow (fWindow f) f.src.toNat (fRkey f) (fOff f) f.payload s
      { r.2 with ackq := r.2.ackq ++ [ackFrame s f.src.toNat (fWindow f) (fCtx f) (fOff f) r.1 f.payload.length] })
def execWriteAckTx (s : State) : Out :=
  .next (match s.ackq with
    | [] => s
    | f :: t => if running s && nodeOk s && anyFlue s then sendFrame { f with epoch := s.epochCur } { s with ackq := t } else s)

/-- The send time of an outstanding WRITE. -/
def sentAt (s : State) (c off len : Nat) : Option Nat :=
  ((getCtx s c).pend.find? fun p => p.1 == off && p.2.1 == len).map fun p => p.2.2.1
/-- An ACK that arrives 50 ms after its WRITE, or later, is ignored. -/
def execAckRx (f : Frame) (s : State) : Out :=
  .next (
    if !forMe s f || badFrame f || f.kind.toNat ≠ 3 then s
    else match sentAt s (fCtx f) (fOff f) (fAckLen f) with
      | none => s
      | some t => if s.nowNs ≥ t + 50000000 then s else ctxAnswer (fCtx f) (fOff f) (some (fAckLen f)) (fCode f) s)
/-- The deadline of a WRITE has come (R483). -/
def execWriteTimeout (ctx : BitVec 12) (offset : BitVec 48) (s : State) : Out :=
  .next (if !running s then s
    else match (getCtx s ctx.toNat).pend.find? fun p => p.1 == offset.toNat with
      | some p => if p.2.2.1 + 50000000 ≤ s.nowNs then ctxAnswer ctx.toNat offset.toNat (some p.2.1) 15 s else s
      | none => s)

/-! ## Epochs (R471, R639) -/

/-- The register answers PF0 alone, and in FIRED. -/
def epochOpen (s : State) (fn : Vi) : Bool := running s && fn == vi0 && answers s fn
def armEpoch (s : State) : State := if s.grace then s else { s with epochArm := true }
def flipEpoch (s : State) : State := { s with epochCur := !s.epochCur, epochArm := false, grace := true }
def execEpochArm (fn : Vi) (s : State) : Out := .next (if epochOpen s fn then armEpoch s else s)
/-- FLIP looks at ARM as it stood before the write; a write of both bits arms a device that was not armed. -/
def execEpochFlip (fn : Vi) (alsoArm : Bool) (s : State) : Out :=
  .next (if !epochOpen s fn then s
    else if s.epochArm then flipEpoch s
    else if alsoArm then armEpoch s
    else s)
def execGraceEnd (s : State) : Out := .next { s with grace := false }

end Sys2Proof.Machine
end

