-- ==== Sys2Proof/Machine/Memory.lean ====
section
/-! DEFINITION. What memory controllers find as they read: corrected and uncorrectable errors, scrubbing, and a memory
island that fails (R422 to R428). -/

namespace Sys2Proof.Machine

def chanNo (n : Nat) : Chan := ⟨n % 128, by omega⟩
def chansOf (k : Kiln) : List Nat := (List.range 8).map fun i => 8 * k.val + i
/-- Uncorrectable reads of a die's channels in its open window. -/
def ueCount (s : State) (k : Kiln) : Nat := (chansOf k).foldl (fun a c => a + mget 0 s.ueWindow c) 0
/-- The channels that recorded them, as MEM_FAILED names them. -/
def ueMask (s : State) (k : Kiln) : Nat :=
  ((List.range 8).filter fun i => mget 0 s.ueWindow (8 * k.val + i) != 0).foldl (fun a i => a + 2 ^ i) 0
/-- The memory island has failed: its kiln die is fenced. -/
def memFail (k : Kiln) (mask : Nat) (s : State) : State :=
  if kilnFenced s k then s else raise (.memory k) 0x28 mask s

/-- A read of the granule that holds an address finds an error, or none. A granule that is already poisoned is reported
to its reader and does nothing else. -/
def memCheck (a : Nat) (ecc : Ecc) (s : State) : State :=
  let g := a / 32 * 32
  let c := chanNo (chanOf (fget s .interleave) g)
  let k := kilnOfChan c
  if !running s || !islandRuns s (.memory k) || isHole s g || poisoned s g then s
  else match ecc with
    | .clean => s
    | .corrected => raise (.channel c) 0x07 g (fcount .eccCorrected 0 32 1 s)
    | .uncorrectable =>
      let s := setPoison g true (fset .lastUe 0 g (fcount .eccUncorrected 0 32 1 s))
      let s := raise (.channel c) 0x08 g { s with ueWindow := mupd 0 s.ueWindow c.val (· + 1) }
      if ueCount s k ≥ 64 then memFail k (ueMask s k) s else s

def execMemRead (addr : BitVec 38) (ecc : Ecc) (s : State) : Out := .next (memCheck addr.toNat ecc s)

/-- Bytes of a channel (192 GiB over 128 channels). -/
def chanBytes : Nat := 0x60000000
/-- The next scrub read of a channel, in ascending channel offset. -/
def execScrubRead (c : Chan) (ecc : Ecc) (s : State) : Out :=
  .next (if !running s || !islandRuns s (.memory (kilnOfChan c)) || kilnFenced s (kilnOfChan c) || fget s .scrubHours = 0 then s
    else
      let o := mget 0 s.scrubAt c.val
      let s := { s with scrubAt := mset 0 s.scrubAt c.val ((o + 32) % chanBytes) }
      memCheck (chanAddr (fget s .interleave) c.val o) ecc s)

/-- A channel has left an accepted request unanswered for 100 µs. -/
def execMemFailed (k : Kiln) (stuck : BitVec 8) (s : State) : Out :=
  .next (if running s && stuck ≠ 0 then memFail k stuck.toNat s else s)

/-- A 1 s window ends and the next begins. -/
def execMemUeWindowEnd (k : Kiln) (s : State) : Out :=
  .next { s with ueWindow := (chansOf k).foldl (fun m c => mset 0 m c 0) s.ueWindow }

end Sys2Proof.Machine
end

