-- ==== Sys2Proof/Machine/Ingest.lean ====
section
/-! DEFINITION. RoCEv2 ingest: packets and their outcomes, ACKs, completions to the owning VI, congestion and flow
control (R432 to R448). -/

namespace Sys2Proof.Machine

/-! ## Sending to an appliance (R445 to R447) -/

def pausedOn (s : State) (p : Port) (prio : Nat) : Bool := mget 0 (getPort s p).paused prio != 0
/-- A response leaves at its QP's priority, or waits for the pause of that priority to end. -/
def sendRoce (p : Port) (prio : Nat) (r : Roce) (s : State) : State :=
  if pausedOn s p prio then updPort p (fun x => { x with heldTx := x.heldTx ++ [(prio, r)] }) s else emit (.roce p prio r) s
/-- The pause of a priority ends: what waited on it leaves. -/
def unpause (p : Port) (prio : Nat) (s : State) : State :=
  let l := (getPort s p).heldTx.filter fun q => q.1 == prio
  let s := updPort p (fun x => { x with
    paused := mset 0 x.paused prio 0, heldTx := x.heldTx.filter fun q => q.1 != prio }) s
  l.foldl (fun s q => emit (.roce p prio q.2) s) s

/-- A port that faces appliances: INGEST, or BOTH. -/
def facesAppliance (s : State) (p : Port) : Bool := roleOf s p = 1 || roleOf s p = 2
def pfcPrios (s : State) : List Nat := (List.range 8).filter fun q => bitAt (fget s .pfcPrio) q
def sendPfc (p : Port) (xoff : Bool) (s : State) : State :=
  (pfcPrios s).foldl (fun s q => emit (.pfc p q xoff) s) s
/-- The receive buffer holds `n` bytes: at 384 KiB XOFF is sent. -/
def fillTo (p : Port) (n : Nat) (s : State) : State :=
  let s := updPort p (fun x => { x with rxBytes := n }) s
  if n ≥ 384 * 1024 && !(getPort s p).xoff then sendPfc p true (updPort p (fun x => { x with xoff := true }) s) else s

def execPfcXoffRepeat (p : Port) (s : State) : Out :=
  .next (if portOn s p && (getPort s p).xoff && (getPort s p).rxBytes ≥ 256 * 1024 then sendPfc p true s else s)
/-- The buffer has drained to `bytes`: below 256 KiB XON is sent. -/
def execPfcXon (p : Port) (bytes : BitVec 20) (s : State) : Out :=
  .next (if !portOn s p then s
    else
      let s := updPort p (fun x => { x with rxBytes := bytes.toNat }) s
      if (getPort s p).xoff && bytes.toNat < 256 * 1024 then sendPfc p false (updPort p (fun x => { x with xoff := false }) s)
      else s)
/-- A received PFC frame pauses its priorities for the quanta it names; quanta of 0 end the pause. -/
def execPfcRx (p : Port) (prios : BitVec 8) (quanta : BitVec 16) (s : State) : Out :=
  .next (if !portOn s p || !facesAppliance s p then s
    else ((List.range 8).filter fun q => bitAt prios.toNat q).foldl (fun s q =>
      if quanta = 0 then unpause p q s
      else updPort p (fun x => { x with paused := mset 0 x.paused q quanta.toNat }) s) s)
def execPfcPauseExpiry (p : Port) (prio : Fin 8) (s : State) : Out :=
  .next (if portOn s p then unpause p prio.val s else s)

/-- Frames that a role does not accept are counted; PAUSE frames and CNPs are ignored (R432, R447, R449). -/
def execOtherFrameRx (p : Port) (kind : OtherFrame) (s : State) : Out :=
  let counted := match kind with
    | .unknownType => true | .roceOnFabric => roleOf s p == 0 | .vfpOnIngest => roleOf s p == 1
    | .pause => false | .cnp => false
  .next (if portOn s p && (getPort s p).linkUp && counted then fcount .discards p.val 16 1 s else s)

/-! ## Packets (R437 to R440) -/

/-- What a packet is in its message. -/
inductive Wr where
  | first | middle | last (imm : Bool) | only (imm : Bool)
  deriving DecidableEq, Repr
def wrOf : Nat → Option Wr
  | 0x06 => some .first | 0x07 => some .middle | 0x08 => some (.last false) | 0x09 => some (.last true)
  | 0x0A => some (.only false) | 0x0B => some (.only true) | _ => none
def Wr.starts : Wr → Bool
  | .first => true | .only _ => true | _ => false
def Wr.ends : Wr → Bool
  | .last _ => true | .only _ => true | _ => false
def Wr.imm : Wr → Bool
  | .last i => i | .only i => i | _ => false

/-- A queue pair by its QPN (R434). -/
def qpOf (qpn : Nat) : Option Grp := if h : 0x1000 ≤ qpn ∧ qpn < 0x2000 then some ⟨qpn - 0x1000, by omega⟩ else none
/-- The message that a packet belongs to: window offset of its first byte, DMA length, bytes before this packet. -/
def msgOf (x : Qp) (w : Wr) (k : Packet) : Nat × Nat × Nat :=
  if w.starts then (k.va.toNat, k.dmaLen.toNat, 0) else (x.va, x.dmaLen, x.got)
def lengthBad (x : Qp) (w : Wr) (k : Packet) : Bool :=
  let n := k.payload.length
  let m := msgOf x w k
  match w with
  | .first => n == 0 || n != x.pmtu || decide (n > m.2.1)
  | .middle => n == 0 || n != x.pmtu || decide (m.2.2 + n > m.2.1)
  | .last _ => n == 0 || decide (n > x.pmtu) || m.2.2 + n != m.2.1
  | .only _ => decide (n > x.pmtu) || n != m.2.1

/-- Ring service of the owning VI runs (R443). -/
def ingestServed (s : State) (v : Vi) : Bool := viOn s v && !(getVi s v).stopped && !domainFails s v
/-- A queue pair enters ERROR with a cause; its entry is written back, and its VI gets an entry (R435, R442). -/
def qpError (q : Grp) (cause len addr : Nat) (s : State) : State :=
  let x := getQp s q
  let v := viNo (mget {} s.iwin x.window).vi
  let s := updQp q (fun x => { x with rtr := false, errCause := cause, inMsg := false }) s
  let s := writeBackQp q s
  if ingestServed s v then
    let c : Compl := failC .ingestWindow len addr cause
    updVi v (fun y => { y with ingest := y.ingest ++ [(c, x.window, q.val)] }) s
  else s

/-- Table: Packet outcomes, from the opcode row on: what an in-sequence packet of a bound queue pair meets. -/
inductive POut where
  | error (nak cause : Nat)
  | rnr
  | accept
  deriving DecidableEq, Repr
def packetOutcome (s : State) (x : Qp) (k : Packet) (w : Wr) : POut :=
  let win := mget {} s.iwin x.window
  let v := viNo win.vi
  let m := msgOf x w k
  let n := k.payload.length
  let a := (allotDev s .ring v).1 + win.base + m.1 + m.2.2
  if w.starts == x.inMsg then .error 1 3
  else if lengthBad x w k then .error 1 4
  else if w.starts && m.2.1 ≠ 0 && k.rkey ≠ win.rkey then .error 2 1
  else if w.starts && m.2.1 ≠ 0 && m.1 + m.2.1 > win.size then .error 2 2
  else if anyHole s a n then .error 3 5
  else if n ≠ 0 && win.base + m.1 + m.2.2 + n > (allotDev s .ring v).2 then .error 3 6
  else if w.imm && (!ingestServed s v || !cplRoom s v) then .rnr
  else .accept

/-- An accepted packet: its bytes land, EPSN and, at the message's end, MSN advance; an ACK is due, and with immediate
data an entry. -/
def acceptPacket (q : Grp) (k : Packet) (w : Wr) (s : State) : State :=
  let x := getQp s q
  let win := mget {} s.iwin x.window
  let v := viNo win.vi
  let m := msgOf x w k
  let n := k.payload.length
  let s := acceptWrite ((allotDev s .ring v).1 + win.base + m.1 + m.2.2) k.payload s
  let s := updQp q (fun x => { x with
    epsn := (x.epsn + 1) % 2 ^ 24, msn := if w.ends then (x.msn + 1) % 2 ^ 24 else x.msn
    inMsg := !w.ends, va := if w.ends then 0 else m.1, dmaLen := if w.ends then 0 else m.2.1
    got := if w.ends then 0 else m.2.2 + n, sinceAck := x.sinceAck + 1
    ackDue := x.ackDue || k.ackReq || w.ends || decide (x.sinceAck + 1 ≥ 32) }) s
  if w.imm then
    let c : Compl := { status := .ok, value := BitVec.ofNat 64 (m.2.1 + k.imm.toNat * 2 ^ 32), addr := BitVec.ofNat 64 m.1 }
    updVi v (fun y => { y with ingest := y.ingest ++ [(c, x.window, q.val)], reserved := y.reserved + 1 }) s
  else s

/-- The memory that a packet's payload reaches can be reached from its port's die; while it cannot, the packet waits (R428,
R667). -/
def landsOpen (s : State) (q : Grp) (k : Packet) (w : Wr) : Bool :=
  let x := getQp s q
  let win := mget {} s.iwin x.window
  let m := msgOf x w k
  memOpen s (16 + x.port / 8) ((allotDev s .ring (viNo win.vi)).1 + win.base + m.1 + m.2.2) k.payload.length
/-- An in-sequence packet. -/
def runPacket (q : Grp) (k : Packet) (s : State) : State :=
  let s := updQp q (fun x => { x with gapNak := false }) s
  let x := getQp s q
  let p := portNo x.port
  let fail := fun (nak cause : Nat) (w : Option Wr) (s : State) =>
    let s := sendRoce p x.pcp (.nak x.destQpn x.epsn x.msn nak) s
    match w with
    | some w =>
      if w.starts || x.inMsg then
        let m := msgOf x w k
        qpError q cause m.2.1 (m.1 + m.2.2) s
      else qpError q cause (free s % 2 ^ 32) (free s) (tick s)
    | none =>
      if x.inMsg then qpError q cause x.dmaLen (x.va + x.got) s else qpError q cause (free s % 2 ^ 32) (free s) (tick s)
  match wrOf k.opcode.toNat with
  | none => fail 1 3 none s
  | some w => match packetOutcome s x k w with
    | .error nak cause => fail nak cause (some w) s
    | .rnr => sendRoce p x.pcp (.rnr x.destQpn x.epsn x.msn (fget s .rnrTimer)) s
    | .accept => if landsOpen s q k w then acceptPacket q k w s else s

/-- A CE mark is answered by a CNP, one in each interval (R445). -/
def answerCe (q : Grp) (s : State) : State :=
  let x := getQp s q
  let open_ := match x.cnpAt with
    | some t => decide (s.nowNs < t + fget s .cnpInterval * 1000)
    | none => false
  if open_ then s
  else sendRoce (portNo x.port) x.pcp (.cnp x.destQpn) (updQp q (fun x => { x with cnpAt := some s.nowNs }) s)

/-- A packet of a bound queue pair: duplicates and gaps before the rest (R439). -/
def qpPacket (q : Grp) (k : Packet) (s : State) : State :=
  let s := if k.ce then answerCe q s else s
  let x := getQp s q
  let p := portNo x.port
  let back := (x.epsn + 2 ^ 24 - k.psn.toNat) % 2 ^ 24
  if back ≠ 0 && back ≤ 2 ^ 23 then sendRoce p x.pcp (.ack x.destQpn ((x.epsn + 2 ^ 24 - 1) % 2 ^ 24) x.msn) s
  else if back ≠ 0 then
    if x.gapNak then s
    else sendRoce p x.pcp (.nak x.destQpn x.epsn x.msn 0) (updQp q (fun x => { x with gapNak := true }) s)
  else runPacket q k s

/-- The port accepts ingest frames (R432): its state carries RoCEv2, and its role, the mask and ENABLE allow it. -/
def carriesRoce (s : State) (p : Port) : Bool := (getPort s p).st == .ingest || (getPort s p).st == .up
def ingestOn (s : State) (p : Port) : Bool :=
  facesAppliance s p && bitAt (fget s .portMask) p.val && fget s .ingEnable == 1

/-- `bytes` is what the port's receive buffer of 512 KiB would hold with this frame. -/
def execIngestPacket (p : Port) (k : Packet) (s : State) : Out :=
  .next (
    if !portOn s p || !carriesRoce s p then s
    else if !ingestOn s p || k.bytes.toNat > 512 * 1024 then fcount .discards p.val 16 1 s
    else
      let s := fillTo p k.bytes.toNat s
      match qpOf k.qpn.toNat with
      | none => s
      | some q =>
        let x := getQp s q
        if !x.bound then s
        else if !k.icrcOk || !k.addrOk || x.port ≠ p.val || !x.rtr then
          updQp q (fun x => { x with drops := satAdd x.drops 1 32 }) s
        else qpPacket q k s)

/-- The ACK that is due (R441). -/
def execIngestAck (qp : Grp) (s : State) : Out :=
  let x := getQp s qp
  .next (if !portOn s (portNo x.port) || !x.bound || !x.ackDue then s
    else sendRoce (portNo x.port) x.pcp (.ack x.destQpn ((x.epsn + 2 ^ 24 - 1) % 2 ^ 24) x.msn)
      (updQp qp (fun x => { x with ackDue := false, sinceAck := 0 }) s))

/-! ## Completions (R442 to R444) -/

/-- The slot of an entry: an OK entry's was reserved with its packet (R439). DESIGN CHOICE (log 99): the spec reserves none
for a failure's entry, which waits until one can be. -/
def entrySlot (s : State) (v : Vi) (c : Compl) : Bool := c.status == .ok || cplRoom s v
/-- The oldest ingest entry of a VI becomes visible. -/
def execIngestCompletion (v : Vi) (ok : Bool) (s : State) : Out :=
  .next (match (getVi s v).ingest with
    | [] => s
    | (c, w, q) :: t =>
      if !ringOn s v || !ingestServed s v || !mayMaster s v || !entrySlot s v c then s
      else
        let s := updVi v (fun y => { y with ingest := t, reserved := if c.status = .ok then y.reserved - 1 else y.reserved }) s
        if !ok || !cplInAllot s v then stopRing v 3 false s
        else
          let s := putEntry v w (statusCode c.status) 0x80 q c s
          if fget s .ingestIrq v.val = 1 then ringOut v [.irq vecCompletion] s else s)

end Sys2Proof.Machine
end

