-- ==== Sys2Proof/Machine/Collectives.lean ====
section
/-! DEFINITION. The commands of collectives: checks, launch, control and data frames, staging, deadline and completion
(chapter 15). -/

namespace Sys2Proof.Machine

/-! ## Checks (R280, R281, R495 to R497, R527) -/

/-- A COLL's deadline: its TIMEOUT_US, else the group's, else the VI's, else the device's (Table: Zero in a field). -/
def collTimeout (s : State) (v : Vi) (d : Block) : Nat :=
  let g := cGroup d
  if cTimeout d ≠ 0 then cTimeout d
  else if gTimeout s g ≠ 0 then gTimeout s g
  else if fget s .collTimeoutUs v.val ≠ 0 then fget s .collTimeoutUs v.val
  else fget s .colTimeout

/-- The member as a launch of the descriptor makes it. -/
def newColl (s : State) (v : Vi) (f : Fly) : CollSt :=
  let d := f.desc
  let g := cGroup d
  {
    active := true, launched := true, vi := v.val, idx := f.idx, desc := d, deadline := f.at_ + collTimeout s v d * 1000,
    members := gMembers s g, rank := gRank s g, parent := gParent s g, kids := gKids s g, listCrc := gListCrc s g,
    stageSp := fget s .stageSp v.val, stageSlots := fget s .stageSlots v.val }

def collServed (s : State) (g : Nat) : Bool := fget s .colEnable == 1 && !collFenced s (fluef g)
/-- STAGED: the named engine is the VI's and in service, and every flag lies in the window. -/
def stagedFlagsOk (s : State) (g : Nat) (c : CollSt) : Bool :=
  let u : CUnit := .coll (fluef g)
  ((viEngines s u (collVi c))[cFlagVeng c.desc]?).any (fun e => !engFenced s e) &&
  (List.range c.stageSlots).all fun k => (flagWindow s u (collVi c) (cFlagBase c.desc + k)).isSome
def stagedSpOk (s : State) (g : Nat) (c : CollSt) : Bool :=
  (spWindow s (.coll (fluef g)) (collVi c) (c.stageSp * 2 ^ 17) (c.stageSlots * cSherd c.desc)).isSome

/-- The first launch check that fails without a frame (Table: Launch checks). -/
def collStop (s : State) (v : Vi) (f : Fly) : Option Compl :=
  let g := cGroup f.desc
  let c := newColl s v f
  if !collServed s g then some (openC .fencedUnit)
  else match groupStop s g with
    | some x => some x
    | none =>
      if !gValid s g || gOwner s g ≠ v.val then some (openC .collMismatch)
      else if cStaged f.desc && !stagedFlagsOk s g c then some (openC .fencedUnit)
      else if cStaged f.desc && !stagedSpOk s g c then some (openC .segFault)
      else none
def seqOk (s : State) (d : Block) : Bool := cSeq d == (gLastSeq s (cGroup d) + 1) % 2 ^ 32
/-- LAST_SEQ of the group's entry takes the SEQ of the launch (R496). -/
def writeLastSeq (g seq : Nat) (s : State) : State := acceptWrite (groupAddr s g + 0x3C) (natBytes 4 seq) s

/-- A SEQ that does not follow: the member itself is the mismatch, and it aborts the others (R495, R518). -/
def seqMismatch (v : Vi) (f : Fly) (s : State) : State :=
  let g := cGroup f.desc
  let c := newColl s v f
  let s := fcount .abortsOrig 0 32 1 s
  let s := sendAbort g (cSeq f.desc) (statusCode .collMismatch) c.rank (neighbours c) s
  finish v f.idx (openC .collMismatch c.rank) (abortFlags g c s)

/-- The group's entry can be reached. -/
def entryOpen (s : State) (g : Nat) : Bool := memOpen s (16 + g % 4) (groupAddr s g) 64
def waitsColl (s : State) (v : Vi) (i : Job) : Bool := s.collWait.contains (v, i)
/-- A dispatched COLL is checked; one that passes waits for its reservation in dispatch order. -/
def execColl (v : Vi) (i : BitVec 32) (s : State) : Out :=
  .next (match fresh s v i 0x09 with
    | none => s
    | some f =>
      if waitsColl s v f.idx || !entryOpen s (cGroup f.desc) then s
      else match collStop s v f with
        | some x => finish v f.idx x s
        | none =>
          let ok := seqOk s f.desc
          let s := writeLastSeq (cGroup f.desc) (cSeq f.desc) s
          if ok then { s with collWait := s.collWait ++ [(v, f.idx)] } else seqMismatch v f s)

/-! ## Launch (R497, R499, R500, R508, R523) -/

def waitGroup (s : State) (w : Vi × Job) : Nat := ((flyOf s w.1 w.2).map fun f => cGroup f.desc).getD 0
/-- Collectives that an island runs. -/
def islandBusy (s : State) (f : Flue) : Nat := (s.colls.filter fun q => q.2.active && q.1 % 4 == f.val).length
/-- The COLL is the first that waits for its island, and a context is free. -/
def canLaunch (s : State) (v : Vi) (i : Job) (g : Nat) : Bool :=
  (s.collWait.find? fun w => waitGroup s w % 4 == g % 4) == some (v, i) && decide (islandBusy s (fluef g) < 8) &&
  !(getColl s (grp g)).active

/-- The flags of an earlier abort that this STAGED launch overlaps stop failing again. -/
def endRefail (g : Nat) (c : CollSt) (s : State) : State :=
  if !cStaged c.desc then s else
  match flagEng s c, flagWindow s (.coll (fluef g)) (collVi c) (cFlagBase c.desc) with
  | some e, some b =>
    { s with refail := s.refail.filter fun r =>
        !(r.vi == c.vi && r.eng == e && decide (r.base < b + c.stageSlots && b < r.base + r.count)) }
  | _, _ => s

/-- 2 units are granted to every sender. -/
def grantAll (g : Nat) (s : State) : State :=
  let c := getColl s (grp g)
  (edges c).foldl (fun s e => match edgeNode c e with
    | some n => if (edgeIn c e).isEmpty then s else sendFrame (collCtl s g (cSeq c.desc) n 2 0 2 []) s
    | none => s) s

/-- A child's ARRIVE is compared and noted (R501). -/
def recvArrive (g src sig : Nat) (payload : List Byte) (s : State) : State :=
  let c := getColl s (grp g)
  match nodeEdge { c with parent := none } src with
  | none => s
  | some 0 => s
  | some (j + 1) =>
    if c.arrived.contains j then s
    else if sig ≠ signature c then originate g .collMismatch (edgeRank c (j + 1)) s
    else updColl (grp g) (fun c => { c with arrived := c.arrived ++ [j], scalars := mset [] c.scalars (j + 1) payload }) s
def recvGrant (g src units : Nat) (s : State) : State :=
  let c := getColl s (grp g)
  match nodeEdge c src with
  | none => s
  | some e => updColl (grp g) (fun c => { c with grants := mupd 0 c.grants e (· + units) }) s
/-- The collective runs on this member and a frame names its SEQ. -/
def inFlight (s : State) (g : Grp) (seq : Nat) : Bool :=
  running s && (getColl s g).active && (getColl s g).launched && cSeq (getColl s g).desc % 2 ^ 16 == seq

/-- Control frames that came before the launch are taken. -/
def takeEarly (g : Grp) (s : State) : State :=
  let c := getColl s g
  let mine := fun (n : Nat) => n == cSeq c.desc % 2 ^ 16
  let s := updColl g (fun c => { c with early := [], earlyGr := [] }) s
  let s := (c.earlyGr.filter fun x => mine x.1).foldl (fun s x => recvGrant g.val x.2.1 x.2.2 s) s
  (c.early.filter fun x => mine x.1).foldl (fun s x =>
    if inFlight s g x.1 then recvArrive g.val x.2.1 x.2.2.1 x.2.2.2 s else s) s

def launchColl (v : Vi) (f : Fly) (s : State) : State :=
  let g := cGroup f.desc
  let c := newColl s v f
  let s := updFly v f.idx (fun y => { y with started := true }) s
  let s := updColl (grp g) (fun o => { c with early := o.early, earlyGr := o.earlyGr }) (endRefail g c s)
  let s := takeEarly (grp g) (grantAll g s)
  progress g s

def execCollLaunch (v : Vi) (i : BitVec 32) (s : State) : Out :=
  .next (match fresh s v i 0x09 with
    | none => s
    | some f =>
      let g := cGroup f.desc
      let left := { s with collWait := s.collWait.filter fun w => w != (v, f.idx) }
      if !waitsColl s v f.idx then s
      else if !collServed s g then finish v f.idx (openC .fencedUnit) left
      else if !canLaunch s v f.idx g || !entryOpen s g then s
      else launchColl v f left)

/-! ## Frames (R501, R503, R506 to R509, R519 to R521) -/

/-- The group's collective island runs. -/
def collRuns (s : State) (g : Grp) : Bool := running s && !collFenced s (fluef g.val) && islandRuns s (.coll (fluef g.val))
/-- The group's frames reach it. -/
def collOn (s : State) (g : Grp) : Bool := nodeOk s && collRuns s g

/-- The deadline of a collective that is not done has come (R22, R499). -/
def expired (s : State) (g : Grp) : Bool :=
  let c := getColl s g
  c.active && c.launched && !collDone s c && decide (c.deadline ≤ s.nowNs)
/-- What comes at the deadline or after it meets a collective that has timed out. -/
def inTime (g : Grp) (f : State → State) (s : State) : State := if expired s g then originate g.val .collTimeout 0 s else f s

def execArrive (g : Grp) (seq : BitVec 16) (src : BitVec 18) (sig : BitVec 32) (payload : List Byte) (s : State) : Out :=
  .next (if !collOn s g then s
    else if inFlight s g seq.toNat then
      inTime g (fun s => progress g.val (recvArrive g.val src.toNat sig.toNat payload s)) s
    else updColl g (fun c => { c with early := c.early ++ [(seq.toNat, src.toNat, sig.toNat, payload)] }) s)

def execRelease (g : Grp) (seq : BitVec 16) (src : BitVec 18) (payload : List Byte) (s : State) : Out :=
  .next (if !collOn s g || !inFlight s g seq.toNat || (getColl s g).parent ≠ some src.toNat || (getColl s g).released then s
    else inTime g (fun s => progress g.val (releaseDown g.val payload s)) s)

def execGrant (g : Grp) (seq : BitVec 16) (src : BitVec 18) (units : BitVec 32) (s : State) : Out :=
  .next (if !collOn s g then s
    else if inFlight s g seq.toNat then inTime g (fun s => progress g.val (recvGrant g.val src.toNat units.toNat s)) s
    else updColl g (fun c => { c with earlyGr := c.earlyGr ++ [(seq.toNat, src.toNat, units.toNat)] }) s)

def execAbort (g : Grp) (seq : BitVec 16) (src : BitVec 18) (code : Byte) (arg : BitVec 32) (s : State) : Out :=
  .next (if collOn s g then recvAbort g.val seq.toNat (some src.toNat) code.toNat arg.toNat s else s)

/-- Bytes of a piece land in the staging of their edge; bytes outside the edge's extent are not of the collective. -/
def landBytes (g : Grp) (e off : Nat) (l : List Byte) (s : State) : State :=
  updColl g (fun c =>
    let x := edgeIn c e
    let inX := fun (o : Nat) => x.any fun i => decide (i.1 ≤ o && o < i.2)
    let new := ((List.range l.length).zip l).filter fun q => inX (off + q.1) && (mget none c.rx (rxKey e (off + q.1))).isNone
    { c with
      rx := new.foldl (fun m q => mset none m (rxKey e (off + q.1)) (some q.2)) c.rx
      got := mupd 0 c.got e (· + new.length) }) s
/-- Every byte of a piece has arrived. -/
def pieceFull (c : CollSt) (e i : Nat) : Bool :=
  (sherdOf c.desc (edgeIn c e) i).all fun x => (List.range (x.2 - x.1)).all fun k =>
    (mget none c.rx (rxKey e (x.1 + k))).isSome
/-- The CRC of a whole piece is checked (R507). -/
def checkPiece (g : Grp) (e i : Nat) (s : State) : State :=
  let c := getColl s g
  match mget none c.crcs (pieceKey e i) with
  | none => s
  | some crc =>
    if !pieceFull c e i || c.checked.contains (pieceKey e i) then s
    else if crc32c (rxBytes c e (sherdOf c.desc (edgeIn c e) i)) ≠ crc then originate g.val .collCheck (edgeRank c e) s
    else updColl g (fun c => { c with checked := c.checked ++ [pieceKey e i] }) s
/-- A staging slot of 64 KiB has emptied for each whole 64 KiB that has arrived: one unit more is granted for it. -/
def grantMore (g : Grp) (e before : Nat) (s : State) : State :=
  let c := getColl s g
  let n := mget 0 c.got e / 65536 - before / 65536
  match edgeNode c e with
  | some node => if n = 0 || !c.active then s else sendFrame (collCtl s g.val (cSeq c.desc) node 2 0 n []) s
  | none => s

/-- A frame of a piece is taken. -/
def recvData (g : Grp) (e i off : Nat) (last : Bool) (crc : Nat) (payload : List Byte) (s : State) : State :=
  let c := getColl s g
  let before := mget 0 c.got e
  let s := landBytes g e (i * cSherd c.desc + off) payload s
  let s := if last then updColl g (fun c => { c with crcs := mset none c.crcs (pieceKey e i) (some crc) }) s else s
  progress g.val (grantMore g e before (checkPiece g e i s))

def execCollDataRx (g : Grp) (seq : BitVec 16) (src : BitVec 18) (up : Bool) (sherd : BitVec 24) (off : BitVec 22)
    (last : Bool) (crc : BitVec 32) (payload : List Byte) (s : State) : Out :=
  .next (if !collOn s g || !inFlight s g seq.toNat || isBad (getColl s g) then s
    else match nodeEdge (getColl s g) src.toNat with
      | none => s
      | some e =>
        if (e == 0) == up then s
        else inTime g (recvData g e sherd.toNat off.toNat last crc.toNat payload) s)

/-! ## Staging (R514 to R516) -/

/-- Sherd i may be copied: it is final, the copy of the sherd before it in its slot is done, and its flag is CLEAR. -/
def placeable (s : State) (c : CollSt) (e : Eng) (fb : Nat) (i : Nat) : Bool :=
  c.written.contains i && !c.placed.contains i &&
  (decide (i < c.stageSlots) || !(mySherds c).contains (i - c.stageSlots) || c.placed.contains (i - c.stageSlots)) &&
  mget .clear (eng s e).flags (fb + i % max 1 c.stageSlots) == .clear

/-- Copy one sherd from DST into its slot, and set its flag. -/
def placeSherd (g : Nat) (c : CollSt) (e : Eng) (fb i : Nat) (s : State) : State :=
  let x := sherdOf c.desc (destExt c.desc c.members c.rank) i
  let lo := (x.head?.map Prod.fst).getD 0
  let j := i % max 1 c.stageSlots
  match srcBytes g c (cDst c.desc + destOff c.desc c.rank lo) (extLen x) s with
  | (.wait, s) => s
  | (.fail f, s) => collFail g f s
  | (.ok l, s) =>
    match spWindow s (.coll (fluef g)) (collVi c) (c.stageSp * 2 ^ 17 + j * cSherd c.desc) l.length with
    | none => collFail g (openC .segFault) s
    | some o =>
      let s := updEng e (fun y => { y with flags := mset .clear y.flags (fb + j) .set }) (spWrite e o l s)
      updColl (grp g) (fun c => { c with placed := c.placed ++ [i] }) s

def execStagePlace (g : Grp) (s : State) : Out :=
  let c := getColl s g
  .next (if !collRuns s g || !c.active || !c.launched || !cStaged c.desc || isBad c then s
    else inTime g (fun s => match flagEng s c, flagWindow s (.coll (fluef g.val)) (collVi c) (cFlagBase c.desc) with
      | some e, some fb => match (mySherds c).find? (placeable s c e fb) with
        | some i => placeSherd g.val c e fb i s
        | none => s
      | _, _ => s) s)

/-! ## Deadline and completion (R499, R503, R518, R526) -/

def execCollDeadline (g : Grp) (s : State) : Out := .next (if collRuns s g then inTime g id s else s)

/-- The result is delivered and placed: OK, with the bytes written to DST. A write of them that the home could not perform
is a host access failure (R518). -/
def execCollComplete (g : Grp) (s : State) : Out :=
  let c := getColl s g
  .next (if !collRuns s g || !c.active then s
    else inTime g (fun s =>
      if !collDone s c then progress g.val s
      else match (flyOf s (collVi c) c.idx).bind Fly.fail with
        | some x => collFail g.val x s
        | none => clearColl g.val (noteLast g.val (cSeq c.desc) false
            (finish (collVi c) c.idx (okC (destLen c.desc c.members c.rank)) s))) s)

end Sys2Proof.Machine
end

