-- ==== Sys2Proof/Machine/HostReads.lean ====
section
/-! DEFINITION. Host reads as they end, for the unit that each serves (R137), and the entry into FIRED (R108 to R110). -/

namespace Sys2Proof.Machine

/-! ## Host reads (R137, R245, R340) -/

def resLoad : HostRes → LoadRes
  | .data d => .data d | .poisoned => .poisoned | .unsupported => .failed | .abort => .failed
def resFetch : HostRes → FetchRes
  | .data d => .data [d] | .poisoned => .poisoned | .unsupported => .failed | .abort => .failed
/-- A mover's read, of a block that 64 bytes hold. -/
def resBlock (n : Nat) : HostRes → Option BlockRes
  | .data d => if n ≤ 64 then some (.done ((blockBytes d).take n)) else none
  | .poisoned => some .poisoned
  | .unsupported => some (.hostFailed true)
  | .abort => some (.hostFailed true)
/-- The block that a mover is at, when its descriptor is a VI's. -/
def moverAt (s : State) (m : Mover) (v : Vi) : Option Nat :=
  match (getMv s m).queue.head? with
  | some (w, i) => if w = v then (flyOf s w i).map fun f => blockLen f.desc (getMv s m).pos else none
  | none => none

/-- A payload line is kept, and the message enters its slot once all are here and the slot is free (R237). -/
def execMboxPayload (v : Vi) (n : Nat) (res : HostRes) (s : State) : Out :=
  .next (if !ringOn s v || !mbOn s v || (getVi s v).stopped then s else deliver v (payIn v n res s))

/-- A host read of a VI ends; the unit that it serves takes the result. -/
def hostReadEnds (v : Vi) (what : HostRead) (res : HostRes) (s : State) : Out :=
  match what with
  | .line0 => execLine0ReadReturn v (if (getVi s v).dbReading then .doorbell else .mailbox) res s
  | .fetch => execDescriptorFetchReturn v (resFetch res) s
  | .mboxPayload n => execMboxPayload v n.val res s
  | .moverBlock m => match (moverAt s m v).bind fun n => resBlock n res with
    | some r => execMoverBlock m r s
    | none => .next s
  | .engineLoad e tbi => match runOf s e with
    | some r => if r.ix.vi = v then execLoadReturn e r.attempt tbi (resLoad res) s else .next s
    | none => .next s
  | .waitPoll i => execWaitPoll v i res s
  | .block a => .next (blockEnds v a res s)

def execHostReadCompletion (v : Vi) (what : HostRead) (res : HostRes) (s : State) : Out := hostReadEnds v what res s
/-- A completion timeout fails as an abort does. -/
def execHostCompletionTimeout (v : Vi) (what : HostRead) (s : State) : Out := hostReadEnds v what .abort s

/-! ## Entry into FIRED (R110, R427, R462, R471, R545) -/

/-- The state in which a port starts: out of service, disabled, or DOWN. -/
def startPort (s : State) (p : Port) : State :=
  updPort p (fun x => { x with st := if portFenced s p then .fenced else if portEnabled s p then .down else .disabled }) s
/-- The VIs whose ENABLE was set in GLAZING. -/
def enabledVis (s : State) : List Nat :=
  (s.fld.filter fun q => q.1 / 2 ^ 20 == F.viEnable.ctorIdx && q.2 == 1).map fun q => q.1 % 2 ^ 20
/-- The fabric lanes stay idle until the first heartbeat (R59); the VIs whose ENABLE was set in GLAZING start (R214). -/
def enterFired (s : State) : State :=
  let s := fset .retainArm 0 1 { s with
    boot := .fired, generation := s.generation + 1, bootErr := .none, going := none, scrubAt := []
    epochCur := false, epochArm := false, grace := false, board := { s.board with serdesIdle := !s.flt.hbRunning, selfRefresh := false } }
  let s := allPorts.foldl startPort (unfreezeLog s)
  startAll ((enabledVis s).foldl (fun s n => updVi (viNo n) (fun x => { x with startDue := true }) s) s)

def execEnterFired (s : State) : Out :=
  .next (if powered s && s.boot == .glazing && s.going.isSome then enterFired s else s)

end Sys2Proof.Machine
end

