-- ==== Sys2Proof/Machine/Changes.lean ====
section
/-! DEFINITION. Committed changes (chapter 18): the capture of the shadows, the take-up by each unit, and the TAP. -/

namespace Sys2Proof.Machine

/-! ## Commit (R603, R604, R609, R641, R665) -/

/-- Every pending shadow becomes the change set; with none the commit completes at once. -/
def commitSet (s : State) : State :=
  if s.applying then s
  else
    let s := { s with setId := s.setId + 1 }
    if s.shadow.isEmpty then (if fget s .noticeEn = 1 then notice s else s)
    else { s with chg := s.shadow, shadow := [], unitsLeft := allCUnits.filter (cunitIn s), applying := true }

/-- A write of GEN_COMMIT, ignored as a whole in GLAZING (R105); NOTICE_EN of the same write governs its commit. -/
def writeCommit (v : Nat) (s : State) : State :=
  if !running s then s
  else
    let s := fset .noticeEn 0 (bits v 1 1) s
    if bitAt v 0 then commitSet s else s

/-- Only PF0 writes GEN_COMMIT (R146, R610). -/
def execGenCommit (fn : Vi) (w : U64) (s : State) : Out := .next (if fn = vi0 && answers s fn then writeCommit w.toNat s else s)

/-! ## Take-up (R605, R606) -/

/-- The VIs that have launch indices on an engine. -/
def indexVis (x : EngSt) : List Vi :=
  ((x.queue.map Index.vi) ++ (x.away.map fun r => r.ix.vi) ++ (x.run.toList.map fun r => r.ix.vi)).eraseDups
/-- A VI whose partition no longer holds the engine loses its indices there with VI_RESET (R264). -/
def leavePartitions (e : Eng) (s : State) : State :=
  (indexVis (eng s e)).foldl (fun s v =>
    if (viEngines s (.engine e) v).contains e then s else dropIndexes v (openC .viReset) s e) s
/-- The ring engine takes up a new DELIVERY: line 0 of each VI that it serves is read once (R249). -/
def deliveryChanged (s : State) : Bool :=
  match s.chg.lookup (fkey .delivery 0) with
  | some d => d != fget s .delivery
  | none => false
/-- A line whose read is on its way is read again once it is here: the read under way was made under the old DELIVERY. -/
def rereadLine (v : Vi) (s : State) (k : LineKind) : State :=
  if isReading (getVi s v) k then updVi v (setWake k true) s else readLine v k s
def rereadLines (s : State) : State :=
  (enabledVis s).foldl (fun s n =>
    let v := viNo n
    if ringOn s v && served s v && (portOf v).val == 0 then
      let s := rereadLine v s .doorbell
      if mbOn s v && served s v then rereadLine v s .mailbox else s
    else s) s

/-- One unit takes up the set in one cycle, and leaves UNITS_LEFT. -/
def takeSet (u : CUnit) (s : State) : State :=
  if !(s.applying && s.unitsLeft.contains u) then s
  else
    let moved := deliveryChanged s
    let t : State := { s with unitsLeft := s.unitsLeft.filter fun c => c != u }
    let t := match u with
      | .engine e => leavePartitions e t
      | .ring => if moved then rereadLines t else t
      | _ => t
    let t := leaveSet (fun c => c == u) t
    match u with
    | .mover m => startBlock m t
    | _ => t

/-- A descriptor that the ring engine runs: NOP, SIGNAL, WAIT, FENCE, STAMP, CONE_SNAP. -/
def ringWork (f : Fly) : Bool := f.fin.isNone && [0x00, 0x04, 0x05, 0x06, 0x0C, 0x0D].contains (dOp f.desc)
/-- A collective is inside a piece of a sherd: one that has gone out in part, or come in in part. -/
def insideSherd (c : CollSt) : Bool :=
  c.active && c.launched && (edges c).any fun e =>
    let n := sherdCount c.desc c.members + 1
    (locate c.desc (edgeOut c e) n 0 (mget 0 c.sent e)).any (fun q => q.2 != 0) ||
    mget 0 c.got e != (((List.range n).filter fun i => c.checked.contains (pieceKey e i)).map fun i =>
      extLen (sherdOf c.desc (edgeIn c e) i)).sum

/-- Table: Safe points: an engine's is its task boundary, a mover's and the ring engine's lie between two descriptors, a
collective unit's at a sherd boundary; a command ends where a frame, a request or a refresh interval does. -/
def atSafePoint (s : State) : CUnit → Bool
  | .engine e => match runOf s e with
    | some r => r.phase == .between
    | none => true
  | .mover m => (getMv s m).queue.isEmpty || betweenMoves s m
  | .ring => s.vis.all fun p => !p.2.fly.any ringWork
  | .coll f => s.colls.all fun p => p.1 % 4 != f.val || !insideSherd p.2
  | .fport _ => true
  | .memory _ => true
  | .home => true

def execChangeTakeup (u : CUnit) (s : State) : Out :=
  .next (if running s && atSafePoint s u then takeSet u s else s)

/-- Table: Forced take-up: an engine before its commit microword abandons its routine, and one past it runs to its END; a
mover pauses at a block boundary. -/
def forceUnit (s : State) (u : CUnit) : State :=
  if !s.unitsLeft.contains u then s else
  match u with
  | .engine e => match runOf s e with
    | some r =>
      if r.phase = .post then s
      else takeSet u (if r.phase = .pre then abandon e s else s)
    | none => takeSet u s
  | .mover m => if (getMv s m).asked = 0 then takeSet u s else s
  | _ => takeSet u s
def execForcedTakeup (s : State) : Out :=
  .next (if running s && s.applying then s.unitsLeft.foldl forceUnit s else s)

/-- 200 µs after the commit (R607). -/
def execChangeLate (s : State) : Out :=
  .next (if running s && s.applying && !s.unitsLeft.isEmpty then { s with late := true } else s)

/-! ## The TAP (R49) -/

/-- The state diagram of IEEE 1149.1. -/
def tapNext : Tap → Bool → Tap
  | .testLogicReset, m => if m then .testLogicReset else .runTestIdle
  | .runTestIdle, m => if m then .selectDr else .runTestIdle
  | .selectDr, m => if m then .selectIr else .captureDr
  | .captureDr, m => if m then .exit1Dr else .shiftDr
  | .shiftDr, m => if m then .exit1Dr else .shiftDr
  | .exit1Dr, m => if m then .updateDr else .pauseDr
  | .pauseDr, m => if m then .exit2Dr else .pauseDr
  | .exit2Dr, m => if m then .updateDr else .shiftDr
  | .updateDr, m => if m then .selectDr else .runTestIdle
  | .selectIr, m => if m then .testLogicReset else .captureIr
  | .captureIr, m => if m then .exit1Ir else .shiftIr
  | .shiftIr, m => if m then .exit1Ir else .shiftIr
  | .exit1Ir, m => if m then .updateIr else .pauseIr
  | .pauseIr, m => if m then .exit2Ir else .pauseIr
  | .exit2Ir, m => if m then .updateIr else .shiftIr
  | .updateIr, m => if m then .selectDr else .runTestIdle

/-- Debug access beyond boundary scan: DEBUG_EN sampled high and DEBUG_DISABLE intact. -/
def debugOpen (s : State) : Bool := s.board.debugEn && !s.fuses.debugDisable

/-- The TAP takes a step; TDO in a shift state is a free value, as the manual gives no register of the chain. In Update-IR an
instruction takes effect: one beyond boundary scan, which a free value says, only where debug access is open (R49). -/
def execTestClockEdge (tms _tdi : Bool) (s : State) : Out :=
  .next (if !s.board.vddAux then s
    else
      let shifting := s.tap == .shiftDr || s.tap == .shiftIr
      let s := if shifting then tick (emit (.tdo (free s % 2 == 1)) s) else s
      let next := tapNext s.tap tms
      let s := { s with tap := next }
      if next = .testLogicReset then { s with tapDebug := false }
      else if next = .updateIr then tick { s with tapDebug := debugOpen s && free s % 2 == 1 }
      else s)

end Sys2Proof.Machine
end

