-- ==== Sys2Proof/Machine/ConfigSpace.lean ====
section
/-! DEFINITION. Configuration space, Bus Master Enable and the return from D3hot (chapter 5). -/

namespace Sys2Proof.Machine

/-! ## Work that waited goes on (R160, R161) -/

/-- Fetches and line reads of a VI that waited for its enables are made. -/
def resumeVi (s : State) (v : Vi) : State :=
  if !(ringOn s v && served s v) then s
  else
    let s := if (getVi s v).dbWake && !isReading (getVi s v) .doorbell then readLine v .doorbell s else s
    let s := if (getVi s v).mbWake && mbOn s v && !isReading (getVi s v) .mailbox then readLine v .mailbox s else s
    fetchNow v (readPayload v (pump v s))
def resumePort (p : HPort) (s : State) : State :=
  (s.vis.filter fun q => q.1 / 1024 == p.val).foldl (fun s q => resumeVi s ⟨q.1 % 2048, by omega⟩) s

/-- Bus Master Enable is set again: messages that waited leave. In CXL mode PF0's enable opens every VI of port 0. -/
def masterOn (v : Vi) (s : State) : State :=
  let s := updFn v (fun x => { x with busMaster := true }) s
  if v = vi0 && (getHp s 0).cxl then resumePort 0 (flushPort 0 s)
  else if s.boot = .safe then s
  else resumeVi (flushVec v s) v

def execD0Return (pf : HPort) (s : State) : Out :=
  .next (if (getPf s pf).d3hot then resumePort pf (updPf pf (fun x => { x with d3hot := false }) s) else s)

/-! ## Configuration space (R134, R140 to R144) -/

/-- Table: PF configuration space, and the three capabilities of a VF. -/
def hasCap (s : State) (v : Vi) (off : Nat) : Bool :=
  if !isPf v then [0x070, 0x050, 0x100].contains off
  else [0x040, 0x050, 0x070, 0x100, 0x150, 0x160, 0x1A0, 0x1B0, 0x200, 0x210, 0x250, 0x2A0].contains off ||
    (v == vi0 && (getHp s 0).cxl && (off == 0x300 || off == 0x380)) || (v == vi0 && s.board.hp0Mode && off == 0x340)

/-- The size of a BAR as a power of two: none where it is unimplemented (Table: BARs). -/
def barLog2 (s : State) (v : Vi) (n : Nat) : Option Nat :=
  if !isPf v then none
  else if n = 2 then some 16
  else if n = 0 && v = vi0 then some 24
  else if n = 4 && v = vi0 && (getHp s 0).cxl then some 16
  else none
/-- What a BAR register reads: a 64-bit non-prefetchable memory BAR, in two halves. -/
def barValue (log2 : Option Nat) (m : SMap (BitVec 32)) (key : Nat) (low : Bool) : Nat :=
  match log2 with
  | none => 0
  | some k => if low then (mget 0 m key).toNat / 2 ^ k * 2 ^ k + 4 else (mget 0 m key).toNat

def cfgRead (s : State) (v : Vi) : CfgItem → Option Nat
  | .vendorId => some Config.vendorId.toNat
  | .deviceId => some (if isPf v then 0x7160 else 0x7161)
  | .classCode => some 0x120000
  | .headerType => if isPf v then some 0 else none
  | .revisionId => some s.fuses.revision.toNat
  | .subsystem => some Config.subsystemId.toNat
  | .interruptPin => some 0
  | .serial => if isPf v then some s.fuses.uid.toNat else none
  | .capability off => some (b2n (hasCap s v off.toNat))
  | .initialVFs => if isPf v then some 1023 else none
  | .totalVFs => if isPf v then some 1023 else none
  | .firstVFOffset => if isPf v then some 1 else none
  | .vfStride => if isPf v then some 1 else none
  | .numVFs => if isPf v then some (getPf s (portOf v)).numVFs else none
  | .vfEnable => if isPf v then some (b2n (getPf s (portOf v)).vfEnable) else none
  | .ariHier => if isPf v then some (b2n (getPf s (portOf v)).ari) else none
  | .pageSizes => if isPf v then some 0x1F else none
  | .pageSize => if isPf v then some (getPf s (portOf v)).pageSize else none
  | .bar n => some (barValue (barLog2 s v (n.val / 2 * 2)) (getPf s (portOf v)).bars n.val (n.val % 2 == 0))
  | .vfBar n => if isPf v then
      some (barValue (if n.val < 2 then some 16 else none) (getPf s (portOf v)).bars (16 + n.val) (n.val % 2 == 0))
    else none
  | .busMaster => some (b2n (getFn s v).busMaster)
  | .msixEnable => some (b2n (getFn s v).msixEnable)
  | .funcMask => some (b2n (getFn s v).funcMask)
  | .relaxedOrdering => some (if isPf v then b2n (getPf s (portOf v)).relaxed else 0)
  | .noSnoop => some 0
  | .atomicReq => some (if isPf v then b2n (getPf s (portOf v)).atomicReq else 0)
  | .powerState => if isPf v then some (if (getPf s (portOf v)).d3hot then 3 else 0) else none
  | .noSoftReset => if isPf v then some 1 else none
  | .maxPayload => some (if isPf v then (getPf s (portOf v)).maxPayload else 0)
  | .maxReadReq => some (if isPf v then (getPf s (portOf v)).maxReadReq else 0)
  | .cplTimeoutRange => some (if isPf v then (getPf s (portOf v)).ctoRange else 0)
  | .cplTimeoutOff => some (if isPf v then b2n (getPf s (portOf v)).ctoOff else 0)
  | .routingId => some (v.val % 1024)

/-- The codes of PCI Express for the default range and for ranges A to D (PRESUMED, log 92). -/
def ctoRanges : List Nat := [0, 1, 2, 5, 6, 9, 10, 13, 14]
def cfgWrite (v : Vi) (i : CfgItem) (w : BitVec 32) (s : State) : State :=
  let on := w.toNat % 2 == 1
  let p := portOf v
  match i with
  | .busMaster => if on then masterOn v s else updFn v (fun x => { x with busMaster := false }) s
  | .msixEnable =>
    let s := updFn v (fun x => { x with msixEnable := on }) s
    if s.boot = .safe then s else flushVec v s
  | .funcMask =>
    let s := updFn v (fun x => { x with funcMask := on }) s
    if s.boot = .safe then s else flushVec v s
  | _ => if !isPf v then s else match i with
    | .numVFs => if (getPf s p).vfEnable then s else updPf p (fun x => { x with numVFs := w.toNat % 65536 }) s
    | .vfEnable => if on then updPf p (fun x => { x with vfEnable := true }) s else clearVfEnable p s
    | .ariHier => updPf p (fun x => { x with ari := on }) s
    | .pageSize => if [1, 2, 4, 8, 16].contains w.toNat then updPf p (fun x => { x with pageSize := w.toNat }) s else s
    | .bar n => if (barLog2 s v (n.val / 2 * 2)).isSome then updPf p (fun x => { x with bars := mset 0 x.bars n.val w }) s else s
    | .vfBar n => if n.val < 2 then updPf p (fun x => { x with bars := mset 0 x.bars (16 + n.val) w }) s else s
    | .relaxedOrdering => updPf p (fun x => { x with relaxed := on }) s
    | .atomicReq => updPf p (fun x => { x with atomicReq := on }) s
    | .maxPayload => if w.toNat ≤ 2 then updPf p (fun x => { x with maxPayload := w.toNat }) s else s
    | .maxReadReq => if w.toNat ≤ 5 then updPf p (fun x => { x with maxReadReq := w.toNat }) s else s
    | .cplTimeoutRange => if ctoRanges.contains w.toNat then updPf p (fun x => { x with ctoRange := w.toNat }) s else s
    | .cplTimeoutOff => updPf p (fun x => { x with ctoOff := on }) s
    | .powerState =>
      if w.toNat % 4 = 3 then updPf p (fun x => { x with d3hot := true }) s
      else if w.toNat % 4 = 0 then resumePort p (updPf p (fun x => { x with d3hot := false }) s)
      else s
    | _ => s

/-- Configuration requests are answered in every GEN_STATE; a function that is not there answers nothing (R144). -/
def execConfigAccess (v : Vi) (acc : CfgAccess) (s : State) : Out :=
  .next (if !(s.board.pwrgood && s.resetting.isNone) then s
    else if !viExists s v then emit (.cfgReply v none) s
    else match acc with
      | .read i => emit (.cfgReply v (cfgRead s v i)) s
      | .write i w => emit (.cfgReply v none) (cfgWrite v i w s))

end Sys2Proof.Machine
end

