-- ==== Sys2Proof/Machine/RegTable.lean ====
section
/-! DEFINITION. The register map (chapter 19): which stored fields a register holds, and where. -/

namespace Sys2Proof.Machine

/-- Change classes S, L and C (Table: Change classes). -/
inductive Cls where
  | s | l | c
  deriving DecidableEq, Repr

/-- A stored field of a register: its element, place, class, whether it is W1C, and the values that are not reserved. -/
structure Row where
  f : F
  i : Nat := 0
  lo : Nat := 0
  w : Nat := 1
  cls : Cls := .l
  w1c : Bool := false
  lim : Nat × Nat := (0, 2 ^ 64)
  zero : Bool := false
  deriving DecidableEq, Repr

/-- TRIM of −512 to +512 in 11 bits. -/
def trimOk (x : Nat) : Bool := decide (x ≤ 512) || decide (1536 ≤ x)
/-- The value is in the field's range (R664). -/
def Row.ok (r : Row) (x : Nat) : Bool :=
  if r.f = .trim then trimOk x else (r.zero && x == 0) || (r.lim.1 ≤ x && x ≤ r.lim.2)

/-- A row for each of `n` registers `stride` bytes apart from `base`, when `o` is one of them. -/
def arrayRows (o base stride n : Nat) (rows : Nat → List Row) : List Row :=
  if base ≤ o && o < base + stride * n && (o - base) % stride == 0 then rows ((o - base) / stride) else []

def genRows : Nat → List Row
  | 0x38 => [{ f := .bootAdopt, lo := 1, cls := .s }, { f := .stageOffset, lo := 21, w := 27 }]
  | 0x40 => [{ f := .noticeEn, lo := 1 }]
  | _ => []

def pwrRows (o : Nat) : List Row :=
  match o with
  | 0x10800 => [{ f := .damperMode }, { f := .damperWindow, lo := 8, w := 10, lim := (1, 1000) },
      { f := .tempLimit, lo := 24, w := 8, lim := (60, 95) }]
  | 0x10808 => [{ f := .budget, w := 12, lim := (800, 3200) }]
  | _ => arrayRows o 0x10000 8 256 fun g => [{ f := .dvfsTarget, i := g, w := 5, lim := (0, 18) }]

def hpRows : Nat → List Row
  | 0x20000 => [{ f := .delivery, lo := 8, cls := .c }]
  | 0x20018 => [{ f := .pollNs, w := 20, lim := (250, 1000000) }]
  | 0x20020 => [{ f := .pollBudget, w := 9, lim := (1, 256) }]
  | _ => []

def cohRows : Nat → List Row
  | 0x30000 => [{ f := .cohEnable, cls := .s }, { f := .failMode, lo := 1, cls := .c },
      { f := .ageLimit, lo := 4, w := 4, lim := (1, 15) }]
  | 0x30008 => [{ f := .cohLog2, w := 5, lim := (12, 24) }]
  | 0x30018 => [{ f := .plOverrun, lo := 62, w1c := true }, { f := .plValid, lo := 63, w1c := true }]
  | _ => []

def vimRows (o : Nat) : List Row :=
  arrayRows o 0x40000 8 1024 (fun i => [{ f := .partMask, i := i, w := 64, cls := .c }]) ++
  arrayRows o 0x42000 8 2048 (fun n =>
    [{ f := .bindValid, i := n, cls := .c }, { f := .rcpEn, i := n, lo := 1, cls := .c },
     { f := .bindPart, i := n, lo := 8, w := 8, cls := .c }, { f := .spBase, i := n, lo := 16, w := 5, cls := .c },
     { f := .spSize, i := n, lo := 24, w := 6, cls := .c, lim := (0, 32) },
     { f := .flagBase, i := n, lo := 32, w := 5, cls := .c },
     { f := .flagCount, i := n, lo := 40, w := 6, cls := .c, lim := (0, 32) },
     { f := .slotMask, i := n, lo := 48, w := 4, cls := .c }]) ++
  arrayRows o 0x46000 8 2048 (fun n =>
    [{ f := .allotDevBase, i := n, w := 32, cls := .c }, { f := .allotDevSize, i := n, lo := 32, w := 32, cls := .c }]) ++
  arrayRows o 0x4A000 8 2048 (fun n =>
    [{ f := .allotHostBase, i := n, w := 32, cls := .c }, { f := .allotHostSize, i := n, lo := 32, w := 32, cls := .c }])

def segRows : Nat → List Row
  | 0x50000 => [{ f := .retryLimit, w := 8, lim := (1, 255) }]
  | 0x50008 => [{ f := .segMisses, w := 20 }, { f := .segSwaps, lo := 20, w := 20 }, { f := .segFaults, lo := 40, w := 12 },
      { f := .segLongest, lo := 52, w := 12 }]
  | 0x60000 => [{ f := .sliceUs, w := 14, lim := (10, 10000) }]
  | _ => []

def memRows : Nat → List Row
  | 0x80000 => [{ f := .interleave, cls := .s }, { f := .scrubHours, lo := 8, w := 8, lim := (0, 168) }]
  | 0x80008 => [{ f := .eccCorrected, w := 32 }, { f := .eccUncorrected, lo := 32, w := 32 }]
  | 0x80018 => [{ f := .retainArm }]
  | 0x90000 => [{ f := .ingEnable }, { f := .rnrTimer, lo := 8, w := 5 },
      { f := .cnpInterval, lo := 16, w := 10, lim := (1, 1000) }, { f := .pfcPrio, lo := 32, w := 8 }]
  | 0x90008 => [{ f := .qpBase, lo := 12, w := 36, cls := .s }]
  | 0x90010 => [{ f := .portMask, w := 32 }]
  | _ => []

def fabRows (o : Nat) : List Row :=
  match o with
  | 0xA0000 => [{ f := .nodeId, w := 18, cls := .s }, { f := .nodeValid, lo := 31, cls := .s }]
  | 0xA0008 => [{ f := .etherType, w := 16, cls := .s, lim := (0x600, 0xFFFF) }]
  | 0xA0010 => (List.range 8).map fun v => { f := .vcWeight, i := v, lo := 8 * v, w := 8, cls := .c }
  | 0xA0020 => [{ f := .graceMs, w := 10, lim := (1, 1000) }]
  | _ =>
    arrayRows o 0xA0100 8 32 (fun p =>
      [{ f := .portRole, i := p, lo := 1, w := 2, cls := .s, lim := (0, 2) },
       { f := .portSpeed, i := p, lo := 4, w := 2, cls := .s, lim := (0, 2) },
       { f := .macLo, i := p, lo := 8, w := 24, cls := .s }, { f := .expectEn, i := p, lo := 32, cls := .c },
       { f := .expectPort, i := p, lo := 33, w := 5, cls := .c }, { f := .expectNode, i := p, lo := 40, w := 18, cls := .c }]) ++
    arrayRows o 0xA0208 16 32 (fun p =>
      [{ f := .discards, i := p, w := 16 }, { f := .replays, i := p, lo := 16, w := 16 },
       { f := .stale, i := p, lo := 32, w := 16 }, { f := .unreach, i := p, lo := 48, w := 16 }])

def colRows : Nat → List Row
  | 0xC0000 => [{ f := .colEnable }]
  | 0xC0008 => [{ f := .groupBase, lo := 16, w := 32, cls := .s }]
  | 0xC0010 => [{ f := .colTimeout, w := 26, lim := (10, 60000000) }]
  | 0xC0020 => [{ f := .abortsOrig, w := 32 }, { f := .abortsRx, lo := 32, w := 32 }]
  | 0xC0028 => [{ f := .crcFails, w := 32 }, { f := .timeouts, lo := 32, w := 32 }]
  | _ => []

def fltRows : Nat → List Row
  | 0xD0000 => [{ f := .fltNotice, w := 4 }, { f := .noticeMinUs, lo := 8, w := 8 }]
  | 0xD0010 => [{ f := .missed, w := 16 }, { f := .masked, lo := 16, w := 16 }, { f := .selfCorr, lo := 32, w := 16 }]
  | 0xD0028 => [{ f := .fltMask, w := 32 }]
  | 0xD0030 => [{ f := .pinThreshold, w := 2 }, { f := .pinPeriod, lo := 8, w := 12, lim := (1, 1000) }]
  | _ => []

def rtcRows : Nat → List Row
  | 0xE0020 => [{ f := .setSecLo, w := 32 }]
  | 0xE0028 => [{ f := .setSecHi, w := 16 }]
  | 0xE0030 => [{ f := .setSub, w := 15 }]
  | 0xE0038 => [{ f := .trim, lo := 16, w := 11 }]
  | 0xE0040 => [{ f := .vbatLow, w1c := true }, { f := .oscStopped, lo := 1, w1c := true }]
  | _ => []

def cntRows (o : Nat) : List Row :=
  match o with
  | 0xF3000 => [{ f := .clearOnEnd, lo := 33 }, { f := .ovfNotice, lo := 34 }, { f := .winNotice, lo := 35 }]
  | _ => arrayRows o 0xF0000 8 352 fun n =>
      [{ f := .cntEnable, i := n, lo := 10 }, { f := .cntMode, i := n, lo := 11 }, { f := .cntOvfIrq, i := n, lo := 12 }]

/-- The stored fields of a management-space register that a write sets without further effect (R624 to R635). -/
def mgmtRows (o : Nat) : List Row :=
  match o / 0x10000 with
  | 0 => genRows o | 1 => pwrRows o | 2 => hpRows o | 3 => cohRows o | 4 => vimRows o | 5 => segRows o | 6 => segRows o
  | 8 => memRows o | 9 => memRows o | 10 => fabRows o | 12 => colRows o | 13 => fltRows o | 14 => rtcRows o
  | 15 => cntRows o | _ => []

/-- The stored fields of a VI-space register (R636). -/
def viRows (v o : Nat) : List Row :=
  match o with
  | 0x18 => [{ f := .cmdBase, i := v, lo := 12, w := 36 }]
  | 0x20 => [{ f := .cmdLog2, i := v, w := 5, lim := (6, 16), zero := true }]
  | 0x28 => [{ f := .cplBase, i := v, lo := 12, w := 36 }]
  | 0x30 => [{ f := .cplLog2, i := v, w := 5, lim := (6, 16), zero := true }]
  | 0x38 => [{ f := .doorbell, i := v, lo := 7, w := 41 }]
  | 0x40 => [{ f := .mailbox, i := v, lo := 9, w := 39 }]
  | 0x48 => [{ f := .holdoffUs, i := v, w := 8 }, { f := .ingestIrq, i := v, lo := 8 }]
  | 0x300 => [{ f := .ovfEnable, i := v }, { f := .ovfOffset, i := v, lo := 11, w := 37 }]
  | 0x308 => [{ f := .collTimeoutUs, i := v, w := 26, lim := (10, 60000000), zero := true },
      { f := .stageSp, i := v, lo := 32, w := 5 }, { f := .stageSlots, i := v, lo := 40, w := 5, lim := (1, 16) }]
  | 0x310 => [{ f := .fabKey, i := v, w := 32 }]
  | _ =>
    arrayRows o 0x100 32 8 (fun i => [{ f := .devVbase, i := v * 8 + i, lo := 21, w := 27 }]) ++
    arrayRows o 0x108 32 8 (fun i => [{ f := .devTarget, i := v * 8 + i, lo := 21, w := 27 }]) ++
    arrayRows o 0x110 32 8 (fun i => [{ f := .devSize, i := v * 8 + i, w := 27 }]) ++
    arrayRows o 0x200 32 8 (fun i => [{ f := .hostVbase, i := v * 8 + i, lo := 21, w := 27 }]) ++
    arrayRows o 0x208 32 8 (fun i => [{ f := .hostTarget, i := v * 8 + i, lo := 21, w := 27 }]) ++
    arrayRows o 0x210 32 8 (fun i => [{ f := .hostSize, i := v * 8 + i, w := 27 }, { f := .hostAttr, i := v * 8 + i, lo := 34 }])

/-- Registers of a VI that are written only while ENABLE = 0 (R206, R286); GEN_COMMIT, whose write acts as a whole; and
the set registers of the clock while a set is staged (R577). -/
def lockedVi (o : Nat) : Bool := (0x18 ≤ o && o ≤ 0x40) || (0x100 ≤ o && o ≤ 0x300)
def lockedMgmt (s : State) (o : Nat) : Bool := o == 0x40 || (0xE0020 ≤ o && o ≤ 0xE0030) && s.rtc.staged.isSome

/-- The rows of a register of a function's space, and whether it is locked now. -/
def rowsAt (fn : Vi) (sp : Space) (o : Nat) : List Row :=
  match sp with
  | .mgmt => mgmtRows o
  | .vi => viRows fn.val o
def lockedAt (s : State) (fn : Vi) (sp : Space) (o : Nat) : Bool :=
  match sp with
  | .mgmt => lockedMgmt s o
  | .vi => lockedVi o && viOn s fn

end Sys2Proof.Machine
end

