-- ==== Sys2Proof/Machine/Registers.lean ====
section
/-! DEFINITION. Register writes and reads of the host (chapter 19). -/

namespace Sys2Proof.Machine

/-! ## The bits that a write covers (R618, R620) -/

/-- A naturally aligned write of 4 or 8 bytes. -/
def accessOk (off size : Nat) : Bool := (size == 4 || size == 8) && off % size == 0
/-- The first bit that an access covers, in a register of 64 bits. -/
def coverLo (off : Nat) : Nat := 8 * (off % 8)
/-- A field at `lo` of `w` bits overlaps the covered bits. -/
def covered (c n lo w : Nat) : Bool := decide (c < lo + w) && decide (lo < c + n)
/-- A register's value with the covered bits replaced. -/
def merged (old v c n : Nat) : Nat :=
  if n ≥ 64 then v % 2 ^ 64
  else if c = 0 then old / 2 ^ 32 * 2 ^ 32 + v % 2 ^ 32
  else v % 2 ^ 32 * 2 ^ 32 + old % 2 ^ 32
/-- A field's value once the covered bits are replaced. -/
def mergeField (cur v c n lo w : Nat) : Nat := bits (merged (cur * 2 ^ lo) v c n) lo w

/-! ## Stored fields (R598, R602, R620 to R622) -/

/-- The value that software has last committed: units that have not taken a set up still run the one before it. -/
def committed (s : State) (f : F) (i : Nat) : Nat :=
  if s.applying then (s.chg.lookup (fkey f i)).getD (fget s f i) else fget s f i
/-- What a read of a stored field returns: the shadow while one is pending. -/
def readField (s : State) (r : Row) : Nat :=
  if r.cls = .c then (s.shadow.lookup (fkey r.f r.i)).getD (committed s r.f r.i) else fget s r.f r.i

/-- The first write that covers a C field of a register after a commit forms the shadow of all its C fields (R621). -/
def formShadow (rows : List Row) (c n : Nat) (s : State) : State :=
  let cs := rows.filter fun r => r.cls == .c
  if s.boot = .fired && cs.any (fun r => covered c n r.lo r.w) && !cs.any fun r => (s.shadow.lookup (fkey r.f r.i)).isSome then
    { s with shadow := cs.foldl (fun m r => mins m (fkey r.f r.i) (committed s r.f r.i)) s.shadow }
  else s

/-- A write acts on one field under its access code and its class. -/
def writeField (v c n : Nat) (s : State) (r : Row) : State :=
  if !covered c n r.lo r.w then s
  else
    let x := mergeField (readField s r) v c n r.lo r.w
    if r.w1c then (if x = 1 && mergeField 0 v c n r.lo r.w = 1 then fset r.f r.i 0 s else s)
    else if !r.ok x then s
    else match r.cls with
      | .l => fset r.f r.i x s
      | .s => if s.boot = .glazing then fset r.f r.i x s else s
      | .c => if s.boot = .glazing then fset r.f r.i x s else { s with shadow := mins s.shadow (fkey r.f r.i) x }

def writeRows (rows : List Row) (v c n : Nat) (s : State) : State :=
  rows.foldl (writeField v c n) (formShadow rows c n s)

/-! ## Registers whose writes act -/

/-- GEN_BOOT_CTL: WARM_RESET has precedence over GO, which acts in GLAZING, and over STAGE, which acts in FIRED (R126,
R641). -/
def writeBootCtl (v c : Nat) (s : State) : State :=
  if c ≠ 0 then s
  else if bitAt v 2 then warmReset s
  else
    let s := if bitAt v 0 then goNow s else s
    if bitAt v 3 then stageNow s else s

/-- FAB_PORT_CTL.ENABLE: DISABLED while it is 0; setting it again takes the port to DOWN, out of HELD too (R462). -/
def writePortEnable (p : Port) (on : Bool) (s : State) : State :=
  let was := portEnabled s p
  let s := fset .portEnable p.val (b2n on) s
  if portFenced s p || was == on then s
  else if on then updPort p (fun x => { x with st := .down }) s
  else updPort p (fun x => { x with linkUp := false, speed := 0 }) (leaveUp p .disabled s)

/-- FAB_RT_EPOCH (R471, R639): E fields act in FIRED. -/
def writeEpoch (v c : Nat) (s : State) : State :=
  if c ≠ 0 || !running s then s
  else if bitAt v 2 && s.epochArm then flipEpoch s
  else if bitAt v 1 then armEpoch s
  else s

/-- CNT_SEL.SOURCE and ALL together: a reserved combination leaves them as they were (R586). -/
def writeSource (k : Ctr) (v c n : Nat) (s : State) : State :=
  let e := mergeField (fget s .cntEvent k.val) v c n 0 6
  let u := mergeField (fget s .cntUnit k.val) v c n 6 4
  let a := mergeField (fget s .cntAll k.val) v c n 13 1
  if sourceOk k e u a then fset .cntEvent k.val e (fset .cntUnit k.val u (fset .cntAll k.val a s)) else s

/-- CNT_WIN_CTL: LEN_M1 is taken against ENABLE as it stood (R640). -/
def writeWinCtl (v c n : Nat) (s : State) : State :=
  windowSet (mergeField (fget s .winEnable) v c n 32 1 == 1)
    (if covered c n 0 32 then some (mergeField 0 v c n 0 32) else none) s

/-- FLT_CLEAR (R545, R546). -/
def writeFltClear (v c n : Nat) (s : State) : State :=
  let s := if covered c n 0 32 then clearSeq (BitVec.ofNat 32 (mergeField 0 v c n 0 32)) s else s
  if mergeField 0 v c n 32 1 = 1 then unfreezeLog s else s

/-- A routing entry: DL and RST set together is a reserved combination; in FIRED only the other bank may be written,
while it is neither armed nor in its grace (Table: Routing entry, R472). -/
def rtKey (o : Nat) : Nat := (o - 0x100000) / 8
def rtBank (o : Nat) : Bool := (o - 0x100000) / 0x2000 == 1
def rtOpen (s : State) (o : Nat) : Bool :=
  s.boot == .glazing || (rtBank o != s.epochCur && !s.epochArm && !s.grace)
def writeRoute (o v c n : Nat) (s : State) : State :=
  if !rtOpen s o then s
  else
    let old := (mget (0 : BitVec 64) s.rt (rtKey o)).toNat
    let x := merged old v c n % 2 ^ 38
    let y := if bits x 30 2 = 3 then x - 3 * 2 ^ 30 + bits old 30 2 * 2 ^ 30 else x
    { s with rt := mset 0 s.rt (rtKey o) (BitVec.ofNat 64 y) }

/-- What a write does beyond the stored fields, in the management space. -/
def mgmtActs (o v c n : Nat) (s : State) : State :=
  if o = 0x38 then writeBootCtl v c s
  else if o = 0x40 then (if c = 0 then writeCommit v s else s)
  else if 0x10000 ≤ o && o < 0x10800 then
    -- a write that leaves TARGET as it was, or gives it a reserved encoding, does nothing (R9, R10)
    if c ≠ 0 || bits v 0 5 > 18 then s else settleDie s ⟨(o - 0x10000) / 8 / 16 % 16, by omega⟩
  else if o = 0xA0018 then writeEpoch v c s
  else if 0xA0100 ≤ o && o < 0xA0200 then
    let p : Port := ⟨(o - 0xA0100) / 8 % 32, by omega⟩
    if c = 0 then writePortEnable p (bitAt v 0) s else s
  else if o = 0xD0020 then writeFltClear v c n s
  else if o = 0xE0038 then (if c = 0 && bitAt v 0 then stageSet s else s)
  else if h : 0xF0000 ≤ o ∧ o < 0xF0B00 then writeSource ⟨(o - 0xF0000) / 8, by omega⟩ v c n s
  else if h : 0xF1000 ≤ o ∧ o < 0xF1B00 then (if c = 0 then writeCtrLo ⟨(o - 0xF1000) / 8, by omega⟩ v s else s)
  else if h : 0xF2000 ≤ o ∧ o < 0xF2B00 then (if c = 0 then writeCtrHi ⟨(o - 0xF2000) / 8, by omega⟩ (some (v % 2 ^ 16)) (bitAt v 16) s else s)
  else if o = 0xF3000 then writeWinCtl v c n s
  else if 0x100000 ≤ o && o < 0x104000 then writeRoute o v c n s
  else s

/-- The MSI-X table (R143): an entry's address, and its data with the mask bit of its vector control. -/
def writeMsix (v : Vi) (o x c n : Nat) (s : State) : State :=
  let k := (o - 0x8000) / 16
  let e : MsixEntry := mget {} (getFn s v).msix k
  let e := if o % 16 = 0 then { e with addr := BitVec.ofNat 64 (merged e.addr.toNat x c n / 4 * 4) }
    else
      let w := merged (e.data.toNat + b2n e.masked * 2 ^ 32) x c n
      { e with data := BitVec.ofNat 32 w, masked := bitAt w 32 }
  flushVec v (updFn v (fun f => { f with msix := mset {} f.msix k e }) s)

/-- VI_CTL: both bits of one write. -/
def writeViCtl (v : Vi) (x : Nat) (s : State) : State :=
  let mb := fun s => if bitAt x 1 then enableMbox v s else disableMbox v s
  if bitAt x 0 then enableVi v (mb s) else mb (disableVi v s)
def viActs (fn : Vi) (o v c n : Nat) (s : State) : State :=
  if o = 0x10 then (if c = 0 then writeViCtl fn v s else s)
  else if 0x8000 ≤ o && o < 0x8040 then writeMsix fn o v c n s
  else s

/-- The function answers: it exists, its PF is not in D3hot, and only PF0 has the management space (R146, R147, R161). -/
def reaches (s : State) (fn : Vi) (sp : Space) : Bool :=
  answers s fn && (sp == .vi || fn == vi0)

def hostWriteReg (fn : Vi) (sp : Space) (o v c n : Nat) (s : State) : State :=
  let s := if lockedAt s fn sp o then s else writeRows (rowsAt fn sp o) v c n s
  match sp with
  | .mgmt => mgmtActs o v c n s
  | .vi => viActs fn o v c n s

/-- A host error lets any register of the function's spaces take any value that the function could write (R661). -/
def wildWrite (fn : Vi) (s : State) : State :=
  let v := freeAt s 2 % 2 ^ 64
  if fn = vi0 && free s % 2 = 1 then hostWriteReg fn .mgmt (freeAt s 1 % 2 ^ 21 * 8) v 0 64 (ticks 3 s)
  else hostWriteReg fn .vi (freeAt s 1 % 2 ^ 13 * 8) v 0 64 (ticks 3 s)

/-- A write of the wrong size or alignment is a host error of the function (R618). -/
def execRegisterWrite (fn : Vi) (sp : Space) (off : BitVec 24) (size : Nat) (v : U64) (s : State) : Out :=
  if !(barsLive s && reaches s fn sp) then .next s
  else if !accessOk off.toNat size then .next (wildWrite fn (hostError fn s))
  else .next (hostWriteReg fn sp (off.toNat / 8 * 8) v.toNat (coverLo off.toNat) (8 * size) s)

/-! ## Reads (R96, R622, R625 to R636): the value of a register, with no side effect -/

def Boot.code : Boot → Nat
  | .bisque => 1 | .glazing => 2 | .fired => 3 | .safe => 7
def BootErr.code : BootErr → Nat
  | .none => 0 | .slotFallback => 1 | .noImage => 2 | .layoutMismatch => 3 | .notRetained => 4 | .stageBad => 5
  | .stageFlash => 6
def StageState.code : StageState → Nat
  | .idle => 0 | .checking => 1 | .saving => 2 | .writing => 3 | .done => 4 | .failed => 5
def Port0Mode.code : Port0Mode → Nat
  | .pcie => 0 | .cxl => 1 | .cxlFallback => 2

/-- A set of units as a bit mask of 64. -/
def maskOf (p : Nat → Bool) : Nat := (List.range 64).foldl (fun a i => a + b2n (p i) * 2 ^ i) 0
def engAt (i : Nat) : Eng := ⟨i % 256, by omega⟩
/-- The engine holds a launch index. -/
def busy (x : EngSt) : Bool := x.run.isSome || !x.queue.isEmpty || !x.away.isEmpty

/-- A kiln log record as FLT_LOG shows it (Table: Kiln log record). -/
def logBytes (f : Flt) (r : LogRec) : List Byte :=
  natBytes 4 r.seq.toNat ++ natBytes 2 r.src ++ natBytes 1 r.cause ++
  natBytes 1 (b2n ((r.seq != 0 || r.damaged) && !above r.seq f.cleared) + 2 * b2n r.freeze + 4 * b2n r.damaged) ++ natBytes 6 r.sec ++ natBytes 2 r.sub ++
  natBytes 4 r.gen.toNat ++
  natBytes 2 (r.vi.getD 0 + b2n r.part.isSome * 2 ^ 14 + b2n r.vi.isSome * 2 ^ 15) ++ natBytes 1 (r.part.getD 0) ++
  natBytes 1 r.repeats ++ natBytes 8 r.info.toNat
/-- A retention record as MEM_RETAIN_REC shows it. -/
def retBytes (r : RetRec) : List Byte := recBytes r ++ natBytes 4 r.recordCrc
def dword (l : List Byte) (o : Nat) : Nat := leNat ((l.drop o).take 8)

def tempWord (s : State) (i : Nat) (h : i < 78) : Nat :=
  match mget none s.temps i with
  | some t => (BitVec.ofInt 8 t).toNat + 2 ^ 8 + b2n (decide (alertAt ⟨i, h⟩ ≤ t)) * 2 ^ 9
  | none => 0
def linkWord (s : State) (p : HPort) : Nat :=
  let x := getHp s p
  b2n x.dlUp + x.speed * 2 + x.width * 2 ^ 4 + b2n (x.cxl && p == 0) * 2 ^ 9

/-- GEN, PWR, HP and COH. -/
def roGen (s : State) (o : Nat) : Nat :=
  match o with
  | 0x00 => Config.vendorId.toNat + 0x7160 * 2 ^ 16 + s.fuses.revision.toNat * 2 ^ 32 + 2 ^ 40
  | 0x08 => s.fuses.uid.toNat % 2 ^ 32
  | 0x10 => s.fuses.uid.toNat / 2 ^ 32
  | 0x18 => s.boot.code + b2n s.degraded * 2 ^ 8 + b2n (adoptable s) * 2 ^ 9 + b2n (getHp s 0).dlUp * 2 ^ 10 +
      b2n (getHp s 1).dlUp * 2 ^ 11
  | 0x20 => s.bootErr.code + s.stage.code * 2 ^ 8 + (s.bootSlot.elim 0 Fin.val) * 2 ^ 12
  | 0x28 => enginesIn s + kilnsIn s * 2 ^ 16 + fencedKilns s * 2 ^ 32 +
      (List.finRange 4).foldl (fun a f => a + b2n (flueIn s f) * 2 ^ (48 + f.val)) 0
  | 0x30 => s.fwVer.toNat
  | 0x48 => s.setId.toNat + b2n s.applying * 2 ^ 16 + b2n s.late * 2 ^ 17 + s.unitsLeft.length * 2 ^ 32
  | 0x20000 => b2n s.board.hp0Mode + s.port0.code * 2
  | 0x20008 => linkWord s 0
  | 0x20010 => linkWord s 1
  | 0x30010 => b2n (cxlOn s) + b2n s.domainDown * 2 + b2n s.viralRx * 4 + b2n s.viralTx * 8 +
      (s.dir.filter fun q => q.2.hs == .orphan).length * 2 ^ 16
  | 0x30018 => fget s .plAddr * 2 ^ 6 + fget s .plCause * 2 ^ 52
  | _ => if h : 0x11000 ≤ o ∧ o < 0x11270 then tempWord s ((o - 0x11000) / 8) (by omega) else 0

/-- ENG, RCP and MEM. -/
def roEng (s : State) (o : Nat) : Nat :=
  match o with
  | 0x70000 => s.vendorId.toNat
  | 0x70008 => s.vendorSt + s.lastLoad.1 * 2 ^ 8 + s.lastLoad.2 * 2 ^ 16
  | 0x80010 => fget s .lastUe
  | _ =>
    if 0x60020 ≤ o && o < 0x60040 then maskOf fun i => engFenced s (engAt (8 * (o - 0x60020) + i))
    else if 0x60040 ≤ o && o < 0x60060 then maskOf fun i => busy (eng s (engAt (8 * (o - 0x60040) + i)))
    else if 0x70010 ≤ o && o < 0x70030 then maskOf fun i => (eng s (engAt (8 * (o - 0x70010) + i))).active
    else if 0x80400 ≤ o && o < 0x80800 then dword (s.records.flatMap retBytes) (o - 0x80400)
    else 0

/-- FAB and COL. -/
def roFab (s : State) (o : Nat) : Nat :=
  match o with
  | 0xA0018 => b2n s.epochCur + b2n s.epochArm * 2 + b2n s.grace * 8
  | 0xC0018 => (s.colls.filter fun q => q.2.active).length
  | _ =>
    if 0xA0100 ≤ o && o < 0xA0200 then fget s .portEnable ((o - 0xA0100) / 8)
    else if 0xA0200 ≤ o && o < 0xA0400 && o % 16 == 0 then
      let x := mget ({} : PortSt) s.ports ((o - 0xA0200) / 16)
      x.st.code + x.cause * 2 ^ 4 + x.speed * 2 ^ 6
    else if 0xA0400 ≤ o && o < 0xA0600 then
      let x := mget ({} : PortSt) s.ports ((o - 0xA0400) / 16)
      match x.nbr with
      | none => b2n x.heard * b2n (o % 16 == 8) * 2 ^ 63
      | some h => if o % 16 = 0 then h.uid.toNat
        else h.node.toNat + b2n h.nodeValid * 2 ^ 18 + h.port.toNat * 2 ^ 24 + h.role.toNat * 2 ^ 32 + b2n x.heard * 2 ^ 63
    else 0

/-- FLT, RTC and CNT. -/
def roFlt (s : State) (o : Nat) : Nat :=
  match o with
  | 0xD0008 => pendClasses s.flt + b2n s.flt.frozen * 2 ^ 4 + b2n s.flt.collErr * 2 ^ 5 + s.flt.newest.toNat * 2 ^ 32
  | 0xD0018 => (fltFirst s.flt).1 + b2n (fltFirst s.flt).2.1 * 2 ^ 4 + b2n (fltFirst s.flt).2.2 * 2 ^ 5
  | 0xD0020 => s.flt.cleared.toNat
  | 0xE0000 => s.rtc.snapSec % 2 ^ 32
  | 0xE0008 => s.rtc.snapSec / 2 ^ 32
  | 0xE0010 => s.rtc.sub -- the read itself takes the snapshot (R574)
  | 0xE0018 => calendar s.rtc.snapSec
  | 0xE0038 => b2n s.rtc.staged.isSome
  | 0xF3000 => fget s .lenM1 + fget s .winEnable * 2 ^ 32 + s.win.seq % 2 ^ 28 * 2 ^ 36
  | _ =>
    if 0xD0200 ≤ o && o < 0xD0400 then
      dword (logBytes s.flt (mget {} s.flt.log ((o - 0xD0200) / 32))) ((o - 0xD0200) % 32)
    else if 0xF0000 ≤ o && o < 0xF0B00 then
      let n := (o - 0xF0000) / 8
      fget s .cntEvent n + fget s .cntUnit n * 2 ^ 6 + fget s .cntAll n * 2 ^ 13
    else if 0xF1000 ≤ o && o < 0xF1B00 then
      -- the read itself latches (R589)
      let c : Ctr := ⟨(o - 0xF1000) / 8 % 352, by omega⟩
      if ctrIn s c then (getCtr s c).val % 2 ^ 32 else 0
    else if 0xF2000 ≤ o && o < 0xF2B00 then
      let x := mget ({} : CtrSt) s.ctrs ((o - 0xF2000) / 8)
      x.latch / 2 ^ 32 + b2n x.latchOvf * 2 ^ 16
    else if 0xF4000 ≤ o && o < 0xF5600 then mget 0 s.shadowBank ((o - 0xF4000) / 8)
    else if 0x100000 ≤ o && o < 0x104000 then (mget (0 : BitVec 64) s.rt (rtKey o)).toNat
    else 0

def roVi (s : State) (v : Vi) (o : Nat) : Nat :=
  let x := getVi s v
  if o = 0x00 then v.val + (portOf v).val * 2 ^ 16 + b2n (isPf v) * 2 ^ 17
  else if o = 0x08 then
    -- STOPPED reads as finished once every data write of the VI is visible (R380)
    b2n (x.stopped && viVisible s v) + b2n x.ringIdle * 2 + b2n x.cplFull * 4 + b2n x.dbPolled * 8 + b2n x.mbPolled * 16 + x.stopCause * 2 ^ 8 +
      b2n x.stopPoison * 2 ^ 11
  else if o = 0x10 then fget s .viEnable v.val + fget s .mboxEn v.val * 2
  else if o = 0x318 then engineCount s v
  else if 0x8000 ≤ o && o < 0x8040 then
    let e := mget ({} : MsixEntry) (getFn s v).msix ((o - 0x8000) / 16)
    if o % 16 = 0 then e.addr.toNat else e.data.toNat + b2n e.masked * 2 ^ 32
  else if o = 0xC000 then (List.range 4).foldl (fun a n => a + b2n (mget false (getFn s v).pba n) * 2 ^ n) 0
  else 0

/-- Table: Readable in BISQUE and SAFE. -/
def earlyReg (o : Nat) : Bool :=
  o ≤ 0x30 || (0x11000 ≤ o && o < 0x11270) || o == 0x20000 || o == 0x20008 || o == 0x20010 || (0x80400 ≤ o && o < 0x80800) ||
  (0xD0008 ≤ o && o ≤ 0xD0018) || (0xD0200 ≤ o && o < 0xD0400) || (0xE0000 ≤ o && o ≤ 0xE0018) || o == 0xE0040

/-- The stored fields of a register as a read shows them. -/
def readRows (s : State) (rows : List Row) : Nat := rows.foldl (fun a r => a + readField s r * 2 ^ r.lo) 0

/-- The value that a read of an aligned register returns. -/
def regValue (s : State) (fn : Vi) (sp : Space) (o : Nat) : Nat :=
  if !(readable s && reaches s fn sp) then 0
  else if !barsLive s && !(sp == .mgmt && earlyReg o) then 0
  else readRows s (rowsAt fn sp o) + match sp with
    | .mgmt => roGen s o + roEng s o + roFab s o + roFlt s o
    | .vi => roVi s fn o

end Sys2Proof.Machine
end

