-- ==== Sys2Proof/Machine/Dispatch.lean ====
section
/-! DEFINITION. The dispatch: one arm per command, each a direct call of its meaning. -/

namespace Sys2Proof.Machine

/-- The effect of a command on everything but the queue. -/
def exec (i : Instr) (s : State) : Host.Outcome State Fault Refusal :=
  match i with
  | .auxPowerOn st => Sys2Proof.Machine.execAuxPowerOn st s
  | .vddAuxFall => Sys2Proof.Machine.execVddAuxFall s
  | .suppliesLost => Sys2Proof.Machine.execSuppliesLost s
  | .coldReset lowNs st => Sys2Proof.Machine.execColdReset lowNs st s
  | .powerDown => Sys2Proof.Machine.execPowerDown s
  | .perst0Assert lowNs => Sys2Proof.Machine.execPerst0Assert lowNs s
  | .perst1Assert lowNs => Sys2Proof.Machine.execPerst1Assert lowNs s
  | .hotReset p => Sys2Proof.Machine.execHotReset p s
  | .hostLinkLoss p => Sys2Proof.Machine.execHostLinkLoss p s
  | .hostLinkUp p width speed cxl => Sys2Proof.Machine.execHostLinkUp p width speed cxl s
  | .pfFlr pf => Sys2Proof.Machine.execPfFlr pf s
  | .vfFlr vi => Sys2Proof.Machine.execVfFlr vi s
  | .vfEnableClear pf => Sys2Proof.Machine.execVfEnableClear pf s
  | .numvfsWrite pf n => Sys2Proof.Machine.execNumvfsWrite pf n s
  | .viResetDone which => Sys2Proof.Machine.execViResetDone which s
  | .deviceResetEnd => Sys2Proof.Machine.execDeviceResetEnd s
  | .testReset => Sys2Proof.Machine.execTestReset s
  | .busMasterDisable vi => Sys2Proof.Machine.execBusMasterDisable vi s
  | .d3hotEntry pf => Sys2Proof.Machine.execD3hotEntry pf s
  | .d0Return pf => Sys2Proof.Machine.execD0Return pf s
  | .configAccess vi acc => Sys2Proof.Machine.execConfigAccess vi acc s
  | .hostPoisonedWrite vi => Sys2Proof.Machine.execHostPoisonedWrite vi s
  | .hostReadCompletion vi what res => Sys2Proof.Machine.execHostReadCompletion vi what res s
  | .hostCompletionTimeout vi what => Sys2Proof.Machine.execHostCompletionTimeout vi what s
  | .msixUnmask vi vec => Sys2Proof.Machine.execMsixUnmask vi vec s
  | .holdoffExpiry vi => Sys2Proof.Machine.execHoldoffExpiry vi s
  | .smbusRead cmd => Sys2Proof.Machine.execSmbusRead cmd s
  | .smbusWrite cmd data => Sys2Proof.Machine.execSmbusWrite cmd data s
  | .selfTest lanes fails => Sys2Proof.Machine.execSelfTest lanes fails s
  | .imageCheck slot img => Sys2Proof.Machine.execImageCheck slot img s
  | .vendorImageLoad slot => Sys2Proof.Machine.execVendorImageLoad slot s
  | .go fn w => Sys2Proof.Machine.execGo fn w s
  | .enterFired => Sys2Proof.Machine.execEnterFired s
  | .warmReset fn => Sys2Proof.Machine.execWarmReset fn s
  | .stage fn w low => Sys2Proof.Machine.execStage fn w low s
  | .stageSectorDone ok last sector => Sys2Proof.Machine.execStageSectorDone ok last sector s
  | .thermalSample readings => Sys2Proof.Machine.execThermalSample readings s
  | .damperWindowEnd watts => Sys2Proof.Machine.execDamperWindowEnd watts s
  | .railPowerGood k => Sys2Proof.Machine.execRailPowerGood k s
  | .vsetPgTimeout k => Sys2Proof.Machine.execVsetPgTimeout k s
  | .vsetAlert k status => Sys2Proof.Machine.execVsetAlert k status s
  | .railOut r ns status => Sys2Proof.Machine.execRailOut r ns status s
  | .clockChange e => Sys2Proof.Machine.execClockChange e s
  | .refclkLost f => Sys2Proof.Machine.execRefclkLost f s
  | .pllLockLoss isl => Sys2Proof.Machine.execPllLockLoss isl s
  | .pllRelock isl => Sys2Proof.Machine.execPllRelock isl s
  | .pllLost isl => Sys2Proof.Machine.execPllLost isl s
  | .unitStall isl live => Sys2Proof.Machine.execUnitStall isl live s
  | .islandReset isl => Sys2Proof.Machine.execIslandReset isl s
  | .flitAckErr lane nth => Sys2Proof.Machine.execFlitAckErr lane nth s
  | .ezbenPhaseTimeout lane => Sys2Proof.Machine.execEzbenPhaseTimeout lane s
  | .ezbenErrorWindowEnd l => Sys2Proof.Machine.execEzbenErrorWindowEnd l s
  | .detourInstall l => Sys2Proof.Machine.execDetourInstall l s
  | .sliceLoad h line stream => Sys2Proof.Machine.execSliceLoad h line stream s
  | .sliceStore h line mask data stream => Sys2Proof.Machine.execSliceStore h line mask data stream s
  | .gets r line age => Sys2Proof.Machine.execGets r line age s
  | .getm r line age => Sys2Proof.Machine.execGetm r line age s
  | .getcur r line age => Sys2Proof.Machine.execGetcur r line age s
  | .puts r line age data poison => Sys2Proof.Machine.execPuts r line age data poison s
  | .puto r line age data poison => Sys2Proof.Machine.execPuto r line age data poison s
  | .putm r line age data poison => Sys2Proof.Machine.execPutm r line age data poison s
  | .dataresp h line data dirty poison => Sys2Proof.Machine.execDataresp h line data dirty poison s
  | .invack h line => Sys2Proof.Machine.execInvack h line s
  | .done h line => Sys2Proof.Machine.execDone h line s
  | .datas h line data poison => Sys2Proof.Machine.execDatas h line data poison s
  | .datam h line data poison => Sys2Proof.Machine.execDatam h line data poison s
  | .datacur h line data poison => Sys2Proof.Machine.execDatacur h line data poison s
  | .grantm h line => Sys2Proof.Machine.execGrantm h line s
  | .fwds h line => Sys2Proof.Machine.execFwds h line s
  | .downs h line => Sys2Proof.Machine.execDowns h line s
  | .fwdm h line => Sys2Proof.Machine.execFwdm h line s
  | .inv h line => Sys2Proof.Machine.execInv h line s
  | .ownx h line => Sys2Proof.Machine.execOwnx h line s
  | .putack h line => Sys2Proof.Machine.execPutack h line s
  | .retry h line => Sys2Proof.Machine.execRetry h line s
  | .nackp h line => Sys2Proof.Machine.execNackp h line s
  | .snpdata line => Sys2Proof.Machine.execSnpdata line s
  | .snpinv line => Sys2Proof.Machine.execSnpinv line s
  | .snpcur line => Sys2Proof.Machine.execSnpcur line s
  | .goGrant line g data poison => Sys2Proof.Machine.execGoGrant line g data poison s
  | .goI line data poison => Sys2Proof.Machine.execGoI line data poison s
  | .goErr line => Sys2Proof.Machine.execGoErr line s
  | .goWritepull line => Sys2Proof.Machine.execGoWritepull line s
  | .goWritepullDrop line => Sys2Proof.Machine.execGoWritepullDrop line s
  | .viralRx => Sys2Proof.Machine.execViralRx s
  | .cohTimeout line => Sys2Proof.Machine.execCohTimeout line s
  | .pollInterval vi k => Sys2Proof.Machine.execPollInterval vi k s
  | .line0ReadReturn vi k res => Sys2Proof.Machine.execLine0ReadReturn vi k res s
  | .descriptorFetchReturn vi res => Sys2Proof.Machine.execDescriptorFetchReturn vi res s
  | .line1Write vi ok => Sys2Proof.Machine.execLine1Write vi ok s
  | .dispatch vi => Sys2Proof.Machine.execDispatch vi s
  | .descriptorComplete vi idx ok => Sys2Proof.Machine.execDescriptorComplete vi idx ok s
  | .nop vi idx => Sys2Proof.Machine.execNop vi idx s
  | .copy vi idx => Sys2Proof.Machine.execCopy vi idx s
  | .fill vi idx => Sys2Proof.Machine.execFill vi idx s
  | .moverBlock m res => Sys2Proof.Machine.execMoverBlock m res s
  | .launch vi idx => Sys2Proof.Machine.execLaunch vi idx s
  | .signal vi idx ok => Sys2Proof.Machine.execSignal vi idx ok s
  | .wait vi idx => Sys2Proof.Machine.execWait vi idx s
  | .waitPoll vi idx res => Sys2Proof.Machine.execWaitPoll vi idx res s
  | .fence vi idx => Sys2Proof.Machine.execFence vi idx s
  | .segSet vi idx => Sys2Proof.Machine.execSegSet vi idx s
  | .recipeLoad vi idx => Sys2Proof.Machine.execRecipeLoad vi idx s
  | .coll vi idx => Sys2Proof.Machine.execColl vi idx s
  | .groupSetDefine vi idx => Sys2Proof.Machine.execGroupSetDefine vi idx s
  | .groupSetDelete vi idx => Sys2Proof.Machine.execGroupSetDelete vi idx s
  | .windowSetOpen vi idx => Sys2Proof.Machine.execWindowSetOpen vi idx s
  | .windowSetClose vi idx => Sys2Proof.Machine.execWindowSetClose vi idx s
  | .stamp vi idx ok => Sys2Proof.Machine.execStamp vi idx ok s
  | .coneSnap vi idx ok => Sys2Proof.Machine.execConeSnap vi idx ok s
  | .mboxDeliver vi payload => Sys2Proof.Machine.execMboxDeliver vi payload s
  | .mboxUpWrite vi e slot => Sys2Proof.Machine.execMboxUpWrite vi e slot s
  | .viEnable vi => Sys2Proof.Machine.execViEnable vi s
  | .viDisable vi => Sys2Proof.Machine.execViDisable vi s
  | .mboxEnable vi => Sys2Proof.Machine.execMboxEnable vi s
  | .mboxDisable vi => Sys2Proof.Machine.execMboxDisable vi s
  | .segMissService vi => Sys2Proof.Machine.execSegMissService vi s
  | .missWatchdog vi => Sys2Proof.Machine.execMissWatchdog vi s
  | .taskWordFetch e => Sys2Proof.Machine.execTaskWordFetch e s
  | .launchIndexStart e => Sys2Proof.Machine.execLaunchIndexStart e s
  | .sliceEnd e => Sys2Proof.Machine.execSliceEnd e s
  | .precommitBudgetEnd e => Sys2Proof.Machine.execPrecommitBudgetEnd e s
  | .postcommitBudgetEnd e => Sys2Proof.Machine.execPostcommitBudgetEnd e s
  | .commit e ecc => Sys2Proof.Machine.execCommit e ecc s
  | .endWord e => Sys2Proof.Machine.execEndWord e s
  | .seqNext e ecc => Sys2Proof.Machine.execSeqNext e ecc s
  | .seqJump e target => Sys2Proof.Machine.execSeqJump e target s
  | .seqLoop e target lc1 => Sys2Proof.Machine.execSeqLoop e target lc1 s
  | .seqBz e target => Sys2Proof.Machine.execSeqBz e target s
  | .seqBnz e target => Sys2Proof.Machine.execSeqBnz e target s
  | .seqBn e target => Sys2Proof.Machine.execSeqBn e target s
  | .wflag e src1 count => Sys2Proof.Machine.execWflag e src1 count s
  | .wslotd e src1 => Sys2Proof.Machine.execWslotd e src1 s
  | .wslotf e src1 => Sys2Proof.Machine.execWslotf e src1 s
  | .wload e => Sys2Proof.Machine.execWload e s
  | .sopNop e => Sys2Proof.Machine.execSopNop e s
  | .mov e a => Sys2Proof.Machine.execMov e a s
  | .add e a => Sys2Proof.Machine.execAdd e a s
  | .sub e a => Sys2Proof.Machine.execSub e a s
  | .and e a => Sys2Proof.Machine.execAnd e a s
  | .or e a => Sys2Proof.Machine.execOr e a s
  | .xor e a => Sys2Proof.Machine.execXor e a s
  | .shl e a => Sys2Proof.Machine.execShl e a s
  | .shr e a => Sys2Proof.Machine.execShr e a s
  | .sar e a => Sys2Proof.Machine.execSar e a s
  | .mul e a => Sys2Proof.Machine.execMul e a s
  | .cmpu e a => Sys2Proof.Machine.execCmpu e a s
  | .mopNop e => Sys2Proof.Machine.execMopNop e s
  | .ld64 e m => Sys2Proof.Machine.execLd64 e m s
  | .st64 e m => Sys2Proof.Machine.execSt64 e m s
  | .tb2sp e m => Sys2Proof.Machine.execTb2sp e m s
  | .sp2tb e m => Sys2Proof.Machine.execSp2tb e m s
  | .ldr e m => Sys2Proof.Machine.execLdr e m s
  | .stc e m => Sys2Proof.Machine.execStc e m s
  | .bar e => Sys2Proof.Machine.execBar e s
  | .drain e => Sys2Proof.Machine.execDrain e s
  | .slotrd e m => Sys2Proof.Machine.execSlotrd e m s
  | .slotwr e m => Sys2Proof.Machine.execSlotwr e m s
  | .fclr e m => Sys2Proof.Machine.execFclr e m s
  | .probe e m => Sys2Proof.Machine.execProbe e m s
  | .mxNop e => Sys2Proof.Machine.execMxNop e s
  | .shift e fmt src idx => Sys2Proof.Machine.execShift e fmt src idx s
  | .swap e => Sys2Proof.Machine.execSwap e s
  | .stream e x => Sys2Proof.Machine.execStream e x s
  | .vopNop e => Sys2Proof.Machine.execVopNop e s
  | .fma e v => Sys2Proof.Machine.execFma e v s
  | .vadd e v => Sys2Proof.Machine.execVadd e v s
  | .vmul e v => Sys2Proof.Machine.execVmul e v s
  | .vmax e v => Sys2Proof.Machine.execVmax e v s
  | .vmin e v => Sys2Proof.Machine.execVmin e v s
  | .exp e v => Sys2Proof.Machine.execExp e v s
  | .rsq e v => Sys2Proof.Machine.execRsq e v s
  | .cvt e v srcT dstT sat => Sys2Proof.Machine.execCvt e v srcT dstT sat s
  | .loadReturn e attempt tbi res => Sys2Proof.Machine.execLoadReturn e attempt tbi res s
  | .stcResult e res => Sys2Proof.Machine.execStcResult e res s
  | .storeBufferPass e ok => Sys2Proof.Machine.execStoreBufferPass e ok s
  | .gatherPass k => Sys2Proof.Machine.execGatherPass k s
  | .shiftStall e => Sys2Proof.Machine.execShiftStall e s
  | .memRead addr ecc => Sys2Proof.Machine.execMemRead addr ecc s
  | .scrubRead c ecc => Sys2Proof.Machine.execScrubRead c ecc s
  | .memFailed k stuck => Sys2Proof.Machine.execMemFailed k stuck s
  | .portLinkUp p speed => Sys2Proof.Machine.execPortLinkUp p speed s
  | .portLinkLoss p => Sys2Proof.Machine.execPortLinkLoss p s
  | .helloTx p => Sys2Proof.Machine.execHelloTx p s
  | .helloRx p h => Sys2Proof.Machine.execHelloRx p h s
  | .helloLoss p => Sys2Proof.Machine.execHelloLoss p s
  | .ingestFallback p => Sys2Proof.Machine.execIngestFallback p s
  | .linkTx p => Sys2Proof.Machine.execLinkTx p s
  | .linkRx p cred ackLseq nak => Sys2Proof.Machine.execLinkRx p cred ackLseq nak s
  | .seqFrameRx p f fcs => Sys2Proof.Machine.execSeqFrameRx p f fcs s
  | .replayTimeout p => Sys2Proof.Machine.execReplayTimeout p s
  | .routeFrame f inPort => Sys2Proof.Machine.execRouteFrame f inPort s
  | .writeRx f => Sys2Proof.Machine.execWriteRx f s
  | .writeAckTx => Sys2Proof.Machine.execWriteAckTx s
  | .ackRx f => Sys2Proof.Machine.execAckRx f s
  | .writeTimeout ctx offset => Sys2Proof.Machine.execWriteTimeout ctx offset s
  | .epochArm fn => Sys2Proof.Machine.execEpochArm fn s
  | .epochFlip fn alsoArm => Sys2Proof.Machine.execEpochFlip fn alsoArm s
  | .graceEnd => Sys2Proof.Machine.execGraceEnd s
  | .ingestPacket p k => Sys2Proof.Machine.execIngestPacket p k s
  | .ingestAck qp => Sys2Proof.Machine.execIngestAck qp s
  | .ingestCompletion vi ok => Sys2Proof.Machine.execIngestCompletion vi ok s
  | .pfcXoffRepeat p => Sys2Proof.Machine.execPfcXoffRepeat p s
  | .pfcXon p bytes => Sys2Proof.Machine.execPfcXon p bytes s
  | .pfcRx p prios quanta => Sys2Proof.Machine.execPfcRx p prios quanta s
  | .collLaunch vi idx => Sys2Proof.Machine.execCollLaunch vi idx s
  | .arrive g seq src sig payload => Sys2Proof.Machine.execArrive g seq src sig payload s
  | .release g seq src payload => Sys2Proof.Machine.execRelease g seq src payload s
  | .grant g seq src units => Sys2Proof.Machine.execGrant g seq src units s
  | .abort g seq src code arg => Sys2Proof.Machine.execAbort g seq src code arg s
  | .collDataRx g seq src up sherd off last crc payload => Sys2Proof.Machine.execCollDataRx g seq src up sherd off last crc payload s
  | .stagePlace g => Sys2Proof.Machine.execStagePlace g s
  | .collDeadline g => Sys2Proof.Machine.execCollDeadline g s
  | .collComplete g => Sys2Proof.Machine.execCollComplete g s
  | .collectorCycle up => Sys2Proof.Machine.execCollectorCycle up s
  | .unitFence u => Sys2Proof.Machine.execUnitFence u s
  | .safeEntry => Sys2Proof.Machine.execSafeEntry s
  | .fltClearSeq v => Sys2Proof.Machine.execFltClearSeq v s
  | .unfreeze => Sys2Proof.Machine.execUnfreeze s
  | .heartbeatStrobe => Sys2Proof.Machine.execHeartbeatStrobe s
  | .aliveHalfWindow => Sys2Proof.Machine.execAliveHalfWindow s
  | .heartbeatWindowEnd => Sys2Proof.Machine.execHeartbeatWindowEnd s
  | .rtcTick => Sys2Proof.Machine.execRtcTick s
  | .oscStopped => Sys2Proof.Machine.execOscStopped s
  | .vbatSample mv => Sys2Proof.Machine.execVbatSample mv s
  | .rtcSubsecRead upperOnly => Sys2Proof.Machine.execRtcSubsecRead upperOnly s
  | .rtcSet => Sys2Proof.Machine.execRtcSet s
  | .counterEvent c event unit n => Sys2Proof.Machine.execCounterEvent c event unit n s
  | .counterWindowEnd c => Sys2Proof.Machine.execCounterWindowEnd c s
  | .shadowSeqUpdate => Sys2Proof.Machine.execShadowSeqUpdate s
  | .windowEnable on lenM1 => Sys2Proof.Machine.execWindowEnable on lenM1 s
  | .cntValLoRead c => Sys2Proof.Machine.execCntValLoRead c s
  | .cntValLoWrite c v => Sys2Proof.Machine.execCntValLoWrite c v s
  | .cntValHiWrite c v => Sys2Proof.Machine.execCntValHiWrite c v s
  | .genCommit fn w => Sys2Proof.Machine.execGenCommit fn w s
  | .changeTakeup u => Sys2Proof.Machine.execChangeTakeup u s
  | .forcedTakeup => Sys2Proof.Machine.execForcedTakeup s
  | .changeLate => Sys2Proof.Machine.execChangeLate s
  | .registerWrite fn sp off size v => Sys2Proof.Machine.execRegisterWrite fn sp off size v s
  | .internalResetRelease vbatMv => Sys2Proof.Machine.execInternalResetRelease vbatMv s
  | .memUeWindowEnd k => Sys2Proof.Machine.execMemUeWindowEnd k s
  | .linkRecovery p back => Sys2Proof.Machine.execLinkRecovery p back s
  | .otherFrameRx p kind => Sys2Proof.Machine.execOtherFrameRx p kind s
  | .pfcPauseExpiry p prio => Sys2Proof.Machine.execPfcPauseExpiry p prio s
  | .noticeGapEnd => Sys2Proof.Machine.execNoticeGapEnd s
  | .testClockEdge tms tdi => Sys2Proof.Machine.execTestClockEdge tms tdi s

end Sys2Proof.Machine
end

