-- ==== Sys2Proof/Machine/Wild.lean ====
section
/-! DEFINITION. What a standing host error may do (R6, R7, R655 to R661): one free effect in each idle step, within the
mappings of the VI that committed it. -/

namespace Sys2Proof.Machine

/-- A place below n that a free value names. -/
def pick (n x : Nat) : Nat := x % max 1 n

/-- A byte of the VI's device allotment takes a free value. -/
def pokeDev (v : Vi) (s : State) : State :=
  let w := allotDev s .ring v
  if w.2 = 0 then s else acceptWrite (w.1 + pick w.2 (freeAt s 1)) [BitVec.ofNat 8 (freeAt s 2)] s
/-- A byte of its host allotment, or a line of its rings, does. -/
def pokeHost (v : Vi) (s : State) : State :=
  let w := allotHost s .ring v
  if w.2 = 0 || !hostOk s v then s
  else hostRing v (w.1 + pick w.2 (freeAt s 1)) [BitVec.ofNat 8 (freeAt s 2)] .other s

/-- The engine of its partition that a free value names. -/
def pokeEng (s : State) (v : Vi) : Option Eng :=
  let l := viEngines s .ring v
  l[pick l.length (freeAt s 1)]?
/-- A byte of a scratchpad window. -/
def pokeSp (v : Vi) (e : Eng) (s : State) : State :=
  match spWindow s .ring v (freeAt s 2 % 2 ^ 22) 1 with
  | some o => spWrite e o [BitVec.ofNat 8 (freeAt s 3)] s
  | none => s
/-- A flag of a flag window. -/
def pokeFlag (v : Vi) (e : Eng) (s : State) : State :=
  match flagWindow s .ring v (freeAt s 2 % 1024) with
  | some f => updEng e (fun x => { x with
      flags := mset .clear x.flags f (([.clear, .set, .failed][freeAt s 3 % 3]?).getD .clear) }) s
  | none => s
/-- A mailbox slot. -/
def pokeSlot (v : Vi) (e : Eng) (s : State) : State :=
  let n := freeAt s 2 % 4
  if slotWindow s .ring v n then
    updEng e (fun x => { x with
      slots := mset {} x.slots n { st := ([.free, .down, .up][freeAt s 3 % 3]?).getD .free, data := natBytes 256 (freeAt s 4), vi := v.val } }) s
  else s
/-- Its running launch index on an engine ends. -/
def pokeIndex (v : Vi) (e : Eng) (s : State) : State :=
  if (runOf s e).any fun r => r.ix.vi == v then endIndex e (some (wildCompl s)) (BitVec.ofNat 64 (freeAt s 5)) s else s

/-- A byte of a group entry that it owns. -/
def pokeGroup (v : Vi) (s : State) : State :=
  let g := freeAt s 1 % 4096
  if gValid s g && gOwner s g == v.val then acceptWrite (groupAddr s g + freeAt s 2 % 64) [BitVec.ofNat 8 (freeAt s 3)] s else s

/-- A descriptor of the VI ends with any status, or leaves with no entry (R658). -/
def pokeFly (v : Vi) (s : State) : State :=
  let l := (getVi s v).fly
  match l[pick l.length (freeAt s 6)]? with
  | none => s
  | some f => if freeAt s 7 % 2 = 0 then finish v f.idx (wildCompl s) s else dropFly v f.idx s
/-- An ingest entry carries any status, or is not written. -/
def pokeIngest (v : Vi) (s : State) : State :=
  updVi v (fun x => { x with ingest := match x.ingest with
    | [] => []
    | (_, w, q) :: t => if freeAt s 7 % 2 = 0 then (wildCompl s, w, q) :: t else t }) s
/-- A down message is acknowledged with any status. -/
def pokeMbox (v : Vi) (s : State) : State :=
  updVi v (fun x => { x with
    down := none, mboxAck := BitVec.ofNat 32 (freeAt s 1), mboxStatus := freeAt s 2 % 256, line1Due := true }) s

/-- One effect, or none, as a free value says; a ring stop is the one class 2 fault, and records are of class 0 (R657). -/
def poke (v : Vi) (s : State) : State :=
  match free s % 14 with
  | 1 => pokeDev v s
  | 2 => pokeHost v s
  | 3 => (pokeEng s v).elim s fun e => pokeSp v e s
  | 4 => (pokeEng s v).elim s fun e => pokeFlag v e s
  | 5 => (pokeEng s v).elim s fun e => pokeSlot v e s
  | 6 => (pokeEng s v).elim s fun e => pokeIndex v e s
  | 7 => pokeGroup v s
  | 8 => pokeFly v s
  | 9 => pokeIngest v s
  | 10 => pokeMbox v s
  | 11 => stopRing v (1 + freeAt s 1 % 4) (freeAt s 2 % 2 == 1) s
  | 12 => report .ring (freeAt s 1 % 32) (freeAt s 2) (some v.val) (partOf s v) s
  | 13 => wildWrite v s
  | _ => s

/-- Every VI whose host error stands has its effect. -/
def pokeAll (s : State) : State :=
  if !running s then s
  else s.vis.foldl (fun s p => if (getVi s (viNo p.1)).wild then ticks 8 (poke (viNo p.1) s) else s) s

end Sys2Proof.Machine
end

