-- ==== Sys2Proof/Machine/Step.lean ====
section
/-! DEFINITION. The step: the command at the front of the queue, or one nanosecond of idling. -/

namespace Sys2Proof.Machine

/-- A payload read that could not leave when its header was taken leaves once it may (R160). -/
def payloadsDue (s : State) : State :=
  if !ringRuns s then s else s.vis.foldl (fun s p => if ringOn s (viNo p.1) then readPayload (viNo p.1) s else s) s
/-- What the device's own engines do in a nanosecond: the kiln mesh moves, a staged image is checked, VIs that are due
start, lines that a wake names are read, flags and payload reads that waited leave, and a standing host error shows. -/
def background (s : State) : State := pokeAll (payloadsDue (pumpAll (rearm (startAll (stageCheck (meshTick s))))))
/-- With no command waiting the block idles: one nanosecond and one ring-engine cycle pass (R274). -/
def idle (s : State) : State := background { s with nowNs := s.nowNs + 1, ringCycles := s.ringCycles + 1 }

/-- Take the command at the front of the queue and run it on the state with the queue's rest. -/
def step (s : State) : Host.Outcome State Fault Refusal :=
  match s.pending with
  | [] => .next (idle s)
  | c :: rest => exec c { s with pending := rest }

/-- The command that a word spells, put at the front of the queue. -/
def State.withFetchWord (s : State) (nbits w : Nat) : State :=
  match decodeTableWord nbits w with
  | some c => { s with pending := c :: s.pending }
  | none => s

end Sys2Proof.Machine
end

