-- ==== Sys2Proof/Safety.lean ====
section
/-! DEFINITION. What the statements call safe: the canonical form of memory, the invariant that every step keeps, and the
words in which a frame is said. -/

namespace Sys2Proof.Machine

/-- The canonical form of device memory: addresses strictly rising, and no listed byte equal to the 0 that an unlisted
address reads as. -/
abbrev Memory.wf (m : List Host.Cell) : Prop := mwf 0 m

/-- The invariant of the device's stores: device memory and the poison marks are in canonical form, and the
retention store holds at most 16 records, each of which passes the CRC check of R117. -/
structure Inv (s : State) : Prop where
  memory : Memory.wf s.mem
  poison : mwf false s.poison
  records : s.records.length ≤ 16
  sealed : ∀ r ∈ s.records, recOk r = true

/-- A command completes: it answers a next state, of which `p` holds. -/
def Completes (c : Instr) (s : State) (p : State → Prop) : Prop := ∃ t, exec c s = .next t ∧ p t

/-- The run goes on from s to t: the queue and the generation stand, the device is in the state it was in or in SAFE, no
fence is lifted, and outputs are only added. -/
def Continues (s t : State) : Prop :=
  t.pending = s.pending ∧ t.generation = s.generation ∧ (t.boot = s.boot ∨ t.boot = .safe) ∧
    (∀ u ∈ s.fenced, u ∈ t.fenced) ∧ s.out <+: t.out

/-- The descriptor i of VI v is in flight and has ended with c. -/
def Ended (t : State) (v : Vi) (i : BitVec 32) (c : Compl) : Prop :=
  ∃ f, f ∈ (getVi t v).fly ∧ f.idx.idx = i ∧ f.fin = some c

/-- What a device reset of cause `c` leaves of s: the islands and the rings as at reset, the device state, the generation,
the fences and the clock as they were, device memory only under RETAIN_ARM, and a record of the loss. -/
def AfterDeviceReset (s t : State) (c : Loss) (code : Nat) : Prop :=
  t.resetting = some c ∧ t.resetAt = s.nowNs ∧ t.boot = s.boot ∧ t.generation = s.generation ∧ t.fenced = s.fenced ∧
  t.rtc = s.rtc ∧ t.fuses = s.fuses ∧ t.vis = [] ∧ t.hostPorts = [] ∧ t.hl = [] ∧ t.dir = [] ∧ t.vendor = [] ∧
  t.colls = [] ∧ t.movers = [] ∧ (fget s .retainArm ≠ 1 ∧ s.going ≠ some true → t.mem = [] ∧ t.poison = []) ∧
  ∃ r l, t.records = r :: l ∧ r.cause = code ∧ recOk r = true

/-! ## Messages -/

/-- The packet by which the home sends a message to holder h, and by which holder h sends one to the home. -/
def homePacket (h : Holder) (cls : MCls) (c : Instr) (d : Option Block) : MeshPkt :=
  { src := .home, dst := holderIsle h, cls := cls, msg := c, flits := flitsOf c d }
def holderPacket (h : Holder) (cls : MCls) (c : Instr) (d : Option Block) : MeshPkt :=
  { src := holderIsle h, dst := .home, cls := cls, msg := c, flits := flitsOf c d }

/-- From s to t the message c has been read out of the kiln mesh, the packets l have been written and the outputs o added. -/
def Sent (c : Instr) (s t : State) (l : List MeshPkt) (o : List Emit) : Prop :=
  t.mesh = (taken c s).mesh ++ l ∧ t.out = s.out ++ o

/-- No VI has a flag that waits to be written, or one whose write failed. -/
def NoFlags (s : State) : Prop := ∀ v, (getVi s v).outq = [] ∧ retOf s (.flag v) = none

/-! ## Register fields -/

/-- Every stored register field but those named reads as before. -/
def FieldsBut (s t : State) (l : List F) : Prop := ∀ f i, i < 2 ^ 20 → f ∉ l → fget t f i = fget s f i

/-- Counter f of element i, of w bits, has counted n and saturates (every other field reads as before). -/
def Counted (s t : State) (f : F) (i w n : Nat) : Prop :=
  fget t f i = min (fget s f i + n) (2 ^ w - 1) ∧ ∀ g j, j < 2 ^ 20 → g ≠ f ∨ j ≠ i → fget t g j = fget s g j

/-- Bytes a to a + n - 1 of device memory hold l where they are no hole, and every other byte is as before. -/
def MemoryHolds (s t : State) (a : Nat) (l : List Byte) : Prop :=
  ∀ b, readByte t b = if a ≤ b ∧ b < a + l.length ∧ isHole s b = false then l.getD (b - a) 0 else readByte s b

/-! ## Engines -/

/-- Slot k of the word w that engine e is at in run r may issue (R389, R395, R399): it has not issued, no reserved field is
set, the word is not held, and it is not a commit microword that has yet to commit. -/
def SlotReady (s : State) (e : Eng) (r : Run) (w k : Nat) : Prop :=
  openWord s e = some (r, w) ∧ r.done.contains k = false ∧ wordBad w = false ∧ isCommitWord r w = false ∧
    held s e r w = false

/-- The word w that engine e is at in run r may end: its slots have issued, it has no END, and it is not held. -/
def WordReady (s : State) (e : Eng) (r : Run) (w : Nat) : Prop :=
  openWord s e = some (r, w) ∧ wEnd w = false ∧ wordDone r w = true ∧ wordBad w = false ∧ isCommitWord r w = false ∧
    held s e r w = false

/-- The run as the slots of a word read it: the registers stand as the word's first slot found them (R393). -/
def atIssue (r : Run) : Run := { r with src := some (srcRegs r) }

/-- From s to t the run of engine e becomes r; one free value is drawn, and nothing else changes. -/
def RunBecomes (s t : State) (e : Eng) (r : Run) : Prop :=
  eng t e = { eng s e with run := some r } ∧ (∀ x, x ≠ e → eng t x = eng s x) ∧
    t = { s with engs := t.engs, freeCtr := s.freeCtr + 1 }

/-- Slot k of the word of run r on engine e was used in the wrong phase: a host error of the index's VI, in which the slot
issues and does nothing else. -/
def PhaseError (s t : State) (e : Eng) (r : Run) (k : Nat) : Prop :=
  (getVi t r.ix.vi).wild = true ∧ eng t e = { eng s e with run := some (markSlot k r) } ∧
    t = { s with engs := t.engs, vis := t.vis, freeCtr := s.freeCtr + 1 }

/-- Scratchpad bytes o to o + n - 1 of engine e hold l, and every other one is as before. -/
def ScratchHolds (s t : State) (e : Eng) (o : Nat) (l : List Byte) : Prop :=
  ∀ k, mget 0 (eng t e).scratch k = if o ≤ k ∧ k < o + l.length then l.getD (k - o) 0 else mget 0 (eng s e).scratch k

end Sys2Proof.Machine
end

