-- ==== Sys2Proof/Certificates/Slice0/Obligations.lean ====
section
/-! DEFINITION. The statements for the provers. -/

open Sys2Proof Sys2Proof.Machine

/-- Step with a command in front of the queue is exec of that command on the state with the rest of the queue. -/
def Obligations.StepTakesFront : Prop :=
  ∀ (c : Instr) (rest : List Instr) (s : State), s.pending = c :: rest → step s = exec c { s with pending := rest }

/-- On an empty queue the block idles for a nanosecond (the model's choice, log entry 2): the run goes on, and where the
device does not run and nothing is in the kiln mesh or due to start, only the two time counts change. -/
def Obligations.IdleTicks : Prop :=
  ∀ s : State, s.pending = [] →
    (∃ t, step s = .next t ∧ Continues s t) ∧
    (running s = false → s.mesh = [] → s.wires = [] → (∀ p ∈ s.vis, p.2.startDue = false) →
      step s = .next { s with nowNs := s.nowNs + 1, ringCycles := s.ringCycles + 1 })

/-- The invariant of the stores holds right after reset. -/
def Obligations.ResetHasInv : Prop := Inv State.reset

/-- Every step keeps the invariant of the stores: device memory and the poison marks stay in canonical form, and the
retention store holds at most 16 records, each with a good CRC (R117). -/
def Obligations.StepKeepsInv : Prop := ∀ s t : State, Inv s → step s = .next t → Inv t

/-- Every command whose operands name units and forms that the device has completes; no command touches the queue or the
fuses, and none takes back an output. -/
def Obligations.CommandsLeaveQueue : Prop :=
  ∀ (c : Instr) (s : State), (c.wf = true → ∃ t, exec c s = .next t) ∧
    ∀ t, exec c s = .next t → t.pending = s.pending ∧ t.fuses = s.fuses ∧ s.out <+: t.out

/-- The device state changes only as R95 and Table: Device state transitions say: to SAFE; from BISQUE to GLAZING by the
vendor image; from GLAZING to FIRED by the entry into FIRED; to BISQUE by a power event or the end of a device reset. -/
def Obligations.BootTransitions : Prop :=
  ∀ (c : Instr) (s t : State), exec c s = .next t → t.boot ≠ s.boot → t.boot ≠ .safe →
    ((∃ n, c = .vendorImageLoad n) ∧ s.boot = .bisque ∧ t.boot = .glazing) ∨
    (c = .enterFired ∧ s.boot = .glazing ∧ t.boot = .fired) ∨
    (t.boot = .bisque ∧ (c = .deviceResetEnd ∨ c = .vddAuxFall ∨ (∃ st, c = .auxPowerOn st) ∨ ∃ n st, c = .coldReset n st))

/-- The vendor routines are loaded by one command alone, out of the body of the firmware image that was checked, and
otherwise stand or are lost (R384, R407). -/
def Obligations.VendorRegionStands : Prop :=
  ∀ (c : Instr) (s t : State), exec c s = .next t → t.vendor ≠ s.vendor →
    t.vendor = [] ∨ ((∃ n, c = .vendorImageLoad n) ∧ t.vendor = vendorWords (vendorBytes s.fwBody))

/-- A fence is lifted by nothing but the self-test and the loss of the always-on supply (R104, R150). -/
def Obligations.FencesStand : Prop :=
  ∀ (c : Instr) (s t : State) (u : FUnit), exec c s = .next t → u ∈ s.fenced → u ∉ t.fenced →
    (∃ ls fs, c = .selfTest ls fs) ∨ c = .vddAuxFall ∨ ∃ st, c = .auxPowerOn st

/-- GENERATION advances by one at the entry into FIRED and at nothing else; only the loss of the always-on supply clears
it. -/
def Obligations.GenerationAdvances : Prop :=
  ∀ (c : Instr) (s t : State), exec c s = .next t → t.generation ≠ s.generation →
    (c = .enterFired ∧ t.generation = s.generation + 1) ∨
    (t.generation = 0 ∧ (c = .vddAuxFall ∨ ∃ st, c = .auxPowerOn st))

/-- The supplies. AUX_POWER_ON starts the device in BISQUE with no memory, records, fences, generation or VI state, samples
the straps, and keeps the fuses and the clock's time, of which it takes a snapshot; VDD_AUX_FALL stops it and leaves the
clock alone on VBAT and stopped without; with both supplies lost the clock loses its time; COLD_RESET restarts boot step 1
with unretained memory and a record of cause 6, and keeps fences, generation and, over a pulse of PWRGOOD, what the rails
keep over a reset (R53); POWER_DOWN takes memory to self-refresh and the links, the ports and the kiln mesh down. What a
power-up leaves of the generation, the records and the fences rests on log entry 10. -/
def Obligations.PowerCommandsComplete : Prop :=
  (∀ (s : State) (st : Straps), Completes (.auxPowerOn st) s fun t =>
    t.boot = .bisque ∧ t.mem = [] ∧ t.records = [] ∧ t.fenced = [] ∧ t.generation = 0 ∧ t.vis = [] ∧
    t.board.vddAux = true ∧ t.board.pwrgood = true ∧ t.board.alive = false ∧ t.rtc.running = true ∧
    t.rtc.sec = s.rtc.sec ∧ t.rtc.snapSec = s.rtc.sec ∧ t.fuses = s.fuses ∧ t.pending = s.pending ∧
    (∀ b, st.hp0Mode = some b → t.board.hp0Mode = b) ∧ (∀ b, st.bootSrc = some b → t.board.bootSrc = b) ∧
    ∀ b, st.debugEn = some b → t.board.debugEn = b) ∧
  (∀ s : State, Completes .vddAuxFall s fun t =>
    t.board.vddAux = false ∧ t.boot = .bisque ∧ t.mem = [] ∧ t.records = [] ∧ t.vis = [] ∧ t.fuses = s.fuses ∧
    (s.board.vbatOk = true → t.rtc = { s.rtc with staged := none }) ∧ (s.board.vbatOk = false → t.rtc.running = false)) ∧
  (∀ s : State, Completes .suppliesLost s fun t => t.rtc = {} ∧ t = { s with rtc := t.rtc, fld := t.fld }) ∧
  (∀ (s : State) (n : Nat) (st : Straps), s.board.vddAux = true → s.board.pwrgood = true → 10000 ≤ n →
    Completes (.coldReset n st) s fun t =>
      t.boot = .bisque ∧ t.board.pwrgood = true ∧ t.resetting = none ∧ t.mem = [] ∧ t.vis = [] ∧
      t.generation = s.generation ∧ t.fenced = s.fenced ∧ t.pending = s.pending ∧ t.rtc.snapSec = s.rtc.sec ∧
      t.rails = resetRails s ∧ ∃ r l, t.records = r :: l ∧ r.cause = 6 ∧ r.valid = 0 ∧ recOk r = true) ∧
  ∀ s : State, Completes .powerDown s fun t =>
    t.board.pwrgood = false ∧ t.board.alive = false ∧ t.board.selfRefresh = true ∧
    t = { s with board := t.board, hostPorts := [], ports := [], mesh := [], wires := [], flt := t.flt }

/-- The five triggers of a device reset on port 0 or by a register write, outside SAFE and outside the 50 µs of an earlier
entry (R111 to R116, R128), the end of a device reset, which restarts boot step 1 (R112), and TEST_RESET. -/
def Obligations.DeviceResetsComplete : Prop :=
  (∀ s : State, s.board.pwrgood = true → s.boot ≠ .safe → entering s = false →
    (∀ n, 1000 ≤ n → Completes (.perst0Assert n) s fun t =>
      AfterDeviceReset s t .perst0 1 ∧ t.board.perst0 = true) ∧
    Completes (.hotReset 0) s (fun t => AfterDeviceReset s t .hotReset 3) ∧
    ((getHp s 0).dlUp = true → Completes (.hostLinkLoss 0) s fun t => AfterDeviceReset s t .linkLoss 2) ∧
    Completes (.pfFlr 0) s (fun t => AfterDeviceReset s t .pf0Flr 4) ∧
    (s.resetting = none → answers s vi0 = true → (s.boot = .glazing ∨ s.boot = .fired) →
      Completes (.warmReset vi0) s fun t => AfterDeviceReset s t .warm 5)) ∧
  (∀ (s : State) (c : Loss), s.resetting = some c → Completes .deviceResetEnd s fun t =>
    t.resetting = none ∧ t.boot = .bisque ∧ t.board.perst0 = false ∧ t.rtc.snapSec = s.rtc.sec ∧
    t = { s with resetting := none, boot := .bisque, board := t.board, rtc := t.rtc }) ∧
  ∀ s : State, Completes .testReset s fun t => t = { s with tap := .testLogicReset, tapDebug := false }

/-- The resets of virtual interfaces. A VF's FLR marks it as resetting and drops what it had fetched; after a clearing of VF
Enable and after a trigger on port 1 the run goes on, and in SAFE such a trigger resets the port's link alone; NumVFs is
written while VF Enable is clear (R169); the end of a VI reset, once its work has ended, leaves the VI and its function as
at reset, but for its messages and the count of its enables (R164, R165). -/
def Obligations.ViResetsComplete : Prop :=
  (∀ (s : State) (v : Vi), isVf v = true → s.board.pwrgood = true → s.resetting = none → s.boot ≠ .safe →
    viExists s v = true → Completes (.vfFlr v) s fun t => Continues s t ∧ (getVi t v).resetting = true ∧
      (getVi t v).fetched = [] ∧ (getVi t v).misses = [] ∧ (getVi t v).ingest = [] ∧ (getVi t v).down = none) ∧
  (∀ (s : State) (p : HPort), s.board.pwrgood = true → s.resetting = none → s.boot ≠ .safe →
    (getPf s p).vfEnable = true → Completes (.vfEnableClear p) s (Continues s)) ∧
  (∀ (s : State) (p : HPort) (n : BitVec 16), s.board.pwrgood = true → s.resetting = none →
    (getPf s p).vfEnable = false → Completes (.numvfsWrite p n) s fun t =>
      (getPf t p).numVFs = n.toNat ∧ t = { s with pfs := t.pfs }) ∧
  (∀ (s : State) (v : Vi), (getVi s v).resetting = true → Completes (.viResetDone (.one v)) s (Continues s) ∧
    (viBusy (drainVi v s) v = false → Completes (.viResetDone (.one v)) s fun t =>
      Continues s t ∧ getVi t v = { upMsgs := (getVi t v).upMsgs, lap := (getVi t v).lap } ∧ getFn t v = {})) ∧
  (∀ (s : State) (p : HPort), Completes (.viResetDone (.pfVfs p)) s (Continues s)) ∧
  (∀ s : State, Completes (.viResetDone .port1) s (Continues s)) ∧
  (∀ s : State, s.board.pwrgood = true → s.resetting = none → s.boot ≠ .safe →
    (∀ n, 1000 ≤ n → Completes (.perst1Assert n) s (Continues s)) ∧
    Completes (.hotReset 1) s (Continues s) ∧ Completes (.pfFlr 1) s (Continues s) ∧
    ((getHp s 1).dlUp = true → Completes (.hostLinkLoss 1) s (Continues s))) ∧
  ∀ s : State, s.board.pwrgood = true → s.resetting = none → s.boot = .safe →
    Completes (.hotReset 1) s fun t => getHp t 1 = {} ∧ t = { s with hostPorts := t.hostPorts }

/-- Sensors, damper and regulators. A sample at its alert threshold leaves its reading and drives THERM_ALERT_N; a window's
end steps each ceiling in DAMPED mode alone and leaves it at 18 otherwise (R62), and the next window keeps the limits it
starts with (R600); power good confirms the voltage that waits, and the die settles; a regulator's timeout or alert fences
its rail; a rail out of range fences the kiln's rail, or for a shared rail but VBAT takes the device to SAFE; a clock change
is bounded by the confirmed voltage. -/
def Obligations.RailsAndThermalComplete : Prop :=
  (∀ (s : State) (l : List (Fin 78 × Int)), s.board.pwrgood = true → Completes (.thermalSample l) s (Continues s)) ∧
  (∀ (s : State) (i : Fin 78) (x : Int), s.board.pwrgood = true → powered s = false → alertAt i ≤ x → x < tripAt i →
    Completes (.thermalSample [(i, x)]) s fun t =>
      mget none t.temps i.val = some x ∧ t.board.thermAlert = true ∧
      t = { s with temps := t.temps, rails := t.rails, board := { s.board with thermAlert := true } }) ∧
  (∀ (s : State) (w : Nat), powered s = true → Completes (.damperWindowEnd w) s fun t =>
    t.damped = (fget s .damperMode == 1) ∧
    (∀ k, (getRail t k).ceiling = if s.damped = true ∧ fget s .damperMode = 1
      then (getRail (stepCeiling s w k) k).ceiling else 18) ∧
    t.winBudget = fget s .budget ∧ t.winLimit = fget s .tempLimit ∧
    t = { s with
      damped := t.damped, rails := t.rails, engs := t.engs, out := t.out, winBudget := t.winBudget, winLimit := t.winLimit }) ∧
  (∀ (s : State) (k : Kiln) (c : Nat), powered s = true → (getRail s k).pend = some c →
    Completes (.railPowerGood k) s fun t =>
      t = settleDie (updRail k (fun r => { r with code := c, pend := none }) s) k ∧
      t = { s with rails := t.rails, engs := t.engs, out := t.out }) ∧
  (∀ (s : State) (k : Kiln), powered s = true → (getRail s k).pend.isSome = true →
    Completes (.vsetPgTimeout k) s fun t => Continues s t ∧ .rail k ∈ t.fenced) ∧
  (∀ (s : State) (k : Kiln) (b : Byte), powered s = true → bitAt b.toNat 1 = true →
    Completes (.vsetAlert k b) s fun t => Continues s t ∧ .rail k ∈ t.fenced) ∧
  (∀ (s : State) (k : Kiln) (n : Nat) (b : Byte), s.board.pwrgood = true → 1000 < n →
    Completes (.railOut (.kiln k) n b) s fun t => Continues s t ∧ .rail k ∈ t.fenced) ∧
  (∀ (s : State) (r : Fin 11) (n : Nat) (b : Byte), s.board.pwrgood = true → 1000 < n → r ≠ 1 →
    Completes (.railOut (.shared r) n b) s fun t => Continues s t ∧ t.boot = .safe) ∧
  ∀ (s : State) (e : Eng), powered s = true → engFenced s e = false → Completes (.clockChange e) s fun t =>
    (eng t e).want = wantClock s e ∧
    (eng t e).clk = min (wantClock s e) (maxClock s (kilnOf e) (getRail s (kilnOf e)).code) ∧
    t = { s with engs := t.engs }

/-- Islands and lane groups. An ACK_ERR counts in the window and resends the flit until the third in succession or the
sixteenth in the window, at which its group fails (R83, R84); the first failing group of a direction is spared (R85); a
window's end clears the counts; an island parks without lock and runs again with it (R90); an island reset returns its
island (R93), and a lost reference clock is fenced (R71); after a detour, a lost clock and a stall the run goes on. -/
def Obligations.IslandsComplete : Prop :=
  (∀ (s : State) (l : Lane) (n : Nat), l.link.ok = true → powered s = true → laneUsed s l = true → n < 3 →
    mget 0 (lanesOf s l.link l.up).window l.group.val < 15 → Completes (.flitAckErr l n) s fun t =>
      t.out = s.out ++ [.retry l] ∧ t = { s with out := t.out, lanes := t.lanes, wires := t.wires } ∧
      mget 0 (lanesOf t l.link l.up).window l.group.val = mget 0 (lanesOf s l.link l.up).window l.group.val + 1) ∧
  (∀ (s : State) (l : Lane) (n : Nat), l.link.ok = true → powered s = true → laneUsed s l = true →
    3 ≤ n ∨ 15 ≤ mget 0 (lanesOf s l.link l.up).window l.group.val → l.group.val < 4 →
    (lanesOf s l.link l.up).failed = [] → Completes (.flitAckErr l n) s fun t =>
      (lanesOf t l.link l.up).failed = [l.group] ∧ (lanesOf t l.link l.up).spared = some l.group ∧
      t = { s with lanes := t.lanes, wires := t.wires, flt := t.flt, fld := t.fld }) ∧
  (∀ (s : State) (l : Lane), l.link.ok = true → powered s = true → laneUsed s l = true → l.group.val < 4 →
    (lanesOf s l.link l.up).failed = [] → Completes (.ezbenPhaseTimeout l) s fun t =>
      (lanesOf t l.link l.up).failed = [l.group] ∧ (lanesOf t l.link l.up).spared = some l.group ∧
      t = { s with lanes := t.lanes, wires := t.wires, flt := t.flt, fld := t.fld }) ∧
  (∀ (s : State) (l : Link), l.ok = true → Completes (.ezbenErrorWindowEnd l) s fun t =>
    (lanesOf t l true).window = [] ∧ (lanesOf t l false).window = [] ∧ t = { s with lanes := t.lanes }) ∧
  (∀ (s : State) (l : Link), l.ok = true → powered s = true → linkFenced s l = true →
    Completes (.detourInstall l) s (Continues s)) ∧
  (∀ (s : State) (i : Island), powered s = true → i ≠ .aon → s.pllParked.contains i = false →
    s.stopped.contains i = false → Completes (.pllLockLoss i) s fun t => islandRuns t i = false ∧
      t = { s with
        pllParked := s.pllParked ++ [i], parked := s.parked ++ [i], parkAt := s.parkAt ++ [(i, s.nowNs)] }) ∧
  (∀ (s : State) (i : Island), s.pllParked.contains i = true → Completes (.pllRelock i) s fun t =>
    i ∉ t.pllParked ∧ i ∉ t.parked ∧ (s.stopped.contains i = false → islandRuns t i = true) ∧
    t = { s with pllParked := t.pllParked, parked := t.parked, parkAt := t.parkAt }) ∧
  (∀ (s : State) (i : Island), powered s = true → s.pllParked.contains i = true → lostToRefclk s i = false →
    Completes (.pllLost i) s (Continues s)) ∧
  (∀ (s : State) (i : Island) (u : FUnit), powered s = true → liveSide s i u = true → s.stopped.contains i = false →
    islandQuiet s i = false → Completes (.unitStall i u) s (Continues s)) ∧
  (∀ (s : State) (i : Island), powered s = true → Completes (.islandReset i) s fun t =>
    Continues s t ∧ i ∉ t.parked ∧ i ∉ t.pllParked ∧ i ∉ t.stopped) ∧
  ∀ (s : State) (f : Flue), powered s = true → s.refSeen.contains f = true → s.fenced.contains (.refclk f) = false →
    Completes (.refclkLost f) s fun t => Continues s t ∧ .refclk f ∈ t.fenced

/-- The boot steps. SELF_TEST ends once, and after a cold boot with nothing failing lifts the fences; a good image is taken
from its slot, a bad one is rejected, and with both rejected the device goes to SAFE (R99 to R103); the vendor image of a
well-formed body takes the device to GLAZING with its words, a bad one to SAFE (R407, R408); GO fills memory with zeros or
adopts it under the record's conditions (R107, R119); ENTER_FIRED takes the device to FIRED, or to SAFE if something fails
on the way, with the next generation (R110); STAGE begins to check the image that PF0 has staged, the check ends as R121 and R123 say, and each
sector that ends moves the copy on (R125). -/
def Obligations.BootCommandsComplete : Prop :=
  (∀ (s : State) (ls : List Lane) (fs : List TestFail), (Instr.selfTest ls fs).wf = true → powered s = true →
    s.boot = .bisque → s.selfTested = false → Completes (.selfTest ls fs) s fun t => t.selfTested = true ∧
      t.board.hostDriven = true ∧
      (coldBoot s = false → fs = [] → t = { s with selfTested := true, board := { s.board with hostDriven := true } }) ∧
      (coldBoot s = true → ls = [] → fs = [] → t = { s with
        fenced := [], degraded := false, detours := [], lanes := [], ports := [], selfTested := true
        board := { s.board with hostDriven := true } })) ∧
  (∀ (s : State) (n : Fin 2) (i : Image), powered s = true → s.boot = .bisque → s.selfTested = true →
    nextSlot s = some n → Completes (.imageCheck n i) s fun t =>
      (imageOk s i = true → t.bootSlot = some n ∧ t.fwVer = BitVec.ofNat 32 (imgField i 0x08 4) ∧ t.fwBody = i.body ∧
        (s.rejected = [] → t = { s with bootSlot := some n, fwVer := t.fwVer, fwBody := i.body })) ∧
      (imageOk s i = false → s.rejected = [] → t = { s with rejected := [n] }) ∧
      (imageOk s i = false → s.rejected ≠ [] → t.boot = .safe)) ∧
  (∀ (s : State) (n : Fin 2), powered s = true → s.boot = .bisque → s.selfTested = true → s.bootSlot = some n →
    Completes (.vendorImageLoad n) s fun t =>
      (vendorOk s.fwBody = true → t.boot = .glazing ∧ t.vendorSt = 1 ∧ t.vendor = vendorWords (vendorBytes s.fwBody) ∧
        t.vendorId = BitVec.ofNat 32 (bodyField (vendorBytes s.fwBody) 0x0C 4) ∧
        t = { s with vendor := t.vendor, vendorId := t.vendorId, vendorSt := 1, boot := .glazing }) ∧
      (vendorOk s.fwBody = false → t.boot = .safe ∧ t.vendor = s.vendor ∧ t.vendorSt = 2)) ∧
  (∀ (s : State) (w : U64), answers s vi0 = true → powered s = true → s.boot = .glazing → s.going = none →
    bitAt w.toNat 2 = false → bitAt w.toNat 0 = true → Completes (.go vi0 w) s fun t =>
      (bits w.toNat 1 1 = 0 → t.going = some false ∧ t.mem = [] ∧ t.poison = [] ∧ t.boot = .glazing) ∧
      (bits w.toNat 1 1 = 1 → ∀ r l, s.records = r :: l → adoptable (bootCtlFields w s) = true →
        r.layoutCrc = layoutCrc (bootCtlFields w s) → r.fencedKiln = fencedKilns s →
        t.going = some true ∧ t.mem = s.mem ∧ ∃ r', t.records = r' :: l ∧ r'.valid = 2 ∧ recOk r' = true)) ∧
  (∀ s : State, powered s = true → s.boot = .glazing → s.going.isSome = true → Completes .enterFired s fun t =>
    (t.boot = .fired ∨ t.boot = .safe) ∧ t.generation = s.generation + 1 ∧ (∀ u ∈ s.fenced, u ∈ t.fenced) ∧
    s.out <+: t.out) ∧
  (∀ (s : State) (w : U64) (low : Bool), answers s vi0 = true → running s = true → staging s = false →
    bitAt w.toNat 2 = false → bitAt w.toNat 3 = true → Completes (.stage vi0 w low) s fun t =>
      t.stage = .checking ∧ t.stageTries = 0 ∧
      (low = false → t.stageAt = bits w.toNat 21 27) ∧
      (low = true → t.stageAt = bits w.toNat 21 11 + fget s .stageOffset / 2 ^ 11 % 2 ^ 16 * 2 ^ 11) ∧
      t = { s with fld := t.fld, stage := t.stage, stageTries := t.stageTries, stageAt := t.stageAt }) ∧
  (∀ s : State, running s = true → s.stage = .checking →
    (∀ i, stagedImage s = some i → imageOk s i = true → stageCheck s = { s with stage := .saving }) ∧
    ((∀ i, stagedImage s = some i → imageOk s i = false) →
      stageCheck s = { s with stage := .failed, bootErr := .stageBad })) ∧
  ∀ (s : State) (last : Bool) (n : BitVec 24), running s = true →
    (s.stage = .saving → Completes (.stageSectorDone true true n) s fun t =>
      t = { s with stage := .writing, stageTries := 0, out := s.out ++ [.spiCopy (otherSlot (firstSlot s))] }) ∧
    (s.stage = .writing → Completes (.stageSectorDone true true n) s fun t =>
      t = { s with stage := .done, stageTries := 0, out := s.out ++ [.spiCopy (firstSlot s)] }) ∧
    (s.stage = .saving ∨ s.stage = .writing → Completes (.stageSectorDone true false n) s fun t =>
      t = { s with stageTries := 0 }) ∧
    (s.stage = .saving ∨ s.stage = .writing → Completes (.stageSectorDone false last n) s fun t =>
      (s.stageTries < 3 → t = { s with stageTries := s.stageTries + 1 }) ∧
      (3 ≤ s.stageTries → t.stage = .failed ∧ t.bootErr = .stageFlash))

/-- The host ports. A link that is down comes up with its width and speed unless the port's PERST is asserted, and port 0
decides its mode (R130, R131, R134); LINK_RECOVERY marks the port as recovering, and its end clears the mark; Bus Master
Enable, D3hot and D0 change their function's bit (R160, R161); a poisoned write is logged as advisory and does nothing else
(R138, R139); a configuration read is answered with the item's value and one of a function that is not there with none;
a write of Bus Master Enable or of Enable Relaxed Ordering changes that bit, and after any other the run goes on; the end of
a holdoff sends the message that it held back, where its vector is open (R159); SMBus commands are answered on VDD_AUX alone
(R50), their data being of log entry 22. -/
def Obligations.HostPortCommandsComplete : Prop :=
  (∀ (s : State) (w n : Nat) (x : Bool), (Instr.hostLinkUp 0 w n x).wf = true → s.board.pwrgood = true →
    s.resetting = none →
    ((getHp s 1).dlUp = false → s.board.perst1 = false → Completes (.hostLinkUp 1 w n x) s fun t =>
      getHp t 1 = { dlUp := true, speed := n, width := w } ∧ getHp t 0 = getHp s 0 ∧
      t = { s with hostPorts := t.hostPorts, board := { s.board with hostDriven := true } }) ∧
    ((getHp s 0).dlUp = false → s.board.perst0 = false → Completes (.hostLinkUp 0 w n x) s fun t =>
      getHp t 0 = { dlUp := true, speed := n, width := w, cxl := portMode s w n x == .cxl } ∧ getHp t 1 = getHp s 1 ∧
      t.port0 = portMode s w n x ∧ t = { s with
        hostPorts := t.hostPorts, port0 := t.port0, flt := t.flt, fld := t.fld
        board := { s.board with hostDriven := true } })) ∧
  (∀ (s : State) (p : HPort) (w n : Nat) (x : Bool), (Instr.hostLinkUp p w n x).wf = true → (getHp s p).dlUp = true →
    Completes (.hostLinkUp p w n x) s fun t => t = s) ∧
  (∀ (s : State) (p : HPort), (getHp s p).dlUp = true →
    (Completes (.linkRecovery p false) s fun t =>
      getHp t p = { getHp s p with recovering := true } ∧ t = { s with hostPorts := t.hostPorts }) ∧
    Completes (.linkRecovery p true) s fun t => Continues s t ∧
      getHp t p = { getHp s p with recovering := false } ∧
      t = { s with hostPorts := t.hostPorts, fns := t.fns, out := t.out }) ∧
  (∀ (s : State) (v : Vi), viExists s v = true → Completes (.busMasterDisable v) s fun t =>
    getFn t v = { getFn s v with busMaster := false } ∧ t = { s with fns := t.fns }) ∧
  (∀ (s : State) (p : HPort), s.board.pwrgood = true → s.resetting = none → Completes (.d3hotEntry p) s fun t =>
    getPf t p = { getPf s p with d3hot := true } ∧ t = { s with pfs := t.pfs }) ∧
  (∀ (s : State) (p : HPort), (getPf s p).d3hot = true → Completes (.d0Return p) s fun t =>
    Continues s t ∧ (getPf t p).d3hot = false) ∧
  (∀ (s : State) (v : Vi), s.board.pwrgood = true → s.resetting = none → Completes (.hostPoisonedWrite v) s fun t =>
    t = { s with advisories := s.advisories + 1, out := s.out ++ [.aerAdvisory (pfVi (portOf v))] }) ∧
  (∀ (s : State) (v : Vi) (a : CfgAccess), s.board.pwrgood = true → s.resetting = none →
    (viExists s v = false → Completes (.configAccess v a) s fun t =>
      t = { s with out := s.out ++ [.cfgReply v none] }) ∧
    (viExists s v = true → ∀ i, Completes (.configAccess v (.read i)) s fun t =>
      t = { s with out := s.out ++ [.cfgReply v (cfgRead s v i)] }) ∧
    (viExists s v = true → ∀ w : BitVec 32, w.toNat % 2 = 0 →
      Completes (.configAccess v (.write .busMaster w)) s fun t =>
        getFn t v = { getFn s v with busMaster := false } ∧
        t = { s with fns := t.fns, out := s.out ++ [.cfgReply v none] }) ∧
    (viExists s v = true → isPf v = true → ∀ w : BitVec 32,
      Completes (.configAccess v (.write .relaxedOrdering w)) s fun t =>
        getPf t (portOf v) = { getPf s (portOf v) with relaxed := w.toNat % 2 == 1 } ∧
        t = { s with pfs := t.pfs, out := s.out ++ [.cfgReply v none] }) ∧
    (viExists s v = true → ∀ i w, Completes (.configAccess v (.write i w)) s (Continues s))) ∧
  (∀ (s : State) (v : Vi), barsLive s = true → (getFn s v).holdoff = true →
    ((getFn s v).holdPending = false → Completes (.holdoffExpiry v) s fun t =>
      getFn t v = { getFn s v with holdoff := false } ∧ t = { s with fns := t.fns }) ∧
    ((getFn s v).holdPending = true → vecOpen s v vecCompletion = true → Completes (.holdoffExpiry v) s fun t =>
      t.out = s.out ++ [.msix v vecCompletion (mget ({} : MsixEntry) (getFn s v).msix 0).addr
        (mget ({} : MsixEntry) (getFn s v).msix 0).data] ∧
      (getFn t v).holdPending = false ∧ t = { s with fns := t.fns, out := t.out })) ∧
  ∀ (s : State) (c : Byte) (l : List Byte), s.board.vddAux = true →
    (Completes (.smbusRead c) s fun t =>
      t = { s with freeCtr := s.freeCtr + 1, out := s.out ++ [.smbus (some (Config.smbusByte c s.freeCtr))] }) ∧
    Completes (.smbusWrite c l) s fun t => t = { s with out := s.out ++ [.smbus none] }

/-- The calendar clock. A tick lands a staged set whole, or advances by one sub-second step corrected by TRIM (R576, R578);
OSC_STOPPED and VBAT_LOW are latched (R582, R583); a read of RTC_SUBSEC takes the snapshot of both (R573); RTC_SET stages
(R575, R577). -/
def Obligations.ClockCommandsComplete : Prop :=
  (∀ s : State, s.rtc.running = true →
    (∀ sec sub, s.rtc.staged = some (sec, sub) → Completes .rtcTick s fun t =>
      t = { s with rtc := { s.rtc with sec := sec, sub := sub, staged := none } }) ∧
    (s.rtc.staged = none → s.rtc.acc + trimOf s < 2000000 → -2000000 < s.rtc.acc + trimOf s → s.rtc.sub < 32767 →
      Completes .rtcTick s fun t =>
        t = { s with rtc := { s.rtc with sub := s.rtc.sub + 1, acc := s.rtc.acc + trimOf s } }) ∧
    (s.rtc.staged = none → s.rtc.acc + trimOf s < 2000000 → -2000000 < s.rtc.acc + trimOf s → s.rtc.sub = 32767 →
      Completes .rtcTick s fun t =>
        t = { s with rtc := { s.rtc with sub := 0, sec := (s.rtc.sec + 1) % 2 ^ 48, acc := s.rtc.acc + trimOf s } }) ∧
    (s.rtc.staged = none → 2000000 ≤ s.rtc.acc + trimOf s → s.rtc.sub < 32766 → Completes .rtcTick s fun t =>
      t = { s with rtc := { s.rtc with sub := s.rtc.sub + 2, acc := s.rtc.acc + trimOf s - 2000000 } }) ∧
    (s.rtc.staged = none → s.rtc.acc + trimOf s ≤ -2000000 → s.rtc.sub < 32768 → Completes .rtcTick s fun t =>
      t = { s with rtc := { s.rtc with acc := s.rtc.acc + trimOf s + 2000000 } })) ∧
  (∀ s : State, Completes .oscStopped s fun t => fget t .oscStopped = 1 ∧ t = { s with fld := t.fld }) ∧
  (∀ (s : State) (mv : Nat), s.board.vddAux = true →
    (Completes (.vbatSample mv) s fun t => t.board.vbatOk = decide (2000 ≤ mv && mv ≤ 3600) ∧
      (mv < 2000 → fget t .vbatLow = 1) ∧ (2000 ≤ mv → t.fld = s.fld) ∧
      t = { s with board := t.board, fld := t.fld }) ∧
    Completes (.internalResetRelease mv) s fun t => t.board.vbatOk = decide (2000 ≤ mv && mv ≤ 3600) ∧
      (mv < 2000 → fget t .vbatLow = 1) ∧ (2000 ≤ mv → t.fld = s.fld) ∧
      t = { s with board := t.board, fld := t.fld }) ∧
  (∀ s : State, readable s = true → answers s vi0 = true →
    (Completes (.rtcSubsecRead false) s fun t => t.out = s.out ++ [.regRead s.rtc.sub] ∧
      t.rtc = { s.rtc with snapSec := s.rtc.sec, snapSub := s.rtc.sub } ∧ t = { s with out := t.out, rtc := t.rtc }) ∧
    Completes (.rtcSubsecRead true) s fun t => t = { s with out := s.out ++ [.regRead 0] }) ∧
  ∀ s : State, barsLive s = true → answers s vi0 = true → s.rtc.staged = none → Completes .rtcSet s fun t =>
    t.rtc = { s.rtc with staged := some (fget s .setSecLo + 2 ^ 32 * fget s .setSecHi, fget s .setSub) } ∧
    t = { s with rtc := t.rtc }

/-- The counters. A selected event adds to its counter, which wraps or saturates with its overflow flag (R588, R591); a
window's end at a counter writes its shadow (R593, R594), and the last one moves SHADOW_SEQ on (R595); WINDOW_ENABLE
starts and stops the windows (R592); VAL_LO reads latch the value, and a write takes VAL_HI with it (R589, R590). -/
def Obligations.CounterCommandsComplete : Prop :=
  (∀ (s : State) (c : Ctr) (e : BitVec 6) (u : BitVec 4) (n : Nat), powered s = true → ctrIn s c = true →
    islandRuns s (ctrIsle c) = true → selects s c e.toNat u.toNat = true →
    ((getCtr s c).val + n < 2 ^ 48 → fget s .cntOvfIrq c.val = 0 → Completes (.counterEvent c e u n) s fun t =>
      getCtr t c = { getCtr s c with val := (getCtr s c).val + n } ∧ t = { s with ctrs := t.ctrs }) ∧
    (2 ^ 48 ≤ (getCtr s c).val + n → fget s .cntOvfIrq c.val = 0 → Completes (.counterEvent c e u n) s fun t =>
      (getCtr t c).ovf = true ∧ t = { s with ctrs := t.ctrs } ∧
      (fget s .cntMode c.val = 1 → (getCtr t c).val = 2 ^ 48 - 1) ∧
      (fget s .cntMode c.val ≠ 1 → (getCtr t c).val = ((getCtr s c).val + n) % 2 ^ 48)) ∧
    Completes (.counterEvent c e u n) s fun t => t = { s with ctrs := t.ctrs, out := t.out, fns := t.fns }) ∧
  (∀ (s : State) (c : Ctr), powered s = true → s.win.running = true → islandRuns s (ctrIsle c) = true →
    s.win.wrote.contains c.val = false →
    Completes (.counterWindowEnd c) s fun t =>
      mget 0 t.shadowBank (shadowKey (s.win.k % 2) c.val) = ctrWord s c ∧ t.win.wrote = s.win.wrote ++ [c.val] ∧
      (fget s .clearOnEnd = 1 → (getCtr t c).val = 0 ∧ (getCtr t c).ovf = false) ∧
      (fget s .clearOnEnd ≠ 1 → t.ctrs = s.ctrs) ∧
      t = { s with shadowBank := t.shadowBank, win := t.win, ctrs := t.ctrs }) ∧
  (∀ s : State, powered s = true → s.win.running = true →
    (∀ c : Ctr, ctrIn s c = true → s.win.wrote.contains c.val = true) → Completes .shadowSeqUpdate s fun t =>
      t.win = { s.win with seq := s.win.k, k := s.win.k + 1, wrote := [] } ∧
      t = { s with win := t.win, shadowBank := t.shadowBank, out := t.out, fns := t.fns }) ∧
  (∀ (s : State) (n : BitVec 32), barsLive s = true → answers s vi0 = true →
    (fget s .winEnable = 0 → Completes (.windowEnable true (some n)) s fun t =>
      fget t .winEnable = 1 ∧ fget t .lenM1 = n.toNat ∧
      t.win = { s.win with running := true, k := 1, wrote := [] } ∧ t = { s with fld := t.fld, win := t.win }) ∧
    (fget s .winEnable = 1 → Completes (.windowEnable true (some n)) s fun t =>
      fget t .winEnable = 1 ∧ fget t .lenM1 = fget s .lenM1 ∧ t = { s with fld := t.fld }) ∧
    Completes (.windowEnable false none) s fun t => fget t .winEnable = 0 ∧ t.win.running = false ∧
      t = { s with fld := t.fld, win := t.win }) ∧
  ∀ (s : State) (c : Ctr) (v : BitVec 32), barsLive s = true → answers s vi0 = true →
    (ctrIn s c = true → Completes (.cntValLoRead c) s fun t =>
      t.out = s.out ++ [.regRead ((getCtr s c).val % 2 ^ 32)] ∧ (getCtr t c).latch = (getCtr s c).val ∧
      (getCtr t c).val = (getCtr s c).val ∧ t = { s with ctrs := t.ctrs, out := t.out }) ∧
    (ctrIn s c = false → Completes (.cntValLoRead c) s fun t =>
      t.out = s.out ++ [.regRead 0] ∧ t = { s with ctrs := t.ctrs, out := t.out }) ∧
    (ctrIn s c = true → Completes (.cntValLoWrite c v) s fun t =>
      (getCtr t c).val = (getCtr s c).hi * 2 ^ 32 + v.toNat ∧ t = { s with ctrs := t.ctrs }) ∧
    Completes (.cntValHiWrite c v) s fun t => (getCtr t c).hi = v.toNat % 2 ^ 16 ∧
      (getCtr t c).ovf = ((getCtr s c).ovf && !bitAt v.toNat 16) ∧ t = { s with ctrs := t.ctrs }

/-- The collector. A cycle takes every pending fault, and freezes the log if it held one of class 3 (R534, R541); upsets of
its own end as Table: Collector upsets says (R567, R568); FLT_CLEAR_SEQ and UNFREEZE act on the log (R545, R546); a fence
leaves its unit fenced (R550, R666); the heartbeat is kept, and at its second miss the device goes to SAFE (R558 to R560);
SAFE_ENTRY runs the steps of Table: SAFE entry steps once (R561). -/
def Obligations.FaultCommandsComplete : Prop :=
  (∀ s : State, collectorOn s = true →
    (s.flt.raised = [] → Completes (.collectorCycle none) s fun t => t = s) ∧
    Completes (.collectorCycle none) s (Continues s) ∧
    (∀ q, s.flt.raised = [q] → causeClass q.cause = 3 → Completes (.collectorCycle none) s fun t =>
      t.flt.frozen = true) ∧
    (Completes (.collectorCycle (some .control)) s fun t =>
      Continues s t ∧ t.boot = .safe ∧ t.flt.collErr = true ∧ t.flt.frozen = true ∧ t.flt.log = s.flt.log) ∧
    ∀ u, Completes (.collectorCycle (some u)) s (Continues s)) ∧
  (∀ (s : State) (v : BitVec 32), barsLive s = true → answers s vi0 = true →
    (above v s.flt.cleared = true → Completes (.fltClearSeq v) s fun t =>
      t = { s with flt := { s.flt with cleared := if above v s.flt.newest then s.flt.newest else v } }) ∧
    (above v s.flt.cleared = false → Completes (.fltClearSeq v) s fun t => t = s) ∧
    Completes .unfreeze s fun t => t = { s with flt := { s.flt with frozen := false, collErr := false } }) ∧
  (∀ s : State, s.flt.noticeGap = true →
    (s.flt.noticeDue = false → Completes .noticeGapEnd s fun t =>
      t = { s with flt := { s.flt with noticeGap := false } }) ∧
    (s.flt.noticeDue = true → Completes .noticeGapEnd s fun t =>
      t = { s with flt := { s.flt with noticeDue := false }, out := t.out, fns := t.fns })) ∧
  (∀ (s : State) (u : FUnit), u.ok = true → powered s = true → Completes (.unitFence u) s fun t =>
    Continues s t ∧ (fenceable u = true → u ∈ t.fenced) ∧ (fenceable u = false → t = s)) ∧
  (∀ s : State, powered s = true → s.stopped.contains .mgmt = false →
    (s.flt.hbRunning = true → Completes .heartbeatStrobe s fun t =>
      t = { s with flt := { s.flt with hbStrobed := true } }) ∧
    (s.flt.hbRunning = false → Completes .heartbeatStrobe s fun t =>
      t.flt.hbRunning = true ∧ t.flt.hbStrobed = true ∧ t.flt.hbMisses = 0 ∧
      (s.boot = .fired → t.board.serdesIdle = false) ∧
      t = { s with flt := t.flt, board := { s.board with serdesIdle := t.board.serdesIdle } })) ∧
  (∀ s : State, powered s = true → s.flt.hbRunning = true → s.flt.hbLost = false → Completes .aliveHalfWindow s fun t =>
    t = { s with board := { s.board with alive := !s.board.alive } }) ∧
  (∀ s : State, powered s = true → s.flt.hbRunning = true →
    (s.flt.hbStrobed = true → Completes .heartbeatWindowEnd s fun t =>
      t.flt.hbMisses = 0 ∧ t.flt.hbStrobed = false ∧ t.flt.hbWindow = s.flt.hbWindow + 1 ∧ t = { s with flt := t.flt }) ∧
    (s.flt.hbStrobed = false → 1 ≤ s.flt.hbMisses → Completes .heartbeatWindowEnd s fun t =>
      t.boot = .safe ∧ t.board.alive = false)) ∧
  ∀ s : State, s.board.pwrgood = true → s.boot = .safe → s.flt.safeStepsDone = false → Completes .safeEntry s fun t =>
    Continues s t ∧ t.flt.safeStepsDone = true ∧ t.board.alive = false ∧ t.board.selfRefresh = true ∧ t.hl = [] ∧
    t.dir = [] ∧ t.gathers = [] ∧ t.mesh = [] ∧ t.wires = [] ∧ ∃ r l, t.records = r :: l ∧ r.cause = 7 ∧ recOk r = true

/-- Register access. A write of an allowed size acts or changes nothing, and one of another size is a host error, whose
effect is any write that the function could make (R618, R661; log entry 94); GEN_COMMIT turns the pending shadows into the
change set (R603, R604); a unit takes the set up at its safe point, or is forced to (R605, R606); a late set is marked
(R607); the TAP moves as IEEE 1149.1 says, and debug access opens only where it may (R49). -/
def Obligations.RegisterCommandsComplete : Prop :=
  (∀ (s : State) (v : Vi) (sp : Space) (o : BitVec 24) (n : Nat) (w : U64), barsLive s = true → reaches s v sp = true →
    Completes (.registerWrite v sp o n w) s (Continues s) ∧
    (accessOk o.toNat n = false → Completes (.registerWrite v sp o n w) s fun t => t = wildWrite v (hostError v s))) ∧
  (∀ (s : State) (w : U64), answers s vi0 = true → running s = true → s.applying = false → bitAt w.toNat 0 = true →
    s.shadow ≠ [] → Completes (.genCommit vi0 w) s fun t =>
      t.setId = s.setId + 1 ∧ t.chg = s.shadow ∧ t.shadow = [] ∧ t.applying = true ∧
      t = { s with
        fld := t.fld, setId := t.setId, chg := t.chg, shadow := [], applying := true, unitsLeft := t.unitsLeft }) ∧
  (∀ (s : State) (u : CUnit), running s = true → atSafePoint s u = true → s.applying = true → u ∈ s.unitsLeft →
    Completes (.changeTakeup u) s (Continues s)) ∧
  (∀ s : State, running s = true → s.applying = true → Completes .forcedTakeup s (Continues s)) ∧
  (∀ s : State, running s = true → s.applying = true → s.unitsLeft ≠ [] → Completes .changeLate s fun t =>
    t = { s with late := true }) ∧
  ∀ (s : State) (m d : Bool), s.board.vddAux = true → Completes (.testClockEdge m d) s fun t =>
    t.tap = tapNext s.tap m ∧
    t = { s with tap := t.tap, tapDebug := t.tapDebug, out := t.out, freeCtr := t.freeCtr } ∧
    (s.tap ≠ .shiftDr → s.tap ≠ .shiftIr → tapNext s.tap m ≠ .updateIr →
      t = { s with
        tap := tapNext s.tap m, tapDebug := s.tapDebug && decide (tapNext s.tap m ≠ .testLogicReset) }) ∧
    (debugOpen s = false → s.tapDebug = false → t.tapDebug = false)

/-- Requests to the home. GETS, GETM and GETCUR on a line that no holder has asks the host for it and waits (R179, Table:
Serving a request); on an orphaned line they are answered NackP; on any line the run goes on, and until the message has
arrived, or while the home does not run, nothing changes. -/
def Obligations.HomeRequestsComplete : Prop :=
  ∀ (s : State) (r : Holder) (l : LineA) (age : BitVec 4),
    ∀ q ∈ [(Instr.gets r l age, ReqKind.getS, ReqKind.getS), (.getm r l age, .getM, .getM), (.getcur r l age, .getCur, .rdCur)],
      Completes q.1 s (Continues s) ∧
      (homeRuns s = false ∨ arrives s q.1 = false → Completes q.1 s fun t => t = s) ∧
      (homeRuns s = true → arrives s q.1 = true →
        ((getDir s l).hs = .idle → (getDir s l).h = .i → setFull s l = false → Completes q.1 s fun t =>
          (getDir t l).hs = .waitHost ∧ (getDir t l).req = some (q.2.1, r) ∧ (getDir t l).hostReq = some q.2.2 ∧
          (∀ m, m ≠ l → getDir t m = getDir s m) ∧ Sent q.1 s t [] [.d2h l q.2.2] ∧
          t = { s with dir := t.dir, out := t.out, mesh := t.mesh, lruCtr := s.lruCtr + 1 }) ∧
        ((getDir s l).hs = .orphan → Completes q.1 s fun t =>
          Sent q.1 s t [homePacket r .response (.nackp r l) none] [.toHolder r l "NackP" none] ∧
          t = { s with out := t.out, mesh := t.mesh }))

/-- Puts, responses and Done at the home. A Put on a line that is being written out is acknowledged and changes nothing
else; the Put of a line's last holder is acknowledged, and the line is written out with the Put's data (Table: Serving a
Put, R180); a response is collected, and the wait goes on while another is awaited (R194); on any line the run goes on. -/
def Obligations.HomeResponsesComplete : Prop :=
  ∀ (s : State) (r : Holder) (l : LineA) (age : BitVec 4) (d : Block) (x y : Bool), homeRuns s = true →
    (∀ c ∈ [Instr.puts r l age d x, .puto r l age d x, .putm r l age d x],
      Completes c s (Continues s) ∧
      (arrives s c = true → (getDir s l).hs = .evict ∨ (getDir s l).hs = .evictSnooped → Completes c s fun t =>
        Sent c s t [homePacket r .response (.putack r l) none] [.toHolder r l "PutAck" none] ∧
        t = { s with out := t.out, mesh := t.mesh }) ∧
      (arrives s c = true → (getDir s l).hs = .idle → (getDir s l).p = [r] → Completes c s fun t =>
        (getDir t l).hs = .evict ∧ (getDir t l).data = some (d, x, (getDir s l).owner == some r) ∧
        (∀ m, m ≠ l → getDir t m = getDir s m) ∧
        Sent c s t [homePacket r .response (.putack r l) none]
          [.toHolder r l "PutAck" none, .evict l ((getDir s l).owner == some r) x] ∧
        t = { s with dir := t.dir, out := t.out, mesh := t.mesh })) ∧
    ((getDir s l).hs = .waitLocal ∨ (getDir s l).hs = .waitHost → r ∈ (getDir s l).await →
      ((getDir s l).await.filter fun h => h != r) ≠ [] → ∀ c ∈ [Instr.dataresp r l d x y, .invack r l], arrives s c = true →
        Completes c s fun t => (getDir t l).await = ((getDir s l).await.filter fun h => h != r) ∧
          (getDir t l).hs = (getDir s l).hs ∧ ((getDir s l).data = none → c = .dataresp r l d x y →
            (getDir t l).data = some (d, y, x)) ∧
          (∀ m, m ≠ l → getDir t m = getDir s m) ∧ Sent c s t [] [] ∧ t = { s with dir := t.dir, mesh := t.mesh }) ∧
    Completes (.dataresp r l d x y) s (Continues s) ∧ Completes (.invack r l) s (Continues s) ∧
    Completes (.done r l) s (Continues s)

/-- The host's side of the coherent link. Snoops and GOs take their effect in the domain's service; after domain-down a
write pull is answered with Bogus data; a viral indication and a timeout take the domain down (R198, R200). -/
def Obligations.HostCoherenceComplete : Prop :=
  (∀ (s : State) (l : LineA) (g : Grant) (d : Block) (x : Bool), homeRuns s = true →
    Completes (.snpdata l) s (Continues s) ∧ Completes (.snpinv l) s (Continues s) ∧
    Completes (.snpcur l) s (Continues s) ∧ Completes (.goGrant l g d x) s (Continues s) ∧
    Completes (.goI l d x) s (Continues s) ∧ Completes (.goErr l) s (Continues s) ∧
    Completes (.goWritepull l) s (Continues s) ∧ Completes (.goWritepullDrop l) s (Continues s) ∧
    Completes (.cohTimeout l) s (Continues s)) ∧
  (∀ (s : State) (l : LineA), running s = true → islandRuns s .home = true → s.domainDown = true → NoFlags s →
    Completes (.goWritepull l) s fun t => t = { s with out := s.out ++ [.pullData l 0 false true] }) ∧
  (∀ s : State, running s = true → cxlOn s = true →
    Completes .viralRx s (fun t => Continues s t ∧ t.domainDown = true ∧ t.viralRx = true) ∧
    (s.domainDown = true → Completes .viralRx s fun t => t = { s with viralRx := true }))

/-- The holders. A whole-line STREAM store to a line that nobody has leaves as ItoMWr (R184); data that ends a miss and an
invalidation change the line as Table: Holder, home messages says; on any message and access the run goes on. -/
def Obligations.HoldersComplete : Prop :=
  (∀ (s : State) (h : Holder) (l : LineA), holderOn s h = true →
    (∀ x, Completes (.sliceLoad h l x) s (Continues s)) ∧
    (∀ m d x, Completes (.sliceStore h l m d x) s (Continues s)) ∧
    (∀ d x, Completes (.datas h l d x) s (Continues s) ∧ Completes (.datam h l d x) s (Continues s) ∧
      Completes (.datacur h l d x) s (Continues s)) ∧
    Completes (.grantm h l) s (Continues s) ∧ Completes (.fwds h l) s (Continues s) ∧
    Completes (.downs h l) s (Continues s) ∧ Completes (.fwdm h l) s (Continues s) ∧
    Completes (.inv h l) s (Continues s) ∧ Completes (.ownx h l) s (Continues s) ∧
    Completes (.putack h l) s (Continues s) ∧ Completes (.retry h l) s (Continues s) ∧
    Completes (.nackp h l) s (Continues s)) ∧
  (∀ (s : State) (h : Holder) (l : LineA) (d : Block), holderOn s h = true →
    arrives s (.sliceStore h l (BitVec.allOnes 64) d true) = true → hasEntry s l = false → setFull s l = false →
    (getHl s h l).st = .i → (getHl s h l).waits = [] →
    Completes (.sliceStore h l (BitVec.allOnes 64) d true) s fun t =>
      (getDir t l).hs = .evict ∧ (getDir t l).data = some (d, false, true) ∧
      Sent (.sliceStore h l (BitVec.allOnes 64) d true) s t [] [.d2h l .itoM] ∧
      (∀ m, m ≠ l → getDir t m = getDir s m) ∧ t = { s with dir := t.dir, out := t.out, mesh := t.mesh, engs := t.engs }) ∧
  ∀ (s : State) (h : Holder) (l : LineA), holderOn s h = true → h.val < 16 → (getHl s h l).waits = [] →
    (∀ m, (getHl s h m).parked = false ∧ (getHl s h m).leave = false) →
    ((getHl s h l).st = .s → arrives s (.inv h l) = true → Completes (.inv h l) s fun t =>
      getHl t h l = {} ∧ t.dir = s.dir) ∧
    (∀ d x, (getHl s h l).st = .imD → arrives s (.datam h l d x) = true → Completes (.datam h l d x) s fun t =>
      (getHl t h l).st = .m ∧ (getHl t h l).data = d ∧ (getHl t h l).poison = x ∧ t.dir = s.dir) ∧
    ∀ d x, (getHl s h l).st = .isD → arrives s (.datas h l d x) = true → Completes (.datas h l d x) s fun t =>
      (getHl t h l).st = .s ∧ (getHl t h l).data = d ∧ (getHl t h l).poison = x ∧ t.dir = s.dir

/-- The ring engine's lines. A poll reads its line (R219, R221); a line that comes back is taken, and a descriptor fetch
fills the buffer (R212, R223); line 1 is written (R213); a down message that is wholly read enters its slot, and an up
message is written (R234 to R239). A read doorbell gives PI, the sequence number, the completion index and the mailbox
acknowledgement (R210); one whose indices no ring can hold leaves which slots are fetched free (R661). -/
def Obligations.RingCommandsComplete : Prop :=
  (∀ (s : State) (v : Vi) (k : LineKind), ringOn s v = true → served s v = true →
    Completes (.pollInterval v k) s (Continues s)) ∧
  (∀ (s : State) (v : Vi), ringOn s v = true →
    (∀ x, Completes (.descriptorFetchReturn v x) s (Continues s)) ∧
    (∀ x, Completes (.line1Write v x) s (Continues s)) ∧
    (∀ x, Completes (.mboxDeliver v x) s (Continues s)) ∧
    (∀ k x, Completes (.line0ReadReturn v k x) s (Continues s)) ∧
    ∀ e n, Completes (.mboxUpWrite v e n) s (Continues s)) ∧
  (∀ (s : State) (v : Vi) (d : Block), ringOn s v = true → served s v = true → viaHome s v = false →
    isReading (getVi s v) .doorbell = true →
    let pi := BitVec.ofNat 32 (blockField d 0 4)
    let ci := BitVec.ofNat 32 (blockField d 8 4)
    ((pi - (getVi s v).ciCmd).toNat ≤ 2 ^ cmdLog s v → ((getVi s v).piCpl - ci).toNat ≤ 2 ^ cplLog s v →
      Completes (.line0ReadReturn v .doorbell (.data d)) s fun t => Continues s t ∧ (getVi t v).pi = pi ∧
        (getVi t v).seqSeen = BitVec.ofNat 32 (blockField d 4 4) ∧ (getVi t v).ciCpl = ci ∧
        (getVi t v).upAck = BitVec.ofNat 32 (blockField d 12 4)) ∧
    (2 ^ cmdLog s v < (pi - (getVi s v).ciCmd).toNat →
      Completes (.line0ReadReturn v .doorbell (.data d)) s fun t => Continues s t ∧
        (getVi t v).pi = (getVi s v).ciCmd + BitVec.ofNat 32 (free s % (2 ^ cmdLog s v + 1)))) ∧
  (∀ (s : State) (v : Vi) (x : HostRes), ringOn s v = true →
    (∀ what, Completes (.hostReadCompletion v what x) s (Continues s)) ∧
    ∀ what, Completes (.hostCompletionTimeout v what) s (Continues s)) ∧
  (∀ (s : State) (v : Vi) (m : Down) (n : Fin 3), ringOn s v = true → mbOn s v = true → (getVi s v).stopped = false →
    (getVi s v).down = some m →
    (Completes (.hostReadCompletion v (.mboxPayload n) .poisoned) s fun t =>
      (getVi t v).down = none ∧ (getVi t v).mboxAck = m.seq ∧ (getVi t v).mboxStatus = 0x11 ∧ t = { s with vis := t.vis }) ∧
    (Completes (.hostCompletionTimeout v (.mboxPayload n)) s fun t =>
      (getVi t v).down = none ∧ (getVi t v).mboxAck = m.seq ∧ (getVi t v).mboxStatus = 0x10 ∧ t = { s with vis := t.vis }) ∧
    ∀ d e, (viEngines s .ring v)[m.veng]? = some e → engFenced s e = false →
      bitAt (fgetU s .ring .slotMask v.val) m.slot = true →
      payBlocks { m with payload := mset none m.payload n.val (some d) } = none →
      Completes (.hostReadCompletion v (.mboxPayload n) (.data d)) s fun t =>
        (getVi t v).down = some { m with payload := mset none m.payload n.val (some d) } ∧ t = { s with vis := t.vis }) ∧
  ∀ (s : State) (v : Vi) (m : Down) (e : Eng) (l : List Block) (x : FetchRes), ringOn s v = true → mbOn s v = true →
    (getVi s v).stopped = false → (getVi s v).down = some m → payBlocks m = some l →
    (viEngines s .ring v)[m.veng]? = some e →
    (engFenced s e = false → bitAt (fgetU s .ring .slotMask v.val) m.slot = true →
      ((mget {} (eng s e).slots m.slot).st = .free → Completes (.mboxDeliver v x) s fun t =>
        mget {} (eng t e).slots m.slot = { st := .down, data := msgBytes s m l, vi := v.val } ∧
        (getVi t v).down = none ∧ (getVi t v).mboxAck = m.seq ∧ (getVi t v).mboxStatus = 0 ∧
        t = { s with engs := t.engs, vis := t.vis, freeCtr := s.freeCtr + 1 }) ∧
      ((mget {} (eng s e).slots m.slot).st ≠ .free → Completes (.mboxDeliver v x) s fun t => t = s)) ∧
    (engFenced s e = true → Completes (.mboxDeliver v x) s fun t =>
      (getVi t v).down = none ∧ (getVi t v).mboxAck = m.seq ∧ (getVi t v).mboxStatus = 0x30 ∧ t = { s with vis := t.vis })

/-- Descriptors of the ring engine. DISPATCH moves the next one into flight with a completion slot reserved (R224 to R226),
and one with a reserved bit or encoding is a host error of its VI (R12, R13, R658; log entry 94); an ended one leaves with
its slot; NOP ends at once with OK, FENCE drains its partition once it is the oldest, and ends when all is visible (R242,
R243), WAIT reads and compares (R266), SIGNAL, STAMP and CONE_SNAP write their result, and LAUNCH with COUNT = 0 ends with
ZERO (R261). -/
def Obligations.DescriptorsComplete : Prop :=
  (∀ (s : State) (v : Vi) (i : BitVec 32) (d : Block) (l : List (BitVec 32 × Block)), ringOn s v = true →
    served s v = true → (getPf s (portOf v)).d3hot = false → (getVi s v).fetched = (i, d) :: l →
    (getVi s v).fly.any holdsBack = false → isWait d = false ∨ waitsRunning s < 32 →
    (cplRoom s v = true → Completes (.dispatch v) s fun t =>
      Continues s t ∧ (descOk d = false → (getVi t v).wild = true)) ∧
    (cplRoom s v = false → Completes (.dispatch v) s fun t =>
      (getVi t v).cplFull = true ∧ (getVi t v).fetched = (getVi s v).fetched ∧ t = { s with vis := t.vis })) ∧
  (∀ (s : State) (v : Vi) (i : BitVec 32) (f : Fly) (c : Compl) (ok : Bool), ringOn s v = true → viOn s v = true →
    endedFly s v i = some (f, c) →
    (getVi s v).stopped = true ∨ f.idx.lap ≠ (getVi s v).lap ∨ silent f.desc c.status = true →
    Completes (.descriptorComplete v i ok) s fun t =>
      (getVi t v).reserved = (if f.idx.lap = (getVi s v).lap then (getVi s v).reserved - 1 else (getVi s v).reserved) ∧
      flyOf t v f.idx = none ∧ t = { s with vis := t.vis }) ∧
  (∀ (s : State) (v : Vi) (i : BitVec 32) (ok : Bool), ringOn s v = true →
    Completes (.descriptorComplete v i ok) s (Continues s)) ∧
  (∀ (s : State) (v : Vi) (i : BitVec 32) (f : Fly), fresh s v i 0x00 = some f → Completes (.nop v i) s fun t =>
    Ended t v i (okC 0) ∧ t = { s with vis := t.vis }) ∧
  (∀ (s : State) (v : Vi) (i : BitVec 32) (f : Fly), fresh s v i 0x06 = some f →
    (fenceReady s v f.idx = true → Completes (.fence v i) s fun t => Continues s t ∧
      t = if fenceMet (fenceDrain v s) v = true then finish v f.idx (okC 0) (fenceDrain v s) else fenceDrain v s) ∧
    (fenceReady s v f.idx = false → Completes (.fence v i) s fun t => t = s)) ∧
  (∀ (s : State) (v : Vi) (i : BitVec 32) (f : Fly), fresh s v i 0x04 = some f → ∀ ok,
    Completes (.signal v i ok) s (Continues s)) ∧
  (∀ (s : State) (v : Vi) (i : BitVec 32) (f : Fly), fresh s v i 0x05 = some f →
    Completes (.wait v i) s (Continues s)) ∧
  (∀ (s : State) (v : Vi) (i : BitVec 32) (f : Fly), waiting s v i = some f → ∀ x,
    Completes (.waitPoll v i x) s (Continues s) ∧ Completes (.hostReadCompletion v (.waitPoll i) x) s (Continues s)) ∧
  (∀ (s : State) (v : Vi) (i : BitVec 32) (f : Fly), fresh s v i 0x0C = some f → ∀ ok,
    Completes (.stamp v i ok) s (Continues s)) ∧
  (∀ (s : State) (v : Vi) (i : BitVec 32) (f : Fly), fresh s v i 0x0D = some f → ∀ ok,
    Completes (.coneSnap v i ok) s (Continues s) ∧
    (blockField f.desc 0x0A 2 % 512 = 0 → Completes (.coneSnap v i ok) s fun t =>
      Ended t v i zeroC ∧ t = { s with vis := t.vis }) ∧
    (blockField f.desc 0x0A 2 % 512 ≠ 0 → v ≠ vi0 → Completes (.coneSnap v i ok) s fun t =>
      Ended t v i (openC .fencedUnit) ∧ t = { s with vis := t.vis })) ∧
  ∀ (s : State) (v : Vi) (i : BitVec 32) (f : Fly), fresh s v i 0x03 = some f →
    Completes (.launch v i) s (Continues s) ∧
    (lCount f.desc = 0 → Completes (.launch v i) s fun t =>
      Ended t v i { zeroC with openValue := true } ∧ t = { s with vis := t.vis }) ∧
    (lCount f.desc ≠ 0 → (viEngines s .ring v).length < lFirst f.desc + lCount f.desc →
      Completes (.launch v i) s fun t => t = { s with vis := t.vis } ∧
        Ended t v i (openC .fencedUnit 0 (max (lFirst f.desc) (viEngines s .ring v).length)))

/-- Movers, segments and firmware. COPY and FILL join a mover's queue, each block moves it on (R251 to R258); a SEG_SET ends
with its status or changes its slot (R286, R287, R309 to R311), a miss is served or times out (R303, R297); RECIPE_LOAD,
GROUP_SET and WINDOW_SET run in the firmware's service (R268 to R272, R410, R434, R490). -/
def Obligations.MoversAndFirmwareComplete : Prop :=
  (∀ (s : State) (v : Vi) (i : BitVec 32) (f : Fly),
    (fresh s v i 0x01 = some f → Completes (.copy v i) s (Continues s) ∧
      (mLen f.desc = 0 → Completes (.copy v i) s fun t => Ended t v i zeroC ∧ t = { s with vis := t.vis })) ∧
    (fresh s v i 0x02 = some f → Completes (.fill v i) s (Continues s) ∧
      (mLen f.desc = 0 → Completes (.fill v i) s fun t => Ended t v i zeroC ∧ t = { s with vis := t.vis }))) ∧
  (∀ (s : State) (m : Mover) (x : BlockRes), moverOn s m = true → (getMv s m).queue ≠ [] →
    Completes (.moverBlock m x) s (Continues s)) ∧
  (∀ (s : State) (v : Vi) (i : BitVec 32) (f : Fly), firmwareOn s = true → fresh s v i 0x07 = some f →
    Completes (.segSet v i) s (Continues s) ∧
    (∀ st, segSetBad s v f.desc = some st → Completes (.segSet v i) s fun t =>
      Ended t v i (openC st 0 (sgSlot f.desc)) ∧ (getVi t v).changing = none ∧ t = { s with vis := t.vis })) ∧
  (∀ (s : State) (v : Vi), firmwareOn s = true → (getVi s v).misses ≠ [] →
    Completes (.segMissService v) s (Continues s)) ∧
  (∀ (s : State) (v : Vi), running s = true → (getVi s v).misses ≠ [] →
    Completes (.missWatchdog v) s (Continues s)) ∧
  (∀ (s : State) (v : Vi) (i : BitVec 32) (f : Fly), firmwareOn s = true → fresh s v i 0x08 = some f →
    Completes (.recipeLoad v i) s (Continues s)) ∧
  (∀ (s : State) (v : Vi) (i : BitVec 32) (f : Fly), served1 s v i 0x0A = some f →
    (gsDelete f.desc = false → Completes (.groupSetDefine v i) s (Continues s) ∧
      (gsMembers f.desc = 0 → Completes (.groupSetDefine v i) s fun t =>
        Ended t v i zeroC ∧ t = { s with vis := t.vis })) ∧
    (gsDelete f.desc = true → Completes (.groupSetDelete v i) s (Continues s) ∧
      (groupStop s (gsGroup f.desc) = none → groupBusy s (gsGroup f.desc) = false →
        groupForeign s (gsGroup f.desc) v = true → Completes (.groupSetDelete v i) s fun t =>
          Ended t v i (openC .collMismatch) ∧ t = { s with vis := t.vis }))) ∧
  ∀ (s : State) (v : Vi) (i : BitVec 32) (f : Fly), served1 s v i 0x0B = some f →
    (wsClose f.desc = false → Completes (.windowSetOpen v i) s (Continues s) ∧
      (wsSize f.desc = 0 → Completes (.windowSetOpen v i) s fun t => Ended t v i zeroC ∧ t = { s with vis := t.vis })) ∧
    (wsClose f.desc = true → Completes (.windowSetClose v i) s (Continues s) ∧
      (wsIngest f.desc = false → (winOf s false (wsWindow f.desc)).open_ = true →
        (winOf s false (wsWindow f.desc)).vi = v.val → Completes (.windowSetClose v i) s fun t =>
          Ended t v i (okC 0) ∧ t = { s with vis := t.vis, fwin := mset {} s.fwin (wsWindow f.desc) {} }))

/-- The registers of a routine (Table: Microword registers, R390): a U or X register reads what was written to it and every
other one stands; a write to a read-only or reserved register is discarded; a reserved register reads 0; NEXTA reads
TADDR + 8 until it is written; a loop counter keeps bits 15 to 0. -/
def Obligations.MicrowordRegisters : Prop :=
  ∀ (r : Run) (n : BitVec 6) (v : U64) (fr : Nat), r.src = none →
    (n.toNat < 0x20 → readReg (writeReg r n v) fr n = v ∧
      ∀ m : BitVec 6, m.toNat < 0x20 → m ≠ n → readReg (writeReg r n v) fr m = readReg r fr m) ∧
    (n = 0x20 ∨ n = 0x21 ∨ n = 0x22 ∨ n = 0x26 ∨ n = 0x2A ∨ n = 0x2B ∨ 0x2D ≤ n.toNat → writeReg r n v = r) ∧
    (0x2D ≤ n.toNat → readReg r fr n = 0) ∧
    (r.regs.nexta = none → readReg r fr 0x27 = (r.task + 8).setWidth 64) ∧
    (n = 0x28 ∨ n = 0x29 → readReg (writeReg r n v) fr n = (v.setWidth 16).setWidth 64)

/-- The scalar slot (Table: SOP encodings): the result goes to SDST, Z is set when it is 0 and N is its bit 63; CMPU writes
Z and N alone, and NOP nothing. -/
def Obligations.ScalarCommandsComplete : Prop :=
  ∀ (s : State) (e : Eng) (r : Run) (w : Nat) (a : Alu), SlotReady s e r w 0 →
    let x := readReg (atIssue r) (free s) a.src1
    let y := operand2 (atIssue r) (free s) a
    let n := y.toNat % 64
    let q := markSlot 0 r
    let res := fun v : U64 => { writeReg q a.dst v with
      sopDst := some a.dst, regs := { (writeReg q a.dst v).regs with z := decide (v = 0), n := v.msb } }
    (wSop w = 0 → Completes (.sopNop e) s fun t => RunBecomes s t e q) ∧
    (isSop 11 a w = true → Completes (.cmpu e a) s fun t => RunBecomes s t e
      { q with regs := { q.regs with z := decide (x = y), n := decide (x.toNat < y.toNat) } }) ∧
    (isSop 1 a w = true → Completes (.mov e a) s fun t => RunBecomes s t e (res y)) ∧
    (isSop 2 a w = true → Completes (.add e a) s fun t => RunBecomes s t e (res (x + y))) ∧
    (isSop 3 a w = true → Completes (.sub e a) s fun t => RunBecomes s t e (res (x - y))) ∧
    (isSop 4 a w = true → Completes (.and e a) s fun t => RunBecomes s t e (res (x &&& y))) ∧
    (isSop 5 a w = true → Completes (.or e a) s fun t => RunBecomes s t e (res (x ||| y))) ∧
    (isSop 6 a w = true → Completes (.xor e a) s fun t => RunBecomes s t e (res (x ^^^ y))) ∧
    (isSop 7 a w = true → Completes (.shl e a) s fun t => RunBecomes s t e (res (x <<< n))) ∧
    (isSop 8 a w = true → Completes (.shr e a) s fun t => RunBecomes s t e (res (x >>> n))) ∧
    (isSop 9 a w = true → Completes (.sar e a) s fun t => RunBecomes s t e (res (x.sshiftRight n))) ∧
    (isSop 10 a w = true → Completes (.mul e a) s fun t => RunBecomes s t e (res (x * y)))

/-- The sequencing slot (Table: SEQ encodings, R393, R398): the word ends and the next one is the one that SEQ names. A wait
whose condition is met acts as NEXT. -/
def Obligations.SequencingCommandsComplete : Prop :=
  ∀ (s : State) (e : Eng) (r : Run) (w : Nat), WordReady s e r w →
    let go := fun (q : Run) (n : Nat) => { applyIncs q with upc := wordAddr r.open_ n }
    let next := go r (r.upc + 1)
    let g := srcRegs r
    (wSeq w = 0 → Completes (.seqNext e .clean) s fun t => RunBecomes s t e next) ∧
    (wSeq w = 9 → Completes (.wload e) s fun t => RunBecomes s t e next) ∧
    (∀ a : BitVec 6, wSrc1 w = a.toNat →
      (wSeq w = 7 → Completes (.wslotd e a) s fun t => RunBecomes s t e next) ∧
      (wSeq w = 8 → Completes (.wslotf e a) s fun t => RunBecomes s t e next) ∧
      ∀ n : BitVec 16, wSeq w = 6 → wSimm w = n.toNat → Completes (.wflag e a n) s fun t => RunBecomes s t e next) ∧
    ∀ a : BitVec 12, wTarget w = a.toNat →
      (wSeq w = 1 → Completes (.seqJump e a) s fun t => RunBecomes s t e (go r a.toNat)) ∧
      (wSeq w = 3 → Completes (.seqBz e a) s fun t =>
        RunBecomes s t e (go r (if g.z = true then a.toNat else r.upc + 1))) ∧
      (wSeq w = 4 → Completes (.seqBnz e a) s fun t =>
        RunBecomes s t e (go r (if g.z = true then r.upc + 1 else a.toNat))) ∧
      (wSeq w = 5 → Completes (.seqBn e a) s fun t =>
        RunBecomes s t e (go r (if g.n = true then a.toNat else r.upc + 1))) ∧
      ∀ c : Bool, wSeq w = 2 → wLcsel w = c →
        let v := (if c then g.lc1 else g.lc0) - 1
        let q := if c then { r with regs := { r.regs with lc1 := v } } else { r with regs := { r.regs with lc0 := v } }
        r.sopDst ≠ some (if c then 0x29 else 0x28) → Completes (.seqLoop e a c) s fun t =>
          RunBecomes s t e (go q (if v ≠ 0 then a.toNat else r.upc + 1))

/-- The memory slot (Table: MOP encodings). Each operation takes its effect in the phase its row names; one in the wrong phase
is a host error, in which the slot issues and does nothing else (R661; log entry 94). LD64 of device memory fills its block
(R359), ST64 puts a block at the end of the store buffer and changes no memory (R350), TB2SP writes the scratchpad, and BAR,
DRAIN and NOP only end their hold. -/
def Obligations.MemorySlotsComplete : Prop :=
  ∀ (s : State) (e : Eng) (r : Run) (w : Nat) (m : MemSlot), SlotReady s e r w 1 →
    let q := markSlot 1 r
    let a := (readReg (atIssue r) (free s) m.addr).toNat
    let o := (readReg (atIssue r) (free s) m.sp).toNat
    let v := r.ix.vi
    (wMop w = 0 → wMem w = m → Completes (.mopNop e) s (Continues s) ∧
      (m.ainc = false → Completes (.mopNop e) s fun t => RunBecomes s t e q)) ∧
    (isMop 4 m w = true → Completes (.sp2tb e m) s (Continues s)) ∧
    (r.phase = .pre →
      (isMop 1 m w = true → Completes (.ld64 e m) s (Continues s) ∧
        ∀ x i, a % 64 = 0 → translate s (eu e) v a 64 = .hit (.dev x) i → anyHole s x 64 = false →
          anyPoison s x 64 = false → Completes (.ld64 e m) s fun t =>
            (∃ y, runOf t e = some y ∧ y.tbIn = mset 0 r.tbIn m.tbi.toNat (bytesBlock (loadDev s e x 64)) ∧
              y.regs = r.regs ∧ (isHostSlot i, seg s v i) ∈ y.hits) ∧
            t = { s with engs := t.engs, vis := t.vis, lruCtr := s.lruCtr + 1, freeCtr := s.freeCtr + 1 }) ∧
      (isMop 5 m w = true → Completes (.ldr e m) s (Continues s)) ∧
      (isMop 12 m w = true → Completes (.probe e m) s (Continues s)) ∧
      (wMop w = 7 → Completes (.bar e) s (Continues s) ∧
        ((wMem w).ainc = false → Completes (.bar e) s fun t =>
          RunBecomes s t e { q with gate := some (r.gate.getD (gather s (kilnOf e))) })) ∧
      (wMop w = 8 → Completes (.drain e) s (Continues s) ∧
        ((wMem w).ainc = false → Completes (.drain e) s fun t => RunBecomes s t e q)) ∧
      (isMop 2 m w = true → Completes (.st64 e m) s fun t => PhaseError s t e r 1)) ∧
    (r.phase = .post →
      (isMop 2 m w = true → Completes (.st64 e m) s (Continues s) ∧
        ∀ x i j, a % 64 = 0 → (r.pins.find? fun k => covers (seg s v k) a) = some i →
          viaSlot s (eu e) v i a 64 = .hit (.dev x) j → anyHole s x 64 = false → (eng s e).sb.length < 32 →
          (eng s e).tbOut = [] → Completes (.st64 e m) s fun t =>
            (∃ y, (eng t e).sb = (eng s e).sb ++ [y] ∧ y.tgt = .dev x ∧
              y.data = blockBytes (mget 0 r.tbIn m.tbi.toNat) ∧ y.release = (m.ord == 2)) ∧
            t = { s with engs := t.engs, vis := t.vis, lruCtr := s.lruCtr + 1, freeCtr := s.freeCtr + 1 }) ∧
      (isMop 3 m w = true → Completes (.tb2sp e m) s (Continues s) ∧
        ∀ x, o % 64 = 0 → spWindow s (eu e) v o 64 = some x → Completes (.tb2sp e m) s fun t =>
          ScratchHolds s t e x (blockBytes (mget 0 r.tbIn m.tbi.toNat)) ∧
          t = { s with engs := t.engs, freeCtr := s.freeCtr + 1 }) ∧
      (isMop 6 m w = true → Completes (.stc e m) s (Continues s)) ∧
      (isMop 9 m w = true → Completes (.slotrd e m) s (Continues s)) ∧
      (isMop 10 m w = true → Completes (.slotwr e m) s (Continues s)) ∧
      (isMop 11 m w = true → Completes (.fclr e m) s (Continues s) ∧
        (o = 0 → m.ainc = false → Completes (.fclr e m) s fun t => RunBecomes s t e q)) ∧
      (isMop 1 m w = true → Completes (.ld64 e m) s fun t => PhaseError s t e r 1))

/-- The matrix slot and the vector slot (Table: Microword, R322, R391): SWAP exchanges the planes; SHIFT fills a shadow
slice; STREAM and a vector operation write their result to the scratchpad after commit; before it they are a host error, in
which the slot issues and does nothing else (R661; log entry 94). -/
def Obligations.ArraySlotsComplete : Prop :=
  (∀ (s : State) (e : Eng) (r : Run) (w : Nat), SlotReady s e r w 2 →
    (isMx 0 w = true → Completes (.mxNop e) s fun t => RunBecomes s t e (markSlot 2 r)) ∧
    (isMx 2 w = true → Completes (.swap e) s fun t =>
      eng t e = { eng s e with run := some (markSlot 2 r), plane := (eng s e).shadow, shadow := (eng s e).plane } ∧
      t = { s with engs := t.engs, freeCtr := s.freeCtr + 1 }) ∧
    (∀ x y, isMx 1 w = true → wMsrc w = x → wMidx w = y → Completes (.shift e (wFmt w) x y) s (Continues s)) ∧
    (isMx 3 w = true → r.phase = .post → Completes (.stream e (wStream w)) s (Continues s) ∧
      let x := wStream w
      let a := (readReg (atIssue r) (free s) x.src).toNat
      let o := (readReg (atIssue r) (free s) x.dst).toNat
      ∀ p d, a % 64 = 0 → o % 64 = 0 → spWindow s (eu e) r.ix.vi a (rowBytes x.fmt) = some p →
        spWindow s (eu e) r.ix.vi o (mxN x.fmt * 4) = some d → Completes (.stream e x) s fun t =>
          ScratchHolds s t e d (streamRow x.fmt x.acc x.e5t x.e5m (spRead s e p (rowBytes x.fmt))
            ((List.range (tileBytes x.fmt)).map fun i => mget 0 (eng s e).plane i) (spRead s e d (mxN x.fmt * 4))) ∧
          t = { s with engs := t.engs, freeCtr := s.freeCtr + 1 }) ∧
    (isMx 3 w = true → r.phase = .pre → Completes (.stream e (wStream w)) s fun t => PhaseError s t e r 2)) ∧
  ∀ (s : State) (e : Eng) (r : Run) (w : Nat), SlotReady s e r w 3 →
    (wVop w = 0 → Completes (.vopNop e) s fun t => RunBecomes s t e (markSlot 3 r)) ∧
    (r.phase = .post →
      let v := wVec w
      let a := (readReg (atIssue r) (free s) v.dst).toNat
      let b := (readReg (atIssue r) (free s) v.src1).toNat
      let c := (readReg (atIssue r) (free s) v.src2).toNat
      let at_ := fun n => spCheck s e r.ix.vi n 2048
      let holds := fun (op : VOp) (x y z : Nat) (t : State) =>
        ScratchHolds s t e x (vectorOp op (spRead s e x 2048) (spRead s e y 2048) (spRead s e z 2048)) ∧
          t = { s with engs := t.engs, freeCtr := s.freeCtr + 1 }
      (∀ x y z, at_ a = some x → at_ b = some y → at_ c = some z →
        (wVop w = 1 → Completes (.fma e v) s (holds .fma x y z)) ∧
        (wVop w = 2 → Completes (.vadd e v) s (holds .add x y z)) ∧
        (wVop w = 3 → Completes (.vmul e v) s (holds .mul x y z)) ∧
        (wVop w = 4 → Completes (.vmax e v) s (holds .max x y z)) ∧
        (wVop w = 5 → Completes (.vmin e v) s (holds .min x y z))) ∧
      (∀ x y, at_ a = some x → at_ b = some y →
        (wVop w = 6 → Completes (.exp e v) s (holds .exp x y y)) ∧
        (wVop w = 7 → Completes (.rsq e v) s (holds .rsq x y y))) ∧
      ∀ (p d : BitVec 4), wVop w = 8 → wCvtSrc w = p.toNat → wCvtDst w = d.toNat →
        Completes (.cvt e v p d (wSat w)) s (Continues s)) ∧
    (wVop w = 1 → r.phase = .pre → Completes (.fma e (wVec w)) s fun t => PhaseError s t e r 3)

/-- Launch indices on an engine. The first queued index of the VI that is served starts with its registers (R326); a budget
that ends before commit restarts the routine with its private state discarded and its task registers kept (R345, R401,
R404), and one that ends after commit ends the index (R402); a slice that ends while another VI waits and a routine has
committed is noted for the task boundary (R343). -/
def Obligations.TaskScheduleCompletes : Prop :=
  ∀ (s : State) (e : Eng),
    Completes (.launchIndexStart e) s (Continues s) ∧ Completes (.sliceEnd e) s (Continues s) ∧
    Completes (.precommitBudgetEnd e) s (Continues s) ∧ Completes (.postcommitBudgetEnd e) s (Continues s) ∧
    (∀ i : Index, engOn s e = true → runOf s e = none → pickVi (eng s e) = some (eng s e).turn →
      (∀ r ∈ (eng s e).away, r.ix.vi.val ≠ (eng s e).turn) →
      ((eng s e).queue.find? fun j => j.vi.val == (eng s e).turn) = some i →
      Completes (.launchIndexStart e) s fun t =>
        (∃ q, runOf t e = some q ∧ q.ix = i ∧ q.task = i.task ∧ q.phase = .between ∧ xReg q.regs 0 = i.arg ∧
          xReg q.regs 1 = BitVec.ofNat 64 i.k ∧ xReg q.regs 2 = BitVec.ofNat 64 i.veng ∧
          xReg q.regs 3 = BitVec.ofNat 64 i.count ∧ ∀ n, 4 ≤ n → xReg q.regs n = 0) ∧
        (eng t e).queue = (eng s e).queue.erase i ∧ t = { s with engs := t.engs }) ∧
    ∀ r : Run, engOn s e = true → runOf s e = some r →
      (r.phase = .pre → r.waitMiss = false → Completes (.precommitBudgetEnd e) s fun t =>
        (∃ q, runOf t e = some q ∧ q.attempt = r.attempt + 1 ∧ q.regs = { x := r.regs.x } ∧ q.tbIn = [] ∧ q.cycles = 0 ∧
          q.task = r.task ∧ q.word = r.word ∧ q.phase = .pre) ∧
        (eng t e).shadow = [] ∧ (eng t e).sb = (eng s e).sb ∧ (eng t e).tbOut = (eng s e).tbOut ∧
        t = { s with engs := t.engs, hret := t.hret, mesh := t.mesh, hl := t.hl }) ∧
      (r.phase = .post → r.open_ = true → Completes (.postcommitBudgetEnd e) s fun t =>
        Continues s t ∧ runOf t e = none) ∧
      (r.phase = .post → otherWaits (eng s e) = true → Completes (.sliceEnd e) s fun t =>
        eng t e = { eng s e with sliceDue := true } ∧ t = { s with engs := t.engs }) ∧
      (r.phase ≠ .post → otherWaits (eng s e) = true → Completes (.sliceEnd e) s fun t =>
        runOf t e = none ∧ (∃ q ∈ (eng t e).away, q.ix = r.ix ∧ q.task = r.task ∧ q.regs = { x := r.regs.x }) ∧
        (eng t e).shadow = [] ∧ t = { s with engs := t.engs, hret := t.hret, mesh := t.mesh, hl := t.hl })

/-- A routine from its task word to its end. The task word is fetched and the routine of its entry starts (R325, R327); the
commit microword makes the pin check, after which the reservation is taken or the routine is abandoned, and a held one
waits (R399, R400); END goes to the next task or ends the index with the written exit value (R397, Table: Microword
registers). -/
def Obligations.RoutinesComplete : Prop :=
  (∀ (s : State) (e : Eng) (r : Run) (l : List Byte), engOn s e = true → runOf s e = some r → r.phase = .between →
    r.waitMiss = false → fetchTask e r s = .ok l →
    let w : U64 := BitVec.ofNat 64 (leNat l)
    let q := { r with word := w, phase := .pre, cycles := 0, begun := false }
    (namesStc s e r w = true → Completes (.taskWordFetch e) s fun t => t = s) ∧
    (namesStc s e r w = false →
      (∀ a, 0xC00 ≤ w.toNat % 4096 → openEntry (eng s e) (w.toNat % 4096) = some a → bits w.toNat 12 4 = 0 →
        Completes (.taskWordFetch e) s fun t =>
          runOf t e = some { q with open_ := true, upc := a, ahead := none } ∧
          t = { s with engs := t.engs, vis := t.vis, lruCtr := s.lruCtr + 1 }) ∧
      (0xC00 ≤ w.toNat % 4096 → openEntry (eng s e) (w.toNat % 4096) = none →
        Completes (.taskWordFetch e) s fun t => Continues s t ∧ runOf t e = none) ∧
      (w.toNat % 4096 < 0xC00 → rtOf (w.toNat % 4096) = none →
        Completes (.taskWordFetch e) s fun t => Continues s t ∧ runOf t e = none) ∧
      ∀ rt, w.toNat % 4096 < 0xC00 → rtOf (w.toNat % 4096) = some rt → Completes (.taskWordFetch e) s (Continues s))) ∧
  (∀ (s : State) (e : Eng) (r : Run), engOn s e = true → runOf s e = some r → r.phase = .between →
    r.waitMiss = false →
    (∀ a, fetchTask e r s = .wait a → Completes (.taskWordFetch e) s fun t =>
      runOf t e = some { r with waitMiss := true } ∧ t = { s with engs := t.engs, vis := t.vis }) ∧
    (fetchTask e r s = .pend → Completes (.taskWordFetch e) s fun t => t = s) ∧
    ∀ st a, fetchTask e r s = .fail st a → Completes (.taskWordFetch e) s fun t => Continues s t ∧ runOf t e = none) ∧
  (∀ (s : State) (e : Eng) (r : Run) (w : Nat), openWord s e = some (r, w) → isCommitWord r w = true → wordBad w = false →
    (held s e r w = true → Completes (.commit e .clean) s fun t => RunBecomes s t e { r with cycles := r.cycles + 1 }) ∧
    (held s e r w = false → pinsOk s r = true → Completes (.commit e .clean) s fun t =>
      eng t e = { eng s e with
        run := some { r with
          phase := .post, pins := r.hits.filterMap (liveAs s r.ix.vi), retries := 0, cycles := 0, resv := none }
        resv := if r.ldrDone then r.resv else (eng s e).resv } ∧
      t = { s with engs := t.engs, freeCtr := s.freeCtr + 1 }) ∧
    (held s e r w = false → pinsOk s r = false → Completes (.commit e .clean) s fun t =>
      (∃ q, runOf t e = some q ∧ q.attempt = r.attempt + 1 ∧ q.phase = .pre ∧ q.regs = { x := r.regs.x }) ∧
      t = { s with engs := t.engs, hret := t.hret, mesh := t.mesh, hl := t.hl, freeCtr := s.freeCtr + 1 })) ∧
  (∀ (s : State) (e : Eng) (r : Run), engOn s e = true → runOf s e = some r → r.open_ = false →
    Completes (.commit e .clean) s (Continues s) ∧ Completes (.endWord e) s (Continues s)) ∧
  ∀ (s : State) (e : Eng) (r : Run) (w : Nat), openWord s e = some (r, w) → r.phase = .post → wEnd w = true →
    wordDone r w = true → wordBad w = false → r.fail = none → r.incs = [] →
    (∀ x, r.regs.exitv = some x → Completes (.endWord e) s fun t => Continues s t ∧ runOf t e = none) ∧
    (r.regs.exitv = none → (eng s e).sliceDue = false → Completes (.endWord e) s fun t =>
      (∃ q, runOf t e = some q ∧ q.task = r.regs.nexta.getD (r.task + 8) ∧ q.phase = .between ∧
        q.regs = { x := r.regs.x } ∧ q.ix = r.ix) ∧ (eng t e).shadow = [] ∧ (eng t e).plane = [] ∧
      t = { s with engs := t.engs })

/-- What returns to an engine and what leaves it. A host load of the running attempt fills its block, from the host port or
from what the slice has returned, under the bytes that it forwards (R359), and one of an abandoned attempt is discarded
(R404); the result of an STC to device memory goes to its register (R367); a store passes from the store buffer to the
die's write gather, which gives an entry of one 32-byte granule to device memory while no other byte changes (R350, R374);
a shift that pauses counts a cycle. -/
def Obligations.EngineTrafficCompletes : Prop :=
  (∀ (s : State) (e : Eng) (n : Nat) (b : BitVec 10) (x : LoadRes), Completes (.loadReturn e n b x) s (Continues s) ∧
    (∀ r, runOf s e = some r → r.attempt ≠ n → r.attempt + 1 ≠ n → Completes (.loadReturn e n b x) s fun t => t = s) ∧
    ∀ r p d, engOn s e = true → runOf s e = some r → r.attempt = n → r.phase = .pre → r.ldr = none →
      (r.loads.find? fun p => p.tbi == b) = some p →
      (p.cxl = false ∧ x = .data d) ∨ (p.cxl = true ∧ ∃ y, retOf s (.load e n b) = some y ∧ y.failed = false ∧
        y.poison = false ∧ y.data = d) → Completes (.loadReturn e n b x) s fun t =>
        runOf t e = some { r with
          loads := r.loads.erase p
          tbIn := mset 0 r.tbIn b.toNat (bytesBlock (loadHost p.fwd p.host (blockBytes d))) } ∧
        t = { s with engs := t.engs, hret := t.hret }) ∧
  (∀ (s : State) (e : Eng) (x : StcRes), Completes (.stcResult e x) s (Continues s) ∧
    ∀ r y a, engOn s e = true → runOf s e = some r → (eng s e).stcs = [y] → y.tgt = .dev a → y.cxl = false →
      isIndex y.vi y.idx y.k r = true → Completes (.stcResult e x) s fun t =>
        runOf t e = some { r with regs := setX r.regs y.reg (if y.ok then 1 else 0) } ∧ (eng t e).stcs = [] ∧
        t = { s with engs := t.engs }) ∧
  (∀ (s : State) (e : Eng) (ok : Bool), Completes (.storeBufferPass e ok) s (Continues s) ∧
    ∀ y x, engOn s e = true → islandRuns s (.hub (kilnOf e)) = true → (eng s e).sb = [y] → (eng s e).tbOut = [] →
      mayLeave s e y = true → y.tgt = .dev x → y.release = false → gather s (kilnOf e) = [] →
      Completes (.storeBufferPass e ok) s fun t =>
        (eng t e).sb = [] ∧ gather t (kilnOf e) = [{ eng := e, vi := y.vi, addr := x, data := y.data }] ∧
        t = { s with engs := t.engs, gathers := t.gathers, freeCtr := s.freeCtr + 1 }) ∧
  (∀ (s : State) (k : Kiln), Completes (.gatherPass k) s (Continues s) ∧
    ∀ g, running s = true → kilnFenced s k = false → islandRuns s (.hub k) = true → gather s k = [g] →
      memOpen s k.val g.addr g.data.length = true → (granules g.addr g.data.length).length = 1 →
      Completes (.gatherPass k) s fun t => gather t k = [] ∧ MemoryHolds s t g.addr g.data ∧
        t = { s with mem := t.mem, poison := t.poison, engs := t.engs, gathers := t.gathers, freeCtr := s.freeCtr + 2 }) ∧
  ∀ (s : State) (e : Eng), Completes (.shiftStall e) s (Continues s) ∧
    ∀ r w, openWord s e = some (r, w) → Completes (.shiftStall e) s fun t =>
      eng t e = { eng s e with run := some { r with cycles := r.cycles + 1 } } ∧ t = { s with engs := t.engs }

/-- What memory controllers find as they read (R422 to R425). A read of sound memory changes nothing; a corrected error is
counted and reported; an uncorrectable one is counted, its address kept, and its granule poisoned; scrubbing advances
by 32 bytes; a failed island fences its kiln die (R428); the window's counts start afresh. -/
def Obligations.MemoryReadsComplete : Prop :=
  (∀ (s : State) (a : BitVec 38) (x : Ecc), Completes (.memRead a x) s (Continues s) ∧
    Completes (.memRead a .clean) s (fun t => t = s) ∧
    let k := kilnOfChan (chanNo (chanOf (fget s .interleave) (a.toNat / 32 * 32)))
    (running s = true → islandRuns s (.memory k) = true → isHole s (a.toNat / 32 * 32) = false →
      poisoned s (a.toNat / 32 * 32) = false →
      (Completes (.memRead a .corrected) s fun t =>
        fget t .eccCorrected = min (fget s .eccCorrected + 1) (2 ^ 32 - 1) ∧ FieldsBut s t [.eccCorrected, .missed] ∧
        t = { s with fld := t.fld, flt := t.flt }) ∧
      (ueCount s k < 63 → Completes (.memRead a .uncorrectable) s fun t =>
          poisoned t a.toNat = true ∧ fget t .lastUe = a.toNat / 32 * 32 ∧
          fget t .eccUncorrected = min (fget s .eccUncorrected + 1) (2 ^ 32 - 1) ∧
          FieldsBut s t [.eccUncorrected, .lastUe, .missed] ∧
          (∀ b, b / 32 ≠ a.toNat / 32 → poisoned t b = poisoned s b) ∧
          t = { s with fld := t.fld, flt := t.flt, poison := t.poison, ueWindow := t.ueWindow }))) ∧
  (∀ (s : State) (c : Chan) (x : Ecc), Completes (.scrubRead c x) s (Continues s) ∧
    (running s = true → kilnFenced s (kilnOfChan c) = false → islandRuns s (.memory (kilnOfChan c)) = true →
      fget s .scrubHours ≠ 0 → Completes (.scrubRead c .clean) s fun t =>
        mget 0 t.scrubAt c.val = (mget 0 s.scrubAt c.val + 32) % chanBytes ∧ t = { s with scrubAt := t.scrubAt })) ∧
  (∀ (s : State) (k : Kiln) (n : BitVec 8), Completes (.memFailed k n) s (Continues s) ∧
    (running s = true → kilnFenced s k = false → n ≠ 0 → Completes (.memFailed k n) s fun t => kilnFenced t k = true)) ∧
  ∀ (s : State) (k : Kiln), Completes (.memUeWindowEnd k) s fun t => ueCount t k = 0 ∧ t = { s with ueWindow := t.ueWindow }

/-- Fabric ports come up and go down, and hear their neighbours (R449, R461 to R463, R486). A loss takes a live port DOWN
with its cause, or HELD at the eighth entry from UP within 60 s (R462); a hello is recorded and gives the port its
state. -/
def Obligations.PortCommandsComplete : Prop :=
  ∀ (s : State) (p : Port), portOn s p = true →
    let x := getPort s p
    let recent := (x.downs.filter fun n => decide (s.nowNs < n + 60000000000)) ++ (if x.st = .up then [s.nowNs] else [])
    let lost := if x.st = .up ∧ 8 ≤ recent.length then PState.held else .down
    (∀ v, portEnabled s p = true → x.linkUp = false → x.st ≠ .held → speedOk s p v.toNat = true →
      Completes (.portLinkUp p v) s fun t =>
        getPort t p = { x with
          linkUp := true, speed := v.toNat, upAt := s.nowNs, heard := false
          st := if roleOf s p = 1 then .ingest else .init } ∧
        (∀ q, q ≠ p → getPort t q = getPort s q) ∧ flueOf p ∈ t.refSeen ∧
        t = { s with ports := t.ports, refSeen := t.refSeen }) ∧
    (x.linkUp = true → Completes (.portLinkLoss p) s (Continues s) ∧
      (x.st.live = true → s.waitq = [] → x.cross = [] → Completes (.portLinkLoss p) s fun t =>
        (getPort t p).st = lost ∧ (getPort t p).cause = 1 ∧ (getPort t p).linkUp = false ∧
        (getPort t p).downs = recent ∧ (∀ q, q ≠ p → getPort t q = getPort s q) ∧ FieldsBut s t [.discards, .missed] ∧
        t = { s with ports := t.ports, fld := t.fld, flt := t.flt })) ∧
    (helloLate s p = false → Completes (.helloLoss p) s fun t => t = s) ∧
    (helloLate s p = true → x.st.live = true → s.waitq = [] → x.cross = [] → Completes (.helloLoss p) s fun t =>
      (getPort t p).st = lost ∧ (getPort t p).cause = 2 ∧ (getPort t p).heard = false ∧
      (∀ q, q ≠ p → getPort t q = getPort s q) ∧ FieldsBut s t [.discards, .missed] ∧
      t = { s with ports := t.ports, fld := t.fld, flt := t.flt }) ∧
    (helloOn s p = true →
      (Completes (.helloTx p) s fun t => t = { s with out := s.out ++ [.helloFrame p (helloOf s p)] }) ∧
      ∀ h, Completes (.helloRx p h) s (Continues s) ∧
        (helloLate s p = false → helloState s p h = x.st → Completes (.helloRx p h) s fun t =>
          getPort t p = { x with nbr := some h, heard := true, heardAt := s.nowNs } ∧
          (∀ q, q ≠ p → getPort t q = getPort s q) ∧ t = { s with ports := t.ports }) ∧
        (helloLate s p = false → helloState s p h = .up → x.st ≠ .up → s.waitq = [] → Completes (.helloRx p h) s fun t =>
          (getPort t p).st = .up ∧ (getPort t p).nbr = some h ∧ (getPort t p).txSeq = 0 ∧ (getPort t p).rxSeq = 4095 ∧
          (getPort t p).hold = [] ∧ (∀ q, q ≠ p → getPort t q = getPort s q) ∧ t = { s with ports := t.ports })) ∧
    (roleOf s p = 2 → x.linkUp = true → x.st = .init → x.heard = false → Completes (.ingestFallback p) s fun t =>
      getPort t p = { x with st := .ingest } ∧ (∀ q, q ≠ p → getPort t q = getPort s q) ∧ t = { s with ports := t.ports })

/-- Delivery over one hop (R453 to R458). LINK returns credits and acknowledges; a sequenced frame in order is accepted,
one in error asks for a replay, and a replay resends every held frame in order and counts them. A frame or a LINK that is
not well formed names nothing of the device and is refused. -/
def Obligations.HopCommandsComplete : Prop :=
  (∀ (s : State) (p : Port), linkOn s p = true →
    let x := getPort s p
    let cred := (List.range 8).map fun v => (mget 0 x.sent v + mget 0 x.owed v) % 4096
    (Completes (.linkTx p) s fun t =>
      t.out = s.out ++ [.linkFrame p cred x.rxSeq x.waitSeq] ∧ (getPort t p).owed = [] ∧
      (∀ v, v < 8 → mget 0 (getPort t p).sent v = cred.getD v 0) ∧
      (∀ q, q ≠ p → getPort t q = getPort s q) ∧ t = { s with ports := t.ports, out := t.out }) ∧
    (∀ l n k, l.length = 8 → Completes (.linkRx p l n k) s (Continues s)) ∧
    (∀ l n, l.length = 8 → s.waitq = [] → (∀ q v, v < 8 → mget 0 (getPort s q).owed v < 16) →
      Completes (.linkRx p l n false) s fun t =>
        (∀ v, v < 8 → mget 0 (getPort t p).back v = (l.getD v 0).toNat) ∧
        (getPort t p).hold = coverHold n.toNat x.hold ∧ (∀ q, q ≠ p → getPort t q = getPort s q) ∧
        t = { s with ports := t.ports }) ∧
    (∀ l n k, l.length ≠ 8 → exec (.linkRx p l n k) s = .refused .noSuchUnit) ∧
    Completes (.replayTimeout p) s (Continues s) ∧
    (x.hold ≠ [] → (∀ q ∈ x.hold, q.2 < 8) → Completes (.replayTimeout p) s fun t =>
      t.out = s.out ++ x.hold.map (fun q => Emit.frame p q.1) ∧
      (getPort t p).hold = x.hold.map (fun q => (q.1, q.2 + 1)) ∧ Counted s t .replays p.val 16 x.hold.length ∧
      t = { s with ports := t.ports, out := t.out, fld := t.fld }) ∧
    ∀ f c, f.ok = true → 2 ≤ f.kind.toNat →
      (badFrame f = false → f.lseq.toNat = (x.rxSeq + 1) % 4096 → Completes (.seqFrameRx p f .good) s fun t =>
        getPort t p = { x with rxSeq := (x.rxSeq + 1) % 4096, waitSeq := false } ∧
        (∀ q, q ≠ p → getPort t q = getPort s q) ∧ t = { s with ports := t.ports }) ∧
      (badFrame f = false → c = .bad ∨ f.lseq.toNat ≠ (x.rxSeq + 1) % 4096 → Completes (.seqFrameRx p f c) s fun t =>
        (getPort t p).rxSeq = x.rxSeq ∧ (getPort t p).waitSeq = true ∧
        t.out = s.out ++ [.linkFrame p cred x.rxSeq true] ∧ t = { s with ports := t.ports, out := t.out }) ∧
      (badFrame f = true → Completes (.seqFrameRx p f c) s fun t =>
        (getPort t p).waitSeq = true ∧ Counted s t .discards p.val 16 1 ∧
        t = { s with ports := t.ports, out := t.out, fld := t.fld })) ∧
  ∀ (s : State) (p : Port) (f : Frame) (c : Fcs) (q : Option Port), f.ok = false →
    exec (.seqFrameRx p f c) s = .refused .noSuchUnit ∧ exec (.routeFrame f q) s = .refused .noSuchUnit ∧
    exec (.writeRx f) s = .refused .noSuchUnit

/-- Routed frames of a source unit (R464, R467): one that can leave is sent with HOPS less by 1 and the port's LSEQ, and
the replay buffer keeps it; one that has no way yet waits; one that has none is counted in UNREACH. Frames that a port
does not carry are counted, and PAUSE and CNP ignored (R447). -/
def Obligations.RoutingCommandsComplete : Prop :=
  (∀ (s : State) (f : Frame) (q : Option Port), f.ok = true → Completes (.routeFrame f q) s (Continues s)) ∧
  (∀ (s : State) (f : Frame), f.ok = true → running s = true → nodeOk s = true → badFrame f = false →
    2 ≤ f.kind.toNat → anyFlue s = true → f.epoch = s.epochCur → (∀ q v, v < 8 → mget 0 (getPort s q).owed v < 16) →
    (∀ p g, decideRoute s f none = .send p g →
      let y := { g with hops := g.hops - 1, lseq := BitVec.ofNat 12 (getPort s p).txSeq }
      Completes (.routeFrame f none) s fun t =>
        t.out = s.out ++ [.frame p y] ∧ (getPort t p).hold = (getPort s p).hold ++ [(y, 1)] ∧
        (getPort t p).txSeq = ((getPort s p).txSeq + 1) % 4096 ∧ (∀ q, q ≠ p → getPort t q = getPort s q) ∧
        t = { s with ports := t.ports, out := t.out }) ∧
    (decideRoute s f none = .hold → Completes (.routeFrame f none) s fun t =>
      t = { s with waitq := s.waitq ++ [(f, none)] }) ∧
    (decideRoute s f none = .deliver → Completes (.routeFrame f none) s fun t => t = s) ∧
    (decideRoute s f none = .drop true → Completes (.routeFrame f none) s fun t =>
      Counted s t .unreach 0 16 1 ∧ t = { s with fld := t.fld })) ∧
  ∀ (s : State) (p : Port), portOn s p = true → (getPort s p).linkUp = true →
    Completes (.otherFrameRx p .pause) s (fun t => t = s) ∧ Completes (.otherFrameRx p .cnp) s (fun t => t = s) ∧
    (Completes (.otherFrameRx p .unknownType) s fun t =>
      Counted s t .discards p.val 16 1 ∧ t = { s with fld := t.fld }) ∧
    (roleOf s p = 0 → Completes (.otherFrameRx p .roceOnFabric) s fun t =>
      Counted s t .discards p.val 16 1 ∧ t = { s with fld := t.fld }) ∧
    (roleOf s p = 1 → Completes (.otherFrameRx p .vfpOnIngest) s fun t =>
      Counted s t .discards p.val 16 1 ∧ t = { s with fld := t.fld })

/-- Remote writes (R479 to R484). At the peer a WRITE that passes every window check lands whole and one that fails any
leaves memory as it was; either is acknowledged with its code, and ACKs leave in order. At the requester an ACK or the
50 ms deadline answers a WRITE, and an ACK that comes later is ignored. -/
def Obligations.RemoteWritesComplete : Prop :=
  (∀ (s : State) (f : Frame), f.ok = true → forMe s f = true → badFrame f = false → f.kind = 2 → s.ackq.length < 4096 →
    landOpen s f = true →
    let w := fwinOf s (fWindow f)
    let code := windowCode s (fWindow f) f.src.toNat (fRkey f) (fOff f) f.payload.length
    Completes (.writeRx f) s fun t =>
      Continues s t ∧
      t.ackq = s.ackq ++ [ackFrame s f.src.toNat (fWindow f) (fCtx f) (fOff f) code f.payload.length] ∧
      (code = 0 → MemoryHolds s t (winAddr s w (fOff f)) f.payload ∧
        t = { s with mem := t.mem, poison := t.poison, engs := t.engs, ackq := t.ackq }) ∧
      (code ≠ 0 → t = { s with ackq := t.ackq })) ∧
  (∀ s : State, (s.ackq = [] → Completes .writeAckTx s fun t => t = s) ∧
    ∀ f l, s.ackq = f :: l → running s = true → nodeOk s = true → anyFlue s = true →
      Completes .writeAckTx s fun t => Continues s t ∧ t.ackq = l) ∧
  (∀ (s : State) (f : Frame), forMe s f = true → badFrame f = false → f.kind = 3 →
    let x := getCtx s (fCtx f)
    ∀ p, (x.pend.find? fun p => p.1 == fOff f && p.2.1 == fAckLen f) = some p →
      (p.2.2.1 + 50000000 ≤ s.nowNs → Completes (.ackRx f) s fun t => t = s) ∧
      (s.nowNs < p.2.2.1 + 50000000 → Completes (.ackRx f) s (Continues s)) ∧
      (s.nowNs < p.2.2.1 + 50000000 → x.all = false → fCode f = 0 → Completes (.ackRx f) s fun t =>
        getCtx t (fCtx f) = { x with pend := x.pend.erase p } ∧ t = { s with ctxs := t.ctxs })) ∧
  ∀ (s : State) (c : BitVec 12) (o : BitVec 48), running s = true →
    let x := getCtx s c.toNat
    Completes (.writeTimeout c o) s (Continues s) ∧
    ∀ p, (x.pend.find? fun p => p.1 == o.toNat) = some p →
      (s.nowNs < p.2.2.1 + 50000000 → Completes (.writeTimeout c o) s fun t => t = s) ∧
      (p.2.2.1 + 50000000 ≤ s.nowNs → x.all = false → x.fail = none → Completes (.writeTimeout c o) s fun t =>
        getCtx t c.toNat = { x with pend := x.pend.erase p, fail := some (p.2.2.2, o.toNat) } ∧
        t = { s with ctxs := t.ctxs })

/-- Epochs (R471): FLIP exchanges CURRENT where the device is armed and opens the grace; ARM during the grace does
nothing; the grace ends. -/
def Obligations.EpochCommandsComplete : Prop :=
  (∀ s : State, epochOpen s vi0 = true →
    (s.grace = false → Completes (.epochArm vi0) s fun t => t = { s with epochArm := true }) ∧
    (s.grace = true → Completes (.epochArm vi0) s fun t => t = s) ∧
    (s.epochArm = true → ∀ b, Completes (.epochFlip vi0 b) s fun t =>
      t = { s with epochCur := !s.epochCur, epochArm := false, grace := true }) ∧
    (s.epochArm = false → Completes (.epochFlip vi0 false) s fun t => t = s) ∧
    (s.epochArm = false → s.grace = false → Completes (.epochFlip vi0 true) s fun t => t = { s with epochArm := true })) ∧
  (∀ (s : State) (v : Vi) (b : Bool), v ≠ vi0 →
    Completes (.epochArm v) s (fun t => t = s) ∧ Completes (.epochFlip v b) s fun t => t = s) ∧
  ∀ s : State, Completes .graceEnd s fun t => t = { s with grace := false }
/-- RoCEv2 ingest (R432 to R448). An in-sequence packet that meets no row of Table: Packet outcomes lands whole and moves the
queue pair on; a packet whose ICRC fails is counted by its queue pair, and one at a port that takes no ingest by its port;
the ACK that is due is sent with MSN; the oldest entry of a VI becomes visible; PFC pauses and frees priorities. -/
def Obligations.IngestCommandsComplete : Prop :=
  (∀ (s : State) (p : Port) (k : Packet), Completes (.ingestPacket p k) s (Continues s) ∧
    (portOn s p = true → carriesRoce s p = true → ingestOn s p = false → Completes (.ingestPacket p k) s fun t =>
      Counted s t .discards p.val 16 1 ∧ t = { s with fld := t.fld }) ∧
    ∀ q, portOn s p = true → carriesRoce s p = true → ingestOn s p = true → k.bytes.toNat < 384 * 1024 →
      qpOf k.qpn.toNat = some q → (getQp s q).bound = true →
      let x := getQp s q
      let win := mget {} s.iwin x.window
      (k.icrcOk = false → Completes (.ingestPacket p k) s fun t =>
        getQp t q = { x with drops := min (x.drops + 1) (2 ^ 32 - 1) } ∧ t = { s with qps := t.qps, ports := t.ports }) ∧
      (k.icrcOk = true → k.addrOk = true → x.port = p.val → x.rtr = true → k.ce = false → x.epsn = k.psn.toNat →
        ∀ w, wrOf k.opcode.toNat = some w → w.imm = false → packetOutcome s x k w = .accept → landsOpen s q k w = true →
          let m := msgOf x w k
          Completes (.ingestPacket p k) s fun t =>
            MemoryHolds s t ((allotDev s .ring (viNo win.vi)).1 + win.base + m.1 + m.2.2) k.payload ∧
            (getQp t q).epsn = (x.epsn + 1) % 2 ^ 24 ∧
            (getQp t q).msn = (if w.ends then (x.msn + 1) % 2 ^ 24 else x.msn) ∧
            (w.ends = true ∨ k.ackReq = true → (getQp t q).ackDue = true) ∧
            t = { s with mem := t.mem, poison := t.poison, engs := t.engs, qps := t.qps, ports := t.ports })) ∧
  (∀ (s : State) (q : Grp), (getQp s q).bound = true → (getQp s q).ackDue = true →
    let x := getQp s q
    portOn s (portNo x.port) = true → pausedOn s (portNo x.port) x.pcp = false → Completes (.ingestAck q) s fun t =>
      t.out = s.out ++ [.roce (portNo x.port) x.pcp (.ack x.destQpn ((x.epsn + 2 ^ 24 - 1) % 2 ^ 24) x.msn)] ∧
      getQp t q = { x with ackDue := false, sinceAck := 0 } ∧ t = { s with qps := t.qps, out := t.out }) ∧
  (∀ (s : State) (v : Vi) (ok : Bool), Completes (.ingestCompletion v ok) s (Continues s) ∧
    ∀ c w q l, (getVi s v).ingest = (c, w, q) :: l → ringOn s v = true → ingestServed s v = true → mayMaster s v = true →
      entrySlot s v c = true → cplInAllot s v = true → viaHome s v = false → (getVi s v).outq = [] →
      fget s .ingestIrq v.val ≠ 1 → Completes (.ingestCompletion v true) s fun t =>
        (getVi t v).ingest = l ∧ (getVi t v).piCpl = (getVi s v).piCpl + 1 ∧
        (getVi t v).reserved = (if c.status = .ok then (getVi s v).reserved - 1 else (getVi s v).reserved) ∧
        (getVi t v).line1Due = true ∧ t = { s with vis := t.vis, out := t.out }) ∧
  ∀ (s : State) (p : Port), portOn s p = true →
    let x := getPort s p
    (x.xoff = true → 256 * 1024 ≤ x.rxBytes → Completes (.pfcXoffRepeat p) s fun t =>
      t = { s with out := s.out ++ (pfcPrios s).map fun q => .pfc p q true }) ∧
    (∀ n : BitVec 20, x.xoff = true → n.toNat < 256 * 1024 → Completes (.pfcXon p n) s fun t =>
      t.out = s.out ++ ((pfcPrios s).map fun q => .pfc p q false) ∧
      getPort t p = { x with rxBytes := n.toNat, xoff := false } ∧ t = { s with ports := t.ports, out := t.out }) ∧
    (∀ (b : BitVec 8) (n : BitVec 16), facesAppliance s p = true → n ≠ 0 → Completes (.pfcRx p b n) s fun t =>
      (∀ q, q < 8 → mget 0 (getPort t p).paused q = if bitAt b.toNat q then n.toNat else mget 0 x.paused q) ∧
      t = { s with ports := t.ports }) ∧
    (∀ b : BitVec 8, facesAppliance s p = true → Completes (.pfcRx p b 0) s fun t =>
      Continues s t ∧ ∀ q, q < 8 → bitAt b.toNat q = true → mget 0 (getPort t p).paused q = 0) ∧
    ∀ q : Fin 8, Completes (.pfcPauseExpiry p q) s fun t =>
      mget 0 (getPort t p).paused q.val = 0 ∧
      t.out = s.out ++ ((x.heldTx.filter fun y => y.1 == q.val).map fun y => .roce p q.val y.2) ∧
      (getPort t p).heldTx = (x.heldTx.filter fun y => y.1 != q.val) ∧ t = { s with ports := t.ports, out := t.out }

/-- The start of a collective. A COLL that fails a launch check ends with that row's status; one that passes writes LAST_SEQ
and waits for its context (R496, R497); the first that waits for its island is launched; one whose island has been fenced
ends with FENCED_UNIT. -/
def Obligations.CollectiveStartsComplete : Prop :=
  ∀ (s : State) (v : Vi) (i : BitVec 32) (f : Fly), fresh s v i 0x09 = some f →
    let g := cGroup f.desc
    (waitsColl s v f.idx = false → entryOpen s g = true →
      (∀ x, collStop s v f = some x → Completes (.coll v i) s fun t => Ended t v i x ∧ t = { s with vis := t.vis }) ∧
      (collStop s v f = none → seqOk s f.desc = true → Completes (.coll v i) s fun t =>
        t.collWait = s.collWait ++ [(v, f.idx)] ∧ MemoryHolds s t (groupAddr s g + 0x3C) (natBytes 4 (cSeq f.desc)) ∧
        t = { s with collWait := t.collWait, mem := t.mem, poison := t.poison, engs := t.engs }) ∧
      (collStop s v f = none → seqOk s f.desc = false → Completes (.coll v i) s fun t =>
        Continues s t ∧ Ended t v i (openC .collMismatch (gRank s g)))) ∧
    (waitsColl s v f.idx = true →
      (collServed s g = false → Completes (.collLaunch v i) s fun t =>
        Ended t v i (openC .fencedUnit) ∧
        t = { s with vis := t.vis, collWait := s.collWait.filter fun w => w != (v, f.idx) }) ∧
      (collServed s g = true → canLaunch s v f.idx g = true → entryOpen s g = true →
        Completes (.collLaunch v i) s fun t =>
          Continues s t ∧ t.collWait = s.collWait.filter fun w => w != (v, f.idx)) ∧
      (collServed s g = true → canLaunch s v f.idx g = false → Completes (.collLaunch v i) s fun t => t = s))

/-- The frames of a collective (R501, R503, R507, R519). An ARRIVE or GRANT that comes before the launch is kept, which is
the model's choice of log entry 63; one that comes in flight is noted until the collective ends, and an ARRIVE whose
signature differs ends the member with COLL_MISMATCH; RELEASE ends the wait of a barrier; an ABORT ends the member with
COLL_ABORT_PEER and the rank it names; data of an edge is kept until the collective ends. -/
def Obligations.CollectiveFramesComplete : Prop :=
  (∀ (s : State) (g : Grp) (q : BitVec 16) (n : BitVec 18),
    let c := getColl s g
    (∀ x l, Completes (.arrive g q n x l) s (Continues s) ∧
      (collOn s g = true → inFlight s g q.toNat = false → Completes (.arrive g q n x l) s fun t =>
        getColl t g = { c with early := c.early ++ [(q.toNat, n.toNat, x.toNat, l)] } ∧ t = { s with colls := t.colls })) ∧
    (∀ x, Completes (.grant g q n x) s (Continues s) ∧
      (collOn s g = true → inFlight s g q.toNat = false → Completes (.grant g q n x) s fun t =>
        getColl t g = { c with earlyGr := c.earlyGr ++ [(q.toNat, n.toNat, x.toNat)] } ∧
        t = { s with colls := t.colls })) ∧
    (∀ l, Completes (.release g q n l) s (Continues s)) ∧
    (∀ x y, Completes (.abort g q n x y) s (Continues s)) ∧
    ∀ up a o z x l, Completes (.collDataRx g q n up a o z x l) s (Continues s)) ∧
  (∀ (s : State) (g : Grp) (q : BitVec 16) (n : BitVec 18) (l : List Byte), collOn s g = true →
    inFlight s g q.toNat = true → expired s g = false → (getColl s g).parent = some n.toNat → (getColl s g).released = false →
    cKind (getColl s g).desc = 0 → (getColl s g).kids = [] → (getColl s g).arriveSent = true →
    (getColl s g).written = [] → underWay s (jobWrites (collVi (getColl s g)) (getColl s g).idx) = false →
    Completes (.release g q n l) s fun t =>
      (getColl t g).released = true ∧ collDone t (getColl t g) = true ∧ t = { s with colls := t.colls }) ∧
  (∀ (s : State) (g : Grp) (q : BitVec 16) (n : BitVec 18), collOn s g = true → inFlight s g q.toNat = true →
    let c := getColl s g
    (∀ (x : BitVec 32) (l : List Byte) j, nodeEdge { c with parent := none } n.toNat = some (j + 1) → j ∉ c.arrived →
      (x.toNat = signature c → Completes (.arrive g q n x l) s fun t =>
        (getColl t g).active = false ∨ j ∈ (getColl t g).arrived) ∧
      ∀ f, x.toNat ≠ signature c → expired s g = false → flyOf s (collVi c) c.idx = some f → f.fin = none →
        Completes (.arrive g q n x l) s fun t =>
          (getColl t g).active = false ∧ Ended t (collVi c) c.idx.idx (openC .collMismatch (edgeRank c (j + 1)))) ∧
    (∀ (x : BitVec 32) e, nodeEdge c n.toNat = some e → Completes (.grant g q n x) s fun t =>
      (getColl t g).active = false ∨ grantsOf (getColl t g) e = grantsOf c e + x.toNat) ∧
    ∀ up a o z x l e, isBad c = false → nodeEdge c n.toNat = some e → up = (e != 0) →
      Completes (.collDataRx g q n up a o z x l) s fun t =>
        (getColl t g).active = false ∨ ∀ k i, k < l.length → i ∈ edgeIn c e →
          i.1 ≤ a.toNat * cSherd c.desc + o.toNat + k → a.toNat * cSherd c.desc + o.toNat + k < i.2 →
          mget none (getColl t g).rx (rxKey e (a.toNat * cSherd c.desc + o.toNat + k)) ≠ none) ∧
  ∀ (s : State) (g : Grp) (q : BitVec 16) (n : BitVec 18) (x : Byte) (y : BitVec 32) (f : Fly), collOn s g = true →
    inFlight s g q.toNat = true →
    let c := getColl s g
    s.nowNs < c.deadline → x ≠ 0x23 → y.toNat < 2 ^ 18 → flyOf s (collVi c) c.idx = some f → f.fin = none →
    Completes (.abort g q n x y) s fun t =>
      (getColl t g).active = false ∧ Ended t (collVi c) c.idx.idx (openC .collAbortPeer y.toNat)

/-- A collective's staging and its end. A final sherd goes from DST into its slot and its flag is SET (R514 to R516); the
deadline aborts the member with COLL_TIMEOUT, and before it nothing happens (R518); a finished collective ends its COLL
with OK and the bytes it wrote, or with the failure of a write of them. -/
def Obligations.CollectiveEndsComplete : Prop :=
  ∀ (s : State) (g : Grp), Completes (.stagePlace g) s (Continues s) ∧ Completes (.collDeadline g) s (Continues s) ∧
    Completes (.collComplete g) s (Continues s) ∧
    let c := getColl s g
    (expired s g = false → Completes (.collDeadline g) s fun t => t = s) ∧
    (collRuns s g = true → ∀ f, flyOf s (collVi c) c.idx = some f → f.fin = none →
      (expired s g = true → Completes (.collDeadline g) s fun t =>
        (getColl t g).active = false ∧ Ended t (collVi c) c.idx.idx (openC .collTimeout)) ∧
      (c.active = true → collDone s c = true → f.fail = none → Completes (.collComplete g) s fun t =>
        (getColl t g).active = false ∧ Ended t (collVi c) c.idx.idx (okC (destLen c.desc c.members c.rank)) ∧
        t = { s with
          vis := t.vis, colls := t.colls, collLast := t.collLast, hret := t.hret, mesh := t.mesh, hl := t.hl
          hblocks := t.hblocks }) ∧
      ∀ x, c.active = true → collDone s c = true → f.fail = some x → Completes (.collComplete g) s fun t =>
        (getColl t g).active = false ∧ Ended t (collVi c) c.idx.idx x) ∧
    (collRuns s g = true → c.active = true → c.launched = true → expired s g = false →
      ∀ e b i l u o, cStaged c.desc = true → isBad c = false → flagEng s c = some e →
        flagWindow s (.coll (fluef g.val)) (collVi c) (cFlagBase c.desc) = some b →
        (mySherds c).find? (placeable s c e b) = some i →
        let x := sherdOf c.desc (destExt c.desc c.members c.rank) i
        let j := i % max 1 c.stageSlots
        srcBytes g.val c (cDst c.desc + destOff c.desc c.rank ((x.head?.map Prod.fst).getD 0)) (extLen x) s = (.ok l, u) →
        spWindow u (.coll (fluef g.val)) (collVi c) (c.stageSp * 2 ^ 17 + j * cSherd c.desc) l.length = some o →
        Completes (.stagePlace g) s fun t =>
          ScratchHolds s t e o l ∧ flagAt t e (b + j) = .set ∧ (getColl t g).placed = c.placed ++ [i] ∧ t.mem = s.mem)

/-- What each message makes of a holder's line (Table: Holder, home messages; R179 to R189): the line's next state and what
the holder sends. The line has no access waiting, but where one is named, and no line of the holder waits for a request or a
Put to leave. -/
def Obligations.HolderMessagesTakeEffect : Prop :=
  ∀ (s : State) (h : Holder) (l : LineA), holderOn s h = true → h.val < 16 →
    (∀ m, (getHl s h m).parked = false ∧ (getHl s h m).leave = false) →
    let x := getHl s h l
    let dat := some (x.data, dirtySt x.st, x.poison)
    let resp := holderPacket h .response (.dataresp h l x.data (dirtySt x.st) x.poison) (some x.data)
    let frame := fun (t : State) => t.dir = s.dir ∧ (∀ k m, hkey k m ≠ hkey h l → getHl t k m = getHl s k m) ∧
      t = { s with hl := t.hl, engs := t.engs, out := t.out, mesh := t.mesh }
    let goes := fun (c : Instr) (st : HSt) (l' : List MeshPkt) (o : List Emit) (t : State) =>
      getHl t h l = (if st = .i then {} else { x with st := st }) ∧ Sent c s t l' o ∧ frame t
    (x.waits = [] →
      (x.st = .m → ∀ q ∈ [(Instr.fwds h l, HSt.o), (.downs h l, .s), (.fwdm h l, .i), (.inv h l, .i)],
        arrives s q.1 = true → Completes q.1 s (goes q.1 q.2 [resp] [.toHome h l "DataResp" 0 dat])) ∧
      (x.st = .s → arrives s (.inv h l) = true → Completes (.inv h l) s
        (goes (.inv h l) .i [holderPacket h .response (.invack h l) none] [.toHome h l "InvAck" 0 none])) ∧
      (x.st = .s → arrives s (.ownx h l) = true → Completes (.ownx h l) s (goes (.ownx h l) .o [] [])) ∧
      (x.st = .smG → arrives s (.grantm h l) = true → Completes (.grantm h l) s
        (goes (.grantm h l) .m [holderPacket h .response (.done h l) none] [.toHome h l "Done" 0 none])) ∧
      (x.st = .miA → arrives s (.putack h l) = true → Completes (.putack h l) s (goes (.putack h l) .i [] [])) ∧
      (x.st = .imD → arrives s (.retry h l) = true → Completes (.retry h l) s fun t =>
        getHl t h l = { x with age := x.age + 1 } ∧
        Sent (.retry h l) s t [holderPacket h .request (.getm h l (BitVec.ofNat 4 (min (x.age + 1) 15))) none]
          [.toHome h l "GetM" (x.age + 1) none] ∧ frame t) ∧
      (x.st = .m → arrives s (.sliceLoad h l false) = true → Completes (.sliceLoad h l false) s fun t =>
        Sent (.sliceLoad h l false) s t [] [.loadDone h l x.data x.poison] ∧ (getHl t h l).st = .m ∧
        (getHl t h l).data = x.data ∧ (getHl t h l).waits = [] ∧
        t = { s with hl := t.hl, out := t.out, mesh := t.mesh, hret := t.hret, lruCtr := s.lruCtr + 1 }) ∧
      (x.st = .i → hasRoom s h l = true → mayRequest s h l = true → arrives s (.sliceLoad h l false) = true →
        Completes (.sliceLoad h l false) s fun t =>
          Sent (.sliceLoad h l false) s t [holderPacket h .request (.gets h l 0) none] [.toHome h l "GetS" 0 none] ∧
          (getHl t h l).st = .isD ∧ (getHl t h l).waits = [(.load false, whoOf s (.sliceLoad h l false))] ∧
          t = { s with hl := t.hl, out := t.out, mesh := t.mesh })) ∧
    (∀ d b w, x.st = .i → x.waits = [(.load true, w)] → arrives s (.datacur h l d b) = true →
      Completes (.datacur h l d b) s fun t =>
        Sent (.datacur h l d b) s t [holderPacket h .response (.done h l) none]
          [.loadDone h l d b, .toHome h l "Done" 0 none] ∧ (getHl t h l).st = .i ∧ (getHl t h l).waits = [] ∧
        t.hret = s.hret ++ (if w = .other then [] else [{ h := h, line := l, who := w, data := d, poison := b }]) ∧
        t = { s with hl := t.hl, engs := t.engs, out := t.out, mesh := t.mesh, hret := t.hret }) ∧
    (∀ w, x.st = .isD → x.waits = [(.load false, w)] → w = .other ∨ (∃ m, w = .source m) → arrives s (.nackp h l) = true →
      Completes (.nackp h l) s fun t =>
        Sent (.nackp h l) s t [] [.loadDone h l 0 true] ∧ (getHl t h l).st = .i ∧ (getHl t h l).waits = [] ∧
        t.hret = s.hret ++ (if w = .other then [] else [{ h := h, line := l, who := w, poison := true }]) ∧
        t = { s with hl := t.hl, engs := t.engs, out := t.out, mesh := t.mesh, hret := t.hret })

/-- What the home makes of responses, snoops and the host's answers (R179 to R200): the reply that ends the gathering, the
return to IDLE, the snoop responses of a line that no holder can change, the reissue after GO-I, NackP after GO-Err, the
write pull, and the timeout under either FAIL_MODE. No flag of a VI waits for the answer. -/
def Obligations.HomeAnswersTakeEffect : Prop :=
  ∀ (s : State) (l : LineA), homeRuns s = true → NoFlags s →
    let d := getDir s l
    let only := fun (t : State) => ∀ m, m ≠ l → getDir t m = getDir s m
    let noneWait := ∀ a ∈ s.aged, a.line.toNat % 65536 ≠ l.toNat % 65536
    (∀ h r b y z, d.hs = .waitLocal → d.await = [h] → d.todo = some (.reply .getS r false) → d.data = none →
      d.hostData = none → d.snoop = none → d.req = some (.getS, r) → arrives s (.dataresp h l b y z) = true →
      Completes (.dataresp h l b y z) s fun t =>
        Sent (.dataresp h l b y z) s t [homePacket r .response (.datas r l b z) (some b)]
          [.toHolder r l "DataS" (some (b, z))] ∧
        (getDir t l).hs = .waitDone ∧ r ∈ (getDir t l).p ∧ only t ∧ t = { s with dir := t.dir, out := t.out, mesh := t.mesh }) ∧
    (∀ h k, d.hs = .waitDone → d.req = some (k, h) → d.held = [] → noneWait → (d.h = .x → d.owner.isSome = true) →
      arrives s (.done h l) = true → Completes (.done h l) s fun t =>
        (getDir t l).hs = .idle ∧ (getDir t l).p = d.p ∧ only t ∧ Sent (.done h l) s t [] [] ∧
        t = { s with dir := t.dir, mesh := t.mesh }) ∧
    ((getHp s 0).cxl = true → s.board.pwrgood = true → s.resetting = none → d.hs = .idle →
      (d.h = .i → ∀ c ∈ [Instr.snpdata l, .snpinv l, .snpcur l], Completes c s fun t =>
        t = { s with out := s.out ++ [.snoopRsp l "RspIHitI" none] }) ∧
      (d.h = .s → Completes (.snpdata l) s (fun t => t = { s with out := s.out ++ [.snoopRsp l "RspSHitSE" none] }) ∧
        Completes (.snpcur l) s fun t => t = { s with out := s.out ++ [.snoopRsp l "RspVHitV" none] })) ∧
    (∀ r g b, d.hs = .waitHost → d.await = [] → d.req = some (.getS, r) → d.snoop = none → d.h = .i →
      Completes (.goGrant l g b false) s fun t =>
        t.out = s.out ++ [.toHolder r l "DataS" (some (b, false))] ∧
        t.mesh = s.mesh ++ [homePacket r .response (.datas r l b false) (some b)] ∧ (getDir t l).hs = .waitDone ∧
        (getDir t l).h = .s ∧ r ∈ (getDir t l).p ∧ only t ∧ t = { s with dir := t.dir, out := t.out, mesh := t.mesh }) ∧
    (∀ b x, d.hs = .waitHost → d.hostReq = some .getS → d.reissues < fget s .ageLimit → Completes (.goI l b x) s fun t =>
      t.out = s.out ++ [.d2h l .getS] ∧ getDir t l = { d with reissues := d.reissues + 1 } ∧ only t ∧
      t = { s with dir := t.dir, out := t.out }) ∧
    (∀ k r, d.hs = .waitHost → d.await = [] → d.req = some (k, r) → d.held = [] → noneWait →
      (d.h = .x → d.owner.isSome = true) → Completes (.goErr l) s fun t =>
        t.out = s.out ++ [.toHolder r l "NackP" none] ∧
        t.mesh = s.mesh ++ [homePacket r .response (.nackp r l) none] ∧
        (getDir t l).hs = .idle ∧ r ∉ (getDir t l).p ∧
        fget t .plValid = 1 ∧ fget t .plCause = 3 ∧ fget t .plAddr = l.toNat ∧ only t ∧
        FieldsBut s t [.plValid, .plCause, .plAddr, .plOverrun, .missed] ∧
        t = { s with dir := t.dir, out := t.out, mesh := t.mesh, fld := t.fld, flt := t.flt }) ∧
    (d.hs = .evict → d.held = [] → noneWait →
      (Completes (.goWritepullDrop l) s fun t => getDir t l = {} ∧ only t ∧ t = { s with dir := t.dir }) ∧
      ∀ b p y, d.data = some (b, p, y) → Completes (.goWritepull l) s fun t =>
        t.out = s.out ++ [.pullData l b p false] ∧ getDir t l = {} ∧ only t ∧ t = { s with dir := t.dir, out := t.out }) ∧
    (∀ k r, d.hs = .waitHost → d.req = some (k, r) →
      (d.domain = true → Completes (.cohTimeout l) s fun t => Continues s t ∧ t.domainDown = true ∧ t.dir = [] ∧ t.hl = []) ∧
      (d.domain = false → Completes (.cohTimeout l) s fun t =>
        t.out = s.out ++ [.toHolder r l "NackP" none] ∧
        t.mesh = s.mesh ++ [homePacket r .response (.nackp r l) none] ∧ (getDir t l).hs = .orphan ∧
        fget t .plCause = 2 ∧ t.domainDown = s.domainDown ∧ only t))

/-- What the ring engine's lines, enables and misses change, where host memory is not reached through the home. A poll asks
for the line (R219); fetched descriptors enter the buffer and CI_CMD advances, and a failed or poisoned fetch stops the ring
(R223, R245); line 1 goes out with the indices (R213); an up message is written with its header last, and its slot is free
(R237 to R239). ENABLE restarts the indices, now or, while the ring engine cannot start the VI, later, and it and the
mailbox enable drop what they drop when they are cleared (R214, R240, R247); a served miss loads its slot, and the watchdog
ends the oldest (R292, R297). -/
def Obligations.RingCommandsTakeEffect : Prop :=
  (∀ (s : State) (v : Vi), ringOn s v = true → served s v = true → viaHome s v = false →
    let x := getVi s v
    (∀ k, isReading x k = false → isWatched x k = false → (k = .mailbox → mbOn s v = true) → mayMaster s v = true →
      inHostAllot s v (lineOff s v k) 64 = true → Completes (.pollInterval v k) s fun t =>
        t.out = s.out ++ [.hostRead (portOf v) v (lineAddr s v k) .line0] ∧
        isReading (getVi t v) k = true ∧ t = { s with vis := t.vis, out := t.out }) ∧
    (x.fetching ≠ 0 →
      (∀ ds, let l := ds.take x.fetching
        x.pi = x.ciCmd + BitVec.ofNat 32 l.length → Completes (.descriptorFetchReturn v (.data ds)) s fun t =>
          (getVi t v).fetched = x.fetched ++ indexed x.ciCmd l ∧ (getVi t v).ciCmd = x.pi ∧
          (getVi t v).line1Due = true ∧ t = { s with vis := t.vis }) ∧
      (Completes (.descriptorFetchReturn v .failed) s fun t => (getVi t v).stopped = true ∧ (getVi t v).stopCause = 1) ∧
      (Completes (.descriptorFetchReturn v .poisoned) s fun t =>
        (getVi t v).stopped = true ∧ (getVi t v).stopCause = 1 ∧ (getVi t v).stopPoison = true) ∧
      (Completes (.hostReadCompletion v .fetch .unsupported) s fun t =>
        (getVi t v).stopped = true ∧ (getVi t v).stopCause = 1) ∧
      (Completes (.hostCompletionTimeout v .fetch) s fun t =>
        (getVi t v).stopped = true ∧ (getVi t v).stopCause = 1)) ∧
    (x.line1Due = true → mayMaster s v = true → inHostAllot s v (line1Off s v) 64 = true → x.outq = [] →
      Completes (.line1Write v true) s fun t =>
        t.out = s.out ++ [.hostWrite (portOf v) v (hostBase s v + line1Off s v) (blockBytes (line1 x)) false] ∧
        (getVi t v).line1Due = false ∧ t = { s with vis := t.vis, out := t.out }) ∧
    ∀ e (n : Fin 4), mbOn s v = true → mayMaster s v = true → x.upMsgs.head? = some (e, n) → x.upAck = x.upSeq →
      inHostAllot s v (fget s .mailbox v.val * 512 + 256) 256 = true → x.outq = [] → flagOut s v = false →
      let b := upBytes (x.upSeq + 1).toNat ((viEngines s .ring v).findIdx fun g => g == e)
        (mget {} (eng s e).slots n.val).data
      Completes (.mboxUpWrite v e n) s fun t =>
        (s.out ++ [1, 2, 3, 0].map fun i => Emit.hostWrite (portOf v) v
          (hostBase s v + (fget s .mailbox v.val * 512 + 256 + 64 * i)) (blockBytes (upLine b i)) false) <+: t.out ∧
        (getVi t v).upSeq = x.upSeq + 1 ∧ (getVi t v).upMsgs = x.upMsgs.tail ∧
        mget {} (eng t e).slots n.val = {} ∧ t = { s with vis := t.vis, engs := t.engs, fns := t.fns, out := t.out }) ∧
  (∀ (s : State) (v : Vi), barsLive s = true → answers s v = true →
    (viOn s v = false → Completes (.viEnable v) s fun t => viOn t v = true ∧
      (ringOn s v = true → (getVi t v).lap = (getVi s v).lap + 1 ∧ (getVi t v).ciCmd = 0 ∧ (getVi t v).pi = 0 ∧
        (getVi t v).piCpl = 0 ∧ (getVi t v).fetched = []) ∧
      (ringOn s v = false → (getVi t v).startDue = true ∧ t = { s with vis := t.vis, fld := t.fld })) ∧
    (viOn s v = true → Completes (.viDisable v) s fun t =>
      viOn t v = false ∧ (getVi t v).fetched = [] ∧ (getVi t v).down = none) ∧
    (Completes (.mboxEnable v) s fun t => fget t .mboxEn v.val = 1) ∧
    (fget s .mboxEn v.val ≠ 0 → Completes (.mboxDisable v) s fun t =>
      fget t .mboxEn v.val = 0 ∧ (getVi t v).down = none ∧
      t = { s with vis := t.vis, fld := t.fld, hret := t.hret, mesh := t.mesh, hl := t.hl })) ∧
  ∀ (s : State) (v : Vi) (m : Miss) (l : List Miss), (getVi s v).misses = m :: l →
    (∀ e i, firmwareOn s = true → liveSlot s v m.addr = none → (getVi s v).changing = none →
      findOvf s v m.addr = some e → ovfChanging s v = none → swapSlot s v (readOvf s v e).host = some i →
      let g := (readOvf s v e).seg
      Completes (.segMissService v) s fun t =>
        seg t v i = (if isHostSlot i then g else { g with attr := 0 }) ∧ m ∉ (getVi t v).misses) ∧
    ∀ j f, running s = true → m.who = .ring j → flyOf s v j = some f → f.fin = none →
      Completes (.missWatchdog v) s fun t =>
        Continues s t ∧ (getVi t v).misses = l ∧ Ended t v j.idx (openC .segFault)

/-- What descriptors change as they run. DISPATCH takes the next one into flight (R224 to R226); SIGNAL ADD adds at the
controller and returns the old value (R265); a WAIT that holds ends with the value read (R266); STAMP writes its 16 bytes
(R274); COPY and FILL join the queue of their mover (R257), end with ZERO for LEN = 0, and a FILL's last block is
written and ends it with OK (R258, R260); RECIPE_LOAD writes the inactive bank of every engine it names (R269). -/
def Obligations.DescriptorsTakeEffect : Prop :=
  (∀ (s : State) (v : Vi) (i : BitVec 32) (d : Block) (l : List (BitVec 32 × Block)), ringOn s v = true →
    served s v = true → (getPf s (portOf v)).d3hot = false → (getVi s v).fetched = (i, d) :: l →
    (getVi s v).fly.any holdsBack = false → isWait d = false → cplRoom s v = true → descOk d = true →
    (dOp d = 0x03 → launchRoom s v d = true) → Completes (.dispatch v) s fun t =>
      (getVi t v).fly = (getVi s v).fly ++
        [{ idx := { idx := i, lap := (getVi s v).lap }, desc := d, at_ := sampleAt s d }] ∧
      (getVi t v).reserved = (getVi s v).reserved + 1 ∧
      ((getVi s v).pi = (getVi s v).ciCmd → (getVi t v).fetched = l ∧ t = { s with vis := t.vis })) ∧
  (∀ (s : State) (v : Vi) (i : BitVec 32) (f : Fly) (ok : Bool) (x : Nat) (j : Fin 16), fresh s v i 0x04 = some f →
    blockField f.desc 8 1 = 0x10 → trSpace s .ring v 0 (blockField f.desc 0x18 8) 8 = .hit (.dev x) j →
    memOpen s 20 x 8 = true → anyHole s x 8 = false → anyPoison s x 8 = false → Completes (.signal v i ok) s fun t =>
      MemoryHolds s t x (natBytes 8 ((read64 s x + blockField f.desc 0x20 8) % 2 ^ 64)) ∧
      Ended t v i (okC (read64 s x)) ∧ t = { s with vis := t.vis, mem := t.mem, poison := t.poison, engs := t.engs }) ∧
  (∀ (s : State) (v : Vi) (i : BitVec 32) (f : Fly), fresh s v i 0x05 = some f → Completes (.wait v i) s fun t =>
    { f with started := true } ∈ (getVi t v).fly) ∧
  (∀ (s : State) (v : Vi) (i : BitVec 32) (f : Fly) (y : HostRes) (x : Nat) (j : Fin 16), waiting s v i = some f →
    blockField f.desc 8 1 % 16 = 0 → trSpace s .ring v 0 (blockField f.desc 0x18 8) 8 = .hit (.dev x) j →
    memOpen s 20 x 8 = true → anyHole s x 8 = false → anyPoison s x 8 = false →
    waitHolds (blockField f.desc 8 1 / 16) (read64 s x) (blockField f.desc 0x20 8) (blockField f.desc 0x28 8) = true →
    Completes (.waitPoll v i y) s fun t => Ended t v i (okC (read64 s x)) ∧ t = { s with vis := t.vis }) ∧
  (∀ (s : State) (v : Vi) (i : BitVec 32) (f : Fly) (ok : Bool) (e : Eng) (o : Nat), fresh s v i 0x0C = some f →
    blockField f.desc 0x10 1 % 16 = 3 → spAddr s .ring v (blockField f.desc 0x18 8) 16 = .at_ e o →
    Completes (.stamp v i ok) s fun t => ScratchHolds s t e o (stampBytes f.at_) ∧
      Ended t v i (okC (f.at_ % 2 ^ 64)) ∧ t = { s with vis := t.vis, engs := t.engs }) ∧
  (∀ (s : State) (v : Vi) (i : BitVec 32) (f : Fly),
    let joins := fun (m : Mover) (t : State) =>
      (getMv t m).queue = (getMv s m).queue ++ [(v, f.idx)] ∧ { f with started := true } ∈ (getVi t v).fly ∧
      t = { s with vis := t.vis, movers := t.movers }
    let ends := fun (c : Compl) (t : State) => Ended t v i c ∧ t = { s with vis := t.vis }
    (fresh s v i 0x01 = some f →
      (mLen f.desc = 0 → Completes (.copy v i) s (ends zeroC)) ∧
      (mLen f.desc ≠ 0 → chooseMover s v f.desc = none → Completes (.copy v i) s (ends (failC .fencedUnit))) ∧
      ∀ m, mLen f.desc ≠ 0 → chooseMover s v f.desc = some m → scratchCheck s m v f.desc = none →
        (getMv s m).queue ≠ [] → Completes (.copy v i) s (joins m)) ∧
    (fresh s v i 0x02 = some f →
      (mLen f.desc = 0 → Completes (.fill v i) s (ends zeroC)) ∧
      (mLen f.desc ≠ 0 → chooseMover s v f.desc = none → Completes (.fill v i) s (ends (failC .fencedUnit))) ∧
      ∀ m, mLen f.desc ≠ 0 → chooseMover s v f.desc = some m → scratchCheck s m v f.desc = none →
        (getMv s m).queue ≠ [] → Completes (.fill v i) s (joins m))) ∧
  (∀ (s : State) (m : Mover) (v : Vi) (j : Job) (f : Fly) (e : Eng) (o : Nat), moverOn s m = true →
    (getMv s m).queue = [(v, j)] → (getVi s v).resetting = false → flyOf s v j = some f → f.fin = none →
    (getVi s v).misses = [] → heldForSet s m = false → dOp f.desc = 2 → mDstSpace f.desc = 3 →
    mLen f.desc ≤ (getMv s m).pos + blockLen f.desc (getMv s m).pos →
    spAddr s (.mover m) v (mDst f.desc + (getMv s m).pos) (blockLen f.desc (getMv s m).pos) = .at_ e o →
    Completes (.moverBlock m (.done [])) s fun t =>
      ScratchHolds s t e o ((List.range (blockLen f.desc (getMv s m).pos)).map fun k =>
        BitVec.ofNat 8 (blockField f.desc 0x18 8 / 256 ^ (((getMv s m).pos + k) % 2 ^ (blockField f.desc 0x12 1 % 4)))) ∧
      Ended t v j.idx (okC (mLen f.desc)) ∧ (getMv t m).queue = [] ∧
      t = { s with
        vis := t.vis, engs := t.engs, movers := t.movers, hret := t.hret, mesh := t.mesh, hl := t.hl }) ∧
  ∀ (s : State) (v : Vi) (i : BitVec 32) (f : Fly) (l : List Byte), firmwareOn s = true → ringOn s v = true →
    ((getVi s v).fly.find? fun f => f.idx.idx == i && dOp f.desc == 0x08 && f.fin.isNone) = some f → f.started = false →
    let d := f.desc
    (rCount d = 0 ∨ rWords d = 0 → Completes (.recipeLoad v i) s fun t => Ended t v i zeroC) ∧
    (rCount d ≠ 0 → rWords d ≠ 0 → fgetU s .ring .rcpEn v.val ≠ 0 → recipeBadVeng s v d = none →
      openPieces s 20 (piecesOf s .ring v 2 (blockField d 0x18 8) (24 * rWords d)) = true →
      recipeSource s v d = .ok l → rOff d + rWords d ≤ 1024 → rActivate d = false →
      (∀ e ∈ recipeEngs s v d, (eng s e).swapDue = false) → Completes (.recipeLoad v i) s fun t =>
        Ended t v i (okC (rWords d * rCount d)) ∧ ∀ e ∈ recipeEngs s v d, ∀ k, k < rWords d →
          mget 0 (if (eng s e).active then (eng t e).bank0 else (eng t e).bank1) (rOff d + k) =
            BitVec.ofNat 192 (leNat ((l.drop (24 * k)).take 24)))

/-- What the remaining slots of a microword change (Table: MOP encodings, R316, R322, R366 to R368). SP2TB fills its block
from the scratchpad; LDR loads MRES and makes the reservation; STC stores exactly where the reservation holds, clears it
and notes its result; SLOTRD frees its slot and SLOTWR fills one; PROBE counts a hit; SHIFT fills its shadow slice; CVT
writes the converted vector. -/
def Obligations.EngineSlotsTakeEffect : Prop :=
  (∀ (s : State) (e : Eng) (r : Run) (w : Nat) (m : MemSlot), SlotReady s e r w 1 →
    let a := (readReg (atIssue r) (free s) m.addr).toNat
    let y := readReg (atIssue r) (free s) m.sp
    let v := r.ix.vi
    (∀ x, isMop 4 m w = true → spCheck s e v y.toNat 64 = some x → Completes (.sp2tb e m) s fun t =>
      (∃ q, runOf t e = some q ∧ q.tbIn = mset 0 r.tbIn m.tbi.toNat (bytesBlock (spRead s e x 64)) ∧ q.regs = r.regs) ∧
      t = { s with engs := t.engs, freeCtr := s.freeCtr + 1 }) ∧
    (∀ x i, isMop 5 m w = true → r.phase = .pre → a % 8 = 0 → translate s (eu e) v a 8 = .hit (.dev x) i →
      anyHole s x 8 = false → anyPoison s x 8 = false → ownStores s e = [] → gather s (kilnOf e) = [] →
      Completes (.ldr e m) s fun t =>
        (∃ q, runOf t e = some q ∧ q.regs = { r.regs with mres := BitVec.ofNat 64 (read64 s x) } ∧
          q.resv = some { tgt := .dev x, ea := a, value := BitVec.ofNat 64 (read64 s x) }) ∧ t.mem = s.mem) ∧
    (∀ t i, isMop 12 m w = true → r.phase = .pre → translate s (eu e) v (a / 64 * 64) 64 = .hit t i →
      Completes (.probe e m) s fun u =>
        (∃ q, runOf u e = some q ∧ (isHostSlot i, seg s v i) ∈ q.hits ∧ q.regs = r.regs ∧ q.tbIn = r.tbIn) ∧
        u = { s with engs := u.engs, vis := u.vis, lruCtr := s.lruCtr + 1, freeCtr := s.freeCtr + 1 }) ∧
    (∀ x i j, isMop 6 m w = true → r.phase = .post → m.ord ≠ 2 → a % 8 = 0 →
      (r.pins.find? fun k => covers (seg s v k) a) = some i → viaSlot s (eu e) v i a 8 = .hit (.dev x) j →
      anyHole s x 8 = false → ownStores s e = [] → gather s (kilnOf e) = [] →
      let c : Stc := {
        vi := v, idx := r.ix.idx, k := r.ix.k, reg := opA r % 16, tgt := .dev x, ea := a, cxl := false, ok := true
        compare := 0, new := y }
      (∀ z, (eng s e).resv = some { tgt := .dev x, ea := a, value := z } → Completes (.stc e m) s fun t =>
        MemoryHolds s t x (natBytes 8 y.toNat) ∧ (eng t e).resv = none ∧ (eng t e).stcs = (eng s e).stcs ++ [c]) ∧
      ((eng s e).resv = none → Completes (.stc e m) s fun t =>
        t.mem = s.mem ∧ (eng t e).stcs = (eng s e).stcs ++ [{ c with ok := false }])) ∧
    (∀ x, r.phase = .post → slotOk s e v (a % 4) = true → spCheck s e v y.toNat 256 = some x →
      (isMop 9 m w = true → (slotAt s e (a % 4)).data.length = 256 → Completes (.slotrd e m) s fun t =>
        ScratchHolds s t e x (slotAt s e (a % 4)).data ∧ slotAt t e (a % 4) = {} ∧ t.mem = s.mem) ∧
      (isMop 10 m w = true → Completes (.slotwr e m) s fun t =>
        slotAt t e (a % 4) = {
          st := .up, vi := v.val
          data := natBytes 4 0 ++ natBytes 2 r.ix.veng ++ natBytes 1 (a % 4) ++ (spRead s e x 256).drop 7 } ∧
        t = { s with engs := t.engs, vis := t.vis, freeCtr := s.freeCtr + 1 }))) ∧
  (∀ (s : State) (e : Eng) (r : Run) (w o : Nat), SlotReady s e r w 2 → isMx 1 w = true →
    let n := sliceBytes (wFmt w)
    let k := (readReg (atIssue r) (free s) (wMidx w)).toNat % 256
    spCheck s e r.ix.vi ((readReg (atIssue r) (free s) (wMsrc w)).toNat + n * k) n = some o →
    Completes (.shift e (wFmt w) (wMsrc w) (wMidx w)) s fun t =>
      (∀ j, mget 0 (eng t e).shadow j = if n * k ≤ j ∧ j < n * k + n then mget 0 (eng s e).scratch (o + (j - n * k))
        else mget 0 (eng s e).shadow j) ∧ (eng t e).plane = (eng s e).plane ∧ (eng t e).scratch = (eng s e).scratch ∧
      t = { s with engs := t.engs, freeCtr := s.freeCtr + 1 }) ∧
  ∀ (s : State) (e : Eng) (r : Run) (w : Nat) (p d : BitVec 4) (x y : Nat), SlotReady s e r w 3 → r.phase = .post →
    wVop w = 8 → wCvtSrc w = p.toNat → wCvtDst w = d.toNat →
    let v := wVec w
    spCheck s e r.ix.vi (readReg (atIssue r) (free s) v.dst).toNat (512 * dtypeBytes d.toNat) = some x →
    spCheck s e r.ix.vi (readReg (atIssue r) (free s) v.src1).toNat (512 * dtypeBytes p.toNat) = some y →
    Completes (.cvt e v p d (wSat w)) s fun t =>
      ScratchHolds s t e x (vectorCvt p.toNat d.toNat (wSat w) (spRead s e y (512 * dtypeBytes p.toNat))) ∧
      t = { s with engs := t.engs, freeCtr := s.freeCtr + 1 }

/-- What the commands of the host ports, islands and committed changes change: the end of an enable, of a power state, of
a vector's mask (R158, R160, R161, R168); an island that has lost its PLL or stalls is stopped (R89 to R94); a detour is
installed (R88); a unit that takes a change up leaves UNITS_LEFT, and forced take-up leaves alone the engines past commit
and the movers inside a block (R605, R606). -/
def Obligations.UnitCommandsTakeEffect : Prop :=
  (∀ s : State, s.board.pwrgood = true → s.resetting = none → s.boot ≠ .safe → ∀ n, 1000 ≤ n →
    Completes (.perst1Assert n) s fun t => t.board.perst1 = true ∧ getHp t 1 = {} ∧ getPf t 1 = {} ∧
      ∀ v ∈ port1Vis, (getVi t v).resetting = true ∧ (getVi t v).fetched = []) ∧
  (∀ (s : State) (p : HPort), s.board.pwrgood = true → s.resetting = none → s.boot ≠ .safe →
    (getPf s p).vfEnable = true → Completes (.vfEnableClear p) s fun t =>
      (getPf t p).vfEnable = false ∧ ∀ v ∈ vfsOf p, (getVi t v).resetting = true ∧ (getVi t v).fetched = []) ∧
  (∀ (s : State) (p : HPort), (getPf s p).d3hot = true → Completes (.d0Return p) s fun t => (getPf t p).d3hot = false) ∧
  (∀ (s : State) (v : Vi) (n : Fin 4), barsLive s = true → answers s v = true → Completes (.msixUnmask v n) s fun t =>
    (mget {} (getFn t v).msix n.val).masked = false ∧ t = { s with fns := t.fns, out := t.out }) ∧
  (∀ (s : State) (e : Eng), powered s = true → .engine e ∈ s.pllParked → Completes (.pllLost (.engine e)) s fun t =>
    .engine e ∉ t.pllParked ∧ .engine e ∈ t.stopped ∧ engFenced t e = true) ∧
  (∀ (s : State) (e : Eng) (u : FUnit), powered s = true → liveSide s (.engine e) u = true → .engine e ∉ s.stopped →
    islandQuiet s (.engine e) = false → Completes (.unitStall (.engine e) u) s fun t => .engine e ∈ t.stopped ∧ engFenced t e = true) ∧
  (∀ (s : State) (l : Link), l.ok = true → powered s = true → linkFenced s l = true →
    Completes (.detourInstall l) s fun t => l ∈ t.detours) ∧
  (∀ (s : State) (u : CUnit), running s = true → atSafePoint s u = true → s.applying = true → u ∈ s.unitsLeft →
    Completes (.changeTakeup u) s fun t => u ∉ t.unitsLeft ∧
      (t.applying = true → ∀ c, c ≠ u → (c ∈ t.unitsLeft ↔ c ∈ s.unitsLeft))) ∧
  ∀ s : State, running s = true → s.applying = true → Completes .forcedTakeup s fun t =>
    ∀ u ∈ t.unitsLeft, (∃ e r, u = .engine e ∧ runOf s e = some r ∧ r.phase = .post) ∨
      ∃ m, u = .mover m ∧ (getMv s m).asked ≠ 0

/-- The access classes of a register field (R602, R620, R621, R664), on one field of each. L: COL_TIMEOUT acts at the write,
and a value outside its range leaves it as it was. S: the group table's base is written in GLAZING and ignored in FIRED.
C: DELIVERY is written at once in GLAZING and forms a shadow in FIRED. -/
def Obligations.RegisterClassesHold : Prop :=
  ∀ (s : State) (w : U64), barsLive s = true → answers s vi0 = true →
    let n := w.toNat % 2 ^ 26
    let b := w.toNat / 2 ^ 8 % 2
    (10 ≤ n → n ≤ 60000000 → Completes (.registerWrite vi0 .mgmt 0xC0010 8 w) s fun t =>
      fget t .colTimeout = n ∧ FieldsBut s t [.colTimeout] ∧ t = { s with fld := t.fld }) ∧
    (n < 10 ∨ 60000000 < n → Completes (.registerWrite vi0 .mgmt 0xC0010 8 w) s fun t => t = s) ∧
    (s.boot = .glazing → Completes (.registerWrite vi0 .mgmt 0xC0008 8 w) s fun t =>
      fget t .groupBase = w.toNat / 2 ^ 16 % 2 ^ 32 ∧ FieldsBut s t [.groupBase] ∧ t = { s with fld := t.fld }) ∧
    (s.boot = .fired → Completes (.registerWrite vi0 .mgmt 0xC0008 8 w) s fun t => t = s) ∧
    (s.boot = .glazing → Completes (.registerWrite vi0 .mgmt 0x20000 8 w) s fun t =>
      fget t .delivery = b ∧ FieldsBut s t [.delivery] ∧ t = { s with fld := t.fld }) ∧
    (s.boot = .fired → Completes (.registerWrite vi0 .mgmt 0x20000 8 w) s fun t =>
      t.shadow.lookup (fkey .delivery 0) = some b ∧ t = { s with shadow := t.shadow })

/-- R96. In BISQUE and in SAFE every write to either register space changes nothing, every register that Table: Readable in
BISQUE and SAFE does not list reads as 0, and each that it lists reads its value. -/
def Obligations.EarlyStates : Prop :=
  ∀ s : State, s.boot = .bisque ∨ s.boot = .safe →
    (∀ v sp o n w, exec (.registerWrite v sp o n w) s = .next s) ∧
    (∀ v w b, exec (.go v w) s = .next s ∧ exec (.stage v w b) s = .next s ∧ exec (.genCommit v w) s = .next s) ∧
    (∀ v b, exec (.viEnable v) s = .next s ∧ exec (.viDisable v) s = .next s ∧ exec (.mboxEnable v) s = .next s ∧
      exec (.mboxDisable v) s = .next s ∧ exec (.warmReset v) s = .next s ∧ exec (.epochArm v) s = .next s ∧
      exec (.epochFlip v b) s = .next s) ∧
    (∀ c w, exec (.cntValLoWrite c w) s = .next s ∧ exec (.cntValHiWrite c w) s = .next s) ∧
    (∀ b n, exec (.windowEnable b n) s = .next s) ∧ (∀ w, exec (.fltClearSeq w) s = .next s) ∧
    (∀ v n, exec (.msixUnmask v n) s = .next s) ∧ exec .unfreeze s = .next s ∧ exec .rtcSet s = .next s ∧
    (∀ v o, regValue s v .vi o = 0) ∧ (∀ v o, earlyReg o = false → regValue s v .mgmt o = 0) ∧
    (∀ c, readable s = true → answers s vi0 = true →
      Completes (.cntValLoRead c) s fun t => t = { s with out := s.out ++ [.regRead 0] }) ∧
    ∀ o, earlyReg o = true → readable s = true → answers s vi0 = true →
      regValue s vi0 .mgmt o = readRows s (mgmtRows o) + (roGen s o + roEng s o + roFab s o + roFlt s o)

/-- R226. A DISPATCH that takes a descriptor into flight finds PI_CPL plus the reserved slots minus CI_CPL below the
completion ring's size and reserves one slot; without that room the descriptor waits. -/
def Obligations.DispatchNeedsRoom : Prop :=
  ∀ (s : State) (v : Vi),
    let x := getVi s v
    let room := (x.piCpl - x.ciCpl).toNat + x.reserved < 2 ^ cplLog s v
    (∀ t, exec (.dispatch v) s = .next t → (getVi t v).fly ≠ x.fly →
      room ∧ (getVi t v).reserved = x.reserved + 1 ∧ ∃ f, (getVi t v).fly = x.fly ++ [f]) ∧
    ∀ i d l, ringOn s v = true → served s v = true → (getPf s (portOf v)).d3hot = false → x.fetched = (i, d) :: l →
      x.fly.any holdsBack = false → (isWait d = true → waitsRunning s < 32) →
      (¬ room → Completes (.dispatch v) s fun t =>
        getVi t v = { x with cplFull := true } ∧ t = { s with vis := t.vis }) ∧
      (room → descOk d = true → (dOp d = 0x03 → launchRoom s v d = true) → Completes (.dispatch v) s fun t =>
        ∃ f, (getVi t v).fly = x.fly ++ [f] ∧ f.idx.idx = i ∧ f.desc = d)

/-- R227, R252. A descriptor that ended with OK or ZERO and has CPL clear gives its slot back with no entry and no vector;
any other writes one entry at the next completion index, and raises COMPLETION where IRQ is set, once the entry is visible.
VALUE of an ending that no rule gives one is a free value (log entry 84). -/
def Obligations.CompletionEntries : Prop :=
  ∀ (s : State) (v : Vi) (i : BitVec 32) (f : Fly) (c : Compl), ringOn s v = true → viOn s v = true →
    endedFly s v i = some (f, c) → f.idx.lap = (getVi s v).lap → (getVi s v).stopped = false →
    let x := getVi s v
    let quiet := dCpl f.desc = false ∧ (c.status = .ok ∨ c.status = .zero)
    (quiet → ∀ ok, Completes (.descriptorComplete v i ok) s fun t =>
      (getVi t v).fly = x.fly.filter (fun g => g.idx != f.idx) ∧ (getVi t v).reserved = x.reserved - 1 ∧
      (getVi t v).piCpl = x.piCpl ∧ t = { s with vis := t.vis }) ∧
    (¬ quiet → mayMaster s v = true → cplInAllot s v = true → x.outq = [] →
      let j := x.piCpl.toNat
      let ph := phaseOf (cplLog s v) j
      let e := entryBytes (dTag f.desc) (statusCode c.status) (dOp f.desc) f.idx.idx.toNat (s.ringCycles % 2 ^ 32) ph
        (if c.openValue then { c with value := BitVec.ofNat 64 (free s) } else c)
      let line := bytesBlock (if j % 2 = 0 then e ++ oddEmpty ph else x.evenEntry ++ e)
      let off := cplOff s v (j / 2 * 2)
      let w := s.out ++ [.hostWrite (portOf v) v (hostBase s v + off) (blockBytes line) false]
      let n := if c.openValue then s.freeCtr + 1 else s.freeCtr
      Completes (.descriptorComplete v i true) s fun t =>
        (getVi t v).fly = x.fly.filter (fun g => g.idx != f.idx) ∧ (getVi t v).reserved = x.reserved - 1 ∧
        (getVi t v).piCpl = x.piCpl + 1 ∧
        (viaHome s v = false → flagOut s v = false →
          t = { s with vis := t.vis, fns := t.fns, out := t.out, freeCtr := n } ∧
          (dIrq f.desc = false → t.out = w ∧ t.fns = s.fns) ∧
          (dIrq f.desc = true → (getFn s v).holdoff = true → t.out = w ∧ (getFn t v).holdPending = true) ∧
          (dIrq f.desc = true → (getFn s v).holdoff = false → vecOpen s v vecCompletion = true →
            t.out = w ++ [.msix v vecCompletion (mget ({} : MsixEntry) (getFn s v).msix 0).addr
              (mget ({} : MsixEntry) (getFn s v).msix 0).data]) ∧
          (dIrq f.desc = true → (getFn s v).holdoff = false → vecOpen s v vecCompletion = false →
            t.out = w ∧ mget false (getFn t v).pba 0 = true)) ∧
        (viaHome s v = true → flagOut s v = true →
          (getVi t v).outq = .line off line :: (if dIrq f.desc then [.irq vecCompletion] else []) ∧
          t = { s with vis := t.vis, freeCtr := n }) ∧
        (viaHome s v = true → flagOut s v = false → ∃ q u, q = { s with vis := q.vis } ∧
          u = ringLineWrite (lineOf (hostBase s v + off)) line (.flag v) q ∧ u.out <+: t.out))

/-- R244. A FENCE ends with OK, whatever the statuses of the descriptors it waited for: where every earlier descriptor of
its VI has gone and their data is visible it ends with OK, and the command ends nothing with anything else. -/
def Obligations.FenceEndsOk : Prop :=
  (∀ (s : State) (v : Vi) (i : BitVec 32) (f : Fly), fresh s v i 0x06 = some f → fenceReady s v f.idx = true →
    fenceMet (fenceDrain v s) v = true → Completes (.fence v i) s fun t => Ended t v i (okC 0)) ∧
  ∀ (s t : State) (v : Vi) (i : BitVec 32) (j : Job) (f g : Fly) (c : Compl), exec (.fence v i) s = .next t →
    flyOf s v j = some f → f.fin = none → flyOf t v j = some g → g.fin = some c → c.status = .ok

/-- R151, R262. A VI without a binding reads VI_ENGINE_COUNT as 0, and its LAUNCH of any engine ends with FENCED_UNIT. A
LAUNCH past the partition's last engine starts nothing and ends with FENCED_UNIT, DETAIL naming the first virtual engine
out of range; an index whose task address lies in a host segment fails with SEG_FAULT. -/
def Obligations.LaunchOutOfRange : Prop :=
  (∀ (s : State) (v : Vi), fgetU s .ring .bindValid v.val ≠ 1 → regValue s v .vi 0x318 = 0 ∧
    ∀ i f, fresh s v i 0x03 = some f → lCount f.desc ≠ 0 → Completes (.launch v i) s fun t =>
      Ended t v i (openC .fencedUnit 0 (lFirst f.desc)) ∧ t = { s with vis := t.vis }) ∧
  (∀ (s : State) (v : Vi) (i : BitVec 32) (f : Fly), fresh s v i 0x03 = some f → lCount f.desc ≠ 0 →
    engineCount s v < lFirst f.desc + lCount f.desc → Completes (.launch v i) s fun t =>
      Ended t v i (openC .fencedUnit 0 (max (lFirst f.desc) (engineCount s v))) ∧ t = { s with vis := t.vis }) ∧
  ∀ (s : State) (e : Eng) (r : Run) (a : Nat) (b : Bool) (j : Fin 16), engOn s e = true → runOf s e = some r →
    r.phase = .between → r.waitMiss = false → ownStores s e = [] →
    translate s (eu e) r.ix.vi r.task.toNat 8 = .hit (.host a b) j →
    Completes (.taskWordFetch e) s fun t => runOf t e = none ∧
      ∀ f, flyOf s r.ix.vi r.ix.idx = some f → f.fail = none → ∃ g c, flyOf t r.ix.vi r.ix.idx = some g ∧
        g.fail = some c ∧ c.status = .segFault ∧ c.detail = BitVec.ofNat 16 r.ix.veng

/-- R464. A routed frame that arrives with the device's own node number as SRC is discarded, and the port raises the class
0 fault ID_CONFLICT with SRC, taken as any further fault of a source is while one of its faults waits. -/
def Obligations.OwnSourceDiscarded : Prop :=
  causeClass 0x0C = 0 ∧ ∀ (s : State) (f : Frame) (p : Port), (Instr.routeFrame f (some p)).wf = true → running s = true →
    nodeOk s = true → linkOn s p = true → badFrame f = false → 2 ≤ f.kind.toNat → f.src.toNat = ownNode s →
    Completes (.routeFrame f (some p)) s fun t =>
      t.mem = s.mem ∧ t.ctxs = s.ctxs ∧ t.ackq = s.ackq ∧ t.colls = s.colls ∧ t.vis = s.vis ∧ t.waitq = s.waitq ∧
      (∀ q, (getPort t q).hold = (getPort s q).hold) ∧
      ((∀ x ∈ s.flt.raised, x.src ≠ srcOf (.fport p)) → t.flt.raised = s.flt.raised ++
        [{ src := srcOf (.fport p), cause := 0x0C, info := BitVec.ofNat 64 f.src.toNat, vi := none, part := none }]) ∧
      ((∃ x ∈ s.flt.raised, x.src = srcOf (.fport p)) → t.flt.raised = s.flt.raised ∧
        fget t .missed = min (fget s .missed + 1) (2 ^ 16 - 1))

/-- R609. A commit that finds no pending shadow counts SET_ID and completes at once with the NOTICE of R608: no unit takes
anything up. -/
def Obligations.EmptyCommit : Prop :=
  ∀ (s : State) (w : U64), answers s vi0 = true → running s = true → s.applying = false → s.shadow = [] →
    bitAt w.toNat 0 = true → Completes (.genCommit vi0 w) s fun t =>
      t.setId = s.setId + 1 ∧ FieldsBut s t [.noticeEn] ∧
      t = { s with setId := t.setId, fld := t.fld, out := t.out, fns := t.fns } ∧
      (bitAt w.toNat 1 = false → t.out = s.out ∧ t.fns = s.fns) ∧
      (bitAt w.toNat 1 = true → vecOpen s vi0 vecNotice = true → t.fns = s.fns ∧
        t.out = s.out ++ [.msix vi0 vecNotice (mget ({} : MsixEntry) (getFn s vi0).msix 3).addr
          (mget ({} : MsixEntry) (getFn s vi0).msix 3).data]) ∧
      (bitAt w.toNat 1 = true → vecOpen s vi0 vecNotice = false → t.out = s.out ∧
        mget false (getFn t vi0).pba 3 = true)

/-- R577. While a set of the clock is staged, SET and every write of the three set registers change nothing. -/
def Obligations.StagedSetHolds : Prop :=
  ∀ s : State, s.rtc.staged.isSome = true → barsLive s = true → answers s vi0 = true →
    exec .rtcSet s = .next s ∧
    (∀ (o : BitVec 24) (n : Nat) (w : U64), accessOk o.toNat n = true → 0xE0020 ≤ o.toNat → o.toNat < 0xE0038 →
      exec (.registerWrite vi0 .mgmt o n w) s = .next s) ∧
    ∀ (o : BitVec 24) (n : Nat) (w : U64), accessOk o.toNat n = true → 0xE0038 ≤ o.toNat → o.toNat < 0xE0040 →
      Completes (.registerWrite vi0 .mgmt o n w) s fun t =>
        t.rtc = s.rtc ∧ FieldsBut s t [.trim] ∧ t = { s with fld := t.fld }
end

