-- ==== Sys2Proof/Laws/Maps.lean ====
section
/-! SUPPORT. The laws of sparse maps: what a key reads after a write, and that every write keeps the canonical form. -/

namespace Sys2Proof.Laws

variable {α : Type}

@[simp] theorem mget_nil (d : α) (k : Nat) : mget d [] k = d := rfl

theorem mget_mdel_same (d : α) (m : SMap α) (k : Nat) : mget d (mdel m k) k = d := by
  induction m with
  | nil => rfl
  | cons p t ih =>
    obtain ⟨a, v⟩ := p
    by_cases h : a = k <;> simp [mdel, mget, h, ih]

theorem mget_mdel_other (d : α) (m : SMap α) {j k : Nat} (h : j ≠ k) : mget d (mdel m j) k = mget d m k := by
  induction m with
  | nil => rfl
  | cons p t ih =>
    obtain ⟨a, v⟩ := p
    by_cases ha : a = j
    · have : a ≠ k := fun e => h (ha ▸ e)
      simp [mdel, mget, ha, ih, h]
    · by_cases hk : a = k
      · subst hk; simp [mdel, mget, ha]
      · simp [mdel, mget, ha, hk, ih]

theorem mget_mins_same (d : α) (m : SMap α) (k : Nat) (v : α) : mget d (mins m k v) k = v := by
  induction m with
  | nil => simp [mins, mget]
  | cons p t ih =>
    obtain ⟨a, w⟩ := p
    by_cases hlt : k < a
    · simp [mins, mget, hlt]
    · by_cases ha : a = k <;> simp [mins, mget, hlt, ha, ih]

theorem mget_mins_other (d : α) (m : SMap α) {j k : Nat} (v : α) (h : j ≠ k) : mget d (mins m j v) k = mget d m k := by
  induction m with
  | nil => simp [mins, mget, h]
  | cons p t ih =>
    obtain ⟨a, w⟩ := p
    by_cases hlt : j < a
    · simp [mins, mget, hlt, h]
    · by_cases ha : a = j
      · simp [mins, mget, ha, h]
      · by_cases hk : a = k
        · subst hk; simp [mins, mget, hlt, ha]
        · simp [mins, mget, hlt, ha, hk, ih]

variable [DecidableEq α]

/-- A key reads the value that was set. -/
@[simp] theorem mget_mset_same (d : α) (m : SMap α) (k : Nat) (v : α) : mget d (mset d m k v) k = v := by
  by_cases h : v = d
  · simp [mset, h, mget_mdel_same]
  · simp [mset, h, mget_mins_same]

/-- Every other key reads as before. -/
theorem mget_mset_other (d : α) (m : SMap α) {j k : Nat} (v : α) (h : j ≠ k) : mget d (mset d m j v) k = mget d m k := by
  by_cases hv : v = d
  · simp [mset, hv, mget_mdel_other d m h]
  · simp [mset, hv, mget_mins_other d m v h]

@[simp] theorem mget_mupd_same (d : α) (m : SMap α) (k : Nat) (f : α → α) : mget d (mupd d m k f) k = f (mget d m k) :=
  mget_mset_same d m k _

theorem mget_mupd_other (d : α) (m : SMap α) {j k : Nat} (f : α → α) (h : j ≠ k) :
    mget d (mupd d m j f) k = mget d m k := mget_mset_other d m _ h

/-! ## The canonical form -/

omit [DecidableEq α] in
theorem mem_mdel {m : SMap α} {k : Nat} {p : Nat × α} (h : p ∈ mdel m k) : p ∈ m ∧ p.1 ≠ k := by
  induction m with
  | nil => simp [mdel] at h
  | cons q t ih =>
    obtain ⟨a, v⟩ := q
    by_cases ha : a = k
    · simp [mdel, ha] at h; exact ⟨List.mem_cons_of_mem _ (ih h).1, (ih h).2⟩
    · simp only [mdel, ha, if_false, List.mem_cons] at h
      rcases h with rfl | h
      · exact ⟨List.mem_cons_self, ha⟩
      · exact ⟨List.mem_cons_of_mem _ (ih h).1, (ih h).2⟩

omit [DecidableEq α] in
theorem mem_mins {m : SMap α} {k : Nat} {v : α} {p : Nat × α} (h : p ∈ mins m k v) : p = (k, v) ∨ p ∈ m := by
  induction m with
  | nil => simp [mins] at h; exact .inl h
  | cons q t ih =>
    obtain ⟨a, w⟩ := q
    simp only [mins] at h
    split at h
    · rcases List.mem_cons.1 h with rfl | h
      · exact .inl rfl
      · exact .inr h
    · split at h
      · rcases List.mem_cons.1 h with rfl | h
        · exact .inl rfl
        · exact .inr (List.mem_cons_of_mem _ h)
      · rcases List.mem_cons.1 h with rfl | h
        · exact .inr List.mem_cons_self
        · exact (ih h).imp id (List.mem_cons_of_mem _)

theorem mdel_wf {d : α} {m : SMap α} (k : Nat) (h : mwf d m) : mwf d (mdel m k) := by
  refine ⟨?_, fun p hp => h.2 p (mem_mdel hp).1⟩
  have h1 := h.1
  clear h
  induction m with
  | nil => simp [mdel]
  | cons q t ih =>
    obtain ⟨a, v⟩ := q
    rw [List.pairwise_cons] at h1
    by_cases ha : a = k
    · simp only [mdel, ha, if_true]; exact ih h1.2
    · simp only [mdel, ha, if_false, List.pairwise_cons]
      exact ⟨fun p hp => h1.1 p (mem_mdel hp).1, ih h1.2⟩

theorem mins_wf {d : α} {m : SMap α} (k : Nat) {v : α} (hv : v ≠ d) (h : mwf d m) : mwf d (mins m k v) := by
  refine ⟨?_, fun p hp => (mem_mins hp).elim (fun e => e ▸ hv) (h.2 p)⟩
  have h1 := h.1
  clear h
  induction m with
  | nil => simp [mins]
  | cons q t ih =>
    obtain ⟨a, w⟩ := q
    have h1' := List.pairwise_cons.1 h1
    simp only [mins]
    split
    · rename_i hk
      refine List.pairwise_cons.2 ⟨fun p hp => ?_, h1⟩
      rcases List.mem_cons.1 hp with rfl | hp
      · exact hk
      · exact Nat.lt_trans hk (h1'.1 p hp)
    · split
      · rename_i ha
        subst ha
        exact List.pairwise_cons.2 ⟨h1'.1, h1'.2⟩
      · refine List.pairwise_cons.2 ⟨fun p hp => ?_, ih h1'.2⟩
        rcases mem_mins hp with rfl | hp
        · show a < k; omega
        · exact h1'.1 p hp

/-- Setting a key keeps the canonical form. -/
theorem mset_wf {d : α} {m : SMap α} (k : Nat) (v : α) (h : mwf d m) : mwf d (mset d m k v) := by
  unfold mset
  split
  · exact mdel_wf k h
  · rename_i hv; exact mins_wf k hv h

theorem mem_mset {d : α} {m : SMap α} {k : Nat} {v : α} {p : Nat × α} (h : p ∈ mset d m k v) : p.1 = k ∨ p ∈ m := by
  unfold mset at h
  split at h
  · exact .inr (mem_mdel h).1
  · exact (mem_mins h).imp (fun e => by rw [e]) id

end Sys2Proof.Laws
end

