-- ==== Sys2Proof/Laws/Keeps.lean ====
section
/-! SUPPORT. What no operation of the model does: the relation Keeps between the state before and the state after, its
combinators, and the operations that write the stores it speaks of. -/

namespace Sys2Proof.Laws

open Sys2Proof.Machine

/-- From s to t the queue and the fuses stand, outputs are only added, and the stores of Inv stay well formed. -/
structure Base (s t : State) : Prop where
  pending : t.pending = s.pending
  fuses : t.fuses = s.fuses
  out : s.out <+: t.out
  mem : mwf 0 s.mem → mwf 0 t.mem
  poison : mwf false s.poison → mwf false t.poison
  recLen : s.records.length ≤ 16 → t.records.length ≤ 16
  recSealed : (∀ r ∈ s.records, recOk r = true) → ∀ r ∈ t.records, recOk r = true

/-- Besides Base: the device state changes to SAFE or not at all, the vendor region and the generation are cleared or
stand, and no fence is lifted. -/
structure Keeps (s t : State) : Prop extends Base s t where
  boot : t.boot = s.boot ∨ t.boot = .safe
  vendor : t.vendor = s.vendor ∨ t.vendor = []
  generation : t.generation = s.generation
  fenced : ∀ u ∈ s.fenced, u ∈ t.fenced

theorem mwf_nil {α : Type} [DecidableEq α] (d : α) : mwf d [] := ⟨.nil, fun _ h => nomatch h⟩

theorem Base.refl (s : State) : Base s s := ⟨rfl, rfl, List.prefix_rfl, id, id, id, id⟩

theorem Base.trans {s t u : State} (h : Base s t) (k : Base t u) : Base s u :=
  ⟨k.pending.trans h.pending, k.fuses.trans h.fuses, h.out.trans k.out, k.mem ∘ h.mem, k.poison ∘ h.poison,
   k.recLen ∘ h.recLen, k.recSealed ∘ h.recSealed⟩

theorem Keeps.refl (s : State) : Keeps s s := ⟨.refl s, .inl rfl, .inl rfl, rfl, fun _ h => h⟩

theorem Keeps.trans {s t u : State} (h : Keeps s t) (k : Keeps t u) : Keeps s u :=
  ⟨h.toBase.trans k.toBase, k.boot.elim (fun e => h.boot.imp e.trans e.trans) .inr,
   k.vendor.elim (fun e => h.vendor.imp e.trans e.trans) .inr, k.generation.trans h.generation,
   fun u hu => k.fenced u (h.fenced u hu)⟩

/-- A state that differs from t in other fields alone. -/
theorem Keeps.same {s t u : State} (h : Keeps s t) (h1 : u.pending = t.pending) (h2 : u.fuses = t.fuses)
    (h3 : u.out = t.out) (h4 : u.mem = t.mem) (h5 : u.poison = t.poison) (h6 : u.records = t.records)
    (h7 : u.boot = t.boot) (h8 : u.vendor = t.vendor) (h9 : u.generation = t.generation)
    (h10 : u.fenced = t.fenced) : Keeps s u := by
  refine ⟨⟨h1.trans h.pending, h2.trans h.fuses, h3 ▸ h.out, ?_, ?_, ?_, ?_⟩, ?_, ?_, ?_, ?_⟩
  · rw [h4]; exact h.mem
  · rw [h5]; exact h.poison
  · rw [h6]; exact h.recLen
  · rw [h6]; exact h.recSealed
  · rw [h7]; exact h.boot
  · rw [h8]; exact h.vendor
  · rw [h9]; exact h.generation
  · rw [h10]; exact h.fenced

/-- A write of other fields alone. -/
theorem Keeps.put {s t : State} (h : Keeps s t)
    {x0 x1 x2 x3 x4 x5 x6 x7 x8 x9 x10 x11 x12 x13 x14 x15 x16 x17 x18 x19 x20 x21 x22 x23 x24 x25 x26 x27 x28 x29
    x30 x31 x32 x33 x34 x35 x36 x37 x38 x39 x40 x41 x42 x43 x44 x45 x46 x47 x48 x49 x50 x51 x52 x53 x54 x55 x56
    x57 x58 x59 x60 x61 x62 x63 x64 x65 x66 x67 x68 x69 x70 x71 x72 x73 x74 x75 x76 x77 x78 x79 x80 x81 x82} :
    Keeps s { t with
      freeCtr := x0, nowNs := x1, ringCycles := x2, board := x3, resetting := x4, resetAt := x5, degraded :=
      x6, bootErr := x7, rejected := x8, bootSlot := x9, fwVer := x10, fwBody := x11, selfTested := x12, stage
      := x13, stageTries := x14, stageAt := x15, going := x16, vendorId := x17, vendorSt := x18, lastLoad :=
      x19, fld := x20, shadow := x21, chg := x22, unitsLeft := x23, applying := x24, setId := x25, late :=
      x26, rails := x27, temps := x28, damped := x29, winBudget := x30, winLimit := x31, lanes := x32, detours
      := x33, mesh := x34, wires := x35, pllParked := x36, parkAt := x37, parked := x38, stopped := x39,
      refSeen := x40, hostPorts := x41, port0 := x42, pfs := x43, fns := x44, advisories := x45, vis := x46,
      engs := x47, movers := x48, gathers := x49, dir := x50, hl := x51, hret := x52, hblocks := x53, aged :=
      x54, domainDown := x55, viralRx := x56, viralTx := x57, lruCtr := x58, ueWindow := x59, scrubAt := x60,
      ports := x61, rt := x62, epochCur := x63, epochArm := x64, grace := x65, ctxs := x66, fwin := x67, iwin
      := x68, qps := x69, ackq := x70, waitq := x71, colls := x72, collWait := x73, collLast := x74, refail :=
      x75, flt := x76, rtc := x77, ctrs := x78, shadowBank := x79, win := x80, tap := x81, tapDebug := x82 }
      :=
  h.same rfl rfl rfl rfl rfl rfl rfl rfl rfl rfl

theorem Keeps.foldl {α : Type} {s : State} {f : State → α → State} (hf : ∀ t x, Keeps s t → Keeps s (f t x)) :
    ∀ (l : List α) {t : State}, Keeps s t → Keeps s (l.foldl f t)
  | [], _, h => h
  | x :: l, t, h => Keeps.foldl hf l (hf t x h)

theorem Keeps.ite {s a b : State} {c : Prop} [Decidable c] (ha : Keeps s a) (hb : Keeps s b) :
    Keeps s (if c then a else b) := by split <;> assumption

theorem Keeps.elim {α : Type} {s t : State} (o : Option α) (h : Keeps s t) {f : α → State} (hf : ∀ x, Keeps s (f x)) :
    Keeps s (o.elim t f) := by cases o <;> simp [h, hf]

/-- The same of an outcome: nothing is said of a stop. -/
def KeepsO (s : State) : Out → Prop
  | .next t => Keeps s t
  | .fault _ => True
  | .refused _ => True

theorem KeepsO.next {s t : State} (h : Keeps s t) : KeepsO s (.next t) := h
theorem KeepsO.fault {s : State} {e : Fault} : KeepsO s (.fault e) := trivial
theorem KeepsO.refused {s : State} {e : Refusal} : KeepsO s (.refused e) := trivial
theorem KeepsO.ite {s : State} {a b : Out} {c : Prop} [Decidable c] (ha : KeepsO s a) (hb : KeepsO s b) :
    KeepsO s (if c then a else b) := by split <;> assumption
theorem KeepsO.elim {s t : State} {o : Out} (h : KeepsO s o) (e : o = .next t) : Keeps s t := by subst e; exact h

/-- The same of a result that carries the state beside it. -/
def KeepsP {α : Type} (s : State) (p : α × State) : Prop := Keeps s p.2

theorem KeepsP.mk {α : Type} {s t : State} {a : α} (h : Keeps s t) : KeepsP s (a, t) := h
theorem KeepsP.ite {α : Type} {s : State} {a b : α × State} {c : Prop} [Decidable c] (ha : KeepsP s a)
    (hb : KeepsP s b) : KeepsP s (if c then a else b) := by split <;> assumption
theorem KeepsP.snd {α : Type} {s : State} {p : α × State} (h : KeepsP s p) : Keeps s p.2 := h
theorem KeepsP.elim {α : Type} {s t : State} {a : α} {p : α × State} (h : KeepsP s p) (e : p = (a, t)) : Keeps s t := by
  subst e; exact h

/-- The same of a state that may be absent. -/
def KeepsS (s : State) : Option State → Prop
  | none => True
  | some t => Keeps s t

theorem KeepsS.some {s t : State} (h : Keeps s t) : KeepsS s (some t) := h
theorem KeepsS.none {s : State} : KeepsS s none := trivial
theorem KeepsS.ite {s : State} {a b : Option State} {c : Prop} [Decidable c] (ha : KeepsS s a) (hb : KeepsS s b) :
    KeepsS s (if c then a else b) := by split <;> assumption
theorem KeepsS.elim {s t : State} {o : Option State} (h : KeepsS s o) (e : o = Option.some t) : Keeps s t := by
  subst e; exact h

/-- The same of a result that may be absent. -/
def KeepsQ {α : Type} (s : State) : Option (α × State) → Prop
  | none => True
  | some p => Keeps s p.2

theorem KeepsQ.some {α : Type} {s t : State} {a : α} (h : Keeps s t) : KeepsQ s (some (a, t)) := h
theorem KeepsQ.none {α : Type} {s : State} : KeepsQ (α := α) s none := trivial
theorem KeepsQ.ite {α : Type} {s : State} {a b : Option (α × State)} {c : Prop} [Decidable c] (ha : KeepsQ s a)
    (hb : KeepsQ s b) : KeepsQ s (if c then a else b) := by split <;> assumption
theorem KeepsQ.elim {α : Type} {s t : State} {a : α} {o : Option (α × State)} (h : KeepsQ s o)
    (e : o = Option.some (a, t)) : Keeps s t := by subst e; exact h

/-! ## The operations that write what Keeps speaks of -/

variable {s0 s : State}

theorem emit_keeps (e : Emit) (h : Keeps s0 s) : Keeps s0 (emit e s) :=
  { h with out := h.out.trans (List.prefix_append _ _) }

theorem emits_keeps (l : List Emit) (h : Keeps s0 s) : Keeps s0 (emits l s) :=
  { h with out := h.out.trans (List.prefix_append _ _) }

/-- A byte written to device memory leaves it in canonical form. -/
theorem writeByte_keeps (a : Nat) (b : Byte) (h : Keeps s0 s) : Keeps s0 (writeByte a b s) :=
  { h with mem := fun w => mset_wf a b (h.mem w) }

theorem setPoison_keeps (a : Nat) (b : Bool) (h : Keeps s0 s) : Keeps s0 (setPoison a b s) :=
  { h with poison := fun w => mset_wf _ b (h.poison w) }

/-- A sealed record passes its check. -/
theorem recOk_recSeal (r : RetRec) : recOk (recSeal r) = true := by
  simp only [recOk, recSeal, recBytes, beq_self_eq_true]

theorem pushRec_keeps (r : RetRec) (h : Keeps s0 s) : Keeps s0 (pushRec r s) :=
  { h with
    recLen := fun _ => by simp only [pushRec, List.length_take]; omega
    recSealed := fun w x hx => by
      rcases List.mem_cons.1 (List.mem_of_mem_take hx) with rfl | hx
      · exact recOk_recSeal r
      · exact h.recSealed w x hx }

theorem updRec0_keeps (f : RetRec → RetRec) (h : Keeps s0 s) : Keeps s0 (updRec0 f s) :=
  { h with
    recLen := fun w => by
      have := h.recLen w
      simp only [updRec0]; split <;> simp_all
    recSealed := fun w x hx => by
      have := h.recSealed w
      simp only [updRec0] at hx
      split at hx
      · rename_i r t e
        rcases List.mem_cons.1 hx with rfl | hx
        · exact recOk_recSeal _
        · exact this x (by rw [e]; exact List.mem_cons_of_mem _ hx)
      · simp at hx }

theorem latchSafe_keeps (h : Keeps s0 s) : Keeps s0 (latchSafe s) := by
  unfold latchSafe
  split
  · exact h
  · exact { h with boot := .inr rfl }

end Sys2Proof.Laws
end

