-- ==== Sys2Proof/Laws/State.lean ====
section
/-! SUPPORT. What each update of State does to each field that the statements read: one lemma for each, true by rfl. -/

namespace Sys2Proof.Machine

variable (s : State)

section
variable (e : Emit)
@[simp] theorem emit_pending : (emit e s).pending = s.pending := rfl
@[simp] theorem emit_out : (emit e s).out = s.out ++ [e] := rfl
@[simp] theorem emit_freeCtr : (emit e s).freeCtr = s.freeCtr := rfl
@[simp] theorem emit_nowNs : (emit e s).nowNs = s.nowNs := rfl
@[simp] theorem emit_ringCycles : (emit e s).ringCycles = s.ringCycles := rfl
@[simp] theorem emit_fuses : (emit e s).fuses = s.fuses := rfl
@[simp] theorem emit_board : (emit e s).board = s.board := rfl
@[simp] theorem emit_boot : (emit e s).boot = s.boot := rfl
@[simp] theorem emit_resetting : (emit e s).resetting = s.resetting := rfl
@[simp] theorem emit_resetAt : (emit e s).resetAt = s.resetAt := rfl
@[simp] theorem emit_degraded : (emit e s).degraded = s.degraded := rfl
@[simp] theorem emit_generation : (emit e s).generation = s.generation := rfl
@[simp] theorem emit_records : (emit e s).records = s.records := rfl
@[simp] theorem emit_bootErr : (emit e s).bootErr = s.bootErr := rfl
@[simp] theorem emit_rejected : (emit e s).rejected = s.rejected := rfl
@[simp] theorem emit_bootSlot : (emit e s).bootSlot = s.bootSlot := rfl
@[simp] theorem emit_fwVer : (emit e s).fwVer = s.fwVer := rfl
@[simp] theorem emit_fwBody : (emit e s).fwBody = s.fwBody := rfl
@[simp] theorem emit_selfTested : (emit e s).selfTested = s.selfTested := rfl
@[simp] theorem emit_stage : (emit e s).stage = s.stage := rfl
@[simp] theorem emit_stageTries : (emit e s).stageTries = s.stageTries := rfl
@[simp] theorem emit_stageAt : (emit e s).stageAt = s.stageAt := rfl
@[simp] theorem emit_going : (emit e s).going = s.going := rfl
@[simp] theorem emit_vendor : (emit e s).vendor = s.vendor := rfl
@[simp] theorem emit_vendorId : (emit e s).vendorId = s.vendorId := rfl
@[simp] theorem emit_vendorSt : (emit e s).vendorSt = s.vendorSt := rfl
@[simp] theorem emit_lastLoad : (emit e s).lastLoad = s.lastLoad := rfl
@[simp] theorem emit_fld : (emit e s).fld = s.fld := rfl
@[simp] theorem emit_shadow : (emit e s).shadow = s.shadow := rfl
@[simp] theorem emit_chg : (emit e s).chg = s.chg := rfl
@[simp] theorem emit_unitsLeft : (emit e s).unitsLeft = s.unitsLeft := rfl
@[simp] theorem emit_applying : (emit e s).applying = s.applying := rfl
@[simp] theorem emit_setId : (emit e s).setId = s.setId := rfl
@[simp] theorem emit_late : (emit e s).late = s.late := rfl
@[simp] theorem emit_rails : (emit e s).rails = s.rails := rfl
@[simp] theorem emit_temps : (emit e s).temps = s.temps := rfl
@[simp] theorem emit_damped : (emit e s).damped = s.damped := rfl
@[simp] theorem emit_winBudget : (emit e s).winBudget = s.winBudget := rfl
@[simp] theorem emit_winLimit : (emit e s).winLimit = s.winLimit := rfl
@[simp] theorem emit_lanes : (emit e s).lanes = s.lanes := rfl
@[simp] theorem emit_detours : (emit e s).detours = s.detours := rfl
@[simp] theorem emit_mesh : (emit e s).mesh = s.mesh := rfl
@[simp] theorem emit_wires : (emit e s).wires = s.wires := rfl
@[simp] theorem emit_fenced : (emit e s).fenced = s.fenced := rfl
@[simp] theorem emit_pllParked : (emit e s).pllParked = s.pllParked := rfl
@[simp] theorem emit_parkAt : (emit e s).parkAt = s.parkAt := rfl
@[simp] theorem emit_parked : (emit e s).parked = s.parked := rfl
@[simp] theorem emit_stopped : (emit e s).stopped = s.stopped := rfl
@[simp] theorem emit_refSeen : (emit e s).refSeen = s.refSeen := rfl
@[simp] theorem emit_hostPorts : (emit e s).hostPorts = s.hostPorts := rfl
@[simp] theorem emit_port0 : (emit e s).port0 = s.port0 := rfl
@[simp] theorem emit_pfs : (emit e s).pfs = s.pfs := rfl
@[simp] theorem emit_fns : (emit e s).fns = s.fns := rfl
@[simp] theorem emit_advisories : (emit e s).advisories = s.advisories := rfl
@[simp] theorem emit_vis : (emit e s).vis = s.vis := rfl
@[simp] theorem emit_engs : (emit e s).engs = s.engs := rfl
@[simp] theorem emit_movers : (emit e s).movers = s.movers := rfl
@[simp] theorem emit_gathers : (emit e s).gathers = s.gathers := rfl
@[simp] theorem emit_dir : (emit e s).dir = s.dir := rfl
@[simp] theorem emit_hl : (emit e s).hl = s.hl := rfl
@[simp] theorem emit_hret : (emit e s).hret = s.hret := rfl
@[simp] theorem emit_hblocks : (emit e s).hblocks = s.hblocks := rfl
@[simp] theorem emit_aged : (emit e s).aged = s.aged := rfl
@[simp] theorem emit_domainDown : (emit e s).domainDown = s.domainDown := rfl
@[simp] theorem emit_viralRx : (emit e s).viralRx = s.viralRx := rfl
@[simp] theorem emit_viralTx : (emit e s).viralTx = s.viralTx := rfl
@[simp] theorem emit_lruCtr : (emit e s).lruCtr = s.lruCtr := rfl
@[simp] theorem emit_mem : (emit e s).mem = s.mem := rfl
@[simp] theorem emit_poison : (emit e s).poison = s.poison := rfl
@[simp] theorem emit_ueWindow : (emit e s).ueWindow = s.ueWindow := rfl
@[simp] theorem emit_scrubAt : (emit e s).scrubAt = s.scrubAt := rfl
@[simp] theorem emit_ports : (emit e s).ports = s.ports := rfl
@[simp] theorem emit_rt : (emit e s).rt = s.rt := rfl
@[simp] theorem emit_epochCur : (emit e s).epochCur = s.epochCur := rfl
@[simp] theorem emit_epochArm : (emit e s).epochArm = s.epochArm := rfl
@[simp] theorem emit_grace : (emit e s).grace = s.grace := rfl
@[simp] theorem emit_ctxs : (emit e s).ctxs = s.ctxs := rfl
@[simp] theorem emit_fwin : (emit e s).fwin = s.fwin := rfl
@[simp] theorem emit_iwin : (emit e s).iwin = s.iwin := rfl
@[simp] theorem emit_qps : (emit e s).qps = s.qps := rfl
@[simp] theorem emit_ackq : (emit e s).ackq = s.ackq := rfl
@[simp] theorem emit_waitq : (emit e s).waitq = s.waitq := rfl
@[simp] theorem emit_colls : (emit e s).colls = s.colls := rfl
@[simp] theorem emit_collWait : (emit e s).collWait = s.collWait := rfl
@[simp] theorem emit_collLast : (emit e s).collLast = s.collLast := rfl
@[simp] theorem emit_refail : (emit e s).refail = s.refail := rfl
@[simp] theorem emit_flt : (emit e s).flt = s.flt := rfl
@[simp] theorem emit_rtc : (emit e s).rtc = s.rtc := rfl
@[simp] theorem emit_ctrs : (emit e s).ctrs = s.ctrs := rfl
@[simp] theorem emit_shadowBank : (emit e s).shadowBank = s.shadowBank := rfl
@[simp] theorem emit_win : (emit e s).win = s.win := rfl
@[simp] theorem emit_tap : (emit e s).tap = s.tap := rfl
@[simp] theorem emit_tapDebug : (emit e s).tapDebug = s.tapDebug := rfl
end

section
variable (l : List Emit)
@[simp] theorem emits_pending : (emits l s).pending = s.pending := rfl
@[simp] theorem emits_out : (emits l s).out = s.out ++ l := rfl
@[simp] theorem emits_freeCtr : (emits l s).freeCtr = s.freeCtr := rfl
@[simp] theorem emits_nowNs : (emits l s).nowNs = s.nowNs := rfl
@[simp] theorem emits_ringCycles : (emits l s).ringCycles = s.ringCycles := rfl
@[simp] theorem emits_fuses : (emits l s).fuses = s.fuses := rfl
@[simp] theorem emits_board : (emits l s).board = s.board := rfl
@[simp] theorem emits_boot : (emits l s).boot = s.boot := rfl
@[simp] theorem emits_resetting : (emits l s).resetting = s.resetting := rfl
@[simp] theorem emits_resetAt : (emits l s).resetAt = s.resetAt := rfl
@[simp] theorem emits_degraded : (emits l s).degraded = s.degraded := rfl
@[simp] theorem emits_generation : (emits l s).generation = s.generation := rfl
@[simp] theorem emits_records : (emits l s).records = s.records := rfl
@[simp] theorem emits_bootErr : (emits l s).bootErr = s.bootErr := rfl
@[simp] theorem emits_rejected : (emits l s).rejected = s.rejected := rfl
@[simp] theorem emits_bootSlot : (emits l s).bootSlot = s.bootSlot := rfl
@[simp] theorem emits_fwVer : (emits l s).fwVer = s.fwVer := rfl
@[simp] theorem emits_fwBody : (emits l s).fwBody = s.fwBody := rfl
@[simp] theorem emits_selfTested : (emits l s).selfTested = s.selfTested := rfl
@[simp] theorem emits_stage : (emits l s).stage = s.stage := rfl
@[simp] theorem emits_stageTries : (emits l s).stageTries = s.stageTries := rfl
@[simp] theorem emits_stageAt : (emits l s).stageAt = s.stageAt := rfl
@[simp] theorem emits_going : (emits l s).going = s.going := rfl
@[simp] theorem emits_vendor : (emits l s).vendor = s.vendor := rfl
@[simp] theorem emits_vendorId : (emits l s).vendorId = s.vendorId := rfl
@[simp] theorem emits_vendorSt : (emits l s).vendorSt = s.vendorSt := rfl
@[simp] theorem emits_lastLoad : (emits l s).lastLoad = s.lastLoad := rfl
@[simp] theorem emits_fld : (emits l s).fld = s.fld := rfl
@[simp] theorem emits_shadow : (emits l s).shadow = s.shadow := rfl
@[simp] theorem emits_chg : (emits l s).chg = s.chg := rfl
@[simp] theorem emits_unitsLeft : (emits l s).unitsLeft = s.unitsLeft := rfl
@[simp] theorem emits_applying : (emits l s).applying = s.applying := rfl
@[simp] theorem emits_setId : (emits l s).setId = s.setId := rfl
@[simp] theorem emits_late : (emits l s).late = s.late := rfl
@[simp] theorem emits_rails : (emits l s).rails = s.rails := rfl
@[simp] theorem emits_temps : (emits l s).temps = s.temps := rfl
@[simp] theorem emits_damped : (emits l s).damped = s.damped := rfl
@[simp] theorem emits_winBudget : (emits l s).winBudget = s.winBudget := rfl
@[simp] theorem emits_winLimit : (emits l s).winLimit = s.winLimit := rfl
@[simp] theorem emits_lanes : (emits l s).lanes = s.lanes := rfl
@[simp] theorem emits_detours : (emits l s).detours = s.detours := rfl
@[simp] theorem emits_mesh : (emits l s).mesh = s.mesh := rfl
@[simp] theorem emits_wires : (emits l s).wires = s.wires := rfl
@[simp] theorem emits_fenced : (emits l s).fenced = s.fenced := rfl
@[simp] theorem emits_pllParked : (emits l s).pllParked = s.pllParked := rfl
@[simp] theorem emits_parkAt : (emits l s).parkAt = s.parkAt := rfl
@[simp] theorem emits_parked : (emits l s).parked = s.parked := rfl
@[simp] theorem emits_stopped : (emits l s).stopped = s.stopped := rfl
@[simp] theorem emits_refSeen : (emits l s).refSeen = s.refSeen := rfl
@[simp] theorem emits_hostPorts : (emits l s).hostPorts = s.hostPorts := rfl
@[simp] theorem emits_port0 : (emits l s).port0 = s.port0 := rfl
@[simp] theorem emits_pfs : (emits l s).pfs = s.pfs := rfl
@[simp] theorem emits_fns : (emits l s).fns = s.fns := rfl
@[simp] theorem emits_advisories : (emits l s).advisories = s.advisories := rfl
@[simp] theorem emits_vis : (emits l s).vis = s.vis := rfl
@[simp] theorem emits_engs : (emits l s).engs = s.engs := rfl
@[simp] theorem emits_movers : (emits l s).movers = s.movers := rfl
@[simp] theorem emits_gathers : (emits l s).gathers = s.gathers := rfl
@[simp] theorem emits_dir : (emits l s).dir = s.dir := rfl
@[simp] theorem emits_hl : (emits l s).hl = s.hl := rfl
@[simp] theorem emits_hret : (emits l s).hret = s.hret := rfl
@[simp] theorem emits_hblocks : (emits l s).hblocks = s.hblocks := rfl
@[simp] theorem emits_aged : (emits l s).aged = s.aged := rfl
@[simp] theorem emits_domainDown : (emits l s).domainDown = s.domainDown := rfl
@[simp] theorem emits_viralRx : (emits l s).viralRx = s.viralRx := rfl
@[simp] theorem emits_viralTx : (emits l s).viralTx = s.viralTx := rfl
@[simp] theorem emits_lruCtr : (emits l s).lruCtr = s.lruCtr := rfl
@[simp] theorem emits_mem : (emits l s).mem = s.mem := rfl
@[simp] theorem emits_poison : (emits l s).poison = s.poison := rfl
@[simp] theorem emits_ueWindow : (emits l s).ueWindow = s.ueWindow := rfl
@[simp] theorem emits_scrubAt : (emits l s).scrubAt = s.scrubAt := rfl
@[simp] theorem emits_ports : (emits l s).ports = s.ports := rfl
@[simp] theorem emits_rt : (emits l s).rt = s.rt := rfl
@[simp] theorem emits_epochCur : (emits l s).epochCur = s.epochCur := rfl
@[simp] theorem emits_epochArm : (emits l s).epochArm = s.epochArm := rfl
@[simp] theorem emits_grace : (emits l s).grace = s.grace := rfl
@[simp] theorem emits_ctxs : (emits l s).ctxs = s.ctxs := rfl
@[simp] theorem emits_fwin : (emits l s).fwin = s.fwin := rfl
@[simp] theorem emits_iwin : (emits l s).iwin = s.iwin := rfl
@[simp] theorem emits_qps : (emits l s).qps = s.qps := rfl
@[simp] theorem emits_ackq : (emits l s).ackq = s.ackq := rfl
@[simp] theorem emits_waitq : (emits l s).waitq = s.waitq := rfl
@[simp] theorem emits_colls : (emits l s).colls = s.colls := rfl
@[simp] theorem emits_collWait : (emits l s).collWait = s.collWait := rfl
@[simp] theorem emits_collLast : (emits l s).collLast = s.collLast := rfl
@[simp] theorem emits_refail : (emits l s).refail = s.refail := rfl
@[simp] theorem emits_flt : (emits l s).flt = s.flt := rfl
@[simp] theorem emits_rtc : (emits l s).rtc = s.rtc := rfl
@[simp] theorem emits_ctrs : (emits l s).ctrs = s.ctrs := rfl
@[simp] theorem emits_shadowBank : (emits l s).shadowBank = s.shadowBank := rfl
@[simp] theorem emits_win : (emits l s).win = s.win := rfl
@[simp] theorem emits_tap : (emits l s).tap = s.tap := rfl
@[simp] theorem emits_tapDebug : (emits l s).tapDebug = s.tapDebug := rfl
end

section
@[simp] theorem tick_pending : (tick s).pending = s.pending := rfl
@[simp] theorem tick_out : (tick s).out = s.out := rfl
@[simp] theorem tick_freeCtr : (tick s).freeCtr = s.freeCtr + 1 := rfl
@[simp] theorem tick_nowNs : (tick s).nowNs = s.nowNs := rfl
@[simp] theorem tick_ringCycles : (tick s).ringCycles = s.ringCycles := rfl
@[simp] theorem tick_fuses : (tick s).fuses = s.fuses := rfl
@[simp] theorem tick_board : (tick s).board = s.board := rfl
@[simp] theorem tick_boot : (tick s).boot = s.boot := rfl
@[simp] theorem tick_resetting : (tick s).resetting = s.resetting := rfl
@[simp] theorem tick_resetAt : (tick s).resetAt = s.resetAt := rfl
@[simp] theorem tick_degraded : (tick s).degraded = s.degraded := rfl
@[simp] theorem tick_generation : (tick s).generation = s.generation := rfl
@[simp] theorem tick_records : (tick s).records = s.records := rfl
@[simp] theorem tick_bootErr : (tick s).bootErr = s.bootErr := rfl
@[simp] theorem tick_rejected : (tick s).rejected = s.rejected := rfl
@[simp] theorem tick_bootSlot : (tick s).bootSlot = s.bootSlot := rfl
@[simp] theorem tick_fwVer : (tick s).fwVer = s.fwVer := rfl
@[simp] theorem tick_fwBody : (tick s).fwBody = s.fwBody := rfl
@[simp] theorem tick_selfTested : (tick s).selfTested = s.selfTested := rfl
@[simp] theorem tick_stage : (tick s).stage = s.stage := rfl
@[simp] theorem tick_stageTries : (tick s).stageTries = s.stageTries := rfl
@[simp] theorem tick_stageAt : (tick s).stageAt = s.stageAt := rfl
@[simp] theorem tick_going : (tick s).going = s.going := rfl
@[simp] theorem tick_vendor : (tick s).vendor = s.vendor := rfl
@[simp] theorem tick_vendorId : (tick s).vendorId = s.vendorId := rfl
@[simp] theorem tick_vendorSt : (tick s).vendorSt = s.vendorSt := rfl
@[simp] theorem tick_lastLoad : (tick s).lastLoad = s.lastLoad := rfl
@[simp] theorem tick_fld : (tick s).fld = s.fld := rfl
@[simp] theorem tick_shadow : (tick s).shadow = s.shadow := rfl
@[simp] theorem tick_chg : (tick s).chg = s.chg := rfl
@[simp] theorem tick_unitsLeft : (tick s).unitsLeft = s.unitsLeft := rfl
@[simp] theorem tick_applying : (tick s).applying = s.applying := rfl
@[simp] theorem tick_setId : (tick s).setId = s.setId := rfl
@[simp] theorem tick_late : (tick s).late = s.late := rfl
@[simp] theorem tick_rails : (tick s).rails = s.rails := rfl
@[simp] theorem tick_temps : (tick s).temps = s.temps := rfl
@[simp] theorem tick_damped : (tick s).damped = s.damped := rfl
@[simp] theorem tick_winBudget : (tick s).winBudget = s.winBudget := rfl
@[simp] theorem tick_winLimit : (tick s).winLimit = s.winLimit := rfl
@[simp] theorem tick_lanes : (tick s).lanes = s.lanes := rfl
@[simp] theorem tick_detours : (tick s).detours = s.detours := rfl
@[simp] theorem tick_mesh : (tick s).mesh = s.mesh := rfl
@[simp] theorem tick_wires : (tick s).wires = s.wires := rfl
@[simp] theorem tick_fenced : (tick s).fenced = s.fenced := rfl
@[simp] theorem tick_pllParked : (tick s).pllParked = s.pllParked := rfl
@[simp] theorem tick_parkAt : (tick s).parkAt = s.parkAt := rfl
@[simp] theorem tick_parked : (tick s).parked = s.parked := rfl
@[simp] theorem tick_stopped : (tick s).stopped = s.stopped := rfl
@[simp] theorem tick_refSeen : (tick s).refSeen = s.refSeen := rfl
@[simp] theorem tick_hostPorts : (tick s).hostPorts = s.hostPorts := rfl
@[simp] theorem tick_port0 : (tick s).port0 = s.port0 := rfl
@[simp] theorem tick_pfs : (tick s).pfs = s.pfs := rfl
@[simp] theorem tick_fns : (tick s).fns = s.fns := rfl
@[simp] theorem tick_advisories : (tick s).advisories = s.advisories := rfl
@[simp] theorem tick_vis : (tick s).vis = s.vis := rfl
@[simp] theorem tick_engs : (tick s).engs = s.engs := rfl
@[simp] theorem tick_movers : (tick s).movers = s.movers := rfl
@[simp] theorem tick_gathers : (tick s).gathers = s.gathers := rfl
@[simp] theorem tick_dir : (tick s).dir = s.dir := rfl
@[simp] theorem tick_hl : (tick s).hl = s.hl := rfl
@[simp] theorem tick_hret : (tick s).hret = s.hret := rfl
@[simp] theorem tick_hblocks : (tick s).hblocks = s.hblocks := rfl
@[simp] theorem tick_aged : (tick s).aged = s.aged := rfl
@[simp] theorem tick_domainDown : (tick s).domainDown = s.domainDown := rfl
@[simp] theorem tick_viralRx : (tick s).viralRx = s.viralRx := rfl
@[simp] theorem tick_viralTx : (tick s).viralTx = s.viralTx := rfl
@[simp] theorem tick_lruCtr : (tick s).lruCtr = s.lruCtr := rfl
@[simp] theorem tick_mem : (tick s).mem = s.mem := rfl
@[simp] theorem tick_poison : (tick s).poison = s.poison := rfl
@[simp] theorem tick_ueWindow : (tick s).ueWindow = s.ueWindow := rfl
@[simp] theorem tick_scrubAt : (tick s).scrubAt = s.scrubAt := rfl
@[simp] theorem tick_ports : (tick s).ports = s.ports := rfl
@[simp] theorem tick_rt : (tick s).rt = s.rt := rfl
@[simp] theorem tick_epochCur : (tick s).epochCur = s.epochCur := rfl
@[simp] theorem tick_epochArm : (tick s).epochArm = s.epochArm := rfl
@[simp] theorem tick_grace : (tick s).grace = s.grace := rfl
@[simp] theorem tick_ctxs : (tick s).ctxs = s.ctxs := rfl
@[simp] theorem tick_fwin : (tick s).fwin = s.fwin := rfl
@[simp] theorem tick_iwin : (tick s).iwin = s.iwin := rfl
@[simp] theorem tick_qps : (tick s).qps = s.qps := rfl
@[simp] theorem tick_ackq : (tick s).ackq = s.ackq := rfl
@[simp] theorem tick_waitq : (tick s).waitq = s.waitq := rfl
@[simp] theorem tick_colls : (tick s).colls = s.colls := rfl
@[simp] theorem tick_collWait : (tick s).collWait = s.collWait := rfl
@[simp] theorem tick_collLast : (tick s).collLast = s.collLast := rfl
@[simp] theorem tick_refail : (tick s).refail = s.refail := rfl
@[simp] theorem tick_flt : (tick s).flt = s.flt := rfl
@[simp] theorem tick_rtc : (tick s).rtc = s.rtc := rfl
@[simp] theorem tick_ctrs : (tick s).ctrs = s.ctrs := rfl
@[simp] theorem tick_shadowBank : (tick s).shadowBank = s.shadowBank := rfl
@[simp] theorem tick_win : (tick s).win = s.win := rfl
@[simp] theorem tick_tap : (tick s).tap = s.tap := rfl
@[simp] theorem tick_tapDebug : (tick s).tapDebug = s.tapDebug := rfl
end

section
variable (k : F) (i v : Nat)
@[simp] theorem fset_pending : (fset k i v s).pending = s.pending := rfl
@[simp] theorem fset_out : (fset k i v s).out = s.out := rfl
@[simp] theorem fset_freeCtr : (fset k i v s).freeCtr = s.freeCtr := rfl
@[simp] theorem fset_nowNs : (fset k i v s).nowNs = s.nowNs := rfl
@[simp] theorem fset_ringCycles : (fset k i v s).ringCycles = s.ringCycles := rfl
@[simp] theorem fset_fuses : (fset k i v s).fuses = s.fuses := rfl
@[simp] theorem fset_board : (fset k i v s).board = s.board := rfl
@[simp] theorem fset_boot : (fset k i v s).boot = s.boot := rfl
@[simp] theorem fset_resetting : (fset k i v s).resetting = s.resetting := rfl
@[simp] theorem fset_resetAt : (fset k i v s).resetAt = s.resetAt := rfl
@[simp] theorem fset_degraded : (fset k i v s).degraded = s.degraded := rfl
@[simp] theorem fset_generation : (fset k i v s).generation = s.generation := rfl
@[simp] theorem fset_records : (fset k i v s).records = s.records := rfl
@[simp] theorem fset_bootErr : (fset k i v s).bootErr = s.bootErr := rfl
@[simp] theorem fset_rejected : (fset k i v s).rejected = s.rejected := rfl
@[simp] theorem fset_bootSlot : (fset k i v s).bootSlot = s.bootSlot := rfl
@[simp] theorem fset_fwVer : (fset k i v s).fwVer = s.fwVer := rfl
@[simp] theorem fset_fwBody : (fset k i v s).fwBody = s.fwBody := rfl
@[simp] theorem fset_selfTested : (fset k i v s).selfTested = s.selfTested := rfl
@[simp] theorem fset_stage : (fset k i v s).stage = s.stage := rfl
@[simp] theorem fset_stageTries : (fset k i v s).stageTries = s.stageTries := rfl
@[simp] theorem fset_stageAt : (fset k i v s).stageAt = s.stageAt := rfl
@[simp] theorem fset_going : (fset k i v s).going = s.going := rfl
@[simp] theorem fset_vendor : (fset k i v s).vendor = s.vendor := rfl
@[simp] theorem fset_vendorId : (fset k i v s).vendorId = s.vendorId := rfl
@[simp] theorem fset_vendorSt : (fset k i v s).vendorSt = s.vendorSt := rfl
@[simp] theorem fset_lastLoad : (fset k i v s).lastLoad = s.lastLoad := rfl
@[simp] theorem fset_fld : (fset k i v s).fld = mset (resetOf s.fuses k i) s.fld (fkey k i) v := rfl
@[simp] theorem fset_shadow : (fset k i v s).shadow = s.shadow := rfl
@[simp] theorem fset_chg : (fset k i v s).chg = s.chg := rfl
@[simp] theorem fset_unitsLeft : (fset k i v s).unitsLeft = s.unitsLeft := rfl
@[simp] theorem fset_applying : (fset k i v s).applying = s.applying := rfl
@[simp] theorem fset_setId : (fset k i v s).setId = s.setId := rfl
@[simp] theorem fset_late : (fset k i v s).late = s.late := rfl
@[simp] theorem fset_rails : (fset k i v s).rails = s.rails := rfl
@[simp] theorem fset_temps : (fset k i v s).temps = s.temps := rfl
@[simp] theorem fset_damped : (fset k i v s).damped = s.damped := rfl
@[simp] theorem fset_winBudget : (fset k i v s).winBudget = s.winBudget := rfl
@[simp] theorem fset_winLimit : (fset k i v s).winLimit = s.winLimit := rfl
@[simp] theorem fset_lanes : (fset k i v s).lanes = s.lanes := rfl
@[simp] theorem fset_detours : (fset k i v s).detours = s.detours := rfl
@[simp] theorem fset_mesh : (fset k i v s).mesh = s.mesh := rfl
@[simp] theorem fset_wires : (fset k i v s).wires = s.wires := rfl
@[simp] theorem fset_fenced : (fset k i v s).fenced = s.fenced := rfl
@[simp] theorem fset_pllParked : (fset k i v s).pllParked = s.pllParked := rfl
@[simp] theorem fset_parkAt : (fset k i v s).parkAt = s.parkAt := rfl
@[simp] theorem fset_parked : (fset k i v s).parked = s.parked := rfl
@[simp] theorem fset_stopped : (fset k i v s).stopped = s.stopped := rfl
@[simp] theorem fset_refSeen : (fset k i v s).refSeen = s.refSeen := rfl
@[simp] theorem fset_hostPorts : (fset k i v s).hostPorts = s.hostPorts := rfl
@[simp] theorem fset_port0 : (fset k i v s).port0 = s.port0 := rfl
@[simp] theorem fset_pfs : (fset k i v s).pfs = s.pfs := rfl
@[simp] theorem fset_fns : (fset k i v s).fns = s.fns := rfl
@[simp] theorem fset_advisories : (fset k i v s).advisories = s.advisories := rfl
@[simp] theorem fset_vis : (fset k i v s).vis = s.vis := rfl
@[simp] theorem fset_engs : (fset k i v s).engs = s.engs := rfl
@[simp] theorem fset_movers : (fset k i v s).movers = s.movers := rfl
@[simp] theorem fset_gathers : (fset k i v s).gathers = s.gathers := rfl
@[simp] theorem fset_dir : (fset k i v s).dir = s.dir := rfl
@[simp] theorem fset_hl : (fset k i v s).hl = s.hl := rfl
@[simp] theorem fset_hret : (fset k i v s).hret = s.hret := rfl
@[simp] theorem fset_hblocks : (fset k i v s).hblocks = s.hblocks := rfl
@[simp] theorem fset_aged : (fset k i v s).aged = s.aged := rfl
@[simp] theorem fset_domainDown : (fset k i v s).domainDown = s.domainDown := rfl
@[simp] theorem fset_viralRx : (fset k i v s).viralRx = s.viralRx := rfl
@[simp] theorem fset_viralTx : (fset k i v s).viralTx = s.viralTx := rfl
@[simp] theorem fset_lruCtr : (fset k i v s).lruCtr = s.lruCtr := rfl
@[simp] theorem fset_mem : (fset k i v s).mem = s.mem := rfl
@[simp] theorem fset_poison : (fset k i v s).poison = s.poison := rfl
@[simp] theorem fset_ueWindow : (fset k i v s).ueWindow = s.ueWindow := rfl
@[simp] theorem fset_scrubAt : (fset k i v s).scrubAt = s.scrubAt := rfl
@[simp] theorem fset_ports : (fset k i v s).ports = s.ports := rfl
@[simp] theorem fset_rt : (fset k i v s).rt = s.rt := rfl
@[simp] theorem fset_epochCur : (fset k i v s).epochCur = s.epochCur := rfl
@[simp] theorem fset_epochArm : (fset k i v s).epochArm = s.epochArm := rfl
@[simp] theorem fset_grace : (fset k i v s).grace = s.grace := rfl
@[simp] theorem fset_ctxs : (fset k i v s).ctxs = s.ctxs := rfl
@[simp] theorem fset_fwin : (fset k i v s).fwin = s.fwin := rfl
@[simp] theorem fset_iwin : (fset k i v s).iwin = s.iwin := rfl
@[simp] theorem fset_qps : (fset k i v s).qps = s.qps := rfl
@[simp] theorem fset_ackq : (fset k i v s).ackq = s.ackq := rfl
@[simp] theorem fset_waitq : (fset k i v s).waitq = s.waitq := rfl
@[simp] theorem fset_colls : (fset k i v s).colls = s.colls := rfl
@[simp] theorem fset_collWait : (fset k i v s).collWait = s.collWait := rfl
@[simp] theorem fset_collLast : (fset k i v s).collLast = s.collLast := rfl
@[simp] theorem fset_refail : (fset k i v s).refail = s.refail := rfl
@[simp] theorem fset_flt : (fset k i v s).flt = s.flt := rfl
@[simp] theorem fset_rtc : (fset k i v s).rtc = s.rtc := rfl
@[simp] theorem fset_ctrs : (fset k i v s).ctrs = s.ctrs := rfl
@[simp] theorem fset_shadowBank : (fset k i v s).shadowBank = s.shadowBank := rfl
@[simp] theorem fset_win : (fset k i v s).win = s.win := rfl
@[simp] theorem fset_tap : (fset k i v s).tap = s.tap := rfl
@[simp] theorem fset_tapDebug : (fset k i v s).tapDebug = s.tapDebug := rfl
end

section
variable (a : Nat) (b : Byte)
@[simp] theorem writeByte_pending : (writeByte a b s).pending = s.pending := rfl
@[simp] theorem writeByte_out : (writeByte a b s).out = s.out := rfl
@[simp] theorem writeByte_freeCtr : (writeByte a b s).freeCtr = s.freeCtr := rfl
@[simp] theorem writeByte_nowNs : (writeByte a b s).nowNs = s.nowNs := rfl
@[simp] theorem writeByte_ringCycles : (writeByte a b s).ringCycles = s.ringCycles := rfl
@[simp] theorem writeByte_fuses : (writeByte a b s).fuses = s.fuses := rfl
@[simp] theorem writeByte_board : (writeByte a b s).board = s.board := rfl
@[simp] theorem writeByte_boot : (writeByte a b s).boot = s.boot := rfl
@[simp] theorem writeByte_resetting : (writeByte a b s).resetting = s.resetting := rfl
@[simp] theorem writeByte_resetAt : (writeByte a b s).resetAt = s.resetAt := rfl
@[simp] theorem writeByte_degraded : (writeByte a b s).degraded = s.degraded := rfl
@[simp] theorem writeByte_generation : (writeByte a b s).generation = s.generation := rfl
@[simp] theorem writeByte_records : (writeByte a b s).records = s.records := rfl
@[simp] theorem writeByte_bootErr : (writeByte a b s).bootErr = s.bootErr := rfl
@[simp] theorem writeByte_rejected : (writeByte a b s).rejected = s.rejected := rfl
@[simp] theorem writeByte_bootSlot : (writeByte a b s).bootSlot = s.bootSlot := rfl
@[simp] theorem writeByte_fwVer : (writeByte a b s).fwVer = s.fwVer := rfl
@[simp] theorem writeByte_fwBody : (writeByte a b s).fwBody = s.fwBody := rfl
@[simp] theorem writeByte_selfTested : (writeByte a b s).selfTested = s.selfTested := rfl
@[simp] theorem writeByte_stage : (writeByte a b s).stage = s.stage := rfl
@[simp] theorem writeByte_stageTries : (writeByte a b s).stageTries = s.stageTries := rfl
@[simp] theorem writeByte_stageAt : (writeByte a b s).stageAt = s.stageAt := rfl
@[simp] theorem writeByte_going : (writeByte a b s).going = s.going := rfl
@[simp] theorem writeByte_vendor : (writeByte a b s).vendor = s.vendor := rfl
@[simp] theorem writeByte_vendorId : (writeByte a b s).vendorId = s.vendorId := rfl
@[simp] theorem writeByte_vendorSt : (writeByte a b s).vendorSt = s.vendorSt := rfl
@[simp] theorem writeByte_lastLoad : (writeByte a b s).lastLoad = s.lastLoad := rfl
@[simp] theorem writeByte_fld : (writeByte a b s).fld = s.fld := rfl
@[simp] theorem writeByte_shadow : (writeByte a b s).shadow = s.shadow := rfl
@[simp] theorem writeByte_chg : (writeByte a b s).chg = s.chg := rfl
@[simp] theorem writeByte_unitsLeft : (writeByte a b s).unitsLeft = s.unitsLeft := rfl
@[simp] theorem writeByte_applying : (writeByte a b s).applying = s.applying := rfl
@[simp] theorem writeByte_setId : (writeByte a b s).setId = s.setId := rfl
@[simp] theorem writeByte_late : (writeByte a b s).late = s.late := rfl
@[simp] theorem writeByte_rails : (writeByte a b s).rails = s.rails := rfl
@[simp] theorem writeByte_temps : (writeByte a b s).temps = s.temps := rfl
@[simp] theorem writeByte_damped : (writeByte a b s).damped = s.damped := rfl
@[simp] theorem writeByte_winBudget : (writeByte a b s).winBudget = s.winBudget := rfl
@[simp] theorem writeByte_winLimit : (writeByte a b s).winLimit = s.winLimit := rfl
@[simp] theorem writeByte_lanes : (writeByte a b s).lanes = s.lanes := rfl
@[simp] theorem writeByte_detours : (writeByte a b s).detours = s.detours := rfl
@[simp] theorem writeByte_mesh : (writeByte a b s).mesh = s.mesh := rfl
@[simp] theorem writeByte_wires : (writeByte a b s).wires = s.wires := rfl
@[simp] theorem writeByte_fenced : (writeByte a b s).fenced = s.fenced := rfl
@[simp] theorem writeByte_pllParked : (writeByte a b s).pllParked = s.pllParked := rfl
@[simp] theorem writeByte_parkAt : (writeByte a b s).parkAt = s.parkAt := rfl
@[simp] theorem writeByte_parked : (writeByte a b s).parked = s.parked := rfl
@[simp] theorem writeByte_stopped : (writeByte a b s).stopped = s.stopped := rfl
@[simp] theorem writeByte_refSeen : (writeByte a b s).refSeen = s.refSeen := rfl
@[simp] theorem writeByte_hostPorts : (writeByte a b s).hostPorts = s.hostPorts := rfl
@[simp] theorem writeByte_port0 : (writeByte a b s).port0 = s.port0 := rfl
@[simp] theorem writeByte_pfs : (writeByte a b s).pfs = s.pfs := rfl
@[simp] theorem writeByte_fns : (writeByte a b s).fns = s.fns := rfl
@[simp] theorem writeByte_advisories : (writeByte a b s).advisories = s.advisories := rfl
@[simp] theorem writeByte_vis : (writeByte a b s).vis = s.vis := rfl
@[simp] theorem writeByte_engs : (writeByte a b s).engs = s.engs := rfl
@[simp] theorem writeByte_movers : (writeByte a b s).movers = s.movers := rfl
@[simp] theorem writeByte_gathers : (writeByte a b s).gathers = s.gathers := rfl
@[simp] theorem writeByte_dir : (writeByte a b s).dir = s.dir := rfl
@[simp] theorem writeByte_hl : (writeByte a b s).hl = s.hl := rfl
@[simp] theorem writeByte_hret : (writeByte a b s).hret = s.hret := rfl
@[simp] theorem writeByte_hblocks : (writeByte a b s).hblocks = s.hblocks := rfl
@[simp] theorem writeByte_aged : (writeByte a b s).aged = s.aged := rfl
@[simp] theorem writeByte_domainDown : (writeByte a b s).domainDown = s.domainDown := rfl
@[simp] theorem writeByte_viralRx : (writeByte a b s).viralRx = s.viralRx := rfl
@[simp] theorem writeByte_viralTx : (writeByte a b s).viralTx = s.viralTx := rfl
@[simp] theorem writeByte_lruCtr : (writeByte a b s).lruCtr = s.lruCtr := rfl
@[simp] theorem writeByte_mem : (writeByte a b s).mem = mset 0 s.mem a b := rfl
@[simp] theorem writeByte_poison : (writeByte a b s).poison = s.poison := rfl
@[simp] theorem writeByte_ueWindow : (writeByte a b s).ueWindow = s.ueWindow := rfl
@[simp] theorem writeByte_scrubAt : (writeByte a b s).scrubAt = s.scrubAt := rfl
@[simp] theorem writeByte_ports : (writeByte a b s).ports = s.ports := rfl
@[simp] theorem writeByte_rt : (writeByte a b s).rt = s.rt := rfl
@[simp] theorem writeByte_epochCur : (writeByte a b s).epochCur = s.epochCur := rfl
@[simp] theorem writeByte_epochArm : (writeByte a b s).epochArm = s.epochArm := rfl
@[simp] theorem writeByte_grace : (writeByte a b s).grace = s.grace := rfl
@[simp] theorem writeByte_ctxs : (writeByte a b s).ctxs = s.ctxs := rfl
@[simp] theorem writeByte_fwin : (writeByte a b s).fwin = s.fwin := rfl
@[simp] theorem writeByte_iwin : (writeByte a b s).iwin = s.iwin := rfl
@[simp] theorem writeByte_qps : (writeByte a b s).qps = s.qps := rfl
@[simp] theorem writeByte_ackq : (writeByte a b s).ackq = s.ackq := rfl
@[simp] theorem writeByte_waitq : (writeByte a b s).waitq = s.waitq := rfl
@[simp] theorem writeByte_colls : (writeByte a b s).colls = s.colls := rfl
@[simp] theorem writeByte_collWait : (writeByte a b s).collWait = s.collWait := rfl
@[simp] theorem writeByte_collLast : (writeByte a b s).collLast = s.collLast := rfl
@[simp] theorem writeByte_refail : (writeByte a b s).refail = s.refail := rfl
@[simp] theorem writeByte_flt : (writeByte a b s).flt = s.flt := rfl
@[simp] theorem writeByte_rtc : (writeByte a b s).rtc = s.rtc := rfl
@[simp] theorem writeByte_ctrs : (writeByte a b s).ctrs = s.ctrs := rfl
@[simp] theorem writeByte_shadowBank : (writeByte a b s).shadowBank = s.shadowBank := rfl
@[simp] theorem writeByte_win : (writeByte a b s).win = s.win := rfl
@[simp] theorem writeByte_tap : (writeByte a b s).tap = s.tap := rfl
@[simp] theorem writeByte_tapDebug : (writeByte a b s).tapDebug = s.tapDebug := rfl
end

section
variable (a : Nat) (b : Bool)
@[simp] theorem setPoison_pending : (setPoison a b s).pending = s.pending := rfl
@[simp] theorem setPoison_out : (setPoison a b s).out = s.out := rfl
@[simp] theorem setPoison_freeCtr : (setPoison a b s).freeCtr = s.freeCtr := rfl
@[simp] theorem setPoison_nowNs : (setPoison a b s).nowNs = s.nowNs := rfl
@[simp] theorem setPoison_ringCycles : (setPoison a b s).ringCycles = s.ringCycles := rfl
@[simp] theorem setPoison_fuses : (setPoison a b s).fuses = s.fuses := rfl
@[simp] theorem setPoison_board : (setPoison a b s).board = s.board := rfl
@[simp] theorem setPoison_boot : (setPoison a b s).boot = s.boot := rfl
@[simp] theorem setPoison_resetting : (setPoison a b s).resetting = s.resetting := rfl
@[simp] theorem setPoison_resetAt : (setPoison a b s).resetAt = s.resetAt := rfl
@[simp] theorem setPoison_degraded : (setPoison a b s).degraded = s.degraded := rfl
@[simp] theorem setPoison_generation : (setPoison a b s).generation = s.generation := rfl
@[simp] theorem setPoison_records : (setPoison a b s).records = s.records := rfl
@[simp] theorem setPoison_bootErr : (setPoison a b s).bootErr = s.bootErr := rfl
@[simp] theorem setPoison_rejected : (setPoison a b s).rejected = s.rejected := rfl
@[simp] theorem setPoison_bootSlot : (setPoison a b s).bootSlot = s.bootSlot := rfl
@[simp] theorem setPoison_fwVer : (setPoison a b s).fwVer = s.fwVer := rfl
@[simp] theorem setPoison_fwBody : (setPoison a b s).fwBody = s.fwBody := rfl
@[simp] theorem setPoison_selfTested : (setPoison a b s).selfTested = s.selfTested := rfl
@[simp] theorem setPoison_stage : (setPoison a b s).stage = s.stage := rfl
@[simp] theorem setPoison_stageTries : (setPoison a b s).stageTries = s.stageTries := rfl
@[simp] theorem setPoison_stageAt : (setPoison a b s).stageAt = s.stageAt := rfl
@[simp] theorem setPoison_going : (setPoison a b s).going = s.going := rfl
@[simp] theorem setPoison_vendor : (setPoison a b s).vendor = s.vendor := rfl
@[simp] theorem setPoison_vendorId : (setPoison a b s).vendorId = s.vendorId := rfl
@[simp] theorem setPoison_vendorSt : (setPoison a b s).vendorSt = s.vendorSt := rfl
@[simp] theorem setPoison_lastLoad : (setPoison a b s).lastLoad = s.lastLoad := rfl
@[simp] theorem setPoison_fld : (setPoison a b s).fld = s.fld := rfl
@[simp] theorem setPoison_shadow : (setPoison a b s).shadow = s.shadow := rfl
@[simp] theorem setPoison_chg : (setPoison a b s).chg = s.chg := rfl
@[simp] theorem setPoison_unitsLeft : (setPoison a b s).unitsLeft = s.unitsLeft := rfl
@[simp] theorem setPoison_applying : (setPoison a b s).applying = s.applying := rfl
@[simp] theorem setPoison_setId : (setPoison a b s).setId = s.setId := rfl
@[simp] theorem setPoison_late : (setPoison a b s).late = s.late := rfl
@[simp] theorem setPoison_rails : (setPoison a b s).rails = s.rails := rfl
@[simp] theorem setPoison_temps : (setPoison a b s).temps = s.temps := rfl
@[simp] theorem setPoison_damped : (setPoison a b s).damped = s.damped := rfl
@[simp] theorem setPoison_winBudget : (setPoison a b s).winBudget = s.winBudget := rfl
@[simp] theorem setPoison_winLimit : (setPoison a b s).winLimit = s.winLimit := rfl
@[simp] theorem setPoison_lanes : (setPoison a b s).lanes = s.lanes := rfl
@[simp] theorem setPoison_detours : (setPoison a b s).detours = s.detours := rfl
@[simp] theorem setPoison_mesh : (setPoison a b s).mesh = s.mesh := rfl
@[simp] theorem setPoison_wires : (setPoison a b s).wires = s.wires := rfl
@[simp] theorem setPoison_fenced : (setPoison a b s).fenced = s.fenced := rfl
@[simp] theorem setPoison_pllParked : (setPoison a b s).pllParked = s.pllParked := rfl
@[simp] theorem setPoison_parkAt : (setPoison a b s).parkAt = s.parkAt := rfl
@[simp] theorem setPoison_parked : (setPoison a b s).parked = s.parked := rfl
@[simp] theorem setPoison_stopped : (setPoison a b s).stopped = s.stopped := rfl
@[simp] theorem setPoison_refSeen : (setPoison a b s).refSeen = s.refSeen := rfl
@[simp] theorem setPoison_hostPorts : (setPoison a b s).hostPorts = s.hostPorts := rfl
@[simp] theorem setPoison_port0 : (setPoison a b s).port0 = s.port0 := rfl
@[simp] theorem setPoison_pfs : (setPoison a b s).pfs = s.pfs := rfl
@[simp] theorem setPoison_fns : (setPoison a b s).fns = s.fns := rfl
@[simp] theorem setPoison_advisories : (setPoison a b s).advisories = s.advisories := rfl
@[simp] theorem setPoison_vis : (setPoison a b s).vis = s.vis := rfl
@[simp] theorem setPoison_engs : (setPoison a b s).engs = s.engs := rfl
@[simp] theorem setPoison_movers : (setPoison a b s).movers = s.movers := rfl
@[simp] theorem setPoison_gathers : (setPoison a b s).gathers = s.gathers := rfl
@[simp] theorem setPoison_dir : (setPoison a b s).dir = s.dir := rfl
@[simp] theorem setPoison_hl : (setPoison a b s).hl = s.hl := rfl
@[simp] theorem setPoison_hret : (setPoison a b s).hret = s.hret := rfl
@[simp] theorem setPoison_hblocks : (setPoison a b s).hblocks = s.hblocks := rfl
@[simp] theorem setPoison_aged : (setPoison a b s).aged = s.aged := rfl
@[simp] theorem setPoison_domainDown : (setPoison a b s).domainDown = s.domainDown := rfl
@[simp] theorem setPoison_viralRx : (setPoison a b s).viralRx = s.viralRx := rfl
@[simp] theorem setPoison_viralTx : (setPoison a b s).viralTx = s.viralTx := rfl
@[simp] theorem setPoison_lruCtr : (setPoison a b s).lruCtr = s.lruCtr := rfl
@[simp] theorem setPoison_mem : (setPoison a b s).mem = s.mem := rfl
@[simp] theorem setPoison_poison : (setPoison a b s).poison = mset false s.poison (a / 32) b := rfl
@[simp] theorem setPoison_ueWindow : (setPoison a b s).ueWindow = s.ueWindow := rfl
@[simp] theorem setPoison_scrubAt : (setPoison a b s).scrubAt = s.scrubAt := rfl
@[simp] theorem setPoison_ports : (setPoison a b s).ports = s.ports := rfl
@[simp] theorem setPoison_rt : (setPoison a b s).rt = s.rt := rfl
@[simp] theorem setPoison_epochCur : (setPoison a b s).epochCur = s.epochCur := rfl
@[simp] theorem setPoison_epochArm : (setPoison a b s).epochArm = s.epochArm := rfl
@[simp] theorem setPoison_grace : (setPoison a b s).grace = s.grace := rfl
@[simp] theorem setPoison_ctxs : (setPoison a b s).ctxs = s.ctxs := rfl
@[simp] theorem setPoison_fwin : (setPoison a b s).fwin = s.fwin := rfl
@[simp] theorem setPoison_iwin : (setPoison a b s).iwin = s.iwin := rfl
@[simp] theorem setPoison_qps : (setPoison a b s).qps = s.qps := rfl
@[simp] theorem setPoison_ackq : (setPoison a b s).ackq = s.ackq := rfl
@[simp] theorem setPoison_waitq : (setPoison a b s).waitq = s.waitq := rfl
@[simp] theorem setPoison_colls : (setPoison a b s).colls = s.colls := rfl
@[simp] theorem setPoison_collWait : (setPoison a b s).collWait = s.collWait := rfl
@[simp] theorem setPoison_collLast : (setPoison a b s).collLast = s.collLast := rfl
@[simp] theorem setPoison_refail : (setPoison a b s).refail = s.refail := rfl
@[simp] theorem setPoison_flt : (setPoison a b s).flt = s.flt := rfl
@[simp] theorem setPoison_rtc : (setPoison a b s).rtc = s.rtc := rfl
@[simp] theorem setPoison_ctrs : (setPoison a b s).ctrs = s.ctrs := rfl
@[simp] theorem setPoison_shadowBank : (setPoison a b s).shadowBank = s.shadowBank := rfl
@[simp] theorem setPoison_win : (setPoison a b s).win = s.win := rfl
@[simp] theorem setPoison_tap : (setPoison a b s).tap = s.tap := rfl
@[simp] theorem setPoison_tapDebug : (setPoison a b s).tapDebug = s.tapDebug := rfl
end

section
variable (e : Eng) (f : EngSt → EngSt)
@[simp] theorem updEng_pending : (updEng e f s).pending = s.pending := rfl
@[simp] theorem updEng_out : (updEng e f s).out = s.out := rfl
@[simp] theorem updEng_freeCtr : (updEng e f s).freeCtr = s.freeCtr := rfl
@[simp] theorem updEng_nowNs : (updEng e f s).nowNs = s.nowNs := rfl
@[simp] theorem updEng_ringCycles : (updEng e f s).ringCycles = s.ringCycles := rfl
@[simp] theorem updEng_fuses : (updEng e f s).fuses = s.fuses := rfl
@[simp] theorem updEng_board : (updEng e f s).board = s.board := rfl
@[simp] theorem updEng_boot : (updEng e f s).boot = s.boot := rfl
@[simp] theorem updEng_resetting : (updEng e f s).resetting = s.resetting := rfl
@[simp] theorem updEng_resetAt : (updEng e f s).resetAt = s.resetAt := rfl
@[simp] theorem updEng_degraded : (updEng e f s).degraded = s.degraded := rfl
@[simp] theorem updEng_generation : (updEng e f s).generation = s.generation := rfl
@[simp] theorem updEng_records : (updEng e f s).records = s.records := rfl
@[simp] theorem updEng_bootErr : (updEng e f s).bootErr = s.bootErr := rfl
@[simp] theorem updEng_rejected : (updEng e f s).rejected = s.rejected := rfl
@[simp] theorem updEng_bootSlot : (updEng e f s).bootSlot = s.bootSlot := rfl
@[simp] theorem updEng_fwVer : (updEng e f s).fwVer = s.fwVer := rfl
@[simp] theorem updEng_fwBody : (updEng e f s).fwBody = s.fwBody := rfl
@[simp] theorem updEng_selfTested : (updEng e f s).selfTested = s.selfTested := rfl
@[simp] theorem updEng_stage : (updEng e f s).stage = s.stage := rfl
@[simp] theorem updEng_stageTries : (updEng e f s).stageTries = s.stageTries := rfl
@[simp] theorem updEng_stageAt : (updEng e f s).stageAt = s.stageAt := rfl
@[simp] theorem updEng_going : (updEng e f s).going = s.going := rfl
@[simp] theorem updEng_vendor : (updEng e f s).vendor = s.vendor := rfl
@[simp] theorem updEng_vendorId : (updEng e f s).vendorId = s.vendorId := rfl
@[simp] theorem updEng_vendorSt : (updEng e f s).vendorSt = s.vendorSt := rfl
@[simp] theorem updEng_lastLoad : (updEng e f s).lastLoad = s.lastLoad := rfl
@[simp] theorem updEng_fld : (updEng e f s).fld = s.fld := rfl
@[simp] theorem updEng_shadow : (updEng e f s).shadow = s.shadow := rfl
@[simp] theorem updEng_chg : (updEng e f s).chg = s.chg := rfl
@[simp] theorem updEng_unitsLeft : (updEng e f s).unitsLeft = s.unitsLeft := rfl
@[simp] theorem updEng_applying : (updEng e f s).applying = s.applying := rfl
@[simp] theorem updEng_setId : (updEng e f s).setId = s.setId := rfl
@[simp] theorem updEng_late : (updEng e f s).late = s.late := rfl
@[simp] theorem updEng_rails : (updEng e f s).rails = s.rails := rfl
@[simp] theorem updEng_temps : (updEng e f s).temps = s.temps := rfl
@[simp] theorem updEng_damped : (updEng e f s).damped = s.damped := rfl
@[simp] theorem updEng_winBudget : (updEng e f s).winBudget = s.winBudget := rfl
@[simp] theorem updEng_winLimit : (updEng e f s).winLimit = s.winLimit := rfl
@[simp] theorem updEng_lanes : (updEng e f s).lanes = s.lanes := rfl
@[simp] theorem updEng_detours : (updEng e f s).detours = s.detours := rfl
@[simp] theorem updEng_mesh : (updEng e f s).mesh = s.mesh := rfl
@[simp] theorem updEng_wires : (updEng e f s).wires = s.wires := rfl
@[simp] theorem updEng_fenced : (updEng e f s).fenced = s.fenced := rfl
@[simp] theorem updEng_pllParked : (updEng e f s).pllParked = s.pllParked := rfl
@[simp] theorem updEng_parkAt : (updEng e f s).parkAt = s.parkAt := rfl
@[simp] theorem updEng_parked : (updEng e f s).parked = s.parked := rfl
@[simp] theorem updEng_stopped : (updEng e f s).stopped = s.stopped := rfl
@[simp] theorem updEng_refSeen : (updEng e f s).refSeen = s.refSeen := rfl
@[simp] theorem updEng_hostPorts : (updEng e f s).hostPorts = s.hostPorts := rfl
@[simp] theorem updEng_port0 : (updEng e f s).port0 = s.port0 := rfl
@[simp] theorem updEng_pfs : (updEng e f s).pfs = s.pfs := rfl
@[simp] theorem updEng_fns : (updEng e f s).fns = s.fns := rfl
@[simp] theorem updEng_advisories : (updEng e f s).advisories = s.advisories := rfl
@[simp] theorem updEng_vis : (updEng e f s).vis = s.vis := rfl
@[simp] theorem updEng_engs : (updEng e f s).engs = mupd {} s.engs e.val f := rfl
@[simp] theorem updEng_movers : (updEng e f s).movers = s.movers := rfl
@[simp] theorem updEng_gathers : (updEng e f s).gathers = s.gathers := rfl
@[simp] theorem updEng_dir : (updEng e f s).dir = s.dir := rfl
@[simp] theorem updEng_hl : (updEng e f s).hl = s.hl := rfl
@[simp] theorem updEng_hret : (updEng e f s).hret = s.hret := rfl
@[simp] theorem updEng_hblocks : (updEng e f s).hblocks = s.hblocks := rfl
@[simp] theorem updEng_aged : (updEng e f s).aged = s.aged := rfl
@[simp] theorem updEng_domainDown : (updEng e f s).domainDown = s.domainDown := rfl
@[simp] theorem updEng_viralRx : (updEng e f s).viralRx = s.viralRx := rfl
@[simp] theorem updEng_viralTx : (updEng e f s).viralTx = s.viralTx := rfl
@[simp] theorem updEng_lruCtr : (updEng e f s).lruCtr = s.lruCtr := rfl
@[simp] theorem updEng_mem : (updEng e f s).mem = s.mem := rfl
@[simp] theorem updEng_poison : (updEng e f s).poison = s.poison := rfl
@[simp] theorem updEng_ueWindow : (updEng e f s).ueWindow = s.ueWindow := rfl
@[simp] theorem updEng_scrubAt : (updEng e f s).scrubAt = s.scrubAt := rfl
@[simp] theorem updEng_ports : (updEng e f s).ports = s.ports := rfl
@[simp] theorem updEng_rt : (updEng e f s).rt = s.rt := rfl
@[simp] theorem updEng_epochCur : (updEng e f s).epochCur = s.epochCur := rfl
@[simp] theorem updEng_epochArm : (updEng e f s).epochArm = s.epochArm := rfl
@[simp] theorem updEng_grace : (updEng e f s).grace = s.grace := rfl
@[simp] theorem updEng_ctxs : (updEng e f s).ctxs = s.ctxs := rfl
@[simp] theorem updEng_fwin : (updEng e f s).fwin = s.fwin := rfl
@[simp] theorem updEng_iwin : (updEng e f s).iwin = s.iwin := rfl
@[simp] theorem updEng_qps : (updEng e f s).qps = s.qps := rfl
@[simp] theorem updEng_ackq : (updEng e f s).ackq = s.ackq := rfl
@[simp] theorem updEng_waitq : (updEng e f s).waitq = s.waitq := rfl
@[simp] theorem updEng_colls : (updEng e f s).colls = s.colls := rfl
@[simp] theorem updEng_collWait : (updEng e f s).collWait = s.collWait := rfl
@[simp] theorem updEng_collLast : (updEng e f s).collLast = s.collLast := rfl
@[simp] theorem updEng_refail : (updEng e f s).refail = s.refail := rfl
@[simp] theorem updEng_flt : (updEng e f s).flt = s.flt := rfl
@[simp] theorem updEng_rtc : (updEng e f s).rtc = s.rtc := rfl
@[simp] theorem updEng_ctrs : (updEng e f s).ctrs = s.ctrs := rfl
@[simp] theorem updEng_shadowBank : (updEng e f s).shadowBank = s.shadowBank := rfl
@[simp] theorem updEng_win : (updEng e f s).win = s.win := rfl
@[simp] theorem updEng_tap : (updEng e f s).tap = s.tap := rfl
@[simp] theorem updEng_tapDebug : (updEng e f s).tapDebug = s.tapDebug := rfl
end

section
variable (v : Vi) (f : ViSt → ViSt)
@[simp] theorem updVi_pending : (updVi v f s).pending = s.pending := rfl
@[simp] theorem updVi_out : (updVi v f s).out = s.out := rfl
@[simp] theorem updVi_freeCtr : (updVi v f s).freeCtr = s.freeCtr := rfl
@[simp] theorem updVi_nowNs : (updVi v f s).nowNs = s.nowNs := rfl
@[simp] theorem updVi_ringCycles : (updVi v f s).ringCycles = s.ringCycles := rfl
@[simp] theorem updVi_fuses : (updVi v f s).fuses = s.fuses := rfl
@[simp] theorem updVi_board : (updVi v f s).board = s.board := rfl
@[simp] theorem updVi_boot : (updVi v f s).boot = s.boot := rfl
@[simp] theorem updVi_resetting : (updVi v f s).resetting = s.resetting := rfl
@[simp] theorem updVi_resetAt : (updVi v f s).resetAt = s.resetAt := rfl
@[simp] theorem updVi_degraded : (updVi v f s).degraded = s.degraded := rfl
@[simp] theorem updVi_generation : (updVi v f s).generation = s.generation := rfl
@[simp] theorem updVi_records : (updVi v f s).records = s.records := rfl
@[simp] theorem updVi_bootErr : (updVi v f s).bootErr = s.bootErr := rfl
@[simp] theorem updVi_rejected : (updVi v f s).rejected = s.rejected := rfl
@[simp] theorem updVi_bootSlot : (updVi v f s).bootSlot = s.bootSlot := rfl
@[simp] theorem updVi_fwVer : (updVi v f s).fwVer = s.fwVer := rfl
@[simp] theorem updVi_fwBody : (updVi v f s).fwBody = s.fwBody := rfl
@[simp] theorem updVi_selfTested : (updVi v f s).selfTested = s.selfTested := rfl
@[simp] theorem updVi_stage : (updVi v f s).stage = s.stage := rfl
@[simp] theorem updVi_stageTries : (updVi v f s).stageTries = s.stageTries := rfl
@[simp] theorem updVi_stageAt : (updVi v f s).stageAt = s.stageAt := rfl
@[simp] theorem updVi_going : (updVi v f s).going = s.going := rfl
@[simp] theorem updVi_vendor : (updVi v f s).vendor = s.vendor := rfl
@[simp] theorem updVi_vendorId : (updVi v f s).vendorId = s.vendorId := rfl
@[simp] theorem updVi_vendorSt : (updVi v f s).vendorSt = s.vendorSt := rfl
@[simp] theorem updVi_lastLoad : (updVi v f s).lastLoad = s.lastLoad := rfl
@[simp] theorem updVi_fld : (updVi v f s).fld = s.fld := rfl
@[simp] theorem updVi_shadow : (updVi v f s).shadow = s.shadow := rfl
@[simp] theorem updVi_chg : (updVi v f s).chg = s.chg := rfl
@[simp] theorem updVi_unitsLeft : (updVi v f s).unitsLeft = s.unitsLeft := rfl
@[simp] theorem updVi_applying : (updVi v f s).applying = s.applying := rfl
@[simp] theorem updVi_setId : (updVi v f s).setId = s.setId := rfl
@[simp] theorem updVi_late : (updVi v f s).late = s.late := rfl
@[simp] theorem updVi_rails : (updVi v f s).rails = s.rails := rfl
@[simp] theorem updVi_temps : (updVi v f s).temps = s.temps := rfl
@[simp] theorem updVi_damped : (updVi v f s).damped = s.damped := rfl
@[simp] theorem updVi_winBudget : (updVi v f s).winBudget = s.winBudget := rfl
@[simp] theorem updVi_winLimit : (updVi v f s).winLimit = s.winLimit := rfl
@[simp] theorem updVi_lanes : (updVi v f s).lanes = s.lanes := rfl
@[simp] theorem updVi_detours : (updVi v f s).detours = s.detours := rfl
@[simp] theorem updVi_mesh : (updVi v f s).mesh = s.mesh := rfl
@[simp] theorem updVi_wires : (updVi v f s).wires = s.wires := rfl
@[simp] theorem updVi_fenced : (updVi v f s).fenced = s.fenced := rfl
@[simp] theorem updVi_pllParked : (updVi v f s).pllParked = s.pllParked := rfl
@[simp] theorem updVi_parkAt : (updVi v f s).parkAt = s.parkAt := rfl
@[simp] theorem updVi_parked : (updVi v f s).parked = s.parked := rfl
@[simp] theorem updVi_stopped : (updVi v f s).stopped = s.stopped := rfl
@[simp] theorem updVi_refSeen : (updVi v f s).refSeen = s.refSeen := rfl
@[simp] theorem updVi_hostPorts : (updVi v f s).hostPorts = s.hostPorts := rfl
@[simp] theorem updVi_port0 : (updVi v f s).port0 = s.port0 := rfl
@[simp] theorem updVi_pfs : (updVi v f s).pfs = s.pfs := rfl
@[simp] theorem updVi_fns : (updVi v f s).fns = s.fns := rfl
@[simp] theorem updVi_advisories : (updVi v f s).advisories = s.advisories := rfl
@[simp] theorem updVi_vis : (updVi v f s).vis = mupd {} s.vis v.val f := rfl
@[simp] theorem updVi_engs : (updVi v f s).engs = s.engs := rfl
@[simp] theorem updVi_movers : (updVi v f s).movers = s.movers := rfl
@[simp] theorem updVi_gathers : (updVi v f s).gathers = s.gathers := rfl
@[simp] theorem updVi_dir : (updVi v f s).dir = s.dir := rfl
@[simp] theorem updVi_hl : (updVi v f s).hl = s.hl := rfl
@[simp] theorem updVi_hret : (updVi v f s).hret = s.hret := rfl
@[simp] theorem updVi_hblocks : (updVi v f s).hblocks = s.hblocks := rfl
@[simp] theorem updVi_aged : (updVi v f s).aged = s.aged := rfl
@[simp] theorem updVi_domainDown : (updVi v f s).domainDown = s.domainDown := rfl
@[simp] theorem updVi_viralRx : (updVi v f s).viralRx = s.viralRx := rfl
@[simp] theorem updVi_viralTx : (updVi v f s).viralTx = s.viralTx := rfl
@[simp] theorem updVi_lruCtr : (updVi v f s).lruCtr = s.lruCtr := rfl
@[simp] theorem updVi_mem : (updVi v f s).mem = s.mem := rfl
@[simp] theorem updVi_poison : (updVi v f s).poison = s.poison := rfl
@[simp] theorem updVi_ueWindow : (updVi v f s).ueWindow = s.ueWindow := rfl
@[simp] theorem updVi_scrubAt : (updVi v f s).scrubAt = s.scrubAt := rfl
@[simp] theorem updVi_ports : (updVi v f s).ports = s.ports := rfl
@[simp] theorem updVi_rt : (updVi v f s).rt = s.rt := rfl
@[simp] theorem updVi_epochCur : (updVi v f s).epochCur = s.epochCur := rfl
@[simp] theorem updVi_epochArm : (updVi v f s).epochArm = s.epochArm := rfl
@[simp] theorem updVi_grace : (updVi v f s).grace = s.grace := rfl
@[simp] theorem updVi_ctxs : (updVi v f s).ctxs = s.ctxs := rfl
@[simp] theorem updVi_fwin : (updVi v f s).fwin = s.fwin := rfl
@[simp] theorem updVi_iwin : (updVi v f s).iwin = s.iwin := rfl
@[simp] theorem updVi_qps : (updVi v f s).qps = s.qps := rfl
@[simp] theorem updVi_ackq : (updVi v f s).ackq = s.ackq := rfl
@[simp] theorem updVi_waitq : (updVi v f s).waitq = s.waitq := rfl
@[simp] theorem updVi_colls : (updVi v f s).colls = s.colls := rfl
@[simp] theorem updVi_collWait : (updVi v f s).collWait = s.collWait := rfl
@[simp] theorem updVi_collLast : (updVi v f s).collLast = s.collLast := rfl
@[simp] theorem updVi_refail : (updVi v f s).refail = s.refail := rfl
@[simp] theorem updVi_flt : (updVi v f s).flt = s.flt := rfl
@[simp] theorem updVi_rtc : (updVi v f s).rtc = s.rtc := rfl
@[simp] theorem updVi_ctrs : (updVi v f s).ctrs = s.ctrs := rfl
@[simp] theorem updVi_shadowBank : (updVi v f s).shadowBank = s.shadowBank := rfl
@[simp] theorem updVi_win : (updVi v f s).win = s.win := rfl
@[simp] theorem updVi_tap : (updVi v f s).tap = s.tap := rfl
@[simp] theorem updVi_tapDebug : (updVi v f s).tapDebug = s.tapDebug := rfl
end

section
variable (v : Vi) (f : Fn → Fn)
@[simp] theorem updFn_pending : (updFn v f s).pending = s.pending := rfl
@[simp] theorem updFn_out : (updFn v f s).out = s.out := rfl
@[simp] theorem updFn_freeCtr : (updFn v f s).freeCtr = s.freeCtr := rfl
@[simp] theorem updFn_nowNs : (updFn v f s).nowNs = s.nowNs := rfl
@[simp] theorem updFn_ringCycles : (updFn v f s).ringCycles = s.ringCycles := rfl
@[simp] theorem updFn_fuses : (updFn v f s).fuses = s.fuses := rfl
@[simp] theorem updFn_board : (updFn v f s).board = s.board := rfl
@[simp] theorem updFn_boot : (updFn v f s).boot = s.boot := rfl
@[simp] theorem updFn_resetting : (updFn v f s).resetting = s.resetting := rfl
@[simp] theorem updFn_resetAt : (updFn v f s).resetAt = s.resetAt := rfl
@[simp] theorem updFn_degraded : (updFn v f s).degraded = s.degraded := rfl
@[simp] theorem updFn_generation : (updFn v f s).generation = s.generation := rfl
@[simp] theorem updFn_records : (updFn v f s).records = s.records := rfl
@[simp] theorem updFn_bootErr : (updFn v f s).bootErr = s.bootErr := rfl
@[simp] theorem updFn_rejected : (updFn v f s).rejected = s.rejected := rfl
@[simp] theorem updFn_bootSlot : (updFn v f s).bootSlot = s.bootSlot := rfl
@[simp] theorem updFn_fwVer : (updFn v f s).fwVer = s.fwVer := rfl
@[simp] theorem updFn_fwBody : (updFn v f s).fwBody = s.fwBody := rfl
@[simp] theorem updFn_selfTested : (updFn v f s).selfTested = s.selfTested := rfl
@[simp] theorem updFn_stage : (updFn v f s).stage = s.stage := rfl
@[simp] theorem updFn_stageTries : (updFn v f s).stageTries = s.stageTries := rfl
@[simp] theorem updFn_stageAt : (updFn v f s).stageAt = s.stageAt := rfl
@[simp] theorem updFn_going : (updFn v f s).going = s.going := rfl
@[simp] theorem updFn_vendor : (updFn v f s).vendor = s.vendor := rfl
@[simp] theorem updFn_vendorId : (updFn v f s).vendorId = s.vendorId := rfl
@[simp] theorem updFn_vendorSt : (updFn v f s).vendorSt = s.vendorSt := rfl
@[simp] theorem updFn_lastLoad : (updFn v f s).lastLoad = s.lastLoad := rfl
@[simp] theorem updFn_fld : (updFn v f s).fld = s.fld := rfl
@[simp] theorem updFn_shadow : (updFn v f s).shadow = s.shadow := rfl
@[simp] theorem updFn_chg : (updFn v f s).chg = s.chg := rfl
@[simp] theorem updFn_unitsLeft : (updFn v f s).unitsLeft = s.unitsLeft := rfl
@[simp] theorem updFn_applying : (updFn v f s).applying = s.applying := rfl
@[simp] theorem updFn_setId : (updFn v f s).setId = s.setId := rfl
@[simp] theorem updFn_late : (updFn v f s).late = s.late := rfl
@[simp] theorem updFn_rails : (updFn v f s).rails = s.rails := rfl
@[simp] theorem updFn_temps : (updFn v f s).temps = s.temps := rfl
@[simp] theorem updFn_damped : (updFn v f s).damped = s.damped := rfl
@[simp] theorem updFn_winBudget : (updFn v f s).winBudget = s.winBudget := rfl
@[simp] theorem updFn_winLimit : (updFn v f s).winLimit = s.winLimit := rfl
@[simp] theorem updFn_lanes : (updFn v f s).lanes = s.lanes := rfl
@[simp] theorem updFn_detours : (updFn v f s).detours = s.detours := rfl
@[simp] theorem updFn_mesh : (updFn v f s).mesh = s.mesh := rfl
@[simp] theorem updFn_wires : (updFn v f s).wires = s.wires := rfl
@[simp] theorem updFn_fenced : (updFn v f s).fenced = s.fenced := rfl
@[simp] theorem updFn_pllParked : (updFn v f s).pllParked = s.pllParked := rfl
@[simp] theorem updFn_parkAt : (updFn v f s).parkAt = s.parkAt := rfl
@[simp] theorem updFn_parked : (updFn v f s).parked = s.parked := rfl
@[simp] theorem updFn_stopped : (updFn v f s).stopped = s.stopped := rfl
@[simp] theorem updFn_refSeen : (updFn v f s).refSeen = s.refSeen := rfl
@[simp] theorem updFn_hostPorts : (updFn v f s).hostPorts = s.hostPorts := rfl
@[simp] theorem updFn_port0 : (updFn v f s).port0 = s.port0 := rfl
@[simp] theorem updFn_pfs : (updFn v f s).pfs = s.pfs := rfl
@[simp] theorem updFn_fns : (updFn v f s).fns = mupd {} s.fns v.val f := rfl
@[simp] theorem updFn_advisories : (updFn v f s).advisories = s.advisories := rfl
@[simp] theorem updFn_vis : (updFn v f s).vis = s.vis := rfl
@[simp] theorem updFn_engs : (updFn v f s).engs = s.engs := rfl
@[simp] theorem updFn_movers : (updFn v f s).movers = s.movers := rfl
@[simp] theorem updFn_gathers : (updFn v f s).gathers = s.gathers := rfl
@[simp] theorem updFn_dir : (updFn v f s).dir = s.dir := rfl
@[simp] theorem updFn_hl : (updFn v f s).hl = s.hl := rfl
@[simp] theorem updFn_hret : (updFn v f s).hret = s.hret := rfl
@[simp] theorem updFn_hblocks : (updFn v f s).hblocks = s.hblocks := rfl
@[simp] theorem updFn_aged : (updFn v f s).aged = s.aged := rfl
@[simp] theorem updFn_domainDown : (updFn v f s).domainDown = s.domainDown := rfl
@[simp] theorem updFn_viralRx : (updFn v f s).viralRx = s.viralRx := rfl
@[simp] theorem updFn_viralTx : (updFn v f s).viralTx = s.viralTx := rfl
@[simp] theorem updFn_lruCtr : (updFn v f s).lruCtr = s.lruCtr := rfl
@[simp] theorem updFn_mem : (updFn v f s).mem = s.mem := rfl
@[simp] theorem updFn_poison : (updFn v f s).poison = s.poison := rfl
@[simp] theorem updFn_ueWindow : (updFn v f s).ueWindow = s.ueWindow := rfl
@[simp] theorem updFn_scrubAt : (updFn v f s).scrubAt = s.scrubAt := rfl
@[simp] theorem updFn_ports : (updFn v f s).ports = s.ports := rfl
@[simp] theorem updFn_rt : (updFn v f s).rt = s.rt := rfl
@[simp] theorem updFn_epochCur : (updFn v f s).epochCur = s.epochCur := rfl
@[simp] theorem updFn_epochArm : (updFn v f s).epochArm = s.epochArm := rfl
@[simp] theorem updFn_grace : (updFn v f s).grace = s.grace := rfl
@[simp] theorem updFn_ctxs : (updFn v f s).ctxs = s.ctxs := rfl
@[simp] theorem updFn_fwin : (updFn v f s).fwin = s.fwin := rfl
@[simp] theorem updFn_iwin : (updFn v f s).iwin = s.iwin := rfl
@[simp] theorem updFn_qps : (updFn v f s).qps = s.qps := rfl
@[simp] theorem updFn_ackq : (updFn v f s).ackq = s.ackq := rfl
@[simp] theorem updFn_waitq : (updFn v f s).waitq = s.waitq := rfl
@[simp] theorem updFn_colls : (updFn v f s).colls = s.colls := rfl
@[simp] theorem updFn_collWait : (updFn v f s).collWait = s.collWait := rfl
@[simp] theorem updFn_collLast : (updFn v f s).collLast = s.collLast := rfl
@[simp] theorem updFn_refail : (updFn v f s).refail = s.refail := rfl
@[simp] theorem updFn_flt : (updFn v f s).flt = s.flt := rfl
@[simp] theorem updFn_rtc : (updFn v f s).rtc = s.rtc := rfl
@[simp] theorem updFn_ctrs : (updFn v f s).ctrs = s.ctrs := rfl
@[simp] theorem updFn_shadowBank : (updFn v f s).shadowBank = s.shadowBank := rfl
@[simp] theorem updFn_win : (updFn v f s).win = s.win := rfl
@[simp] theorem updFn_tap : (updFn v f s).tap = s.tap := rfl
@[simp] theorem updFn_tapDebug : (updFn v f s).tapDebug = s.tapDebug := rfl
end

section
variable (p : HPort) (f : Pf → Pf)
@[simp] theorem updPf_pending : (updPf p f s).pending = s.pending := rfl
@[simp] theorem updPf_out : (updPf p f s).out = s.out := rfl
@[simp] theorem updPf_freeCtr : (updPf p f s).freeCtr = s.freeCtr := rfl
@[simp] theorem updPf_nowNs : (updPf p f s).nowNs = s.nowNs := rfl
@[simp] theorem updPf_ringCycles : (updPf p f s).ringCycles = s.ringCycles := rfl
@[simp] theorem updPf_fuses : (updPf p f s).fuses = s.fuses := rfl
@[simp] theorem updPf_board : (updPf p f s).board = s.board := rfl
@[simp] theorem updPf_boot : (updPf p f s).boot = s.boot := rfl
@[simp] theorem updPf_resetting : (updPf p f s).resetting = s.resetting := rfl
@[simp] theorem updPf_resetAt : (updPf p f s).resetAt = s.resetAt := rfl
@[simp] theorem updPf_degraded : (updPf p f s).degraded = s.degraded := rfl
@[simp] theorem updPf_generation : (updPf p f s).generation = s.generation := rfl
@[simp] theorem updPf_records : (updPf p f s).records = s.records := rfl
@[simp] theorem updPf_bootErr : (updPf p f s).bootErr = s.bootErr := rfl
@[simp] theorem updPf_rejected : (updPf p f s).rejected = s.rejected := rfl
@[simp] theorem updPf_bootSlot : (updPf p f s).bootSlot = s.bootSlot := rfl
@[simp] theorem updPf_fwVer : (updPf p f s).fwVer = s.fwVer := rfl
@[simp] theorem updPf_fwBody : (updPf p f s).fwBody = s.fwBody := rfl
@[simp] theorem updPf_selfTested : (updPf p f s).selfTested = s.selfTested := rfl
@[simp] theorem updPf_stage : (updPf p f s).stage = s.stage := rfl
@[simp] theorem updPf_stageTries : (updPf p f s).stageTries = s.stageTries := rfl
@[simp] theorem updPf_stageAt : (updPf p f s).stageAt = s.stageAt := rfl
@[simp] theorem updPf_going : (updPf p f s).going = s.going := rfl
@[simp] theorem updPf_vendor : (updPf p f s).vendor = s.vendor := rfl
@[simp] theorem updPf_vendorId : (updPf p f s).vendorId = s.vendorId := rfl
@[simp] theorem updPf_vendorSt : (updPf p f s).vendorSt = s.vendorSt := rfl
@[simp] theorem updPf_lastLoad : (updPf p f s).lastLoad = s.lastLoad := rfl
@[simp] theorem updPf_fld : (updPf p f s).fld = s.fld := rfl
@[simp] theorem updPf_shadow : (updPf p f s).shadow = s.shadow := rfl
@[simp] theorem updPf_chg : (updPf p f s).chg = s.chg := rfl
@[simp] theorem updPf_unitsLeft : (updPf p f s).unitsLeft = s.unitsLeft := rfl
@[simp] theorem updPf_applying : (updPf p f s).applying = s.applying := rfl
@[simp] theorem updPf_setId : (updPf p f s).setId = s.setId := rfl
@[simp] theorem updPf_late : (updPf p f s).late = s.late := rfl
@[simp] theorem updPf_rails : (updPf p f s).rails = s.rails := rfl
@[simp] theorem updPf_temps : (updPf p f s).temps = s.temps := rfl
@[simp] theorem updPf_damped : (updPf p f s).damped = s.damped := rfl
@[simp] theorem updPf_winBudget : (updPf p f s).winBudget = s.winBudget := rfl
@[simp] theorem updPf_winLimit : (updPf p f s).winLimit = s.winLimit := rfl
@[simp] theorem updPf_lanes : (updPf p f s).lanes = s.lanes := rfl
@[simp] theorem updPf_detours : (updPf p f s).detours = s.detours := rfl
@[simp] theorem updPf_mesh : (updPf p f s).mesh = s.mesh := rfl
@[simp] theorem updPf_wires : (updPf p f s).wires = s.wires := rfl
@[simp] theorem updPf_fenced : (updPf p f s).fenced = s.fenced := rfl
@[simp] theorem updPf_pllParked : (updPf p f s).pllParked = s.pllParked := rfl
@[simp] theorem updPf_parkAt : (updPf p f s).parkAt = s.parkAt := rfl
@[simp] theorem updPf_parked : (updPf p f s).parked = s.parked := rfl
@[simp] theorem updPf_stopped : (updPf p f s).stopped = s.stopped := rfl
@[simp] theorem updPf_refSeen : (updPf p f s).refSeen = s.refSeen := rfl
@[simp] theorem updPf_hostPorts : (updPf p f s).hostPorts = s.hostPorts := rfl
@[simp] theorem updPf_port0 : (updPf p f s).port0 = s.port0 := rfl
@[simp] theorem updPf_pfs : (updPf p f s).pfs = mupd {} s.pfs p.val f := rfl
@[simp] theorem updPf_fns : (updPf p f s).fns = s.fns := rfl
@[simp] theorem updPf_advisories : (updPf p f s).advisories = s.advisories := rfl
@[simp] theorem updPf_vis : (updPf p f s).vis = s.vis := rfl
@[simp] theorem updPf_engs : (updPf p f s).engs = s.engs := rfl
@[simp] theorem updPf_movers : (updPf p f s).movers = s.movers := rfl
@[simp] theorem updPf_gathers : (updPf p f s).gathers = s.gathers := rfl
@[simp] theorem updPf_dir : (updPf p f s).dir = s.dir := rfl
@[simp] theorem updPf_hl : (updPf p f s).hl = s.hl := rfl
@[simp] theorem updPf_hret : (updPf p f s).hret = s.hret := rfl
@[simp] theorem updPf_hblocks : (updPf p f s).hblocks = s.hblocks := rfl
@[simp] theorem updPf_aged : (updPf p f s).aged = s.aged := rfl
@[simp] theorem updPf_domainDown : (updPf p f s).domainDown = s.domainDown := rfl
@[simp] theorem updPf_viralRx : (updPf p f s).viralRx = s.viralRx := rfl
@[simp] theorem updPf_viralTx : (updPf p f s).viralTx = s.viralTx := rfl
@[simp] theorem updPf_lruCtr : (updPf p f s).lruCtr = s.lruCtr := rfl
@[simp] theorem updPf_mem : (updPf p f s).mem = s.mem := rfl
@[simp] theorem updPf_poison : (updPf p f s).poison = s.poison := rfl
@[simp] theorem updPf_ueWindow : (updPf p f s).ueWindow = s.ueWindow := rfl
@[simp] theorem updPf_scrubAt : (updPf p f s).scrubAt = s.scrubAt := rfl
@[simp] theorem updPf_ports : (updPf p f s).ports = s.ports := rfl
@[simp] theorem updPf_rt : (updPf p f s).rt = s.rt := rfl
@[simp] theorem updPf_epochCur : (updPf p f s).epochCur = s.epochCur := rfl
@[simp] theorem updPf_epochArm : (updPf p f s).epochArm = s.epochArm := rfl
@[simp] theorem updPf_grace : (updPf p f s).grace = s.grace := rfl
@[simp] theorem updPf_ctxs : (updPf p f s).ctxs = s.ctxs := rfl
@[simp] theorem updPf_fwin : (updPf p f s).fwin = s.fwin := rfl
@[simp] theorem updPf_iwin : (updPf p f s).iwin = s.iwin := rfl
@[simp] theorem updPf_qps : (updPf p f s).qps = s.qps := rfl
@[simp] theorem updPf_ackq : (updPf p f s).ackq = s.ackq := rfl
@[simp] theorem updPf_waitq : (updPf p f s).waitq = s.waitq := rfl
@[simp] theorem updPf_colls : (updPf p f s).colls = s.colls := rfl
@[simp] theorem updPf_collWait : (updPf p f s).collWait = s.collWait := rfl
@[simp] theorem updPf_collLast : (updPf p f s).collLast = s.collLast := rfl
@[simp] theorem updPf_refail : (updPf p f s).refail = s.refail := rfl
@[simp] theorem updPf_flt : (updPf p f s).flt = s.flt := rfl
@[simp] theorem updPf_rtc : (updPf p f s).rtc = s.rtc := rfl
@[simp] theorem updPf_ctrs : (updPf p f s).ctrs = s.ctrs := rfl
@[simp] theorem updPf_shadowBank : (updPf p f s).shadowBank = s.shadowBank := rfl
@[simp] theorem updPf_win : (updPf p f s).win = s.win := rfl
@[simp] theorem updPf_tap : (updPf p f s).tap = s.tap := rfl
@[simp] theorem updPf_tapDebug : (updPf p f s).tapDebug = s.tapDebug := rfl
end

section
variable (m : Mover) (f : MvSt → MvSt)
@[simp] theorem updMv_pending : (updMv m f s).pending = s.pending := rfl
@[simp] theorem updMv_out : (updMv m f s).out = s.out := rfl
@[simp] theorem updMv_freeCtr : (updMv m f s).freeCtr = s.freeCtr := rfl
@[simp] theorem updMv_nowNs : (updMv m f s).nowNs = s.nowNs := rfl
@[simp] theorem updMv_ringCycles : (updMv m f s).ringCycles = s.ringCycles := rfl
@[simp] theorem updMv_fuses : (updMv m f s).fuses = s.fuses := rfl
@[simp] theorem updMv_board : (updMv m f s).board = s.board := rfl
@[simp] theorem updMv_boot : (updMv m f s).boot = s.boot := rfl
@[simp] theorem updMv_resetting : (updMv m f s).resetting = s.resetting := rfl
@[simp] theorem updMv_resetAt : (updMv m f s).resetAt = s.resetAt := rfl
@[simp] theorem updMv_degraded : (updMv m f s).degraded = s.degraded := rfl
@[simp] theorem updMv_generation : (updMv m f s).generation = s.generation := rfl
@[simp] theorem updMv_records : (updMv m f s).records = s.records := rfl
@[simp] theorem updMv_bootErr : (updMv m f s).bootErr = s.bootErr := rfl
@[simp] theorem updMv_rejected : (updMv m f s).rejected = s.rejected := rfl
@[simp] theorem updMv_bootSlot : (updMv m f s).bootSlot = s.bootSlot := rfl
@[simp] theorem updMv_fwVer : (updMv m f s).fwVer = s.fwVer := rfl
@[simp] theorem updMv_fwBody : (updMv m f s).fwBody = s.fwBody := rfl
@[simp] theorem updMv_selfTested : (updMv m f s).selfTested = s.selfTested := rfl
@[simp] theorem updMv_stage : (updMv m f s).stage = s.stage := rfl
@[simp] theorem updMv_stageTries : (updMv m f s).stageTries = s.stageTries := rfl
@[simp] theorem updMv_stageAt : (updMv m f s).stageAt = s.stageAt := rfl
@[simp] theorem updMv_going : (updMv m f s).going = s.going := rfl
@[simp] theorem updMv_vendor : (updMv m f s).vendor = s.vendor := rfl
@[simp] theorem updMv_vendorId : (updMv m f s).vendorId = s.vendorId := rfl
@[simp] theorem updMv_vendorSt : (updMv m f s).vendorSt = s.vendorSt := rfl
@[simp] theorem updMv_lastLoad : (updMv m f s).lastLoad = s.lastLoad := rfl
@[simp] theorem updMv_fld : (updMv m f s).fld = s.fld := rfl
@[simp] theorem updMv_shadow : (updMv m f s).shadow = s.shadow := rfl
@[simp] theorem updMv_chg : (updMv m f s).chg = s.chg := rfl
@[simp] theorem updMv_unitsLeft : (updMv m f s).unitsLeft = s.unitsLeft := rfl
@[simp] theorem updMv_applying : (updMv m f s).applying = s.applying := rfl
@[simp] theorem updMv_setId : (updMv m f s).setId = s.setId := rfl
@[simp] theorem updMv_late : (updMv m f s).late = s.late := rfl
@[simp] theorem updMv_rails : (updMv m f s).rails = s.rails := rfl
@[simp] theorem updMv_temps : (updMv m f s).temps = s.temps := rfl
@[simp] theorem updMv_damped : (updMv m f s).damped = s.damped := rfl
@[simp] theorem updMv_winBudget : (updMv m f s).winBudget = s.winBudget := rfl
@[simp] theorem updMv_winLimit : (updMv m f s).winLimit = s.winLimit := rfl
@[simp] theorem updMv_lanes : (updMv m f s).lanes = s.lanes := rfl
@[simp] theorem updMv_detours : (updMv m f s).detours = s.detours := rfl
@[simp] theorem updMv_mesh : (updMv m f s).mesh = s.mesh := rfl
@[simp] theorem updMv_wires : (updMv m f s).wires = s.wires := rfl
@[simp] theorem updMv_fenced : (updMv m f s).fenced = s.fenced := rfl
@[simp] theorem updMv_pllParked : (updMv m f s).pllParked = s.pllParked := rfl
@[simp] theorem updMv_parkAt : (updMv m f s).parkAt = s.parkAt := rfl
@[simp] theorem updMv_parked : (updMv m f s).parked = s.parked := rfl
@[simp] theorem updMv_stopped : (updMv m f s).stopped = s.stopped := rfl
@[simp] theorem updMv_refSeen : (updMv m f s).refSeen = s.refSeen := rfl
@[simp] theorem updMv_hostPorts : (updMv m f s).hostPorts = s.hostPorts := rfl
@[simp] theorem updMv_port0 : (updMv m f s).port0 = s.port0 := rfl
@[simp] theorem updMv_pfs : (updMv m f s).pfs = s.pfs := rfl
@[simp] theorem updMv_fns : (updMv m f s).fns = s.fns := rfl
@[simp] theorem updMv_advisories : (updMv m f s).advisories = s.advisories := rfl
@[simp] theorem updMv_vis : (updMv m f s).vis = s.vis := rfl
@[simp] theorem updMv_engs : (updMv m f s).engs = s.engs := rfl
@[simp] theorem updMv_movers : (updMv m f s).movers = mupd {} s.movers m.val f := rfl
@[simp] theorem updMv_gathers : (updMv m f s).gathers = s.gathers := rfl
@[simp] theorem updMv_dir : (updMv m f s).dir = s.dir := rfl
@[simp] theorem updMv_hl : (updMv m f s).hl = s.hl := rfl
@[simp] theorem updMv_hret : (updMv m f s).hret = s.hret := rfl
@[simp] theorem updMv_hblocks : (updMv m f s).hblocks = s.hblocks := rfl
@[simp] theorem updMv_aged : (updMv m f s).aged = s.aged := rfl
@[simp] theorem updMv_domainDown : (updMv m f s).domainDown = s.domainDown := rfl
@[simp] theorem updMv_viralRx : (updMv m f s).viralRx = s.viralRx := rfl
@[simp] theorem updMv_viralTx : (updMv m f s).viralTx = s.viralTx := rfl
@[simp] theorem updMv_lruCtr : (updMv m f s).lruCtr = s.lruCtr := rfl
@[simp] theorem updMv_mem : (updMv m f s).mem = s.mem := rfl
@[simp] theorem updMv_poison : (updMv m f s).poison = s.poison := rfl
@[simp] theorem updMv_ueWindow : (updMv m f s).ueWindow = s.ueWindow := rfl
@[simp] theorem updMv_scrubAt : (updMv m f s).scrubAt = s.scrubAt := rfl
@[simp] theorem updMv_ports : (updMv m f s).ports = s.ports := rfl
@[simp] theorem updMv_rt : (updMv m f s).rt = s.rt := rfl
@[simp] theorem updMv_epochCur : (updMv m f s).epochCur = s.epochCur := rfl
@[simp] theorem updMv_epochArm : (updMv m f s).epochArm = s.epochArm := rfl
@[simp] theorem updMv_grace : (updMv m f s).grace = s.grace := rfl
@[simp] theorem updMv_ctxs : (updMv m f s).ctxs = s.ctxs := rfl
@[simp] theorem updMv_fwin : (updMv m f s).fwin = s.fwin := rfl
@[simp] theorem updMv_iwin : (updMv m f s).iwin = s.iwin := rfl
@[simp] theorem updMv_qps : (updMv m f s).qps = s.qps := rfl
@[simp] theorem updMv_ackq : (updMv m f s).ackq = s.ackq := rfl
@[simp] theorem updMv_waitq : (updMv m f s).waitq = s.waitq := rfl
@[simp] theorem updMv_colls : (updMv m f s).colls = s.colls := rfl
@[simp] theorem updMv_collWait : (updMv m f s).collWait = s.collWait := rfl
@[simp] theorem updMv_collLast : (updMv m f s).collLast = s.collLast := rfl
@[simp] theorem updMv_refail : (updMv m f s).refail = s.refail := rfl
@[simp] theorem updMv_flt : (updMv m f s).flt = s.flt := rfl
@[simp] theorem updMv_rtc : (updMv m f s).rtc = s.rtc := rfl
@[simp] theorem updMv_ctrs : (updMv m f s).ctrs = s.ctrs := rfl
@[simp] theorem updMv_shadowBank : (updMv m f s).shadowBank = s.shadowBank := rfl
@[simp] theorem updMv_win : (updMv m f s).win = s.win := rfl
@[simp] theorem updMv_tap : (updMv m f s).tap = s.tap := rfl
@[simp] theorem updMv_tapDebug : (updMv m f s).tapDebug = s.tapDebug := rfl
end

section
variable (p : Port) (f : PortSt → PortSt)
@[simp] theorem updPort_pending : (updPort p f s).pending = s.pending := rfl
@[simp] theorem updPort_out : (updPort p f s).out = s.out := rfl
@[simp] theorem updPort_freeCtr : (updPort p f s).freeCtr = s.freeCtr := rfl
@[simp] theorem updPort_nowNs : (updPort p f s).nowNs = s.nowNs := rfl
@[simp] theorem updPort_ringCycles : (updPort p f s).ringCycles = s.ringCycles := rfl
@[simp] theorem updPort_fuses : (updPort p f s).fuses = s.fuses := rfl
@[simp] theorem updPort_board : (updPort p f s).board = s.board := rfl
@[simp] theorem updPort_boot : (updPort p f s).boot = s.boot := rfl
@[simp] theorem updPort_resetting : (updPort p f s).resetting = s.resetting := rfl
@[simp] theorem updPort_resetAt : (updPort p f s).resetAt = s.resetAt := rfl
@[simp] theorem updPort_degraded : (updPort p f s).degraded = s.degraded := rfl
@[simp] theorem updPort_generation : (updPort p f s).generation = s.generation := rfl
@[simp] theorem updPort_records : (updPort p f s).records = s.records := rfl
@[simp] theorem updPort_bootErr : (updPort p f s).bootErr = s.bootErr := rfl
@[simp] theorem updPort_rejected : (updPort p f s).rejected = s.rejected := rfl
@[simp] theorem updPort_bootSlot : (updPort p f s).bootSlot = s.bootSlot := rfl
@[simp] theorem updPort_fwVer : (updPort p f s).fwVer = s.fwVer := rfl
@[simp] theorem updPort_fwBody : (updPort p f s).fwBody = s.fwBody := rfl
@[simp] theorem updPort_selfTested : (updPort p f s).selfTested = s.selfTested := rfl
@[simp] theorem updPort_stage : (updPort p f s).stage = s.stage := rfl
@[simp] theorem updPort_stageTries : (updPort p f s).stageTries = s.stageTries := rfl
@[simp] theorem updPort_stageAt : (updPort p f s).stageAt = s.stageAt := rfl
@[simp] theorem updPort_going : (updPort p f s).going = s.going := rfl
@[simp] theorem updPort_vendor : (updPort p f s).vendor = s.vendor := rfl
@[simp] theorem updPort_vendorId : (updPort p f s).vendorId = s.vendorId := rfl
@[simp] theorem updPort_vendorSt : (updPort p f s).vendorSt = s.vendorSt := rfl
@[simp] theorem updPort_lastLoad : (updPort p f s).lastLoad = s.lastLoad := rfl
@[simp] theorem updPort_fld : (updPort p f s).fld = s.fld := rfl
@[simp] theorem updPort_shadow : (updPort p f s).shadow = s.shadow := rfl
@[simp] theorem updPort_chg : (updPort p f s).chg = s.chg := rfl
@[simp] theorem updPort_unitsLeft : (updPort p f s).unitsLeft = s.unitsLeft := rfl
@[simp] theorem updPort_applying : (updPort p f s).applying = s.applying := rfl
@[simp] theorem updPort_setId : (updPort p f s).setId = s.setId := rfl
@[simp] theorem updPort_late : (updPort p f s).late = s.late := rfl
@[simp] theorem updPort_rails : (updPort p f s).rails = s.rails := rfl
@[simp] theorem updPort_temps : (updPort p f s).temps = s.temps := rfl
@[simp] theorem updPort_damped : (updPort p f s).damped = s.damped := rfl
@[simp] theorem updPort_winBudget : (updPort p f s).winBudget = s.winBudget := rfl
@[simp] theorem updPort_winLimit : (updPort p f s).winLimit = s.winLimit := rfl
@[simp] theorem updPort_lanes : (updPort p f s).lanes = s.lanes := rfl
@[simp] theorem updPort_detours : (updPort p f s).detours = s.detours := rfl
@[simp] theorem updPort_mesh : (updPort p f s).mesh = s.mesh := rfl
@[simp] theorem updPort_wires : (updPort p f s).wires = s.wires := rfl
@[simp] theorem updPort_fenced : (updPort p f s).fenced = s.fenced := rfl
@[simp] theorem updPort_pllParked : (updPort p f s).pllParked = s.pllParked := rfl
@[simp] theorem updPort_parkAt : (updPort p f s).parkAt = s.parkAt := rfl
@[simp] theorem updPort_parked : (updPort p f s).parked = s.parked := rfl
@[simp] theorem updPort_stopped : (updPort p f s).stopped = s.stopped := rfl
@[simp] theorem updPort_refSeen : (updPort p f s).refSeen = s.refSeen := rfl
@[simp] theorem updPort_hostPorts : (updPort p f s).hostPorts = s.hostPorts := rfl
@[simp] theorem updPort_port0 : (updPort p f s).port0 = s.port0 := rfl
@[simp] theorem updPort_pfs : (updPort p f s).pfs = s.pfs := rfl
@[simp] theorem updPort_fns : (updPort p f s).fns = s.fns := rfl
@[simp] theorem updPort_advisories : (updPort p f s).advisories = s.advisories := rfl
@[simp] theorem updPort_vis : (updPort p f s).vis = s.vis := rfl
@[simp] theorem updPort_engs : (updPort p f s).engs = s.engs := rfl
@[simp] theorem updPort_movers : (updPort p f s).movers = s.movers := rfl
@[simp] theorem updPort_gathers : (updPort p f s).gathers = s.gathers := rfl
@[simp] theorem updPort_dir : (updPort p f s).dir = s.dir := rfl
@[simp] theorem updPort_hl : (updPort p f s).hl = s.hl := rfl
@[simp] theorem updPort_hret : (updPort p f s).hret = s.hret := rfl
@[simp] theorem updPort_hblocks : (updPort p f s).hblocks = s.hblocks := rfl
@[simp] theorem updPort_aged : (updPort p f s).aged = s.aged := rfl
@[simp] theorem updPort_domainDown : (updPort p f s).domainDown = s.domainDown := rfl
@[simp] theorem updPort_viralRx : (updPort p f s).viralRx = s.viralRx := rfl
@[simp] theorem updPort_viralTx : (updPort p f s).viralTx = s.viralTx := rfl
@[simp] theorem updPort_lruCtr : (updPort p f s).lruCtr = s.lruCtr := rfl
@[simp] theorem updPort_mem : (updPort p f s).mem = s.mem := rfl
@[simp] theorem updPort_poison : (updPort p f s).poison = s.poison := rfl
@[simp] theorem updPort_ueWindow : (updPort p f s).ueWindow = s.ueWindow := rfl
@[simp] theorem updPort_scrubAt : (updPort p f s).scrubAt = s.scrubAt := rfl
@[simp] theorem updPort_ports : (updPort p f s).ports = mupd {} s.ports p.val f := rfl
@[simp] theorem updPort_rt : (updPort p f s).rt = s.rt := rfl
@[simp] theorem updPort_epochCur : (updPort p f s).epochCur = s.epochCur := rfl
@[simp] theorem updPort_epochArm : (updPort p f s).epochArm = s.epochArm := rfl
@[simp] theorem updPort_grace : (updPort p f s).grace = s.grace := rfl
@[simp] theorem updPort_ctxs : (updPort p f s).ctxs = s.ctxs := rfl
@[simp] theorem updPort_fwin : (updPort p f s).fwin = s.fwin := rfl
@[simp] theorem updPort_iwin : (updPort p f s).iwin = s.iwin := rfl
@[simp] theorem updPort_qps : (updPort p f s).qps = s.qps := rfl
@[simp] theorem updPort_ackq : (updPort p f s).ackq = s.ackq := rfl
@[simp] theorem updPort_waitq : (updPort p f s).waitq = s.waitq := rfl
@[simp] theorem updPort_colls : (updPort p f s).colls = s.colls := rfl
@[simp] theorem updPort_collWait : (updPort p f s).collWait = s.collWait := rfl
@[simp] theorem updPort_collLast : (updPort p f s).collLast = s.collLast := rfl
@[simp] theorem updPort_refail : (updPort p f s).refail = s.refail := rfl
@[simp] theorem updPort_flt : (updPort p f s).flt = s.flt := rfl
@[simp] theorem updPort_rtc : (updPort p f s).rtc = s.rtc := rfl
@[simp] theorem updPort_ctrs : (updPort p f s).ctrs = s.ctrs := rfl
@[simp] theorem updPort_shadowBank : (updPort p f s).shadowBank = s.shadowBank := rfl
@[simp] theorem updPort_win : (updPort p f s).win = s.win := rfl
@[simp] theorem updPort_tap : (updPort p f s).tap = s.tap := rfl
@[simp] theorem updPort_tapDebug : (updPort p f s).tapDebug = s.tapDebug := rfl
end

section
variable (p : HPort) (f : HostPort → HostPort)
@[simp] theorem updHp_pending : (updHp p f s).pending = s.pending := rfl
@[simp] theorem updHp_out : (updHp p f s).out = s.out := rfl
@[simp] theorem updHp_freeCtr : (updHp p f s).freeCtr = s.freeCtr := rfl
@[simp] theorem updHp_nowNs : (updHp p f s).nowNs = s.nowNs := rfl
@[simp] theorem updHp_ringCycles : (updHp p f s).ringCycles = s.ringCycles := rfl
@[simp] theorem updHp_fuses : (updHp p f s).fuses = s.fuses := rfl
@[simp] theorem updHp_board : (updHp p f s).board = s.board := rfl
@[simp] theorem updHp_boot : (updHp p f s).boot = s.boot := rfl
@[simp] theorem updHp_resetting : (updHp p f s).resetting = s.resetting := rfl
@[simp] theorem updHp_resetAt : (updHp p f s).resetAt = s.resetAt := rfl
@[simp] theorem updHp_degraded : (updHp p f s).degraded = s.degraded := rfl
@[simp] theorem updHp_generation : (updHp p f s).generation = s.generation := rfl
@[simp] theorem updHp_records : (updHp p f s).records = s.records := rfl
@[simp] theorem updHp_bootErr : (updHp p f s).bootErr = s.bootErr := rfl
@[simp] theorem updHp_rejected : (updHp p f s).rejected = s.rejected := rfl
@[simp] theorem updHp_bootSlot : (updHp p f s).bootSlot = s.bootSlot := rfl
@[simp] theorem updHp_fwVer : (updHp p f s).fwVer = s.fwVer := rfl
@[simp] theorem updHp_fwBody : (updHp p f s).fwBody = s.fwBody := rfl
@[simp] theorem updHp_selfTested : (updHp p f s).selfTested = s.selfTested := rfl
@[simp] theorem updHp_stage : (updHp p f s).stage = s.stage := rfl
@[simp] theorem updHp_stageTries : (updHp p f s).stageTries = s.stageTries := rfl
@[simp] theorem updHp_stageAt : (updHp p f s).stageAt = s.stageAt := rfl
@[simp] theorem updHp_going : (updHp p f s).going = s.going := rfl
@[simp] theorem updHp_vendor : (updHp p f s).vendor = s.vendor := rfl
@[simp] theorem updHp_vendorId : (updHp p f s).vendorId = s.vendorId := rfl
@[simp] theorem updHp_vendorSt : (updHp p f s).vendorSt = s.vendorSt := rfl
@[simp] theorem updHp_lastLoad : (updHp p f s).lastLoad = s.lastLoad := rfl
@[simp] theorem updHp_fld : (updHp p f s).fld = s.fld := rfl
@[simp] theorem updHp_shadow : (updHp p f s).shadow = s.shadow := rfl
@[simp] theorem updHp_chg : (updHp p f s).chg = s.chg := rfl
@[simp] theorem updHp_unitsLeft : (updHp p f s).unitsLeft = s.unitsLeft := rfl
@[simp] theorem updHp_applying : (updHp p f s).applying = s.applying := rfl
@[simp] theorem updHp_setId : (updHp p f s).setId = s.setId := rfl
@[simp] theorem updHp_late : (updHp p f s).late = s.late := rfl
@[simp] theorem updHp_rails : (updHp p f s).rails = s.rails := rfl
@[simp] theorem updHp_temps : (updHp p f s).temps = s.temps := rfl
@[simp] theorem updHp_damped : (updHp p f s).damped = s.damped := rfl
@[simp] theorem updHp_winBudget : (updHp p f s).winBudget = s.winBudget := rfl
@[simp] theorem updHp_winLimit : (updHp p f s).winLimit = s.winLimit := rfl
@[simp] theorem updHp_lanes : (updHp p f s).lanes = s.lanes := rfl
@[simp] theorem updHp_detours : (updHp p f s).detours = s.detours := rfl
@[simp] theorem updHp_mesh : (updHp p f s).mesh = s.mesh := rfl
@[simp] theorem updHp_wires : (updHp p f s).wires = s.wires := rfl
@[simp] theorem updHp_fenced : (updHp p f s).fenced = s.fenced := rfl
@[simp] theorem updHp_pllParked : (updHp p f s).pllParked = s.pllParked := rfl
@[simp] theorem updHp_parkAt : (updHp p f s).parkAt = s.parkAt := rfl
@[simp] theorem updHp_parked : (updHp p f s).parked = s.parked := rfl
@[simp] theorem updHp_stopped : (updHp p f s).stopped = s.stopped := rfl
@[simp] theorem updHp_refSeen : (updHp p f s).refSeen = s.refSeen := rfl
@[simp] theorem updHp_hostPorts : (updHp p f s).hostPorts = mupd {} s.hostPorts p.val f := rfl
@[simp] theorem updHp_port0 : (updHp p f s).port0 = s.port0 := rfl
@[simp] theorem updHp_pfs : (updHp p f s).pfs = s.pfs := rfl
@[simp] theorem updHp_fns : (updHp p f s).fns = s.fns := rfl
@[simp] theorem updHp_advisories : (updHp p f s).advisories = s.advisories := rfl
@[simp] theorem updHp_vis : (updHp p f s).vis = s.vis := rfl
@[simp] theorem updHp_engs : (updHp p f s).engs = s.engs := rfl
@[simp] theorem updHp_movers : (updHp p f s).movers = s.movers := rfl
@[simp] theorem updHp_gathers : (updHp p f s).gathers = s.gathers := rfl
@[simp] theorem updHp_dir : (updHp p f s).dir = s.dir := rfl
@[simp] theorem updHp_hl : (updHp p f s).hl = s.hl := rfl
@[simp] theorem updHp_hret : (updHp p f s).hret = s.hret := rfl
@[simp] theorem updHp_hblocks : (updHp p f s).hblocks = s.hblocks := rfl
@[simp] theorem updHp_aged : (updHp p f s).aged = s.aged := rfl
@[simp] theorem updHp_domainDown : (updHp p f s).domainDown = s.domainDown := rfl
@[simp] theorem updHp_viralRx : (updHp p f s).viralRx = s.viralRx := rfl
@[simp] theorem updHp_viralTx : (updHp p f s).viralTx = s.viralTx := rfl
@[simp] theorem updHp_lruCtr : (updHp p f s).lruCtr = s.lruCtr := rfl
@[simp] theorem updHp_mem : (updHp p f s).mem = s.mem := rfl
@[simp] theorem updHp_poison : (updHp p f s).poison = s.poison := rfl
@[simp] theorem updHp_ueWindow : (updHp p f s).ueWindow = s.ueWindow := rfl
@[simp] theorem updHp_scrubAt : (updHp p f s).scrubAt = s.scrubAt := rfl
@[simp] theorem updHp_ports : (updHp p f s).ports = s.ports := rfl
@[simp] theorem updHp_rt : (updHp p f s).rt = s.rt := rfl
@[simp] theorem updHp_epochCur : (updHp p f s).epochCur = s.epochCur := rfl
@[simp] theorem updHp_epochArm : (updHp p f s).epochArm = s.epochArm := rfl
@[simp] theorem updHp_grace : (updHp p f s).grace = s.grace := rfl
@[simp] theorem updHp_ctxs : (updHp p f s).ctxs = s.ctxs := rfl
@[simp] theorem updHp_fwin : (updHp p f s).fwin = s.fwin := rfl
@[simp] theorem updHp_iwin : (updHp p f s).iwin = s.iwin := rfl
@[simp] theorem updHp_qps : (updHp p f s).qps = s.qps := rfl
@[simp] theorem updHp_ackq : (updHp p f s).ackq = s.ackq := rfl
@[simp] theorem updHp_waitq : (updHp p f s).waitq = s.waitq := rfl
@[simp] theorem updHp_colls : (updHp p f s).colls = s.colls := rfl
@[simp] theorem updHp_collWait : (updHp p f s).collWait = s.collWait := rfl
@[simp] theorem updHp_collLast : (updHp p f s).collLast = s.collLast := rfl
@[simp] theorem updHp_refail : (updHp p f s).refail = s.refail := rfl
@[simp] theorem updHp_flt : (updHp p f s).flt = s.flt := rfl
@[simp] theorem updHp_rtc : (updHp p f s).rtc = s.rtc := rfl
@[simp] theorem updHp_ctrs : (updHp p f s).ctrs = s.ctrs := rfl
@[simp] theorem updHp_shadowBank : (updHp p f s).shadowBank = s.shadowBank := rfl
@[simp] theorem updHp_win : (updHp p f s).win = s.win := rfl
@[simp] theorem updHp_tap : (updHp p f s).tap = s.tap := rfl
@[simp] theorem updHp_tapDebug : (updHp p f s).tapDebug = s.tapDebug := rfl
end

section
variable (k : Kiln) (f : Rails → Rails)
@[simp] theorem updRail_pending : (updRail k f s).pending = s.pending := rfl
@[simp] theorem updRail_out : (updRail k f s).out = s.out := rfl
@[simp] theorem updRail_freeCtr : (updRail k f s).freeCtr = s.freeCtr := rfl
@[simp] theorem updRail_nowNs : (updRail k f s).nowNs = s.nowNs := rfl
@[simp] theorem updRail_ringCycles : (updRail k f s).ringCycles = s.ringCycles := rfl
@[simp] theorem updRail_fuses : (updRail k f s).fuses = s.fuses := rfl
@[simp] theorem updRail_board : (updRail k f s).board = s.board := rfl
@[simp] theorem updRail_boot : (updRail k f s).boot = s.boot := rfl
@[simp] theorem updRail_resetting : (updRail k f s).resetting = s.resetting := rfl
@[simp] theorem updRail_resetAt : (updRail k f s).resetAt = s.resetAt := rfl
@[simp] theorem updRail_degraded : (updRail k f s).degraded = s.degraded := rfl
@[simp] theorem updRail_generation : (updRail k f s).generation = s.generation := rfl
@[simp] theorem updRail_records : (updRail k f s).records = s.records := rfl
@[simp] theorem updRail_bootErr : (updRail k f s).bootErr = s.bootErr := rfl
@[simp] theorem updRail_rejected : (updRail k f s).rejected = s.rejected := rfl
@[simp] theorem updRail_bootSlot : (updRail k f s).bootSlot = s.bootSlot := rfl
@[simp] theorem updRail_fwVer : (updRail k f s).fwVer = s.fwVer := rfl
@[simp] theorem updRail_fwBody : (updRail k f s).fwBody = s.fwBody := rfl
@[simp] theorem updRail_selfTested : (updRail k f s).selfTested = s.selfTested := rfl
@[simp] theorem updRail_stage : (updRail k f s).stage = s.stage := rfl
@[simp] theorem updRail_stageTries : (updRail k f s).stageTries = s.stageTries := rfl
@[simp] theorem updRail_stageAt : (updRail k f s).stageAt = s.stageAt := rfl
@[simp] theorem updRail_going : (updRail k f s).going = s.going := rfl
@[simp] theorem updRail_vendor : (updRail k f s).vendor = s.vendor := rfl
@[simp] theorem updRail_vendorId : (updRail k f s).vendorId = s.vendorId := rfl
@[simp] theorem updRail_vendorSt : (updRail k f s).vendorSt = s.vendorSt := rfl
@[simp] theorem updRail_lastLoad : (updRail k f s).lastLoad = s.lastLoad := rfl
@[simp] theorem updRail_fld : (updRail k f s).fld = s.fld := rfl
@[simp] theorem updRail_shadow : (updRail k f s).shadow = s.shadow := rfl
@[simp] theorem updRail_chg : (updRail k f s).chg = s.chg := rfl
@[simp] theorem updRail_unitsLeft : (updRail k f s).unitsLeft = s.unitsLeft := rfl
@[simp] theorem updRail_applying : (updRail k f s).applying = s.applying := rfl
@[simp] theorem updRail_setId : (updRail k f s).setId = s.setId := rfl
@[simp] theorem updRail_late : (updRail k f s).late = s.late := rfl
@[simp] theorem updRail_rails : (updRail k f s).rails = mupd {} s.rails k.val f := rfl
@[simp] theorem updRail_temps : (updRail k f s).temps = s.temps := rfl
@[simp] theorem updRail_damped : (updRail k f s).damped = s.damped := rfl
@[simp] theorem updRail_winBudget : (updRail k f s).winBudget = s.winBudget := rfl
@[simp] theorem updRail_winLimit : (updRail k f s).winLimit = s.winLimit := rfl
@[simp] theorem updRail_lanes : (updRail k f s).lanes = s.lanes := rfl
@[simp] theorem updRail_detours : (updRail k f s).detours = s.detours := rfl
@[simp] theorem updRail_mesh : (updRail k f s).mesh = s.mesh := rfl
@[simp] theorem updRail_wires : (updRail k f s).wires = s.wires := rfl
@[simp] theorem updRail_fenced : (updRail k f s).fenced = s.fenced := rfl
@[simp] theorem updRail_pllParked : (updRail k f s).pllParked = s.pllParked := rfl
@[simp] theorem updRail_parkAt : (updRail k f s).parkAt = s.parkAt := rfl
@[simp] theorem updRail_parked : (updRail k f s).parked = s.parked := rfl
@[simp] theorem updRail_stopped : (updRail k f s).stopped = s.stopped := rfl
@[simp] theorem updRail_refSeen : (updRail k f s).refSeen = s.refSeen := rfl
@[simp] theorem updRail_hostPorts : (updRail k f s).hostPorts = s.hostPorts := rfl
@[simp] theorem updRail_port0 : (updRail k f s).port0 = s.port0 := rfl
@[simp] theorem updRail_pfs : (updRail k f s).pfs = s.pfs := rfl
@[simp] theorem updRail_fns : (updRail k f s).fns = s.fns := rfl
@[simp] theorem updRail_advisories : (updRail k f s).advisories = s.advisories := rfl
@[simp] theorem updRail_vis : (updRail k f s).vis = s.vis := rfl
@[simp] theorem updRail_engs : (updRail k f s).engs = s.engs := rfl
@[simp] theorem updRail_movers : (updRail k f s).movers = s.movers := rfl
@[simp] theorem updRail_gathers : (updRail k f s).gathers = s.gathers := rfl
@[simp] theorem updRail_dir : (updRail k f s).dir = s.dir := rfl
@[simp] theorem updRail_hl : (updRail k f s).hl = s.hl := rfl
@[simp] theorem updRail_hret : (updRail k f s).hret = s.hret := rfl
@[simp] theorem updRail_hblocks : (updRail k f s).hblocks = s.hblocks := rfl
@[simp] theorem updRail_aged : (updRail k f s).aged = s.aged := rfl
@[simp] theorem updRail_domainDown : (updRail k f s).domainDown = s.domainDown := rfl
@[simp] theorem updRail_viralRx : (updRail k f s).viralRx = s.viralRx := rfl
@[simp] theorem updRail_viralTx : (updRail k f s).viralTx = s.viralTx := rfl
@[simp] theorem updRail_lruCtr : (updRail k f s).lruCtr = s.lruCtr := rfl
@[simp] theorem updRail_mem : (updRail k f s).mem = s.mem := rfl
@[simp] theorem updRail_poison : (updRail k f s).poison = s.poison := rfl
@[simp] theorem updRail_ueWindow : (updRail k f s).ueWindow = s.ueWindow := rfl
@[simp] theorem updRail_scrubAt : (updRail k f s).scrubAt = s.scrubAt := rfl
@[simp] theorem updRail_ports : (updRail k f s).ports = s.ports := rfl
@[simp] theorem updRail_rt : (updRail k f s).rt = s.rt := rfl
@[simp] theorem updRail_epochCur : (updRail k f s).epochCur = s.epochCur := rfl
@[simp] theorem updRail_epochArm : (updRail k f s).epochArm = s.epochArm := rfl
@[simp] theorem updRail_grace : (updRail k f s).grace = s.grace := rfl
@[simp] theorem updRail_ctxs : (updRail k f s).ctxs = s.ctxs := rfl
@[simp] theorem updRail_fwin : (updRail k f s).fwin = s.fwin := rfl
@[simp] theorem updRail_iwin : (updRail k f s).iwin = s.iwin := rfl
@[simp] theorem updRail_qps : (updRail k f s).qps = s.qps := rfl
@[simp] theorem updRail_ackq : (updRail k f s).ackq = s.ackq := rfl
@[simp] theorem updRail_waitq : (updRail k f s).waitq = s.waitq := rfl
@[simp] theorem updRail_colls : (updRail k f s).colls = s.colls := rfl
@[simp] theorem updRail_collWait : (updRail k f s).collWait = s.collWait := rfl
@[simp] theorem updRail_collLast : (updRail k f s).collLast = s.collLast := rfl
@[simp] theorem updRail_refail : (updRail k f s).refail = s.refail := rfl
@[simp] theorem updRail_flt : (updRail k f s).flt = s.flt := rfl
@[simp] theorem updRail_rtc : (updRail k f s).rtc = s.rtc := rfl
@[simp] theorem updRail_ctrs : (updRail k f s).ctrs = s.ctrs := rfl
@[simp] theorem updRail_shadowBank : (updRail k f s).shadowBank = s.shadowBank := rfl
@[simp] theorem updRail_win : (updRail k f s).win = s.win := rfl
@[simp] theorem updRail_tap : (updRail k f s).tap = s.tap := rfl
@[simp] theorem updRail_tapDebug : (updRail k f s).tapDebug = s.tapDebug := rfl
end

section
variable (g : Grp) (f : CollSt → CollSt)
@[simp] theorem updColl_pending : (updColl g f s).pending = s.pending := rfl
@[simp] theorem updColl_out : (updColl g f s).out = s.out := rfl
@[simp] theorem updColl_freeCtr : (updColl g f s).freeCtr = s.freeCtr := rfl
@[simp] theorem updColl_nowNs : (updColl g f s).nowNs = s.nowNs := rfl
@[simp] theorem updColl_ringCycles : (updColl g f s).ringCycles = s.ringCycles := rfl
@[simp] theorem updColl_fuses : (updColl g f s).fuses = s.fuses := rfl
@[simp] theorem updColl_board : (updColl g f s).board = s.board := rfl
@[simp] theorem updColl_boot : (updColl g f s).boot = s.boot := rfl
@[simp] theorem updColl_resetting : (updColl g f s).resetting = s.resetting := rfl
@[simp] theorem updColl_resetAt : (updColl g f s).resetAt = s.resetAt := rfl
@[simp] theorem updColl_degraded : (updColl g f s).degraded = s.degraded := rfl
@[simp] theorem updColl_generation : (updColl g f s).generation = s.generation := rfl
@[simp] theorem updColl_records : (updColl g f s).records = s.records := rfl
@[simp] theorem updColl_bootErr : (updColl g f s).bootErr = s.bootErr := rfl
@[simp] theorem updColl_rejected : (updColl g f s).rejected = s.rejected := rfl
@[simp] theorem updColl_bootSlot : (updColl g f s).bootSlot = s.bootSlot := rfl
@[simp] theorem updColl_fwVer : (updColl g f s).fwVer = s.fwVer := rfl
@[simp] theorem updColl_fwBody : (updColl g f s).fwBody = s.fwBody := rfl
@[simp] theorem updColl_selfTested : (updColl g f s).selfTested = s.selfTested := rfl
@[simp] theorem updColl_stage : (updColl g f s).stage = s.stage := rfl
@[simp] theorem updColl_stageTries : (updColl g f s).stageTries = s.stageTries := rfl
@[simp] theorem updColl_stageAt : (updColl g f s).stageAt = s.stageAt := rfl
@[simp] theorem updColl_going : (updColl g f s).going = s.going := rfl
@[simp] theorem updColl_vendor : (updColl g f s).vendor = s.vendor := rfl
@[simp] theorem updColl_vendorId : (updColl g f s).vendorId = s.vendorId := rfl
@[simp] theorem updColl_vendorSt : (updColl g f s).vendorSt = s.vendorSt := rfl
@[simp] theorem updColl_lastLoad : (updColl g f s).lastLoad = s.lastLoad := rfl
@[simp] theorem updColl_fld : (updColl g f s).fld = s.fld := rfl
@[simp] theorem updColl_shadow : (updColl g f s).shadow = s.shadow := rfl
@[simp] theorem updColl_chg : (updColl g f s).chg = s.chg := rfl
@[simp] theorem updColl_unitsLeft : (updColl g f s).unitsLeft = s.unitsLeft := rfl
@[simp] theorem updColl_applying : (updColl g f s).applying = s.applying := rfl
@[simp] theorem updColl_setId : (updColl g f s).setId = s.setId := rfl
@[simp] theorem updColl_late : (updColl g f s).late = s.late := rfl
@[simp] theorem updColl_rails : (updColl g f s).rails = s.rails := rfl
@[simp] theorem updColl_temps : (updColl g f s).temps = s.temps := rfl
@[simp] theorem updColl_damped : (updColl g f s).damped = s.damped := rfl
@[simp] theorem updColl_winBudget : (updColl g f s).winBudget = s.winBudget := rfl
@[simp] theorem updColl_winLimit : (updColl g f s).winLimit = s.winLimit := rfl
@[simp] theorem updColl_lanes : (updColl g f s).lanes = s.lanes := rfl
@[simp] theorem updColl_detours : (updColl g f s).detours = s.detours := rfl
@[simp] theorem updColl_mesh : (updColl g f s).mesh = s.mesh := rfl
@[simp] theorem updColl_wires : (updColl g f s).wires = s.wires := rfl
@[simp] theorem updColl_fenced : (updColl g f s).fenced = s.fenced := rfl
@[simp] theorem updColl_pllParked : (updColl g f s).pllParked = s.pllParked := rfl
@[simp] theorem updColl_parkAt : (updColl g f s).parkAt = s.parkAt := rfl
@[simp] theorem updColl_parked : (updColl g f s).parked = s.parked := rfl
@[simp] theorem updColl_stopped : (updColl g f s).stopped = s.stopped := rfl
@[simp] theorem updColl_refSeen : (updColl g f s).refSeen = s.refSeen := rfl
@[simp] theorem updColl_hostPorts : (updColl g f s).hostPorts = s.hostPorts := rfl
@[simp] theorem updColl_port0 : (updColl g f s).port0 = s.port0 := rfl
@[simp] theorem updColl_pfs : (updColl g f s).pfs = s.pfs := rfl
@[simp] theorem updColl_fns : (updColl g f s).fns = s.fns := rfl
@[simp] theorem updColl_advisories : (updColl g f s).advisories = s.advisories := rfl
@[simp] theorem updColl_vis : (updColl g f s).vis = s.vis := rfl
@[simp] theorem updColl_engs : (updColl g f s).engs = s.engs := rfl
@[simp] theorem updColl_movers : (updColl g f s).movers = s.movers := rfl
@[simp] theorem updColl_gathers : (updColl g f s).gathers = s.gathers := rfl
@[simp] theorem updColl_dir : (updColl g f s).dir = s.dir := rfl
@[simp] theorem updColl_hl : (updColl g f s).hl = s.hl := rfl
@[simp] theorem updColl_hret : (updColl g f s).hret = s.hret := rfl
@[simp] theorem updColl_hblocks : (updColl g f s).hblocks = s.hblocks := rfl
@[simp] theorem updColl_aged : (updColl g f s).aged = s.aged := rfl
@[simp] theorem updColl_domainDown : (updColl g f s).domainDown = s.domainDown := rfl
@[simp] theorem updColl_viralRx : (updColl g f s).viralRx = s.viralRx := rfl
@[simp] theorem updColl_viralTx : (updColl g f s).viralTx = s.viralTx := rfl
@[simp] theorem updColl_lruCtr : (updColl g f s).lruCtr = s.lruCtr := rfl
@[simp] theorem updColl_mem : (updColl g f s).mem = s.mem := rfl
@[simp] theorem updColl_poison : (updColl g f s).poison = s.poison := rfl
@[simp] theorem updColl_ueWindow : (updColl g f s).ueWindow = s.ueWindow := rfl
@[simp] theorem updColl_scrubAt : (updColl g f s).scrubAt = s.scrubAt := rfl
@[simp] theorem updColl_ports : (updColl g f s).ports = s.ports := rfl
@[simp] theorem updColl_rt : (updColl g f s).rt = s.rt := rfl
@[simp] theorem updColl_epochCur : (updColl g f s).epochCur = s.epochCur := rfl
@[simp] theorem updColl_epochArm : (updColl g f s).epochArm = s.epochArm := rfl
@[simp] theorem updColl_grace : (updColl g f s).grace = s.grace := rfl
@[simp] theorem updColl_ctxs : (updColl g f s).ctxs = s.ctxs := rfl
@[simp] theorem updColl_fwin : (updColl g f s).fwin = s.fwin := rfl
@[simp] theorem updColl_iwin : (updColl g f s).iwin = s.iwin := rfl
@[simp] theorem updColl_qps : (updColl g f s).qps = s.qps := rfl
@[simp] theorem updColl_ackq : (updColl g f s).ackq = s.ackq := rfl
@[simp] theorem updColl_waitq : (updColl g f s).waitq = s.waitq := rfl
@[simp] theorem updColl_colls : (updColl g f s).colls = mupd {} s.colls g.val f := rfl
@[simp] theorem updColl_collWait : (updColl g f s).collWait = s.collWait := rfl
@[simp] theorem updColl_collLast : (updColl g f s).collLast = s.collLast := rfl
@[simp] theorem updColl_refail : (updColl g f s).refail = s.refail := rfl
@[simp] theorem updColl_flt : (updColl g f s).flt = s.flt := rfl
@[simp] theorem updColl_rtc : (updColl g f s).rtc = s.rtc := rfl
@[simp] theorem updColl_ctrs : (updColl g f s).ctrs = s.ctrs := rfl
@[simp] theorem updColl_shadowBank : (updColl g f s).shadowBank = s.shadowBank := rfl
@[simp] theorem updColl_win : (updColl g f s).win = s.win := rfl
@[simp] theorem updColl_tap : (updColl g f s).tap = s.tap := rfl
@[simp] theorem updColl_tapDebug : (updColl g f s).tapDebug = s.tapDebug := rfl
end

section
variable (n : Ctr) (f : CtrSt → CtrSt)
@[simp] theorem updCtr_pending : (updCtr n f s).pending = s.pending := rfl
@[simp] theorem updCtr_out : (updCtr n f s).out = s.out := rfl
@[simp] theorem updCtr_freeCtr : (updCtr n f s).freeCtr = s.freeCtr := rfl
@[simp] theorem updCtr_nowNs : (updCtr n f s).nowNs = s.nowNs := rfl
@[simp] theorem updCtr_ringCycles : (updCtr n f s).ringCycles = s.ringCycles := rfl
@[simp] theorem updCtr_fuses : (updCtr n f s).fuses = s.fuses := rfl
@[simp] theorem updCtr_board : (updCtr n f s).board = s.board := rfl
@[simp] theorem updCtr_boot : (updCtr n f s).boot = s.boot := rfl
@[simp] theorem updCtr_resetting : (updCtr n f s).resetting = s.resetting := rfl
@[simp] theorem updCtr_resetAt : (updCtr n f s).resetAt = s.resetAt := rfl
@[simp] theorem updCtr_degraded : (updCtr n f s).degraded = s.degraded := rfl
@[simp] theorem updCtr_generation : (updCtr n f s).generation = s.generation := rfl
@[simp] theorem updCtr_records : (updCtr n f s).records = s.records := rfl
@[simp] theorem updCtr_bootErr : (updCtr n f s).bootErr = s.bootErr := rfl
@[simp] theorem updCtr_rejected : (updCtr n f s).rejected = s.rejected := rfl
@[simp] theorem updCtr_bootSlot : (updCtr n f s).bootSlot = s.bootSlot := rfl
@[simp] theorem updCtr_fwVer : (updCtr n f s).fwVer = s.fwVer := rfl
@[simp] theorem updCtr_fwBody : (updCtr n f s).fwBody = s.fwBody := rfl
@[simp] theorem updCtr_selfTested : (updCtr n f s).selfTested = s.selfTested := rfl
@[simp] theorem updCtr_stage : (updCtr n f s).stage = s.stage := rfl
@[simp] theorem updCtr_stageTries : (updCtr n f s).stageTries = s.stageTries := rfl
@[simp] theorem updCtr_stageAt : (updCtr n f s).stageAt = s.stageAt := rfl
@[simp] theorem updCtr_going : (updCtr n f s).going = s.going := rfl
@[simp] theorem updCtr_vendor : (updCtr n f s).vendor = s.vendor := rfl
@[simp] theorem updCtr_vendorId : (updCtr n f s).vendorId = s.vendorId := rfl
@[simp] theorem updCtr_vendorSt : (updCtr n f s).vendorSt = s.vendorSt := rfl
@[simp] theorem updCtr_lastLoad : (updCtr n f s).lastLoad = s.lastLoad := rfl
@[simp] theorem updCtr_fld : (updCtr n f s).fld = s.fld := rfl
@[simp] theorem updCtr_shadow : (updCtr n f s).shadow = s.shadow := rfl
@[simp] theorem updCtr_chg : (updCtr n f s).chg = s.chg := rfl
@[simp] theorem updCtr_unitsLeft : (updCtr n f s).unitsLeft = s.unitsLeft := rfl
@[simp] theorem updCtr_applying : (updCtr n f s).applying = s.applying := rfl
@[simp] theorem updCtr_setId : (updCtr n f s).setId = s.setId := rfl
@[simp] theorem updCtr_late : (updCtr n f s).late = s.late := rfl
@[simp] theorem updCtr_rails : (updCtr n f s).rails = s.rails := rfl
@[simp] theorem updCtr_temps : (updCtr n f s).temps = s.temps := rfl
@[simp] theorem updCtr_damped : (updCtr n f s).damped = s.damped := rfl
@[simp] theorem updCtr_winBudget : (updCtr n f s).winBudget = s.winBudget := rfl
@[simp] theorem updCtr_winLimit : (updCtr n f s).winLimit = s.winLimit := rfl
@[simp] theorem updCtr_lanes : (updCtr n f s).lanes = s.lanes := rfl
@[simp] theorem updCtr_detours : (updCtr n f s).detours = s.detours := rfl
@[simp] theorem updCtr_mesh : (updCtr n f s).mesh = s.mesh := rfl
@[simp] theorem updCtr_wires : (updCtr n f s).wires = s.wires := rfl
@[simp] theorem updCtr_fenced : (updCtr n f s).fenced = s.fenced := rfl
@[simp] theorem updCtr_pllParked : (updCtr n f s).pllParked = s.pllParked := rfl
@[simp] theorem updCtr_parkAt : (updCtr n f s).parkAt = s.parkAt := rfl
@[simp] theorem updCtr_parked : (updCtr n f s).parked = s.parked := rfl
@[simp] theorem updCtr_stopped : (updCtr n f s).stopped = s.stopped := rfl
@[simp] theorem updCtr_refSeen : (updCtr n f s).refSeen = s.refSeen := rfl
@[simp] theorem updCtr_hostPorts : (updCtr n f s).hostPorts = s.hostPorts := rfl
@[simp] theorem updCtr_port0 : (updCtr n f s).port0 = s.port0 := rfl
@[simp] theorem updCtr_pfs : (updCtr n f s).pfs = s.pfs := rfl
@[simp] theorem updCtr_fns : (updCtr n f s).fns = s.fns := rfl
@[simp] theorem updCtr_advisories : (updCtr n f s).advisories = s.advisories := rfl
@[simp] theorem updCtr_vis : (updCtr n f s).vis = s.vis := rfl
@[simp] theorem updCtr_engs : (updCtr n f s).engs = s.engs := rfl
@[simp] theorem updCtr_movers : (updCtr n f s).movers = s.movers := rfl
@[simp] theorem updCtr_gathers : (updCtr n f s).gathers = s.gathers := rfl
@[simp] theorem updCtr_dir : (updCtr n f s).dir = s.dir := rfl
@[simp] theorem updCtr_hl : (updCtr n f s).hl = s.hl := rfl
@[simp] theorem updCtr_hret : (updCtr n f s).hret = s.hret := rfl
@[simp] theorem updCtr_hblocks : (updCtr n f s).hblocks = s.hblocks := rfl
@[simp] theorem updCtr_aged : (updCtr n f s).aged = s.aged := rfl
@[simp] theorem updCtr_domainDown : (updCtr n f s).domainDown = s.domainDown := rfl
@[simp] theorem updCtr_viralRx : (updCtr n f s).viralRx = s.viralRx := rfl
@[simp] theorem updCtr_viralTx : (updCtr n f s).viralTx = s.viralTx := rfl
@[simp] theorem updCtr_lruCtr : (updCtr n f s).lruCtr = s.lruCtr := rfl
@[simp] theorem updCtr_mem : (updCtr n f s).mem = s.mem := rfl
@[simp] theorem updCtr_poison : (updCtr n f s).poison = s.poison := rfl
@[simp] theorem updCtr_ueWindow : (updCtr n f s).ueWindow = s.ueWindow := rfl
@[simp] theorem updCtr_scrubAt : (updCtr n f s).scrubAt = s.scrubAt := rfl
@[simp] theorem updCtr_ports : (updCtr n f s).ports = s.ports := rfl
@[simp] theorem updCtr_rt : (updCtr n f s).rt = s.rt := rfl
@[simp] theorem updCtr_epochCur : (updCtr n f s).epochCur = s.epochCur := rfl
@[simp] theorem updCtr_epochArm : (updCtr n f s).epochArm = s.epochArm := rfl
@[simp] theorem updCtr_grace : (updCtr n f s).grace = s.grace := rfl
@[simp] theorem updCtr_ctxs : (updCtr n f s).ctxs = s.ctxs := rfl
@[simp] theorem updCtr_fwin : (updCtr n f s).fwin = s.fwin := rfl
@[simp] theorem updCtr_iwin : (updCtr n f s).iwin = s.iwin := rfl
@[simp] theorem updCtr_qps : (updCtr n f s).qps = s.qps := rfl
@[simp] theorem updCtr_ackq : (updCtr n f s).ackq = s.ackq := rfl
@[simp] theorem updCtr_waitq : (updCtr n f s).waitq = s.waitq := rfl
@[simp] theorem updCtr_colls : (updCtr n f s).colls = s.colls := rfl
@[simp] theorem updCtr_collWait : (updCtr n f s).collWait = s.collWait := rfl
@[simp] theorem updCtr_collLast : (updCtr n f s).collLast = s.collLast := rfl
@[simp] theorem updCtr_refail : (updCtr n f s).refail = s.refail := rfl
@[simp] theorem updCtr_flt : (updCtr n f s).flt = s.flt := rfl
@[simp] theorem updCtr_rtc : (updCtr n f s).rtc = s.rtc := rfl
@[simp] theorem updCtr_ctrs : (updCtr n f s).ctrs = mupd {} s.ctrs n.val f := rfl
@[simp] theorem updCtr_shadowBank : (updCtr n f s).shadowBank = s.shadowBank := rfl
@[simp] theorem updCtr_win : (updCtr n f s).win = s.win := rfl
@[simp] theorem updCtr_tap : (updCtr n f s).tap = s.tap := rfl
@[simp] theorem updCtr_tapDebug : (updCtr n f s).tapDebug = s.tapDebug := rfl
end

section
variable (c : Nat) (f : Ctx → Ctx)
@[simp] theorem updCtx_pending : (updCtx c f s).pending = s.pending := rfl
@[simp] theorem updCtx_out : (updCtx c f s).out = s.out := rfl
@[simp] theorem updCtx_freeCtr : (updCtx c f s).freeCtr = s.freeCtr := rfl
@[simp] theorem updCtx_nowNs : (updCtx c f s).nowNs = s.nowNs := rfl
@[simp] theorem updCtx_ringCycles : (updCtx c f s).ringCycles = s.ringCycles := rfl
@[simp] theorem updCtx_fuses : (updCtx c f s).fuses = s.fuses := rfl
@[simp] theorem updCtx_board : (updCtx c f s).board = s.board := rfl
@[simp] theorem updCtx_boot : (updCtx c f s).boot = s.boot := rfl
@[simp] theorem updCtx_resetting : (updCtx c f s).resetting = s.resetting := rfl
@[simp] theorem updCtx_resetAt : (updCtx c f s).resetAt = s.resetAt := rfl
@[simp] theorem updCtx_degraded : (updCtx c f s).degraded = s.degraded := rfl
@[simp] theorem updCtx_generation : (updCtx c f s).generation = s.generation := rfl
@[simp] theorem updCtx_records : (updCtx c f s).records = s.records := rfl
@[simp] theorem updCtx_bootErr : (updCtx c f s).bootErr = s.bootErr := rfl
@[simp] theorem updCtx_rejected : (updCtx c f s).rejected = s.rejected := rfl
@[simp] theorem updCtx_bootSlot : (updCtx c f s).bootSlot = s.bootSlot := rfl
@[simp] theorem updCtx_fwVer : (updCtx c f s).fwVer = s.fwVer := rfl
@[simp] theorem updCtx_fwBody : (updCtx c f s).fwBody = s.fwBody := rfl
@[simp] theorem updCtx_selfTested : (updCtx c f s).selfTested = s.selfTested := rfl
@[simp] theorem updCtx_stage : (updCtx c f s).stage = s.stage := rfl
@[simp] theorem updCtx_stageTries : (updCtx c f s).stageTries = s.stageTries := rfl
@[simp] theorem updCtx_stageAt : (updCtx c f s).stageAt = s.stageAt := rfl
@[simp] theorem updCtx_going : (updCtx c f s).going = s.going := rfl
@[simp] theorem updCtx_vendor : (updCtx c f s).vendor = s.vendor := rfl
@[simp] theorem updCtx_vendorId : (updCtx c f s).vendorId = s.vendorId := rfl
@[simp] theorem updCtx_vendorSt : (updCtx c f s).vendorSt = s.vendorSt := rfl
@[simp] theorem updCtx_lastLoad : (updCtx c f s).lastLoad = s.lastLoad := rfl
@[simp] theorem updCtx_fld : (updCtx c f s).fld = s.fld := rfl
@[simp] theorem updCtx_shadow : (updCtx c f s).shadow = s.shadow := rfl
@[simp] theorem updCtx_chg : (updCtx c f s).chg = s.chg := rfl
@[simp] theorem updCtx_unitsLeft : (updCtx c f s).unitsLeft = s.unitsLeft := rfl
@[simp] theorem updCtx_applying : (updCtx c f s).applying = s.applying := rfl
@[simp] theorem updCtx_setId : (updCtx c f s).setId = s.setId := rfl
@[simp] theorem updCtx_late : (updCtx c f s).late = s.late := rfl
@[simp] theorem updCtx_rails : (updCtx c f s).rails = s.rails := rfl
@[simp] theorem updCtx_temps : (updCtx c f s).temps = s.temps := rfl
@[simp] theorem updCtx_damped : (updCtx c f s).damped = s.damped := rfl
@[simp] theorem updCtx_winBudget : (updCtx c f s).winBudget = s.winBudget := rfl
@[simp] theorem updCtx_winLimit : (updCtx c f s).winLimit = s.winLimit := rfl
@[simp] theorem updCtx_lanes : (updCtx c f s).lanes = s.lanes := rfl
@[simp] theorem updCtx_detours : (updCtx c f s).detours = s.detours := rfl
@[simp] theorem updCtx_mesh : (updCtx c f s).mesh = s.mesh := rfl
@[simp] theorem updCtx_wires : (updCtx c f s).wires = s.wires := rfl
@[simp] theorem updCtx_fenced : (updCtx c f s).fenced = s.fenced := rfl
@[simp] theorem updCtx_pllParked : (updCtx c f s).pllParked = s.pllParked := rfl
@[simp] theorem updCtx_parkAt : (updCtx c f s).parkAt = s.parkAt := rfl
@[simp] theorem updCtx_parked : (updCtx c f s).parked = s.parked := rfl
@[simp] theorem updCtx_stopped : (updCtx c f s).stopped = s.stopped := rfl
@[simp] theorem updCtx_refSeen : (updCtx c f s).refSeen = s.refSeen := rfl
@[simp] theorem updCtx_hostPorts : (updCtx c f s).hostPorts = s.hostPorts := rfl
@[simp] theorem updCtx_port0 : (updCtx c f s).port0 = s.port0 := rfl
@[simp] theorem updCtx_pfs : (updCtx c f s).pfs = s.pfs := rfl
@[simp] theorem updCtx_fns : (updCtx c f s).fns = s.fns := rfl
@[simp] theorem updCtx_advisories : (updCtx c f s).advisories = s.advisories := rfl
@[simp] theorem updCtx_vis : (updCtx c f s).vis = s.vis := rfl
@[simp] theorem updCtx_engs : (updCtx c f s).engs = s.engs := rfl
@[simp] theorem updCtx_movers : (updCtx c f s).movers = s.movers := rfl
@[simp] theorem updCtx_gathers : (updCtx c f s).gathers = s.gathers := rfl
@[simp] theorem updCtx_dir : (updCtx c f s).dir = s.dir := rfl
@[simp] theorem updCtx_hl : (updCtx c f s).hl = s.hl := rfl
@[simp] theorem updCtx_hret : (updCtx c f s).hret = s.hret := rfl
@[simp] theorem updCtx_hblocks : (updCtx c f s).hblocks = s.hblocks := rfl
@[simp] theorem updCtx_aged : (updCtx c f s).aged = s.aged := rfl
@[simp] theorem updCtx_domainDown : (updCtx c f s).domainDown = s.domainDown := rfl
@[simp] theorem updCtx_viralRx : (updCtx c f s).viralRx = s.viralRx := rfl
@[simp] theorem updCtx_viralTx : (updCtx c f s).viralTx = s.viralTx := rfl
@[simp] theorem updCtx_lruCtr : (updCtx c f s).lruCtr = s.lruCtr := rfl
@[simp] theorem updCtx_mem : (updCtx c f s).mem = s.mem := rfl
@[simp] theorem updCtx_poison : (updCtx c f s).poison = s.poison := rfl
@[simp] theorem updCtx_ueWindow : (updCtx c f s).ueWindow = s.ueWindow := rfl
@[simp] theorem updCtx_scrubAt : (updCtx c f s).scrubAt = s.scrubAt := rfl
@[simp] theorem updCtx_ports : (updCtx c f s).ports = s.ports := rfl
@[simp] theorem updCtx_rt : (updCtx c f s).rt = s.rt := rfl
@[simp] theorem updCtx_epochCur : (updCtx c f s).epochCur = s.epochCur := rfl
@[simp] theorem updCtx_epochArm : (updCtx c f s).epochArm = s.epochArm := rfl
@[simp] theorem updCtx_grace : (updCtx c f s).grace = s.grace := rfl
@[simp] theorem updCtx_ctxs : (updCtx c f s).ctxs = mupd {} s.ctxs c f := rfl
@[simp] theorem updCtx_fwin : (updCtx c f s).fwin = s.fwin := rfl
@[simp] theorem updCtx_iwin : (updCtx c f s).iwin = s.iwin := rfl
@[simp] theorem updCtx_qps : (updCtx c f s).qps = s.qps := rfl
@[simp] theorem updCtx_ackq : (updCtx c f s).ackq = s.ackq := rfl
@[simp] theorem updCtx_waitq : (updCtx c f s).waitq = s.waitq := rfl
@[simp] theorem updCtx_colls : (updCtx c f s).colls = s.colls := rfl
@[simp] theorem updCtx_collWait : (updCtx c f s).collWait = s.collWait := rfl
@[simp] theorem updCtx_collLast : (updCtx c f s).collLast = s.collLast := rfl
@[simp] theorem updCtx_refail : (updCtx c f s).refail = s.refail := rfl
@[simp] theorem updCtx_flt : (updCtx c f s).flt = s.flt := rfl
@[simp] theorem updCtx_rtc : (updCtx c f s).rtc = s.rtc := rfl
@[simp] theorem updCtx_ctrs : (updCtx c f s).ctrs = s.ctrs := rfl
@[simp] theorem updCtx_shadowBank : (updCtx c f s).shadowBank = s.shadowBank := rfl
@[simp] theorem updCtx_win : (updCtx c f s).win = s.win := rfl
@[simp] theorem updCtx_tap : (updCtx c f s).tap = s.tap := rfl
@[simp] theorem updCtx_tapDebug : (updCtx c f s).tapDebug = s.tapDebug := rfl
end

section
variable (q : Grp) (f : Qp → Qp)
@[simp] theorem updQp_pending : (updQp q f s).pending = s.pending := rfl
@[simp] theorem updQp_out : (updQp q f s).out = s.out := rfl
@[simp] theorem updQp_freeCtr : (updQp q f s).freeCtr = s.freeCtr := rfl
@[simp] theorem updQp_nowNs : (updQp q f s).nowNs = s.nowNs := rfl
@[simp] theorem updQp_ringCycles : (updQp q f s).ringCycles = s.ringCycles := rfl
@[simp] theorem updQp_fuses : (updQp q f s).fuses = s.fuses := rfl
@[simp] theorem updQp_board : (updQp q f s).board = s.board := rfl
@[simp] theorem updQp_boot : (updQp q f s).boot = s.boot := rfl
@[simp] theorem updQp_resetting : (updQp q f s).resetting = s.resetting := rfl
@[simp] theorem updQp_resetAt : (updQp q f s).resetAt = s.resetAt := rfl
@[simp] theorem updQp_degraded : (updQp q f s).degraded = s.degraded := rfl
@[simp] theorem updQp_generation : (updQp q f s).generation = s.generation := rfl
@[simp] theorem updQp_records : (updQp q f s).records = s.records := rfl
@[simp] theorem updQp_bootErr : (updQp q f s).bootErr = s.bootErr := rfl
@[simp] theorem updQp_rejected : (updQp q f s).rejected = s.rejected := rfl
@[simp] theorem updQp_bootSlot : (updQp q f s).bootSlot = s.bootSlot := rfl
@[simp] theorem updQp_fwVer : (updQp q f s).fwVer = s.fwVer := rfl
@[simp] theorem updQp_fwBody : (updQp q f s).fwBody = s.fwBody := rfl
@[simp] theorem updQp_selfTested : (updQp q f s).selfTested = s.selfTested := rfl
@[simp] theorem updQp_stage : (updQp q f s).stage = s.stage := rfl
@[simp] theorem updQp_stageTries : (updQp q f s).stageTries = s.stageTries := rfl
@[simp] theorem updQp_stageAt : (updQp q f s).stageAt = s.stageAt := rfl
@[simp] theorem updQp_going : (updQp q f s).going = s.going := rfl
@[simp] theorem updQp_vendor : (updQp q f s).vendor = s.vendor := rfl
@[simp] theorem updQp_vendorId : (updQp q f s).vendorId = s.vendorId := rfl
@[simp] theorem updQp_vendorSt : (updQp q f s).vendorSt = s.vendorSt := rfl
@[simp] theorem updQp_lastLoad : (updQp q f s).lastLoad = s.lastLoad := rfl
@[simp] theorem updQp_fld : (updQp q f s).fld = s.fld := rfl
@[simp] theorem updQp_shadow : (updQp q f s).shadow = s.shadow := rfl
@[simp] theorem updQp_chg : (updQp q f s).chg = s.chg := rfl
@[simp] theorem updQp_unitsLeft : (updQp q f s).unitsLeft = s.unitsLeft := rfl
@[simp] theorem updQp_applying : (updQp q f s).applying = s.applying := rfl
@[simp] theorem updQp_setId : (updQp q f s).setId = s.setId := rfl
@[simp] theorem updQp_late : (updQp q f s).late = s.late := rfl
@[simp] theorem updQp_rails : (updQp q f s).rails = s.rails := rfl
@[simp] theorem updQp_temps : (updQp q f s).temps = s.temps := rfl
@[simp] theorem updQp_damped : (updQp q f s).damped = s.damped := rfl
@[simp] theorem updQp_winBudget : (updQp q f s).winBudget = s.winBudget := rfl
@[simp] theorem updQp_winLimit : (updQp q f s).winLimit = s.winLimit := rfl
@[simp] theorem updQp_lanes : (updQp q f s).lanes = s.lanes := rfl
@[simp] theorem updQp_detours : (updQp q f s).detours = s.detours := rfl
@[simp] theorem updQp_mesh : (updQp q f s).mesh = s.mesh := rfl
@[simp] theorem updQp_wires : (updQp q f s).wires = s.wires := rfl
@[simp] theorem updQp_fenced : (updQp q f s).fenced = s.fenced := rfl
@[simp] theorem updQp_pllParked : (updQp q f s).pllParked = s.pllParked := rfl
@[simp] theorem updQp_parkAt : (updQp q f s).parkAt = s.parkAt := rfl
@[simp] theorem updQp_parked : (updQp q f s).parked = s.parked := rfl
@[simp] theorem updQp_stopped : (updQp q f s).stopped = s.stopped := rfl
@[simp] theorem updQp_refSeen : (updQp q f s).refSeen = s.refSeen := rfl
@[simp] theorem updQp_hostPorts : (updQp q f s).hostPorts = s.hostPorts := rfl
@[simp] theorem updQp_port0 : (updQp q f s).port0 = s.port0 := rfl
@[simp] theorem updQp_pfs : (updQp q f s).pfs = s.pfs := rfl
@[simp] theorem updQp_fns : (updQp q f s).fns = s.fns := rfl
@[simp] theorem updQp_advisories : (updQp q f s).advisories = s.advisories := rfl
@[simp] theorem updQp_vis : (updQp q f s).vis = s.vis := rfl
@[simp] theorem updQp_engs : (updQp q f s).engs = s.engs := rfl
@[simp] theorem updQp_movers : (updQp q f s).movers = s.movers := rfl
@[simp] theorem updQp_gathers : (updQp q f s).gathers = s.gathers := rfl
@[simp] theorem updQp_dir : (updQp q f s).dir = s.dir := rfl
@[simp] theorem updQp_hl : (updQp q f s).hl = s.hl := rfl
@[simp] theorem updQp_hret : (updQp q f s).hret = s.hret := rfl
@[simp] theorem updQp_hblocks : (updQp q f s).hblocks = s.hblocks := rfl
@[simp] theorem updQp_aged : (updQp q f s).aged = s.aged := rfl
@[simp] theorem updQp_domainDown : (updQp q f s).domainDown = s.domainDown := rfl
@[simp] theorem updQp_viralRx : (updQp q f s).viralRx = s.viralRx := rfl
@[simp] theorem updQp_viralTx : (updQp q f s).viralTx = s.viralTx := rfl
@[simp] theorem updQp_lruCtr : (updQp q f s).lruCtr = s.lruCtr := rfl
@[simp] theorem updQp_mem : (updQp q f s).mem = s.mem := rfl
@[simp] theorem updQp_poison : (updQp q f s).poison = s.poison := rfl
@[simp] theorem updQp_ueWindow : (updQp q f s).ueWindow = s.ueWindow := rfl
@[simp] theorem updQp_scrubAt : (updQp q f s).scrubAt = s.scrubAt := rfl
@[simp] theorem updQp_ports : (updQp q f s).ports = s.ports := rfl
@[simp] theorem updQp_rt : (updQp q f s).rt = s.rt := rfl
@[simp] theorem updQp_epochCur : (updQp q f s).epochCur = s.epochCur := rfl
@[simp] theorem updQp_epochArm : (updQp q f s).epochArm = s.epochArm := rfl
@[simp] theorem updQp_grace : (updQp q f s).grace = s.grace := rfl
@[simp] theorem updQp_ctxs : (updQp q f s).ctxs = s.ctxs := rfl
@[simp] theorem updQp_fwin : (updQp q f s).fwin = s.fwin := rfl
@[simp] theorem updQp_iwin : (updQp q f s).iwin = s.iwin := rfl
@[simp] theorem updQp_qps : (updQp q f s).qps = mupd {} s.qps q.val f := rfl
@[simp] theorem updQp_ackq : (updQp q f s).ackq = s.ackq := rfl
@[simp] theorem updQp_waitq : (updQp q f s).waitq = s.waitq := rfl
@[simp] theorem updQp_colls : (updQp q f s).colls = s.colls := rfl
@[simp] theorem updQp_collWait : (updQp q f s).collWait = s.collWait := rfl
@[simp] theorem updQp_collLast : (updQp q f s).collLast = s.collLast := rfl
@[simp] theorem updQp_refail : (updQp q f s).refail = s.refail := rfl
@[simp] theorem updQp_flt : (updQp q f s).flt = s.flt := rfl
@[simp] theorem updQp_rtc : (updQp q f s).rtc = s.rtc := rfl
@[simp] theorem updQp_ctrs : (updQp q f s).ctrs = s.ctrs := rfl
@[simp] theorem updQp_shadowBank : (updQp q f s).shadowBank = s.shadowBank := rfl
@[simp] theorem updQp_win : (updQp q f s).win = s.win := rfl
@[simp] theorem updQp_tap : (updQp q f s).tap = s.tap := rfl
@[simp] theorem updQp_tapDebug : (updQp q f s).tapDebug = s.tapDebug := rfl
end

section
variable (k : Kiln) (f : List Gather → List Gather)
@[simp] theorem updGather_pending : (updGather k f s).pending = s.pending := rfl
@[simp] theorem updGather_out : (updGather k f s).out = s.out := rfl
@[simp] theorem updGather_freeCtr : (updGather k f s).freeCtr = s.freeCtr := rfl
@[simp] theorem updGather_nowNs : (updGather k f s).nowNs = s.nowNs := rfl
@[simp] theorem updGather_ringCycles : (updGather k f s).ringCycles = s.ringCycles := rfl
@[simp] theorem updGather_fuses : (updGather k f s).fuses = s.fuses := rfl
@[simp] theorem updGather_board : (updGather k f s).board = s.board := rfl
@[simp] theorem updGather_boot : (updGather k f s).boot = s.boot := rfl
@[simp] theorem updGather_resetting : (updGather k f s).resetting = s.resetting := rfl
@[simp] theorem updGather_resetAt : (updGather k f s).resetAt = s.resetAt := rfl
@[simp] theorem updGather_degraded : (updGather k f s).degraded = s.degraded := rfl
@[simp] theorem updGather_generation : (updGather k f s).generation = s.generation := rfl
@[simp] theorem updGather_records : (updGather k f s).records = s.records := rfl
@[simp] theorem updGather_bootErr : (updGather k f s).bootErr = s.bootErr := rfl
@[simp] theorem updGather_rejected : (updGather k f s).rejected = s.rejected := rfl
@[simp] theorem updGather_bootSlot : (updGather k f s).bootSlot = s.bootSlot := rfl
@[simp] theorem updGather_fwVer : (updGather k f s).fwVer = s.fwVer := rfl
@[simp] theorem updGather_fwBody : (updGather k f s).fwBody = s.fwBody := rfl
@[simp] theorem updGather_selfTested : (updGather k f s).selfTested = s.selfTested := rfl
@[simp] theorem updGather_stage : (updGather k f s).stage = s.stage := rfl
@[simp] theorem updGather_stageTries : (updGather k f s).stageTries = s.stageTries := rfl
@[simp] theorem updGather_stageAt : (updGather k f s).stageAt = s.stageAt := rfl
@[simp] theorem updGather_going : (updGather k f s).going = s.going := rfl
@[simp] theorem updGather_vendor : (updGather k f s).vendor = s.vendor := rfl
@[simp] theorem updGather_vendorId : (updGather k f s).vendorId = s.vendorId := rfl
@[simp] theorem updGather_vendorSt : (updGather k f s).vendorSt = s.vendorSt := rfl
@[simp] theorem updGather_lastLoad : (updGather k f s).lastLoad = s.lastLoad := rfl
@[simp] theorem updGather_fld : (updGather k f s).fld = s.fld := rfl
@[simp] theorem updGather_shadow : (updGather k f s).shadow = s.shadow := rfl
@[simp] theorem updGather_chg : (updGather k f s).chg = s.chg := rfl
@[simp] theorem updGather_unitsLeft : (updGather k f s).unitsLeft = s.unitsLeft := rfl
@[simp] theorem updGather_applying : (updGather k f s).applying = s.applying := rfl
@[simp] theorem updGather_setId : (updGather k f s).setId = s.setId := rfl
@[simp] theorem updGather_late : (updGather k f s).late = s.late := rfl
@[simp] theorem updGather_rails : (updGather k f s).rails = s.rails := rfl
@[simp] theorem updGather_temps : (updGather k f s).temps = s.temps := rfl
@[simp] theorem updGather_damped : (updGather k f s).damped = s.damped := rfl
@[simp] theorem updGather_winBudget : (updGather k f s).winBudget = s.winBudget := rfl
@[simp] theorem updGather_winLimit : (updGather k f s).winLimit = s.winLimit := rfl
@[simp] theorem updGather_lanes : (updGather k f s).lanes = s.lanes := rfl
@[simp] theorem updGather_detours : (updGather k f s).detours = s.detours := rfl
@[simp] theorem updGather_mesh : (updGather k f s).mesh = s.mesh := rfl
@[simp] theorem updGather_wires : (updGather k f s).wires = s.wires := rfl
@[simp] theorem updGather_fenced : (updGather k f s).fenced = s.fenced := rfl
@[simp] theorem updGather_pllParked : (updGather k f s).pllParked = s.pllParked := rfl
@[simp] theorem updGather_parkAt : (updGather k f s).parkAt = s.parkAt := rfl
@[simp] theorem updGather_parked : (updGather k f s).parked = s.parked := rfl
@[simp] theorem updGather_stopped : (updGather k f s).stopped = s.stopped := rfl
@[simp] theorem updGather_refSeen : (updGather k f s).refSeen = s.refSeen := rfl
@[simp] theorem updGather_hostPorts : (updGather k f s).hostPorts = s.hostPorts := rfl
@[simp] theorem updGather_port0 : (updGather k f s).port0 = s.port0 := rfl
@[simp] theorem updGather_pfs : (updGather k f s).pfs = s.pfs := rfl
@[simp] theorem updGather_fns : (updGather k f s).fns = s.fns := rfl
@[simp] theorem updGather_advisories : (updGather k f s).advisories = s.advisories := rfl
@[simp] theorem updGather_vis : (updGather k f s).vis = s.vis := rfl
@[simp] theorem updGather_engs : (updGather k f s).engs = s.engs := rfl
@[simp] theorem updGather_movers : (updGather k f s).movers = s.movers := rfl
@[simp] theorem updGather_gathers : (updGather k f s).gathers = mupd [] s.gathers k.val f := rfl
@[simp] theorem updGather_dir : (updGather k f s).dir = s.dir := rfl
@[simp] theorem updGather_hl : (updGather k f s).hl = s.hl := rfl
@[simp] theorem updGather_hret : (updGather k f s).hret = s.hret := rfl
@[simp] theorem updGather_hblocks : (updGather k f s).hblocks = s.hblocks := rfl
@[simp] theorem updGather_aged : (updGather k f s).aged = s.aged := rfl
@[simp] theorem updGather_domainDown : (updGather k f s).domainDown = s.domainDown := rfl
@[simp] theorem updGather_viralRx : (updGather k f s).viralRx = s.viralRx := rfl
@[simp] theorem updGather_viralTx : (updGather k f s).viralTx = s.viralTx := rfl
@[simp] theorem updGather_lruCtr : (updGather k f s).lruCtr = s.lruCtr := rfl
@[simp] theorem updGather_mem : (updGather k f s).mem = s.mem := rfl
@[simp] theorem updGather_poison : (updGather k f s).poison = s.poison := rfl
@[simp] theorem updGather_ueWindow : (updGather k f s).ueWindow = s.ueWindow := rfl
@[simp] theorem updGather_scrubAt : (updGather k f s).scrubAt = s.scrubAt := rfl
@[simp] theorem updGather_ports : (updGather k f s).ports = s.ports := rfl
@[simp] theorem updGather_rt : (updGather k f s).rt = s.rt := rfl
@[simp] theorem updGather_epochCur : (updGather k f s).epochCur = s.epochCur := rfl
@[simp] theorem updGather_epochArm : (updGather k f s).epochArm = s.epochArm := rfl
@[simp] theorem updGather_grace : (updGather k f s).grace = s.grace := rfl
@[simp] theorem updGather_ctxs : (updGather k f s).ctxs = s.ctxs := rfl
@[simp] theorem updGather_fwin : (updGather k f s).fwin = s.fwin := rfl
@[simp] theorem updGather_iwin : (updGather k f s).iwin = s.iwin := rfl
@[simp] theorem updGather_qps : (updGather k f s).qps = s.qps := rfl
@[simp] theorem updGather_ackq : (updGather k f s).ackq = s.ackq := rfl
@[simp] theorem updGather_waitq : (updGather k f s).waitq = s.waitq := rfl
@[simp] theorem updGather_colls : (updGather k f s).colls = s.colls := rfl
@[simp] theorem updGather_collWait : (updGather k f s).collWait = s.collWait := rfl
@[simp] theorem updGather_collLast : (updGather k f s).collLast = s.collLast := rfl
@[simp] theorem updGather_refail : (updGather k f s).refail = s.refail := rfl
@[simp] theorem updGather_flt : (updGather k f s).flt = s.flt := rfl
@[simp] theorem updGather_rtc : (updGather k f s).rtc = s.rtc := rfl
@[simp] theorem updGather_ctrs : (updGather k f s).ctrs = s.ctrs := rfl
@[simp] theorem updGather_shadowBank : (updGather k f s).shadowBank = s.shadowBank := rfl
@[simp] theorem updGather_win : (updGather k f s).win = s.win := rfl
@[simp] theorem updGather_tap : (updGather k f s).tap = s.tap := rfl
@[simp] theorem updGather_tapDebug : (updGather k f s).tapDebug = s.tapDebug := rfl
end

section
variable (l : LineA) (f : Dir → Dir)
@[simp] theorem updDir_pending : (updDir l f s).pending = s.pending := rfl
@[simp] theorem updDir_out : (updDir l f s).out = s.out := rfl
@[simp] theorem updDir_freeCtr : (updDir l f s).freeCtr = s.freeCtr := rfl
@[simp] theorem updDir_nowNs : (updDir l f s).nowNs = s.nowNs := rfl
@[simp] theorem updDir_ringCycles : (updDir l f s).ringCycles = s.ringCycles := rfl
@[simp] theorem updDir_fuses : (updDir l f s).fuses = s.fuses := rfl
@[simp] theorem updDir_board : (updDir l f s).board = s.board := rfl
@[simp] theorem updDir_boot : (updDir l f s).boot = s.boot := rfl
@[simp] theorem updDir_resetting : (updDir l f s).resetting = s.resetting := rfl
@[simp] theorem updDir_resetAt : (updDir l f s).resetAt = s.resetAt := rfl
@[simp] theorem updDir_degraded : (updDir l f s).degraded = s.degraded := rfl
@[simp] theorem updDir_generation : (updDir l f s).generation = s.generation := rfl
@[simp] theorem updDir_records : (updDir l f s).records = s.records := rfl
@[simp] theorem updDir_bootErr : (updDir l f s).bootErr = s.bootErr := rfl
@[simp] theorem updDir_rejected : (updDir l f s).rejected = s.rejected := rfl
@[simp] theorem updDir_bootSlot : (updDir l f s).bootSlot = s.bootSlot := rfl
@[simp] theorem updDir_fwVer : (updDir l f s).fwVer = s.fwVer := rfl
@[simp] theorem updDir_fwBody : (updDir l f s).fwBody = s.fwBody := rfl
@[simp] theorem updDir_selfTested : (updDir l f s).selfTested = s.selfTested := rfl
@[simp] theorem updDir_stage : (updDir l f s).stage = s.stage := rfl
@[simp] theorem updDir_stageTries : (updDir l f s).stageTries = s.stageTries := rfl
@[simp] theorem updDir_stageAt : (updDir l f s).stageAt = s.stageAt := rfl
@[simp] theorem updDir_going : (updDir l f s).going = s.going := rfl
@[simp] theorem updDir_vendor : (updDir l f s).vendor = s.vendor := rfl
@[simp] theorem updDir_vendorId : (updDir l f s).vendorId = s.vendorId := rfl
@[simp] theorem updDir_vendorSt : (updDir l f s).vendorSt = s.vendorSt := rfl
@[simp] theorem updDir_lastLoad : (updDir l f s).lastLoad = s.lastLoad := rfl
@[simp] theorem updDir_fld : (updDir l f s).fld = s.fld := rfl
@[simp] theorem updDir_shadow : (updDir l f s).shadow = s.shadow := rfl
@[simp] theorem updDir_chg : (updDir l f s).chg = s.chg := rfl
@[simp] theorem updDir_unitsLeft : (updDir l f s).unitsLeft = s.unitsLeft := rfl
@[simp] theorem updDir_applying : (updDir l f s).applying = s.applying := rfl
@[simp] theorem updDir_setId : (updDir l f s).setId = s.setId := rfl
@[simp] theorem updDir_late : (updDir l f s).late = s.late := rfl
@[simp] theorem updDir_rails : (updDir l f s).rails = s.rails := rfl
@[simp] theorem updDir_temps : (updDir l f s).temps = s.temps := rfl
@[simp] theorem updDir_damped : (updDir l f s).damped = s.damped := rfl
@[simp] theorem updDir_winBudget : (updDir l f s).winBudget = s.winBudget := rfl
@[simp] theorem updDir_winLimit : (updDir l f s).winLimit = s.winLimit := rfl
@[simp] theorem updDir_lanes : (updDir l f s).lanes = s.lanes := rfl
@[simp] theorem updDir_detours : (updDir l f s).detours = s.detours := rfl
@[simp] theorem updDir_mesh : (updDir l f s).mesh = s.mesh := rfl
@[simp] theorem updDir_wires : (updDir l f s).wires = s.wires := rfl
@[simp] theorem updDir_fenced : (updDir l f s).fenced = s.fenced := rfl
@[simp] theorem updDir_pllParked : (updDir l f s).pllParked = s.pllParked := rfl
@[simp] theorem updDir_parkAt : (updDir l f s).parkAt = s.parkAt := rfl
@[simp] theorem updDir_parked : (updDir l f s).parked = s.parked := rfl
@[simp] theorem updDir_stopped : (updDir l f s).stopped = s.stopped := rfl
@[simp] theorem updDir_refSeen : (updDir l f s).refSeen = s.refSeen := rfl
@[simp] theorem updDir_hostPorts : (updDir l f s).hostPorts = s.hostPorts := rfl
@[simp] theorem updDir_port0 : (updDir l f s).port0 = s.port0 := rfl
@[simp] theorem updDir_pfs : (updDir l f s).pfs = s.pfs := rfl
@[simp] theorem updDir_fns : (updDir l f s).fns = s.fns := rfl
@[simp] theorem updDir_advisories : (updDir l f s).advisories = s.advisories := rfl
@[simp] theorem updDir_vis : (updDir l f s).vis = s.vis := rfl
@[simp] theorem updDir_engs : (updDir l f s).engs = s.engs := rfl
@[simp] theorem updDir_movers : (updDir l f s).movers = s.movers := rfl
@[simp] theorem updDir_gathers : (updDir l f s).gathers = s.gathers := rfl
@[simp] theorem updDir_dir : (updDir l f s).dir = mupd {} s.dir l.toNat f := rfl
@[simp] theorem updDir_hl : (updDir l f s).hl = s.hl := rfl
@[simp] theorem updDir_hret : (updDir l f s).hret = s.hret := rfl
@[simp] theorem updDir_hblocks : (updDir l f s).hblocks = s.hblocks := rfl
@[simp] theorem updDir_aged : (updDir l f s).aged = s.aged := rfl
@[simp] theorem updDir_domainDown : (updDir l f s).domainDown = s.domainDown := rfl
@[simp] theorem updDir_viralRx : (updDir l f s).viralRx = s.viralRx := rfl
@[simp] theorem updDir_viralTx : (updDir l f s).viralTx = s.viralTx := rfl
@[simp] theorem updDir_lruCtr : (updDir l f s).lruCtr = s.lruCtr := rfl
@[simp] theorem updDir_mem : (updDir l f s).mem = s.mem := rfl
@[simp] theorem updDir_poison : (updDir l f s).poison = s.poison := rfl
@[simp] theorem updDir_ueWindow : (updDir l f s).ueWindow = s.ueWindow := rfl
@[simp] theorem updDir_scrubAt : (updDir l f s).scrubAt = s.scrubAt := rfl
@[simp] theorem updDir_ports : (updDir l f s).ports = s.ports := rfl
@[simp] theorem updDir_rt : (updDir l f s).rt = s.rt := rfl
@[simp] theorem updDir_epochCur : (updDir l f s).epochCur = s.epochCur := rfl
@[simp] theorem updDir_epochArm : (updDir l f s).epochArm = s.epochArm := rfl
@[simp] theorem updDir_grace : (updDir l f s).grace = s.grace := rfl
@[simp] theorem updDir_ctxs : (updDir l f s).ctxs = s.ctxs := rfl
@[simp] theorem updDir_fwin : (updDir l f s).fwin = s.fwin := rfl
@[simp] theorem updDir_iwin : (updDir l f s).iwin = s.iwin := rfl
@[simp] theorem updDir_qps : (updDir l f s).qps = s.qps := rfl
@[simp] theorem updDir_ackq : (updDir l f s).ackq = s.ackq := rfl
@[simp] theorem updDir_waitq : (updDir l f s).waitq = s.waitq := rfl
@[simp] theorem updDir_colls : (updDir l f s).colls = s.colls := rfl
@[simp] theorem updDir_collWait : (updDir l f s).collWait = s.collWait := rfl
@[simp] theorem updDir_collLast : (updDir l f s).collLast = s.collLast := rfl
@[simp] theorem updDir_refail : (updDir l f s).refail = s.refail := rfl
@[simp] theorem updDir_flt : (updDir l f s).flt = s.flt := rfl
@[simp] theorem updDir_rtc : (updDir l f s).rtc = s.rtc := rfl
@[simp] theorem updDir_ctrs : (updDir l f s).ctrs = s.ctrs := rfl
@[simp] theorem updDir_shadowBank : (updDir l f s).shadowBank = s.shadowBank := rfl
@[simp] theorem updDir_win : (updDir l f s).win = s.win := rfl
@[simp] theorem updDir_tap : (updDir l f s).tap = s.tap := rfl
@[simp] theorem updDir_tapDebug : (updDir l f s).tapDebug = s.tapDebug := rfl
end

section
variable (h : Holder) (l : LineA) (f : HLine → HLine)
@[simp] theorem updHl_pending : (updHl h l f s).pending = s.pending := rfl
@[simp] theorem updHl_out : (updHl h l f s).out = s.out := rfl
@[simp] theorem updHl_freeCtr : (updHl h l f s).freeCtr = s.freeCtr := rfl
@[simp] theorem updHl_nowNs : (updHl h l f s).nowNs = s.nowNs := rfl
@[simp] theorem updHl_ringCycles : (updHl h l f s).ringCycles = s.ringCycles := rfl
@[simp] theorem updHl_fuses : (updHl h l f s).fuses = s.fuses := rfl
@[simp] theorem updHl_board : (updHl h l f s).board = s.board := rfl
@[simp] theorem updHl_boot : (updHl h l f s).boot = s.boot := rfl
@[simp] theorem updHl_resetting : (updHl h l f s).resetting = s.resetting := rfl
@[simp] theorem updHl_resetAt : (updHl h l f s).resetAt = s.resetAt := rfl
@[simp] theorem updHl_degraded : (updHl h l f s).degraded = s.degraded := rfl
@[simp] theorem updHl_generation : (updHl h l f s).generation = s.generation := rfl
@[simp] theorem updHl_records : (updHl h l f s).records = s.records := rfl
@[simp] theorem updHl_bootErr : (updHl h l f s).bootErr = s.bootErr := rfl
@[simp] theorem updHl_rejected : (updHl h l f s).rejected = s.rejected := rfl
@[simp] theorem updHl_bootSlot : (updHl h l f s).bootSlot = s.bootSlot := rfl
@[simp] theorem updHl_fwVer : (updHl h l f s).fwVer = s.fwVer := rfl
@[simp] theorem updHl_fwBody : (updHl h l f s).fwBody = s.fwBody := rfl
@[simp] theorem updHl_selfTested : (updHl h l f s).selfTested = s.selfTested := rfl
@[simp] theorem updHl_stage : (updHl h l f s).stage = s.stage := rfl
@[simp] theorem updHl_stageTries : (updHl h l f s).stageTries = s.stageTries := rfl
@[simp] theorem updHl_stageAt : (updHl h l f s).stageAt = s.stageAt := rfl
@[simp] theorem updHl_going : (updHl h l f s).going = s.going := rfl
@[simp] theorem updHl_vendor : (updHl h l f s).vendor = s.vendor := rfl
@[simp] theorem updHl_vendorId : (updHl h l f s).vendorId = s.vendorId := rfl
@[simp] theorem updHl_vendorSt : (updHl h l f s).vendorSt = s.vendorSt := rfl
@[simp] theorem updHl_lastLoad : (updHl h l f s).lastLoad = s.lastLoad := rfl
@[simp] theorem updHl_fld : (updHl h l f s).fld = s.fld := rfl
@[simp] theorem updHl_shadow : (updHl h l f s).shadow = s.shadow := rfl
@[simp] theorem updHl_chg : (updHl h l f s).chg = s.chg := rfl
@[simp] theorem updHl_unitsLeft : (updHl h l f s).unitsLeft = s.unitsLeft := rfl
@[simp] theorem updHl_applying : (updHl h l f s).applying = s.applying := rfl
@[simp] theorem updHl_setId : (updHl h l f s).setId = s.setId := rfl
@[simp] theorem updHl_late : (updHl h l f s).late = s.late := rfl
@[simp] theorem updHl_rails : (updHl h l f s).rails = s.rails := rfl
@[simp] theorem updHl_temps : (updHl h l f s).temps = s.temps := rfl
@[simp] theorem updHl_damped : (updHl h l f s).damped = s.damped := rfl
@[simp] theorem updHl_winBudget : (updHl h l f s).winBudget = s.winBudget := rfl
@[simp] theorem updHl_winLimit : (updHl h l f s).winLimit = s.winLimit := rfl
@[simp] theorem updHl_lanes : (updHl h l f s).lanes = s.lanes := rfl
@[simp] theorem updHl_detours : (updHl h l f s).detours = s.detours := rfl
@[simp] theorem updHl_mesh : (updHl h l f s).mesh = s.mesh := rfl
@[simp] theorem updHl_wires : (updHl h l f s).wires = s.wires := rfl
@[simp] theorem updHl_fenced : (updHl h l f s).fenced = s.fenced := rfl
@[simp] theorem updHl_pllParked : (updHl h l f s).pllParked = s.pllParked := rfl
@[simp] theorem updHl_parkAt : (updHl h l f s).parkAt = s.parkAt := rfl
@[simp] theorem updHl_parked : (updHl h l f s).parked = s.parked := rfl
@[simp] theorem updHl_stopped : (updHl h l f s).stopped = s.stopped := rfl
@[simp] theorem updHl_refSeen : (updHl h l f s).refSeen = s.refSeen := rfl
@[simp] theorem updHl_hostPorts : (updHl h l f s).hostPorts = s.hostPorts := rfl
@[simp] theorem updHl_port0 : (updHl h l f s).port0 = s.port0 := rfl
@[simp] theorem updHl_pfs : (updHl h l f s).pfs = s.pfs := rfl
@[simp] theorem updHl_fns : (updHl h l f s).fns = s.fns := rfl
@[simp] theorem updHl_advisories : (updHl h l f s).advisories = s.advisories := rfl
@[simp] theorem updHl_vis : (updHl h l f s).vis = s.vis := rfl
@[simp] theorem updHl_engs : (updHl h l f s).engs = s.engs := rfl
@[simp] theorem updHl_movers : (updHl h l f s).movers = s.movers := rfl
@[simp] theorem updHl_gathers : (updHl h l f s).gathers = s.gathers := rfl
@[simp] theorem updHl_dir : (updHl h l f s).dir = s.dir := rfl
@[simp] theorem updHl_hl : (updHl h l f s).hl = mupd {} s.hl (hkey h l) f := rfl
@[simp] theorem updHl_hret : (updHl h l f s).hret = s.hret := rfl
@[simp] theorem updHl_hblocks : (updHl h l f s).hblocks = s.hblocks := rfl
@[simp] theorem updHl_aged : (updHl h l f s).aged = s.aged := rfl
@[simp] theorem updHl_domainDown : (updHl h l f s).domainDown = s.domainDown := rfl
@[simp] theorem updHl_viralRx : (updHl h l f s).viralRx = s.viralRx := rfl
@[simp] theorem updHl_viralTx : (updHl h l f s).viralTx = s.viralTx := rfl
@[simp] theorem updHl_lruCtr : (updHl h l f s).lruCtr = s.lruCtr := rfl
@[simp] theorem updHl_mem : (updHl h l f s).mem = s.mem := rfl
@[simp] theorem updHl_poison : (updHl h l f s).poison = s.poison := rfl
@[simp] theorem updHl_ueWindow : (updHl h l f s).ueWindow = s.ueWindow := rfl
@[simp] theorem updHl_scrubAt : (updHl h l f s).scrubAt = s.scrubAt := rfl
@[simp] theorem updHl_ports : (updHl h l f s).ports = s.ports := rfl
@[simp] theorem updHl_rt : (updHl h l f s).rt = s.rt := rfl
@[simp] theorem updHl_epochCur : (updHl h l f s).epochCur = s.epochCur := rfl
@[simp] theorem updHl_epochArm : (updHl h l f s).epochArm = s.epochArm := rfl
@[simp] theorem updHl_grace : (updHl h l f s).grace = s.grace := rfl
@[simp] theorem updHl_ctxs : (updHl h l f s).ctxs = s.ctxs := rfl
@[simp] theorem updHl_fwin : (updHl h l f s).fwin = s.fwin := rfl
@[simp] theorem updHl_iwin : (updHl h l f s).iwin = s.iwin := rfl
@[simp] theorem updHl_qps : (updHl h l f s).qps = s.qps := rfl
@[simp] theorem updHl_ackq : (updHl h l f s).ackq = s.ackq := rfl
@[simp] theorem updHl_waitq : (updHl h l f s).waitq = s.waitq := rfl
@[simp] theorem updHl_colls : (updHl h l f s).colls = s.colls := rfl
@[simp] theorem updHl_collWait : (updHl h l f s).collWait = s.collWait := rfl
@[simp] theorem updHl_collLast : (updHl h l f s).collLast = s.collLast := rfl
@[simp] theorem updHl_refail : (updHl h l f s).refail = s.refail := rfl
@[simp] theorem updHl_flt : (updHl h l f s).flt = s.flt := rfl
@[simp] theorem updHl_rtc : (updHl h l f s).rtc = s.rtc := rfl
@[simp] theorem updHl_ctrs : (updHl h l f s).ctrs = s.ctrs := rfl
@[simp] theorem updHl_shadowBank : (updHl h l f s).shadowBank = s.shadowBank := rfl
@[simp] theorem updHl_win : (updHl h l f s).win = s.win := rfl
@[simp] theorem updHl_tap : (updHl h l f s).tap = s.tap := rfl
@[simp] theorem updHl_tapDebug : (updHl h l f s).tapDebug = s.tapDebug := rfl
end

section
variable (f : Flt → Flt)
@[simp] theorem updFlt_pending : (updFlt f s).pending = s.pending := rfl
@[simp] theorem updFlt_out : (updFlt f s).out = s.out := rfl
@[simp] theorem updFlt_freeCtr : (updFlt f s).freeCtr = s.freeCtr := rfl
@[simp] theorem updFlt_nowNs : (updFlt f s).nowNs = s.nowNs := rfl
@[simp] theorem updFlt_ringCycles : (updFlt f s).ringCycles = s.ringCycles := rfl
@[simp] theorem updFlt_fuses : (updFlt f s).fuses = s.fuses := rfl
@[simp] theorem updFlt_board : (updFlt f s).board = s.board := rfl
@[simp] theorem updFlt_boot : (updFlt f s).boot = s.boot := rfl
@[simp] theorem updFlt_resetting : (updFlt f s).resetting = s.resetting := rfl
@[simp] theorem updFlt_resetAt : (updFlt f s).resetAt = s.resetAt := rfl
@[simp] theorem updFlt_degraded : (updFlt f s).degraded = s.degraded := rfl
@[simp] theorem updFlt_generation : (updFlt f s).generation = s.generation := rfl
@[simp] theorem updFlt_records : (updFlt f s).records = s.records := rfl
@[simp] theorem updFlt_bootErr : (updFlt f s).bootErr = s.bootErr := rfl
@[simp] theorem updFlt_rejected : (updFlt f s).rejected = s.rejected := rfl
@[simp] theorem updFlt_bootSlot : (updFlt f s).bootSlot = s.bootSlot := rfl
@[simp] theorem updFlt_fwVer : (updFlt f s).fwVer = s.fwVer := rfl
@[simp] theorem updFlt_fwBody : (updFlt f s).fwBody = s.fwBody := rfl
@[simp] theorem updFlt_selfTested : (updFlt f s).selfTested = s.selfTested := rfl
@[simp] theorem updFlt_stage : (updFlt f s).stage = s.stage := rfl
@[simp] theorem updFlt_stageTries : (updFlt f s).stageTries = s.stageTries := rfl
@[simp] theorem updFlt_stageAt : (updFlt f s).stageAt = s.stageAt := rfl
@[simp] theorem updFlt_going : (updFlt f s).going = s.going := rfl
@[simp] theorem updFlt_vendor : (updFlt f s).vendor = s.vendor := rfl
@[simp] theorem updFlt_vendorId : (updFlt f s).vendorId = s.vendorId := rfl
@[simp] theorem updFlt_vendorSt : (updFlt f s).vendorSt = s.vendorSt := rfl
@[simp] theorem updFlt_lastLoad : (updFlt f s).lastLoad = s.lastLoad := rfl
@[simp] theorem updFlt_fld : (updFlt f s).fld = s.fld := rfl
@[simp] theorem updFlt_shadow : (updFlt f s).shadow = s.shadow := rfl
@[simp] theorem updFlt_chg : (updFlt f s).chg = s.chg := rfl
@[simp] theorem updFlt_unitsLeft : (updFlt f s).unitsLeft = s.unitsLeft := rfl
@[simp] theorem updFlt_applying : (updFlt f s).applying = s.applying := rfl
@[simp] theorem updFlt_setId : (updFlt f s).setId = s.setId := rfl
@[simp] theorem updFlt_late : (updFlt f s).late = s.late := rfl
@[simp] theorem updFlt_rails : (updFlt f s).rails = s.rails := rfl
@[simp] theorem updFlt_temps : (updFlt f s).temps = s.temps := rfl
@[simp] theorem updFlt_damped : (updFlt f s).damped = s.damped := rfl
@[simp] theorem updFlt_winBudget : (updFlt f s).winBudget = s.winBudget := rfl
@[simp] theorem updFlt_winLimit : (updFlt f s).winLimit = s.winLimit := rfl
@[simp] theorem updFlt_lanes : (updFlt f s).lanes = s.lanes := rfl
@[simp] theorem updFlt_detours : (updFlt f s).detours = s.detours := rfl
@[simp] theorem updFlt_mesh : (updFlt f s).mesh = s.mesh := rfl
@[simp] theorem updFlt_wires : (updFlt f s).wires = s.wires := rfl
@[simp] theorem updFlt_fenced : (updFlt f s).fenced = s.fenced := rfl
@[simp] theorem updFlt_pllParked : (updFlt f s).pllParked = s.pllParked := rfl
@[simp] theorem updFlt_parkAt : (updFlt f s).parkAt = s.parkAt := rfl
@[simp] theorem updFlt_parked : (updFlt f s).parked = s.parked := rfl
@[simp] theorem updFlt_stopped : (updFlt f s).stopped = s.stopped := rfl
@[simp] theorem updFlt_refSeen : (updFlt f s).refSeen = s.refSeen := rfl
@[simp] theorem updFlt_hostPorts : (updFlt f s).hostPorts = s.hostPorts := rfl
@[simp] theorem updFlt_port0 : (updFlt f s).port0 = s.port0 := rfl
@[simp] theorem updFlt_pfs : (updFlt f s).pfs = s.pfs := rfl
@[simp] theorem updFlt_fns : (updFlt f s).fns = s.fns := rfl
@[simp] theorem updFlt_advisories : (updFlt f s).advisories = s.advisories := rfl
@[simp] theorem updFlt_vis : (updFlt f s).vis = s.vis := rfl
@[simp] theorem updFlt_engs : (updFlt f s).engs = s.engs := rfl
@[simp] theorem updFlt_movers : (updFlt f s).movers = s.movers := rfl
@[simp] theorem updFlt_gathers : (updFlt f s).gathers = s.gathers := rfl
@[simp] theorem updFlt_dir : (updFlt f s).dir = s.dir := rfl
@[simp] theorem updFlt_hl : (updFlt f s).hl = s.hl := rfl
@[simp] theorem updFlt_hret : (updFlt f s).hret = s.hret := rfl
@[simp] theorem updFlt_hblocks : (updFlt f s).hblocks = s.hblocks := rfl
@[simp] theorem updFlt_aged : (updFlt f s).aged = s.aged := rfl
@[simp] theorem updFlt_domainDown : (updFlt f s).domainDown = s.domainDown := rfl
@[simp] theorem updFlt_viralRx : (updFlt f s).viralRx = s.viralRx := rfl
@[simp] theorem updFlt_viralTx : (updFlt f s).viralTx = s.viralTx := rfl
@[simp] theorem updFlt_lruCtr : (updFlt f s).lruCtr = s.lruCtr := rfl
@[simp] theorem updFlt_mem : (updFlt f s).mem = s.mem := rfl
@[simp] theorem updFlt_poison : (updFlt f s).poison = s.poison := rfl
@[simp] theorem updFlt_ueWindow : (updFlt f s).ueWindow = s.ueWindow := rfl
@[simp] theorem updFlt_scrubAt : (updFlt f s).scrubAt = s.scrubAt := rfl
@[simp] theorem updFlt_ports : (updFlt f s).ports = s.ports := rfl
@[simp] theorem updFlt_rt : (updFlt f s).rt = s.rt := rfl
@[simp] theorem updFlt_epochCur : (updFlt f s).epochCur = s.epochCur := rfl
@[simp] theorem updFlt_epochArm : (updFlt f s).epochArm = s.epochArm := rfl
@[simp] theorem updFlt_grace : (updFlt f s).grace = s.grace := rfl
@[simp] theorem updFlt_ctxs : (updFlt f s).ctxs = s.ctxs := rfl
@[simp] theorem updFlt_fwin : (updFlt f s).fwin = s.fwin := rfl
@[simp] theorem updFlt_iwin : (updFlt f s).iwin = s.iwin := rfl
@[simp] theorem updFlt_qps : (updFlt f s).qps = s.qps := rfl
@[simp] theorem updFlt_ackq : (updFlt f s).ackq = s.ackq := rfl
@[simp] theorem updFlt_waitq : (updFlt f s).waitq = s.waitq := rfl
@[simp] theorem updFlt_colls : (updFlt f s).colls = s.colls := rfl
@[simp] theorem updFlt_collWait : (updFlt f s).collWait = s.collWait := rfl
@[simp] theorem updFlt_collLast : (updFlt f s).collLast = s.collLast := rfl
@[simp] theorem updFlt_refail : (updFlt f s).refail = s.refail := rfl
@[simp] theorem updFlt_flt : (updFlt f s).flt = f s.flt := rfl
@[simp] theorem updFlt_rtc : (updFlt f s).rtc = s.rtc := rfl
@[simp] theorem updFlt_ctrs : (updFlt f s).ctrs = s.ctrs := rfl
@[simp] theorem updFlt_shadowBank : (updFlt f s).shadowBank = s.shadowBank := rfl
@[simp] theorem updFlt_win : (updFlt f s).win = s.win := rfl
@[simp] theorem updFlt_tap : (updFlt f s).tap = s.tap := rfl
@[simp] theorem updFlt_tapDebug : (updFlt f s).tapDebug = s.tapDebug := rfl
end

section
variable (f : Rtc → Rtc)
@[simp] theorem updRtc_pending : (updRtc f s).pending = s.pending := rfl
@[simp] theorem updRtc_out : (updRtc f s).out = s.out := rfl
@[simp] theorem updRtc_freeCtr : (updRtc f s).freeCtr = s.freeCtr := rfl
@[simp] theorem updRtc_nowNs : (updRtc f s).nowNs = s.nowNs := rfl
@[simp] theorem updRtc_ringCycles : (updRtc f s).ringCycles = s.ringCycles := rfl
@[simp] theorem updRtc_fuses : (updRtc f s).fuses = s.fuses := rfl
@[simp] theorem updRtc_board : (updRtc f s).board = s.board := rfl
@[simp] theorem updRtc_boot : (updRtc f s).boot = s.boot := rfl
@[simp] theorem updRtc_resetting : (updRtc f s).resetting = s.resetting := rfl
@[simp] theorem updRtc_resetAt : (updRtc f s).resetAt = s.resetAt := rfl
@[simp] theorem updRtc_degraded : (updRtc f s).degraded = s.degraded := rfl
@[simp] theorem updRtc_generation : (updRtc f s).generation = s.generation := rfl
@[simp] theorem updRtc_records : (updRtc f s).records = s.records := rfl
@[simp] theorem updRtc_bootErr : (updRtc f s).bootErr = s.bootErr := rfl
@[simp] theorem updRtc_rejected : (updRtc f s).rejected = s.rejected := rfl
@[simp] theorem updRtc_bootSlot : (updRtc f s).bootSlot = s.bootSlot := rfl
@[simp] theorem updRtc_fwVer : (updRtc f s).fwVer = s.fwVer := rfl
@[simp] theorem updRtc_fwBody : (updRtc f s).fwBody = s.fwBody := rfl
@[simp] theorem updRtc_selfTested : (updRtc f s).selfTested = s.selfTested := rfl
@[simp] theorem updRtc_stage : (updRtc f s).stage = s.stage := rfl
@[simp] theorem updRtc_stageTries : (updRtc f s).stageTries = s.stageTries := rfl
@[simp] theorem updRtc_stageAt : (updRtc f s).stageAt = s.stageAt := rfl
@[simp] theorem updRtc_going : (updRtc f s).going = s.going := rfl
@[simp] theorem updRtc_vendor : (updRtc f s).vendor = s.vendor := rfl
@[simp] theorem updRtc_vendorId : (updRtc f s).vendorId = s.vendorId := rfl
@[simp] theorem updRtc_vendorSt : (updRtc f s).vendorSt = s.vendorSt := rfl
@[simp] theorem updRtc_lastLoad : (updRtc f s).lastLoad = s.lastLoad := rfl
@[simp] theorem updRtc_fld : (updRtc f s).fld = s.fld := rfl
@[simp] theorem updRtc_shadow : (updRtc f s).shadow = s.shadow := rfl
@[simp] theorem updRtc_chg : (updRtc f s).chg = s.chg := rfl
@[simp] theorem updRtc_unitsLeft : (updRtc f s).unitsLeft = s.unitsLeft := rfl
@[simp] theorem updRtc_applying : (updRtc f s).applying = s.applying := rfl
@[simp] theorem updRtc_setId : (updRtc f s).setId = s.setId := rfl
@[simp] theorem updRtc_late : (updRtc f s).late = s.late := rfl
@[simp] theorem updRtc_rails : (updRtc f s).rails = s.rails := rfl
@[simp] theorem updRtc_temps : (updRtc f s).temps = s.temps := rfl
@[simp] theorem updRtc_damped : (updRtc f s).damped = s.damped := rfl
@[simp] theorem updRtc_winBudget : (updRtc f s).winBudget = s.winBudget := rfl
@[simp] theorem updRtc_winLimit : (updRtc f s).winLimit = s.winLimit := rfl
@[simp] theorem updRtc_lanes : (updRtc f s).lanes = s.lanes := rfl
@[simp] theorem updRtc_detours : (updRtc f s).detours = s.detours := rfl
@[simp] theorem updRtc_mesh : (updRtc f s).mesh = s.mesh := rfl
@[simp] theorem updRtc_wires : (updRtc f s).wires = s.wires := rfl
@[simp] theorem updRtc_fenced : (updRtc f s).fenced = s.fenced := rfl
@[simp] theorem updRtc_pllParked : (updRtc f s).pllParked = s.pllParked := rfl
@[simp] theorem updRtc_parkAt : (updRtc f s).parkAt = s.parkAt := rfl
@[simp] theorem updRtc_parked : (updRtc f s).parked = s.parked := rfl
@[simp] theorem updRtc_stopped : (updRtc f s).stopped = s.stopped := rfl
@[simp] theorem updRtc_refSeen : (updRtc f s).refSeen = s.refSeen := rfl
@[simp] theorem updRtc_hostPorts : (updRtc f s).hostPorts = s.hostPorts := rfl
@[simp] theorem updRtc_port0 : (updRtc f s).port0 = s.port0 := rfl
@[simp] theorem updRtc_pfs : (updRtc f s).pfs = s.pfs := rfl
@[simp] theorem updRtc_fns : (updRtc f s).fns = s.fns := rfl
@[simp] theorem updRtc_advisories : (updRtc f s).advisories = s.advisories := rfl
@[simp] theorem updRtc_vis : (updRtc f s).vis = s.vis := rfl
@[simp] theorem updRtc_engs : (updRtc f s).engs = s.engs := rfl
@[simp] theorem updRtc_movers : (updRtc f s).movers = s.movers := rfl
@[simp] theorem updRtc_gathers : (updRtc f s).gathers = s.gathers := rfl
@[simp] theorem updRtc_dir : (updRtc f s).dir = s.dir := rfl
@[simp] theorem updRtc_hl : (updRtc f s).hl = s.hl := rfl
@[simp] theorem updRtc_hret : (updRtc f s).hret = s.hret := rfl
@[simp] theorem updRtc_hblocks : (updRtc f s).hblocks = s.hblocks := rfl
@[simp] theorem updRtc_aged : (updRtc f s).aged = s.aged := rfl
@[simp] theorem updRtc_domainDown : (updRtc f s).domainDown = s.domainDown := rfl
@[simp] theorem updRtc_viralRx : (updRtc f s).viralRx = s.viralRx := rfl
@[simp] theorem updRtc_viralTx : (updRtc f s).viralTx = s.viralTx := rfl
@[simp] theorem updRtc_lruCtr : (updRtc f s).lruCtr = s.lruCtr := rfl
@[simp] theorem updRtc_mem : (updRtc f s).mem = s.mem := rfl
@[simp] theorem updRtc_poison : (updRtc f s).poison = s.poison := rfl
@[simp] theorem updRtc_ueWindow : (updRtc f s).ueWindow = s.ueWindow := rfl
@[simp] theorem updRtc_scrubAt : (updRtc f s).scrubAt = s.scrubAt := rfl
@[simp] theorem updRtc_ports : (updRtc f s).ports = s.ports := rfl
@[simp] theorem updRtc_rt : (updRtc f s).rt = s.rt := rfl
@[simp] theorem updRtc_epochCur : (updRtc f s).epochCur = s.epochCur := rfl
@[simp] theorem updRtc_epochArm : (updRtc f s).epochArm = s.epochArm := rfl
@[simp] theorem updRtc_grace : (updRtc f s).grace = s.grace := rfl
@[simp] theorem updRtc_ctxs : (updRtc f s).ctxs = s.ctxs := rfl
@[simp] theorem updRtc_fwin : (updRtc f s).fwin = s.fwin := rfl
@[simp] theorem updRtc_iwin : (updRtc f s).iwin = s.iwin := rfl
@[simp] theorem updRtc_qps : (updRtc f s).qps = s.qps := rfl
@[simp] theorem updRtc_ackq : (updRtc f s).ackq = s.ackq := rfl
@[simp] theorem updRtc_waitq : (updRtc f s).waitq = s.waitq := rfl
@[simp] theorem updRtc_colls : (updRtc f s).colls = s.colls := rfl
@[simp] theorem updRtc_collWait : (updRtc f s).collWait = s.collWait := rfl
@[simp] theorem updRtc_collLast : (updRtc f s).collLast = s.collLast := rfl
@[simp] theorem updRtc_refail : (updRtc f s).refail = s.refail := rfl
@[simp] theorem updRtc_flt : (updRtc f s).flt = s.flt := rfl
@[simp] theorem updRtc_rtc : (updRtc f s).rtc = f s.rtc := rfl
@[simp] theorem updRtc_ctrs : (updRtc f s).ctrs = s.ctrs := rfl
@[simp] theorem updRtc_shadowBank : (updRtc f s).shadowBank = s.shadowBank := rfl
@[simp] theorem updRtc_win : (updRtc f s).win = s.win := rfl
@[simp] theorem updRtc_tap : (updRtc f s).tap = s.tap := rfl
@[simp] theorem updRtc_tapDebug : (updRtc f s).tapDebug = s.tapDebug := rfl
end

section
variable (f : Board → Board)
@[simp] theorem updBoard_pending : (updBoard f s).pending = s.pending := rfl
@[simp] theorem updBoard_out : (updBoard f s).out = s.out := rfl
@[simp] theorem updBoard_freeCtr : (updBoard f s).freeCtr = s.freeCtr := rfl
@[simp] theorem updBoard_nowNs : (updBoard f s).nowNs = s.nowNs := rfl
@[simp] theorem updBoard_ringCycles : (updBoard f s).ringCycles = s.ringCycles := rfl
@[simp] theorem updBoard_fuses : (updBoard f s).fuses = s.fuses := rfl
@[simp] theorem updBoard_board : (updBoard f s).board = f s.board := rfl
@[simp] theorem updBoard_boot : (updBoard f s).boot = s.boot := rfl
@[simp] theorem updBoard_resetting : (updBoard f s).resetting = s.resetting := rfl
@[simp] theorem updBoard_resetAt : (updBoard f s).resetAt = s.resetAt := rfl
@[simp] theorem updBoard_degraded : (updBoard f s).degraded = s.degraded := rfl
@[simp] theorem updBoard_generation : (updBoard f s).generation = s.generation := rfl
@[simp] theorem updBoard_records : (updBoard f s).records = s.records := rfl
@[simp] theorem updBoard_bootErr : (updBoard f s).bootErr = s.bootErr := rfl
@[simp] theorem updBoard_rejected : (updBoard f s).rejected = s.rejected := rfl
@[simp] theorem updBoard_bootSlot : (updBoard f s).bootSlot = s.bootSlot := rfl
@[simp] theorem updBoard_fwVer : (updBoard f s).fwVer = s.fwVer := rfl
@[simp] theorem updBoard_fwBody : (updBoard f s).fwBody = s.fwBody := rfl
@[simp] theorem updBoard_selfTested : (updBoard f s).selfTested = s.selfTested := rfl
@[simp] theorem updBoard_stage : (updBoard f s).stage = s.stage := rfl
@[simp] theorem updBoard_stageTries : (updBoard f s).stageTries = s.stageTries := rfl
@[simp] theorem updBoard_stageAt : (updBoard f s).stageAt = s.stageAt := rfl
@[simp] theorem updBoard_going : (updBoard f s).going = s.going := rfl
@[simp] theorem updBoard_vendor : (updBoard f s).vendor = s.vendor := rfl
@[simp] theorem updBoard_vendorId : (updBoard f s).vendorId = s.vendorId := rfl
@[simp] theorem updBoard_vendorSt : (updBoard f s).vendorSt = s.vendorSt := rfl
@[simp] theorem updBoard_lastLoad : (updBoard f s).lastLoad = s.lastLoad := rfl
@[simp] theorem updBoard_fld : (updBoard f s).fld = s.fld := rfl
@[simp] theorem updBoard_shadow : (updBoard f s).shadow = s.shadow := rfl
@[simp] theorem updBoard_chg : (updBoard f s).chg = s.chg := rfl
@[simp] theorem updBoard_unitsLeft : (updBoard f s).unitsLeft = s.unitsLeft := rfl
@[simp] theorem updBoard_applying : (updBoard f s).applying = s.applying := rfl
@[simp] theorem updBoard_setId : (updBoard f s).setId = s.setId := rfl
@[simp] theorem updBoard_late : (updBoard f s).late = s.late := rfl
@[simp] theorem updBoard_rails : (updBoard f s).rails = s.rails := rfl
@[simp] theorem updBoard_temps : (updBoard f s).temps = s.temps := rfl
@[simp] theorem updBoard_damped : (updBoard f s).damped = s.damped := rfl
@[simp] theorem updBoard_winBudget : (updBoard f s).winBudget = s.winBudget := rfl
@[simp] theorem updBoard_winLimit : (updBoard f s).winLimit = s.winLimit := rfl
@[simp] theorem updBoard_lanes : (updBoard f s).lanes = s.lanes := rfl
@[simp] theorem updBoard_detours : (updBoard f s).detours = s.detours := rfl
@[simp] theorem updBoard_mesh : (updBoard f s).mesh = s.mesh := rfl
@[simp] theorem updBoard_wires : (updBoard f s).wires = s.wires := rfl
@[simp] theorem updBoard_fenced : (updBoard f s).fenced = s.fenced := rfl
@[simp] theorem updBoard_pllParked : (updBoard f s).pllParked = s.pllParked := rfl
@[simp] theorem updBoard_parkAt : (updBoard f s).parkAt = s.parkAt := rfl
@[simp] theorem updBoard_parked : (updBoard f s).parked = s.parked := rfl
@[simp] theorem updBoard_stopped : (updBoard f s).stopped = s.stopped := rfl
@[simp] theorem updBoard_refSeen : (updBoard f s).refSeen = s.refSeen := rfl
@[simp] theorem updBoard_hostPorts : (updBoard f s).hostPorts = s.hostPorts := rfl
@[simp] theorem updBoard_port0 : (updBoard f s).port0 = s.port0 := rfl
@[simp] theorem updBoard_pfs : (updBoard f s).pfs = s.pfs := rfl
@[simp] theorem updBoard_fns : (updBoard f s).fns = s.fns := rfl
@[simp] theorem updBoard_advisories : (updBoard f s).advisories = s.advisories := rfl
@[simp] theorem updBoard_vis : (updBoard f s).vis = s.vis := rfl
@[simp] theorem updBoard_engs : (updBoard f s).engs = s.engs := rfl
@[simp] theorem updBoard_movers : (updBoard f s).movers = s.movers := rfl
@[simp] theorem updBoard_gathers : (updBoard f s).gathers = s.gathers := rfl
@[simp] theorem updBoard_dir : (updBoard f s).dir = s.dir := rfl
@[simp] theorem updBoard_hl : (updBoard f s).hl = s.hl := rfl
@[simp] theorem updBoard_hret : (updBoard f s).hret = s.hret := rfl
@[simp] theorem updBoard_hblocks : (updBoard f s).hblocks = s.hblocks := rfl
@[simp] theorem updBoard_aged : (updBoard f s).aged = s.aged := rfl
@[simp] theorem updBoard_domainDown : (updBoard f s).domainDown = s.domainDown := rfl
@[simp] theorem updBoard_viralRx : (updBoard f s).viralRx = s.viralRx := rfl
@[simp] theorem updBoard_viralTx : (updBoard f s).viralTx = s.viralTx := rfl
@[simp] theorem updBoard_lruCtr : (updBoard f s).lruCtr = s.lruCtr := rfl
@[simp] theorem updBoard_mem : (updBoard f s).mem = s.mem := rfl
@[simp] theorem updBoard_poison : (updBoard f s).poison = s.poison := rfl
@[simp] theorem updBoard_ueWindow : (updBoard f s).ueWindow = s.ueWindow := rfl
@[simp] theorem updBoard_scrubAt : (updBoard f s).scrubAt = s.scrubAt := rfl
@[simp] theorem updBoard_ports : (updBoard f s).ports = s.ports := rfl
@[simp] theorem updBoard_rt : (updBoard f s).rt = s.rt := rfl
@[simp] theorem updBoard_epochCur : (updBoard f s).epochCur = s.epochCur := rfl
@[simp] theorem updBoard_epochArm : (updBoard f s).epochArm = s.epochArm := rfl
@[simp] theorem updBoard_grace : (updBoard f s).grace = s.grace := rfl
@[simp] theorem updBoard_ctxs : (updBoard f s).ctxs = s.ctxs := rfl
@[simp] theorem updBoard_fwin : (updBoard f s).fwin = s.fwin := rfl
@[simp] theorem updBoard_iwin : (updBoard f s).iwin = s.iwin := rfl
@[simp] theorem updBoard_qps : (updBoard f s).qps = s.qps := rfl
@[simp] theorem updBoard_ackq : (updBoard f s).ackq = s.ackq := rfl
@[simp] theorem updBoard_waitq : (updBoard f s).waitq = s.waitq := rfl
@[simp] theorem updBoard_colls : (updBoard f s).colls = s.colls := rfl
@[simp] theorem updBoard_collWait : (updBoard f s).collWait = s.collWait := rfl
@[simp] theorem updBoard_collLast : (updBoard f s).collLast = s.collLast := rfl
@[simp] theorem updBoard_refail : (updBoard f s).refail = s.refail := rfl
@[simp] theorem updBoard_flt : (updBoard f s).flt = s.flt := rfl
@[simp] theorem updBoard_rtc : (updBoard f s).rtc = s.rtc := rfl
@[simp] theorem updBoard_ctrs : (updBoard f s).ctrs = s.ctrs := rfl
@[simp] theorem updBoard_shadowBank : (updBoard f s).shadowBank = s.shadowBank := rfl
@[simp] theorem updBoard_win : (updBoard f s).win = s.win := rfl
@[simp] theorem updBoard_tap : (updBoard f s).tap = s.tap := rfl
@[simp] theorem updBoard_tapDebug : (updBoard f s).tapDebug = s.tapDebug := rfl
end

end Sys2Proof.Machine
end

