-- ==== Sys2Proof/Laws/Memory.lean ====
section
/-! SUPPORT. Reading after writing: device memory, the register fields and the maps of units. Every memory operation keeps
the canonical form. -/

namespace Sys2Proof.Machine

open Sys2Proof.Laws

variable {s : State}

theorem readByte_writeByte_same (a : Nat) (b : Byte) : readByte (writeByte a b s) a = b := by
  simp [readByte, cellGet]

theorem readByte_writeByte_other {a c : Nat} (b : Byte) (h : a ≠ c) : readByte (writeByte a b s) c = readByte s c := by
  simp [readByte, cellGet, mget_mset_other _ _ _ h]

theorem writeByte_wf (a : Nat) (b : Byte) (h : Memory.wf s.mem) : Memory.wf (writeByte a b s).mem := mset_wf a b h

/-- writeGo touches no byte below its first address. -/
theorem readByte_writeGo_below : ∀ (l : List Byte) (a : Nat) (s : State) (c : Nat), c < a →
    readByte (writeGo l a s) c = readByte s c
  | [], _, _, _, _ => rfl
  | b :: l, a, s, c, h => by
    rw [writeGo, readByte_writeGo_below l _ _ _ (by omega)]
    split
    · rfl
    · exact readByte_writeByte_other b (by omega)

/-- writeGo touches no byte past its last address. -/
theorem readByte_writeGo_above : ∀ (l : List Byte) (a : Nat) (s : State) (c : Nat), a + l.length ≤ c →
    readByte (writeGo l a s) c = readByte s c
  | [], _, _, _, _ => rfl
  | b :: l, a, s, c, h => by
    rw [List.length_cons] at h
    rw [writeGo, readByte_writeGo_above l _ _ _ (by omega)]
    split
    · rfl
    · exact readByte_writeByte_other b (by omega)

theorem fkey_ne {f g : F} {i j : Nat} (hi : i < 2 ^ 20) (hj : j < 2 ^ 20) (h : f ≠ g ∨ i ≠ j) : fkey f i ≠ fkey g j := by
  intro e
  unfold fkey at e
  have hk : f.ctorIdx = g.ctorIdx := by omega
  have hij : i = j := by omega
  rcases h with h | h
  · apply h
    have := congrArg F.ofNat hk
    rwa [F.ofNat_ctorIdx, F.ofNat_ctorIdx] at this
  · exact h hij

theorem fget_fset_same (f : F) (i v : Nat) : fget (fset f i v s) f i = v := by simp [fget]

theorem fget_fset_other {f g : F} {i j : Nat} (v : Nat) (hi : i < 2 ^ 20) (hj : j < 2 ^ 20) (h : f ≠ g ∨ i ≠ j) :
    fget (fset f i v s) g j = fget s g j := by
  have hk := fkey_ne hi hj h
  simp only [fget, fset_fld, fset_fuses, mset]
  split
  · exact mget_mdel_other _ _ hk
  · exact mget_mins_other _ _ _ hk

theorem eng_updEng_same (e : Eng) (f : EngSt → EngSt) : eng (updEng e f s) e = f (eng s e) := by simp [eng]
theorem getVi_updVi_same (v : Vi) (f : ViSt → ViSt) : getVi (updVi v f s) v = f (getVi s v) := by simp [getVi]
theorem getMv_updMv_same (m : Mover) (f : MvSt → MvSt) : getMv (updMv m f s) m = f (getMv s m) := by simp [getMv]
theorem getPort_updPort_same (p : Port) (f : PortSt → PortSt) : getPort (updPort p f s) p = f (getPort s p) := by
  simp [getPort]
theorem getRail_updRail_same (k : Kiln) (f : Rails → Rails) : getRail (updRail k f s) k = f (getRail s k) := by
  simp [getRail]
theorem getColl_updColl_same (g : Grp) (f : CollSt → CollSt) : getColl (updColl g f s) g = f (getColl s g) := by
  simp [getColl]
theorem getDir_updDir_same (l : LineA) (f : Dir → Dir) : getDir (updDir l f s) l = f (getDir s l) := by simp [getDir]

theorem getDir_updDir_other {l m : LineA} (f : Dir → Dir) (h : l ≠ m) : getDir (updDir l f s) m = getDir s m := by
  rw [getDir, getDir, updDir_dir, mget_mupd_other _ _ _ fun e => h (BitVec.eq_of_toNat_eq e)]

theorem eng_updEng_other {e g : Eng} (f : EngSt → EngSt) (h : e ≠ g) : eng (updEng e f s) g = eng s g := by
  rw [eng, eng, updEng_engs, mget_mupd_other _ _ _ fun x => h (Fin.ext x)]
theorem getVi_updVi_other {v w : Vi} (f : ViSt → ViSt) (h : v ≠ w) : getVi (updVi v f s) w = getVi s w := by
  rw [getVi, getVi, updVi_vis, mget_mupd_other _ _ _ fun x => h (Fin.ext x)]

end Sys2Proof.Machine
end

