-- ==== Sys2Proof/Laws/KeepsOps.lean ====
section
/-! SUPPORT. Keeps of the shared operations, the operand forms, the fabric, the mesh, the collectives' frames, the engine and the home. -/

namespace Sys2Proof.Laws

open Sys2Proof.Machine

variable {s0 s : State}

theorem writeGo_keeps {a0 : List Byte} {a1 : Nat} {s : State} (h : Keeps s0 s) :
        Keeps s0 (writeGo a0 a1 s) := by
  induction a0 generalizing a1 s with
  | nil => unfold writeGo; exact h
  | cons _ _ ih =>
    unfold writeGo
    repeat' first
      | with_reducible apply ih | with_reducible assumption | with_reducible apply Keeps.ite
      | with_reducible apply writeByte_keeps

theorem memWrite_keeps {a0 : Nat} {a1 : List Byte} (h : Keeps s0 s) :
        Keeps s0 (memWrite a0 a1 s) := by
  unfold memWrite
  repeat' first
    | with_reducible assumption
    | (extract_lets +onlyGivenNames t; refine (fun (ht : Keeps s0 t) => ?_) ?_; clear_value t; on_goal 2 => subst t)
    | with_reducible apply Keeps.ite | with_reducible refine Keeps.foldl (fun t x ht => ?_) _ ?_
    | with_reducible apply writeGo_keeps | with_reducible apply setPoison_keeps

theorem acceptWrite_keeps {a0 : Nat} {a1 : List Byte} (h : Keeps s0 s) :
        Keeps s0 (acceptWrite a0 a1 s) := by
  unfold acceptWrite
  repeat' first
    | with_reducible assumption | with_reducible exact Keeps.put ht
    | (extract_lets +onlyGivenNames t; refine (fun (ht : Keeps s0 t) => ?_) ?_; clear_value t; on_goal 2 => subst t)
    | with_reducible refine Keeps.foldl (fun t x ht => ?_) _ ?_ | with_reducible apply memWrite_keeps

theorem fset_keeps {a0 : F} {a1 : Nat} {a2 : Nat} (h : Keeps s0 s) :
        Keeps s0 (fset a0 a1 a2 s) := by
  unfold fset
  repeat' first
    | with_reducible exact Keeps.put h

theorem fcount_keeps {a0 : F} {a1 : Nat} {a2 : Nat} {a3 : Nat} (h : Keeps s0 s) :
        Keeps s0 (fcount a0 a1 a2 a3 s) := by
  unfold fcount
  repeat' first
    | with_reducible assumption | with_reducible apply fset_keeps

theorem updFlt_keeps {a0 : Flt → Flt} (h : Keeps s0 s) :
        Keeps s0 (updFlt a0 s) := by
  unfold updFlt
  repeat' first
    | with_reducible exact Keeps.put h

theorem report_keeps {a0 : FUnit} {a1 : Nat} {a2 : Nat} {a3 : Option Nat} {a4 : Option Nat} (h : Keeps s0 s) :
        Keeps s0 (report a0 a1 a2 a3 a4 s) := by
  unfold report
  repeat' first
    | with_reducible assumption | (extract_lets +onlyGivenNames t; clear_value t) | with_reducible apply Keeps.ite
    | with_reducible apply updFlt_keeps | with_reducible apply fcount_keeps | with_reducible split

theorem fatal_keeps {a0 : FUnit} {a1 : Nat} {a2 : Nat} (h : Keeps s0 s) :
        Keeps s0 (fatal a0 a1 a2 s) := by
  unfold fatal
  repeat' first
    | with_reducible assumption | with_reducible apply latchSafe_keeps | with_reducible apply report_keeps

theorem updVi_keeps {a0 : Vi} {a1 : ViSt → ViSt} (h : Keeps s0 s) :
        Keeps s0 (updVi a0 a1 s) := by
  unfold updVi
  repeat' first
    | with_reducible exact Keeps.put h

theorem updFly_keeps {a0 : Vi} {a1 : Job} {a2 : Fly → Fly} (h : Keeps s0 s) :
        Keeps s0 (updFly a0 a1 a2 s) := by
  unfold updFly
  repeat' first
    | with_reducible assumption | with_reducible apply updVi_keeps

theorem finish_keeps {a0 : Vi} {a1 : Job} {a2 : Compl} (h : Keeps s0 s) :
        Keeps s0 (finish a0 a1 a2 s) := by
  unfold finish
  repeat' first
    | with_reducible assumption | with_reducible apply updFly_keeps

theorem updFn_keeps {a0 : Vi} {a1 : Fn → Fn} (h : Keeps s0 s) :
        Keeps s0 (updFn a0 a1 s) := by
  unfold updFn
  repeat' first
    | with_reducible exact Keeps.put h

theorem raiseVec_keeps {a0 : Vi} {a1 : Fin 4} (h : Keeps s0 s) :
        Keeps s0 (raiseVec a0 a1 s) := by
  unfold raiseVec
  repeat' first
    | with_reducible assumption
    | (extract_lets +onlyGivenNames t; refine (fun (ht : Keeps s0 t) => ?_) ?_; clear_value t; on_goal 2 => subst t)
    | (extract_lets +onlyGivenNames t; clear_value t) | with_reducible apply Keeps.ite
    | with_reducible apply emit_keeps | with_reducible apply updFn_keeps

theorem raiseCompletion_keeps {a0 : Vi} (h : Keeps s0 s) :
        Keeps s0 (raiseCompletion a0 s) := by
  unfold raiseCompletion
  repeat' first
    | with_reducible assumption | with_reducible apply Keeps.ite | with_reducible apply updFn_keeps
    | with_reducible apply raiseVec_keeps

theorem flushVec_keeps {a0 : Vi} (h : Keeps s0 s) :
        Keeps s0 (flushVec a0 s) := by
  unfold flushVec
  repeat' first
    | with_reducible assumption
    | (extract_lets +onlyGivenNames t; refine (fun (ht : Keeps s0 t) => ?_) ?_; clear_value t; on_goal 2 => subst t)
    | with_reducible apply Keeps.ite | with_reducible refine Keeps.foldl (fun t x ht => ?_) _ ?_
    | with_reducible apply updFn_keeps | with_reducible apply raiseCompletion_keeps
    | with_reducible apply raiseVec_keeps

theorem hostError_keeps {a0 : Vi} (h : Keeps s0 s) :
        Keeps s0 (hostError a0 s) := by
  unfold hostError
  repeat' first
    | with_reducible assumption | with_reducible apply updVi_keeps

theorem updEng_keeps {a0 : Eng} {a1 : EngSt → EngSt} (h : Keeps s0 s) :
        Keeps s0 (updEng a0 a1 s) := by
  unfold updEng
  repeat' first
    | with_reducible exact Keeps.put h

theorem updRun_keeps {a0 : Eng} {a1 : Run → Run} (h : Keeps s0 s) :
        Keeps s0 (updRun a0 a1 s) := by
  unfold updRun
  repeat' first
    | with_reducible assumption | with_reducible apply updEng_keeps

theorem lateFail_keeps {a0 : Eng} {a1 : Compl} (h : Keeps s0 s) :
        Keeps s0 (lateFail a0 a1 s) := by
  unfold lateFail
  repeat' first
    | with_reducible assumption | with_reducible apply updRun_keeps

theorem notice_keeps (h : Keeps s0 s) :
        Keeps s0 (notice s) := by
  unfold notice
  repeat' first
    | with_reducible assumption | with_reducible apply raiseVec_keeps

theorem storeFailed_keeps {a0 : Eng} {a1 : Vi} {a2 : Job} {a3 : Nat} {a4 : Compl} (h : Keeps s0 s) :
        Keeps s0 (storeFailed a0 a1 a2 a3 a4 s) := by
  unfold storeFailed
  repeat' first
    | with_reducible assumption | with_reducible apply updEng_keeps

theorem tick_keeps (h : Keeps s0 s) :
        Keeps s0 (tick s) := by
  unfold tick
  repeat' first
    | with_reducible exact Keeps.put h

theorem ticks_keeps {a0 : Nat} (h : Keeps s0 s) :
        Keeps s0 (ticks a0 s) := by
  unfold ticks
  repeat' first
    | with_reducible exact Keeps.put h

theorem updBoard_keeps {a0 : Board → Board} (h : Keeps s0 s) :
        Keeps s0 (updBoard a0 s) := by
  unfold updBoard
  repeat' first
    | with_reducible exact Keeps.put h

theorem updColl_keeps {a0 : Grp} {a1 : CollSt → CollSt} (h : Keeps s0 s) :
        Keeps s0 (updColl a0 a1 s) := by
  unfold updColl
  repeat' first
    | with_reducible exact Keeps.put h

theorem updCtr_keeps {a0 : Ctr} {a1 : CtrSt → CtrSt} (h : Keeps s0 s) :
        Keeps s0 (updCtr a0 a1 s) := by
  unfold updCtr
  repeat' first
    | with_reducible exact Keeps.put h

theorem updCtx_keeps {a0 : Nat} {a1 : Ctx → Ctx} (h : Keeps s0 s) :
        Keeps s0 (updCtx a0 a1 s) := by
  unfold updCtx
  repeat' first
    | with_reducible exact Keeps.put h

theorem updDir_keeps {a0 : LineA} {a1 : Dir → Dir} (h : Keeps s0 s) :
        Keeps s0 (updDir a0 a1 s) := by
  unfold updDir
  repeat' first
    | with_reducible exact Keeps.put h

theorem updGather_keeps {a0 : Kiln} {a1 : List Gather → List Gather} (h : Keeps s0 s) :
        Keeps s0 (updGather a0 a1 s) := by
  unfold updGather
  repeat' first
    | with_reducible exact Keeps.put h

theorem updHl_keeps {a0 : Holder} {a1 : LineA} {a2 : HLine → HLine} (h : Keeps s0 s) :
        Keeps s0 (updHl a0 a1 a2 s) := by
  unfold updHl
  repeat' first
    | with_reducible exact Keeps.put h

theorem updHp_keeps {a0 : HPort} {a1 : HostPort → HostPort} (h : Keeps s0 s) :
        Keeps s0 (updHp a0 a1 s) := by
  unfold updHp
  repeat' first
    | with_reducible exact Keeps.put h

theorem updMv_keeps {a0 : Mover} {a1 : MvSt → MvSt} (h : Keeps s0 s) :
        Keeps s0 (updMv a0 a1 s) := by
  unfold updMv
  repeat' first
    | with_reducible exact Keeps.put h

theorem updPf_keeps {a0 : HPort} {a1 : Pf → Pf} (h : Keeps s0 s) :
        Keeps s0 (updPf a0 a1 s) := by
  unfold updPf
  repeat' first
    | with_reducible exact Keeps.put h

theorem updPort_keeps {a0 : Port} {a1 : PortSt → PortSt} (h : Keeps s0 s) :
        Keeps s0 (updPort a0 a1 s) := by
  unfold updPort
  repeat' first
    | with_reducible exact Keeps.put h

theorem updQp_keeps {a0 : Grp} {a1 : Qp → Qp} (h : Keeps s0 s) :
        Keeps s0 (updQp a0 a1 s) := by
  unfold updQp
  repeat' first
    | with_reducible exact Keeps.put h

theorem updRail_keeps {a0 : Kiln} {a1 : Rails → Rails} (h : Keeps s0 s) :
        Keeps s0 (updRail a0 a1 s) := by
  unfold updRail
  repeat' first
    | with_reducible exact Keeps.put h

theorem updRtc_keeps {a0 : Rtc → Rtc} (h : Keeps s0 s) :
        Keeps s0 (updRtc a0 s) := by
  unfold updRtc
  repeat' first
    | with_reducible exact Keeps.put h

theorem addMiss_keeps {a0 : Vi} {a1 : Nat} {a2 : MissWho} (h : Keeps s0 s) :
        Keeps s0 (addMiss a0 a1 a2 s) := by
  unfold addMiss
  repeat' first
    | with_reducible assumption | with_reducible apply updVi_keeps

theorem setSeg_keeps {a0 : Vi} {a1 : Fin 16} {a2 : Seg} (h : Keeps s0 s) :
        Keeps s0 (setSeg a0 a1 a2 s) := by
  unfold setSeg
  repeat' first
    | with_reducible assumption | (extract_lets +onlyGivenNames t; clear_value t) | with_reducible apply Keeps.ite
    | with_reducible apply fset_keeps

theorem spWrite_keeps {a0 : Eng} {a1 : Nat} {a2 : List Byte} (h : Keeps s0 s) :
        Keeps s0 (spWrite a0 a1 a2 s) := by
  unfold spWrite
  repeat' first
    | with_reducible assumption | with_reducible apply updEng_keeps

theorem touchSlot_keeps {a0 : Vi} {a1 : Fin 16} (h : Keeps s0 s) :
        Keeps s0 (touchSlot a0 a1 s) := by
  unfold touchSlot
  repeat' first
    | with_reducible exact Keeps.put h | with_reducible apply updVi_keeps

theorem oweCredits_keeps {a0 : Option Port} {a1 : Nat} {a2 : Frame} (h : Keeps s0 s) :
        Keeps s0 (oweCredits a0 a1 a2 s) := by
  unfold oweCredits
  repeat' first
    | with_reducible assumption | with_reducible apply updPort_keeps | with_reducible split

theorem recCross_keeps {a0 : Port} {a1 : Frame} (h : Keeps s0 s) :
        Keeps s0 (recCross a0 a1 s) := by
  unfold recCross
  repeat' first
    | with_reducible assumption | with_reducible apply Keeps.ite | with_reducible apply updPort_keeps

theorem sendOn_keeps {a0 : Port} {a1 : Frame} (h : Keeps s0 s) :
        Keeps s0 (sendOn a0 a1 s) := by
  unfold sendOn
  repeat' first
    | with_reducible assumption
    | (extract_lets +onlyGivenNames t; refine (fun (ht : Keeps s0 t) => ?_) ?_; clear_value t; on_goal 2 => subst t)
    | (extract_lets +onlyGivenNames t; clear_value t) | with_reducible apply updPort_keeps
    | with_reducible apply recCross_keeps | with_reducible apply emit_keeps

theorem drrServe_keeps {a0 : Port} {a1 : Nat} {a2 : Nat} {s : State} (h : Keeps s0 s) :
        Keeps s0 (drrServe a0 a1 a2 s) := by
  induction a2 generalizing a0 a1 s with
  | zero => unfold drrServe; exact h
  | succ _ ih =>
    unfold drrServe
    repeat' first
      | with_reducible apply ih | with_reducible assumption | with_reducible exact Keeps.put h
      | with_reducible apply updPort_keeps | with_reducible apply oweCredits_keeps
      | with_reducible apply sendOn_keeps | with_reducible split

theorem drrVisit_keeps {a0 : Port} {a1 : Nat} (h : Keeps s0 s) :
        Keeps s0 (drrVisit a0 a1 s) := by
  unfold drrVisit
  repeat' first
    | with_reducible assumption | (extract_lets +onlyGivenNames t; clear_value t) | with_reducible apply Keeps.ite
    | with_reducible apply drrServe_keeps | with_reducible apply updPort_keeps

theorem drainPort_keeps {a0 : Port} (h : Keeps s0 s) :
        Keeps s0 (drainPort a0 s) := by
  unfold drainPort
  repeat' first
    | with_reducible assumption | with_reducible apply Keeps.ite
    | with_reducible refine Keeps.foldl (fun t x ht => ?_) _ ?_ | with_reducible apply drrVisit_keeps

theorem dropHold_keeps {a0 : Port} (h : Keeps s0 s) :
        Keeps s0 (dropHold a0 s) := by
  unfold dropHold
  repeat' first
    | with_reducible assumption | with_reducible apply updPort_keeps | with_reducible apply fcount_keeps

theorem routeIn_keeps {a0 : Frame} {a1 : Option Port} (h : Keeps s0 s) :
        Keeps s0 (routeIn a0 a1 s) := by
  unfold routeIn
  repeat' first
    | with_reducible assumption | with_reducible exact Keeps.put ht
    | (extract_lets +onlyGivenNames t; refine (fun (ht : Keeps s0 t) => ?_) ?_; clear_value t; on_goal 2 => subst t)
    | (extract_lets +onlyGivenNames t; clear_value t) | with_reducible apply Keeps.ite
    | with_reducible apply fcount_keeps | with_reducible apply oweCredits_keeps | with_reducible apply sendOn_keeps
    | with_reducible split

theorem rerouteAll_keeps (h : Keeps s0 s) :
        Keeps s0 (rerouteAll s) := by
  unfold rerouteAll
  repeat' first
    | with_reducible assumption | with_reducible exact Keeps.put h
    | with_reducible refine Keeps.foldl (fun t x ht => ?_) _ ?_ | with_reducible apply routeIn_keeps

theorem enterUp_keeps {a0 : Port} (h : Keeps s0 s) :
        Keeps s0 (enterUp a0 s) := by
  unfold enterUp
  repeat' first
    | with_reducible assumption | with_reducible apply rerouteAll_keeps | with_reducible apply updPort_keeps

theorem sendFrame_keeps {a0 : Frame} (h : Keeps s0 s) :
        Keeps s0 (sendFrame a0 s) := by
  unfold sendFrame
  repeat' first
    | with_reducible assumption | with_reducible apply routeIn_keeps

theorem clearCrossings_keeps {a0 : Island} (h : Keeps s0 s) :
        Keeps s0 (clearCrossings a0 s) := by
  unfold clearCrossings
  repeat' first
    | with_reducible exact Keeps.put h

theorem clearDie_keeps {a0 : Nat} (h : Keeps s0 s) :
        Keeps s0 (clearDie a0 s) := by
  unfold clearDie
  repeat' first
    | with_reducible exact Keeps.put h

theorem forget_keeps {a0 : Who → Bool} (h : Keeps s0 s) :
        Keeps s0 (forget a0 s) := by
  unfold forget
  repeat' first
    | with_reducible exact Keeps.put h

theorem setPacket_keeps {a0 : Nat} {a1 : MeshPkt} (h : Keeps s0 s) :
        Keeps s0 (setPacket a0 a1 s) := by
  unfold setPacket
  repeat' first
    | with_reducible exact Keeps.put h

theorem updWire_keeps {a0 : Link} {a1 : Bool} {a2 : Wire → Wire} (h : Keeps s0 s) :
        Keeps s0 (updWire a0 a1 a2 s) := by
  unfold updWire
  repeat' first
    | with_reducible exact Keeps.put h

theorem startHop_keeps {a0 : Nat} {a1 : MeshPkt} {a2 : Nat} (h : Keeps s0 s) :
        Keeps s0 (startHop a0 a1 a2 s) := by
  unfold startHop
  repeat' first
    | with_reducible assumption | (extract_lets +onlyGivenNames t; clear_value t) | with_reducible apply Keeps.ite
    | with_reducible apply setPacket_keeps | with_reducible apply updWire_keeps | with_reducible split

theorem setOut_keeps {a0 : Nat} {a1 : MeshPkt} (h : Keeps s0 s) :
        Keeps s0 (setOut a0 a1 s) := by
  unfold setOut
  repeat' first
    | with_reducible assumption | with_reducible apply Keeps.ite | with_reducible apply startHop_keeps
    | with_reducible split

theorem movePacket_keeps {a1 : Nat} (h : Keeps s0 s) :
        Keeps s0 (movePacket s a1) := by
  unfold movePacket
  repeat' first
    | with_reducible assumption | (extract_lets +onlyGivenNames t; clear_value t) | with_reducible apply Keeps.ite
    | with_reducible apply setPacket_keeps | with_reducible apply setOut_keeps
    | with_reducible apply startHop_keeps | with_reducible split

theorem meshTick_keeps (h : Keeps s0 s) :
        Keeps s0 (meshTick s) := by
  unfold meshTick
  repeat' first
    | with_reducible assumption | with_reducible exact Keeps.put ht
    | (extract_lets +onlyGivenNames t; refine (fun (ht : Keeps s0 t) => ?_) ?_; clear_value t; on_goal 2 => subst t)
    | with_reducible refine Keeps.foldl (fun t x ht => ?_) _ ?_ | with_reducible apply movePacket_keeps

theorem send_keeps {a0 : Island} {a1 : Island} {a2 : MCls} {a3 : Instr} {a4 : Option Block} {a5 : Who} (h : Keeps s0
    s) :
        Keeps s0 (send a0 a1 a2 a3 a4 a5 s) := by
  unfold send
  repeat' first
    | with_reducible exact Keeps.put h

theorem taken_keeps {a0 : Instr} (h : Keeps s0 s) :
        Keeps s0 (taken a0 s) := by
  unfold taken
  repeat' first
    | with_reducible assumption | with_reducible exact Keeps.put h | with_reducible split

theorem updLanes_keeps {a0 : Link} {a1 : Bool} {a2 : Lanes → Lanes} (h : Keeps s0 s) :
        Keeps s0 (updLanes a0 a1 a2 s) := by
  unfold updLanes
  repeat' first
    | with_reducible exact Keeps.put h

theorem failFlags_keeps {a0 : Eng} {a1 : Nat} {a2 : Nat} (h : Keeps s0 s) :
        Keeps s0 (failFlags a0 a1 a2 s) := by
  unfold failFlags
  repeat' first
    | with_reducible assumption | with_reducible apply updEng_keeps

theorem abortFlags_keeps {a0 : Nat} {a1 : CollSt} (h : Keeps s0 s) :
        Keeps s0 (abortFlags a0 a1 s) := by
  unfold abortFlags
  repeat' first
    | with_reducible assumption | with_reducible exact Keeps.put ht
    | (extract_lets +onlyGivenNames t; refine (fun (ht : Keeps s0 t) => ?_) ?_; clear_value t; on_goal 2 => subst t)
    | with_reducible apply Keeps.ite | with_reducible apply failFlags_keeps | with_reducible split

theorem clearColl_keeps {a0 : Nat} (h : Keeps s0 s) :
        Keeps s0 (clearColl a0 s) := by
  unfold clearColl
  repeat' first
    | with_reducible assumption | with_reducible exact Keeps.put h
    | (extract_lets +onlyGivenNames t; refine (fun (ht : Keeps s0 t) => ?_) ?_; clear_value t; on_goal 2 => subst t)
    | (extract_lets +onlyGivenNames t; clear_value t) | with_reducible apply forget_keeps
    | with_reducible apply updColl_keeps

theorem noteLast_keeps {a0 : Nat} {a1 : Nat} {a2 : Bool} (h : Keeps s0 s) :
        Keeps s0 (noteLast a0 a1 a2 s) := by
  unfold noteLast
  repeat' first
    | with_reducible exact Keeps.put h

theorem sendAbort_keeps {a0 : Nat} {a1 : Nat} {a2 : Nat} {a3 : Nat} {a4 : List Nat} (h : Keeps s0 s) :
        Keeps s0 (sendAbort a0 a1 a2 a3 a4 s) := by
  unfold sendAbort
  repeat' first
    | with_reducible assumption | with_reducible refine Keeps.foldl (fun t x ht => ?_) _ ?_
    | with_reducible apply sendFrame_keeps

theorem endColl_keeps {a0 : Nat} {a1 : Option Compl} {a2 : Option Nat} {a3 : Nat} {a4 : Nat} (h : Keeps s0 s) :
        Keeps s0 (endColl a0 a1 a2 a3 a4 s) := by
  unfold endColl
  repeat' first
    | with_reducible assumption
    | (extract_lets +onlyGivenNames t; refine (fun (ht : Keeps s0 t) => ?_) ?_; clear_value t; on_goal 2 => subst t)
    | (extract_lets +onlyGivenNames t; clear_value t) | with_reducible apply sendAbort_keeps
    | with_reducible apply abortFlags_keeps | with_reducible apply finish_keeps
    | with_reducible apply clearColl_keeps | with_reducible apply noteLast_keeps | with_reducible split

theorem collFail_keeps {a0 : Nat} {a1 : Compl} (h : Keeps s0 s) :
        Keeps s0 (collFail a0 a1 s) := by
  unfold collFail
  repeat' first
    | with_reducible assumption
    | (extract_lets +onlyGivenNames t; refine (fun (ht : Keeps s0 t) => ?_) ?_; clear_value t; on_goal 2 => subst t)
    | (extract_lets +onlyGivenNames t; clear_value t) | with_reducible apply fcount_keeps
    | with_reducible apply endColl_keeps

theorem recvAbort_keeps {a0 : Nat} {a1 : Nat} {a2 : Option Nat} {a3 : Nat} {a4 : Nat} (h : Keeps s0 s) :
        Keeps s0 (recvAbort a0 a1 a2 a3 a4 s) := by
  unfold recvAbort
  repeat' first
    | with_reducible assumption
    | (extract_lets +onlyGivenNames t; refine (fun (ht : Keeps s0 t) => ?_) ?_; clear_value t; on_goal 2 => subst t)
    | (extract_lets +onlyGivenNames t; clear_value t) | with_reducible apply Keeps.ite
    | with_reducible apply fcount_keeps | with_reducible apply endColl_keeps | with_reducible apply noteLast_keeps
    | with_reducible apply sendAbort_keeps

theorem crossAborts_keeps {a0 : Port} (h : Keeps s0 s) :
        Keeps s0 (crossAborts a0 s) := by
  unfold crossAborts
  repeat' first
    | with_reducible assumption
    | (extract_lets +onlyGivenNames t; refine (fun (ht : Keeps s0 t) => ?_) ?_; clear_value t; on_goal 2 => subst t)
    | (extract_lets +onlyGivenNames t; clear_value t) | with_reducible apply Keeps.ite
    | with_reducible refine Keeps.foldl (fun t x ht => ?_) _ ?_ | with_reducible apply updPort_keeps
    | with_reducible apply recvAbort_keeps | with_reducible apply sendFrame_keeps

theorem leaveUp_keeps {a0 : Port} {a1 : PState} (h : Keeps s0 s) :
        Keeps s0 (leaveUp a0 a1 s) := by
  unfold leaveUp
  repeat' first
    | with_reducible assumption | with_reducible apply Keeps.ite | with_reducible apply crossAborts_keeps
    | with_reducible apply rerouteAll_keeps | with_reducible apply dropHold_keeps
    | with_reducible apply updPort_keeps

theorem originate_keeps {a0 : Nat} {a1 : Status} {a2 : Nat} (h : Keeps s0 s) :
        Keeps s0 (originate a0 a1 a2 s) := by
  unfold originate
  repeat' first
    | with_reducible assumption
    | (extract_lets +onlyGivenNames t; refine (fun (ht : Keeps s0 t) => ?_) ?_; clear_value t; on_goal 2 => subst t)
    | (extract_lets +onlyGivenNames t; clear_value t) | with_reducible apply Keeps.ite
    | with_reducible apply fcount_keeps | with_reducible apply endColl_keeps

theorem portDown_keeps {a0 : Port} {a1 : Nat} (h : Keeps s0 s) :
        Keeps s0 (portDown a0 a1 s) := by
  unfold portDown
  repeat' first
    | with_reducible assumption
    | (extract_lets +onlyGivenNames t; refine (fun (ht : Keeps s0 t) => ?_) ?_; clear_value t; on_goal 2 => subst t)
    | (extract_lets +onlyGivenNames t; clear_value t) | with_reducible apply updPort_keeps
    | with_reducible apply leaveUp_keeps

theorem abandon_keeps {a0 : Eng} (h : Keeps s0 s) :
        Keeps s0 (abandon a0 s) := by
  unfold abandon
  repeat' first
    | with_reducible assumption | with_reducible apply forget_keeps | with_reducible apply updEng_keeps

theorem acceptThose_keeps {a0 : Kiln} {a1 : Gather → Bool} (h : Keeps s0 s) :
        Keeps s0 (acceptThose a0 a1 s) := by
  unfold acceptThose
  repeat' first
    | with_reducible assumption | (extract_lets +onlyGivenNames t; clear_value t)
    | with_reducible refine Keeps.foldl (fun t x ht => ?_) _ ?_ | with_reducible apply acceptWrite_keeps
    | with_reducible apply updGather_keeps

theorem acceptOwn_keeps {a0 : Eng} (h : Keeps s0 s) :
        Keeps s0 (acceptOwn a0 s) := by
  unfold acceptOwn
  repeat' first
    | with_reducible assumption | with_reducible apply acceptThose_keeps

theorem barIssue_keeps {a0 : Eng} (h : Keeps s0 s) :
        Keeps s0 (barIssue a0 s) := by
  unfold barIssue
  repeat' first
    | with_reducible assumption | with_reducible apply updRun_keeps

theorem clearHostResv_keeps {a0 : Holder} {a1 : Nat} (h : Keeps s0 s) :
        Keeps s0 (clearHostResv a0 a1 s) := by
  unfold clearHostResv
  repeat' first
    | with_reducible assumption | with_reducible exact Keeps.put h
    | (extract_lets +onlyGivenNames t; refine (fun (ht : Keeps s0 t) => ?_) ?_; clear_value t; on_goal 2 => subst t)
    | with_reducible refine Keeps.foldl (fun t x ht => ?_) _ ?_ | with_reducible apply updEng_keeps
    | with_reducible split

theorem toSlice_keeps {a0 : Island} {a1 : Kiln} {a2 : Instr} {a3 : Option Block} {a4 : Who} (h : Keeps s0 s) :
        Keeps s0 (toSlice a0 a1 a2 a3 a4 s) := by
  unfold toSlice
  repeat' first
    | with_reducible assumption
    | (extract_lets +onlyGivenNames t; refine (fun (ht : Keeps s0 t) => ?_) ?_; clear_value t; on_goal 2 => subst t)
    | with_reducible apply emit_keeps | with_reducible apply send_keeps | with_reducible split

theorem hostStore_keeps {a0 : Island} {a1 : Kiln} {a2 : Vi} {a3 : Nat} {a4 : List Byte} {a5 : Bool} {a6 : Bool} {a7
    : Who} (h : Keeps s0 s) :
        Keeps s0 (hostStore a0 a1 a2 a3 a4 a5 a6 a7 s) := by
  unfold hostStore
  repeat' first
    | with_reducible assumption | (extract_lets +onlyGivenNames t; clear_value t) | with_reducible apply Keeps.ite
    | with_reducible refine Keeps.foldl (fun t x ht => ?_) _ ?_ | with_reducible apply toSlice_keeps
    | with_reducible apply emit_keeps

theorem pushGather_keeps {a0 : Eng} {a1 : Vi} {a2 : Nat} {a3 : List Byte} (h : Keeps s0 s) :
        Keeps s0 (pushGather a0 a1 a2 a3 s) := by
  unfold pushGather
  repeat' first
    | with_reducible assumption
    | (extract_lets +onlyGivenNames t; refine (fun (ht : Keeps s0 t) => ?_) ?_; clear_value t; on_goal 2 => subst t)
    | (extract_lets +onlyGivenNames t; clear_value t) | with_reducible apply Keeps.ite
    | with_reducible apply acceptWrite_keeps | with_reducible apply updGather_keeps | with_reducible split

theorem passEntry_keeps {a0 : Eng} {a1 : SbEnt} (h : Keeps s0 s) :
        Keeps s0 (passEntry a0 a1 s) := by
  unfold passEntry
  repeat' first
    | with_reducible assumption
    | (extract_lets +onlyGivenNames t; refine (fun (ht : Keeps s0 t) => ?_) ?_; clear_value t; on_goal 2 => subst t)
    | with_reducible apply Keeps.ite | with_reducible apply pushGather_keeps | with_reducible apply acceptOwn_keeps
    | with_reducible apply storeFailed_keeps | with_reducible apply updEng_keeps
    | with_reducible apply hostStore_keeps | with_reducible split

theorem passAll_keeps {a0 : Eng} {a1 : List SbEnt} {s : State} (h : Keeps s0 s) :
        KeepsP s0 (passAll a0 a1 s) := by
  induction a1 generalizing a0 s with
  | nil => unfold passAll; exact h
  | cons _ _ ih =>
    unfold passAll
    repeat' first
      | with_reducible assumption | with_reducible apply KeepsP.mk | with_reducible apply passEntry_keeps
      | with_reducible split | with_reducible refine KeepsP.snd (ih ?_)

theorem flushN_keeps {a0 : Eng} {a1 : Nat} (h : Keeps s0 s) :
        Keeps s0 (flushN a0 a1 s) := by
  unfold flushN
  repeat' first
    | with_reducible assumption
    | (extract_lets +onlyGivenNames t; refine (fun (ht : KeepsP s0 t) => ?_) ?_; clear_value t; on_goal 2 => subst t)
    | (extract_lets +onlyGivenNames t; clear_value t) | with_reducible apply passAll_keeps
    | with_reducible apply updEng_keeps | with_reducible exact KeepsP.snd ‹_›

theorem flushSb_keeps {a0 : Eng} (h : Keeps s0 s) :
        Keeps s0 (flushSb a0 s) := by
  unfold flushSb
  repeat' first
    | with_reducible assumption | with_reducible apply flushN_keeps

theorem drainEngine_keeps {a0 : Eng} (h : Keeps s0 s) :
        Keeps s0 (drainEngine a0 s) := by
  unfold drainEngine
  repeat' first
    | with_reducible assumption | with_reducible apply acceptOwn_keeps | with_reducible apply flushSb_keeps

theorem indexEnded_keeps {a0 : Index} {a1 : Option Compl} {a2 : U64} (h : Keeps s0 s) :
        Keeps s0 (indexEnded a0 a1 a2 s) := by
  unfold indexEnded
  repeat' first
    | with_reducible assumption | with_reducible apply updFly_keeps

theorem endIndex_keeps {a0 : Eng} {a1 : Option Compl} {a2 : U64} (h : Keeps s0 s) :
        Keeps s0 (endIndex a0 a1 a2 s) := by
  unfold endIndex
  repeat' first
    | with_reducible assumption
    | (extract_lets +onlyGivenNames t; refine (fun (ht : Keeps s0 t) => ?_) ?_; clear_value t; on_goal 2 => subst t)
    | with_reducible apply flushSb_keeps | with_reducible apply updEng_keeps | with_reducible apply forget_keeps
    | with_reducible apply updVi_keeps | with_reducible apply indexEnded_keeps | with_reducible split

theorem failIndex_keeps {a0 : Eng} {a1 : Status} {a2 : Nat} (h : Keeps s0 s) :
        Keeps s0 (failIndex a0 a1 a2 s) := by
  unfold failIndex
  repeat' first
    | with_reducible assumption | with_reducible apply endIndex_keeps

theorem engMiss_keeps {a0 : Eng} {a1 : Nat} (h : Keeps s0 s) :
        Keeps s0 (engMiss a0 a1 s) := by
  unfold engMiss
  repeat' first
    | with_reducible assumption
    | (extract_lets +onlyGivenNames t; refine (fun (ht : Keeps s0 t) => ?_) ?_; clear_value t; on_goal 2 => subst t)
    | with_reducible apply Keeps.ite | with_reducible apply fcount_keeps | with_reducible apply failIndex_keeps
    | with_reducible apply abandon_keeps | with_reducible apply updRun_keeps | with_reducible apply addMiss_keeps
    | with_reducible split

theorem hostLoad_keeps {a0 : Island} {a1 : Kiln} {a2 : Vi} {a3 : Nat} {a4 : Nat} {a5 : Bool} {a6 : HostRead} {a7 :
    Who} (h : Keeps s0 s) :
        Keeps s0 (hostLoad a0 a1 a2 a3 a4 a5 a6 a7 s) := by
  unfold hostLoad
  repeat' first
    | with_reducible assumption | with_reducible apply Keeps.ite
    | with_reducible refine Keeps.foldl (fun t x ht => ?_) _ ?_ | with_reducible apply toSlice_keeps
    | with_reducible apply emit_keeps

theorem hostReserve_keeps {a0 : Island} {a1 : Kiln} {a2 : Vi} {a3 : Nat} {a4 : HostRead} {a5 : Who} (h : Keeps s0 s)
    :
        Keeps s0 (hostReserve a0 a1 a2 a3 a4 a5 s) := by
  unfold hostReserve
  repeat' first
    | with_reducible assumption | with_reducible apply Keeps.ite | with_reducible apply toSlice_keeps
    | with_reducible apply emit_keeps

theorem noteHit_keeps {a0 : Eng} {a1 : Vi} {a2 : Fin 16} (h : Keeps s0 s) :
        Keeps s0 (noteHit a0 a1 a2 s) := by
  unfold noteHit
  repeat' first
    | with_reducible assumption | (extract_lets +onlyGivenNames t; clear_value t)
    | with_reducible apply touchSlot_keeps | with_reducible apply updRun_keeps

theorem loadBlock_keeps {a0 : Eng} {a1 : Nat} {a2 : BitVec 10} {a3 : Bool} (h : Keeps s0 s) :
        Keeps s0 (loadBlock a0 a1 a2 a3 s) := by
  unfold loadBlock
  repeat' first
    | with_reducible assumption
    | (extract_lets +onlyGivenNames t; refine (fun (ht : Keeps s0 t) => ?_) ?_; clear_value t; on_goal 2 => subst t)
    | (extract_lets +onlyGivenNames t; clear_value t) | with_reducible apply Keeps.ite
    | with_reducible apply failIndex_keeps | with_reducible apply engMiss_keeps
    | with_reducible apply noteHit_keeps | with_reducible apply updRun_keeps | with_reducible apply hostLoad_keeps
    | with_reducible split

theorem passGranule_keeps {a0 : Eng} {a1 : Nat} (h : Keeps s0 s) :
        Keeps s0 (passGranule a0 a1 s) := by
  unfold passGranule
  repeat' first
    | with_reducible assumption | (extract_lets +onlyGivenNames t; clear_value t)
    | with_reducible apply acceptThose_keeps | with_reducible apply flushN_keeps

theorem loadReserved_keeps {a0 : Eng} {a1 : Nat} {a2 : BitVec 10} (h : Keeps s0 s) :
        Keeps s0 (loadReserved a0 a1 a2 s) := by
  unfold loadReserved
  repeat' first
    | with_reducible assumption
    | (extract_lets +onlyGivenNames t; refine (fun (ht : Keeps s0 t) => ?_) ?_; clear_value t; on_goal 2 => subst t)
    | (extract_lets +onlyGivenNames t; clear_value t) | with_reducible apply Keeps.ite
    | with_reducible apply failIndex_keeps | with_reducible apply engMiss_keeps
    | with_reducible apply noteHit_keeps | with_reducible apply passGranule_keeps
    | with_reducible apply updRun_keeps | with_reducible apply hostReserve_keeps | with_reducible split

theorem probeAt_keeps {a0 : Eng} {a1 : Nat} {a2 : Nat} (h : Keeps s0 s) :
        Keeps s0 (probeAt a0 a1 a2 s) := by
  unfold probeAt
  repeat' first
    | with_reducible assumption | with_reducible apply engMiss_keeps | with_reducible apply failIndex_keeps
    | with_reducible apply noteHit_keeps | with_reducible split

theorem probeBlock_keeps {a0 : Eng} {a1 : Nat} (h : Keeps s0 s) :
        Keeps s0 (probeBlock a0 a1 s) := by
  unfold probeBlock
  repeat' first
    | with_reducible assumption | with_reducible apply probeAt_keeps

theorem pushSb_keeps {a0 : Eng} {a1 : BitVec 10} {a2 : SbEnt} (h : Keeps s0 s) :
        Keeps s0 (pushSb a0 a1 a2 s) := by
  unfold pushSb
  repeat' first
    | with_reducible assumption | (extract_lets +onlyGivenNames t; clear_value t) | with_reducible apply Keeps.ite
    | with_reducible apply updEng_keeps | with_reducible apply passEntry_keeps | with_reducible split

theorem storeBlock_keeps {a0 : Eng} {a1 : Nat} {a2 : BitVec 10} {a3 : List Byte} {a4 : Bool} (h : Keeps s0 s) :
        Keeps s0 (storeBlock a0 a1 a2 a3 a4 s) := by
  unfold storeBlock
  repeat' first
    | with_reducible assumption
    | (extract_lets +onlyGivenNames t; refine (fun (ht : Keeps s0 t) => ?_) ?_; clear_value t; on_goal 2 => subst t)
    | (extract_lets +onlyGivenNames t; clear_value t) | with_reducible apply Keeps.ite
    | with_reducible apply lateFail_keeps | with_reducible apply touchSlot_keeps
    | with_reducible apply pushSb_keeps | with_reducible split

theorem takeCommit_keeps {a0 : Eng} (h : Keeps s0 s) :
        Keeps s0 (takeCommit a0 s) := by
  unfold takeCommit
  repeat' first
    | with_reducible assumption | with_reducible apply updEng_keeps

theorem returned_keeps {a0 : HRet} (h : Keeps s0 s) :
        Keeps s0 (returned a0 s) := by
  unfold returned
  repeat' first
    | with_reducible exact Keeps.put h

theorem storeEnds_keeps {a0 : Who} {a1 : Status} (h : Keeps s0 s) :
        Keeps s0 (storeEnds a0 a1 s) := by
  unfold storeEnds
  repeat' first
    | with_reducible assumption | with_reducible apply Keeps.ite | with_reducible apply storeFailed_keeps
    | with_reducible apply updFly_keeps | with_reducible split

theorem accessEnds_keeps {a0 : Holder} {a1 : LineA} {a2 : Who} {a3 : Status} (h : Keeps s0 s) :
        Keeps s0 (accessEnds a0 a1 a2 a3 s) := by
  unfold accessEnds
  repeat' first
    | with_reducible assumption | with_reducible apply storeEnds_keeps | with_reducible apply returned_keeps
    | with_reducible split

theorem putDir_keeps {a0 : LineA} {a1 : Dir} (h : Keeps s0 s) :
        Keeps s0 (putDir a0 a1 s) := by
  unfold putDir
  repeat' first
    | with_reducible assumption | with_reducible apply updDir_keeps

theorem toHolder_keeps {a0 : Holder} {a1 : LineA} {a2 : String} {a3 : Option (Block × Bool)} (h : Keeps s0 s) :
        Keeps s0 (toHolder a0 a1 a2 a3 s) := by
  unfold toHolder
  repeat' first
    | with_reducible assumption | with_reducible apply send_keeps | with_reducible apply emit_keeps
    | with_reducible split

theorem sendAll_keeps {a0 : List Holder} {a1 : LineA} {a2 : String} (h : Keeps s0 s) :
        Keeps s0 (sendAll a0 a1 a2 s) := by
  unfold sendAll
  repeat' first
    | with_reducible assumption | with_reducible refine Keeps.foldl (fun t x ht => ?_) _ ?_
    | with_reducible apply toHolder_keeps

theorem recallLine_keeps {a0 : LineA} (h : Keeps s0 s) :
        Keeps s0 (recallLine a0 s) := by
  unfold recallLine
  repeat' first
    | with_reducible assumption | (extract_lets +onlyGivenNames t; clear_value t)
    | with_reducible apply sendAll_keeps | with_reducible apply putDir_keeps

theorem retryReq_keeps {a0 : Aged} {a1 : Nat} (h : Keeps s0 s) :
        Keeps s0 (retryReq a0 a1 s) := by
  unfold retryReq
  repeat' first
    | with_reducible assumption | with_reducible exact Keeps.put h | with_reducible apply Keeps.ite
    | with_reducible apply toHolder_keeps

theorem startEvict_keeps {a0 : LineA} {a1 : Block} {a2 : Bool} {a3 : Bool} (h : Keeps s0 s) :
        Keeps s0 (startEvict a0 a1 a2 a3 s) := by
  unfold startEvict
  repeat' first
    | with_reducible assumption | with_reducible apply emit_keeps | with_reducible apply putDir_keeps

theorem servePut_keeps {a0 : LineA} {a1 : Holder} {a2 : Block} {a3 : Bool} (h : Keeps s0 s) :
        Keeps s0 (servePut a0 a1 a2 a3 s) := by
  unfold servePut
  repeat' first
    | with_reducible assumption
    | (extract_lets +onlyGivenNames t; refine (fun (ht : Keeps s0 t) => ?_) ?_; clear_value t; on_goal 2 => subst t)
    | (extract_lets +onlyGivenNames t; clear_value t) | with_reducible apply Keeps.ite
    | with_reducible apply toHolder_keeps | with_reducible apply startEvict_keeps
    | with_reducible apply putDir_keeps | with_reducible split

theorem askHost_keeps {a0 : LineA} {a1 : Dir} {a2 : ReqKind} (h : Keeps s0 s) :
        Keeps s0 (askHost a0 a1 a2 s) := by
  unfold askHost
  repeat' first
    | with_reducible assumption | with_reducible apply emit_keeps | with_reducible apply putDir_keeps

theorem bumpLru_keeps (h : Keeps s0 s) :
        Keeps s0 (bumpLru s) := by
  unfold bumpLru
  repeat' first
    | with_reducible exact Keeps.put h

theorem replyReq_keeps {a0 : LineA} {a1 : ReqKind} {a2 : Holder} {a3 : Dir} (h : Keeps s0 s) :
        Keeps s0 (replyReq a0 a1 a2 a3 s) := by
  unfold replyReq
  repeat' first
    | with_reducible assumption | (extract_lets +onlyGivenNames t; clear_value t)
    | with_reducible apply toHolder_keeps | with_reducible apply putDir_keeps | with_reducible split

theorem serveReq_keeps {a0 : LineA} {a1 : ReqKind} {a2 : Holder} (h : Keeps s0 s) :
        Keeps s0 (serveReq a0 a1 a2 s) := by
  unfold serveReq
  repeat' first
    | with_reducible assumption
    | (extract_lets +onlyGivenNames t; refine (fun (ht : Keeps s0 t) => ?_) ?_; clear_value t; on_goal 2 => subst t)
    | (extract_lets +onlyGivenNames t; clear_value t) | with_reducible apply Keeps.ite
    | with_reducible apply bumpLru_keeps | with_reducible apply askHost_keeps | with_reducible apply sendAll_keeps
    | with_reducible apply replyReq_keeps | with_reducible apply putDir_keeps | with_reducible split

theorem startWrite_keeps {a0 : LineA} {a1 : ReqKind} {a2 : Block} {a3 : Who} (h : Keeps s0 s) :
        Keeps s0 (startWrite a0 a1 a2 a3 s) := by
  unfold startWrite
  repeat' first
    | with_reducible assumption | with_reducible apply emit_keeps | with_reducible apply putDir_keeps

theorem serveRingWrite_keeps {a0 : LineA} {a1 : Block} {a2 : Who} (h : Keeps s0 s) :
        Keeps s0 (serveRingWrite a0 a1 a2 s) := by
  unfold serveRingWrite
  repeat' first
    | with_reducible assumption | (extract_lets +onlyGivenNames t; clear_value t) | with_reducible apply Keeps.ite
    | with_reducible apply startWrite_keeps | with_reducible apply sendAll_keeps
    | with_reducible apply putDir_keeps

theorem serveAged_keeps {a0 : Aged} (h : Keeps s0 s) :
        Keeps s0 (serveAged a0 s) := by
  unfold serveAged
  repeat' first
    | with_reducible assumption | with_reducible apply servePut_keeps | with_reducible apply serveRingWrite_keeps
    | with_reducible apply startWrite_keeps | with_reducible apply serveReq_keeps | with_reducible split

theorem serveNew_keeps {a0 : Aged} {a1 : Nat} (h : Keeps s0 s) :
        Keeps s0 (serveNew a0 a1 s) := by
  unfold serveNew
  repeat' first
    | with_reducible assumption | with_reducible exact Keeps.put h | with_reducible apply Keeps.ite
    | with_reducible apply serveAged_keeps | with_reducible apply recallLine_keeps
    | with_reducible apply retryReq_keeps | with_reducible split

theorem snoopRsp_keeps {a0 : LineA} {a1 : String} {a2 : Option (Block × Bool)} (h : Keeps s0 s) :
        Keeps s0 (snoopRsp a0 a1 a2 s) := by
  unfold snoopRsp
  repeat' first
    | with_reducible assumption | with_reducible apply emit_keeps

theorem answerSnoop_keeps {a0 : LineA} {a1 : Dir} {a2 : Snoop} (h : Keeps s0 s) :
        KeepsP s0 (answerSnoop a0 a1 a2 s) := by
  unfold answerSnoop
  repeat' first
    | with_reducible assumption | (extract_lets +onlyGivenNames t; clear_value t) | with_reducible apply KeepsP.mk
    | with_reducible apply Keeps.ite | with_reducible apply snoopRsp_keeps | with_reducible split

theorem atHome_keeps {a0 : Instr} {a1 : State → State} (hf1 : ∀ x0, Keeps s0 x0 → Keeps s0 (a1 x0)) (h : Keeps s0 s)
    :
        KeepsO s0 (atHome a0 a1 s) := by
  unfold atHome
  repeat' first
    | with_reducible assumption | with_reducible apply KeepsO.next | with_reducible apply Keeps.ite
    | with_reducible apply taken_keeps | with_reducible apply hf1

theorem failAll_keeps (h : Keeps s0 s) :
        Keeps s0 (failAll s) := by
  unfold failAll
  repeat' first
    | with_reducible assumption | with_reducible refine Keeps.foldl (fun t x ht => ?_) _ ?_
    | with_reducible apply accessEnds_keeps

theorem stopVi_keeps {a0 : Vi} {a1 : Nat} {a2 : Bool} (h : Keeps s0 s) :
        Keeps s0 (stopVi a0 a1 a2 s) := by
  unfold stopVi
  repeat' first
    | with_reducible assumption | with_reducible apply raiseVec_keeps | with_reducible apply emit_keeps
    | with_reducible apply forget_keeps | with_reducible apply updVi_keeps

theorem domainFall_keeps {a0 : Nat} (h : Keeps s0 s) :
        Keeps s0 (domainFall a0 s) := by
  unfold domainFall
  repeat' first
    | with_reducible assumption | with_reducible exact Keeps.put h | with_reducible exact Keeps.put ht
    | (extract_lets +onlyGivenNames t; refine (fun (ht : Keeps s0 t) => ?_) ?_; clear_value t; on_goal 2 => subst t)
    | with_reducible apply Keeps.ite | with_reducible refine Keeps.foldl (fun t x ht => ?_) _ ?_
    | with_reducible apply report_keeps | with_reducible apply emit_keeps | with_reducible apply failAll_keeps
    | with_reducible apply stopVi_keeps

theorem evictBare_keeps {a0 : LineA} {a1 : Bool} {a2 : Bool} (h : Keeps s0 s) :
        Keeps s0 (evictBare a0 a1 a2 s) := by
  unfold evictBare
  repeat' first
    | with_reducible assumption | with_reducible apply startEvict_keeps | with_reducible apply tick_keeps

theorem logPoison_keeps {a0 : LineA} {a1 : Nat} (h : Keeps s0 s) :
        Keeps s0 (logPoison a0 a1 s) := by
  unfold logPoison
  repeat' first
    | with_reducible assumption
    | (extract_lets +onlyGivenNames t; refine (fun (ht : Keeps s0 t) => ?_) ?_; clear_value t; on_goal 2 => subst t)
    | with_reducible apply Keeps.ite | with_reducible apply fset_keeps

theorem settleLine_keeps {a0 : LineA} {a1 : Dir} (h : Keeps s0 s) :
        Keeps s0 (settleLine a0 a1 s) := by
  unfold settleLine
  repeat' first
    | with_reducible assumption | with_reducible apply Keeps.ite | with_reducible apply toHolder_keeps
    | with_reducible apply putDir_keeps | with_reducible apply evictBare_keeps
    | with_reducible apply logPoison_keeps | with_reducible split

theorem serveQueue_keeps {a0 : LineA} {a1 : Nat} {s : State} (h : Keeps s0 s) :
        Keeps s0 (serveQueue a0 a1 s) := by
  induction a1 generalizing a0 s with
  | zero => unfold serveQueue; exact h
  | succ _ ih =>
    unfold serveQueue
    repeat' first
      | with_reducible apply ih | with_reducible assumption | with_reducible exact Keeps.put h
      | with_reducible apply Keeps.ite | with_reducible apply serveAged_keeps | with_reducible split

theorem serveSnoop_keeps {a0 : LineA} {a1 : Snoop} (h : Keeps s0 s) :
        Keeps s0 (serveSnoop a0 a1 s) := by
  unfold serveSnoop
  repeat' first
    | with_reducible assumption | (extract_lets +onlyGivenNames t; clear_value t)
    | with_reducible apply snoopRsp_keeps | with_reducible apply sendAll_keeps | with_reducible apply putDir_keeps
    | with_reducible split

theorem wakeLine_keeps {a0 : LineA} {a1 : List Snoop} (h : Keeps s0 s) :
        Keeps s0 (wakeLine a0 a1 s) := by
  unfold wakeLine
  repeat' first
    | with_reducible assumption
    | (extract_lets +onlyGivenNames t; refine (fun (ht : Keeps s0 t) => ?_) ?_; clear_value t; on_goal 2 => subst t)
    | with_reducible apply Keeps.ite | with_reducible refine Keeps.foldl (fun t x ht => ?_) _ ?_
    | with_reducible apply serveSnoop_keeps | with_reducible apply updDir_keeps
    | with_reducible apply serveQueue_keeps

theorem toIdle_keeps {a0 : LineA} {a1 : Dir} (h : Keeps s0 s) :
        Keeps s0 (toIdle a0 a1 s) := by
  unfold toIdle
  repeat' first
    | with_reducible assumption | with_reducible apply wakeLine_keeps | with_reducible apply settleLine_keeps

theorem gathered_keeps {a0 : LineA} (h : Keeps s0 s) :
        Keeps s0 (gathered a0 s) := by
  unfold gathered
  repeat' first
    | with_reducible assumption | with_reducible apply KeepsP.mk
    | with_reducible refine KeepsP.elim ?_ ‹_ = (_, _)›
    | (extract_lets +onlyGivenNames t; refine (fun (ht : Keeps s0 t) => ?_) ?_; clear_value t; on_goal 2 => subst t)
    | (extract_lets +onlyGivenNames t; clear_value t) | with_reducible apply Keeps.ite
    | with_reducible refine KeepsP.snd (answerSnoop_keeps ?_) | with_reducible apply putDir_keeps
    | with_reducible apply replyReq_keeps | with_reducible apply toIdle_keeps
    | with_reducible apply startEvict_keeps | with_reducible apply evictBare_keeps
    | with_reducible apply startWrite_keeps | with_reducible split

theorem collect_keeps {a0 : Holder} {a1 : LineA} {a2 : Option (Block × Bool × Bool)} (h : Keeps s0 s) :
        Keeps s0 (collect a0 a1 a2 s) := by
  unfold collect
  repeat' first
    | with_reducible assumption | (extract_lets +onlyGivenNames t; clear_value t) | with_reducible apply Keeps.ite
    | with_reducible apply domainFall_keeps | with_reducible apply gathered_keeps
    | with_reducible apply putDir_keeps

theorem doneNow_keeps {a0 : Holder} {a1 : LineA} (h : Keeps s0 s) :
        Keeps s0 (doneNow a0 a1 s) := by
  unfold doneNow
  repeat' first
    | with_reducible assumption | (extract_lets +onlyGivenNames t; clear_value t) | with_reducible apply Keeps.ite
    | with_reducible apply toIdle_keeps | with_reducible apply domainFall_keeps | with_reducible split

theorem freeSlot_keeps {a0 : Eng} {a1 : Fin 4} (h : Keeps s0 s) :
        Keeps s0 (freeSlot a0 a1 s) := by
  unfold freeSlot
  repeat' first
    | with_reducible assumption | with_reducible apply updEng_keeps

theorem dropFlags_keeps {a0 : Vi} (h : Keeps s0 s) :
        Keeps s0 (dropFlags a0 s) := by
  unfold dropFlags
  repeat' first
    | with_reducible assumption | with_reducible refine Keeps.foldl (fun t x ht => ?_) _ ?_
    | with_reducible apply updVi_keeps | with_reducible apply freeSlot_keeps | with_reducible split

theorem dropRet_keeps {a0 : Who} (h : Keeps s0 s) :
        Keeps s0 (dropRet a0 s) := by
  unfold dropRet
  repeat' first
    | with_reducible exact Keeps.put h

theorem execDataresp_keeps {a0 : Holder} {a1 : LineA} {a2 : Block} {a3 : Bool} {a4 : Bool} (h : Keeps s0 s) :
        KeepsO s0 (execDataresp a0 a1 a2 a3 a4 s) := by
  unfold execDataresp
  repeat' first
    | with_reducible assumption | with_reducible apply atHome_keeps | with_reducible apply collect_keeps
    | (intro x; intros)

theorem execDone_keeps {a0 : Holder} {a1 : LineA} (h : Keeps s0 s) :
        KeepsO s0 (execDone a0 a1 s) := by
  unfold execDone
  repeat' first
    | with_reducible assumption | with_reducible apply atHome_keeps | with_reducible apply doneNow_keeps
    | (intro x; intros)

theorem holderReq_keeps {a0 : ReqKind} {a1 : Holder} {a2 : LineA} {a3 : BitVec 4} (h : Keeps s0 s) :
        Keeps s0 (holderReq a0 a1 a2 a3 s) := by
  unfold holderReq
  repeat' first
    | with_reducible assumption | (extract_lets +onlyGivenNames t; clear_value t) | with_reducible apply Keeps.ite
    | with_reducible apply toHolder_keeps | with_reducible apply serveNew_keeps | with_reducible apply retryReq_keeps
    | with_reducible split

theorem execGetcur_keeps {a0 : Holder} {a1 : LineA} {a2 : BitVec 4} (h : Keeps s0 s) :
        KeepsO s0 (execGetcur a0 a1 a2 s) := by
  unfold execGetcur
  repeat' first
    | with_reducible assumption | with_reducible apply atHome_keeps | with_reducible apply holderReq_keeps
    | (intro x; intros)

theorem execGetm_keeps {a0 : Holder} {a1 : LineA} {a2 : BitVec 4} (h : Keeps s0 s) :
        KeepsO s0 (execGetm a0 a1 a2 s) := by
  unfold execGetm
  repeat' first
    | with_reducible assumption | with_reducible apply atHome_keeps | with_reducible apply holderReq_keeps
    | (intro x; intros)

theorem execGets_keeps {a0 : Holder} {a1 : LineA} {a2 : BitVec 4} (h : Keeps s0 s) :
        KeepsO s0 (execGets a0 a1 a2 s) := by
  unfold execGets
  repeat' first
    | with_reducible assumption | with_reducible apply atHome_keeps | with_reducible apply holderReq_keeps
    | (intro x; intros)

theorem fromHost_keeps {a0 : State → State} (hf0 : ∀ x0, Keeps s0 x0 → Keeps s0 (a0 x0)) (h : Keeps s0 s) :
        KeepsO s0 (fromHost a0 s) := by
  unfold fromHost
  repeat' first
    | with_reducible assumption | with_reducible apply KeepsO.next | with_reducible apply Keeps.ite
    | with_reducible apply hf0

theorem notePoison_keeps {a0 : LineA} {a1 : Bool} (h : Keeps s0 s) :
        Keeps s0 (notePoison a0 a1 s) := by
  unfold notePoison
  repeat' first
    | with_reducible assumption | with_reducible apply Keeps.ite | with_reducible apply report_keeps
    | with_reducible apply logPoison_keeps

theorem hostGo_keeps {a0 : LineA} {a1 : Block} {a2 : Bool} (h : Keeps s0 s) :
        Keeps s0 (hostGo a0 a1 a2 s) := by
  unfold hostGo
  repeat' first
    | with_reducible assumption | (extract_lets +onlyGivenNames t; clear_value t)
    | with_reducible apply gathered_keeps | with_reducible apply notePoison_keeps
    | with_reducible apply putDir_keeps | with_reducible apply startEvict_keeps
    | with_reducible apply domainFall_keeps | with_reducible split

theorem execGoGrant_keeps {a0 : LineA} {a1 : Grant} {a2 : Block} {a3 : Bool} (h : Keeps s0 s) :
        KeepsO s0 (execGoGrant a0 a1 a2 a3 s) := by
  unfold execGoGrant
  repeat' first
    | with_reducible assumption | with_reducible apply fromHost_keeps | with_reducible apply hostGo_keeps
    | (intro x; intros)

theorem nackReq_keeps {a0 : LineA} {a1 : HomeSt} (h : Keeps s0 s) :
        Keeps s0 (nackReq a0 a1 s) := by
  unfold nackReq
  repeat' first
    | with_reducible assumption
    | (extract_lets +onlyGivenNames t; refine (fun (ht : Keeps s0 t) => ?_) ?_; clear_value t; on_goal 2 => subst t)
    | (extract_lets +onlyGivenNames t; clear_value t) | with_reducible apply Keeps.ite
    | with_reducible apply toHolder_keeps | with_reducible apply putDir_keeps | with_reducible apply toIdle_keeps
    | with_reducible split

theorem hostGoI_keeps {a0 : LineA} {a1 : Block} {a2 : Bool} (h : Keeps s0 s) :
        Keeps s0 (hostGoI a0 a1 a2 s) := by
  unfold hostGoI
  repeat' first
    | with_reducible assumption | (extract_lets +onlyGivenNames t; clear_value t) | with_reducible apply Keeps.ite
    | with_reducible apply hostGo_keeps | with_reducible apply emits_keeps | with_reducible apply putDir_keeps
    | with_reducible apply nackReq_keeps | with_reducible apply toIdle_keeps
    | with_reducible apply domainFall_keeps | with_reducible split

theorem execGoI_keeps {a0 : LineA} {a1 : Block} {a2 : Bool} (h : Keeps s0 s) :
        KeepsO s0 (execGoI a0 a1 a2 s) := by
  unfold execGoI
  repeat' first
    | with_reducible assumption | with_reducible apply fromHost_keeps | with_reducible apply hostGoI_keeps
    | (intro x; intros)

theorem execInvack_keeps {a0 : Holder} {a1 : LineA} (h : Keeps s0 s) :
        KeepsO s0 (execInvack a0 a1 s) := by
  unfold execInvack
  repeat' first
    | with_reducible assumption | with_reducible apply atHome_keeps | with_reducible apply collect_keeps
    | (intro x; intros)

theorem holderPut_keeps {a0 : Holder} {a1 : LineA} {a2 : BitVec 4} {a3 : Block} {a4 : Bool} (h : Keeps s0 s) :
        Keeps s0 (holderPut a0 a1 a2 a3 a4 s) := by
  unfold holderPut
  repeat' first
    | with_reducible assumption | with_reducible apply Keeps.ite | with_reducible apply servePut_keeps
    | with_reducible apply toHolder_keeps | with_reducible apply updDir_keeps | with_reducible apply retryReq_keeps
    | with_reducible split

theorem execPutm_keeps {a0 : Holder} {a1 : LineA} {a2 : BitVec 4} {a3 : Block} {a4 : Bool} (h : Keeps s0 s) :
        KeepsO s0 (execPutm a0 a1 a2 a3 a4 s) := by
  unfold execPutm
  repeat' first
    | with_reducible assumption | with_reducible apply atHome_keeps | with_reducible apply holderPut_keeps
    | (intro x; intros)

theorem execPuto_keeps {a0 : Holder} {a1 : LineA} {a2 : BitVec 4} {a3 : Block} {a4 : Bool} (h : Keeps s0 s) :
        KeepsO s0 (execPuto a0 a1 a2 a3 a4 s) := by
  unfold execPuto
  repeat' first
    | with_reducible assumption | with_reducible apply atHome_keeps | with_reducible apply holderPut_keeps
    | (intro x; intros)

theorem execPuts_keeps {a0 : Holder} {a1 : LineA} {a2 : BitVec 4} {a3 : Block} {a4 : Bool} (h : Keeps s0 s) :
        KeepsO s0 (execPuts a0 a1 a2 a3 a4 s) := by
  unfold execPuts
  repeat' first
    | with_reducible assumption | with_reducible apply atHome_keeps | with_reducible apply holderPut_keeps
    | (intro x; intros)

theorem hostSnoop_keeps {a0 : LineA} {a1 : Snoop} (h : Keeps s0 s) :
        Keeps s0 (hostSnoop a0 a1 s) := by
  unfold hostSnoop
  repeat' first
    | with_reducible assumption
    | (extract_lets +onlyGivenNames t; refine (fun (ht : Keeps s0 t) => ?_) ?_; clear_value t; on_goal 2 => subst t)
    | (extract_lets +onlyGivenNames t; clear_value t) | with_reducible apply Keeps.ite
    | with_reducible apply snoopRsp_keeps | with_reducible apply serveSnoop_keeps
    | with_reducible apply gathered_keeps | with_reducible apply sendAll_keeps | with_reducible apply putDir_keeps
    | with_reducible split

theorem execSnpcur_keeps {a0 : LineA} (h : Keeps s0 s) :
        KeepsO s0 (execSnpcur a0 s) := by
  unfold execSnpcur
  repeat' first
    | with_reducible assumption | with_reducible apply KeepsO.next | with_reducible apply Keeps.ite
    | with_reducible apply hostSnoop_keeps

theorem execSnpdata_keeps {a0 : LineA} (h : Keeps s0 s) :
        KeepsO s0 (execSnpdata a0 s) := by
  unfold execSnpdata
  repeat' first
    | with_reducible assumption | with_reducible apply KeepsO.next | with_reducible apply Keeps.ite
    | with_reducible apply hostSnoop_keeps

theorem execSnpinv_keeps {a0 : LineA} (h : Keeps s0 s) :
        KeepsO s0 (execSnpinv a0 s) := by
  unfold execSnpinv
  repeat' first
    | with_reducible assumption | with_reducible apply KeepsO.next | with_reducible apply Keeps.ite
    | with_reducible apply hostSnoop_keeps

theorem execViralRx_keeps (h : Keeps s0 s) :
        KeepsO s0 (execViralRx s) := by
  unfold execViralRx
  repeat' first
    | with_reducible assumption | with_reducible exact Keeps.put h | with_reducible apply KeepsO.next
    | with_reducible apply Keeps.ite | with_reducible apply domainFall_keeps

theorem freeLine_keeps {a0 : LineA} {a1 : Dir} (h : Keeps s0 s) :
        Keeps s0 (freeLine a0 a1 s) := by
  unfold freeLine
  repeat' first
    | with_reducible assumption | with_reducible apply toIdle_keeps

theorem writeFails_keeps {a0 : LineA} {a1 : Status} {a2 : Dir} (h : Keeps s0 s) :
        Keeps s0 (writeFails a0 a1 a2 s) := by
  unfold writeFails
  repeat' first
    | with_reducible assumption | with_reducible apply accessEnds_keeps

theorem homeTimeout_keeps {a0 : LineA} (h : Keeps s0 s) :
        Keeps s0 (homeTimeout a0 s) := by
  unfold homeTimeout
  repeat' first
    | with_reducible assumption | (extract_lets +onlyGivenNames t; clear_value t) | with_reducible apply Keeps.ite
    | with_reducible apply domainFall_keeps | with_reducible apply nackReq_keeps
    | with_reducible apply report_keeps | with_reducible apply logPoison_keeps
    | with_reducible apply freeLine_keeps | with_reducible apply writeFails_keeps | with_reducible split

theorem hostGoErr_keeps {a0 : LineA} (h : Keeps s0 s) :
        Keeps s0 (hostGoErr a0 s) := by
  unfold hostGoErr
  repeat' first
    | with_reducible assumption
    | (extract_lets +onlyGivenNames t; refine (fun (ht : ∀ x, Keeps s0 x → Keeps s0 (t x)) => ?_) (fun x hx => ?_); clear_value t; on_goal 2 => subst t; beta_reduce)
    | with_reducible apply ht | (extract_lets +onlyGivenNames t; clear_value t) | with_reducible apply report_keeps
    | with_reducible apply logPoison_keeps | with_reducible apply nackReq_keeps
    | with_reducible apply freeLine_keeps | with_reducible apply writeFails_keeps
    | with_reducible apply domainFall_keeps | with_reducible split

theorem lineWrite_keeps {a0 : ReqKind} {a1 : Holder} {a2 : LineA} {a3 : Block} {a4 : Who} (h : Keeps s0 s) :
        Keeps s0 (lineWrite a0 a1 a2 a3 a4 s) := by
  unfold lineWrite
  repeat' first
    | with_reducible assumption | with_reducible exact Keeps.put h
    | (extract_lets +onlyGivenNames t; clear_value t) | with_reducible apply Keeps.ite
    | with_reducible apply serveNew_keeps

theorem writePull_keeps {a0 : LineA} {a1 : Bool} (h : Keeps s0 s) :
        Keeps s0 (writePull a0 a1 s) := by
  unfold writePull
  repeat' first
    | with_reducible assumption
    | (extract_lets +onlyGivenNames t; refine (fun (ht : ∀ x, Keeps s0 (t x)) => ?_) (fun x => ?_); clear_value t; on_goal 2 => subst t; beta_reduce)
    | with_reducible apply ht
    | (extract_lets +onlyGivenNames t; refine (fun (ht : Keeps s0 t) => ?_) ?_; clear_value t; on_goal 2 => subst t)
    | (extract_lets +onlyGivenNames t; clear_value t) | with_reducible apply Keeps.ite
    | with_reducible apply emit_keeps | with_reducible apply freeLine_keeps | with_reducible apply domainFall_keeps
    | with_reducible split

theorem pullNow_keeps {a0 : LineA} (h : Keeps s0 s) :
        Keeps s0 (pullNow a0 s) := by
  unfold pullNow
  repeat' first
    | with_reducible assumption | with_reducible apply Keeps.ite | with_reducible apply writePull_keeps
    | with_reducible apply emit_keeps

theorem ringLineWrite_keeps {a0 : LineA} {a1 : Block} {a2 : Who} (h : Keeps s0 s) :
        Keeps s0 (ringLineWrite a0 a1 a2 s) := by
  unfold ringLineWrite
  repeat' first
    | with_reducible assumption | with_reducible apply lineWrite_keeps

end Sys2Proof.Laws
end

