-- ==== Sys2Proof/Laws/KeepsReset.lean ====
section
/-! SUPPORT. Keeps of the faults, reset, the rails, the islands, the boot, the host ports, the collector, the clock and the
counters. -/

namespace Sys2Proof.Laws

open Sys2Proof.Machine

variable {s0 s : State}

theorem applySet_keeps (h : Keeps s0 s) :
        Keeps s0 (applySet s) := by
  unfold applySet
  repeat' first
    | with_reducible assumption | with_reducible exact Keeps.put h
    | with_reducible refine Keeps.foldl (fun t x ht => ?_) _ ?_ | with_reducible apply fset_keeps
    | with_reducible split

theorem fenceColls_keeps {a0 : Flue} (h : Keeps s0 s) :
        Keeps s0 (fenceColls a0 s) := by
  unfold fenceColls
  repeat' first
    | with_reducible assumption | with_reducible apply Keeps.ite
    | with_reducible refine Keeps.foldl (fun t x ht => ?_) _ ?_ | with_reducible apply originate_keeps
    | with_reducible apply clearColl_keeps | with_reducible apply finish_keeps

theorem fencePort_keeps {a0 : Port} (h : Keeps s0 s) :
        Keeps s0 (fencePort a0 s) := by
  unfold fencePort
  repeat' first
    | with_reducible assumption | with_reducible apply leaveUp_keeps

theorem dropCutFlues_keeps {a0 : List Flue} (h : Keeps s0 s) :
        Keeps s0 (dropCutFlues a0 s) := by
  unfold dropCutFlues
  repeat' first
    | with_reducible assumption | with_reducible refine Keeps.foldl (fun t x ht => ?_) _ ?_
    | with_reducible apply fenceColls_keeps | with_reducible apply fencePort_keeps

theorem dropHolderLine.dropIdle_keeps {a0 : LineA} {a1 : Bool} {a2 : Dir} (h : Keeps s0 s) :
        Keeps s0 (dropHolderLine.dropIdle a0 a1 a2 s) := by
  unfold dropHolderLine.dropIdle
  repeat' first
    | with_reducible assumption | with_reducible apply Keeps.ite | with_reducible apply evictBare_keeps
    | with_reducible apply settleLine_keeps

theorem loseData_keeps {a0 : LineA} {a1 : Dir} (h : Keeps s0 s) :
        KeepsP s0 (loseData a0 a1 s) := by
  unfold loseData
  repeat' first
    | with_reducible assumption | with_reducible apply KeepsP.mk | with_reducible apply tick_keeps
    | with_reducible apply logPoison_keeps | with_reducible split

theorem dropHolderLine_keeps {a0 : Holder} {a2 : Nat × Dir} (h : Keeps s0 s) :
        Keeps s0 (dropHolderLine a0 s a2) := by
  unfold dropHolderLine
  repeat' first
    | with_reducible assumption | with_reducible apply KeepsP.ite | with_reducible apply KeepsP.mk
    | (extract_lets +onlyGivenNames t; refine (fun (ht : KeepsP s0 t) => ?_) ?_; clear_value t; on_goal 2 => subst t)
    | (extract_lets +onlyGivenNames t; clear_value t) | with_reducible apply Keeps.ite
    | with_reducible apply dropHolderLine.dropIdle_keeps | with_reducible apply toIdle_keeps
    | with_reducible apply putDir_keeps | with_reducible refine KeepsP.snd (loseData_keeps ?_)
    | with_reducible apply gathered_keeps | with_reducible exact KeepsP.snd ‹_› | with_reducible split

theorem fenceEngine_keeps {a0 : Eng} {a1 : Bool} (h : Keeps s0 s) :
        Keeps s0 (fenceEngine a0 a1 s) := by
  unfold fenceEngine
  repeat' first
    | with_reducible assumption
    | (extract_lets +onlyGivenNames t; refine (fun (ht : Keeps s0 t) => ?_) ?_; clear_value t; on_goal 2 => subst t)
    | (extract_lets +onlyGivenNames t; clear_value t) | with_reducible apply Keeps.ite
    | with_reducible refine Keeps.foldl (fun t x ht => ?_) _ ?_ | with_reducible apply updEng_keeps
    | with_reducible apply acceptOwn_keeps | with_reducible apply endIndex_keeps
    | with_reducible apply indexEnded_keeps | with_reducible apply clearCrossings_keeps

theorem fenceHolder_keeps {a0 : Kiln} (h : Keeps s0 s) :
        Keeps s0 (fenceHolder a0 s) := by
  unfold fenceHolder
  repeat' first
    | with_reducible assumption | with_reducible exact Keeps.put h
    | (extract_lets +onlyGivenNames t; refine (fun (ht : Keeps s0 t) => ?_) ?_; clear_value t; on_goal 2 => subst t)
    | (extract_lets +onlyGivenNames t; clear_value t) | with_reducible refine Keeps.foldl (fun t x ht => ?_) _ ?_
    | with_reducible apply dropHolderLine_keeps

theorem fenceMover_keeps {a0 : Mover} (h : Keeps s0 s) :
        Keeps s0 (fenceMover a0 s) := by
  unfold fenceMover
  repeat' first
    | with_reducible assumption
    | (extract_lets +onlyGivenNames t; refine (fun (ht : Keeps s0 t) => ?_) ?_; clear_value t; on_goal 2 => subst t)
    | (extract_lets +onlyGivenNames t; clear_value t) | with_reducible refine Keeps.foldl (fun t x ht => ?_) _ ?_
    | with_reducible apply finish_keeps | with_reducible apply updCtx_keeps | with_reducible apply updMv_keeps
    | with_reducible apply forget_keeps | with_reducible split

theorem fenceKiln_keeps {a0 : Kiln} (h : Keeps s0 s) :
        Keeps s0 (fenceKiln a0 s) := by
  unfold fenceKiln
  repeat' first
    | with_reducible assumption
    | (extract_lets +onlyGivenNames t; refine (fun (ht : Keeps s0 t) => ?_) ?_; clear_value t; on_goal 2 => subst t)
    | with_reducible refine Keeps.foldl (fun t x ht => ?_) _ ?_ | with_reducible apply updGather_keeps
    | with_reducible apply fenceEngine_keeps | with_reducible apply fenceMover_keeps
    | with_reducible apply clearDie_keeps | with_reducible apply fenceHolder_keeps

theorem noticeVis_keeps {a0 : List Nat} (h : Keeps s0 s) :
        Keeps s0 (noticeVis a0 s) := by
  unfold noticeVis
  repeat' first
    | with_reducible assumption | with_reducible apply Keeps.ite
    | with_reducible refine Keeps.foldl (fun t x ht => ?_) _ ?_ | with_reducible apply raiseVec_keeps

theorem finishSet_keeps (h : Keeps s0 s) :
        Keeps s0 (finishSet s) := by
  unfold finishSet
  repeat' first
    | with_reducible assumption | with_reducible exact Keeps.put ht
    | (extract_lets +onlyGivenNames t; refine (fun (ht : Keeps s0 t) => ?_) ?_; clear_value t; on_goal 2 => subst t)
    | (extract_lets +onlyGivenNames t; clear_value t) | with_reducible apply Keeps.ite
    | with_reducible apply noticeVis_keeps | with_reducible apply applySet_keeps
    | with_reducible apply notice_keeps

theorem leaveSet_keeps {a0 : CUnit → Bool} (h : Keeps s0 s) :
        Keeps s0 (leaveSet a0 s) := by
  unfold leaveSet
  repeat' first
    | with_reducible assumption | with_reducible exact Keeps.put h
    | (extract_lets +onlyGivenNames t; clear_value t) | with_reducible apply Keeps.ite
    | with_reducible apply finishSet_keeps

theorem rehop_keeps (h : Keeps s0 s) :
        Keeps s0 (rehop s) := by
  unfold rehop
  repeat' first
    | with_reducible exact Keeps.put h

theorem fence_keeps {a0 : FUnit} (h : Keeps s0 s) : Keeps s0 (fence a0 s) := by
  unfold fence
  apply Keeps.ite h
  extract_lets cut u t1 t2 t3 t4 t5
  have h1 : Keeps s0 t1 := { h with fenced := fun x hx => List.mem_append_left _ (h.fenced x hx) }
  clear_value t1
  have h2 : Keeps s0 t2 := by
    subst t2
    cases a0 <;> dsimp only <;> first
      | with_reducible exact h1
      | with_reducible exact fenceEngine_keeps h1
      | with_reducible exact fenceMover_keeps h1
      | with_reducible exact fenceKiln_keeps h1
      | with_reducible exact fencePort_keeps h1
      | with_reducible exact Keeps.foldl (fun _ _ ht => fencePort_keeps ht) _ h1
      | with_reducible exact fenceColls_keeps (Keeps.foldl (fun _ _ ht => fencePort_keeps ht) _ h1)
  clear_value t2
  have h3 : Keeps s0 t3 := Keeps.ite (rehop_keeps h2) h2
  clear_value t3
  have h4 : Keeps s0 t4 := noticeVis_keeps h3
  clear_value t4
  have h5 : Keeps s0 t5 := leaveSet_keeps (dropCutFlues_keeps h4)
  clear_value t5
  exact Keeps.ite (fatal_keeps h5) h5

theorem raise_keeps {a0 : FUnit} {a1 : Nat} {a2 : Nat} (h : Keeps s0 s) :
        Keeps s0 (raise a0 a1 a2 s) := by
  unfold raise
  repeat' first
    | with_reducible assumption
    | (extract_lets +onlyGivenNames t; refine (fun (ht : Keeps s0 t) => ?_) ?_; clear_value t; on_goal 2 => subst t)
    | (extract_lets +onlyGivenNames t; clear_value t) | with_reducible apply Keeps.ite
    | with_reducible apply report_keeps | with_reducible apply fence_keeps | with_reducible apply latchSafe_keeps

theorem afterPulse_keeps {a0 : Nat} {a1 : Nat} (h : Keeps s0 s) :
        Keeps s0 (afterPulse a0 a1 s) := by
  unfold afterPulse
  repeat' first
    | with_reducible assumption | with_reducible apply Keeps.ite | with_reducible apply tick_keeps

theorem clearFlags_keeps {a0 : Vi} (h : Keeps s0 s) :
        Keeps s0 (clearFlags a0 s) := by
  unfold clearFlags
  repeat' first
    | with_reducible assumption | with_reducible exact Keeps.put ht
    | (extract_lets +onlyGivenNames t; refine (fun (ht : Keeps s0 t) => ?_) ?_; clear_value t; on_goal 2 => subst t)
    | (extract_lets +onlyGivenNames t; clear_value t) | with_reducible refine Keeps.foldl (fun t x ht => ?_) _ ?_
    | with_reducible apply updEng_keeps

theorem writeBackQp_keeps {a0 : Grp} (h : Keeps s0 s) :
        Keeps s0 (writeBackQp a0 s) := by
  unfold writeBackQp
  repeat' first
    | with_reducible assumption | (extract_lets +onlyGivenNames t; clear_value t)
    | with_reducible apply acceptWrite_keeps

theorem closeIngest_keeps {a0 : Nat} (h : Keeps s0 s) :
        Keeps s0 (closeIngest a0 s) := by
  unfold closeIngest
  repeat' first
    | with_reducible assumption | with_reducible exact Keeps.put ht
    | (extract_lets +onlyGivenNames t; refine (fun (ht : Keeps s0 t) => ?_) ?_; clear_value t; on_goal 2 => subst t)
    | (extract_lets +onlyGivenNames t; clear_value t) | with_reducible apply updQp_keeps
    | with_reducible apply writeBackQp_keeps

theorem closeIngestOf_keeps {a0 : Vi} (h : Keeps s0 s) :
        Keeps s0 (closeIngestOf a0 s) := by
  unfold closeIngestOf
  repeat' first
    | with_reducible assumption | with_reducible refine Keeps.foldl (fun t x ht => ?_) _ ?_
    | with_reducible apply closeIngest_keeps

theorem dropIndexes_keeps {a0 : Vi} {a1 : Compl} {a3 : Eng} (h : Keeps s0 s) :
        Keeps s0 (dropIndexes a0 a1 s a3) := by
  unfold dropIndexes
  repeat' first
    | with_reducible assumption
    | (extract_lets +onlyGivenNames t; refine (fun (ht : Keeps s0 t) => ?_) ?_; clear_value t; on_goal 2 => subst t)
    | (extract_lets +onlyGivenNames t; clear_value t) | with_reducible apply Keeps.ite
    | with_reducible refine Keeps.foldl (fun t x ht => ?_) _ ?_ | with_reducible apply updEng_keeps
    | with_reducible apply lateFail_keeps | with_reducible apply endIndex_keeps
    | with_reducible apply indexEnded_keeps | with_reducible split

theorem dropMover_keeps {a0 : Vi} {a2 : Mover} (h : Keeps s0 s) :
        Keeps s0 (dropMover a0 s a2) := by
  unfold dropMover
  repeat' first
    | with_reducible assumption | with_reducible apply updMv_keeps

theorem resetColls_keeps {a0 : Vi} (h : Keeps s0 s) :
        Keeps s0 (resetColls a0 s) := by
  unfold resetColls
  repeat' first
    | with_reducible assumption | with_reducible exact Keeps.put h | with_reducible apply Keeps.ite
    | with_reducible refine Keeps.foldl (fun t x ht => ?_) _ ?_ | with_reducible apply endColl_keeps
    | with_reducible apply fcount_keeps | with_reducible apply clearColl_keeps

theorem viResetStart_keeps {a1 : Vi} (h : Keeps s0 s) :
        Keeps s0 (viResetStart s a1) := by
  unfold viResetStart
  repeat' first
    | with_reducible assumption | with_reducible exact Keeps.put ht
    | (extract_lets +onlyGivenNames t; refine (fun (ht : Keeps s0 t) => ?_) ?_; clear_value t; on_goal 2 => subst t)
    | with_reducible refine Keeps.foldl (fun t x ht => ?_) _ ?_ | with_reducible apply dropIndexes_keeps
    | with_reducible apply dropMover_keeps | with_reducible apply forget_keeps
    | with_reducible apply dropFlags_keeps | with_reducible apply closeIngestOf_keeps
    | with_reducible apply resetColls_keeps | with_reducible apply updVi_keeps

theorem clearVfEnable_keeps {a0 : HPort} (h : Keeps s0 s) :
        Keeps s0 (clearVfEnable a0 s) := by
  unfold clearVfEnable
  repeat' first
    | with_reducible assumption
    | (extract_lets +onlyGivenNames t; refine (fun (ht : Keeps s0 t) => ?_) ?_; clear_value t; on_goal 2 => subst t)
    | with_reducible apply Keeps.ite | with_reducible refine Keeps.foldl (fun t x ht => ?_) _ ?_
    | with_reducible apply updPf_keeps | with_reducible apply viResetStart_keeps

theorem clockLost_keeps (h : Keeps s0 s) :
        Keeps s0 (clockLost s) := by
  unfold clockLost
  repeat' first
    | with_reducible exact Keeps.put h

theorem closeFabricOf_keeps {a0 : Vi} (h : Keeps s0 s) :
        Keeps s0 (closeFabricOf a0 s) := by
  unfold closeFabricOf
  repeat' first
    | with_reducible exact Keeps.put h

theorem drainAll_keeps (h : Keeps s0 s) :
        Keeps s0 (drainAll s) := by
  unfold drainAll
  repeat' first
    | with_reducible assumption | with_reducible exact Keeps.put ht
    | (extract_lets +onlyGivenNames t; refine (fun (ht : Keeps s0 t) => ?_) ?_; clear_value t; on_goal 2 => subst t)
    | with_reducible refine Keeps.foldl (fun t x ht => ?_) _ ?_ | with_reducible apply acceptWrite_keeps
    | with_reducible split

theorem resetIslands_keeps (h : Keeps s0 s) : Keeps s0 (resetIslands s) :=
  ⟨⟨h.pending, h.fuses, h.out, fun _ => mwf_nil _, fun _ => mwf_nil _, h.recLen, h.recSealed⟩, h.boot, .inr rfl,
   h.generation, h.fenced⟩

theorem resetFor_keeps {a0 : Loss} (h : Keeps s0 s) : Keeps s0 (resetFor a0 s) :=
  ⟨⟨h.pending, h.fuses, h.out, h.mem, h.poison, h.recLen, h.recSealed⟩, h.boot, .inr rfl, h.generation, h.fenced⟩

theorem writeRec_keeps {a0 : Loss} (h : Keeps s0 s) :
        Keeps s0 (writeRec a0 s) := by
  unfold writeRec
  repeat' first
    | with_reducible assumption | with_reducible apply tick_keeps | with_reducible apply pushRec_keeps

theorem deviceReset_keeps {a0 : Loss} (h : Keeps s0 s) : Keeps s0 (deviceReset a0 s) := by
  unfold deviceReset
  apply Keeps.ite h
  apply Keeps.ite (Keeps.ite h (resetFor_keeps h))
  extract_lets t keep k
  have ht : Keeps s0 t := writeRec_keeps h
  clear_value t
  have hk : Keeps s0 k := Keeps.ite (drainAll_keeps ht) { ht with mem := fun _ => mwf_nil _, poison := fun _ => mwf_nil _ }
  clear_value k
  exact Keeps.put (resetFor_keeps hk)

theorem drainVi_keeps {a0 : Vi} (h : Keeps s0 s) :
        Keeps s0 (drainVi a0 s) := by
  unfold drainVi
  repeat' first
    | with_reducible assumption
    | (extract_lets +onlyGivenNames t; refine (fun (ht : Keeps s0 t) => ?_) ?_; clear_value t; on_goal 2 => subst t)
    | with_reducible refine Keeps.foldl (fun t x ht => ?_) _ ?_ | with_reducible apply flushSb_keeps
    | with_reducible apply acceptThose_keeps

theorem strap1_keeps {a0 : Option Bool} (h : Keeps s0 s) :
        Keeps s0 (strap1 a0 s) := by
  unfold strap1
  repeat' first
    | with_reducible assumption | with_reducible apply Keeps.ite | with_reducible apply tick_keeps

theorem sampleStraps_keeps {a0 : Straps} (h : Keeps s0 s) :
        Keeps s0 (sampleStraps a0 s) := by
  unfold sampleStraps
  repeat' first
    | with_reducible assumption
    | (extract_lets +onlyGivenNames t; refine (fun (ht : Keeps s0 t) => ?_) ?_; clear_value t; on_goal 2 => subst t)
    | with_reducible apply strap1_keeps | with_reducible apply updBoard_keeps

theorem snapNow_keeps (h : Keeps s0 s) :
        Keeps s0 (snapNow s) := by
  unfold snapNow
  repeat' first
    | with_reducible assumption | with_reducible apply updRtc_keeps

theorem port1Reset_keeps (h : Keeps s0 s) :
        Keeps s0 (port1Reset s) := by
  unfold port1Reset
  repeat' first
    | with_reducible assumption | with_reducible exact Keeps.put ht
    | (extract_lets +onlyGivenNames t; refine (fun (ht : Keeps s0 t) => ?_) ?_; clear_value t; on_goal 2 => subst t)
    | with_reducible refine Keeps.foldl (fun t x ht => ?_) _ ?_ | with_reducible apply viResetStart_keeps
    | with_reducible apply updHp_keeps

theorem port1Trigger_keeps (h : Keeps s0 s) :
        Keeps s0 (port1Trigger s) := by
  unfold port1Trigger
  repeat' first
    | with_reducible assumption | with_reducible apply Keeps.ite | with_reducible apply updHp_keeps
    | with_reducible apply port1Reset_keeps

theorem linkLoss_keeps {a0 : HPort} (h : Keeps s0 s) :
        Keeps s0 (linkLoss a0 s) := by
  unfold linkLoss
  repeat' first
    | with_reducible assumption | with_reducible apply Keeps.ite | with_reducible apply port1Trigger_keeps
    | with_reducible apply updHp_keeps | with_reducible apply deviceReset_keeps

theorem execHostLinkLoss_keeps {a0 : HPort} (h : Keeps s0 s) :
        KeepsO s0 (execHostLinkLoss a0 s) := by
  unfold execHostLinkLoss
  repeat' first
    | with_reducible assumption | with_reducible apply KeepsO.next | with_reducible apply Keeps.ite
    | with_reducible apply linkLoss_keeps

theorem execHotReset_keeps {a0 : HPort} (h : Keeps s0 s) :
        KeepsO s0 (execHotReset a0 s) := by
  unfold execHotReset
  repeat' first
    | with_reducible assumption | with_reducible apply KeepsO.next | with_reducible apply Keeps.ite
    | with_reducible apply port1Trigger_keeps | with_reducible apply updHp_keeps
    | with_reducible apply deviceReset_keeps

theorem execNumvfsWrite_keeps {a0 : HPort} {a1 : BitVec 16} (h : Keeps s0 s) :
        KeepsO s0 (execNumvfsWrite a0 a1 s) := by
  unfold execNumvfsWrite
  repeat' first
    | with_reducible assumption | with_reducible apply KeepsO.next | with_reducible apply Keeps.ite
    | with_reducible apply updPf_keeps

theorem execPerst0Assert_keeps {a0 : Nat} (h : Keeps s0 s) :
        KeepsO s0 (execPerst0Assert a0 s) := by
  unfold execPerst0Assert
  repeat' first
    | with_reducible assumption
    | (extract_lets +onlyGivenNames t; refine (fun (ht : Keeps s0 t) => ?_) ?_; clear_value t; on_goal 2 => subst t)
    | (extract_lets +onlyGivenNames t; clear_value t) | with_reducible apply KeepsO.next
    | with_reducible apply KeepsO.ite | with_reducible apply afterPulse_keeps | with_reducible apply updHp_keeps
    | with_reducible apply updBoard_keeps | with_reducible apply deviceReset_keeps

theorem execPerst1Assert_keeps {a0 : Nat} (h : Keeps s0 s) :
        KeepsO s0 (execPerst1Assert a0 s) := by
  unfold execPerst1Assert
  repeat' first
    | with_reducible assumption
    | (extract_lets +onlyGivenNames t; refine (fun (ht : Keeps s0 t) => ?_) ?_; clear_value t; on_goal 2 => subst t)
    | (extract_lets +onlyGivenNames t; clear_value t) | with_reducible apply KeepsO.next
    | with_reducible apply Keeps.ite | with_reducible apply afterPulse_keeps
    | with_reducible apply port1Trigger_keeps | with_reducible apply updBoard_keeps

theorem execPfFlr_keeps {a0 : HPort} (h : Keeps s0 s) :
        KeepsO s0 (execPfFlr a0 s) := by
  unfold execPfFlr
  repeat' first
    | with_reducible assumption | with_reducible apply KeepsO.next | with_reducible apply Keeps.ite
    | with_reducible apply port1Trigger_keeps | with_reducible apply deviceReset_keeps

theorem execPowerDown_keeps (h : Keeps s0 s) :
        KeepsO s0 (execPowerDown s) := by
  unfold execPowerDown
  repeat' first
    | with_reducible exact Keeps.put h | (extract_lets +onlyGivenNames t; clear_value t)
    | with_reducible apply KeepsO.next

theorem execSuppliesLost_keeps (h : Keeps s0 s) :
        KeepsO s0 (execSuppliesLost s) := by
  unfold execSuppliesLost
  repeat' first
    | with_reducible assumption | with_reducible apply KeepsO.next | with_reducible apply clockLost_keeps

theorem execTestReset_keeps (h : Keeps s0 s) :
        KeepsO s0 (execTestReset s) := by
  unfold execTestReset
  repeat' first
    | with_reducible exact Keeps.put h | with_reducible apply KeepsO.next

theorem execVfEnableClear_keeps {a0 : HPort} (h : Keeps s0 s) :
        KeepsO s0 (execVfEnableClear a0 s) := by
  unfold execVfEnableClear
  repeat' first
    | with_reducible assumption | with_reducible apply KeepsO.next | with_reducible apply Keeps.ite
    | with_reducible apply clearVfEnable_keeps

theorem execVfFlr_keeps {a0 : Vi} (h : Keeps s0 s) :
        KeepsO s0 (execVfFlr a0 s) := by
  unfold execVfFlr
  repeat' first
    | with_reducible assumption | with_reducible apply KeepsO.next | with_reducible exact KeepsO.refused
    | with_reducible apply Keeps.ite | with_reducible apply KeepsO.ite | with_reducible apply viResetStart_keeps

theorem viRegsReset_keeps {a0 : Vi} (h : Keeps s0 s) :
        Keeps s0 (viRegsReset a0 s) := by
  unfold viRegsReset
  repeat' first
    | with_reducible exact Keeps.put h

theorem viResetEnd_keeps {a1 : Vi} (h : Keeps s0 s) :
        Keeps s0 (viResetEnd s a1) := by
  unfold viResetEnd
  repeat' first
    | with_reducible assumption
    | (extract_lets +onlyGivenNames t; refine (fun (ht : Keeps s0 t) => ?_) ?_; clear_value t; on_goal 2 => subst t)
    | with_reducible apply Keeps.ite | with_reducible apply drainVi_keeps
    | with_reducible apply closeFabricOf_keeps | with_reducible apply clearFlags_keeps
    | with_reducible apply updFn_keeps | with_reducible apply updVi_keeps | with_reducible apply viRegsReset_keeps

theorem execViResetDone_keeps {a0 : ResetSet} (h : Keeps s0 s) :
        KeepsO s0 (execViResetDone a0 s) := by
  unfold execViResetDone
  repeat' first
    | with_reducible assumption | with_reducible apply KeepsO.next
    | with_reducible refine Keeps.foldl (fun t x ht => ?_) _ ?_ | with_reducible apply viResetEnd_keeps
    | with_reducible apply updBoard_keeps | with_reducible split

theorem warmReset_keeps (h : Keeps s0 s) :
        Keeps s0 (warmReset s) := by
  unfold warmReset
  repeat' first
    | with_reducible assumption | with_reducible apply Keeps.ite | with_reducible apply deviceReset_keeps

theorem execWarmReset_keeps {a0 : Vi} (h : Keeps s0 s) :
        KeepsO s0 (execWarmReset a0 s) := by
  unfold execWarmReset
  repeat' first
    | with_reducible assumption | with_reducible apply KeepsO.next | with_reducible apply Keeps.ite
    | with_reducible apply warmReset_keeps

theorem setClock_keeps {a1 : Eng} (h : Keeps s0 s) :
        Keeps s0 (setClock s a1) := by
  unfold setClock
  repeat' first
    | with_reducible assumption | (extract_lets +onlyGivenNames t; clear_value t)
    | with_reducible apply updEng_keeps

theorem settleDie_keeps {a1 : Kiln} (h : Keeps s0 s) :
        Keeps s0 (settleDie s a1) := by
  unfold settleDie
  repeat' first
    | with_reducible assumption
    | (extract_lets +onlyGivenNames t; refine (fun (ht : Keeps s0 t) => ?_) ?_; clear_value t; on_goal 2 => subst t)
    | (extract_lets +onlyGivenNames t; clear_value t) | with_reducible apply Keeps.ite
    | with_reducible refine Keeps.foldl (fun t x ht => ?_) _ ?_ | with_reducible apply setClock_keeps
    | with_reducible apply emit_keeps | with_reducible apply updRail_keeps

theorem stepCeiling_keeps {a1 : Nat} {a2 : Kiln} (h : Keeps s0 s) :
        Keeps s0 (stepCeiling s a1 a2) := by
  unfold stepCeiling
  repeat' first
    | with_reducible assumption | (extract_lets +onlyGivenNames t; clear_value t)
    | with_reducible apply updRail_keeps

theorem damperStep_keeps {a0 : Nat} (h : Keeps s0 s) :
        Keeps s0 (damperStep a0 s) := by
  unfold damperStep
  repeat' first
    | with_reducible assumption | with_reducible exact Keeps.put ht
    | (extract_lets +onlyGivenNames t; refine (fun (ht : Keeps s0 t) => ?_) ?_; clear_value t; on_goal 2 => subst t)
    | (extract_lets +onlyGivenNames t; clear_value t) | with_reducible apply Keeps.ite
    | with_reducible refine Keeps.foldl (fun t x ht => ?_) _ ?_ | with_reducible apply stepCeiling_keeps
    | with_reducible apply updRail_keeps | with_reducible apply settleDie_keeps

theorem execClockChange_keeps {a0 : Eng} (h : Keeps s0 s) :
        KeepsO s0 (execClockChange a0 s) := by
  unfold execClockChange
  repeat' first
    | with_reducible assumption | with_reducible apply KeepsO.next | with_reducible apply Keeps.ite
    | with_reducible apply setClock_keeps

theorem openWindow_keeps {a1 : Kiln} (h : Keeps s0 s) :
        Keeps s0 (openWindow s a1) := by
  unfold openWindow
  repeat' first
    | with_reducible assumption | with_reducible apply updRail_keeps

theorem nextWindow_keeps (h : Keeps s0 s) :
        Keeps s0 (nextWindow s) := by
  unfold nextWindow
  repeat' first
    | with_reducible assumption | with_reducible exact Keeps.put ht
    | (extract_lets +onlyGivenNames t; refine (fun (ht : Keeps s0 t) => ?_) ?_; clear_value t; on_goal 2 => subst t)
    | with_reducible refine Keeps.foldl (fun t x ht => ?_) _ ?_ | with_reducible apply openWindow_keeps

theorem execDamperWindowEnd_keeps {a0 : Nat} (h : Keeps s0 s) :
        KeepsO s0 (execDamperWindowEnd a0 s) := by
  unfold execDamperWindowEnd
  repeat' first
    | with_reducible assumption | with_reducible apply KeepsO.next | with_reducible apply Keeps.ite
    | with_reducible apply nextWindow_keeps | with_reducible apply damperStep_keeps

theorem execRailOut_keeps {a0 : Rail} {a1 : Nat} {a2 : Byte} (h : Keeps s0 s) :
        KeepsO s0 (execRailOut a0 a1 a2 s) := by
  unfold execRailOut
  repeat' first
    | with_reducible assumption | with_reducible apply KeepsO.next | with_reducible apply Keeps.ite
    | with_reducible apply raise_keeps | with_reducible split

theorem execRailPowerGood_keeps {a0 : Kiln} (h : Keeps s0 s) :
        KeepsO s0 (execRailPowerGood a0 s) := by
  unfold execRailPowerGood
  repeat' first
    | with_reducible assumption | with_reducible apply KeepsO.next | with_reducible apply Keeps.ite
    | with_reducible apply settleDie_keeps | with_reducible apply updRail_keeps | with_reducible split

theorem oneReading_keeps {a1 : Fin 78 × ℤ} (h : Keeps s0 s) :
        Keeps s0 (oneReading s a1) := by
  unfold oneReading
  repeat' first
    | with_reducible assumption | with_reducible exact Keeps.put h | with_reducible apply Keeps.ite
    | with_reducible refine Keeps.foldl (fun t x ht => ?_) _ ?_ | with_reducible apply updRail_keeps
    | with_reducible apply raise_keeps | with_reducible apply tick_keeps

theorem execThermalSample_keeps {a0 : List (Fin 78 × ℤ)} (h : Keeps s0 s) :
        KeepsO s0 (execThermalSample a0 s) := by
  unfold execThermalSample
  repeat' first
    | with_reducible assumption
    | (extract_lets +onlyGivenNames t; refine (fun (ht : Keeps s0 t) => ?_) ?_; clear_value t; on_goal 2 => subst t)
    | with_reducible apply KeepsO.next | with_reducible apply Keeps.ite | with_reducible apply KeepsO.ite
    | with_reducible refine Keeps.foldl (fun t x ht => ?_) _ ?_ | with_reducible apply oneReading_keeps
    | with_reducible apply updBoard_keeps | with_reducible apply settleDie_keeps

theorem execVsetAlert_keeps {a0 : Kiln} {a1 : Byte} (h : Keeps s0 s) :
        KeepsO s0 (execVsetAlert a0 a1 s) := by
  unfold execVsetAlert
  repeat' first
    | with_reducible assumption | with_reducible apply KeepsO.next | with_reducible apply Keeps.ite
    | with_reducible apply raise_keeps

theorem execVsetPgTimeout_keeps {a0 : Kiln} (h : Keeps s0 s) :
        KeepsO s0 (execVsetPgTimeout a0 s) := by
  unfold execVsetPgTimeout
  repeat' first
    | with_reducible assumption | with_reducible apply KeepsO.next | with_reducible apply Keeps.ite
    | with_reducible apply raise_keeps | with_reducible apply updRail_keeps

theorem cutKilns_keeps (h : Keeps s0 s) :
        Keeps s0 (cutKilns s) := by
  unfold cutKilns
  repeat' first
    | with_reducible assumption | (extract_lets +onlyGivenNames t; clear_value t)
    | with_reducible refine Keeps.foldl (fun t x ht => ?_) _ ?_ | with_reducible apply raise_keeps

theorem dropCrossings_keeps {a0 : Island} (h : Keeps s0 s) :
        Keeps s0 (dropCrossings a0 s) := by
  unfold dropCrossings
  repeat' first
    | with_reducible assumption | (extract_lets +onlyGivenNames t; clear_value t)
    | with_reducible refine Keeps.foldl (fun t x ht => ?_) _ ?_ | with_reducible apply accessEnds_keeps
    | with_reducible apply clearCrossings_keeps | with_reducible split

theorem execDetourInstall_keeps {a0 : Link} (h : Keeps s0 s) :
        KeepsO s0 (execDetourInstall a0 s) := by
  unfold execDetourInstall
  repeat' first
    | with_reducible assumption | with_reducible exact Keeps.put h | with_reducible apply KeepsO.next
    | with_reducible exact KeepsO.refused | with_reducible apply Keeps.ite | with_reducible apply KeepsO.ite
    | with_reducible apply cutKilns_keeps

theorem execEzbenErrorWindowEnd_keeps {a0 : Link} (h : Keeps s0 s) :
        KeepsO s0 (execEzbenErrorWindowEnd a0 s) := by
  unfold execEzbenErrorWindowEnd
  repeat' first
    | with_reducible assumption | with_reducible apply KeepsO.next | with_reducible exact KeepsO.refused
    | with_reducible apply KeepsO.ite | with_reducible apply updLanes_keeps

theorem laneFail_keeps {a0 : Lane} (h : Keeps s0 s) :
        Keeps s0 (laneFail a0 s) := by
  unfold laneFail
  repeat' first
    | with_reducible assumption | (extract_lets +onlyGivenNames t; clear_value t) | with_reducible apply Keeps.ite
    | with_reducible apply report_keeps | with_reducible apply updLanes_keeps | with_reducible apply updWire_keeps
    | with_reducible apply raise_keeps

theorem execEzbenPhaseTimeout_keeps {a0 : Lane} (h : Keeps s0 s) :
        KeepsO s0 (execEzbenPhaseTimeout a0 s) := by
  unfold execEzbenPhaseTimeout
  repeat' first
    | with_reducible assumption | with_reducible apply KeepsO.next | with_reducible exact KeepsO.refused
    | with_reducible apply Keeps.ite | with_reducible apply KeepsO.ite | with_reducible apply laneFail_keeps

theorem execFlitAckErr_keeps {a0 : Lane} {a1 : Nat} (h : Keeps s0 s) :
        KeepsO s0 (execFlitAckErr a0 a1 s) := by
  unfold execFlitAckErr
  repeat' first
    | with_reducible assumption
    | (extract_lets +onlyGivenNames t; refine (fun (ht : Keeps s0 t) => ?_) ?_; clear_value t; on_goal 2 => subst t)
    | (extract_lets +onlyGivenNames t; clear_value t) | with_reducible apply KeepsO.next
    | with_reducible exact KeepsO.refused | with_reducible apply Keeps.ite | with_reducible apply KeepsO.ite
    | with_reducible apply updLanes_keeps | with_reducible apply laneFail_keeps | with_reducible apply emit_keeps
    | with_reducible apply updWire_keeps

theorem unpark_keeps {a0 : Island} (h : Keeps s0 s) :
        Keeps s0 (unpark a0 s) := by
  unfold unpark
  repeat' first
    | with_reducible exact Keeps.put h

theorem resetIsland_keeps {a0 : Island} (h : Keeps s0 s) : Keeps s0 (resetIsland a0 s) := by
  unfold resetIsland
  extract_lets t x u
  have ht : Keeps s0 t := dropCrossings_keeps h
  clear_value t
  have hx : Keeps s0 x := failAll_keeps ht
  clear_value x
  have hu : Keeps s0 u := by
    subst u
    cases a0 <;> first
      | with_reducible exact ht
      | with_reducible exact fenceEngine_keeps ht
      | with_reducible exact fenceHolder_keeps (Keeps.foldl (fun _ _ k => fenceMover_keeps k) _ (updGather_keeps ht))
      | with_reducible exact fenceColls_keeps ht
      | with_reducible exact leaveUp_keeps ht
      | with_reducible exact updHp_keeps ht
      | with_reducible exact Keeps.put hx
  clear_value u
  exact unpark_keeps (Keeps.put hu)

theorem execIslandReset_keeps {a0 : Island} (h : Keeps s0 s) :
        KeepsO s0 (execIslandReset a0 s) := by
  unfold execIslandReset
  repeat' first
    | with_reducible assumption | with_reducible apply KeepsO.next | with_reducible apply Keeps.ite
    | with_reducible apply resetIsland_keeps

theorem execPllLockLoss_keeps {a0 : Island} (h : Keeps s0 s) :
        KeepsO s0 (execPllLockLoss a0 s) := by
  unfold execPllLockLoss
  repeat' first
    | with_reducible assumption | with_reducible exact Keeps.put h | with_reducible apply KeepsO.next
    | with_reducible apply Keeps.ite

theorem stopIsland_keeps {a0 : Island} {a1 : Nat} {a2 : Nat} (h : Keeps s0 s) :
        Keeps s0 (stopIsland a0 a1 a2 s) := by
  unfold stopIsland
  repeat' first
    | with_reducible assumption | with_reducible apply linkLoss_keeps | with_reducible apply report_keeps
    | with_reducible apply raise_keeps | with_reducible apply latchSafe_keeps | with_reducible split

theorem execPllLost_keeps {a0 : Island} (h : Keeps s0 s) :
        KeepsO s0 (execPllLost a0 s) := by
  unfold execPllLost
  repeat' first
    | with_reducible assumption | with_reducible exact Keeps.put ht
    | (extract_lets +onlyGivenNames t; refine (fun (ht : Keeps s0 t) => ?_) ?_; clear_value t; on_goal 2 => subst t)
    | (extract_lets +onlyGivenNames t; clear_value t) | with_reducible apply KeepsO.next
    | with_reducible apply Keeps.ite | with_reducible apply unpark_keeps | with_reducible apply stopIsland_keeps

theorem execPllRelock_keeps {a0 : Island} (h : Keeps s0 s) :
        KeepsO s0 (execPllRelock a0 s) := by
  unfold execPllRelock
  repeat' first
    | with_reducible assumption | with_reducible apply KeepsO.next | with_reducible apply Keeps.ite
    | with_reducible apply unpark_keeps

theorem execRefclkLost_keeps {a0 : Flue} (h : Keeps s0 s) :
        KeepsO s0 (execRefclkLost a0 s) := by
  unfold execRefclkLost
  repeat' first
    | with_reducible assumption | with_reducible apply KeepsO.next | with_reducible apply Keeps.ite
    | with_reducible apply raise_keeps

theorem renameStall_keeps {a0 : Island} {a1 : Nat} (h : Keeps s0 s) :
        Keeps s0 (renameStall a0 a1 s) := by
  unfold renameStall
  repeat' first
    | with_reducible assumption | with_reducible apply updFlt_keeps

theorem execUnitStall_keeps {a0 : Island} {a1 : FUnit} (h : Keeps s0 s) :
        KeepsO s0 (execUnitStall a0 a1 s) := by
  unfold execUnitStall
  repeat' first
    | with_reducible assumption | with_reducible exact Keeps.put h | with_reducible apply KeepsO.next
    | with_reducible apply Keeps.ite | with_reducible apply renameStall_keeps
    | with_reducible apply stopIsland_keeps | with_reducible apply unpark_keeps

theorem adopt_keeps (h : Keeps s0 s) :
        Keeps s0 (adopt s) := by
  unfold adopt
  repeat' first
    | with_reducible assumption | with_reducible exact Keeps.put h | with_reducible exact Keeps.put ht
    | (extract_lets +onlyGivenNames t; refine (fun (ht : Keeps s0 t) => ?_) ?_; clear_value t; on_goal 2 => subst t)
    | (extract_lets +onlyGivenNames t; clear_value t) | with_reducible apply Keeps.ite
    | with_reducible apply updRec0_keeps | with_reducible split

theorem bootCtlFields_keeps {a0 : U64} (h : Keeps s0 s) :
        Keeps s0 (bootCtlFields a0 s) := by
  unfold bootCtlFields
  repeat' first
    | with_reducible assumption
    | (extract_lets +onlyGivenNames t; refine (fun (ht : Keeps s0 t) => ?_) ?_; clear_value t; on_goal 2 => subst t)
    | with_reducible apply Keeps.ite | with_reducible apply fset_keeps

theorem fillMemory_keeps (h : Keeps s0 s) : Keeps s0 (fillMemory s) := by
  unfold fillMemory
  extract_lets t b
  have ht : Keeps s0 t := by
    subst t
    split
    · exact updRec0_keeps _ h
    · exact h
  clear_value t
  exact { ht with mem := fun _ => mwf_nil _, poison := fun _ => mwf_nil _ }

theorem goNow_keeps (h : Keeps s0 s) :
        Keeps s0 (goNow s) := by
  unfold goNow
  repeat' first
    | with_reducible assumption | with_reducible apply Keeps.ite | with_reducible apply adopt_keeps
    | with_reducible apply fillMemory_keeps

theorem execGo_keeps {a0 : Vi} {a1 : U64} (h : Keeps s0 s) :
        KeepsO s0 (execGo a0 a1 s) := by
  unfold execGo
  repeat' first
    | with_reducible assumption
    | (extract_lets +onlyGivenNames t; refine (fun (ht : Keeps s0 t) => ?_) ?_; clear_value t; on_goal 2 => subst t)
    | with_reducible apply KeepsO.next | with_reducible apply Keeps.ite | with_reducible apply bootCtlFields_keeps
    | with_reducible apply warmReset_keeps | with_reducible apply goNow_keeps

theorem execImageCheck_keeps {a0 : Fin 2} {a1 : Image} (h : Keeps s0 s) :
        KeepsO s0 (execImageCheck a0 a1 s) := by
  unfold execImageCheck
  repeat' first
    | with_reducible assumption | with_reducible exact Keeps.put h | with_reducible exact Keeps.put ht
    | (extract_lets +onlyGivenNames t; refine (fun (ht : Keeps s0 t) => ?_) ?_; clear_value t; on_goal 2 => subst t)
    | with_reducible apply KeepsO.next | with_reducible apply Keeps.ite | with_reducible apply report_keeps
    | with_reducible apply raise_keeps

theorem selfTestFail_keeps {a0 : TestFail} (h : Keeps s0 s) : Keeps s0 (selfTestFail s a0) := by
  obtain ⟨u, n⟩ := a0
  have hr : ∀ c, Keeps s0 (raise u c n.toNat s) := fun c => raise_keeps h
  unfold selfTestFail
  cases u <;> first
    | with_reducible exact h
    | with_reducible exact hr _

theorem stageNow_keeps (h : Keeps s0 s) :
        Keeps s0 (stageNow s) := by
  unfold stageNow
  repeat' first
    | with_reducible assumption | with_reducible exact Keeps.put h | with_reducible apply Keeps.ite

theorem execStage_keeps {a0 : Vi} {a1 : U64} {a2 : Bool} (h : Keeps s0 s) :
        KeepsO s0 (execStage a0 a1 a2 s) := by
  unfold execStage
  repeat' first
    | with_reducible assumption
    | (extract_lets +onlyGivenNames t; refine (fun (ht : Keeps s0 t) => ?_) ?_; clear_value t; on_goal 2 => subst t)
    | with_reducible apply KeepsO.next | with_reducible apply Keeps.ite | with_reducible apply bootCtlFields_keeps
    | with_reducible apply warmReset_keeps | with_reducible apply stageNow_keeps

theorem execStageSectorDone_keeps {a0 : Bool} {a1 : Bool} {a2 : BitVec 24} (h : Keeps s0 s) :
        KeepsO s0 (execStageSectorDone a0 a1 a2 s) := by
  unfold execStageSectorDone
  repeat' first
    | with_reducible assumption | with_reducible exact Keeps.put h | with_reducible exact Keeps.put ht
    | (extract_lets +onlyGivenNames t; refine (fun (ht : Keeps s0 t) => ?_) ?_; clear_value t; on_goal 2 => subst t)
    | (extract_lets +onlyGivenNames t; clear_value t) | with_reducible apply KeepsO.next
    | with_reducible apply Keeps.ite | with_reducible apply emit_keeps | with_reducible apply report_keeps

theorem stageCheck_keeps (h : Keeps s0 s) :
        Keeps s0 (stageCheck s) := by
  unfold stageCheck
  repeat' first
    | with_reducible assumption | with_reducible exact Keeps.put h | with_reducible apply Keeps.ite
    | with_reducible split

theorem execBusMasterDisable_keeps {a0 : Vi} (h : Keeps s0 s) :
        KeepsO s0 (execBusMasterDisable a0 s) := by
  unfold execBusMasterDisable
  repeat' first
    | with_reducible assumption | with_reducible apply KeepsO.next | with_reducible apply Keeps.ite
    | with_reducible apply updFn_keeps

theorem execD3hotEntry_keeps {a0 : HPort} (h : Keeps s0 s) :
        KeepsO s0 (execD3hotEntry a0 s) := by
  unfold execD3hotEntry
  repeat' first
    | with_reducible assumption | with_reducible apply KeepsO.next | with_reducible apply Keeps.ite
    | with_reducible apply updPf_keeps

theorem execHoldoffExpiry_keeps {a0 : Vi} (h : Keeps s0 s) :
        KeepsO s0 (execHoldoffExpiry a0 s) := by
  unfold execHoldoffExpiry
  repeat' first
    | with_reducible assumption
    | (extract_lets +onlyGivenNames t; refine (fun (ht : Keeps s0 t) => ?_) ?_; clear_value t; on_goal 2 => subst t)
    | (extract_lets +onlyGivenNames t; clear_value t) | with_reducible apply KeepsO.next
    | with_reducible apply Keeps.ite | with_reducible apply updFn_keeps | with_reducible apply raiseVec_keeps

theorem execHostLinkUp_keeps {a0 : HPort} {a1 : Nat} {a2 : Nat} {a3 : Bool} (h : Keeps s0 s) :
        KeepsO s0 (execHostLinkUp a0 a1 a2 a3 s) := by
  unfold execHostLinkUp
  repeat' first
    | with_reducible assumption | with_reducible exact Keeps.put ht
    | (extract_lets +onlyGivenNames t; refine (fun (ht : Keeps s0 t) => ?_) ?_; clear_value t; on_goal 2 => subst t)
    | (extract_lets +onlyGivenNames t; clear_value t) | with_reducible apply KeepsO.next
    | with_reducible exact KeepsO.refused | with_reducible apply Keeps.ite | with_reducible apply KeepsO.ite
    | with_reducible apply updBoard_keeps | with_reducible apply updHp_keeps | with_reducible apply report_keeps

theorem execHostPoisonedWrite_keeps {a0 : Vi} (h : Keeps s0 s) :
        KeepsO s0 (execHostPoisonedWrite a0 s) := by
  unfold execHostPoisonedWrite
  repeat' first
    | with_reducible assumption | with_reducible exact Keeps.put h | with_reducible apply KeepsO.next
    | with_reducible apply Keeps.ite | with_reducible apply emit_keeps

theorem flushPort_keeps {a0 : HPort} (h : Keeps s0 s) :
        Keeps s0 (flushPort a0 s) := by
  unfold flushPort
  repeat' first
    | with_reducible assumption | with_reducible apply Keeps.ite
    | with_reducible refine Keeps.foldl (fun t x ht => ?_) _ ?_ | with_reducible apply flushVec_keeps

theorem execLinkRecovery_keeps {a0 : HPort} {a1 : Bool} (h : Keeps s0 s) :
        KeepsO s0 (execLinkRecovery a0 a1 s) := by
  unfold execLinkRecovery
  repeat' first
    | with_reducible assumption
    | (extract_lets +onlyGivenNames t; refine (fun (ht : Keeps s0 t) => ?_) ?_; clear_value t; on_goal 2 => subst t)
    | with_reducible apply KeepsO.next | with_reducible apply Keeps.ite | with_reducible apply updHp_keeps
    | with_reducible apply flushPort_keeps

theorem execMsixUnmask_keeps {a0 : Vi} {a1 : Fin 4} (h : Keeps s0 s) :
        KeepsO s0 (execMsixUnmask a0 a1 s) := by
  unfold execMsixUnmask
  repeat' first
    | with_reducible assumption | with_reducible apply KeepsO.next | with_reducible apply Keeps.ite
    | with_reducible apply flushVec_keeps | with_reducible apply updFn_keeps

theorem execSmbusRead_keeps {a0 : Byte} (h : Keeps s0 s) :
        KeepsO s0 (execSmbusRead a0 s) := by
  unfold execSmbusRead
  repeat' first
    | with_reducible assumption | with_reducible apply KeepsO.next | with_reducible apply Keeps.ite
    | with_reducible apply emit_keeps | with_reducible apply tick_keeps

theorem execSmbusWrite_keeps {a0 : Byte} {a1 : List Byte} (h : Keeps s0 s) :
        KeepsO s0 (execSmbusWrite a0 a1 s) := by
  unfold execSmbusWrite
  repeat' first
    | with_reducible assumption | with_reducible apply KeepsO.next | with_reducible apply Keeps.ite
    | with_reducible apply emit_keeps

theorem aerFatal_keeps (h : Keeps s0 s) :
        Keeps s0 (aerFatal s) := by
  unfold aerFatal
  repeat' first
    | with_reducible assumption | with_reducible apply Keeps.ite
    | with_reducible refine Keeps.foldl (fun t x ht => ?_) _ ?_ | with_reducible apply emit_keeps

theorem clearSeq_keeps {a0 : BitVec 32} (h : Keeps s0 s) :
        Keeps s0 (clearSeq a0 s) := by
  unfold clearSeq
  repeat' first
    | with_reducible assumption | with_reducible apply Keeps.ite | with_reducible apply updFlt_keeps

theorem faultNotice_keeps (h : Keeps s0 s) :
        Keeps s0 (faultNotice s) := by
  unfold faultNotice
  repeat' first
    | with_reducible assumption | with_reducible apply Keeps.ite | with_reducible apply updFlt_keeps
    | with_reducible apply notice_keeps

theorem takeFault_keeps {a1 : Bool} {a2 : Raised} (h : Keeps s0 s) :
        Keeps s0 (takeFault s a1 a2) := by
  unfold takeFault
  repeat' first
    | with_reducible assumption
    | (extract_lets +onlyGivenNames t; refine (fun (ht : Keeps s0 t) => ?_) ?_; clear_value t; on_goal 2 => subst t)
    | (extract_lets +onlyGivenNames t; clear_value t) | with_reducible apply Keeps.ite
    | with_reducible apply fcount_keeps | with_reducible apply updFlt_keeps
    | with_reducible apply faultNotice_keeps

theorem takeAll_keeps {a0 : List Raised} {a1 : Bool} {s : State} (h : Keeps s0 s) :
        Keeps s0 (takeAll a0 a1 s) := by
  induction a0 generalizing a1 s with
  | nil => unfold takeAll; exact h
  | cons _ _ ih =>
    unfold takeAll
    repeat' first
      | with_reducible apply ih | with_reducible assumption | with_reducible apply takeFault_keeps

theorem collect40_keeps (h : Keeps s0 s) :
        Keeps s0 (collect40 s) := by
  unfold collect40
  repeat' first
    | with_reducible assumption
    | (extract_lets +onlyGivenNames t; refine (fun (ht : Keeps s0 t) => ?_) ?_; clear_value t; on_goal 2 => subst t)
    | (extract_lets +onlyGivenNames t; clear_value t) | with_reducible apply Keeps.ite
    | with_reducible apply takeAll_keeps | with_reducible apply updFlt_keeps

theorem execAliveHalfWindow_keeps (h : Keeps s0 s) :
        KeepsO s0 (execAliveHalfWindow s) := by
  unfold execAliveHalfWindow
  repeat' first
    | with_reducible assumption | with_reducible apply KeepsO.next | with_reducible apply Keeps.ite
    | with_reducible apply updBoard_keeps

theorem execCollectorCycle_keeps {a0 : Option Upset} (h : Keeps s0 s) :
        KeepsO s0 (execCollectorCycle a0 s) := by
  unfold execCollectorCycle
  repeat' first
    | with_reducible assumption | with_reducible apply KeepsO.next | with_reducible apply Keeps.ite
    | with_reducible apply collect40_keeps | with_reducible apply latchSafe_keeps
    | with_reducible apply report_keeps | with_reducible apply updFlt_keeps | with_reducible apply fcount_keeps
    | with_reducible split

theorem execFltClearSeq_keeps {a0 : BitVec 32} (h : Keeps s0 s) :
        KeepsO s0 (execFltClearSeq a0 s) := by
  unfold execFltClearSeq
  repeat' first
    | with_reducible assumption | with_reducible apply KeepsO.next | with_reducible apply Keeps.ite
    | with_reducible apply clearSeq_keeps

theorem execHeartbeatStrobe_keeps (h : Keeps s0 s) :
        KeepsO s0 (execHeartbeatStrobe s) := by
  unfold execHeartbeatStrobe
  repeat' first
    | with_reducible assumption | with_reducible apply KeepsO.next | with_reducible apply Keeps.ite
    | with_reducible apply updFlt_keeps | with_reducible apply updBoard_keeps

theorem execHeartbeatWindowEnd_keeps (h : Keeps s0 s) :
        KeepsO s0 (execHeartbeatWindowEnd s) := by
  unfold execHeartbeatWindowEnd
  repeat' first
    | with_reducible assumption
    | (extract_lets +onlyGivenNames t; refine (fun (ht : Keeps s0 t) => ?_) ?_; clear_value t; on_goal 2 => subst t)
    | (extract_lets +onlyGivenNames t; clear_value t) | with_reducible apply KeepsO.next
    | with_reducible apply Keeps.ite | with_reducible apply updFlt_keeps | with_reducible apply report_keeps
    | with_reducible apply updBoard_keeps | with_reducible apply raise_keeps

theorem execNoticeGapEnd_keeps (h : Keeps s0 s) :
        KeepsO s0 (execNoticeGapEnd s) := by
  unfold execNoticeGapEnd
  repeat' first
    | with_reducible assumption | with_reducible apply KeepsO.next | with_reducible apply Keeps.ite
    | with_reducible apply notice_keeps | with_reducible apply updFlt_keeps

theorem railsOff_keeps (h : Keeps s0 s) :
        Keeps s0 (railsOff s) := by
  unfold railsOff
  repeat' first
    | with_reducible assumption | with_reducible refine Keeps.foldl (fun t x ht => ?_) _ ?_
    | with_reducible apply emit_keeps | with_reducible apply updRail_keeps

theorem execSafeEntry_keeps (h : Keeps s0 s) :
        KeepsO s0 (execSafeEntry s) := by
  unfold execSafeEntry
  repeat' first
    | with_reducible assumption | with_reducible exact Keeps.put ht
    | (extract_lets +onlyGivenNames t; refine (fun (ht : Keeps s0 t) => ?_) ?_; clear_value t; on_goal 2 => subst t)
    | (extract_lets +onlyGivenNames t; clear_value t) | with_reducible apply KeepsO.next
    | with_reducible apply Keeps.ite | with_reducible apply updFlt_keeps | with_reducible apply emit_keeps
    | with_reducible apply railsOff_keeps | with_reducible apply writeRec_keeps
    | with_reducible apply aerFatal_keeps

theorem unfreezeLog_keeps (h : Keeps s0 s) :
        Keeps s0 (unfreezeLog s) := by
  unfold unfreezeLog
  repeat' first
    | with_reducible assumption | with_reducible apply updFlt_keeps

theorem execUnfreeze_keeps (h : Keeps s0 s) :
        KeepsO s0 (execUnfreeze s) := by
  unfold execUnfreeze
  repeat' first
    | with_reducible assumption | with_reducible apply KeepsO.next | with_reducible apply Keeps.ite
    | with_reducible apply unfreezeLog_keeps

theorem execUnitFence_keeps {a0 : FUnit} (h : Keeps s0 s) :
        KeepsO s0 (execUnitFence a0 s) := by
  unfold execUnitFence
  repeat' first
    | with_reducible assumption | with_reducible apply KeepsO.next | with_reducible exact KeepsO.refused
    | with_reducible apply Keeps.ite | with_reducible apply KeepsO.ite | with_reducible apply fence_keeps

theorem sampleVbat_keeps {a0 : Nat} (h : Keeps s0 s) :
        Keeps s0 (sampleVbat a0 s) := by
  unfold sampleVbat
  repeat' first
    | with_reducible assumption
    | (extract_lets +onlyGivenNames t; refine (fun (ht : Keeps s0 t) => ?_) ?_; clear_value t; on_goal 2 => subst t)
    | with_reducible apply Keeps.ite | with_reducible apply updBoard_keeps | with_reducible apply fset_keeps

theorem execInternalResetRelease_keeps {a0 : Nat} (h : Keeps s0 s) :
        KeepsO s0 (execInternalResetRelease a0 s) := by
  unfold execInternalResetRelease
  repeat' first
    | with_reducible assumption | with_reducible apply KeepsO.next | with_reducible apply Keeps.ite
    | with_reducible apply sampleVbat_keeps

theorem execOscStopped_keeps (h : Keeps s0 s) :
        KeepsO s0 (execOscStopped s) := by
  unfold execOscStopped
  repeat' first
    | with_reducible assumption | with_reducible apply KeepsO.next | with_reducible apply fset_keeps

theorem stageSet_keeps (h : Keeps s0 s) :
        Keeps s0 (stageSet s) := by
  unfold stageSet
  repeat' first
    | with_reducible assumption | with_reducible apply Keeps.ite | with_reducible apply updRtc_keeps

theorem execRtcSet_keeps (h : Keeps s0 s) :
        KeepsO s0 (execRtcSet s) := by
  unfold execRtcSet
  repeat' first
    | with_reducible assumption | with_reducible apply KeepsO.next | with_reducible apply Keeps.ite
    | with_reducible apply stageSet_keeps

theorem execRtcSubsecRead_keeps {a0 : Bool} (h : Keeps s0 s) :
        KeepsO s0 (execRtcSubsecRead a0 s) := by
  unfold execRtcSubsecRead
  repeat' first
    | with_reducible assumption
    | (extract_lets +onlyGivenNames t; refine (fun (ht : Keeps s0 t) => ?_) ?_; clear_value t; on_goal 2 => subst t)
    | with_reducible apply KeepsO.next | with_reducible apply Keeps.ite | with_reducible apply emit_keeps
    | with_reducible apply snapNow_keeps

theorem execRtcTick_keeps (h : Keeps s0 s) :
        KeepsO s0 (execRtcTick s) := by
  unfold execRtcTick
  repeat' first
    | with_reducible assumption | with_reducible apply KeepsO.next | with_reducible apply Keeps.ite
    | with_reducible apply updRtc_keeps

theorem execVbatSample_keeps {a0 : Nat} (h : Keeps s0 s) :
        KeepsO s0 (execVbatSample a0 s) := by
  unfold execVbatSample
  repeat' first
    | with_reducible assumption | with_reducible apply KeepsO.next | with_reducible apply Keeps.ite
    | with_reducible apply sampleVbat_keeps

theorem countEvent_keeps {a0 : Ctr} {a1 : Nat} (h : Keeps s0 s) :
        Keeps s0 (countEvent a0 a1 s) := by
  unfold countEvent
  repeat' first
    | with_reducible assumption
    | (extract_lets +onlyGivenNames t; refine (fun (ht : Keeps s0 t) => ?_) ?_; clear_value t; on_goal 2 => subst t)
    | (extract_lets +onlyGivenNames t; clear_value t) | with_reducible apply Keeps.ite
    | with_reducible apply updCtr_keeps | with_reducible apply notice_keeps

theorem writeCtrHi_keeps {a0 : Ctr} {a1 : Option Nat} {a2 : Bool} (h : Keeps s0 s) :
        Keeps s0 (writeCtrHi a0 a1 a2 s) := by
  unfold writeCtrHi
  repeat' first
    | with_reducible assumption | with_reducible apply updCtr_keeps

theorem execCntValHiWrite_keeps {a0 : Ctr} {a1 : BitVec 32} (h : Keeps s0 s) :
        KeepsO s0 (execCntValHiWrite a0 a1 s) := by
  unfold execCntValHiWrite
  repeat' first
    | with_reducible assumption | with_reducible apply KeepsO.next | with_reducible apply Keeps.ite
    | with_reducible apply writeCtrHi_keeps

theorem readCtrLo_keeps {a0 : Ctr} (h : Keeps s0 s) :
        Keeps s0 (readCtrLo a0 s) := by
  unfold readCtrLo
  repeat' first
    | with_reducible assumption | (extract_lets +onlyGivenNames t; clear_value t)
    | with_reducible apply updCtr_keeps

theorem execCntValLoRead_keeps {a0 : Ctr} (h : Keeps s0 s) :
        KeepsO s0 (execCntValLoRead a0 s) := by
  unfold execCntValLoRead
  repeat' first
    | with_reducible assumption
    | (extract_lets +onlyGivenNames t; refine (fun (ht : Keeps s0 t) => ?_) ?_; clear_value t; on_goal 2 => subst t)
    | with_reducible apply KeepsO.next | with_reducible apply Keeps.ite | with_reducible apply readCtrLo_keeps
    | with_reducible apply emit_keeps

theorem writeCtrLo_keeps {a0 : Ctr} {a1 : Nat} (h : Keeps s0 s) :
        Keeps s0 (writeCtrLo a0 a1 s) := by
  unfold writeCtrLo
  repeat' first
    | with_reducible assumption | with_reducible apply Keeps.ite | with_reducible apply updCtr_keeps

theorem execCntValLoWrite_keeps {a0 : Ctr} {a1 : BitVec 32} (h : Keeps s0 s) :
        KeepsO s0 (execCntValLoWrite a0 a1 s) := by
  unfold execCntValLoWrite
  repeat' first
    | with_reducible assumption | with_reducible apply KeepsO.next | with_reducible apply Keeps.ite
    | with_reducible apply writeCtrLo_keeps

theorem execCounterEvent_keeps {a0 : Ctr} {a1 : BitVec 6} {a2 : BitVec 4} {a3 : Nat} (h : Keeps s0 s) :
        KeepsO s0 (execCounterEvent a0 a1 a2 a3 s) := by
  unfold execCounterEvent
  repeat' first
    | with_reducible assumption | with_reducible apply KeepsO.next | with_reducible apply Keeps.ite
    | with_reducible apply countEvent_keeps

theorem putShadow_keeps {a0 : Nat} {a1 : Ctr} (h : Keeps s0 s) :
        Keeps s0 (putShadow a0 a1 s) := by
  unfold putShadow
  repeat' first
    | with_reducible exact Keeps.put h

theorem execCounterWindowEnd_keeps {a0 : Ctr} (h : Keeps s0 s) :
        KeepsO s0 (execCounterWindowEnd a0 s) := by
  unfold execCounterWindowEnd
  repeat' first
    | with_reducible assumption | with_reducible exact Keeps.put ht
    | (extract_lets +onlyGivenNames t; refine (fun (ht : Keeps s0 t) => ?_) ?_; clear_value t; on_goal 2 => subst t)
    | (extract_lets +onlyGivenNames t; clear_value t) | with_reducible apply KeepsO.next
    | with_reducible apply Keeps.ite | with_reducible apply putShadow_keeps | with_reducible apply updCtr_keeps

theorem execShadowSeqUpdate_keeps (h : Keeps s0 s) :
        KeepsO s0 (execShadowSeqUpdate s) := by
  unfold execShadowSeqUpdate
  repeat' first
    | with_reducible assumption | with_reducible exact Keeps.put ht
    | (extract_lets +onlyGivenNames t; refine (fun (ht : Keeps s0 t) => ?_) ?_; clear_value t; on_goal 2 => subst t)
    | (extract_lets +onlyGivenNames t; clear_value t) | with_reducible apply KeepsO.next
    | with_reducible apply Keeps.ite | with_reducible refine Keeps.foldl (fun t x ht => ?_) _ ?_
    | with_reducible apply putShadow_keeps | with_reducible apply notice_keeps

theorem windowSet_keeps {a0 : Bool} {a1 : Option Nat} (h : Keeps s0 s) :
        Keeps s0 (windowSet a0 a1 s) := by
  unfold windowSet
  repeat' first
    | with_reducible assumption | with_reducible exact Keeps.put ht
    | (extract_lets +onlyGivenNames t; refine (fun (ht : Keeps s0 t) => ?_) ?_; clear_value t; on_goal 2 => subst t)
    | (extract_lets +onlyGivenNames t; clear_value t) | with_reducible apply Keeps.ite
    | with_reducible apply fset_keeps | with_reducible split

theorem execWindowEnable_keeps {a0 : Bool} {a1 : Option (BitVec 32)} (h : Keeps s0 s) :
        KeepsO s0 (execWindowEnable a0 a1 s) := by
  unfold execWindowEnable
  repeat' first
    | with_reducible assumption | with_reducible apply KeepsO.next | with_reducible apply Keeps.ite
    | with_reducible apply windowSet_keeps

end Sys2Proof.Laws
end

