-- ==== Sys2Proof/Laws/KeepsLines.lean ====
section
/-! SUPPORT. Keeps of the line holders, the rings, the accesses, the remote writes, the descriptors and the data of
collectives. -/

namespace Sys2Proof.Laws

open Sys2Proof.Machine

variable {s0 s : State}

theorem sendHome_keeps {a0 : Holder} {a1 : LineA} {a2 : String} {a3 : Nat} {a4 : Option (Block × Bool × Bool)} (h :
    Keeps s0 s) :
        Keeps s0 (sendHome a0 a1 a2 a3 a4 s) := by
  unfold sendHome
  repeat' first
    | with_reducible assumption | with_reducible apply send_keeps | with_reducible apply emit_keeps
    | with_reducible split

theorem setHl_keeps {a0 : Holder} {a1 : LineA} {a2 : HLine} (h : Keeps s0 s) :
        Keeps s0 (setHl a0 a1 a2 s) := by
  unfold setHl
  repeat' first
    | with_reducible assumption | with_reducible apply updHl_keeps

theorem dropWatch_keeps {a0 : LineA} (h : Keeps s0 s) :
        Keeps s0 (dropWatch a0 s) := by
  unfold dropWatch
  repeat' first
    | with_reducible assumption | with_reducible exact Keeps.put h
    | (extract_lets +onlyGivenNames t; refine (fun (ht : Keeps s0 t) => ?_) ?_; clear_value t; on_goal 2 => subst t)
    | (extract_lets +onlyGivenNames t; clear_value t) | with_reducible apply Keeps.ite
    | with_reducible refine Keeps.foldl (fun t x ht => ?_) _ ?_ | with_reducible apply updVi_keeps

theorem storeLoses_keeps {a0 : Holder} {a1 : LineA} (h : Keeps s0 s) :
        Keeps s0 (storeLoses a0 a1 s) := by
  unfold storeLoses
  repeat' first
    | with_reducible assumption | with_reducible apply Keeps.ite | with_reducible apply dropWatch_keeps

theorem evictLine_keeps {a0 : Holder} {a1 : LineA} (h : Keeps s0 s) :
        Keeps s0 (evictLine a0 a1 s) := by
  unfold evictLine
  repeat' first
    | with_reducible assumption
    | (extract_lets +onlyGivenNames t; refine (fun (ht : Keeps s0 t) => ?_) ?_; clear_value t; on_goal 2 => subst t)
    | (extract_lets +onlyGivenNames t; clear_value t) | with_reducible apply Keeps.ite
    | with_reducible apply updHl_keeps | with_reducible apply storeLoses_keeps
    | with_reducible apply clearHostResv_keeps | with_reducible apply sendHome_keeps
    | with_reducible apply setHl_keeps

theorem loadEnds_keeps {a0 : Holder} {a1 : LineA} {a2 : Who} {a3 : Block} {a4 : Bool} {a5 : Bool} (h : Keeps s0 s) :
        Keeps s0 (loadEnds a0 a1 a2 a3 a4 a5 s) := by
  unfold loadEnds
  repeat' first
    | with_reducible assumption
    | (extract_lets +onlyGivenNames t; refine (fun (ht : Keeps s0 t) => ?_) ?_; clear_value t; on_goal 2 => subst t)
    | with_reducible apply Keeps.ite | with_reducible apply emit_keeps | with_reducible apply returned_keeps

theorem awaitRoom_keeps {a0 : Holder} {a1 : LineA} (h : Keeps s0 s) :
        Keeps s0 (awaitRoom a0 a1 s) := by
  unfold awaitRoom
  repeat' first
    | with_reducible assumption
    | (extract_lets +onlyGivenNames t; refine (fun (ht : Keeps s0 t) => ?_) ?_; clear_value t; on_goal 2 => subst t)
    | (extract_lets +onlyGivenNames t; clear_value t) | with_reducible apply Keeps.ite
    | with_reducible apply updHl_keeps | with_reducible apply evictLine_keeps | with_reducible split

theorem request_keeps {a0 : Holder} {a1 : LineA} {a2 : String} {a3 : HSt} (h : Keeps s0 s) :
        Keeps s0 (request a0 a1 a2 a3 s) := by
  unfold request
  repeat' first
    | with_reducible assumption | with_reducible apply Keeps.ite | with_reducible apply sendHome_keeps
    | with_reducible apply updHl_keeps

theorem place_keeps {a0 : Holder} {a1 : LineA} {a2 : String} {a3 : HSt} (h : Keeps s0 s) :
        Keeps s0 (place a0 a1 a2 a3 s) := by
  unfold place
  repeat' first
    | with_reducible assumption | with_reducible apply Keeps.ite | with_reducible apply request_keeps
    | with_reducible apply awaitRoom_keeps

theorem popWait_keeps {a0 : Holder} {a1 : LineA} (h : Keeps s0 s) :
        Keeps s0 (popWait a0 a1 s) := by
  unfold popWait
  repeat' first
    | with_reducible assumption | with_reducible apply updHl_keeps

theorem storeDone_keeps {a0 : Holder} {a1 : LineA} {a2 : BitVec 64} {a3 : Block} {a4 : Who} (h : Keeps s0 s) :
        Keeps s0 (storeDone a0 a1 a2 a3 a4 s) := by
  unfold storeDone
  repeat' first
    | with_reducible assumption
    | (extract_lets +onlyGivenNames t; refine (fun (ht : Keeps s0 t) => ?_) ?_; clear_value t; on_goal 2 => subst t)
    | (extract_lets +onlyGivenNames t; clear_value t) | with_reducible apply Keeps.ite
    | with_reducible apply clearHostResv_keeps | with_reducible apply updHl_keeps
    | with_reducible apply bumpLru_keeps | with_reducible apply returned_keeps | with_reducible split

theorem serveWaits_keeps {a0 : Holder} {a1 : LineA} {a2 : Nat} {s : State} (h : Keeps s0 s) :
        Keeps s0 (serveWaits a0 a1 a2 s) := by
  induction a2 generalizing a0 a1 s with
  | zero => unfold serveWaits; exact h
  | succ _ ih =>
    unfold serveWaits
    repeat' first
      | with_reducible apply ih | with_reducible assumption
      | (extract_lets +onlyGivenNames t; refine (fun (ht : Keeps s0 t) => ?_) ?_; clear_value t; on_goal 2 => subst t)
      | (extract_lets +onlyGivenNames t; clear_value t) | with_reducible apply Keeps.ite
      | with_reducible apply place_keeps | with_reducible apply request_keeps | with_reducible apply loadEnds_keeps
      | with_reducible apply setHl_keeps | with_reducible apply bumpLru_keeps | with_reducible apply returned_keeps
      | with_reducible apply popWait_keeps | with_reducible apply storeDone_keeps
      | with_reducible apply evictLine_keeps | with_reducible split

theorem goOn_keeps {a0 : Holder} {a1 : LineA} (h : Keeps s0 s) :
        Keeps s0 (goOn a0 a1 s) := by
  unfold goOn
  repeat' first
    | with_reducible assumption | with_reducible apply Keeps.ite | with_reducible apply serveWaits_keeps

theorem waitOn_keeps {a0 : Holder} {a1 : LineA} {a2 : Wait} {a3 : Who} (h : Keeps s0 s) :
        Keeps s0 (waitOn a0 a1 a2 a3 s) := by
  unfold waitOn
  repeat' first
    | with_reducible assumption | with_reducible apply updHl_keeps

theorem access_keeps {a0 : Holder} {a1 : LineA} {a2 : Wait} {a3 : Who} (h : Keeps s0 s) :
        Keeps s0 (access a0 a1 a2 a3 s) := by
  unfold access
  repeat' first
    | with_reducible assumption
    | (extract_lets +onlyGivenNames t; refine (fun (ht : Keeps s0 t) => ?_) ?_; clear_value t; on_goal 2 => subst t)
    | (extract_lets +onlyGivenNames t; clear_value t) | with_reducible apply Keeps.ite
    | with_reducible apply waitOn_keeps | with_reducible apply loadEnds_keeps | with_reducible apply goOn_keeps
    | with_reducible split

theorem atHolder_keeps {a0 : Holder} {a1 : Instr} {a2 : State → State} (hf2 : ∀ x0, Keeps s0 x0 → Keeps s0 (a2 x0))
    (h : Keeps s0 s) :
        KeepsO s0 (atHolder a0 a1 a2 s) := by
  unfold atHolder
  repeat' first
    | with_reducible assumption | with_reducible apply KeepsO.next | with_reducible apply Keeps.ite
    | with_reducible apply taken_keeps | with_reducible apply hf2

theorem holderFault_keeps {a0 : Holder} {a1 : LineA} (h : Keeps s0 s) :
        Keeps s0 (holderFault a0 a1 s) := by
  unfold holderFault
  repeat' first
    | with_reducible assumption | with_reducible apply raise_keeps | with_reducible split

theorem resumeOne_keeps {a0 : Holder} {a2 : LineA} (h : Keeps s0 s) :
        Keeps s0 (resumeOne a0 s a2) := by
  unfold resumeOne
  repeat' first
    | with_reducible assumption | (extract_lets +onlyGivenNames t; clear_value t) | with_reducible apply Keeps.ite
    | with_reducible apply evictLine_keeps | with_reducible apply goOn_keeps

theorem resumeLine_keeps {a0 : Holder} (h : Keeps s0 s) :
        Keeps s0 (resumeLine a0 s) := by
  unfold resumeLine
  repeat' first
    | with_reducible assumption | with_reducible refine Keeps.foldl (fun t x ht => ?_) _ ?_
    | with_reducible apply resumeOne_keeps

theorem dataCur_keeps {a0 : Holder} {a1 : LineA} {a2 : Block} {a3 : Bool} (h : Keeps s0 s) :
        Keeps s0 (dataCur a0 a1 a2 a3 s) := by
  unfold dataCur
  repeat' first
    | with_reducible assumption
    | (extract_lets +onlyGivenNames t; refine (fun (ht : Keeps s0 t) => ?_) ?_; clear_value t; on_goal 2 => subst t)
    | (extract_lets +onlyGivenNames t; clear_value t) | with_reducible apply Keeps.ite
    | with_reducible apply clearHostResv_keeps | with_reducible apply holderFault_keeps
    | with_reducible apply resumeLine_keeps | with_reducible apply goOn_keeps | with_reducible apply sendHome_keeps
    | with_reducible apply loadEnds_keeps | with_reducible apply setHl_keeps

theorem execDatacur_keeps {a0 : Holder} {a1 : LineA} {a2 : Block} {a3 : Bool} (h : Keeps s0 s) :
        KeepsO s0 (execDatacur a0 a1 a2 a3 s) := by
  unfold execDatacur
  repeat' first
    | with_reducible assumption | with_reducible apply atHolder_keeps | with_reducible apply dataCur_keeps
    | (intro x; intros)

theorem stopRing_keeps {a0 : Vi} {a1 : Nat} {a2 : Bool} (h : Keeps s0 s) :
        Keeps s0 (stopRing a0 a1 a2 s) := by
  unfold stopRing
  repeat' first
    | with_reducible assumption | with_reducible apply Keeps.ite | with_reducible apply stopVi_keeps
    | with_reducible apply report_keeps

theorem readLine_keeps {a0 : Vi} {a1 : LineKind} (h : Keeps s0 s) :
        Keeps s0 (readLine a0 a1 s) := by
  unfold readLine
  repeat' first
    | with_reducible assumption
    | (extract_lets +onlyGivenNames t; refine (fun (ht : Keeps s0 t) => ?_) ?_; clear_value t; on_goal 2 => subst t)
    | (extract_lets +onlyGivenNames t; clear_value t) | with_reducible apply Keeps.ite
    | with_reducible apply updVi_keeps | with_reducible apply stopRing_keeps | with_reducible apply access_keeps
    | with_reducible apply emit_keeps

theorem rearm_keeps (h : Keeps s0 s) :
        Keeps s0 (rearm s) := by
  unfold rearm
  repeat' first
    | with_reducible assumption | (extract_lets +onlyGivenNames t; clear_value t) | with_reducible apply Keeps.ite
    | with_reducible refine Keeps.foldl (fun t x ht => ?_) _ ?_ | with_reducible apply readLine_keeps

theorem onMsg_keeps {a0 : Holder} {a1 : LineA} {a2 : HMsg} {a3 : Option (Block × Bool)} (h : Keeps s0 s) :
        Keeps s0 (onMsg a0 a1 a2 a3 s) := by
  unfold onMsg
  repeat' first
    | with_reducible assumption
    | (extract_lets +onlyGivenNames t; refine (fun (ht : Keeps s0 t) => ?_) ?_; clear_value t; on_goal 2 => subst t)
    | (extract_lets +onlyGivenNames t; clear_value t) | with_reducible apply Keeps.ite
    | with_reducible apply clearHostResv_keeps | with_reducible apply holderFault_keeps
    | with_reducible apply setHl_keeps | with_reducible apply sendHome_keeps
    | with_reducible apply storeLoses_keeps | with_reducible apply goOn_keeps
    | with_reducible apply resumeLine_keeps | with_reducible apply rearm_keeps | with_reducible split

theorem execDatam_keeps {a0 : Holder} {a1 : LineA} {a2 : Block} {a3 : Bool} (h : Keeps s0 s) :
        KeepsO s0 (execDatam a0 a1 a2 a3 s) := by
  unfold execDatam
  repeat' first
    | with_reducible assumption | with_reducible apply atHolder_keeps | with_reducible apply onMsg_keeps
    | (intro x; intros)

theorem execDatas_keeps {a0 : Holder} {a1 : LineA} {a2 : Block} {a3 : Bool} (h : Keeps s0 s) :
        KeepsO s0 (execDatas a0 a1 a2 a3 s) := by
  unfold execDatas
  repeat' first
    | with_reducible assumption | with_reducible apply atHolder_keeps | with_reducible apply onMsg_keeps
    | (intro x; intros)

theorem execDowns_keeps {a0 : Holder} {a1 : LineA} (h : Keeps s0 s) :
        KeepsO s0 (execDowns a0 a1 s) := by
  unfold execDowns
  repeat' first
    | with_reducible assumption | with_reducible apply atHolder_keeps | with_reducible apply onMsg_keeps
    | (intro x; intros)

theorem execFwdm_keeps {a0 : Holder} {a1 : LineA} (h : Keeps s0 s) :
        KeepsO s0 (execFwdm a0 a1 s) := by
  unfold execFwdm
  repeat' first
    | with_reducible assumption | with_reducible apply atHolder_keeps | with_reducible apply onMsg_keeps
    | (intro x; intros)

theorem execFwds_keeps {a0 : Holder} {a1 : LineA} (h : Keeps s0 s) :
        KeepsO s0 (execFwds a0 a1 s) := by
  unfold execFwds
  repeat' first
    | with_reducible assumption | with_reducible apply atHolder_keeps | with_reducible apply onMsg_keeps
    | (intro x; intros)

theorem execGrantm_keeps {a0 : Holder} {a1 : LineA} (h : Keeps s0 s) :
        KeepsO s0 (execGrantm a0 a1 s) := by
  unfold execGrantm
  repeat' first
    | with_reducible assumption | with_reducible apply atHolder_keeps | with_reducible apply onMsg_keeps
    | (intro x; intros)

theorem execInv_keeps {a0 : Holder} {a1 : LineA} (h : Keeps s0 s) :
        KeepsO s0 (execInv a0 a1 s) := by
  unfold execInv
  repeat' first
    | with_reducible assumption | with_reducible apply atHolder_keeps | with_reducible apply onMsg_keeps
    | (intro x; intros)

theorem nackNow_keeps {a0 : Holder} {a1 : LineA} (h : Keeps s0 s) :
        Keeps s0 (nackNow a0 a1 s) := by
  unfold nackNow
  repeat' first
    | with_reducible assumption
    | (extract_lets +onlyGivenNames t; refine (fun (ht : Keeps s0 t) => ?_) ?_; clear_value t; on_goal 2 => subst t)
    | (extract_lets +onlyGivenNames t; clear_value t) | with_reducible apply Keeps.ite
    | with_reducible apply clearHostResv_keeps | with_reducible apply holderFault_keeps
    | with_reducible apply storeLoses_keeps | with_reducible apply setHl_keeps | with_reducible apply emit_keeps
    | with_reducible apply accessEnds_keeps | with_reducible apply resumeLine_keeps
    | with_reducible apply goOn_keeps | with_reducible apply rearm_keeps | with_reducible split

theorem execNackp_keeps {a0 : Holder} {a1 : LineA} (h : Keeps s0 s) :
        KeepsO s0 (execNackp a0 a1 s) := by
  unfold execNackp
  repeat' first
    | with_reducible assumption | with_reducible apply atHolder_keeps | with_reducible apply nackNow_keeps
    | (intro x; intros)

theorem execOwnx_keeps {a0 : Holder} {a1 : LineA} (h : Keeps s0 s) :
        KeepsO s0 (execOwnx a0 a1 s) := by
  unfold execOwnx
  repeat' first
    | with_reducible assumption | with_reducible apply atHolder_keeps | with_reducible apply onMsg_keeps
    | (intro x; intros)

theorem execPutack_keeps {a0 : Holder} {a1 : LineA} (h : Keeps s0 s) :
        KeepsO s0 (execPutack a0 a1 s) := by
  unfold execPutack
  repeat' first
    | with_reducible assumption | with_reducible apply atHolder_keeps | with_reducible apply onMsg_keeps
    | (intro x; intros)

theorem resend_keeps {a0 : Holder} {a1 : LineA} {a2 : String} {a3 : Option (Block × Bool × Bool)} (h : Keeps s0 s) :
        Keeps s0 (resend a0 a1 a2 a3 s) := by
  unfold resend
  repeat' first
    | with_reducible assumption | (extract_lets +onlyGivenNames t; clear_value t)
    | with_reducible apply sendHome_keeps | with_reducible apply updHl_keeps

theorem retryNow_keeps {a0 : Holder} {a1 : LineA} (h : Keeps s0 s) :
        Keeps s0 (retryNow a0 a1 s) := by
  unfold retryNow
  repeat' first
    | with_reducible assumption
    | (extract_lets +onlyGivenNames t; refine (fun (ht : ∀ x, Keeps s0 x → Keeps s0 (t x)) => ?_) (fun x hx => ?_); clear_value t; on_goal 2 => subst t)
    | with_reducible apply ht
    | (extract_lets +onlyGivenNames t; refine (fun (ht : Keeps s0 t) => ?_) ?_; clear_value t; on_goal 2 => subst t)
    | (extract_lets +onlyGivenNames t; clear_value t) | with_reducible apply Keeps.ite
    | with_reducible apply clearHostResv_keeps | with_reducible apply resend_keeps
    | with_reducible apply holderFault_keeps | with_reducible split

theorem execRetry_keeps {a0 : Holder} {a1 : LineA} (h : Keeps s0 s) :
        KeepsO s0 (execRetry a0 a1 s) := by
  unfold execRetry
  repeat' first
    | with_reducible assumption | with_reducible apply atHolder_keeps | with_reducible apply retryNow_keeps
    | (intro x; intros)

theorem execSliceLoad_keeps {a0 : Holder} {a1 : LineA} {a2 : Bool} (h : Keeps s0 s) :
        KeepsO s0 (execSliceLoad a0 a1 a2 s) := by
  unfold execSliceLoad
  repeat' first
    | with_reducible assumption | (extract_lets +onlyGivenNames t; clear_value t)
    | with_reducible apply atHolder_keeps | with_reducible apply access_keeps | (intro x; intros)

theorem sliceStoreNow_keeps {a0 : Holder} {a1 : LineA} {a2 : BitVec 64} {a3 : Block} {a4 : Bool} {a5 : Who} (h :
    Keeps s0 s) :
        Keeps s0 (sliceStoreNow a0 a1 a2 a3 a4 a5 s) := by
  unfold sliceStoreNow
  repeat' first
    | with_reducible assumption | with_reducible apply Keeps.ite | with_reducible apply lineWrite_keeps
    | with_reducible apply clearHostResv_keeps | with_reducible apply access_keeps

theorem execSliceStore_keeps {a0 : Holder} {a1 : LineA} {a2 : BitVec 64} {a3 : Block} {a4 : Bool} (h : Keeps s0 s) :
        KeepsO s0 (execSliceStore a0 a1 a2 a3 a4 s) := by
  unfold execSliceStore
  repeat' first
    | with_reducible assumption | (extract_lets +onlyGivenNames t; clear_value t)
    | with_reducible apply atHolder_keeps | with_reducible apply sliceStoreNow_keeps | (intro x; intros)

theorem mboxDone_keeps {a0 : Vi} {a1 : Down} {a2 : Nat} (h : Keeps s0 s) :
        Keeps s0 (mboxDone a0 a1 a2 s) := by
  unfold mboxDone
  repeat' first
    | with_reducible assumption | with_reducible apply updVi_keeps

theorem deliver_keeps {a0 : Vi} (h : Keeps s0 s) :
        Keeps s0 (deliver a0 s) := by
  unfold deliver
  repeat' first
    | with_reducible assumption | (extract_lets +onlyGivenNames t; clear_value t) | with_reducible apply Keeps.ite
    | with_reducible apply mboxDone_keeps | with_reducible apply tick_keeps | with_reducible apply updEng_keeps
    | with_reducible split

theorem payIn_keeps {a0 : Vi} {a1 : Nat} {a2 : HostRes} (h : Keeps s0 s) : Keeps s0 (payIn a0 a1 a2 s) := by
  unfold payIn
  generalize (getVi s a0).down = m
  cases m <;> cases a2 <;> first
    | with_reducible exact h
    | with_reducible exact mboxDone_keeps h
    | with_reducible exact updVi_keeps h

theorem payEnds_keeps {a0 : Vi} {a1 : FetchRes} (h : Keeps s0 s) :
        Keeps s0 (payEnds a0 a1 s) := by
  unfold payEnds
  repeat' first
    | with_reducible assumption | with_reducible apply Keeps.ite
    | with_reducible refine Keeps.foldl (fun t x ht => ?_) _ ?_ | with_reducible apply payIn_keeps
    | with_reducible apply forget_keeps | with_reducible split

theorem deliverWith_keeps {a0 : Vi} {a1 : FetchRes} (h : Keeps s0 s) :
        Keeps s0 (deliverWith a0 a1 s) := by
  unfold deliverWith
  repeat' first
    | with_reducible assumption | (extract_lets +onlyGivenNames t; clear_value t) | with_reducible apply Keeps.ite
    | with_reducible apply deliver_keeps | with_reducible apply payEnds_keeps

theorem dropDown_keeps {a0 : Vi} {a1 : Bool} (h : Keeps s0 s) :
        Keeps s0 (dropDown a0 a1 s) := by
  unfold dropDown
  repeat' first
    | with_reducible assumption | with_reducible apply forget_keeps | with_reducible apply updVi_keeps

theorem disableMbox_keeps {a0 : Vi} (h : Keeps s0 s) :
        Keeps s0 (disableMbox a0 s) := by
  unfold disableMbox
  repeat' first
    | with_reducible assumption | with_reducible apply Keeps.ite | with_reducible apply dropDown_keeps
    | with_reducible apply fset_keeps

theorem sendLine_keeps {a0 : Vi} {a1 : Nat} {a2 : Block} (h : Keeps s0 s) :
        Keeps s0 (sendLine a0 a1 a2 s) := by
  unfold sendLine
  repeat' first
    | with_reducible assumption | (extract_lets +onlyGivenNames t; clear_value t) | with_reducible apply Keeps.ite
    | with_reducible apply ringLineWrite_keeps | with_reducible apply emit_keeps

theorem pumpOne_keeps {a0 : Vi} (h : Keeps s0 s) :
        KeepsS s0 (pumpOne a0 s) := by
  unfold pumpOne
  repeat' first
    | with_reducible assumption
    | (extract_lets +onlyGivenNames t; refine (fun (ht : Keeps s0 t) => ?_) ?_; clear_value t; on_goal 2 => subst t)
    | with_reducible apply KeepsS.some | with_reducible exact KeepsS.none | with_reducible apply Keeps.ite
    | with_reducible apply KeepsS.ite | with_reducible apply updVi_keeps | with_reducible apply freeSlot_keeps
    | with_reducible apply sendLine_keeps | with_reducible apply raiseCompletion_keeps
    | with_reducible apply raiseVec_keeps | with_reducible split

theorem pumpN_keeps {a0 : Vi} {a1 : Nat} {s : State} (h : Keeps s0 s) :
        Keeps s0 (pumpN a0 a1 s) := by
  induction a1 generalizing a0 s with
  | zero => unfold pumpN; exact h
  | succ _ ih =>
    unfold pumpN
    repeat' first
      | with_reducible apply ih | with_reducible assumption
      | with_reducible refine KeepsS.elim (pumpOne_keeps ?_) ‹pumpOne _ _ = _› | with_reducible split

theorem pump_keeps {a0 : Vi} (h : Keeps s0 s) :
        Keeps s0 (pump a0 s) := by
  unfold pump
  repeat' first
    | with_reducible assumption | with_reducible apply pumpN_keeps

theorem ringOut_keeps {a0 : Vi} {a1 : List RingOut} (h : Keeps s0 s) :
        Keeps s0 (ringOut a0 a1 s) := by
  unfold ringOut
  repeat' first
    | with_reducible assumption | with_reducible apply pump_keeps | with_reducible apply updVi_keeps

theorem disableVi_keeps {a0 : Vi} (h : Keeps s0 s) :
        Keeps s0 (disableVi a0 s) := by
  unfold disableVi
  repeat' first
    | with_reducible assumption
    | (extract_lets +onlyGivenNames t; refine (fun (ht : Keeps s0 t) => ?_) ?_; clear_value t; on_goal 2 => subst t)
    | with_reducible apply Keeps.ite | with_reducible refine Keeps.foldl (fun t x ht => ?_) _ ?_
    | with_reducible apply fset_keeps | with_reducible apply finish_keeps | with_reducible apply dropIndexes_keeps
    | with_reducible apply forget_keeps | with_reducible apply dropDown_keeps | with_reducible apply updVi_keeps
    | with_reducible apply ringOut_keeps

theorem enableMbox_keeps {a0 : Vi} (h : Keeps s0 s) :
        Keeps s0 (enableMbox a0 s) := by
  unfold enableMbox
  repeat' first
    | with_reducible assumption
    | (extract_lets +onlyGivenNames t; refine (fun (ht : Keeps s0 t) => ?_) ?_; clear_value t; on_goal 2 => subst t)
    | with_reducible apply Keeps.ite | with_reducible apply fset_keeps | with_reducible apply readLine_keeps
    | with_reducible apply updVi_keeps

theorem ringWrite_keeps {a0 : Vi} {a1 : Nat} {a2 : Block} (h : Keeps s0 s) :
        Keeps s0 (ringWrite a0 a1 a2 s) := by
  unfold ringWrite
  repeat' first
    | with_reducible assumption | with_reducible apply ringOut_keeps

theorem startVi_keeps {a0 : Vi} (h : Keeps s0 s) :
        Keeps s0 (startVi a0 s) := by
  unfold startVi
  repeat' first
    | with_reducible assumption
    | (extract_lets +onlyGivenNames t; refine (fun (ht : Keeps s0 t) => ?_) ?_; clear_value t; on_goal 2 => subst t)
    | with_reducible apply Keeps.ite | with_reducible apply forget_keeps | with_reducible apply dropFlags_keeps
    | with_reducible apply updVi_keeps | with_reducible apply stopVi_keeps | with_reducible apply stopRing_keeps
    | with_reducible apply ringWrite_keeps | with_reducible apply readLine_keeps

theorem startNow_keeps {a0 : Vi} (h : Keeps s0 s) :
        Keeps s0 (startNow a0 s) := by
  unfold startNow
  repeat' first
    | with_reducible assumption | with_reducible apply Keeps.ite | with_reducible apply startVi_keeps

theorem enableVi_keeps {a0 : Vi} (h : Keeps s0 s) :
        Keeps s0 (enableVi a0 s) := by
  unfold enableVi
  repeat' first
    | with_reducible assumption | with_reducible apply Keeps.ite | with_reducible apply startNow_keeps
    | with_reducible apply updVi_keeps | with_reducible apply fset_keeps

theorem flagFails_keeps {a0 : Vi} (h : Keeps s0 s) :
        Keeps s0 (flagFails a0 s) := by
  unfold flagFails
  repeat' first
    | with_reducible assumption | with_reducible apply stopRing_keeps | with_reducible apply dropRet_keeps
    | with_reducible split

theorem pumpAll_keeps (h : Keeps s0 s) :
        Keeps s0 (pumpAll s) := by
  unfold pumpAll
  repeat' first
    | with_reducible assumption | with_reducible apply Keeps.ite
    | with_reducible refine Keeps.foldl (fun t x ht => ?_) _ ?_ | with_reducible apply pump_keeps
    | with_reducible apply flagFails_keeps

theorem execCohTimeout_keeps {a0 : LineA} (h : Keeps s0 s) :
        KeepsO s0 (execCohTimeout a0 s) := by
  unfold execCohTimeout
  repeat' first
    | with_reducible assumption | with_reducible apply fromHost_keeps | with_reducible apply pumpAll_keeps
    | with_reducible apply homeTimeout_keeps | (intro x; intros)

theorem fetchNow_keeps {a0 : Vi} (h : Keeps s0 s) :
        Keeps s0 (fetchNow a0 s) := by
  unfold fetchNow
  repeat' first
    | with_reducible assumption
    | (extract_lets +onlyGivenNames t; refine (fun (ht : Keeps s0 t) => ?_) ?_; clear_value t; on_goal 2 => subst t)
    | (extract_lets +onlyGivenNames t; clear_value t) | with_reducible apply Keeps.ite
    | with_reducible refine Keeps.foldl (fun t x ht => ?_) _ ?_ | with_reducible apply stopRing_keeps
    | with_reducible apply updVi_keeps | with_reducible apply access_keeps | with_reducible apply emit_keeps

theorem fetchReturn_keeps {a0 : Vi} {a1 : FetchRes} (h : Keeps s0 s) :
        Keeps s0 (fetchReturn a0 a1 s) := by
  unfold fetchReturn
  repeat' first
    | with_reducible assumption | (extract_lets +onlyGivenNames t; clear_value t) | with_reducible apply Keeps.ite
    | with_reducible apply stopRing_keeps | with_reducible apply fetchNow_keeps | with_reducible apply updVi_keeps
    | with_reducible split

theorem fetchEnds_keeps {a0 : Vi} {a1 : FetchRes} (h : Keeps s0 s) :
        Keeps s0 (fetchEnds a0 a1 s) := by
  unfold fetchEnds
  repeat' first
    | with_reducible assumption | with_reducible apply Keeps.ite | with_reducible apply fetchReturn_keeps
    | with_reducible apply forget_keeps | with_reducible split

theorem execDescriptorFetchReturn_keeps {a0 : Vi} {a1 : FetchRes} (h : Keeps s0 s) :
        KeepsO s0 (execDescriptorFetchReturn a0 a1 s) := by
  unfold execDescriptorFetchReturn
  repeat' first
    | with_reducible assumption | with_reducible apply KeepsO.next | with_reducible apply Keeps.ite
    | with_reducible apply fetchEnds_keeps

theorem execGoErr_keeps {a0 : LineA} (h : Keeps s0 s) :
        KeepsO s0 (execGoErr a0 s) := by
  unfold execGoErr
  repeat' first
    | with_reducible assumption | with_reducible apply fromHost_keeps | with_reducible apply pumpAll_keeps
    | with_reducible apply hostGoErr_keeps | (intro x; intros)

theorem execGoWritepull_keeps {a0 : LineA} (h : Keeps s0 s) :
        KeepsO s0 (execGoWritepull a0 s) := by
  unfold execGoWritepull
  repeat' first
    | with_reducible assumption | with_reducible apply KeepsO.next | with_reducible apply Keeps.ite
    | with_reducible apply pumpAll_keeps | with_reducible apply pullNow_keeps

theorem execGoWritepullDrop_keeps {a0 : LineA} (h : Keeps s0 s) :
        KeepsO s0 (execGoWritepullDrop a0 s) := by
  unfold execGoWritepullDrop
  repeat' first
    | with_reducible assumption | with_reducible apply fromHost_keeps | with_reducible apply pumpAll_keeps
    | with_reducible apply writePull_keeps | (intro x; intros)

theorem readPay_keeps {a0 : Vi} {a2 : Nat} (h : Keeps s0 s) :
        Keeps s0 (readPay a0 s a2) := by
  unfold readPay
  repeat' first
    | with_reducible assumption | with_reducible apply Keeps.ite | with_reducible apply access_keeps
    | with_reducible apply emit_keeps

theorem readPayload_keeps {a0 : Vi} (h : Keeps s0 s) :
        Keeps s0 (readPayload a0 s) := by
  unfold readPayload
  repeat' first
    | with_reducible assumption | with_reducible apply Keeps.ite
    | with_reducible refine Keeps.foldl (fun t x ht => ?_) _ ?_ | with_reducible apply readPay_keeps
    | with_reducible apply updVi_keeps | with_reducible split

theorem headerData_keeps {a0 : Vi} {a1 : Block} (h : Keeps s0 s) :
        Keeps s0 (headerData a0 a1 s) := by
  unfold headerData
  repeat' first
    | with_reducible assumption | (extract_lets +onlyGivenNames t; clear_value t) | with_reducible apply Keeps.ite
    | with_reducible apply tick_keeps | with_reducible apply updVi_keeps | with_reducible apply readPayload_keeps

theorem line0Data_keeps {a0 : Vi} {a1 : Block} (h : Keeps s0 s) :
        Keeps s0 (line0Data a0 a1 s) := by
  unfold line0Data
  repeat' first
    | with_reducible assumption
    | (extract_lets +onlyGivenNames t; refine (fun (ht : Keeps s0 t) => ?_) ?_; clear_value t; on_goal 2 => subst t)
    | (extract_lets +onlyGivenNames t; clear_value t) | with_reducible apply Keeps.ite
    | with_reducible apply tick_keeps | with_reducible apply updVi_keeps | with_reducible apply fetchNow_keeps

theorem lineReturn_keeps {a0 : Vi} {a1 : LineKind} {a2 : HostRes} {a3 : Bool} {a4 : Bool} (h : Keeps s0 s) :
        Keeps s0 (lineReturn a0 a1 a2 a3 a4 s) := by
  unfold lineReturn
  repeat' first
    | with_reducible assumption
    | (extract_lets +onlyGivenNames t; refine (fun (ht : Keeps s0 t) => ?_) ?_; clear_value t; on_goal 2 => subst t)
    | with_reducible apply Keeps.ite | with_reducible apply updVi_keeps | with_reducible apply stopRing_keeps
    | with_reducible apply rearm_keeps | with_reducible apply line0Data_keeps
    | with_reducible apply headerData_keeps | with_reducible split

theorem lineEnds_keeps {a0 : Vi} {a1 : LineKind} {a2 : HostRes} (h : Keeps s0 s) :
        Keeps s0 (lineEnds a0 a1 a2 s) := by
  unfold lineEnds
  repeat' first
    | with_reducible assumption | with_reducible apply Keeps.ite | with_reducible apply lineReturn_keeps
    | with_reducible apply dropRet_keeps | with_reducible split

theorem execLine0ReadReturn_keeps {a0 : Vi} {a1 : LineKind} {a2 : HostRes} (h : Keeps s0 s) :
        KeepsO s0 (execLine0ReadReturn a0 a1 a2 s) := by
  unfold execLine0ReadReturn
  repeat' first
    | with_reducible assumption | with_reducible apply KeepsO.next | with_reducible apply Keeps.ite
    | with_reducible apply lineEnds_keeps

theorem execLine1Write_keeps {a0 : Vi} {a1 : Bool} (h : Keeps s0 s) :
        KeepsO s0 (execLine1Write a0 a1 s) := by
  unfold execLine1Write
  repeat' first
    | with_reducible assumption
    | (extract_lets +onlyGivenNames t; refine (fun (ht : Keeps s0 t) => ?_) ?_; clear_value t; on_goal 2 => subst t)
    | with_reducible apply KeepsO.next | with_reducible apply Keeps.ite | with_reducible apply updVi_keeps
    | with_reducible apply stopRing_keeps | with_reducible apply ringWrite_keeps

theorem execMboxDeliver_keeps {a0 : Vi} {a1 : FetchRes} (h : Keeps s0 s) :
        KeepsO s0 (execMboxDeliver a0 a1 s) := by
  unfold execMboxDeliver
  repeat' first
    | with_reducible assumption | with_reducible apply KeepsO.next | with_reducible apply Keeps.ite
    | with_reducible apply deliverWith_keeps

theorem execMboxDisable_keeps {a0 : Vi} (h : Keeps s0 s) :
        KeepsO s0 (execMboxDisable a0 s) := by
  unfold execMboxDisable
  repeat' first
    | with_reducible assumption | with_reducible apply KeepsO.next | with_reducible apply Keeps.ite
    | with_reducible apply disableMbox_keeps

theorem execMboxEnable_keeps {a0 : Vi} (h : Keeps s0 s) :
        KeepsO s0 (execMboxEnable a0 s) := by
  unfold execMboxEnable
  repeat' first
    | with_reducible assumption | with_reducible apply KeepsO.next | with_reducible apply Keeps.ite
    | with_reducible apply enableMbox_keeps

theorem execMboxUpWrite_keeps {a0 : Vi} {a1 : Eng} {a2 : Fin 4} (h : Keeps s0 s) :
        KeepsO s0 (execMboxUpWrite a0 a1 a2 s) := by
  unfold execMboxUpWrite
  repeat' first
    | with_reducible assumption
    | (extract_lets +onlyGivenNames t; refine (fun (ht : Keeps s0 t) => ?_) ?_; clear_value t; on_goal 2 => subst t)
    | (extract_lets +onlyGivenNames t; clear_value t) | with_reducible apply KeepsO.next
    | with_reducible apply Keeps.ite | with_reducible apply stopRing_keeps | with_reducible apply updVi_keeps
    | with_reducible apply ringOut_keeps

theorem execPollInterval_keeps {a0 : Vi} {a1 : LineKind} (h : Keeps s0 s) :
        KeepsO s0 (execPollInterval a0 a1 s) := by
  unfold execPollInterval
  repeat' first
    | with_reducible assumption | (extract_lets +onlyGivenNames t; clear_value t)
    | with_reducible apply KeepsO.next | with_reducible apply Keeps.ite | with_reducible apply readLine_keeps

theorem execViDisable_keeps {a0 : Vi} (h : Keeps s0 s) :
        KeepsO s0 (execViDisable a0 s) := by
  unfold execViDisable
  repeat' first
    | with_reducible assumption | with_reducible apply KeepsO.next | with_reducible apply Keeps.ite
    | with_reducible apply disableVi_keeps

theorem execViEnable_keeps {a0 : Vi} (h : Keeps s0 s) :
        KeepsO s0 (execViEnable a0 s) := by
  unfold execViEnable
  repeat' first
    | with_reducible assumption | with_reducible apply KeepsO.next | with_reducible apply Keeps.ite
    | with_reducible apply enableVi_keeps

theorem startAll_keeps (h : Keeps s0 s) :
        Keeps s0 (startAll s) := by
  unfold startAll
  repeat' first
    | with_reducible assumption | with_reducible apply Keeps.ite
    | with_reducible refine Keeps.foldl (fun t x ht => ?_) _ ?_ | with_reducible apply startNow_keeps

theorem askBlock_keeps {a0 : Vi} {a2 : Nat} (h : Keeps s0 s) :
        Keeps s0 (askBlock a0 s a2) := by
  unfold askBlock
  repeat' first
    | with_reducible assumption | with_reducible exact Keeps.put h
    | (extract_lets +onlyGivenNames t; refine (fun (ht : Keeps s0 t) => ?_) ?_; clear_value t; on_goal 2 => subst t)
    | with_reducible apply Keeps.ite | with_reducible apply access_keeps | with_reducible apply emit_keeps

theorem askBlocks_keeps {a0 : Vi} {a1 : List Piece} (h : Keeps s0 s) :
        Keeps s0 (askBlocks a0 a1 s) := by
  unfold askBlocks
  repeat' first
    | with_reducible assumption | with_reducible apply Keeps.ite
    | with_reducible refine Keeps.foldl (fun t x ht => ?_) _ ?_ | with_reducible apply askBlock_keeps

theorem blockEnds_keeps {a0 : Vi} {a1 : Nat} {a2 : HostRes} (h : Keeps s0 s) :
        Keeps s0 (blockEnds a0 a1 a2 s) := by
  unfold blockEnds
  repeat' first
    | with_reducible exact Keeps.put h

theorem dropBlocks_keeps {a0 : Vi} {a1 : List Piece} (h : Keeps s0 s) :
        Keeps s0 (dropBlocks a0 a1 s) := by
  unfold dropBlocks
  repeat' first
    | with_reducible exact Keeps.put h | (extract_lets +onlyGivenNames t; clear_value t)
    | with_reducible apply forget_keeps

theorem hostRing_keeps {a0 : Vi} {a1 : Nat} {a2 : List Byte} {a3 : Who} (h : Keeps s0 s) :
        Keeps s0 (hostRing a0 a1 a2 a3 s) := by
  unfold hostRing
  repeat' first
    | with_reducible assumption | (extract_lets +onlyGivenNames t; clear_value t) | with_reducible apply Keeps.ite
    | with_reducible refine Keeps.foldl (fun t x ht => ?_) _ ?_ | with_reducible apply ringLineWrite_keeps
    | with_reducible apply access_keeps | with_reducible apply emit_keeps

theorem touchAll_keeps {a0 : Vi} {a1 : Nat} {a2 : List Piece} (h : Keeps s0 s) :
        Keeps s0 (touchAll a0 a1 a2 s) := by
  unfold touchAll
  repeat' first
    | with_reducible assumption | with_reducible apply Keeps.ite
    | with_reducible refine Keeps.foldl (fun t x ht => ?_) _ ?_ | with_reducible apply touchSlot_keeps
    | with_reducible split

theorem writePiece_keeps {a0 : Writer} {a1 : Vi} {a2 : Piece} {a3 : List Byte} (h : Keeps s0 s) :
        KeepsP s0 (writePiece a0 a1 a2 a3 s) := by
  unfold writePiece
  repeat' first
    | with_reducible assumption | (extract_lets +onlyGivenNames t; clear_value t) | with_reducible apply KeepsP.mk
    | with_reducible apply acceptWrite_keeps | with_reducible apply hostStore_keeps
    | with_reducible apply hostRing_keeps | with_reducible split

theorem writeAll_keeps {a0 : Writer} {a1 : Vi} {a2 : List Byte} {a3 : List Piece} {s : State} (h : Keeps s0 s) :
        KeepsP s0 (writeAll a0 a1 a2 a3 s) := by
  induction a3 generalizing a0 a1 a2 s with
  | nil => unfold writeAll; exact h
  | cons _ _ ih =>
    unfold writeAll
    repeat' first
      | with_reducible apply ih | with_reducible assumption
      | (extract_lets +onlyGivenNames t; refine (fun (ht : KeepsP s0 t) => ?_) ?_; clear_value t; on_goal 2 => subst t)
      | with_reducible apply KeepsP.mk | with_reducible refine KeepsP.snd (writePiece_keeps ?_)
      | with_reducible exact KeepsP.snd ‹_›

theorem writePieces_keeps {a0 : Writer} {a1 : Vi} {a2 : Nat} {a3 : Nat} {a4 : List Piece} {a5 : List Byte} (h :
    Keeps s0 s) :
        KeepsP s0 (writePieces a0 a1 a2 a3 a4 a5 s) := by
  unfold writePieces
  repeat' first
    | with_reducible assumption | with_reducible apply KeepsP.mk
    | with_reducible refine KeepsP.elim (writeAll_keeps ?_) ‹writeAll _ _ _ _ _ = _›
    | with_reducible apply touchAll_keeps | with_reducible split

theorem writeSpace_keeps {a0 : Writer} {a1 : CUnit} {a2 : Vi} {a3 : Nat} {a4 : Nat} {a5 : List Byte} (h : Keeps s0
    s) :
        KeepsP s0 (writeSpace a0 a1 a2 a3 a4 a5 s) := by
  unfold writeSpace
  repeat' first
    | with_reducible assumption | with_reducible apply KeepsP.mk
    | with_reducible refine KeepsP.snd (writePieces_keeps ?_)

theorem ctxCheck_keeps {a0 : Nat} (h : Keeps s0 s) :
        Keeps s0 (ctxCheck a0 s) := by
  unfold ctxCheck
  repeat' first
    | with_reducible assumption | (extract_lets +onlyGivenNames t; clear_value t) | with_reducible apply Keeps.ite
    | with_reducible apply updCtx_keeps | with_reducible apply finish_keeps

theorem ctxAnswer_keeps {a0 : Nat} {a1 : Nat} {a2 : Option Nat} {a3 : Nat} (h : Keeps s0 s) :
        Keeps s0 (ctxAnswer a0 a1 a2 a3 s) := by
  unfold ctxAnswer
  repeat' first
    | with_reducible assumption | (extract_lets +onlyGivenNames t; clear_value t)
    | with_reducible apply ctxCheck_keeps | with_reducible apply updCtx_keeps | with_reducible split

theorem writeWindow_keeps {a0 : Nat} {a1 : Nat} {a2 : Nat} {a3 : Nat} {a4 : List Byte} (h : Keeps s0 s) :
        KeepsP s0 (writeWindow a0 a1 a2 a3 a4 s) := by
  unfold writeWindow
  repeat' first
    | with_reducible assumption | (extract_lets +onlyGivenNames t; clear_value t) | with_reducible apply KeepsP.mk
    | with_reducible apply Keeps.ite | with_reducible apply acceptWrite_keeps

theorem sendWrite_keeps {a0 : Nat} {a1 : Vi} {a2 : Nat} {a3 : Nat} {a4 : Nat} {a5 : Nat} {a6 : List Byte} (h : Keeps
    s0 s) :
        Keeps s0 (sendWrite a0 a1 a2 a3 a4 a5 a6 s) := by
  unfold sendWrite
  repeat' first
    | with_reducible assumption
    | (extract_lets +onlyGivenNames t; refine (fun (ht : Keeps s0 t) => ?_) ?_; clear_value t; on_goal 2 => subst t)
    | (extract_lets +onlyGivenNames t; refine (fun (ht : KeepsP s0 t) => ?_) ?_; clear_value t; on_goal 2 => subst t)
    | (extract_lets +onlyGivenNames t; clear_value t) | with_reducible apply Keeps.ite
    | with_reducible apply updCtx_keeps | with_reducible apply writeWindow_keeps
    | with_reducible apply ctxAnswer_keeps | with_reducible apply sendFrame_keeps
    | with_reducible exact KeepsP.snd ‹_›

theorem badDesc_keeps {a0 : Vi} {a1 : Fly} (h : Keeps s0 s) :
        Keeps s0 (badDesc a0 a1 s) := by
  unfold badDesc
  repeat' first
    | with_reducible assumption | (extract_lets +onlyGivenNames t; clear_value t)
    | with_reducible apply updVi_keeps | with_reducible apply ticks_keeps | with_reducible apply hostError_keeps

theorem idleDue_keeps {a0 : Vi} (h : Keeps s0 s) :
        Keeps s0 (idleDue a0 s) := by
  unfold idleDue
  repeat' first
    | with_reducible assumption | with_reducible apply Keeps.ite | with_reducible apply ringOut_keeps

theorem dropFly_keeps {a0 : Vi} {a1 : Job} (h : Keeps s0 s) :
        Keeps s0 (dropFly a0 a1 s) := by
  unfold dropFly
  repeat' first
    | with_reducible assumption | with_reducible apply idleDue_keeps | with_reducible apply updVi_keeps

theorem ringMiss_keeps {a0 : Vi} {a1 : Job} {a2 : Nat} (h : Keeps s0 s) :
        Keeps s0 (ringMiss a0 a1 a2 s) := by
  unfold ringMiss
  repeat' first
    | with_reducible assumption | with_reducible apply Keeps.ite | with_reducible apply addMiss_keeps

theorem putResult_keeps {a0 : Vi} {a1 : Fly} {a2 : List Byte} {a3 : Nat} {a4 : Bool} (h : Keeps s0 s) :
        Keeps s0 (putResult a0 a1 a2 a3 a4 s) := by
  unfold putResult
  repeat' first
    | with_reducible assumption | (extract_lets +onlyGivenNames t; clear_value t) | with_reducible apply Keeps.ite
    | with_reducible apply finish_keeps | with_reducible apply spWrite_keeps
    | with_reducible refine KeepsP.elim (writePieces_keeps ?_) ‹writePieces _ _ _ _ _ _ _ = _›
    | with_reducible apply ringMiss_keeps | with_reducible split

theorem execConeSnap_keeps {a0 : Vi} {a1 : BitVec 32} {a2 : Bool} (h : Keeps s0 s) :
        KeepsO s0 (execConeSnap a0 a1 a2 s) := by
  unfold execConeSnap
  repeat' first
    | with_reducible assumption | (extract_lets +onlyGivenNames t; clear_value t)
    | with_reducible apply KeepsO.next | with_reducible apply Keeps.ite | with_reducible apply finish_keeps
    | with_reducible apply putResult_keeps | with_reducible apply tick_keeps | with_reducible split

theorem putEntry_keeps {a0 : Vi} {a1 : Nat} {a2 : Nat} {a3 : Nat} {a4 : Nat} {a5 : Compl} (h : Keeps s0 s) :
        Keeps s0 (putEntry a0 a1 a2 a3 a4 a5 s) := by
  unfold putEntry
  repeat' first
    | with_reducible assumption
    | (extract_lets +onlyGivenNames t; refine (fun (ht : Keeps s0 t) => ?_) ?_; clear_value t; on_goal 2 => subst t)
    | (extract_lets +onlyGivenNames t; clear_value t) | with_reducible apply ringWrite_keeps
    | with_reducible apply updVi_keeps

theorem writeEntry_keeps {a0 : Vi} {a1 : Fly} {a2 : Compl} (h : Keeps s0 s) :
        Keeps s0 (writeEntry a0 a1 a2 s) := by
  unfold writeEntry
  repeat' first
    | with_reducible assumption
    | (extract_lets +onlyGivenNames t; refine (fun (ht : Keeps s0 t) => ?_) ?_; clear_value t; on_goal 2 => subst t)
    | with_reducible apply Keeps.ite | with_reducible apply putEntry_keeps | with_reducible apply tick_keeps
    | with_reducible apply dropFly_keeps | with_reducible apply ringOut_keeps

theorem execDescriptorComplete_keeps {a0 : Vi} {a1 : BitVec 32} {a2 : Bool} (h : Keeps s0 s) :
        KeepsO s0 (execDescriptorComplete a0 a1 a2 s) := by
  unfold execDescriptorComplete
  repeat' first
    | with_reducible assumption | with_reducible apply KeepsO.next | with_reducible apply Keeps.ite
    | with_reducible apply dropFly_keeps | with_reducible apply stopRing_keeps
    | with_reducible apply writeEntry_keeps | with_reducible split

theorem execDispatch_keeps {a0 : Vi} (h : Keeps s0 s) :
        KeepsO s0 (execDispatch a0 s) := by
  unfold execDispatch
  repeat' first
    | with_reducible assumption | (extract_lets +onlyGivenNames t; clear_value t)
    | with_reducible apply KeepsO.next | with_reducible apply KeepsO.ite | with_reducible apply updVi_keeps
    | with_reducible apply fetchNow_keeps | with_reducible apply badDesc_keeps | with_reducible split

theorem fenceDrain_keeps {a0 : Vi} (h : Keeps s0 s) :
        Keeps s0 (fenceDrain a0 s) := by
  unfold fenceDrain
  repeat' first
    | with_reducible assumption
    | (extract_lets +onlyGivenNames t; refine (fun (ht : Keeps s0 t) => ?_) ?_; clear_value t; on_goal 2 => subst t)
    | (extract_lets +onlyGivenNames t; clear_value t) | with_reducible refine Keeps.foldl (fun t x ht => ?_) _ ?_
    | with_reducible apply flushSb_keeps | with_reducible apply drainVi_keeps
    | with_reducible apply acceptThose_keeps

theorem execFence_keeps {a0 : Vi} {a1 : BitVec 32} (h : Keeps s0 s) :
        KeepsO s0 (execFence a0 a1 s) := by
  unfold execFence
  repeat' first
    | with_reducible assumption
    | (extract_lets +onlyGivenNames t; refine (fun (ht : Keeps s0 t) => ?_) ?_; clear_value t; on_goal 2 => subst t)
    | with_reducible apply KeepsO.next | with_reducible apply Keeps.ite | with_reducible apply fenceDrain_keeps
    | with_reducible apply finish_keeps | with_reducible split

theorem placeIndex_keeps {a0 : Vi} {a1 : Job} {a2 : Block} {a4 : Nat} (h : Keeps s0 s) :
        Keeps s0 (placeIndex a0 a1 a2 s a4) := by
  unfold placeIndex
  repeat' first
    | with_reducible assumption | (extract_lets +onlyGivenNames t; clear_value t) | with_reducible apply Keeps.ite
    | with_reducible apply indexEnded_keeps | with_reducible apply updEng_keeps | with_reducible split

theorem execLaunch_keeps {a0 : Vi} {a1 : BitVec 32} (h : Keeps s0 s) :
        KeepsO s0 (execLaunch a0 a1 s) := by
  unfold execLaunch
  repeat' first
    | with_reducible assumption
    | (extract_lets +onlyGivenNames t; refine (fun (ht : Keeps s0 t) => ?_) ?_; clear_value t; on_goal 2 => subst t)
    | (extract_lets +onlyGivenNames t; clear_value t) | with_reducible apply KeepsO.next
    | with_reducible apply Keeps.ite | with_reducible refine Keeps.foldl (fun t x ht => ?_) _ ?_
    | with_reducible apply finish_keeps | with_reducible apply updFly_keeps | with_reducible apply placeIndex_keeps
    | with_reducible split

theorem execNop_keeps {a0 : Vi} {a1 : BitVec 32} (h : Keeps s0 s) :
        KeepsO s0 (execNop a0 a1 s) := by
  unfold execNop
  repeat' first
    | with_reducible assumption | with_reducible apply KeepsO.next | with_reducible apply finish_keeps
    | with_reducible split

theorem signalAdd_keeps {a0 : Vi} {a1 : Job} {a2 : Nat} {a3 : Nat} {a4 : Nat} (h : Keeps s0 s) :
        Keeps s0 (signalAdd a0 a1 a2 a3 a4 s) := by
  unfold signalAdd
  repeat' first
    | with_reducible assumption | (extract_lets +onlyGivenNames t; clear_value t) | with_reducible apply Keeps.ite
    | with_reducible apply finish_keeps | with_reducible apply acceptWrite_keeps

theorem signalFabric_keeps {a0 : Vi} {a1 : Fly} {a2 : Nat} {a3 : Nat} (h : Keeps s0 s) :
        Keeps s0 (signalFabric a0 a1 a2 a3 s) := by
  unfold signalFabric
  repeat' first
    | with_reducible assumption
    | (extract_lets +onlyGivenNames t; refine (fun (ht : Keeps s0 t) => ?_) ?_; clear_value t; on_goal 2 => subst t)
    | (extract_lets +onlyGivenNames t; clear_value t) | with_reducible apply Keeps.ite
    | with_reducible apply finish_keeps | with_reducible apply updCtx_keeps | with_reducible apply sendWrite_keeps
    | with_reducible apply updFly_keeps | with_reducible split

theorem signalNow_keeps {a0 : Vi} {a1 : Fly} {a2 : Bool} (h : Keeps s0 s) :
        Keeps s0 (signalNow a0 a1 a2 s) := by
  unfold signalNow
  repeat' first
    | with_reducible assumption
    | (extract_lets +onlyGivenNames t; refine (fun (ht : Keeps s0 t) => ?_) ?_; clear_value t; on_goal 2 => subst t)
    | (extract_lets +onlyGivenNames t; clear_value t) | with_reducible apply Keeps.ite
    | with_reducible apply finish_keeps | with_reducible apply signalFabric_keeps
    | with_reducible apply ringMiss_keeps | with_reducible apply touchSlot_keeps
    | with_reducible apply signalAdd_keeps | with_reducible apply acceptWrite_keeps
    | with_reducible apply hostRing_keeps | with_reducible split

theorem execSignal_keeps {a0 : Vi} {a1 : BitVec 32} {a2 : Bool} (h : Keeps s0 s) :
        KeepsO s0 (execSignal a0 a1 a2 s) := by
  unfold execSignal
  repeat' first
    | with_reducible assumption | with_reducible apply KeepsO.next | with_reducible apply signalNow_keeps
    | with_reducible split

theorem execStamp_keeps {a0 : Vi} {a1 : BitVec 32} {a2 : Bool} (h : Keeps s0 s) :
        KeepsO s0 (execStamp a0 a1 a2 s) := by
  unfold execStamp
  repeat' first
    | with_reducible assumption | with_reducible apply KeepsO.next | with_reducible apply putResult_keeps
    | with_reducible split

theorem waitRead_keeps {a0 : Vi} {a1 : Job} {a2 : Block} (h : Keeps s0 s) :
        Keeps s0 (waitRead a0 a1 a2 s) := by
  unfold waitRead
  repeat' first
    | with_reducible assumption | with_reducible apply Keeps.ite | with_reducible apply access_keeps
    | with_reducible apply emit_keeps | with_reducible split

theorem execWait_keeps {a0 : Vi} {a1 : BitVec 32} (h : Keeps s0 s) :
        KeepsO s0 (execWait a0 a1 s) := by
  unfold execWait
  repeat' first
    | with_reducible assumption | with_reducible apply KeepsO.next | with_reducible apply waitRead_keeps
    | with_reducible apply updFly_keeps | with_reducible split

theorem waitValue_keeps {a0 : Vi} {a1 : Fly} {a2 : Nat} (h : Keeps s0 s) :
        Keeps s0 (waitValue a0 a1 a2 s) := by
  unfold waitValue
  repeat' first
    | with_reducible assumption | (extract_lets +onlyGivenNames t; clear_value t) | with_reducible apply Keeps.ite
    | with_reducible apply finish_keeps | with_reducible apply waitRead_keeps

theorem waitAnswer_keeps {a0 : Vi} {a1 : Fly} {a2 : Nat} {a3 : HostRes} (h : Keeps s0 s) :
        Keeps s0 (waitAnswer a0 a1 a2 a3 s) := by
  unfold waitAnswer
  repeat' first
    | with_reducible assumption | with_reducible apply waitValue_keeps | with_reducible apply finish_keeps
    | with_reducible split

theorem waitHome_keeps {a0 : Vi} {a1 : Fly} {a2 : Nat} (h : Keeps s0 s) :
        Keeps s0 (waitHome a0 a1 a2 s) := by
  unfold waitHome
  repeat' first
    | with_reducible assumption | with_reducible apply Keeps.ite | with_reducible apply waitAnswer_keeps
    | with_reducible apply dropRet_keeps | with_reducible apply waitRead_keeps | with_reducible split

theorem waitPoll_keeps {a0 : Vi} {a1 : Fly} {a2 : HostRes} (h : Keeps s0 s) :
        Keeps s0 (waitPoll a0 a1 a2 s) := by
  unfold waitPoll
  repeat' first
    | with_reducible assumption
    | (extract_lets +onlyGivenNames t; refine (fun (ht : Keeps s0 t) => ?_) ?_; clear_value t; on_goal 2 => subst t)
    | (extract_lets +onlyGivenNames t; clear_value t) | with_reducible apply Keeps.ite
    | with_reducible apply ringMiss_keeps | with_reducible apply finish_keeps
    | with_reducible apply touchSlot_keeps | with_reducible apply waitValue_keeps
    | with_reducible apply waitHome_keeps | with_reducible apply waitAnswer_keeps | with_reducible split

theorem execWaitPoll_keeps {a0 : Vi} {a1 : BitVec 32} {a2 : HostRes} (h : Keeps s0 s) :
        KeepsO s0 (execWaitPoll a0 a1 a2 s) := by
  unfold execWaitPoll
  repeat' first
    | with_reducible assumption | with_reducible apply KeepsO.next | with_reducible apply waitPoll_keeps
    | with_reducible split

theorem collMiss_keeps {a0 : Nat} {a1 : Vi} {a2 : Nat} (h : Keeps s0 s) :
        Keeps s0 (collMiss a0 a1 a2 s) := by
  unfold collMiss
  repeat' first
    | with_reducible assumption | with_reducible apply Keeps.ite | with_reducible apply addMiss_keeps

theorem dstBytes_keeps {a0 : Nat} {a1 : CollSt} {a2 : Nat} {a3 : List Byte} (h : Keeps s0 s) :
        KeepsP s0 (dstBytes a0 a1 a2 a3 s) := by
  unfold dstBytes
  repeat' first
    | with_reducible assumption | (extract_lets +onlyGivenNames t; clear_value t) | with_reducible apply KeepsP.mk
    | with_reducible refine KeepsP.elim (writePieces_keeps ?_) ‹writePieces _ _ _ _ _ _ _ = _›
    | with_reducible apply collMiss_keeps | with_reducible split

theorem noteWritten_keeps {a0 : Nat} (h : Keeps s0 s) :
        Keeps s0 (noteWritten a0 s) := by
  unfold noteWritten
  repeat' first
    | with_reducible assumption | with_reducible apply updColl_keeps

theorem spoilStage_keeps {a0 : Nat} {a1 : CollSt} (h : Keeps s0 s) :
        Keeps s0 (spoilStage a0 a1 s) := by
  unfold spoilStage
  repeat' first
    | with_reducible assumption | (extract_lets +onlyGivenNames t; clear_value t) | with_reducible apply Keeps.ite
    | with_reducible apply tick_keeps | with_reducible apply spWrite_keeps | with_reducible split

theorem spoil_keeps {a0 : Nat} {a1 : CollSt} (h : Keeps s0 s) :
        Keeps s0 (spoil a0 a1 s) := by
  unfold spoil
  repeat' first
    | with_reducible assumption
    | (extract_lets +onlyGivenNames t; refine (fun (ht : Keeps s0 t) => ?_) ?_; clear_value t; on_goal 2 => subst t)
    | (extract_lets +onlyGivenNames t; clear_value t) | with_reducible apply spoilStage_keeps
    | with_reducible apply tick_keeps | with_reducible refine KeepsP.snd (writeAll_keeps ?_)

theorem landScalar_keeps {a0 : Nat} (h : Keeps s0 s) :
        Keeps s0 (landScalar a0 s) := by
  unfold landScalar
  repeat' first
    | with_reducible assumption | (extract_lets +onlyGivenNames t; clear_value t) | with_reducible apply Keeps.ite
    | with_reducible apply noteWritten_keeps | with_reducible apply spoil_keeps
    | with_reducible refine KeepsP.elim (dstBytes_keeps ?_) ‹dstBytes _ _ _ _ _ = _›
    | with_reducible apply collFail_keeps | with_reducible split

theorem releaseDown_keeps {a0 : Nat} {a1 : List Byte} (h : Keeps s0 s) :
        Keeps s0 (releaseDown a0 a1 s) := by
  unfold releaseDown
  repeat' first
    | with_reducible assumption
    | (extract_lets +onlyGivenNames t; refine (fun (ht : Keeps s0 t) => ?_) ?_; clear_value t; on_goal 2 => subst t)
    | (extract_lets +onlyGivenNames t; clear_value t) | with_reducible apply Keeps.ite
    | with_reducible refine Keeps.foldl (fun t x ht => ?_) _ ?_ | with_reducible apply updColl_keeps
    | with_reducible apply landScalar_keeps | with_reducible apply sendFrame_keeps

theorem srcBytes_keeps {a0 : Nat} {a1 : CollSt} {a2 : Nat} {a3 : Nat} (h : Keeps s0 s) :
        KeepsP s0 (srcBytes a0 a1 a2 a3 s) := by
  unfold srcBytes
  repeat' first
    | with_reducible assumption | (extract_lets +onlyGivenNames t; clear_value t) | with_reducible apply KeepsP.mk
    | with_reducible apply dropBlocks_keeps | with_reducible apply touchAll_keeps
    | with_reducible apply collMiss_keeps | with_reducible apply askBlocks_keeps | with_reducible split

theorem scalarValue_keeps {a0 : Nat} {a1 : CollSt} (h : Keeps s0 s) :
        KeepsP s0 (scalarValue a0 a1 s) := by
  unfold scalarValue
  repeat' first
    | with_reducible assumption | (extract_lets +onlyGivenNames t; clear_value t) | with_reducible apply KeepsP.mk
    | with_reducible refine KeepsP.snd (srcBytes_keeps ?_)
    | with_reducible refine KeepsP.elim (srcBytes_keeps ?_) ‹srcBytes _ _ _ _ _ = _› | with_reducible split

theorem arriveUp_keeps {a0 : Nat} (h : Keeps s0 s) :
        Keeps s0 (arriveUp a0 s) := by
  unfold arriveUp
  repeat' first
    | with_reducible assumption | with_reducible apply KeepsP.ite | with_reducible apply KeepsP.mk
    | (extract_lets +onlyGivenNames t; refine (fun (ht : Keeps s0 t) => ?_) ?_; clear_value t; on_goal 2 => subst t)
    | (extract_lets +onlyGivenNames t; refine (fun (ht : KeepsP s0 t) => ?_) ?_; clear_value t; on_goal 2 => subst t)
    | (extract_lets +onlyGivenNames t; clear_value t) | with_reducible apply Keeps.ite
    | with_reducible refine KeepsP.snd (scalarValue_keeps ?_) | with_reducible apply collFail_keeps
    | with_reducible apply updColl_keeps | with_reducible apply sendFrame_keeps
    | with_reducible apply releaseDown_keeps | with_reducible exact KeepsP.snd ‹_› | with_reducible split

theorem ownSherd_keeps {a0 : Nat} {a1 : Nat} (h : Keeps s0 s) :
        KeepsP s0 (ownSherd a0 a1 s) := by
  unfold ownSherd
  repeat' first
    | with_reducible assumption | (extract_lets +onlyGivenNames t; clear_value t) | with_reducible apply KeepsP.mk
    | with_reducible refine KeepsP.snd (srcBytes_keeps ?_)
    | with_reducible refine KeepsP.elim (srcBytes_keeps ?_) ‹srcBytes _ _ _ _ _ = _›
    | with_reducible apply updColl_keeps | with_reducible split

theorem pieceData_keeps {a0 : Nat} {a1 : Bool} {a2 : Nat} {a3 : Ext} (h : Keeps s0 s) :
        KeepsQ s0 (pieceData a0 a1 a2 a3 s) := by
  unfold pieceData
  repeat' first
    | with_reducible assumption | (extract_lets +onlyGivenNames t; clear_value t)
    | with_reducible apply KeepsQ.some | with_reducible exact KeepsQ.none | with_reducible apply KeepsQ.ite
    | with_reducible refine KeepsP.snd (ownSherd_keeps ?_)
    | with_reducible refine KeepsP.elim (ownSherd_keeps ?_) ‹ownSherd _ _ _ = _› | with_reducible split

theorem sendEdge_keeps {a0 : Nat} {a1 : Nat} {a2 : Nat} {s : State} (h : Keeps s0 s) :
        Keeps s0 (sendEdge a0 a1 a2 s) := by
  induction a2 generalizing a0 a1 s with
  | zero => unfold sendEdge; exact h
  | succ _ ih =>
    unfold sendEdge
    repeat' first
      | with_reducible apply ih | with_reducible assumption | (extract_lets +onlyGivenNames t; clear_value t)
      | with_reducible apply Keeps.ite
      | with_reducible refine KeepsQ.elim (pieceData_keeps ?_) ‹pieceData _ _ _ _ _ = _›
      | with_reducible apply collFail_keeps | with_reducible apply sendFrame_keeps
      | with_reducible apply updColl_keeps | with_reducible split

theorem writeSherd_keeps {a0 : Nat} {a1 : Nat} (h : Keeps s0 s) :
        Keeps s0 (writeSherd a0 a1 s) := by
  unfold writeSherd
  repeat' first
    | with_reducible assumption | (extract_lets +onlyGivenNames t; clear_value t) | with_reducible apply Keeps.ite
    | with_reducible refine KeepsQ.elim (pieceData_keeps ?_) ‹pieceData _ _ _ _ _ = _›
    | with_reducible apply collFail_keeps
    | with_reducible refine KeepsP.elim (dstBytes_keeps ?_) ‹dstBytes _ _ _ _ _ = _›
    | with_reducible apply updColl_keeps | with_reducible split

theorem progress_keeps {a0 : Nat} (h : Keeps s0 s) :
        Keeps s0 (progress a0 s) := by
  unfold progress
  repeat' first
    | with_reducible assumption
    | (extract_lets +onlyGivenNames t; refine (fun (ht : Keeps s0 t) => ?_) ?_; clear_value t; on_goal 2 => subst t)
    | (extract_lets +onlyGivenNames t; clear_value t) | with_reducible apply Keeps.ite
    | with_reducible refine Keeps.foldl (fun t x ht => ?_) _ ?_ | with_reducible apply landScalar_keeps
    | with_reducible apply arriveUp_keeps | with_reducible apply sendEdge_keeps
    | with_reducible apply writeSherd_keeps

end Sys2Proof.Laws
end

