-- ==== Sys2Proof/Laws/KeepsTask.lean ====
section
/-! SUPPORT. Keeps of the movers, the segments, the firmware, the vendor routines, the tasks and the microword slots. -/

namespace Sys2Proof.Laws

open Sys2Proof.Machine

variable {s0 s : State}

theorem askPieces_keeps {a0 : Mover} {a1 : Vi} {a2 : List Piece} {s : State} (h : Keeps s0 s) :
        Keeps s0 (askPieces a0 a1 a2 s) := by
  induction a2 generalizing a0 a1 s with
  | nil => unfold askPieces; exact h
  | cons _ _ ih =>
    unfold askPieces
    repeat' first
      | with_reducible apply ih | with_reducible assumption | (extract_lets +onlyGivenNames t; clear_value t)
      | with_reducible apply Keeps.ite | with_reducible apply hostLoad_keeps | with_reducible apply updMv_keeps
      | with_reducible split

theorem startBlock_keeps {a0 : Mover} (h : Keeps s0 s) :
        Keeps s0 (startBlock a0 s) := by
  unfold startBlock
  repeat' first
    | with_reducible assumption | with_reducible apply Keeps.ite | with_reducible apply askPieces_keeps
    | with_reducible split

theorem takenUp_keeps {a0 : Mover} (h : Keeps s0 s) :
        Keeps s0 (takenUp a0 s) := by
  unfold takenUp
  repeat' first
    | with_reducible assumption | with_reducible apply forget_keeps

theorem nextDesc_keeps {a0 : Mover} (h : Keeps s0 s) :
        Keeps s0 (nextDesc a0 s) := by
  unfold nextDesc
  repeat' first
    | with_reducible assumption | with_reducible apply startBlock_keeps | with_reducible apply takenUp_keeps
    | with_reducible apply updMv_keeps

theorem endDesc_keeps {a0 : Mover} {a1 : Vi} {a2 : Job} {a3 : Compl} (h : Keeps s0 s) :
        Keeps s0 (endDesc a0 a1 a2 a3 s) := by
  unfold endDesc
  repeat' first
    | with_reducible assumption | with_reducible apply nextDesc_keeps | with_reducible apply finish_keeps

theorem nextBlock_keeps {a0 : Mover} {a1 : Nat} (h : Keeps s0 s) :
        Keeps s0 (nextBlock a0 a1 s) := by
  unfold nextBlock
  repeat' first
    | with_reducible assumption | with_reducible apply startBlock_keeps | with_reducible apply takenUp_keeps
    | with_reducible apply updMv_keeps

theorem blockDone_keeps {a0 : Mover} {a1 : Vi} {a2 : Fly} (h : Keeps s0 s) :
        Keeps s0 (blockDone a0 a1 a2 s) := by
  unfold blockDone
  repeat' first
    | with_reducible assumption | (extract_lets +onlyGivenNames t; clear_value t) | with_reducible apply Keeps.ite
    | with_reducible apply endDesc_keeps | with_reducible apply nextBlock_keeps

theorem blockWrite_keeps {a0 : Mover} {a1 : Vi} {a2 : Fly} {a3 : Nat} {a4 : List Byte} {a5 : Bool} (h : Keeps s0 s)
    :
        KeepsP s0 (blockWrite a0 a1 a2 a3 a4 a5 s) := by
  unfold blockWrite
  repeat' first
    | with_reducible assumption | (extract_lets +onlyGivenNames t; clear_value t) | with_reducible apply KeepsP.mk
    | with_reducible apply spWrite_keeps
    | with_reducible refine KeepsP.elim (writePieces_keeps ?_) ‹writePieces _ _ _ _ _ _ _ = _›
    | with_reducible split

theorem closeCtx_keeps {a0 : Mover} {a1 : Nat} (h : Keeps s0 s) :
        Keeps s0 (closeCtx a0 a1 s) := by
  unfold closeCtx
  repeat' first
    | with_reducible assumption | with_reducible apply nextDesc_keeps | with_reducible apply ctxCheck_keeps
    | with_reducible apply updCtx_keeps

theorem fabricBlock_keeps {a0 : Mover} {a1 : Vi} {a2 : Fly} {a3 : Nat} {a4 : List Byte} (h : Keeps s0 s) :
        Keeps s0 (fabricBlock a0 a1 a2 a3 a4 s) := by
  unfold fabricBlock
  repeat' first
    | with_reducible assumption
    | (extract_lets +onlyGivenNames t; refine (fun (ht : Keeps s0 t) => ?_) ?_; clear_value t; on_goal 2 => subst t)
    | (extract_lets +onlyGivenNames t; clear_value t) | with_reducible apply Keeps.ite
    | with_reducible apply endDesc_keeps | with_reducible apply updMv_keeps | with_reducible apply updCtx_keeps
    | with_reducible apply sendWrite_keeps | with_reducible apply closeCtx_keeps
    | with_reducible apply nextBlock_keeps | with_reducible split

theorem moverMiss_keeps {a0 : Mover} {a1 : Vi} {a2 : Nat} (h : Keeps s0 s) :
        Keeps s0 (moverMiss a0 a1 a2 s) := by
  unfold moverMiss
  repeat' first
    | with_reducible assumption | with_reducible apply Keeps.ite | with_reducible apply addMiss_keeps

theorem sourceFail_keeps {a0 : Mover} {a1 : Vi} {a2 : Fly} {a3 : Compl} (h : Keeps s0 s) :
        Keeps s0 (sourceFail a0 a1 a2 a3 s) := by
  unfold sourceFail
  repeat' first
    | with_reducible assumption | with_reducible apply endDesc_keeps | with_reducible apply closeCtx_keeps
    | with_reducible apply updFly_keeps | with_reducible split

theorem touchBlock_keeps {a1 : Mover} {a2 : Vi} {a3 : Block} (h : Keeps s0 s) :
        Keeps s0 (touchBlock s a1 a2 a3) := by
  unfold touchBlock
  repeat' first
    | with_reducible assumption
    | (extract_lets +onlyGivenNames t; refine (fun (ht : Keeps s0 t) => ?_) ?_; clear_value t; on_goal 2 => subst t)
    | with_reducible apply Keeps.ite | with_reducible apply tick_keeps | with_reducible apply touchAll_keeps

theorem doBlock_keeps {a0 : Mover} {a1 : Vi} {a2 : Fly} {a3 : BlockRes} (h : Keeps s0 s) :
        Keeps s0 (doBlock a0 a1 a2 a3 s) := by
  unfold doBlock
  repeat' first
    | with_reducible assumption
    | (extract_lets +onlyGivenNames t; refine (fun (ht : Keeps s0 t) => ?_) ?_; clear_value t; on_goal 2 => subst t)
    | (extract_lets +onlyGivenNames t; clear_value t) | with_reducible apply Keeps.ite
    | with_reducible apply moverMiss_keeps | with_reducible apply sourceFail_keeps
    | with_reducible apply touchBlock_keeps | with_reducible apply fabricBlock_keeps
    | with_reducible refine KeepsP.elim (blockWrite_keeps ?_) ‹blockWrite _ _ _ _ _ _ _ = _›
    | with_reducible apply endDesc_keeps | with_reducible apply blockDone_keeps | with_reducible split

theorem dropMove_keeps {a0 : Mover} (h : Keeps s0 s) :
        Keeps s0 (dropMove a0 s) := by
  unfold dropMove
  repeat' first
    | with_reducible assumption | with_reducible apply nextDesc_keeps | with_reducible apply updCtx_keeps
    | with_reducible split

theorem startMove_keeps {a0 : Vi} {a1 : Fly} (h : Keeps s0 s) :
        Keeps s0 (startMove a0 a1 s) := by
  unfold startMove
  repeat' first
    | with_reducible assumption
    | (extract_lets +onlyGivenNames t; refine (fun (ht : Keeps s0 t) => ?_) ?_; clear_value t; on_goal 2 => subst t)
    | (extract_lets +onlyGivenNames t; clear_value t) | with_reducible apply Keeps.ite
    | with_reducible apply finish_keeps | with_reducible apply updMv_keeps | with_reducible apply updFly_keeps
    | with_reducible apply startBlock_keeps | with_reducible split

theorem execCopy_keeps {a0 : Vi} {a1 : BitVec 32} (h : Keeps s0 s) :
        KeepsO s0 (execCopy a0 a1 s) := by
  unfold execCopy
  repeat' first
    | with_reducible assumption | with_reducible apply KeepsO.next | with_reducible apply startMove_keeps
    | with_reducible split

theorem execFill_keeps {a0 : Vi} {a1 : BitVec 32} (h : Keeps s0 s) :
        KeepsO s0 (execFill a0 a1 s) := by
  unfold execFill
  repeat' first
    | with_reducible assumption | with_reducible apply KeepsO.next | with_reducible apply startMove_keeps
    | with_reducible split

theorem lastBlock.fabricLast_keeps {a0 : Mover} {a1 : Vi} {a2 : Fly} {a3 : Nat} {a4 : List Byte} (h : Keeps s0 s) :
        Keeps s0 (lastBlock.fabricLast a0 a1 a2 a3 a4 s) := by
  unfold lastBlock.fabricLast
  repeat' first
    | with_reducible assumption | with_reducible apply sendWrite_keeps | with_reducible split

theorem lastBlock_keeps {a0 : Mover} {a1 : Vi} {a2 : Fly} {a3 : BlockRes} (h : Keeps s0 s) :
        Keeps s0 (lastBlock a0 a1 a2 a3 s) := by
  unfold lastBlock
  repeat' first
    | with_reducible assumption | (extract_lets +onlyGivenNames t; clear_value t) | with_reducible apply Keeps.ite
    | with_reducible apply dropMove_keeps | with_reducible apply lastBlock.fabricLast_keeps
    | with_reducible refine KeepsP.snd (blockWrite_keeps ?_) | with_reducible apply touchBlock_keeps
    | with_reducible split

theorem execMoverBlock_keeps {a0 : Mover} {a1 : BlockRes} (h : Keeps s0 s) :
        KeepsO s0 (execMoverBlock a0 a1 s) := by
  unfold execMoverBlock
  repeat' first
    | with_reducible assumption | with_reducible apply KeepsO.next | with_reducible apply Keeps.ite
    | with_reducible apply dropMove_keeps | with_reducible apply lastBlock_keeps
    | with_reducible apply nextDesc_keeps | with_reducible apply doBlock_keeps | with_reducible split

theorem abandonHits_keeps {a0 : Vi} {a1 : Fin 16} (h : Keeps s0 s) :
        Keeps s0 (abandonHits a0 a1 s) := by
  unfold abandonHits
  repeat' first
    | with_reducible assumption | with_reducible apply Keeps.ite
    | with_reducible refine Keeps.foldl (fun t x ht => ?_) _ ?_ | with_reducible apply abandon_keeps
    | with_reducible split

theorem endSegSet_keeps {a0 : Vi} {a1 : Job} {a2 : Compl} (h : Keeps s0 s) :
        Keeps s0 (endSegSet a0 a1 a2 s) := by
  unfold endSegSet
  repeat' first
    | with_reducible assumption | with_reducible apply finish_keeps | with_reducible apply updVi_keeps

theorem moverFault_keeps {a0 : Mover} {a1 : Vi} {a2 : Nat} (h : Keeps s0 s) :
        Keeps s0 (moverFault a0 a1 a2 s) := by
  unfold moverFault
  repeat' first
    | with_reducible assumption | (extract_lets +onlyGivenNames t; clear_value t) | with_reducible apply Keeps.ite
    | with_reducible apply sourceFail_keeps | with_reducible apply endDesc_keeps | with_reducible split

theorem missFault_keeps {a0 : Vi} {a1 : Miss} (h : Keeps s0 s) :
        Keeps s0 (missFault a0 a1 s) := by
  unfold missFault
  repeat' first
    | with_reducible assumption
    | (extract_lets +onlyGivenNames t; refine (fun (ht : Keeps s0 t) => ?_) ?_; clear_value t; on_goal 2 => subst t)
    | with_reducible apply updVi_keeps | with_reducible apply fcount_keeps | with_reducible apply failIndex_keeps
    | with_reducible apply finish_keeps | with_reducible apply moverFault_keeps
    | with_reducible apply collFail_keeps | with_reducible split

theorem missFaultOf_keeps {a0 : Vi} {a1 : Miss} (h : Keeps s0 s) :
        Keeps s0 (missFaultOf a0 a1 s) := by
  unfold missFaultOf
  repeat' first
    | with_reducible assumption
    | (extract_lets +onlyGivenNames t; refine (fun (ht : ∀ x, Keeps s0 (t x)) => ?_) (fun x => ?_); clear_value t; on_goal 2 => subst t; beta_reduce)
    | with_reducible apply ht
    | (extract_lets +onlyGivenNames t; refine (fun (ht : Keeps s0 t) => ?_) ?_; clear_value t; on_goal 2 => subst t)
    | with_reducible apply updVi_keeps | with_reducible apply fcount_keeps | with_reducible apply updEng_keeps
    | with_reducible apply indexEnded_keeps | with_reducible apply missFault_keeps | with_reducible split

theorem execMissWatchdog_keeps {a0 : Vi} (h : Keeps s0 s) :
        KeepsO s0 (execMissWatchdog a0 s) := by
  unfold execMissWatchdog
  repeat' first
    | with_reducible assumption
    | (extract_lets +onlyGivenNames t; refine (fun (ht : Keeps s0 t) => ?_) ?_; clear_value t; on_goal 2 => subst t)
    | with_reducible apply KeepsO.next | with_reducible apply Keeps.ite | with_reducible apply report_keeps
    | with_reducible apply missFaultOf_keeps | with_reducible split

theorem swapIn_keeps {a0 : Vi} {a1 : Nat} {a2 : Fin 16} (h : Keeps s0 s) :
        Keeps s0 (swapIn a0 a1 a2 s) := by
  unfold swapIn
  repeat' first
    | with_reducible assumption
    | (extract_lets +onlyGivenNames t; refine (fun (ht : Keeps s0 t) => ?_) ?_; clear_value t; on_goal 2 => subst t)
    | (extract_lets +onlyGivenNames t; clear_value t) | with_reducible apply acceptWrite_keeps
    | with_reducible apply setSeg_keeps | with_reducible apply touchSlot_keeps | with_reducible apply fcount_keeps

theorem wakeWho_keeps {a0 : Vi} {a1 : MissWho} (h : Keeps s0 s) :
        Keeps s0 (wakeWho a0 a1 s) := by
  unfold wakeWho
  repeat' first
    | with_reducible assumption | with_reducible apply updEng_keeps | with_reducible apply progress_keeps
    | with_reducible apply startBlock_keeps | with_reducible apply waitRead_keeps | with_reducible split

theorem wakeMisses_keeps {a0 : Vi} {a1 : Miss → Bool} (h : Keeps s0 s) :
        Keeps s0 (wakeMisses a0 a1 s) := by
  unfold wakeMisses
  repeat' first
    | with_reducible assumption
    | (extract_lets +onlyGivenNames t; refine (fun (ht : Keeps s0 t) => ?_) ?_; clear_value t; on_goal 2 => subst t)
    | (extract_lets +onlyGivenNames t; clear_value t) | with_reducible refine Keeps.foldl (fun t x ht => ?_) _ ?_
    | with_reducible apply wakeWho_keeps | with_reducible apply fset_keeps | with_reducible apply updVi_keeps
    | with_reducible apply fcount_keeps

theorem serveMiss_keeps {a0 : Vi} {a1 : Miss} (h : Keeps s0 s) :
        Keeps s0 (serveMiss a0 a1 s) := by
  unfold serveMiss
  repeat' first
    | with_reducible assumption | (extract_lets +onlyGivenNames t; clear_value t) | with_reducible apply Keeps.ite
    | with_reducible apply wakeMisses_keeps | with_reducible apply missFaultOf_keeps
    | with_reducible apply swapIn_keeps | with_reducible split

theorem execSegMissService_keeps {a0 : Vi} (h : Keeps s0 s) :
        KeepsO s0 (execSegMissService a0 s) := by
  unfold execSegMissService
  repeat' first
    | with_reducible assumption | with_reducible apply KeepsO.next | with_reducible apply Keeps.ite
    | with_reducible apply serveMiss_keeps | with_reducible split

theorem setLive_keeps {a0 : Vi} {a1 : Fly} {a2 : Fin 16} (h : Keeps s0 s) :
        Keeps s0 (setLive a0 a1 a2 s) := by
  unfold setLive
  repeat' first
    | with_reducible assumption
    | (extract_lets +onlyGivenNames t; refine (fun (ht : Keeps s0 t) => ?_) ?_; clear_value t; on_goal 2 => subst t)
    | (extract_lets +onlyGivenNames t; clear_value t) | with_reducible apply Keeps.ite
    | with_reducible apply endSegSet_keeps | with_reducible apply abandonHits_keeps
    | with_reducible apply updVi_keeps | with_reducible apply setSeg_keeps

theorem setOvf_keeps {a0 : Vi} {a1 : Fly} {a2 : Nat} (h : Keeps s0 s) :
        Keeps s0 (setOvf a0 a1 a2 s) := by
  unfold setOvf
  repeat' first
    | with_reducible assumption | (extract_lets +onlyGivenNames t; clear_value t) | with_reducible apply Keeps.ite
    | with_reducible apply finish_keeps | with_reducible apply acceptWrite_keeps

theorem execSegSet_keeps {a0 : Vi} {a1 : BitVec 32} (h : Keeps s0 s) : KeepsO s0 (execSegSet a0 a1 s) := by
  unfold execSegSet
  refine KeepsO.next ?_
  generalize segSetBad s a0 = g; revert g; refine id ?_; intro g
  with_reducible split
  · exact h
  · with_reducible split
    · exact endSegSet_keeps h
    · with_reducible split
      · exact setLive_keeps h
      · exact setOvf_keeps h

theorem activateBank_keeps {a0 : Eng} (h : Keeps s0 s) :
        Keeps s0 (activateBank a0 s) := by
  unfold activateBank
  repeat' first
    | with_reducible assumption | with_reducible apply updEng_keeps

theorem defineGroup_keeps {a0 : Vi} {a1 : Fly} (h : Keeps s0 s) :
        Keeps s0 (defineGroup a0 a1 s) := by
  unfold defineGroup
  repeat' first
    | with_reducible assumption
    | (extract_lets +onlyGivenNames t; refine (fun (ht : Keeps s0 t) => ?_) ?_; clear_value t; on_goal 2 => subst t)
    | (extract_lets +onlyGivenNames t; clear_value t) | with_reducible apply Keeps.ite
    | with_reducible apply finish_keeps | with_reducible apply askBlocks_keeps
    | with_reducible apply ringMiss_keeps | with_reducible apply dropBlocks_keeps
    | with_reducible apply touchAll_keeps | with_reducible apply acceptWrite_keeps | with_reducible split

theorem endRecipe_keeps {a0 : Vi} {a1 : Job} {a2 : Compl} (h : Keeps s0 s) :
        Keeps s0 (endRecipe a0 a1 a2 s) := by
  unfold endRecipe
  repeat' first
    | with_reducible exact Keeps.put h | with_reducible apply finish_keeps

theorem execGroupSetDefine_keeps {a0 : Vi} {a1 : BitVec 32} (h : Keeps s0 s) :
        KeepsO s0 (execGroupSetDefine a0 a1 s) := by
  unfold execGroupSetDefine
  repeat' first
    | with_reducible assumption | (extract_lets +onlyGivenNames t; clear_value t)
    | with_reducible apply KeepsO.next | with_reducible apply Keeps.ite | with_reducible apply finish_keeps
    | with_reducible apply defineGroup_keeps | with_reducible split

theorem execGroupSetDelete_keeps {a0 : Vi} {a1 : BitVec 32} (h : Keeps s0 s) :
    KeepsO s0 (execGroupSetDelete a0 a1 s) := by
  unfold execGroupSetDelete
  refine KeepsO.next ?_
  generalize groupStop s = g; revert g; refine id ?_; intro g
  with_reducible split
  · exact h
  · extract_lets x
    refine Keeps.ite h ?_
    with_reducible split
    · exact finish_keeps h
    · exact Keeps.ite h (Keeps.ite (finish_keeps h) (finish_keeps (acceptWrite_keeps h)))

theorem recipeDone_keeps {a0 : Vi} {a1 : Fly} (h : Keeps s0 s) :
        Keeps s0 (recipeDone a0 a1 s) := by
  unfold recipeDone
  repeat' first
    | with_reducible assumption | with_reducible apply Keeps.ite | with_reducible apply endRecipe_keeps

theorem spoilBanks_keeps {a0 : Vi} {a1 : Block} (h : Keeps s0 s) :
        Keeps s0 (spoilBanks a0 a1 s) := by
  unfold spoilBanks
  repeat' first
    | with_reducible assumption | with_reducible refine Keeps.foldl (fun t x ht => ?_) _ ?_
    | with_reducible apply tick_keeps | with_reducible apply updEng_keeps

theorem loadBanks_keeps {a0 : Vi} {a1 : Block} {a2 : List Byte} (h : Keeps s0 s) :
        Keeps s0 (loadBanks a0 a1 a2 s) := by
  unfold loadBanks
  repeat' first
    | with_reducible assumption
    | (extract_lets +onlyGivenNames t; refine (fun (ht : Keeps s0 t) => ?_) ?_; clear_value t; on_goal 2 => subst t)
    | (extract_lets +onlyGivenNames t; clear_value t) | with_reducible apply Keeps.ite
    | with_reducible refine Keeps.foldl (fun t x ht => ?_) _ ?_ | with_reducible apply spoilBanks_keeps
    | with_reducible apply updEng_keeps | with_reducible apply activateBank_keeps

theorem recipeStart_keeps {a0 : Vi} {a1 : Fly} (h : Keeps s0 s) :
        Keeps s0 (recipeStart a0 a1 s) := by
  unfold recipeStart
  repeat' first
    | with_reducible assumption
    | (extract_lets +onlyGivenNames t; refine (fun (ht : Keeps s0 t) => ?_) ?_; clear_value t; on_goal 2 => subst t)
    | (extract_lets +onlyGivenNames t; clear_value t) | with_reducible apply Keeps.ite
    | with_reducible apply endRecipe_keeps | with_reducible apply ringMiss_keeps
    | with_reducible apply spoilBanks_keeps | with_reducible apply touchAll_keeps
    | with_reducible apply loadBanks_keeps | with_reducible apply updFly_keeps
    | with_reducible apply recipeDone_keeps | with_reducible split

theorem execRecipeLoad_keeps {a0 : Vi} {a1 : BitVec 32} (h : Keeps s0 s) :
        KeepsO s0 (execRecipeLoad a0 a1 s) := by
  unfold execRecipeLoad
  repeat' first
    | with_reducible assumption | with_reducible apply KeepsO.next | with_reducible apply Keeps.ite
    | with_reducible apply recipeDone_keeps | with_reducible apply recipeStart_keeps | with_reducible split

theorem execWindowSetClose_keeps {a0 : Vi} {a1 : BitVec 32} (h : Keeps s0 s) :
        KeepsO s0 (execWindowSetClose a0 a1 s) := by
  unfold execWindowSetClose
  repeat' first
    | with_reducible assumption | with_reducible exact Keeps.put h
    | (extract_lets +onlyGivenNames t; clear_value t) | with_reducible apply KeepsO.next
    | with_reducible apply Keeps.ite | with_reducible apply finish_keeps | with_reducible apply closeIngest_keeps
    | with_reducible split

theorem openIngest_keeps {a0 : Vi} {a1 : Fly} (h : Keeps s0 s) : Keeps s0 (openIngest a0 a1 s) := by
  unfold openIngest
  generalize qpStop s = g; revert g; refine id ?_; intro g
  extract_lets +onlyGivenNames d q
  refine Keeps.ite (finish_keeps h) ?_
  with_reducible split
  · exact finish_keeps h
  · extract_lets x t1 t2
    refine Keeps.ite (finish_keeps h) ?_
    have h1 : Keeps s0 t1 := Keeps.ite (closeIngest_keeps h) h
    have h2 : Keeps s0 t2 := updQp_keeps h1
    exact finish_keeps (Keeps.put h2)

theorem execWindowSetOpen_keeps {a0 : Vi} {a1 : BitVec 32} (h : Keeps s0 s) :
        KeepsO s0 (execWindowSetOpen a0 a1 s) := by
  unfold execWindowSetOpen
  repeat' first
    | with_reducible assumption | with_reducible exact Keeps.put h
    | (extract_lets +onlyGivenNames t; clear_value t) | with_reducible apply KeepsO.next
    | with_reducible apply Keeps.ite | with_reducible apply finish_keeps | with_reducible apply openIngest_keeps
    | with_reducible split

theorem clearFlag_keeps {a0 : Eng} {a2 : Nat} (h : Keeps s0 s) :
        Keeps s0 (clearFlag a0 s a2) := by
  unfold clearFlag
  repeat' first
    | with_reducible assumption | with_reducible apply updEng_keeps

theorem addIncs_keeps {a0 : Eng} {a1 : List (BitVec 6 × Nat)} (h : Keeps s0 s) :
        Keeps s0 (addIncs a0 a1 s) := by
  unfold addIncs
  repeat' first
    | with_reducible assumption | with_reducible apply updRun_keeps

theorem badWord_keeps {a0 : Run} {a1 : Nat} (h : Keeps s0 s) :
        Keeps s0 (badWord a0 a1 s) := by
  unfold badWord
  repeat' first
    | with_reducible assumption | with_reducible apply Keeps.ite | with_reducible apply hostError_keeps

theorem issue_keeps {a0 : Eng} {a1 : Nat} {a2 : Nat → Bool} {a3 : Run → Nat → Nat → State → Out} (hf3 : ∀ x0 x1 x2
    x3, Keeps s0 x3 → KeepsO s0 (a3 x0 x1 x2 x3)) (h : Keeps s0 s) :
        KeepsO s0 (Sys2Proof.Machine.issue a0 a1 a2 a3 s) := by
  unfold Sys2Proof.Machine.issue
  repeat' first
    | with_reducible assumption | with_reducible apply KeepsO.next | with_reducible apply KeepsO.ite
    | with_reducible apply tick_keeps | with_reducible apply updRun_keeps | with_reducible apply badWord_keeps
    | with_reducible apply hf3 | with_reducible split

theorem afterCommit_keeps {a0 : Eng} {a1 : Nat} {a2 : Nat → Bool} {a3 : Run → Nat → Nat → State → Out} (hf3 : ∀ x0
    x1 x2 x3, Keeps s0 x3 → KeepsO s0 (a3 x0 x1 x2 x3)) (h : Keeps s0 s) :
        KeepsO s0 (afterCommit a0 a1 a2 a3 s) := by
  unfold afterCommit
  repeat' first
    | with_reducible assumption | with_reducible apply KeepsO.next | with_reducible apply KeepsO.ite
    | with_reducible apply issue_keeps | with_reducible apply hostError_keeps | (intro x; intros)
    | with_reducible apply hf3

theorem beforeCommit_keeps {a0 : Eng} {a1 : Nat} {a2 : Nat → Bool} {a3 : Run → Nat → Nat → State → Out} (hf3 : ∀ x0
    x1 x2 x3, Keeps s0 x3 → KeepsO s0 (a3 x0 x1 x2 x3)) (h : Keeps s0 s) :
        KeepsO s0 (beforeCommit a0 a1 a2 a3 s) := by
  unfold beforeCommit
  repeat' first
    | with_reducible assumption | with_reducible apply KeepsO.next | with_reducible apply KeepsO.ite
    | with_reducible apply issue_keeps | with_reducible apply hostError_keeps | (intro x; intros)
    | with_reducible apply hf3

theorem endWord_keeps {a0 : Eng} {a1 : Nat} (h : Keeps s0 s) :
        Keeps s0 (endWord a0 a1 s) := by
  unfold endWord
  repeat' first
    | with_reducible assumption | with_reducible apply updRun_keeps

theorem holdCycle_keeps {a0 : Eng} (h : Keeps s0 s) :
        Keeps s0 (holdCycle a0 s) := by
  unfold holdCycle
  repeat' first
    | with_reducible assumption | with_reducible apply updRun_keeps

theorem opFail_keeps {a0 : Eng} {a1 : Status} {a2 : Nat} (h : Keeps s0 s) :
        Keeps s0 (opFail a0 a1 a2 s) := by
  unfold opFail
  repeat' first
    | with_reducible assumption | with_reducible apply Keeps.ite | with_reducible apply lateFail_keeps
    | with_reducible apply failIndex_keeps | with_reducible split

theorem sequence_keeps {a0 : Eng} {a1 : Nat → Bool} {a2 : Run → Nat → State → Out} (hf2 : ∀ x0 x1 x2, Keeps s0 x2 →
    KeepsO s0 (a2 x0 x1 x2)) (h : Keeps s0 s) :
        KeepsO s0 (Sys2Proof.Machine.sequence a0 a1 a2 s) := by
  unfold Sys2Proof.Machine.sequence
  repeat' first
    | with_reducible assumption | with_reducible apply KeepsO.next | with_reducible apply KeepsO.ite
    | with_reducible apply holdCycle_keeps | with_reducible apply tick_keeps | with_reducible apply badWord_keeps
    | with_reducible apply hf2 | with_reducible split

theorem aheadLoad_keeps {a0 : Eng} {a1 : Run} {a3 : Nat} (h : Keeps s0 s) :
        Keeps s0 (aheadLoad a0 a1 s a3) := by
  unfold aheadLoad
  repeat' first
    | with_reducible assumption
    | (extract_lets +onlyGivenNames t; refine (fun (ht : ∀ f x, Keeps s0 x → Keeps s0 (t f x)) => ?_) (fun f x hx => ?_); clear_value t; on_goal 2 => subst t; beta_reduce)
    | with_reducible apply ht | (extract_lets +onlyGivenNames t; clear_value t) | with_reducible apply Keeps.ite
    | with_reducible apply updRun_keeps | with_reducible apply hostLoad_keeps | with_reducible split

theorem copyIn_keeps {a0 : Eng} {a1 : Nat} {a2 : Nat} (h : Keeps s0 s) :
        Keeps s0 (copyIn a0 a1 a2 s) := by
  unfold copyIn
  repeat' first
    | with_reducible assumption | with_reducible apply updRun_keeps

theorem cvtAt_keeps {a0 : Eng} {a1 : Vi} {a2 : Nat} {a3 : Nat} {a4 : Bool} {a5 : Nat} {a6 : Nat} (h : Keeps s0 s) :
        Keeps s0 (cvtAt a0 a1 a2 a3 a4 a5 a6 s) := by
  unfold cvtAt
  repeat' first
    | with_reducible assumption | with_reducible apply spWrite_keeps | with_reducible apply lateFail_keeps
    | with_reducible split

theorem cvtRow_keeps {a0 : Eng} {a1 : Run} {a3 : Nat} (h : Keeps s0 s) :
        Keeps s0 (cvtRow a0 a1 s a3) := by
  unfold cvtRow
  repeat' first
    | with_reducible assumption | with_reducible apply cvtAt_keeps

theorem loadMany_keeps {a0 : Eng} {a1 : Nat} {a2 : Bool} {a3 : Nat} {a4 : Nat} {a5 : Nat} {s : State} (h : Keeps s0
    s) :
        Keeps s0 (loadMany a0 a1 a2 a3 a4 a5 s) := by
  induction a4 generalizing a0 a1 a2 a3 a5 s with
  | zero => unfold loadMany; exact h
  | succ _ ih =>
    unfold loadMany
    repeat' first
      | with_reducible apply ih | with_reducible assumption
      | (extract_lets +onlyGivenNames t; refine (fun (ht : Keeps s0 t) => ?_) ?_; clear_value t; on_goal 2 => subst t)
      | with_reducible apply Keeps.ite | with_reducible apply updRun_keeps | with_reducible apply probeAt_keeps
      | with_reducible apply loadBlock_keeps | with_reducible split

theorem lookAhead_keeps {a0 : Eng} {a1 : Run} (h : Keeps s0 s) :
        Keeps s0 (lookAhead a0 a1 s) := by
  unfold lookAhead
  repeat' first
    | with_reducible assumption | with_reducible refine Keeps.foldl (fun t x ht => ?_) _ ?_
    | with_reducible apply aheadLoad_keeps | with_reducible apply updRun_keeps

theorem mmRow_keeps {a0 : Eng} {a1 : MxFmt} {a2 : Run} {a4 : Nat} (h : Keeps s0 s) :
        Keeps s0 (mmRow a0 a1 a2 s a4) := by
  unfold mmRow
  repeat' first
    | with_reducible assumption | (extract_lets +onlyGivenNames t; clear_value t)
    | with_reducible apply spWrite_keeps | with_reducible apply lateFail_keeps | with_reducible split

theorem noteStc_keeps {a0 : Eng} {a1 : Stc} (h : Keeps s0 s) :
        Keeps s0 (noteStc a0 a1 s) := by
  unfold noteStc
  repeat' first
    | with_reducible assumption | with_reducible apply updEng_keeps

theorem probeMany_keeps {a0 : Eng} {a1 : Nat} {a2 : Nat} {a3 : Nat} {a4 : Nat} {s : State} (h : Keeps s0 s) :
        Keeps s0 (probeMany a0 a1 a2 a3 a4 s) := by
  induction a3 generalizing a0 a1 a2 a4 s with
  | zero => unfold probeMany; exact h
  | succ _ ih =>
    unfold probeMany
    repeat' first
      | with_reducible apply ih | with_reducible assumption
      | (extract_lets +onlyGivenNames t; refine (fun (ht : Keeps s0 t) => ?_) ?_; clear_value t; on_goal 2 => subst t)
      | with_reducible apply Keeps.ite | with_reducible apply probeBlock_keeps

theorem setBegun_keeps {a0 : Eng} (h : Keeps s0 s) :
        Keeps s0 (setBegun a0 s) := by
  unfold setBegun
  repeat' first
    | with_reducible assumption | with_reducible apply updRun_keeps

theorem rtBegin_keeps {a0 : Eng} {a1 : Rt} {a2 : Run} (h : Keeps s0 s) :
        Keeps s0 (rtBegin a0 a1 a2 s) := by
  unfold rtBegin
  repeat' first
    | with_reducible assumption
    | (extract_lets +onlyGivenNames t; refine (fun (ht : Keeps s0 t) => ?_) ?_; clear_value t; on_goal 2 => subst t)
    | with_reducible apply Keeps.ite | with_reducible apply setBegun_keeps | with_reducible apply loadMany_keeps
    | with_reducible apply probeMany_keeps | with_reducible apply copyIn_keeps
    | with_reducible apply loadReserved_keeps | with_reducible apply probeAt_keeps
    | with_reducible apply barIssue_keeps | with_reducible split

theorem setXof_keeps {a0 : Eng} {a1 : Nat} {a2 : U64} (h : Keeps s0 s) :
        Keeps s0 (setXof a0 a1 a2 s) := by
  unfold setXof
  repeat' first
    | with_reducible assumption | with_reducible apply updRun_keeps

theorem spPut_keeps {a0 : Eng} {a1 : Vi} {a2 : Nat} {a3 : List Byte} (h : Keeps s0 s) :
        Keeps s0 (spPut a0 a1 a2 a3 s) := by
  unfold spPut
  repeat' first
    | with_reducible assumption | with_reducible apply spWrite_keeps | with_reducible apply lateFail_keeps
    | with_reducible split

theorem slotRead_keeps {a0 : Eng} {a1 : Vi} {a2 : Nat} {a3 : Nat} (h : Keeps s0 s) :
        Keeps s0 (slotRead a0 a1 a2 a3 s) := by
  unfold slotRead
  repeat' first
    | with_reducible assumption | with_reducible exact Keeps.put ht
    | (extract_lets +onlyGivenNames t; refine (fun (ht : Keeps s0 t) => ?_) ?_; clear_value t; on_goal 2 => subst t)
    | (extract_lets +onlyGivenNames t; clear_value t) | with_reducible apply tick_keeps
    | with_reducible apply updEng_keeps | with_reducible apply spPut_keeps

theorem slotWrite_keeps {a0 : Eng} {a1 : Vi} {a2 : Nat} {a3 : Nat} {a4 : Nat} (h : Keeps s0 s) :
        Keeps s0 (slotWrite a0 a1 a2 a3 a4 s) := by
  unfold slotWrite
  repeat' first
    | with_reducible assumption
    | (extract_lets +onlyGivenNames t; refine (fun (ht : Keeps s0 t) => ?_) ?_; clear_value t; on_goal 2 => subst t)
    | (extract_lets +onlyGivenNames t; clear_value t) | with_reducible apply lateFail_keeps
    | with_reducible apply updEng_keeps | with_reducible apply updVi_keeps | with_reducible split

theorem takeResv_keeps {a0 : Eng} {a1 : Nat} (h : Keeps s0 s) :
        KeepsP s0 (takeResv a0 a1 s) := by
  unfold takeResv
  repeat' first
    | with_reducible assumption | with_reducible apply KeepsP.mk | with_reducible apply updEng_keeps

theorem stcFails_keeps {a0 : Eng} {a1 : Nat} {a2 : Compl} (h : Keeps s0 s) :
        Keeps s0 (stcFails a0 a1 a2 s) := by
  unfold stcFails
  repeat' first
    | with_reducible assumption | with_reducible apply setXof_keeps | with_reducible apply lateFail_keeps
    | with_reducible refine KeepsP.snd (takeResv_keeps ?_)

theorem storeCond_keeps {a0 : Eng} {a1 : Nat} {a2 : Nat} {a3 : U64} (h : Keeps s0 s) :
        Keeps s0 (storeCond a0 a1 a2 a3 s) := by
  unfold storeCond
  repeat' first
    | with_reducible assumption
    | (extract_lets +onlyGivenNames t; refine (fun (ht : Keeps s0 t) => ?_) ?_; clear_value t; on_goal 2 => subst t)
    | (extract_lets +onlyGivenNames t; clear_value t) | with_reducible apply Keeps.ite
    | with_reducible apply stcFails_keeps | with_reducible apply touchSlot_keeps
    | with_reducible refine KeepsP.snd (takeResv_keeps ?_) | with_reducible apply passGranule_keeps
    | with_reducible apply noteStc_keeps | with_reducible apply acceptWrite_keeps | with_reducible apply emit_keeps
    | with_reducible apply hostStore_keeps | with_reducible split

theorem storeMany_keeps {a0 : Eng} {a1 : Nat} {a2 : Bool} {a3 : Run} {a4 : Nat} {a5 : Nat} {s : State} (h : Keeps s0
    s) :
        Keeps s0 (storeMany a0 a1 a2 a3 a4 a5 s) := by
  induction a4 generalizing a0 a1 a2 a3 a5 s with
  | zero => unfold storeMany; exact h
  | succ _ ih =>
    unfold storeMany
    repeat' first
      | with_reducible apply ih | with_reducible assumption | with_reducible apply storeBlock_keeps

theorem vecAt_keeps {a0 : Eng} {a1 : Vi} {a2 : VOp} {a3 : Nat} {a4 : Nat} {a5 : Nat} (h : Keeps s0 s) :
        Keeps s0 (vecAt a0 a1 a2 a3 a4 a5 s) := by
  unfold vecAt
  repeat' first
    | with_reducible assumption | (extract_lets +onlyGivenNames t; clear_value t)
    | with_reducible apply spWrite_keeps | with_reducible apply lateFail_keeps | with_reducible split

theorem vecRow_keeps {a0 : Eng} {a1 : VOp} {a2 : Run} {a4 : Nat} (h : Keeps s0 s) :
        Keeps s0 (vecRow a0 a1 a2 s a4) := by
  unfold vecRow
  repeat' first
    | with_reducible assumption | with_reducible apply vecAt_keeps

theorem rtEffect_keeps {a0 : Eng} {a1 : Rt} (h : Keeps s0 s) :
        Keeps s0 (rtEffect a0 a1 s) := by
  unfold rtEffect
  repeat' first
    | with_reducible assumption | (extract_lets +onlyGivenNames t; clear_value t) | with_reducible apply Keeps.ite
    | with_reducible refine Keeps.foldl (fun t x ht => ?_) _ ?_ | with_reducible apply setXof_keeps
    | with_reducible apply spPut_keeps | with_reducible apply storeMany_keeps | with_reducible apply mmRow_keeps
    | with_reducible apply vecRow_keeps | with_reducible apply cvtRow_keeps | with_reducible apply slotRead_keeps
    | with_reducible apply slotWrite_keeps | with_reducible apply clearFlag_keeps
    | with_reducible apply lateFail_keeps | with_reducible apply storeCond_keeps | with_reducible split

theorem rtShift_keeps {a0 : Eng} {a1 : Rt} {a2 : Run} (h : Keeps s0 s) :
        Keeps s0 (rtShift a0 a1 a2 s) := by
  unfold rtShift
  repeat' first
    | with_reducible assumption | with_reducible apply updEng_keeps | with_reducible split

theorem vendorBegin_keeps {a0 : Eng} {a1 : Rt} (h : Keeps s0 s) :
        Keeps s0 (vendorBegin a0 a1 s) := by
  unfold vendorBegin
  repeat' first
    | with_reducible assumption | with_reducible apply Keeps.ite | with_reducible apply setBegun_keeps
    | with_reducible apply failIndex_keeps | with_reducible apply tick_keeps | with_reducible apply rtBegin_keeps
    | with_reducible split

theorem vendorStart_keeps {a0 : Eng} {a1 : Rt} (h : Keeps s0 s) :
        Keeps s0 (vendorStart a0 a1 s) := by
  unfold vendorStart
  repeat' first
    | with_reducible assumption | with_reducible apply Keeps.ite | with_reducible apply vendorBegin_keeps
    | with_reducible apply tick_keeps | with_reducible apply lookAhead_keeps | with_reducible split

theorem switchAway_keeps {a0 : Eng} (h : Keeps s0 s) :
        Keeps s0 (switchAway a0 s) := by
  unfold switchAway
  repeat' first
    | with_reducible assumption | with_reducible apply forget_keeps | with_reducible apply updEng_keeps

theorem boundary_keeps {a0 : Eng} {a1 : Option U64} {a2 : BitVec 48} (h : Keeps s0 s) :
        Keeps s0 (boundary a0 a1 a2 s) := by
  unfold boundary
  repeat' first
    | with_reducible assumption
    | (extract_lets +onlyGivenNames t; refine (fun (ht : Keeps s0 t) => ?_) ?_; clear_value t; on_goal 2 => subst t)
    | with_reducible apply Keeps.ite | with_reducible apply endIndex_keeps | with_reducible apply updEng_keeps
    | with_reducible apply switchAway_keeps | with_reducible split

theorem commitNow_keeps {a0 : Eng} (h : Keeps s0 s) :
        Keeps s0 (commitNow a0 s) := by
  unfold commitNow
  repeat' first
    | with_reducible assumption | with_reducible apply Keeps.ite | with_reducible apply takeCommit_keeps
    | with_reducible apply abandon_keeps | with_reducible split

theorem commitOpen_keeps {a0 : Eng} {a1 : Run} (h : Keeps s0 s) :
        KeepsO s0 (commitOpen a0 a1 s) := by
  unfold commitOpen
  repeat' first
    | with_reducible assumption | (extract_lets +onlyGivenNames t; clear_value t)
    | with_reducible apply KeepsO.next | with_reducible apply KeepsO.ite | with_reducible apply holdCycle_keeps
    | with_reducible apply tick_keeps | with_reducible apply commitNow_keeps | with_reducible apply badWord_keeps

theorem commitVendor_keeps {a0 : Eng} {a1 : Rt} {a2 : Run} (h : Keeps s0 s) :
        Keeps s0 (commitVendor a0 a1 a2 s) := by
  unfold commitVendor
  repeat' first
    | with_reducible assumption
    | (extract_lets +onlyGivenNames t; refine (fun (ht : Keeps s0 t) => ?_) ?_; clear_value t; on_goal 2 => subst t)
    | with_reducible apply Keeps.ite | with_reducible apply vendorBegin_keeps
    | with_reducible apply commitNow_keeps | with_reducible apply failIndex_keeps
    | with_reducible apply rtShift_keeps | with_reducible split

theorem endOpen_keeps {a0 : Eng} (h : Keeps s0 s) :
        Keeps s0 (endOpen a0 s) := by
  unfold endOpen
  repeat' first
    | with_reducible assumption
    | (extract_lets +onlyGivenNames t; refine (fun (ht : Keeps s0 t) => ?_) ?_; clear_value t; on_goal 2 => subst t)
    | with_reducible apply updRun_keeps | with_reducible apply boundary_keeps | with_reducible split

theorem endVendor_keeps {a0 : Eng} {a1 : Rt} (h : Keeps s0 s) :
        Keeps s0 (endVendor a0 a1 s) := by
  unfold endVendor
  repeat' first
    | with_reducible assumption
    | (extract_lets +onlyGivenNames t; refine (fun (ht : Keeps s0 t) => ?_) ?_; clear_value t; on_goal 2 => subst t)
    | (extract_lets +onlyGivenNames t; clear_value t) | with_reducible apply rtEffect_keeps
    | with_reducible apply boundary_keeps | with_reducible split

theorem wordCheck_keeps {a0 : Eng} {a1 : Ecc} (h : Keeps s0 s) :
        KeepsS s0 (wordCheck a0 a1 s) := by
  unfold wordCheck
  repeat' first
    | with_reducible assumption | (extract_lets +onlyGivenNames t; clear_value t)
    | with_reducible apply KeepsS.some | with_reducible exact KeepsS.none | with_reducible apply KeepsS.ite
    | with_reducible apply raise_keeps | with_reducible apply endIndex_keeps | with_reducible split

theorem execCommit_keeps {a0 : Eng} {a1 : Ecc} (h : Keeps s0 s) :
        KeepsO s0 (execCommit a0 a1 s) := by
  unfold execCommit
  repeat' first
    | with_reducible assumption
    | (extract_lets +onlyGivenNames t; refine (fun (ht : ∀ x, Keeps s0 x → KeepsO s0 (t x)) => ?_) (fun x hx => ?_); clear_value t; on_goal 2 => subst t; beta_reduce)
    | with_reducible apply ht | with_reducible apply KeepsO.next | with_reducible apply KeepsO.ite
    | with_reducible apply commitOpen_keeps | with_reducible apply commitVendor_keeps
    | with_reducible refine KeepsS.elim (wordCheck_keeps ?_) ‹wordCheck _ _ _ = _› | with_reducible split

theorem execEndWord_keeps {a0 : Eng} (h : Keeps s0 s) :
        KeepsO s0 (execEndWord a0 s) := by
  unfold execEndWord
  repeat' first
    | with_reducible assumption | (extract_lets +onlyGivenNames t; clear_value t)
    | with_reducible apply KeepsO.next | with_reducible apply KeepsO.ite | with_reducible apply endOpen_keeps
    | with_reducible apply badWord_keeps | with_reducible apply endVendor_keeps | with_reducible split

theorem takeUp_keeps {a0 : Eng} {a1 : Nat} (h : Keeps s0 s) :
        Keeps s0 (takeUp a0 a1 s) := by
  unfold takeUp
  repeat' first
    | with_reducible assumption
    | (extract_lets +onlyGivenNames t; refine (fun (ht : Keeps s0 t) => ?_) ?_; clear_value t; on_goal 2 => subst t)
    | with_reducible apply Keeps.ite | with_reducible apply drainEngine_keeps | with_reducible apply updEng_keeps

theorem execLaunchIndexStart_keeps {a0 : Eng} (h : Keeps s0 s) :
        KeepsO s0 (execLaunchIndexStart a0 s) := by
  unfold execLaunchIndexStart
  repeat' first
    | with_reducible assumption | with_reducible apply KeepsO.next | with_reducible apply Keeps.ite
    | with_reducible apply takeUp_keeps | with_reducible split

theorem execPostcommitBudgetEnd_keeps {a0 : Eng} (h : Keeps s0 s) :
        KeepsO s0 (execPostcommitBudgetEnd a0 s) := by
  unfold execPostcommitBudgetEnd
  repeat' first
    | with_reducible assumption | with_reducible apply KeepsO.next | with_reducible apply Keeps.ite
    | with_reducible apply endIndex_keeps | with_reducible split

theorem execPrecommitBudgetEnd_keeps {a0 : Eng} (h : Keeps s0 s) :
        KeepsO s0 (execPrecommitBudgetEnd a0 s) := by
  unfold execPrecommitBudgetEnd
  repeat' first
    | with_reducible assumption | with_reducible apply KeepsO.next | with_reducible apply Keeps.ite
    | with_reducible apply abandon_keeps | with_reducible split

theorem execSliceEnd_keeps {a0 : Eng} (h : Keeps s0 s) :
        KeepsO s0 (execSliceEnd a0 s) := by
  unfold execSliceEnd
  repeat' first
    | with_reducible assumption | with_reducible apply KeepsO.next | with_reducible apply Keeps.ite
    | with_reducible apply updEng_keeps | with_reducible apply switchAway_keeps | with_reducible split

theorem startRoutine_keeps {a0 : Eng} {a1 : U64} (h : Keeps s0 s) :
        KeepsO s0 (startRoutine a0 a1 s) := by
  unfold startRoutine
  repeat' first
    | with_reducible assumption
    | (extract_lets +onlyGivenNames t; refine (fun (ht : Keeps s0 t) => ?_) ?_; clear_value t; on_goal 2 => subst t)
    | (extract_lets +onlyGivenNames t; clear_value t) | with_reducible apply KeepsO.next
    | with_reducible apply Keeps.ite | with_reducible apply KeepsO.ite | with_reducible apply updRun_keeps
    | with_reducible apply endIndex_keeps | with_reducible apply hostError_keeps
    | with_reducible apply vendorStart_keeps | with_reducible split

theorem touchTask_keeps {a0 : Eng} {a1 : Run} (h : Keeps s0 s) :
        Keeps s0 (touchTask a0 a1 s) := by
  unfold touchTask
  repeat' first
    | with_reducible assumption | with_reducible apply touchSlot_keeps | with_reducible split

theorem execTaskWordFetch_keeps {a0 : Eng} (h : Keeps s0 s) :
        KeepsO s0 (execTaskWordFetch a0 s) := by
  unfold execTaskWordFetch
  repeat' first
    | with_reducible assumption | (extract_lets +onlyGivenNames t; clear_value t)
    | with_reducible apply KeepsO.next | with_reducible apply KeepsO.ite | with_reducible apply addMiss_keeps
    | with_reducible apply updRun_keeps | with_reducible apply failIndex_keeps
    | with_reducible apply startRoutine_keeps | with_reducible apply touchTask_keeps | with_reducible split

theorem sop_keeps {a0 : Nat} {a1 : U64 → U64 → U64} {a2 : Eng} {a3 : Alu} (h : Keeps s0 s) :
        KeepsO s0 (sop a0 a1 a2 a3 s) := by
  unfold sop
  repeat' first
    | with_reducible assumption | (extract_lets +onlyGivenNames t; clear_value t)
    | with_reducible apply KeepsO.next | with_reducible apply issue_keeps | with_reducible apply updRun_keeps
    | (intro x; intros)

theorem execAdd_keeps {a0 : Eng} {a1 : Alu} (h : Keeps s0 s) :
        KeepsO s0 (execAdd a0 a1 s) := by
  unfold execAdd
  repeat' first
    | with_reducible assumption | with_reducible apply sop_keeps

theorem execAnd_keeps {a0 : Eng} {a1 : Alu} (h : Keeps s0 s) :
        KeepsO s0 (execAnd a0 a1 s) := by
  unfold execAnd
  repeat' first
    | with_reducible assumption | with_reducible apply sop_keeps

theorem execCmpu_keeps {a0 : Eng} {a1 : Alu} (h : Keeps s0 s) :
        KeepsO s0 (execCmpu a0 a1 s) := by
  unfold execCmpu
  repeat' first
    | with_reducible assumption | (extract_lets +onlyGivenNames t; clear_value t)
    | with_reducible apply KeepsO.next | with_reducible apply issue_keeps | with_reducible apply updRun_keeps
    | (intro x; intros)

theorem execMov_keeps {a0 : Eng} {a1 : Alu} (h : Keeps s0 s) :
        KeepsO s0 (execMov a0 a1 s) := by
  unfold execMov
  repeat' first
    | with_reducible assumption | with_reducible apply sop_keeps

theorem execMul_keeps {a0 : Eng} {a1 : Alu} (h : Keeps s0 s) :
        KeepsO s0 (execMul a0 a1 s) := by
  unfold execMul
  repeat' first
    | with_reducible assumption | with_reducible apply sop_keeps

theorem execOr_keeps {a0 : Eng} {a1 : Alu} (h : Keeps s0 s) :
        KeepsO s0 (execOr a0 a1 s) := by
  unfold execOr
  repeat' first
    | with_reducible assumption | with_reducible apply sop_keeps

theorem execSar_keeps {a0 : Eng} {a1 : Alu} (h : Keeps s0 s) :
        KeepsO s0 (execSar a0 a1 s) := by
  unfold execSar
  repeat' first
    | with_reducible assumption | with_reducible apply sop_keeps

theorem execShl_keeps {a0 : Eng} {a1 : Alu} (h : Keeps s0 s) :
        KeepsO s0 (execShl a0 a1 s) := by
  unfold execShl
  repeat' first
    | with_reducible assumption | with_reducible apply sop_keeps

theorem execShr_keeps {a0 : Eng} {a1 : Alu} (h : Keeps s0 s) :
        KeepsO s0 (execShr a0 a1 s) := by
  unfold execShr
  repeat' first
    | with_reducible assumption | with_reducible apply sop_keeps

theorem execSopNop_keeps {a0 : Eng} (h : Keeps s0 s) :
        KeepsO s0 (execSopNop a0 s) := by
  unfold execSopNop
  repeat' first
    | with_reducible assumption | with_reducible apply KeepsO.next | with_reducible apply issue_keeps
    | (intro x; intros)

theorem execSub_keeps {a0 : Eng} {a1 : Alu} (h : Keeps s0 s) :
        KeepsO s0 (execSub a0 a1 s) := by
  unfold execSub
  repeat' first
    | with_reducible assumption | with_reducible apply sop_keeps

theorem execXor_keeps {a0 : Eng} {a1 : Alu} (h : Keeps s0 s) :
        KeepsO s0 (execXor a0 a1 s) := by
  unfold execXor
  repeat' first
    | with_reducible assumption | with_reducible apply sop_keeps

theorem aheadEnds_keeps {a0 : Eng} {a1 : HLoad} {a2 : LoadRes} (h : Keeps s0 s) :
        Keeps s0 (aheadEnds a0 a1 a2 s) := by
  unfold aheadEnds
  repeat' first
    | with_reducible assumption | with_reducible apply updRun_keeps

theorem ainc_keeps {a0 : Eng} {a1 : MemSlot} (h : Keeps s0 s) :
        Keeps s0 (ainc a0 a1 s) := by
  unfold ainc
  repeat' first
    | with_reducible assumption | with_reducible apply Keeps.ite | with_reducible apply addIncs_keeps

theorem barTries_keeps {a0 : Eng} (h : Keeps s0 s) :
        Keeps s0 (barTries a0 s) := by
  unfold barTries
  repeat' first
    | with_reducible assumption | with_reducible apply Keeps.ite | with_reducible apply barIssue_keeps
    | with_reducible split

theorem execBar_keeps {a0 : Eng} (h : Keeps s0 s) :
        KeepsO s0 (execBar a0 s) := by
  unfold execBar
  repeat' first
    | with_reducible assumption | with_reducible apply KeepsO.next | with_reducible apply beforeCommit_keeps
    | with_reducible apply ainc_keeps | with_reducible apply barTries_keeps | (intro x; intros)

theorem execDrain_keeps {a0 : Eng} (h : Keeps s0 s) :
        KeepsO s0 (execDrain a0 s) := by
  unfold execDrain
  repeat' first
    | with_reducible assumption | with_reducible apply KeepsO.next | with_reducible apply beforeCommit_keeps
    | with_reducible apply ainc_keeps | (intro x; intros)

theorem mopAfter_keeps {a0 : Nat} {a1 : Eng} {a2 : MemSlot} {a3 : Run → Nat → State → State} (hf3 : ∀ x0 x1 x2,
    Keeps s0 x2 → Keeps s0 (a3 x0 x1 x2)) (h : Keeps s0 s) :
        KeepsO s0 (mopAfter a0 a1 a2 a3 s) := by
  unfold mopAfter
  repeat' first
    | with_reducible assumption | with_reducible apply KeepsO.next | with_reducible apply afterCommit_keeps
    | with_reducible apply ainc_keeps | (intro x; intros) | with_reducible apply hf3

theorem execFclr_keeps {a0 : Eng} {a1 : MemSlot} (h : Keeps s0 s) :
        KeepsO s0 (execFclr a0 a1 s) := by
  unfold execFclr
  repeat' first
    | with_reducible assumption | (extract_lets +onlyGivenNames t; clear_value t)
    | with_reducible refine Keeps.foldl (fun t x ht => ?_) _ ?_ | with_reducible apply mopAfter_keeps
    | with_reducible apply opFail_keeps | with_reducible apply clearFlag_keeps | (intro x; intros)
    | with_reducible split

theorem passPiece_keeps {a0 : Kiln} {a1 : List Gather} {a2 : Nat} {a3 : Gather} (h : Keeps s0 s) :
        Keeps s0 (passPiece a0 a1 a2 a3 s) := by
  unfold passPiece
  repeat' first
    | with_reducible assumption | (extract_lets +onlyGivenNames t; clear_value t)
    | with_reducible apply acceptWrite_keeps | with_reducible apply updGather_keeps
    | with_reducible apply tick_keeps | with_reducible split

theorem execGatherPass_keeps {a0 : Kiln} (h : Keeps s0 s) :
        KeepsO s0 (execGatherPass a0 s) := by
  unfold execGatherPass
  repeat' first
    | with_reducible assumption | (extract_lets +onlyGivenNames t; clear_value t)
    | with_reducible apply KeepsO.next | with_reducible apply Keeps.ite | with_reducible apply passPiece_keeps
    | with_reducible apply tick_keeps | with_reducible split

theorem mopBefore_keeps {a0 : Nat} {a1 : Eng} {a2 : MemSlot} {a3 : Run → Nat → State → State} (hf3 : ∀ x0 x1 x2,
    Keeps s0 x2 → Keeps s0 (a3 x0 x1 x2)) (h : Keeps s0 s) :
        KeepsO s0 (mopBefore a0 a1 a2 a3 s) := by
  unfold mopBefore
  repeat' first
    | with_reducible assumption | with_reducible apply KeepsO.next | with_reducible apply beforeCommit_keeps
    | with_reducible apply ainc_keeps | (intro x; intros) | with_reducible apply hf3

theorem execLd64_keeps {a0 : Eng} {a1 : MemSlot} (h : Keeps s0 s) :
        KeepsO s0 (execLd64 a0 a1 s) := by
  unfold execLd64
  repeat' first
    | with_reducible assumption | with_reducible apply mopBefore_keeps | with_reducible apply loadBlock_keeps
    | (intro x; intros)

theorem execLdr_keeps {a0 : Eng} {a1 : MemSlot} (h : Keeps s0 s) :
        KeepsO s0 (execLdr a0 a1 s) := by
  unfold execLdr
  repeat' first
    | with_reducible assumption | with_reducible apply mopBefore_keeps | with_reducible apply loadReserved_keeps
    | (intro x; intros)

theorem ldrReturn_keeps {a0 : Eng} {a1 : Target} {a2 : Nat} {a3 : U64} {a4 : Bool} {a5 : Bool} (h : Keeps s0 s) :
        Keeps s0 (ldrReturn a0 a1 a2 a3 a4 a5 s) := by
  unfold ldrReturn
  repeat' first
    | with_reducible assumption | with_reducible apply updRun_keeps

theorem ldrEnds_keeps {a0 : Eng} {a1 : Run} {a2 : BitVec 10 × Target × Nat} {a3 : LoadRes} (h : Keeps s0 s) :
        Keeps s0 (ldrEnds a0 a1 a2 a3 s) := by
  unfold ldrEnds
  repeat' first
    | with_reducible assumption | (extract_lets +onlyGivenNames t; clear_value t)
    | with_reducible apply failIndex_keeps | with_reducible apply dropRet_keeps
    | with_reducible apply ldrReturn_keeps | with_reducible split

theorem loadEndsAt_keeps {a0 : Eng} {a1 : Run} {a2 : HLoad} {a3 : LoadRes} (h : Keeps s0 s) :
        Keeps s0 (loadEndsAt a0 a1 a2 a3 s) := by
  unfold loadEndsAt
  repeat' first
    | with_reducible assumption | (extract_lets +onlyGivenNames t; clear_value t)
    | with_reducible apply failIndex_keeps | with_reducible apply dropRet_keeps | with_reducible apply updRun_keeps
    | with_reducible split

theorem execLoadReturn_keeps {a0 : Eng} {a1 : Nat} {a2 : BitVec 10} {a3 : LoadRes} (h : Keeps s0 s) :
        KeepsO s0 (execLoadReturn a0 a1 a2 a3 s) := by
  unfold execLoadReturn
  repeat' first
    | with_reducible assumption | with_reducible apply KeepsO.next | with_reducible apply Keeps.ite
    | with_reducible apply aheadEnds_keeps | with_reducible apply ldrEnds_keeps
    | with_reducible apply loadEndsAt_keeps | with_reducible split

theorem execMopNop_keeps {a0 : Eng} (h : Keeps s0 s) :
        KeepsO s0 (execMopNop a0 s) := by
  unfold execMopNop
  repeat' first
    | with_reducible assumption | with_reducible apply KeepsO.next | with_reducible apply issue_keeps
    | with_reducible apply ainc_keeps | (intro x; intros)

theorem execProbe_keeps {a0 : Eng} {a1 : MemSlot} (h : Keeps s0 s) :
        KeepsO s0 (execProbe a0 a1 s) := by
  unfold execProbe
  repeat' first
    | with_reducible assumption | with_reducible apply mopBefore_keeps | with_reducible apply probeBlock_keeps
    | (intro x; intros)

theorem execSlotrd_keeps {a0 : Eng} {a1 : MemSlot} (h : Keeps s0 s) :
        KeepsO s0 (execSlotrd a0 a1 s) := by
  unfold execSlotrd
  repeat' first
    | with_reducible assumption | (extract_lets +onlyGivenNames t; clear_value t) | with_reducible apply Keeps.ite
    | with_reducible apply mopAfter_keeps | with_reducible apply opFail_keeps | with_reducible apply slotRead_keeps
    | (intro x; intros)

theorem execSlotwr_keeps {a0 : Eng} {a1 : MemSlot} (h : Keeps s0 s) :
        KeepsO s0 (execSlotwr a0 a1 s) := by
  unfold execSlotwr
  repeat' first
    | with_reducible assumption | (extract_lets +onlyGivenNames t; clear_value t) | with_reducible apply Keeps.ite
    | with_reducible apply mopAfter_keeps | with_reducible apply opFail_keeps
    | with_reducible apply slotWrite_keeps | (intro x; intros)

theorem execSp2tb_keeps {a0 : Eng} {a1 : MemSlot} (h : Keeps s0 s) :
        KeepsO s0 (execSp2tb a0 a1 s) := by
  unfold execSp2tb
  repeat' first
    | with_reducible assumption
    | (extract_lets +onlyGivenNames t; refine (fun (ht : Keeps s0 t) => ?_) ?_; clear_value t; on_goal 2 => subst t)
    | with_reducible apply KeepsO.next | with_reducible apply issue_keeps | with_reducible apply ainc_keeps
    | with_reducible apply updRun_keeps | with_reducible apply opFail_keeps | (intro x; intros)
    | with_reducible split

theorem execSt64_keeps {a0 : Eng} {a1 : MemSlot} (h : Keeps s0 s) :
        KeepsO s0 (execSt64 a0 a1 s) := by
  unfold execSt64
  repeat' first
    | with_reducible assumption | (extract_lets +onlyGivenNames t; clear_value t) | with_reducible apply Keeps.ite
    | with_reducible apply mopAfter_keeps | with_reducible apply lateFail_keeps
    | with_reducible apply storeBlock_keeps | (intro x; intros)

theorem execStc_keeps {a0 : Eng} {a1 : MemSlot} (h : Keeps s0 s) :
        KeepsO s0 (execStc a0 a1 s) := by
  unfold execStc
  repeat' first
    | with_reducible assumption | (extract_lets +onlyGivenNames t; clear_value t) | with_reducible apply Keeps.ite
    | with_reducible apply mopAfter_keeps | with_reducible apply stcFails_keeps
    | with_reducible apply storeCond_keeps | with_reducible apply drainEngine_keeps | (intro x; intros)

theorem execStcResult_keeps {a0 : Eng} {a1 : StcRes} (h : Keeps s0 s) :
        KeepsO s0 (execStcResult a0 a1 s) := by
  unfold execStcResult
  repeat' first
    | with_reducible assumption
    | (extract_lets +onlyGivenNames t; refine (fun (ht : Keeps s0 t) => ?_) ?_; clear_value t; on_goal 2 => subst t)
    | with_reducible apply KeepsO.next | with_reducible apply Keeps.ite | with_reducible apply dropRet_keeps
    | with_reducible apply updEng_keeps | with_reducible split

theorem refillSb_keeps {a0 : Eng} (h : Keeps s0 s) :
        Keeps s0 (refillSb a0 s) := by
  unfold refillSb
  repeat' first
    | with_reducible assumption | with_reducible apply updEng_keeps

theorem execStoreBufferPass_keeps {a0 : Eng} {a1 : Bool} (h : Keeps s0 s) :
        KeepsO s0 (execStoreBufferPass a0 a1 s) := by
  unfold execStoreBufferPass
  repeat' first
    | with_reducible assumption
    | (extract_lets +onlyGivenNames t; refine (fun (ht : Keeps s0 t) => ?_) ?_; clear_value t; on_goal 2 => subst t)
    | (extract_lets +onlyGivenNames t; clear_value t) | with_reducible apply KeepsO.next
    | with_reducible apply Keeps.ite | with_reducible apply refillSb_keeps | with_reducible apply updEng_keeps
    | with_reducible apply tick_keeps | with_reducible apply storeFailed_keeps
    | with_reducible apply passEntry_keeps | with_reducible split

theorem execTb2sp_keeps {a0 : Eng} {a1 : MemSlot} (h : Keeps s0 s) :
        KeepsO s0 (execTb2sp a0 a1 s) := by
  unfold execTb2sp
  repeat' first
    | with_reducible assumption | with_reducible apply mopAfter_keeps | with_reducible apply spPut_keeps
    | (intro x; intros)

theorem vinc_keeps {a0 : Eng} {a1 : VecSlot} {a2 : List (BitVec 6 × Nat)} (h : Keeps s0 s) :
        Keeps s0 (vinc a0 a1 a2 s) := by
  unfold vinc
  repeat' first
    | with_reducible assumption | with_reducible apply Keeps.ite | with_reducible apply addIncs_keeps

theorem execCvt_keeps {a0 : Eng} {a1 : VecSlot} {a2 : BitVec 4} {a3 : BitVec 4} {a4 : Bool} (h : Keeps s0 s) :
        KeepsO s0 (execCvt a0 a1 a2 a3 a4 s) := by
  unfold execCvt
  repeat' first
    | with_reducible assumption
    | (extract_lets +onlyGivenNames t; refine (fun (ht : Keeps s0 t) => ?_) ?_; clear_value t; on_goal 2 => subst t)
    | with_reducible apply KeepsO.next | with_reducible apply afterCommit_keeps | with_reducible apply vinc_keeps
    | with_reducible apply cvtAt_keeps | (intro x; intros)

theorem vop_keeps {a0 : Nat} {a1 : VOp} {a2 : Eng} {a3 : VecSlot} (h : Keeps s0 s) :
        KeepsO s0 (vop a0 a1 a2 a3 s) := by
  unfold vop
  repeat' first
    | with_reducible assumption
    | (extract_lets +onlyGivenNames t; refine (fun (ht : Keeps s0 t) => ?_) ?_; clear_value t; on_goal 2 => subst t)
    | (extract_lets +onlyGivenNames t; clear_value t) | with_reducible apply KeepsO.next
    | with_reducible apply afterCommit_keeps | with_reducible apply vinc_keeps | with_reducible apply vecAt_keeps
    | (intro x; intros)

theorem execExp_keeps {a0 : Eng} {a1 : VecSlot} (h : Keeps s0 s) :
        KeepsO s0 (execExp a0 a1 s) := by
  unfold execExp
  repeat' first
    | with_reducible assumption | with_reducible apply vop_keeps

theorem execFma_keeps {a0 : Eng} {a1 : VecSlot} (h : Keeps s0 s) :
        KeepsO s0 (execFma a0 a1 s) := by
  unfold execFma
  repeat' first
    | with_reducible assumption | with_reducible apply vop_keeps

theorem execMxNop_keeps {a0 : Eng} (h : Keeps s0 s) :
        KeepsO s0 (execMxNop a0 s) := by
  unfold execMxNop
  repeat' first
    | with_reducible assumption | with_reducible apply KeepsO.next | with_reducible apply issue_keeps
    | (intro x; intros)

theorem execRsq_keeps {a0 : Eng} {a1 : VecSlot} (h : Keeps s0 s) :
        KeepsO s0 (execRsq a0 a1 s) := by
  unfold execRsq
  repeat' first
    | with_reducible assumption | with_reducible apply vop_keeps

theorem execShift_keeps {a0 : Eng} {a1 : MxFmt} {a2 : BitVec 6} {a3 : BitVec 6} (h : Keeps s0 s) :
        KeepsO s0 (execShift a0 a1 a2 a3 s) := by
  unfold execShift
  repeat' first
    | with_reducible assumption | (extract_lets +onlyGivenNames t; clear_value t)
    | with_reducible apply KeepsO.next | with_reducible apply issue_keeps | with_reducible apply updEng_keeps
    | with_reducible apply opFail_keeps | (intro x; intros) | with_reducible split

theorem execShiftStall_keeps {a0 : Eng} (h : Keeps s0 s) :
        KeepsO s0 (execShiftStall a0 s) := by
  unfold execShiftStall
  repeat' first
    | with_reducible assumption | with_reducible apply KeepsO.next | with_reducible apply holdCycle_keeps
    | with_reducible split

theorem rinc_keeps {a0 : Eng} {a1 : StreamSlot} (h : Keeps s0 s) :
        Keeps s0 (rinc a0 a1 s) := by
  unfold rinc
  repeat' first
    | with_reducible assumption | with_reducible apply Keeps.ite | with_reducible apply addIncs_keeps

theorem execStream_keeps {a0 : Eng} {a1 : StreamSlot} (h : Keeps s0 s) :
        KeepsO s0 (execStream a0 a1 s) := by
  unfold execStream
  repeat' first
    | with_reducible assumption
    | (extract_lets +onlyGivenNames t; refine (fun (ht : Keeps s0 t) => ?_) ?_; clear_value t; on_goal 2 => subst t)
    | (extract_lets +onlyGivenNames t; clear_value t) | with_reducible apply KeepsO.next
    | with_reducible apply afterCommit_keeps | with_reducible apply rinc_keeps | with_reducible apply spWrite_keeps
    | with_reducible apply opFail_keeps | (intro x; intros) | with_reducible split

theorem execSwap_keeps {a0 : Eng} (h : Keeps s0 s) :
        KeepsO s0 (execSwap a0 s) := by
  unfold execSwap
  repeat' first
    | with_reducible assumption | with_reducible apply KeepsO.next | with_reducible apply issue_keeps
    | with_reducible apply updEng_keeps | (intro x; intros)

theorem execVadd_keeps {a0 : Eng} {a1 : VecSlot} (h : Keeps s0 s) :
        KeepsO s0 (execVadd a0 a1 s) := by
  unfold execVadd
  repeat' first
    | with_reducible assumption | with_reducible apply vop_keeps

theorem execVmax_keeps {a0 : Eng} {a1 : VecSlot} (h : Keeps s0 s) :
        KeepsO s0 (execVmax a0 a1 s) := by
  unfold execVmax
  repeat' first
    | with_reducible assumption | with_reducible apply vop_keeps

theorem execVmin_keeps {a0 : Eng} {a1 : VecSlot} (h : Keeps s0 s) :
        KeepsO s0 (execVmin a0 a1 s) := by
  unfold execVmin
  repeat' first
    | with_reducible assumption | with_reducible apply vop_keeps

theorem execVmul_keeps {a0 : Eng} {a1 : VecSlot} (h : Keeps s0 s) :
        KeepsO s0 (execVmul a0 a1 s) := by
  unfold execVmul
  repeat' first
    | with_reducible assumption | with_reducible apply vop_keeps

theorem execVopNop_keeps {a0 : Eng} (h : Keeps s0 s) :
        KeepsO s0 (execVopNop a0 s) := by
  unfold execVopNop
  repeat' first
    | with_reducible assumption | with_reducible apply KeepsO.next | with_reducible apply issue_keeps
    | (intro x; intros)

end Sys2Proof.Laws
end

