-- ==== Sys2Proof/Laws/KeepsPort.lean ====
section
/-! SUPPORT. Keeps of sequencing, the fabric ports, memory, ingest, the collectives, the host reads, the changes, the
registers and standing host errors. -/

namespace Sys2Proof.Laws

open Sys2Proof.Machine

variable {s0 s : State}

theorem nextWord_keeps {a0 : Eng} {a1 : Run} (h : Keeps s0 s) :
        KeepsO s0 (nextWord a0 a1 s) := by
  unfold nextWord
  repeat' first
    | with_reducible assumption | with_reducible apply KeepsO.next | with_reducible apply endWord_keeps

theorem branch_keeps {a0 : Nat} {a1 : Eng} {a2 : BitVec 12} {a3 : Regs → Bool} (h : Keeps s0 s) :
        KeepsO s0 (branch a0 a1 a2 a3 s) := by
  unfold branch
  repeat' first
    | with_reducible assumption | with_reducible apply KeepsO.next | with_reducible apply KeepsO.ite
    | with_reducible apply sequence_keeps | with_reducible apply endWord_keeps
    | with_reducible apply nextWord_keeps | (intro x; intros)

theorem execSeqBn_keeps {a0 : Eng} {a1 : BitVec 12} (h : Keeps s0 s) :
        KeepsO s0 (execSeqBn a0 a1 s) := by
  unfold execSeqBn
  repeat' first
    | with_reducible assumption | with_reducible apply branch_keeps

theorem execSeqBnz_keeps {a0 : Eng} {a1 : BitVec 12} (h : Keeps s0 s) :
        KeepsO s0 (execSeqBnz a0 a1 s) := by
  unfold execSeqBnz
  repeat' first
    | with_reducible assumption | with_reducible apply branch_keeps

theorem execSeqBz_keeps {a0 : Eng} {a1 : BitVec 12} (h : Keeps s0 s) :
        KeepsO s0 (execSeqBz a0 a1 s) := by
  unfold execSeqBz
  repeat' first
    | with_reducible assumption | with_reducible apply branch_keeps

theorem execSeqJump_keeps {a0 : Eng} {a1 : BitVec 12} (h : Keeps s0 s) :
        KeepsO s0 (execSeqJump a0 a1 s) := by
  unfold execSeqJump
  repeat' first
    | with_reducible assumption | with_reducible apply branch_keeps

theorem execSeqLoop_keeps {a0 : Eng} {a1 : BitVec 12} {a2 : Bool} (h : Keeps s0 s) :
        KeepsO s0 (execSeqLoop a0 a1 a2 s) := by
  unfold execSeqLoop
  repeat' first
    | with_reducible assumption
    | (extract_lets +onlyGivenNames t; refine (fun (ht : Keeps s0 t) => ?_) ?_; clear_value t; on_goal 2 => subst t)
    | (extract_lets +onlyGivenNames t; clear_value t) | with_reducible apply KeepsO.next
    | with_reducible apply Keeps.ite | with_reducible apply KeepsO.ite | with_reducible apply sequence_keeps
    | with_reducible apply updRun_keeps | with_reducible apply endWord_keeps | with_reducible apply nextWord_keeps
    | (intro x; intros)

theorem execSeqNext_keeps {a0 : Eng} {a1 : Ecc} (h : Keeps s0 s) :
        KeepsO s0 (execSeqNext a0 a1 s) := by
  unfold execSeqNext
  repeat' first
    | with_reducible assumption
    | (extract_lets +onlyGivenNames t; refine (fun (ht : ∀ x, Keeps s0 x → KeepsO s0 (t x)) => ?_) (fun x hx => ?_); clear_value t; on_goal 2 => subst t)
    | with_reducible apply ht | with_reducible apply KeepsO.next | with_reducible apply KeepsO.ite
    | with_reducible apply sequence_keeps | with_reducible apply nextWord_keeps
    | with_reducible refine KeepsS.elim (wordCheck_keeps ?_) ‹wordCheck _ _ _ = _› | (intro x; intros)
    | with_reducible split

theorem waitWord_keeps {a0 : Nat} {a1 : Eng} {a2 : BitVec 6} {a3 : Nat → Bool} {a4 : Run → Nat → State → Option State}
    (hf4 : ∀ x0 x1 x2, Keeps s0 x2 → KeepsS s0 (a4 x0 x1 x2)) (h : Keeps s0 s) :
    KeepsO s0 (waitWord a0 a1 a2 a3 a4 s) := by
  unfold waitWord
  extract_lets is
  with_reducible split
  · exact h
  · refine KeepsO.ite h ?_
    with_reducible split
    · rename_i e
      split at e
      · exact (hf4 _ _ _ h).elim e
      · cases e
    · exact sequence_keeps (fun _ _ _ ht => nextWord_keeps ht) h

theorem execWflag_keeps {a0 : Eng} {a1 : BitVec 6} {a2 : BitVec 16} (h : Keeps s0 s) :
        KeepsO s0 (execWflag a0 a1 a2 s) := by
  unfold execWflag
  repeat' first
    | with_reducible assumption | with_reducible apply KeepsS.some | with_reducible exact KeepsS.none
    | with_reducible apply waitWord_keeps | with_reducible apply failIndex_keeps | (intro x; intros)
    | with_reducible split

theorem execWload_keeps {a0 : Eng} (h : Keeps s0 s) :
        KeepsO s0 (execWload a0 s) := by
  unfold execWload
  repeat' first
    | with_reducible assumption | with_reducible apply sequence_keeps | with_reducible apply nextWord_keeps
    | (intro x; intros)

theorem slotFail_keeps {a0 : Eng} {a1 : Run} {a2 : Nat} (h : Keeps s0 s) :
        KeepsS s0 (slotFail a0 a1 a2 s) := by
  unfold slotFail
  repeat' first
    | with_reducible assumption | with_reducible apply KeepsS.some | with_reducible exact KeepsS.none
    | with_reducible apply KeepsS.ite | with_reducible apply failIndex_keeps

theorem execWslotd_keeps {a0 : Eng} {a1 : BitVec 6} (h : Keeps s0 s) :
        KeepsO s0 (execWslotd a0 a1 s) := by
  unfold execWslotd
  repeat' first
    | with_reducible assumption | with_reducible apply waitWord_keeps | with_reducible apply slotFail_keeps
    | (intro x; intros)

theorem execWslotf_keeps {a0 : Eng} {a1 : BitVec 6} (h : Keeps s0 s) :
        KeepsO s0 (execWslotf a0 a1 s) := by
  unfold execWslotf
  repeat' first
    | with_reducible assumption | with_reducible apply waitWord_keeps | with_reducible apply slotFail_keeps
    | (intro x; intros)

theorem armEpoch_keeps (h : Keeps s0 s) :
        Keeps s0 (armEpoch s) := by
  unfold armEpoch
  repeat' first
    | with_reducible assumption | with_reducible exact Keeps.put h | with_reducible apply Keeps.ite

theorem execAckRx_keeps {a0 : Frame} (h : Keeps s0 s) :
        KeepsO s0 (execAckRx a0 s) := by
  unfold execAckRx
  repeat' first
    | with_reducible assumption | with_reducible apply KeepsO.next | with_reducible apply Keeps.ite
    | with_reducible apply ctxAnswer_keeps | with_reducible split

theorem execEpochArm_keeps {a0 : Vi} (h : Keeps s0 s) :
        KeepsO s0 (execEpochArm a0 s) := by
  unfold execEpochArm
  repeat' first
    | with_reducible assumption | with_reducible apply KeepsO.next | with_reducible apply Keeps.ite
    | with_reducible apply armEpoch_keeps

theorem flipEpoch_keeps (h : Keeps s0 s) :
        Keeps s0 (flipEpoch s) := by
  unfold flipEpoch
  repeat' first
    | with_reducible exact Keeps.put h

theorem execEpochFlip_keeps {a0 : Vi} {a1 : Bool} (h : Keeps s0 s) :
        KeepsO s0 (execEpochFlip a0 a1 s) := by
  unfold execEpochFlip
  repeat' first
    | with_reducible assumption | with_reducible apply KeepsO.next | with_reducible apply Keeps.ite
    | with_reducible apply flipEpoch_keeps | with_reducible apply armEpoch_keeps

theorem execGraceEnd_keeps (h : Keeps s0 s) :
        KeepsO s0 (execGraceEnd s) := by
  unfold execGraceEnd
  repeat' first
    | with_reducible exact Keeps.put h | with_reducible apply KeepsO.next

theorem losePort_keeps {a0 : Port} {a1 : Nat} (h : Keeps s0 s) :
        Keeps s0 (losePort a0 a1 s) := by
  unfold losePort
  repeat' first
    | with_reducible assumption | with_reducible apply Keeps.ite | with_reducible apply raise_keeps
    | with_reducible apply portDown_keeps

theorem execHelloLoss_keeps {a0 : Port} (h : Keeps s0 s) :
        KeepsO s0 (execHelloLoss a0 s) := by
  unfold execHelloLoss
  repeat' first
    | with_reducible assumption | with_reducible apply KeepsO.next | with_reducible apply Keeps.ite
    | with_reducible apply losePort_keeps

theorem setHello_keeps {a0 : Port} {a1 : PState} (h : Keeps s0 s) :
        Keeps s0 (setHello a0 a1 s) := by
  unfold setHello
  repeat' first
    | with_reducible assumption
    | (extract_lets +onlyGivenNames t; refine (fun (ht : Keeps s0 t) => ?_) ?_; clear_value t; on_goal 2 => subst t)
    | (extract_lets +onlyGivenNames t; clear_value t) | with_reducible apply Keeps.ite
    | with_reducible apply enterUp_keeps | with_reducible apply leaveUp_keeps | with_reducible apply raise_keeps

theorem lateHello_keeps {a0 : Port} {a1 : Hello} (h : Keeps s0 s) :
        Keeps s0 (lateHello a0 a1 s) := by
  unfold lateHello
  repeat' first
    | with_reducible assumption
    | (extract_lets +onlyGivenNames t; refine (fun (ht : Keeps s0 t) => ?_) ?_; clear_value t; on_goal 2 => subst t)
    | (extract_lets +onlyGivenNames t; clear_value t) | with_reducible apply Keeps.ite
    | with_reducible apply losePort_keeps | with_reducible apply setHello_keeps
    | with_reducible apply updPort_keeps

theorem takeHello_keeps {a0 : Port} {a1 : Hello} (h : Keeps s0 s) :
        Keeps s0 (takeHello a0 a1 s) := by
  unfold takeHello
  repeat' first
    | with_reducible assumption | with_reducible apply setHello_keeps | with_reducible apply updPort_keeps

theorem execHelloRx_keeps {a0 : Port} {a1 : Hello} (h : Keeps s0 s) :
        KeepsO s0 (execHelloRx a0 a1 s) := by
  unfold execHelloRx
  repeat' first
    | with_reducible assumption | with_reducible apply KeepsO.next | with_reducible apply Keeps.ite
    | with_reducible apply lateHello_keeps | with_reducible apply takeHello_keeps
    | with_reducible apply fcount_keeps

theorem execHelloTx_keeps {a0 : Port} (h : Keeps s0 s) :
        KeepsO s0 (execHelloTx a0 s) := by
  unfold execHelloTx
  repeat' first
    | with_reducible assumption | with_reducible apply KeepsO.next | with_reducible apply Keeps.ite
    | with_reducible apply emit_keeps

theorem execIngestFallback_keeps {a0 : Port} (h : Keeps s0 s) :
        KeepsO s0 (execIngestFallback a0 s) := by
  unfold execIngestFallback
  repeat' first
    | with_reducible assumption | (extract_lets +onlyGivenNames t; clear_value t)
    | with_reducible apply KeepsO.next | with_reducible apply Keeps.ite | with_reducible apply updPort_keeps

theorem sendLink_keeps {a0 : Port} (h : Keeps s0 s) :
        Keeps s0 (sendLink a0 s) := by
  unfold sendLink
  repeat' first
    | with_reducible assumption
    | (extract_lets +onlyGivenNames t; refine (fun (ht : Keeps s0 t) => ?_) ?_; clear_value t; on_goal 2 => subst t)
    | (extract_lets +onlyGivenNames t; clear_value t) | with_reducible apply updPort_keeps
    | with_reducible apply emit_keeps

theorem linkDue_keeps (h : Keeps s0 s) :
        Keeps s0 (linkDue s) := by
  unfold linkDue
  repeat' first
    | with_reducible assumption | with_reducible apply Keeps.ite
    | with_reducible refine Keeps.foldl (fun t x ht => ?_) _ ?_ | with_reducible apply sendLink_keeps

theorem replay_keeps {a0 : Port} (h : Keeps s0 s) :
        Keeps s0 (replay a0 s) := by
  unfold replay
  repeat' first
    | with_reducible assumption
    | (extract_lets +onlyGivenNames t; refine (fun (ht : Keeps s0 t) => ?_) ?_; clear_value t; on_goal 2 => subst t)
    | (extract_lets +onlyGivenNames t; clear_value t) | with_reducible apply Keeps.ite
    | with_reducible refine Keeps.foldl (fun t x ht => ?_) _ ?_ | with_reducible apply losePort_keeps
    | with_reducible apply emit_keeps | with_reducible apply fcount_keeps | with_reducible apply updPort_keeps

theorem execLinkRx_keeps {a0 : Port} {a1 : List (BitVec 12)} {a2 : BitVec 12} {a3 : Bool} (h : Keeps s0 s) :
        KeepsO s0 (execLinkRx a0 a1 a2 a3 s) := by
  unfold execLinkRx
  repeat' first
    | with_reducible assumption
    | (extract_lets +onlyGivenNames t; refine (fun (ht : Keeps s0 t) => ?_) ?_; clear_value t; on_goal 2 => subst t)
    | with_reducible apply KeepsO.next | with_reducible exact KeepsO.refused | with_reducible apply Keeps.ite
    | with_reducible apply KeepsO.ite | with_reducible apply updPort_keeps | with_reducible apply linkDue_keeps
    | with_reducible apply drainPort_keeps | with_reducible apply replay_keeps

theorem execLinkTx_keeps {a0 : Port} (h : Keeps s0 s) :
        KeepsO s0 (execLinkTx a0 s) := by
  unfold execLinkTx
  repeat' first
    | with_reducible assumption | with_reducible apply KeepsO.next | with_reducible apply Keeps.ite
    | with_reducible apply sendLink_keeps

theorem execPortLinkLoss_keeps {a0 : Port} (h : Keeps s0 s) :
        KeepsO s0 (execPortLinkLoss a0 s) := by
  unfold execPortLinkLoss
  repeat' first
    | with_reducible assumption | with_reducible apply KeepsO.next | with_reducible apply Keeps.ite
    | with_reducible apply losePort_keeps | with_reducible apply updPort_keeps

theorem execPortLinkUp_keeps {a0 : Port} {a1 : BitVec 2} (h : Keeps s0 s) :
        KeepsO s0 (execPortLinkUp a0 a1 s) := by
  unfold execPortLinkUp
  repeat' first
    | with_reducible assumption | with_reducible exact Keeps.put h
    | (extract_lets +onlyGivenNames t; clear_value t) | with_reducible apply KeepsO.next
    | with_reducible apply Keeps.ite | with_reducible apply updPort_keeps

theorem execReplayTimeout_keeps {a0 : Port} (h : Keeps s0 s) :
        KeepsO s0 (execReplayTimeout a0 s) := by
  unfold execReplayTimeout
  repeat' first
    | with_reducible assumption | with_reducible apply KeepsO.next | with_reducible apply Keeps.ite
    | with_reducible apply replay_keeps

theorem execRouteFrame_keeps {a0 : Frame} {a1 : Option Port} (h : Keeps s0 s) :
        KeepsO s0 (execRouteFrame a0 a1 s) := by
  unfold execRouteFrame
  repeat' first
    | with_reducible assumption | with_reducible apply KeepsO.next | with_reducible exact KeepsO.refused
    | with_reducible apply Keeps.ite | with_reducible apply KeepsO.ite | with_reducible apply linkDue_keeps
    | with_reducible apply sendFrame_keeps | with_reducible apply oweCredits_keeps
    | with_reducible apply raise_keeps | with_reducible apply routeIn_keeps | with_reducible split

theorem rxAccept_keeps {a0 : Port} (h : Keeps s0 s) :
        Keeps s0 (rxAccept a0 s) := by
  unfold rxAccept
  repeat' first
    | with_reducible assumption | with_reducible apply updPort_keeps

theorem rxError_keeps {a0 : Port} (h : Keeps s0 s) :
        Keeps s0 (rxError a0 s) := by
  unfold rxError
  repeat' first
    | with_reducible assumption | with_reducible apply sendLink_keeps | with_reducible apply updPort_keeps

theorem execSeqFrameRx_keeps {a0 : Port} {a1 : Frame} {a2 : Fcs} (h : Keeps s0 s) :
        KeepsO s0 (execSeqFrameRx a0 a1 a2 s) := by
  unfold execSeqFrameRx
  repeat' first
    | with_reducible assumption | with_reducible apply KeepsO.next | with_reducible exact KeepsO.refused
    | with_reducible apply Keeps.ite | with_reducible apply KeepsO.ite | with_reducible apply fcount_keeps
    | with_reducible apply rxError_keeps | with_reducible apply linkDue_keeps
    | with_reducible apply oweCredits_keeps | with_reducible apply rxAccept_keeps

theorem execWriteAckTx_keeps (h : Keeps s0 s) :
        KeepsO s0 (execWriteAckTx s) := by
  unfold execWriteAckTx
  repeat' first
    | with_reducible assumption | with_reducible exact Keeps.put h | with_reducible apply KeepsO.next
    | with_reducible apply Keeps.ite | with_reducible apply sendFrame_keeps | with_reducible split

theorem execWriteRx_keeps {a0 : Frame} (h : Keeps s0 s) :
        KeepsO s0 (execWriteRx a0 s) := by
  unfold execWriteRx
  repeat' first
    | with_reducible assumption | with_reducible exact Keeps.put ht
    | (extract_lets +onlyGivenNames t; refine (fun (ht : Keeps s0 t) => ?_) ?_; clear_value t; on_goal 2 => subst t)
    | (extract_lets +onlyGivenNames t; refine (fun (ht : KeepsP s0 t) => ?_) ?_; clear_value t; on_goal 2 => subst t)
    | with_reducible apply KeepsO.next | with_reducible exact KeepsO.refused | with_reducible apply Keeps.ite
    | with_reducible apply KeepsO.ite | with_reducible apply writeWindow_keeps
    | with_reducible exact KeepsP.snd ‹_›

theorem execWriteTimeout_keeps {a0 : BitVec 12} {a1 : BitVec 48} (h : Keeps s0 s) :
        KeepsO s0 (execWriteTimeout a0 a1 s) := by
  unfold execWriteTimeout
  repeat' first
    | with_reducible assumption | with_reducible apply KeepsO.next | with_reducible apply Keeps.ite
    | with_reducible apply ctxAnswer_keeps | with_reducible split

theorem memFail_keeps {a0 : Kiln} {a1 : Nat} (h : Keeps s0 s) :
        Keeps s0 (memFail a0 a1 s) := by
  unfold memFail
  repeat' first
    | with_reducible assumption | with_reducible apply Keeps.ite | with_reducible apply raise_keeps

theorem execMemFailed_keeps {a0 : Kiln} {a1 : BitVec 8} (h : Keeps s0 s) :
        KeepsO s0 (execMemFailed a0 a1 s) := by
  unfold execMemFailed
  repeat' first
    | with_reducible assumption | with_reducible apply KeepsO.next | with_reducible apply Keeps.ite
    | with_reducible apply memFail_keeps

theorem memCheck_keeps {a0 : Nat} {a1 : Ecc} (h : Keeps s0 s) :
        Keeps s0 (memCheck a0 a1 s) := by
  unfold memCheck
  repeat' first
    | with_reducible assumption | with_reducible exact Keeps.put ht
    | (extract_lets +onlyGivenNames t; refine (fun (ht : Keeps s0 t) => ?_) ?_; clear_value t; on_goal 2 => subst t)
    | (extract_lets +onlyGivenNames t; clear_value t) | with_reducible apply Keeps.ite
    | with_reducible apply raise_keeps | with_reducible apply fcount_keeps | with_reducible apply setPoison_keeps
    | with_reducible apply fset_keeps | with_reducible apply memFail_keeps | with_reducible split

theorem execMemRead_keeps {a0 : BitVec 38} {a1 : Ecc} (h : Keeps s0 s) :
        KeepsO s0 (execMemRead a0 a1 s) := by
  unfold execMemRead
  repeat' first
    | with_reducible assumption | with_reducible apply KeepsO.next | with_reducible apply memCheck_keeps

theorem execMemUeWindowEnd_keeps {a0 : Kiln} (h : Keeps s0 s) :
        KeepsO s0 (execMemUeWindowEnd a0 s) := by
  unfold execMemUeWindowEnd
  repeat' first
    | with_reducible exact Keeps.put h | with_reducible apply KeepsO.next

theorem execScrubRead_keeps {a0 : Chan} {a1 : Ecc} (h : Keeps s0 s) :
        KeepsO s0 (execScrubRead a0 a1 s) := by
  unfold execScrubRead
  repeat' first
    | with_reducible assumption | with_reducible exact Keeps.put h
    | (extract_lets +onlyGivenNames t; refine (fun (ht : Keeps s0 t) => ?_) ?_; clear_value t; on_goal 2 => subst t)
    | (extract_lets +onlyGivenNames t; clear_value t) | with_reducible apply KeepsO.next
    | with_reducible apply Keeps.ite | with_reducible apply memCheck_keeps

theorem acceptPacket_keeps {a0 : Grp} {a1 : Packet} {a2 : Wr} (h : Keeps s0 s) :
        Keeps s0 (acceptPacket a0 a1 a2 s) := by
  unfold acceptPacket
  repeat' first
    | with_reducible assumption
    | (extract_lets +onlyGivenNames t; refine (fun (ht : Keeps s0 t) => ?_) ?_; clear_value t; on_goal 2 => subst t)
    | (extract_lets +onlyGivenNames t; clear_value t) | with_reducible apply Keeps.ite
    | with_reducible apply acceptWrite_keeps | with_reducible apply updQp_keeps | with_reducible apply updVi_keeps

theorem sendRoce_keeps {a0 : Port} {a1 : Nat} {a2 : Roce} (h : Keeps s0 s) :
        Keeps s0 (sendRoce a0 a1 a2 s) := by
  unfold sendRoce
  repeat' first
    | with_reducible assumption | with_reducible apply Keeps.ite | with_reducible apply updPort_keeps
    | with_reducible apply emit_keeps

theorem answerCe_keeps {a0 : Grp} (h : Keeps s0 s) :
        Keeps s0 (answerCe a0 s) := by
  unfold answerCe
  repeat' first
    | with_reducible assumption | (extract_lets +onlyGivenNames t; clear_value t) | with_reducible apply Keeps.ite
    | with_reducible apply sendRoce_keeps | with_reducible apply updQp_keeps

theorem execIngestAck_keeps {a0 : Grp} (h : Keeps s0 s) :
        KeepsO s0 (execIngestAck a0 s) := by
  unfold execIngestAck
  repeat' first
    | with_reducible assumption | (extract_lets +onlyGivenNames t; clear_value t)
    | with_reducible apply KeepsO.next | with_reducible apply Keeps.ite | with_reducible apply sendRoce_keeps
    | with_reducible apply updQp_keeps

theorem execIngestCompletion_keeps {a0 : Vi} {a1 : Bool} (h : Keeps s0 s) :
        KeepsO s0 (execIngestCompletion a0 a1 s) := by
  unfold execIngestCompletion
  repeat' first
    | with_reducible assumption
    | (extract_lets +onlyGivenNames t; refine (fun (ht : Keeps s0 t) => ?_) ?_; clear_value t; on_goal 2 => subst t)
    | with_reducible apply KeepsO.next | with_reducible apply Keeps.ite | with_reducible apply updVi_keeps
    | with_reducible apply stopRing_keeps | with_reducible apply putEntry_keeps
    | with_reducible apply ringOut_keeps | with_reducible split

theorem sendPfc_keeps {a0 : Port} {a1 : Bool} (h : Keeps s0 s) :
        Keeps s0 (sendPfc a0 a1 s) := by
  unfold sendPfc
  repeat' first
    | with_reducible assumption | with_reducible refine Keeps.foldl (fun t x ht => ?_) _ ?_
    | with_reducible apply emit_keeps

theorem fillTo_keeps {a0 : Port} {a1 : Nat} (h : Keeps s0 s) :
        Keeps s0 (fillTo a0 a1 s) := by
  unfold fillTo
  repeat' first
    | with_reducible assumption
    | (extract_lets +onlyGivenNames t; refine (fun (ht : Keeps s0 t) => ?_) ?_; clear_value t; on_goal 2 => subst t)
    | with_reducible apply Keeps.ite | with_reducible apply updPort_keeps | with_reducible apply sendPfc_keeps

theorem qpError_keeps {a0 : Grp} {a1 : Nat} {a2 : Nat} {a3 : Nat} (h : Keeps s0 s) :
        Keeps s0 (qpError a0 a1 a2 a3 s) := by
  unfold qpError
  repeat' first
    | with_reducible assumption
    | (extract_lets +onlyGivenNames t; refine (fun (ht : Keeps s0 t) => ?_) ?_; clear_value t; on_goal 2 => subst t)
    | (extract_lets +onlyGivenNames t; clear_value t) | with_reducible apply Keeps.ite
    | with_reducible apply updQp_keeps | with_reducible apply writeBackQp_keeps | with_reducible apply updVi_keeps

theorem runPacket_keeps {a0 : Grp} {a1 : Packet} (h : Keeps s0 s) :
        Keeps s0 (runPacket a0 a1 s) := by
  unfold runPacket
  repeat' first
    | with_reducible assumption
    | (extract_lets +onlyGivenNames t; refine (fun (ht : ∀ a b c x, Keeps s0 x → Keeps s0 (t a b c x)) => ?_) (fun a b c x hx => ?_); clear_value t; on_goal 2 => subst t; beta_reduce)
    | with_reducible apply ht
    | (extract_lets +onlyGivenNames t; refine (fun (ht : Keeps s0 t) => ?_) ?_; clear_value t; on_goal 2 => subst t)
    | (extract_lets +onlyGivenNames t; clear_value t) | with_reducible apply Keeps.ite
    | with_reducible apply updQp_keeps | with_reducible apply sendRoce_keeps | with_reducible apply qpError_keeps
    | with_reducible apply tick_keeps | with_reducible apply acceptPacket_keeps | with_reducible split

theorem qpPacket_keeps {a0 : Grp} {a1 : Packet} (h : Keeps s0 s) :
        Keeps s0 (qpPacket a0 a1 s) := by
  unfold qpPacket
  repeat' first
    | with_reducible assumption | with_reducible apply Keeps.ite | with_reducible apply answerCe_keeps
    | with_reducible apply sendRoce_keeps | with_reducible apply updQp_keeps | with_reducible apply runPacket_keeps

theorem execIngestPacket_keeps {a0 : Port} {a1 : Packet} (h : Keeps s0 s) :
        KeepsO s0 (execIngestPacket a0 a1 s) := by
  unfold execIngestPacket
  repeat' first
    | with_reducible assumption
    | (extract_lets +onlyGivenNames t; refine (fun (ht : Keeps s0 t) => ?_) ?_; clear_value t; on_goal 2 => subst t)
    | (extract_lets +onlyGivenNames t; clear_value t) | with_reducible apply KeepsO.next
    | with_reducible apply Keeps.ite | with_reducible apply fcount_keeps | with_reducible apply fillTo_keeps
    | with_reducible apply updQp_keeps | with_reducible apply qpPacket_keeps | with_reducible split

theorem execOtherFrameRx_keeps {a0 : Port} {a1 : OtherFrame} (h : Keeps s0 s) :
        KeepsO s0 (execOtherFrameRx a0 a1 s) := by
  unfold execOtherFrameRx
  repeat' first
    | with_reducible assumption | (extract_lets +onlyGivenNames t; clear_value t)
    | with_reducible apply KeepsO.next | with_reducible apply Keeps.ite | with_reducible apply fcount_keeps

theorem unpause_keeps {a0 : Port} {a1 : Nat} (h : Keeps s0 s) :
        Keeps s0 (unpause a0 a1 s) := by
  unfold unpause
  repeat' first
    | with_reducible assumption
    | (extract_lets +onlyGivenNames t; refine (fun (ht : Keeps s0 t) => ?_) ?_; clear_value t; on_goal 2 => subst t)
    | (extract_lets +onlyGivenNames t; clear_value t) | with_reducible refine Keeps.foldl (fun t x ht => ?_) _ ?_
    | with_reducible apply updPort_keeps | with_reducible apply emit_keeps

theorem execPfcPauseExpiry_keeps {a0 : Port} {a1 : Fin 8} (h : Keeps s0 s) :
        KeepsO s0 (execPfcPauseExpiry a0 a1 s) := by
  unfold execPfcPauseExpiry
  repeat' first
    | with_reducible assumption | with_reducible apply KeepsO.next | with_reducible apply Keeps.ite
    | with_reducible apply unpause_keeps

theorem execPfcRx_keeps {a0 : Port} {a1 : BitVec 8} {a2 : BitVec 16} (h : Keeps s0 s) :
        KeepsO s0 (execPfcRx a0 a1 a2 s) := by
  unfold execPfcRx
  repeat' first
    | with_reducible assumption | with_reducible apply KeepsO.next | with_reducible apply Keeps.ite
    | with_reducible refine Keeps.foldl (fun t x ht => ?_) _ ?_ | with_reducible apply unpause_keeps
    | with_reducible apply updPort_keeps

theorem execPfcXoffRepeat_keeps {a0 : Port} (h : Keeps s0 s) :
        KeepsO s0 (execPfcXoffRepeat a0 s) := by
  unfold execPfcXoffRepeat
  repeat' first
    | with_reducible assumption | with_reducible apply KeepsO.next | with_reducible apply Keeps.ite
    | with_reducible apply sendPfc_keeps

theorem execPfcXon_keeps {a0 : Port} {a1 : BitVec 20} (h : Keeps s0 s) :
        KeepsO s0 (execPfcXon a0 a1 s) := by
  unfold execPfcXon
  repeat' first
    | with_reducible assumption
    | (extract_lets +onlyGivenNames t; refine (fun (ht : Keeps s0 t) => ?_) ?_; clear_value t; on_goal 2 => subst t)
    | with_reducible apply KeepsO.next | with_reducible apply Keeps.ite | with_reducible apply updPort_keeps
    | with_reducible apply sendPfc_keeps

theorem checkPiece_keeps {a0 : Grp} {a1 : Nat} {a2 : Nat} (h : Keeps s0 s) :
        Keeps s0 (checkPiece a0 a1 a2 s) := by
  unfold checkPiece
  repeat' first
    | with_reducible assumption | (extract_lets +onlyGivenNames t; clear_value t) | with_reducible apply Keeps.ite
    | with_reducible apply originate_keeps | with_reducible apply updColl_keeps | with_reducible split

theorem endRefail_keeps {a0 : Nat} {a1 : CollSt} (h : Keeps s0 s) :
        Keeps s0 (endRefail a0 a1 s) := by
  unfold endRefail
  repeat' first
    | with_reducible assumption | with_reducible exact Keeps.put h | with_reducible apply Keeps.ite
    | with_reducible split

theorem execAbort_keeps {a0 : Grp} {a1 : BitVec 16} {a2 : BitVec 18} {a3 : Byte} {a4 : BitVec 32} (h : Keeps s0 s) :
        KeepsO s0 (execAbort a0 a1 a2 a3 a4 s) := by
  unfold execAbort
  repeat' first
    | with_reducible assumption | with_reducible apply KeepsO.next | with_reducible apply Keeps.ite
    | with_reducible apply recvAbort_keeps

theorem inTime_keeps {a0 : Grp} {a1 : State → State} (hf1 : ∀ x0, Keeps s0 x0 → Keeps s0 (a1 x0)) (h : Keeps s0 s) :
        Keeps s0 (inTime a0 a1 s) := by
  unfold inTime
  repeat' first
    | with_reducible assumption | with_reducible apply Keeps.ite | with_reducible apply originate_keeps
    | with_reducible apply hf1

theorem recvArrive_keeps {a0 : Nat} {a1 : Nat} {a2 : Nat} {a3 : List Byte} (h : Keeps s0 s) :
        Keeps s0 (recvArrive a0 a1 a2 a3 s) := by
  unfold recvArrive
  repeat' first
    | with_reducible assumption | (extract_lets +onlyGivenNames t; clear_value t) | with_reducible apply Keeps.ite
    | with_reducible apply originate_keeps | with_reducible apply updColl_keeps | with_reducible split

theorem execArrive_keeps {a0 : Grp} {a1 : BitVec 16} {a2 : BitVec 18} {a3 : BitVec 32} {a4 : List Byte} (h : Keeps
    s0 s) :
        KeepsO s0 (execArrive a0 a1 a2 a3 a4 s) := by
  unfold execArrive
  repeat' first
    | with_reducible assumption | with_reducible apply KeepsO.next | with_reducible apply Keeps.ite
    | with_reducible apply inTime_keeps | with_reducible apply progress_keeps
    | with_reducible apply recvArrive_keeps | with_reducible apply updColl_keeps | (intro x; intros)

theorem seqMismatch_keeps {a0 : Vi} {a1 : Fly} (h : Keeps s0 s) :
        Keeps s0 (seqMismatch a0 a1 s) := by
  unfold seqMismatch
  repeat' first
    | with_reducible assumption
    | (extract_lets +onlyGivenNames t; refine (fun (ht : Keeps s0 t) => ?_) ?_; clear_value t; on_goal 2 => subst t)
    | (extract_lets +onlyGivenNames t; clear_value t) | with_reducible apply fcount_keeps
    | with_reducible apply sendAbort_keeps | with_reducible apply finish_keeps
    | with_reducible apply abortFlags_keeps

theorem writeLastSeq_keeps {a0 : Nat} {a1 : Nat} (h : Keeps s0 s) :
        Keeps s0 (writeLastSeq a0 a1 s) := by
  unfold writeLastSeq
  repeat' first
    | with_reducible assumption | with_reducible apply acceptWrite_keeps

theorem execColl_keeps {a0 : Vi} {a1 : BitVec 32} (h : Keeps s0 s) :
        KeepsO s0 (execColl a0 a1 s) := by
  unfold execColl
  repeat' first
    | with_reducible assumption | with_reducible exact Keeps.put ht
    | (extract_lets +onlyGivenNames t; refine (fun (ht : Keeps s0 t) => ?_) ?_; clear_value t; on_goal 2 => subst t)
    | (extract_lets +onlyGivenNames t; clear_value t) | with_reducible apply KeepsO.next
    | with_reducible apply Keeps.ite | with_reducible apply finish_keeps | with_reducible apply writeLastSeq_keeps
    | with_reducible apply seqMismatch_keeps | with_reducible split

theorem execCollComplete_keeps {a0 : Grp} (h : Keeps s0 s) :
        KeepsO s0 (execCollComplete a0 s) := by
  unfold execCollComplete
  repeat' first
    | with_reducible assumption | (extract_lets +onlyGivenNames t; clear_value t)
    | with_reducible apply KeepsO.next | with_reducible apply Keeps.ite | with_reducible apply inTime_keeps
    | with_reducible apply progress_keeps | with_reducible apply collFail_keeps
    | with_reducible apply clearColl_keeps | with_reducible apply noteLast_keeps
    | with_reducible apply finish_keeps | (intro x; intros) | with_reducible split

theorem grantMore_keeps {a0 : Grp} {a1 : Nat} {a2 : Nat} (h : Keeps s0 s) :
        Keeps s0 (grantMore a0 a1 a2 s) := by
  unfold grantMore
  repeat' first
    | with_reducible assumption | (extract_lets +onlyGivenNames t; clear_value t) | with_reducible apply Keeps.ite
    | with_reducible apply sendFrame_keeps | with_reducible split

theorem landBytes_keeps {a0 : Grp} {a1 : Nat} {a2 : Nat} {a3 : List Byte} (h : Keeps s0 s) :
        Keeps s0 (landBytes a0 a1 a2 a3 s) := by
  unfold landBytes
  repeat' first
    | with_reducible assumption | with_reducible apply updColl_keeps

theorem recvData_keeps {a0 : Grp} {a1 : Nat} {a2 : Nat} {a3 : Nat} {a4 : Bool} {a5 : Nat} {a6 : List Byte} (h :
    Keeps s0 s) :
        Keeps s0 (recvData a0 a1 a2 a3 a4 a5 a6 s) := by
  unfold recvData
  repeat' first
    | with_reducible assumption
    | (extract_lets +onlyGivenNames t; refine (fun (ht : Keeps s0 t) => ?_) ?_; clear_value t; on_goal 2 => subst t)
    | (extract_lets +onlyGivenNames t; clear_value t) | with_reducible apply Keeps.ite
    | with_reducible apply landBytes_keeps | with_reducible apply updColl_keeps
    | with_reducible apply progress_keeps | with_reducible apply grantMore_keeps
    | with_reducible apply checkPiece_keeps

theorem execCollDataRx_keeps {a0 : Grp} {a1 : BitVec 16} {a2 : BitVec 18} {a3 : Bool} {a4 : BitVec 24} {a5 : BitVec
    22} {a6 : Bool} {a7 : BitVec 32} {a8 : List Byte} (h : Keeps s0 s) :
        KeepsO s0 (execCollDataRx a0 a1 a2 a3 a4 a5 a6 a7 a8 s) := by
  unfold execCollDataRx
  repeat' first
    | with_reducible assumption | with_reducible apply KeepsO.next | with_reducible apply Keeps.ite
    | with_reducible apply inTime_keeps | with_reducible apply recvData_keeps | (intro x; intros)
    | with_reducible split

theorem execCollDeadline_keeps {a0 : Grp} (h : Keeps s0 s) : KeepsO s0 (execCollDeadline a0 s) :=
  KeepsO.next (Keeps.ite (inTime_keeps (fun _ k => k) h) h)

theorem grantAll_keeps {a0 : Nat} (h : Keeps s0 s) :
        Keeps s0 (grantAll a0 s) := by
  unfold grantAll
  repeat' first
    | with_reducible assumption | (extract_lets +onlyGivenNames t; clear_value t) | with_reducible apply Keeps.ite
    | with_reducible refine Keeps.foldl (fun t x ht => ?_) _ ?_ | with_reducible apply sendFrame_keeps
    | with_reducible split

theorem recvGrant_keeps {a0 : Nat} {a1 : Nat} {a2 : Nat} (h : Keeps s0 s) :
        Keeps s0 (recvGrant a0 a1 a2 s) := by
  unfold recvGrant
  repeat' first
    | with_reducible assumption | (extract_lets +onlyGivenNames t; clear_value t)
    | with_reducible apply updColl_keeps | with_reducible split

theorem takeEarly_keeps {a0 : Grp} (h : Keeps s0 s) :
        Keeps s0 (takeEarly a0 s) := by
  unfold takeEarly
  repeat' first
    | with_reducible assumption
    | (extract_lets +onlyGivenNames t; refine (fun (ht : Keeps s0 t) => ?_) ?_; clear_value t; on_goal 2 => subst t)
    | (extract_lets +onlyGivenNames t; clear_value t) | with_reducible apply Keeps.ite
    | with_reducible refine Keeps.foldl (fun t x ht => ?_) _ ?_ | with_reducible apply updColl_keeps
    | with_reducible apply recvGrant_keeps | with_reducible apply recvArrive_keeps

theorem launchColl_keeps {a0 : Vi} {a1 : Fly} (h : Keeps s0 s) :
        Keeps s0 (launchColl a0 a1 s) := by
  unfold launchColl
  repeat' first
    | with_reducible assumption
    | (extract_lets +onlyGivenNames t; refine (fun (ht : Keeps s0 t) => ?_) ?_; clear_value t; on_goal 2 => subst t)
    | (extract_lets +onlyGivenNames t; clear_value t) | with_reducible apply updFly_keeps
    | with_reducible apply updColl_keeps | with_reducible apply endRefail_keeps
    | with_reducible apply takeEarly_keeps | with_reducible apply grantAll_keeps
    | with_reducible apply progress_keeps

theorem execCollLaunch_keeps {a0 : Vi} {a1 : BitVec 32} (h : Keeps s0 s) :
        KeepsO s0 (execCollLaunch a0 a1 s) := by
  unfold execCollLaunch
  repeat' first
    | with_reducible assumption | with_reducible exact Keeps.put h
    | (extract_lets +onlyGivenNames t; refine (fun (ht : Keeps s0 t) => ?_) ?_; clear_value t; on_goal 2 => subst t)
    | (extract_lets +onlyGivenNames t; clear_value t) | with_reducible apply KeepsO.next
    | with_reducible apply Keeps.ite | with_reducible apply finish_keeps | with_reducible apply launchColl_keeps
    | with_reducible split

theorem execGrant_keeps {a0 : Grp} {a1 : BitVec 16} {a2 : BitVec 18} {a3 : BitVec 32} (h : Keeps s0 s) :
        KeepsO s0 (execGrant a0 a1 a2 a3 s) := by
  unfold execGrant
  repeat' first
    | with_reducible assumption | with_reducible apply KeepsO.next | with_reducible apply Keeps.ite
    | with_reducible apply inTime_keeps | with_reducible apply progress_keeps
    | with_reducible apply recvGrant_keeps | with_reducible apply updColl_keeps | (intro x; intros)

theorem execRelease_keeps {a0 : Grp} {a1 : BitVec 16} {a2 : BitVec 18} {a3 : List Byte} (h : Keeps s0 s) :
        KeepsO s0 (execRelease a0 a1 a2 a3 s) := by
  unfold execRelease
  repeat' first
    | with_reducible assumption | with_reducible apply KeepsO.next | with_reducible apply Keeps.ite
    | with_reducible apply inTime_keeps | with_reducible apply progress_keeps
    | with_reducible apply releaseDown_keeps | (intro x; intros)

theorem placeSherd_keeps {a0 : Nat} {a1 : CollSt} {a2 : Eng} {a3 : Nat} {a4 : Nat} (h : Keeps s0 s) :
        Keeps s0 (placeSherd a0 a1 a2 a3 a4 s) := by
  unfold placeSherd
  repeat' first
    | with_reducible assumption
    | (extract_lets +onlyGivenNames t; refine (fun (ht : Keeps s0 t) => ?_) ?_; clear_value t; on_goal 2 => subst t)
    | (extract_lets +onlyGivenNames t; clear_value t)
    | with_reducible refine KeepsP.elim (srcBytes_keeps ?_) ‹srcBytes _ _ _ _ _ = _›
    | with_reducible apply collFail_keeps | with_reducible apply updEng_keeps | with_reducible apply spWrite_keeps
    | with_reducible apply updColl_keeps | with_reducible split

theorem execStagePlace_keeps {a0 : Grp} (h : Keeps s0 s) :
        KeepsO s0 (execStagePlace a0 s) := by
  unfold execStagePlace
  repeat' first
    | with_reducible assumption | (extract_lets +onlyGivenNames t; clear_value t)
    | with_reducible apply KeepsO.next | with_reducible apply Keeps.ite | with_reducible apply inTime_keeps
    | with_reducible apply placeSherd_keeps | (intro x; intros) | with_reducible split

theorem startPort_keeps {a1 : Port} (h : Keeps s0 s) :
        Keeps s0 (startPort s a1) := by
  unfold startPort
  repeat' first
    | with_reducible assumption | with_reducible apply updPort_keeps

theorem execMboxPayload_keeps {a0 : Vi} {a1 : Nat} {a2 : HostRes} (h : Keeps s0 s) :
        KeepsO s0 (execMboxPayload a0 a1 a2 s) := by
  unfold execMboxPayload
  repeat' first
    | with_reducible assumption | with_reducible apply KeepsO.next | with_reducible apply Keeps.ite
    | with_reducible apply deliver_keeps | with_reducible apply payIn_keeps

theorem hostReadEnds_keeps {a0 : Vi} {a1 : HostRead} {a2 : HostRes} (h : Keeps s0 s) :
        KeepsO s0 (hostReadEnds a0 a1 a2 s) := by
  unfold hostReadEnds
  repeat' first
    | with_reducible assumption | with_reducible apply KeepsO.next | with_reducible apply KeepsO.ite
    | with_reducible apply execLine0ReadReturn_keeps | with_reducible apply execDescriptorFetchReturn_keeps
    | with_reducible apply execMboxPayload_keeps | with_reducible apply execMoverBlock_keeps
    | with_reducible apply execLoadReturn_keeps | with_reducible apply execWaitPoll_keeps
    | with_reducible apply blockEnds_keeps | with_reducible split

theorem execHostCompletionTimeout_keeps {a0 : Vi} {a1 : HostRead} (h : Keeps s0 s) :
        KeepsO s0 (execHostCompletionTimeout a0 a1 s) := by
  unfold execHostCompletionTimeout
  repeat' first
    | with_reducible assumption | with_reducible apply hostReadEnds_keeps

theorem execHostReadCompletion_keeps {a0 : Vi} {a1 : HostRead} {a2 : HostRes} (h : Keeps s0 s) :
        KeepsO s0 (execHostReadCompletion a0 a1 a2 s) := by
  unfold execHostReadCompletion
  repeat' first
    | with_reducible assumption | with_reducible apply hostReadEnds_keeps

theorem commitSet_keeps (h : Keeps s0 s) :
        Keeps s0 (commitSet s) := by
  unfold commitSet
  repeat' first
    | with_reducible assumption | with_reducible exact Keeps.put h | with_reducible exact Keeps.put ht
    | (extract_lets +onlyGivenNames t; refine (fun (ht : Keeps s0 t) => ?_) ?_; clear_value t; on_goal 2 => subst t)
    | with_reducible apply Keeps.ite | with_reducible apply notice_keeps

theorem execChangeLate_keeps (h : Keeps s0 s) :
        KeepsO s0 (execChangeLate s) := by
  unfold execChangeLate
  repeat' first
    | with_reducible assumption | with_reducible exact Keeps.put h | with_reducible apply KeepsO.next
    | with_reducible apply Keeps.ite

theorem leavePartitions_keeps {a0 : Eng} (h : Keeps s0 s) :
        Keeps s0 (leavePartitions a0 s) := by
  unfold leavePartitions
  repeat' first
    | with_reducible assumption | with_reducible apply Keeps.ite
    | with_reducible refine Keeps.foldl (fun t x ht => ?_) _ ?_ | with_reducible apply dropIndexes_keeps

theorem rereadLine_keeps {a0 : Vi} {a2 : LineKind} (h : Keeps s0 s) :
        Keeps s0 (rereadLine a0 s a2) := by
  unfold rereadLine
  repeat' first
    | with_reducible assumption | with_reducible apply Keeps.ite | with_reducible apply updVi_keeps
    | with_reducible apply readLine_keeps

theorem rereadLines_keeps (h : Keeps s0 s) :
        Keeps s0 (rereadLines s) := by
  unfold rereadLines
  repeat' first
    | with_reducible assumption
    | (extract_lets +onlyGivenNames t; refine (fun (ht : Keeps s0 t) => ?_) ?_; clear_value t; on_goal 2 => subst t)
    | (extract_lets +onlyGivenNames t; clear_value t) | with_reducible apply Keeps.ite
    | with_reducible refine Keeps.foldl (fun t x ht => ?_) _ ?_ | with_reducible apply rereadLine_keeps

theorem takeSet_keeps {a0 : CUnit} (h : Keeps s0 s) : Keeps s0 (takeSet a0 s) := by
  unfold takeSet
  apply Keeps.ite h
  extract_lets moved t t' u
  have ht : Keeps s0 t := Keeps.put h
  clear_value t
  have ht' : Keeps s0 t' := by
    subst t'
    cases a0 <;> dsimp only <;> first
      | with_reducible exact ht
      | with_reducible exact leavePartitions_keeps ht
      | with_reducible exact Keeps.ite (rereadLines_keeps ht) ht
  clear_value t'
  have hu : Keeps s0 u := leaveSet_keeps ht'
  clear_value u
  cases a0 <;> first
    | with_reducible exact hu
    | with_reducible exact startBlock_keeps hu

theorem execChangeTakeup_keeps {a0 : CUnit} (h : Keeps s0 s) :
        KeepsO s0 (execChangeTakeup a0 s) := by
  unfold execChangeTakeup
  repeat' first
    | with_reducible assumption | with_reducible apply KeepsO.next | with_reducible apply Keeps.ite
    | with_reducible apply takeSet_keeps

theorem forceUnit_keeps {a1 : CUnit} (h : Keeps s0 s) :
        Keeps s0 (forceUnit s a1) := by
  unfold forceUnit
  repeat' first
    | with_reducible assumption | with_reducible apply Keeps.ite | with_reducible apply takeSet_keeps
    | with_reducible apply abandon_keeps | with_reducible split

theorem execForcedTakeup_keeps (h : Keeps s0 s) :
        KeepsO s0 (execForcedTakeup s) := by
  unfold execForcedTakeup
  repeat' first
    | with_reducible assumption | with_reducible apply KeepsO.next | with_reducible apply Keeps.ite
    | with_reducible refine Keeps.foldl (fun t x ht => ?_) _ ?_ | with_reducible apply forceUnit_keeps

theorem writeCommit_keeps {a0 : Nat} (h : Keeps s0 s) :
        Keeps s0 (writeCommit a0 s) := by
  unfold writeCommit
  repeat' first
    | with_reducible assumption
    | (extract_lets +onlyGivenNames t; refine (fun (ht : Keeps s0 t) => ?_) ?_; clear_value t; on_goal 2 => subst t)
    | with_reducible apply Keeps.ite | with_reducible apply fset_keeps | with_reducible apply commitSet_keeps

theorem execGenCommit_keeps {a0 : Vi} {a1 : U64} (h : Keeps s0 s) :
        KeepsO s0 (execGenCommit a0 a1 s) := by
  unfold execGenCommit
  repeat' first
    | with_reducible assumption | with_reducible apply KeepsO.next | with_reducible apply Keeps.ite
    | with_reducible apply writeCommit_keeps

theorem execTestClockEdge_keeps {a0 : Bool} {a1 : Bool} (h : Keeps s0 s) :
        KeepsO s0 (execTestClockEdge a0 a1 s) := by
  unfold execTestClockEdge
  repeat' first
    | with_reducible assumption | with_reducible exact Keeps.put ht
    | (extract_lets +onlyGivenNames t; refine (fun (ht : Keeps s0 t) => ?_) ?_; clear_value t; on_goal 2 => subst t)
    | (extract_lets +onlyGivenNames t; clear_value t) | with_reducible apply KeepsO.next
    | with_reducible apply Keeps.ite | with_reducible apply tick_keeps | with_reducible apply emit_keeps

theorem writeBootCtl_keeps {a0 : Nat} {a1 : Nat} (h : Keeps s0 s) :
        Keeps s0 (writeBootCtl a0 a1 s) := by
  unfold writeBootCtl
  repeat' first
    | with_reducible assumption
    | (extract_lets +onlyGivenNames t; refine (fun (ht : Keeps s0 t) => ?_) ?_; clear_value t; on_goal 2 => subst t)
    | with_reducible apply Keeps.ite | with_reducible apply warmReset_keeps | with_reducible apply goNow_keeps
    | with_reducible apply stageNow_keeps

theorem writeEpoch_keeps {a0 : Nat} {a1 : Nat} (h : Keeps s0 s) :
        Keeps s0 (writeEpoch a0 a1 s) := by
  unfold writeEpoch
  repeat' first
    | with_reducible assumption | with_reducible apply Keeps.ite | with_reducible apply flipEpoch_keeps
    | with_reducible apply armEpoch_keeps

theorem writeFltClear_keeps {a0 : Nat} {a1 : Nat} {a2 : Nat} (h : Keeps s0 s) :
        Keeps s0 (writeFltClear a0 a1 a2 s) := by
  unfold writeFltClear
  repeat' first
    | with_reducible assumption
    | (extract_lets +onlyGivenNames t; refine (fun (ht : Keeps s0 t) => ?_) ?_; clear_value t; on_goal 2 => subst t)
    | with_reducible apply Keeps.ite | with_reducible apply clearSeq_keeps | with_reducible apply unfreezeLog_keeps

theorem writePortEnable_keeps {a0 : Port} {a1 : Bool} (h : Keeps s0 s) :
        Keeps s0 (writePortEnable a0 a1 s) := by
  unfold writePortEnable
  repeat' first
    | with_reducible assumption
    | (extract_lets +onlyGivenNames t; refine (fun (ht : Keeps s0 t) => ?_) ?_; clear_value t; on_goal 2 => subst t)
    | (extract_lets +onlyGivenNames t; clear_value t) | with_reducible apply Keeps.ite
    | with_reducible apply fset_keeps | with_reducible apply updPort_keeps | with_reducible apply leaveUp_keeps

theorem writeRoute_keeps {a0 : Nat} {a1 : Nat} {a2 : Nat} {a3 : Nat} (h : Keeps s0 s) :
        Keeps s0 (writeRoute a0 a1 a2 a3 s) := by
  unfold writeRoute
  repeat' first
    | with_reducible assumption | with_reducible exact Keeps.put h
    | (extract_lets +onlyGivenNames t; clear_value t) | with_reducible apply Keeps.ite

theorem writeSource_keeps {a0 : Ctr} {a1 : Nat} {a2 : Nat} {a3 : Nat} (h : Keeps s0 s) :
        Keeps s0 (writeSource a0 a1 a2 a3 s) := by
  unfold writeSource
  repeat' first
    | with_reducible assumption | (extract_lets +onlyGivenNames t; clear_value t) | with_reducible apply Keeps.ite
    | with_reducible apply fset_keeps

theorem writeWinCtl_keeps {a0 : Nat} {a1 : Nat} {a2 : Nat} (h : Keeps s0 s) :
        Keeps s0 (writeWinCtl a0 a1 a2 s) := by
  unfold writeWinCtl
  repeat' first
    | with_reducible assumption | with_reducible apply windowSet_keeps

theorem mgmtActs_keeps {a0 : Nat} {a1 : Nat} {a2 : Nat} {a3 : Nat} (h : Keeps s0 s) :
        Keeps s0 (mgmtActs a0 a1 a2 a3 s) := by
  unfold mgmtActs
  repeat' first
    | with_reducible assumption | (extract_lets +onlyGivenNames t; clear_value t) | with_reducible apply Keeps.ite
    | with_reducible apply writeBootCtl_keeps | with_reducible apply writeCommit_keeps
    | with_reducible apply settleDie_keeps | with_reducible apply writeEpoch_keeps
    | with_reducible apply writePortEnable_keeps | with_reducible apply writeFltClear_keeps
    | with_reducible apply stageSet_keeps | with_reducible apply writeSource_keeps
    | with_reducible apply writeCtrLo_keeps | with_reducible apply writeCtrHi_keeps
    | with_reducible apply writeWinCtl_keeps | with_reducible apply writeRoute_keeps | with_reducible split

theorem writeMsix_keeps {a0 : Vi} {a1 : Nat} {a2 : Nat} {a3 : Nat} {a4 : Nat} (h : Keeps s0 s) :
        Keeps s0 (writeMsix a0 a1 a2 a3 a4 s) := by
  unfold writeMsix
  repeat' first
    | with_reducible assumption | (extract_lets +onlyGivenNames t; clear_value t)
    | with_reducible apply flushVec_keeps | with_reducible apply updFn_keeps

theorem writeViCtl_keeps {a0 : Vi} {a1 : Nat} (h : Keeps s0 s) :
        Keeps s0 (writeViCtl a0 a1 s) := by
  unfold writeViCtl
  repeat' first
    | with_reducible assumption
    | (extract_lets +onlyGivenNames t; refine (fun (ht : ∀ x, Keeps s0 x → Keeps s0 (t x)) => ?_) (fun x hx => ?_); clear_value t; on_goal 2 => subst t; beta_reduce)
    | with_reducible apply ht | with_reducible apply Keeps.ite | with_reducible apply enableMbox_keeps
    | with_reducible apply disableMbox_keeps | with_reducible apply enableVi_keeps
    | with_reducible apply disableVi_keeps

theorem viActs_keeps {a0 : Vi} {a1 : Nat} {a2 : Nat} {a3 : Nat} {a4 : Nat} (h : Keeps s0 s) :
        Keeps s0 (viActs a0 a1 a2 a3 a4 s) := by
  unfold viActs
  repeat' first
    | with_reducible assumption | with_reducible apply Keeps.ite | with_reducible apply writeViCtl_keeps
    | with_reducible apply writeMsix_keeps

theorem formShadow_keeps {a0 : List Row} {a1 : Nat} {a2 : Nat} (h : Keeps s0 s) :
        Keeps s0 (formShadow a0 a1 a2 s) := by
  unfold formShadow
  repeat' first
    | with_reducible assumption | with_reducible exact Keeps.put h
    | (extract_lets +onlyGivenNames t; clear_value t) | with_reducible apply Keeps.ite

theorem writeField_keeps {a0 : Nat} {a1 : Nat} {a2 : Nat} {a4 : Row} (h : Keeps s0 s) :
        Keeps s0 (writeField a0 a1 a2 s a4) := by
  unfold writeField
  repeat' first
    | with_reducible assumption | with_reducible exact Keeps.put h
    | (extract_lets +onlyGivenNames t; clear_value t) | with_reducible apply Keeps.ite
    | with_reducible apply fset_keeps | with_reducible split

theorem writeRows_keeps {a0 : List Row} {a1 : Nat} {a2 : Nat} {a3 : Nat} (h : Keeps s0 s) :
        Keeps s0 (writeRows a0 a1 a2 a3 s) := by
  unfold writeRows
  repeat' first
    | with_reducible assumption | with_reducible refine Keeps.foldl (fun t x ht => ?_) _ ?_
    | with_reducible apply writeField_keeps | with_reducible apply formShadow_keeps

theorem hostWriteReg_keeps {a0 : Vi} {a1 : Space} {a2 : Nat} {a3 : Nat} {a4 : Nat} {a5 : Nat} (h : Keeps s0 s) :
        Keeps s0 (hostWriteReg a0 a1 a2 a3 a4 a5 s) := by
  unfold hostWriteReg
  repeat' first
    | with_reducible assumption
    | (extract_lets +onlyGivenNames t; refine (fun (ht : Keeps s0 t) => ?_) ?_; clear_value t; on_goal 2 => subst t)
    | with_reducible apply Keeps.ite | with_reducible apply writeRows_keeps | with_reducible apply mgmtActs_keeps
    | with_reducible apply viActs_keeps | with_reducible split

theorem wildWrite_keeps {a0 : Vi} (h : Keeps s0 s) :
        Keeps s0 (wildWrite a0 s) := by
  unfold wildWrite
  repeat' first
    | with_reducible assumption | (extract_lets +onlyGivenNames t; clear_value t) | with_reducible apply Keeps.ite
    | with_reducible apply hostWriteReg_keeps | with_reducible apply ticks_keeps

theorem execRegisterWrite_keeps {a0 : Vi} {a1 : Space} {a2 : BitVec 24} {a3 : Nat} {a4 : U64} (h : Keeps s0 s) :
        KeepsO s0 (execRegisterWrite a0 a1 a2 a3 a4 s) := by
  unfold execRegisterWrite
  repeat' first
    | with_reducible assumption | with_reducible apply KeepsO.next | with_reducible apply KeepsO.ite
    | with_reducible apply wildWrite_keeps | with_reducible apply hostError_keeps
    | with_reducible apply hostWriteReg_keeps

theorem pokeDev_keeps {a0 : Vi} (h : Keeps s0 s) :
        Keeps s0 (pokeDev a0 s) := by
  unfold pokeDev
  repeat' first
    | with_reducible assumption | (extract_lets +onlyGivenNames t; clear_value t) | with_reducible apply Keeps.ite
    | with_reducible apply acceptWrite_keeps

theorem pokeFlag_keeps {a0 : Vi} {a1 : Eng} (h : Keeps s0 s) :
        Keeps s0 (pokeFlag a0 a1 s) := by
  unfold pokeFlag
  repeat' first
    | with_reducible assumption | with_reducible apply updEng_keeps | with_reducible split

theorem pokeFly_keeps {a0 : Vi} (h : Keeps s0 s) :
        Keeps s0 (pokeFly a0 s) := by
  unfold pokeFly
  repeat' first
    | with_reducible assumption | (extract_lets +onlyGivenNames t; clear_value t) | with_reducible apply Keeps.ite
    | with_reducible apply finish_keeps | with_reducible apply dropFly_keeps | with_reducible split

theorem pokeGroup_keeps {a0 : Vi} (h : Keeps s0 s) :
        Keeps s0 (pokeGroup a0 s) := by
  unfold pokeGroup
  repeat' first
    | with_reducible assumption | (extract_lets +onlyGivenNames t; clear_value t) | with_reducible apply Keeps.ite
    | with_reducible apply acceptWrite_keeps

theorem pokeHost_keeps {a0 : Vi} (h : Keeps s0 s) :
        Keeps s0 (pokeHost a0 s) := by
  unfold pokeHost
  repeat' first
    | with_reducible assumption | (extract_lets +onlyGivenNames t; clear_value t) | with_reducible apply Keeps.ite
    | with_reducible apply hostRing_keeps

theorem pokeIndex_keeps {a0 : Vi} {a1 : Eng} (h : Keeps s0 s) :
        Keeps s0 (pokeIndex a0 a1 s) := by
  unfold pokeIndex
  repeat' first
    | with_reducible assumption | with_reducible apply Keeps.ite | with_reducible apply endIndex_keeps

theorem pokeIngest_keeps {a0 : Vi} (h : Keeps s0 s) :
        Keeps s0 (pokeIngest a0 s) := by
  unfold pokeIngest
  repeat' first
    | with_reducible assumption | with_reducible apply updVi_keeps

theorem pokeMbox_keeps {a0 : Vi} (h : Keeps s0 s) :
        Keeps s0 (pokeMbox a0 s) := by
  unfold pokeMbox
  repeat' first
    | with_reducible assumption | with_reducible apply updVi_keeps

theorem pokeSlot_keeps {a0 : Vi} {a1 : Eng} (h : Keeps s0 s) :
        Keeps s0 (pokeSlot a0 a1 s) := by
  unfold pokeSlot
  repeat' first
    | with_reducible assumption | (extract_lets +onlyGivenNames t; clear_value t) | with_reducible apply Keeps.ite
    | with_reducible apply updEng_keeps

theorem pokeSp_keeps {a0 : Vi} {a1 : Eng} (h : Keeps s0 s) :
        Keeps s0 (pokeSp a0 a1 s) := by
  unfold pokeSp
  repeat' first
    | with_reducible assumption | with_reducible apply spWrite_keeps | with_reducible split

theorem poke_keeps {a0 : Vi} (h : Keeps s0 s) :
        Keeps s0 (poke a0 s) := by
  unfold poke
  repeat' first
    | with_reducible assumption | with_reducible refine Keeps.elim _ h fun e => ?_
    | with_reducible apply pokeDev_keeps | with_reducible apply pokeHost_keeps | with_reducible apply pokeSp_keeps
    | with_reducible apply pokeFlag_keeps | with_reducible apply pokeSlot_keeps
    | with_reducible apply pokeIndex_keeps | with_reducible apply pokeGroup_keeps
    | with_reducible apply pokeFly_keeps | with_reducible apply pokeIngest_keeps
    | with_reducible apply pokeMbox_keeps | with_reducible apply stopRing_keeps | with_reducible apply report_keeps
    | with_reducible apply wildWrite_keeps | with_reducible split

theorem pokeAll_keeps (h : Keeps s0 s) :
        Keeps s0 (pokeAll s) := by
  unfold pokeAll
  repeat' first
    | with_reducible assumption | with_reducible apply Keeps.ite
    | with_reducible refine Keeps.foldl (fun t x ht => ?_) _ ?_ | with_reducible apply ticks_keeps
    | with_reducible apply poke_keeps

theorem resumeVi_keeps {a1 : Vi} (h : Keeps s0 s) :
        Keeps s0 (resumeVi s a1) := by
  unfold resumeVi
  repeat' first
    | with_reducible assumption
    | (extract_lets +onlyGivenNames t; refine (fun (ht : Keeps s0 t) => ?_) ?_; clear_value t; on_goal 2 => subst t)
    | with_reducible apply Keeps.ite | with_reducible apply readLine_keeps | with_reducible apply fetchNow_keeps
    | with_reducible apply readPayload_keeps | with_reducible apply pump_keeps

theorem resumePort_keeps {a0 : HPort} (h : Keeps s0 s) :
        Keeps s0 (resumePort a0 s) := by
  unfold resumePort
  repeat' first
    | with_reducible assumption | with_reducible refine Keeps.foldl (fun t x ht => ?_) _ ?_
    | with_reducible apply resumeVi_keeps

theorem masterOn_keeps {a0 : Vi} (h : Keeps s0 s) :
        Keeps s0 (masterOn a0 s) := by
  unfold masterOn
  repeat' first
    | with_reducible assumption
    | (extract_lets +onlyGivenNames t; refine (fun (ht : Keeps s0 t) => ?_) ?_; clear_value t; on_goal 2 => subst t)
    | with_reducible apply Keeps.ite | with_reducible apply updFn_keeps | with_reducible apply resumePort_keeps
    | with_reducible apply flushPort_keeps | with_reducible apply resumeVi_keeps
    | with_reducible apply flushVec_keeps

theorem cfgWrite_keeps {a0 : Vi} {a1 : CfgItem} {a2 : BitVec 32} (h : Keeps s0 s) :
        Keeps s0 (cfgWrite a0 a1 a2 s) := by
  unfold cfgWrite
  repeat' first
    | with_reducible assumption
    | (extract_lets +onlyGivenNames t; refine (fun (ht : Keeps s0 t) => ?_) ?_; clear_value t; on_goal 2 => subst t)
    | (extract_lets +onlyGivenNames t; clear_value t) | with_reducible apply Keeps.ite
    | with_reducible apply masterOn_keeps | with_reducible apply updFn_keeps | with_reducible apply flushVec_keeps
    | with_reducible apply updPf_keeps | with_reducible apply clearVfEnable_keeps
    | with_reducible apply resumePort_keeps | with_reducible split

theorem execConfigAccess_keeps {a0 : Vi} {a1 : CfgAccess} (h : Keeps s0 s) :
        KeepsO s0 (execConfigAccess a0 a1 s) := by
  unfold execConfigAccess
  repeat' first
    | with_reducible assumption | with_reducible apply KeepsO.next | with_reducible apply Keeps.ite
    | with_reducible apply emit_keeps | with_reducible apply cfgWrite_keeps | with_reducible split

theorem execD0Return_keeps {a0 : HPort} (h : Keeps s0 s) :
        KeepsO s0 (execD0Return a0 s) := by
  unfold execD0Return
  repeat' first
    | with_reducible assumption | with_reducible apply KeepsO.next | with_reducible apply Keeps.ite
    | with_reducible apply resumePort_keeps | with_reducible apply updPf_keeps

end Sys2Proof.Laws
end

