-- ==== Sys2Proof/Laws/Power.lean ====
section
/-! SUPPORT. Base of the nine operations that Keeps does not hold of: they write the device state, the vendor region, the
generation or the fences. -/

namespace Sys2Proof.Laws

open Sys2Proof.Machine

variable {s : State}

/-- The same of an outcome: nothing is said of a stop. -/
def BaseO (s : State) : Out → Prop
  | .next t => Base s t
  | .fault _ => True
  | .refused _ => True

theorem KeepsO.base {o : Out} (h : KeepsO s o) : BaseO s o := by
  cases o
  · exact Keeps.toBase h
  all_goals trivial

theorem BaseO.elim {t : State} {o : Out} (h : BaseO s o) (e : o = .next t) : Base s t := by subst e; exact h
theorem BaseO.ite {a b : Out} {c : Prop} [Decidable c] (ha : BaseO s a) (hb : BaseO s b) :
    BaseO s (if c then a else b) := by split <;> assumption
theorem Base.ite {a b : State} {c : Prop} [Decidable c] (ha : Base s a) (hb : Base s b) :
    Base s (if c then a else b) := by split <;> assumption

/-- What follows an operation that Base holds of and keeps the rest. -/
theorem Base.then {t u : State} (h : Base s t) (k : Keeps t u) : Base s u := h.trans k.toBase

theorem powerUp_base : Base s (powerUp s) :=
  ⟨rfl, rfl, List.prefix_rfl, fun _ => mwf_nil _, fun _ => mwf_nil _, fun _ => Nat.zero_le _, fun _ _ h => nomatch h⟩

theorem execAuxPowerOn_base {st : Straps} : BaseO s (execAuxPowerOn st s) :=
  powerUp_base.then (snapNow_keeps (sampleStraps_keeps (updRtc_keeps (updBoard_keeps (.refl _)))))

theorem execVddAuxFall_base : BaseO s (execVddAuxFall s) := by
  unfold execVddAuxFall
  extract_lets t
  have ht : Base s t := powerUp_base.then (updBoard_keeps (.refl _))
  exact Base.ite ht (ht.then (updRtc_keeps (clockLost_keeps (.refl _))))

theorem execColdReset_base {n : Nat} {st : Straps} : BaseO s (execColdReset n st s) := by
  unfold execColdReset
  extract_lets hit t u k r w
  have ht : Keeps s t := Keeps.ite (afterPulse_keeps (.refl s)) (.refl s)
  clear_value t
  have hu : Base s u := (writeRec_keeps ht).toBase
  clear_value u
  have hr : Keeps u r := resetIslands_keeps (Keeps.put (.refl u))
  have hw : Base s w := by
    refine hu.trans (Base.then ?_ (tick_keeps (.refl _)))
    exact ⟨hr.pending, hr.fuses, hr.out, hr.mem, hr.poison, hr.recLen, hr.recSealed⟩
  clear_value w
  exact BaseO.ite ht.toBase (hw.then (snapNow_keeps (sampleStraps_keeps (updBoard_keeps (.refl w)))))

theorem execDeviceResetEnd_base : BaseO s (execDeviceResetEnd s) := by
  unfold execDeviceResetEnd
  refine Base.ite (.refl s) (Base.then ?_ (snapNow_keeps (.refl _)))
  exact ⟨rfl, rfl, List.prefix_rfl, id, id, id, id⟩

theorem execSelfTest_base {ls : List Lane} {fs : List TestFail} : BaseO s (execSelfTest ls fs s) := by
  unfold execSelfTest
  refine BaseO.ite trivial (BaseO.ite (.refl s) ?_)
  extract_lets t u
  have ht : Base s t := by
    subst t
    split
    · exact Base.then (t := { s with fenced := [], degraded := false, detours := [], lanes := [], ports := [] })
        ⟨rfl, rfl, List.prefix_rfl, id, id, id, id⟩ (Keeps.foldl (fun _ _ k => laneFail_keeps k) _ (.refl _))
    · exact .refl s
  clear_value t
  exact ht.then (Keeps.put (Keeps.foldl (fun _ _ k => selfTestFail_keeps k) _ (.refl t)))

theorem execVendorImageLoad_base {n : Fin 2} : BaseO s (execVendorImageLoad n s) := by
  unfold execVendorImageLoad
  refine Base.ite (.refl s) ?_
  extract_lets v
  exact Base.ite ⟨rfl, rfl, List.prefix_rfl, id, id, id, id⟩ (raise_keeps (Keeps.put (.refl s))).toBase

theorem enterFired_base : Base s (enterFired s) := by
  unfold enterFired
  extract_lets b t u
  have ht : Base s t := by
    refine Base.then ?_ (fset_keeps (.refl _))
    exact ⟨rfl, rfl, List.prefix_rfl, id, id, id, id⟩
  clear_value t
  have hu : Base s u := ht.then (Keeps.foldl (fun _ _ k => startPort_keeps k) _ (unfreezeLog_keeps (.refl t)))
  clear_value u
  exact hu.then (startAll_keeps (Keeps.foldl (fun _ _ k => updVi_keeps k) _ (.refl u)))

theorem execEnterFired_base : BaseO s (execEnterFired s) := Base.ite enterFired_base (.refl s)

/-- What passes in a nanosecond of idling keeps all of it. -/
theorem background_keeps {s0 : State} (h : Keeps s0 s) : Keeps s0 (background s) := by
  unfold background
  refine pokeAll_keeps ?_
  unfold payloadsDue
  refine Keeps.ite ?_ (Keeps.foldl (fun t x ht => Keeps.ite (readPayload_keeps ht) ht) _ ?_) <;>
    exact pumpAll_keeps (rearm_keeps (startAll_keeps (stageCheck_keeps (meshTick_keeps h))))

theorem idle_keeps {s0 : State} (h : Keeps s0 s) : Keeps s0 (idle s) := background_keeps (Keeps.put h)

end Sys2Proof.Laws
end

