-- ==== Sys2Proof/Laws/Frames.lean ====
section
/-! SUPPORT. What the shared operations change: everything else of the state stands. -/

namespace Sys2Proof.Machine

open Sys2Proof.Laws

theorem Keeps.continues {s t : State} (h : Keeps s t) : Continues s t :=
  ⟨h.pending, h.generation, h.boot, h.fenced, h.out⟩

theorem KeepsO.continues {s t : State} {o : Out} (h : KeepsO s o) (e : o = .next t) : Continues s t :=
  Keeps.continues (h.elim e)

theorem report_same (u : FUnit) (c n : Nat) (v p : Option Nat) (s : State) :
    ∃ f g, report u c n v p s = { s with flt := f, fld := g } := by
  unfold report
  split
  · exact ⟨_, _, rfl⟩
  · split <;> exact ⟨_, _, rfl⟩

theorem latchSafe_boot (s : State) : (latchSafe s).boot = .safe := by
  unfold latchSafe
  split
  · assumption
  · rfl

/-- A raised fault of class 3 takes the device to SAFE (R561). -/
theorem raise_safe (u : FUnit) {c : Nat} (n : Nat) (s : State) (h : causeClass c = 3) : (raise u c n s).boot = .safe := by
  unfold raise
  simp only [h, if_true, show ¬ (3 = 1) by omega, if_false]
  exact latchSafe_boot _

theorem raiseVec_same (v : Vi) (n : Fin 4) (s : State) : ∃ o f, raiseVec v n s = { s with out := o, fns := f } := by
  unfold raiseVec
  split
  · exact ⟨s.out, s.fns, rfl⟩
  · split
    · dsimp only
      split <;> exact ⟨_, _, rfl⟩
    · exact ⟨_, _, rfl⟩

theorem notice_same (s : State) : ∃ o f, notice s = { s with out := o, fns := f } := raiseVec_same _ _ s

theorem foldl_same {α : Type} {f : State → α → State} {P : State → State → Prop} (h0 : ∀ s, P s s)
    (ht : ∀ s t u, P s t → P t u → P s u) (hf : ∀ s x, P s (f s x)) : ∀ (l : List α) (s : State), P s (l.foldl f s)
  | [], s => h0 s
  | x :: l, s => ht _ _ _ (hf s x) (foldl_same h0 ht hf l _)

theorem settleDie_same (s : State) (k : Kiln) :
    ∃ e r o, settleDie s k = { s with engs := e, rails := r, out := o } := by
  have hc : ∀ (l : List Eng) (t : State), ∃ e, l.foldl setClock t = { t with engs := e } := by
    intro l
    induction l with
    | nil => exact fun t => ⟨_, rfl⟩
    | cons x l ih =>
      intro t
      obtain ⟨e, h⟩ := ih (setClock t x)
      exact ⟨e, h.trans rfl⟩
  unfold settleDie
  split
  · exact ⟨_, _, _, rfl⟩
  · obtain ⟨e, h⟩ := hc (engsOf k) s
    simp only [h]
    split <;> exact ⟨_, _, _, rfl⟩

theorem memWrite_same (a : Nat) (l : List Byte) (s : State) :
    ∃ m p, memWrite a l s = { s with mem := m, poison := p } := by
  have hw : ∀ (l : List Byte) (a : Nat) (s : State), ∃ m, writeGo l a s = { s with mem := m } := by
    intro l
    induction l with
    | nil => exact fun _ s => ⟨s.mem, rfl⟩
    | cons b l ih =>
      intro a s
      obtain ⟨m, h⟩ := ih (a + 1) (if isHole s a then s else writeByte a b s)
      refine ⟨m, ?_⟩
      rw [writeGo, h]
      split <;> rfl
  obtain ⟨m, h⟩ := hw l a s
  unfold memWrite
  simp only [h]
  have := foldl_same (P := fun s t => ∃ p, t = { s with poison := p }) (fun s => ⟨s.poison, rfl⟩)
    (fun s t u ⟨p, hp⟩ ⟨q, hq⟩ => ⟨q, by rw [hq, hp]⟩)
    (f := fun s g => if a ≤ 32 * g && 32 * g + 32 ≤ a + l.length && !isHole s (32 * g) then setPoison (32 * g) false s else s)
    (fun s x => by
      split
      · exact ⟨_, rfl⟩
      · exact ⟨s.poison, rfl⟩) (granules a l.length) { s with mem := m }
  obtain ⟨p, k⟩ := this
  exact ⟨m, p, k⟩

theorem acceptWrite_same (a : Nat) (l : List Byte) (s : State) :
    ∃ m p e, acceptWrite a l s = { s with mem := m, poison := p, engs := e } := by
  obtain ⟨m, p, h⟩ := memWrite_same a l s
  have := foldl_same (P := fun s t => ∃ e, t = { s with engs := e }) (fun s => ⟨s.engs, rfl⟩)
    (fun s t u ⟨p, hp⟩ ⟨q, hq⟩ => ⟨q, by rw [hq, hp]⟩)
    (f := fun s (p : Nat × EngSt) => { s with engs := mupd {} s.engs p.1 (clearMet a l.length) })
    (fun s x => ⟨_, rfl⟩) (memWrite a l s).engs (memWrite a l s)
  obtain ⟨e, k⟩ := this
  unfold acceptWrite
  rw [h] at k ⊢
  exact ⟨m, p, e, k⟩

theorem drainAll_same (s : State) :
    ∃ m p e g, drainAll s = { s with mem := m, poison := p, engs := e, gathers := g } := by
  let P : State → State → Prop := fun s t => ∃ m p e, t = { s with mem := m, poison := p, engs := e }
  have h0 : ∀ s, P s s := fun s => ⟨s.mem, s.poison, s.engs, rfl⟩
  have ht : ∀ s t u, P s t → P t u → P s u := fun s t u ⟨a, b, c, h⟩ ⟨d, e, f, k⟩ => ⟨d, e, f, by rw [k, h]⟩
  unfold drainAll
  extract_lets t u
  have h1 : P s t := foldl_same h0 ht (fun s g => foldl_same h0 ht (fun s x => acceptWrite_same _ _ s) _ s) _ s
  have h2 : P t u := foldl_same h0 ht (fun s p => foldl_same h0 ht (fun s x => by
    split
    · exact acceptWrite_same _ _ s
    · exact h0 s) _ s) _ t
  obtain ⟨m, p, e, h⟩ := ht _ _ _ h1 h2
  exact ⟨m, p, e, [], by rw [h]⟩

theorem railsOff_same (s : State) : ∃ r o, railsOff s = { s with rails := r, out := o } :=
  foldl_same (P := fun s t => ∃ r o, t = { s with rails := r, out := o }) (fun s => ⟨s.rails, s.out, rfl⟩)
    (fun s t u ⟨a, b, h⟩ ⟨c, d, k⟩ => ⟨c, d, by rw [k, h]⟩) (fun s k => ⟨_, _, rfl⟩) kilns s

/-- The straps are sampled into the pins; a free value is used up by each that changes in its window. -/
theorem sampleStraps_same (st : Straps) (s : State) :
    ∃ a b c n, sampleStraps st s = { s with board := { s.board with hp0Mode := a, bootSrc := b, debugEn := c }, freeCtr := n } := by
  have h : ∀ (x : Option Bool) (t : State), ∃ n, strap1 x t = { t with freeCtr := n } := by
    intro x t
    unfold strap1
    split
    · exact ⟨_, rfl⟩
    · exact ⟨t.freeCtr, rfl⟩
  unfold sampleStraps
  extract_lets u v
  obtain ⟨a, ha⟩ := h st.hp0Mode (updBoard (fun b => { b with hp0Mode := strap st.hp0Mode s }) s)
  obtain ⟨b, hb⟩ := h st.bootSrc (updBoard (fun b => { b with bootSrc := strap st.bootSrc u }) u)
  obtain ⟨c, hc⟩ := h st.debugEn (updBoard (fun b => { b with debugEn := strap st.debugEn v }) v)
  have hu : u = _ := ha
  have hv : v = _ := hb
  clear_value u v
  subst hu hv
  exact ⟨_, _, _, _, hc⟩

/-- What a device reset leaves (R111 to R116). -/
theorem deviceReset_same (c : Loss) (s : State) (h1 : s.board.pwrgood = true) (h2 : s.boot ≠ .safe)
    (h3 : entering s = false) :
    ∃ k : State, (∃ m p e g, k = { writeRec c s with mem := m, poison := p, engs := e, gathers := g }) ∧
      ((fget s .retainArm ≠ 1 ∧ s.going ≠ some true) → k.mem = [] ∧ k.poison = []) ∧
      deviceReset c s = { resetFor c k with
        resetAt := some s.nowNs, board := { quietPins k.board with selfRefresh := retains s } } := by
  have e : deviceReset c s =
      let s := writeRec c s
      let keep := retains s
      let k := if keep then drainAll s else { s with mem := [], poison := [] }
      { resetFor c k with resetAt := some s.nowNs, board := { quietPins k.board with selfRefresh := keep } } := by
    unfold deviceReset
    rw [if_neg (by simp [h1, h2]), if_neg (by simp [h3])]
  refine ⟨if retains (writeRec c s) then drainAll (writeRec c s) else { writeRec c s with mem := [], poison := [] }, ?_, ?_, e⟩
  · split
    · exact drainAll_same _
    · exact ⟨_, _, _, _, rfl⟩
  · rintro ⟨h4, h5⟩
    have : retains (writeRec c s) = false := by
      show (fget s .retainArm == 1 || s.going == some true) = false
      simp [h4, h5]
    rw [this]
    exact ⟨rfl, rfl⟩

end Sys2Proof.Machine
end

