-- ==== Sys2Proof/Tests/Slice0.lean ====
section
/-! SUPPORT. Tests on small states: an ill-formed command for each check of WellFormed; for each statement of
Obligations.lean a concrete state and operands that meet its hypotheses, clause by clause; and single steps whose results
are worked out from the manual. -/

namespace Sys2Proof.Tests

open Sys2Proof.Machine

set_option Elab.async false

/-! ## Helpers -/

/-- The state after a command, or none where it does not complete. -/
def after (c : Instr) (s : State) : Option State :=
  match exec c s with
  | .next t => some t
  | .fault _ => none
  | .refused _ => none
/-- A command completes with a state that passes a check. -/
def gives (c : Instr) (s : State) (p : State → Bool) : Bool := (after c s).any p
def refuses (c : Instr) : Bool := match exec c State.reset with
  | .refused .noSuchUnit => true
  | _ => false
/-- A number from fields (first bit, value). -/
def fields (l : List (Nat × Nat)) : Nat := l.foldl (fun a p => a + p.2 * 2 ^ p.1) 0
/-- A block from 8-byte words. -/
def block (l : List Nat) : Block := BitVec.ofNat 512 (l.foldr (fun x a => x + a * 2 ^ 64) 0)

def glaze : State := { State.reset with boot := .glazing, selfTested := true }
def fire : State := { State.reset with boot := .fired, selfTested := true }
def safe : State := { State.reset with boot := .safe }
def openVecs : SMap MsixEntry :=
  (List.range 4).map fun n => (n, { addr := BitVec.ofNat 64 (0x1000 + 16 * n), data := 7, masked := false })
/-- Both host ports have a link, and PF0 masters the bus with all four vectors open. -/
def linked : State :=
  { fire with
    hostPorts := [(0, { dlUp := true, speed := 5, width := 16 }), (1, { dlUp := true, speed := 4, width := 4 })]
    fns := [(0, { busMaster := true, msixEnable := true, msix := openVecs })] }
/-- VI 0 is enabled, holds engines 0 and 1, 32 MiB of device memory and of host memory from 2 MiB on, and has device
memory at engine addresses from 16 MiB on in segment slot 0. -/
def vi : State :=
  [(F.viEnable, 1), (.mboxEn, 1), (.bindValid, 1), (.partMask, 3), (.allotDevBase, 1), (.allotDevSize, 16),
    (.allotHostBase, 1), (.allotHostSize, 16), (.devVbase, 8), (.devSize, 4)].foldl (fun s p => fset p.1 0 p.2 s) linked
/-- PF0 with two VFs. -/
def withVfs : State := { vi with pfs := [(0, { numVFs := 2, vfEnable := true })] }
def vf1 : Vi := 1

def job5 : Job := { idx := 5 }
/-- A descriptor in flight at index 5 of VI 0. -/
def flying (d : Block) (f : Fly → Fly := id) (s : State := vi) : State :=
  updVi 0 (fun x => { x with fly := [f { idx := job5, desc := d }], reserved := 1 }) s
def ix0 : Index := { vi := 0, idx := job5, k := 0, veng := 0, count := 1, task := 0x1000000, arg := 7 }
/-- Engine 0 at the one word w of an open routine. -/
def atWord (w : Nat) (ph : Phase := .pre) (f : Run → Run := id) (s : State := vi) : State :=
  { s with
    engs := [(0, {
      bank0 := [(0, BitVec.ofNat 192 w)]
      run := some (f { ix := ix0, task := 0x1000000, phase := ph, open_ := true, upc := 3072 }) })] }
def runAt (w : Nat) (ph : Phase := .pre) : Run := (((atWord w ph).engs.head?.bind fun p => p.2.run).getD { ix := ix0, task := 0 })

/-! ## Ill-formed commands -/

def frame0 : Frame :=
  { ver := 1, kind := 2, vc := 0, epoch := false, esc := false, reservedZero := true, hops := 8, dst := 9, src := 3, len := 0,
    lseq := 0, kspec := 0, hcrcOk := true, tagged := false, payload := [] }
def badLink : Link := { kiln := 4, edge := 2 }

theorem test_wf_vf_flr_of_a_pf : refuses (.vfFlr 1024) = true ∧ (Instr.vfFlr 1).wf = true := by decide +kernel
theorem test_wf_link_width : refuses (.hostLinkUp 0 3 5 false) = true ∧ refuses (.hostLinkUp 0 16 0 false) = true ∧
    refuses (.hostLinkUp 0 16 6 false) = true ∧ (Instr.hostLinkUp 0 16 5 false).wf = true := by decide +kernel
theorem test_wf_self_test : refuses (.selfTest [{ link := badLink, up := true, group := 0 }] []) = true ∧
    refuses (.selfTest [] [{ unit := .link badLink, info := 0 }]) = true := by decide +kernel
theorem test_wf_links : refuses (.flitAckErr { link := badLink, up := true, group := 0 } 0) = true ∧
    refuses (.ezbenPhaseTimeout { link := badLink, up := true, group := 0 }) = true ∧
    refuses (.ezbenErrorWindowEnd badLink) = true ∧ refuses (.detourInstall { kiln := 1, edge := 3 }) = true := by
  decide +kernel
theorem test_wf_frames : refuses (.linkRx 0 [] 0 false) = true ∧ refuses (.seqFrameRx 0 { frame0 with len := 1 } .good) = true ∧
    refuses (.routeFrame { frame0 with len := 1 } none) = true ∧ refuses (.writeRx { frame0 with payload := [1] }) = true ∧
    refuses (.unitFence (.link badLink)) = true := by decide +kernel

/-! ## The machine as a whole -/

theorem test_StepTakesFront : step { State.reset with pending := [.graceEnd] } = exec .graceEnd State.reset := by rfl
theorem test_IdleTicks : State.reset.pending = [] ∧ running State.reset = false ∧ State.reset.mesh = [] ∧
    State.reset.wires = [] ∧ ∀ p ∈ State.reset.vis, p.2.startDue = false := by decide +kernel
theorem test_StepKeepsInv : Inv State.reset ∧ step State.reset = .next { State.reset with nowNs := 1, ringCycles := 1 } :=
  ⟨⟨by decide, by decide, by decide, by decide⟩, by rfl⟩
theorem test_CommandsLeaveQueue : Instr.graceEnd.wf = true ∧ gives .graceEnd State.reset (fun t => t == State.reset) = true := by
  decide +kernel
theorem test_BootTransitions : gives .enterFired { glaze with going := some false } (fun t => t.boot == .fired) = true := by
  decide +kernel
theorem test_VendorRegionStands : gives .vddAuxFall { fire with vendor := [1] } (fun t => t.vendor == []) = true := by
  decide +kernel
theorem test_FencesStand : gives .vddAuxFall { fire with fenced := [.hub 3] } (fun t => t.fenced == []) = true := by
  decide +kernel
theorem test_GenerationAdvances :
    gives .enterFired { glaze with going := some false } (fun t => t.generation == 1) = true := by decide +kernel

/-! ## Power, resets and boot -/

theorem test_PowerCommandsComplete : fire.board.vddAux = true ∧ fire.board.pwrgood = true ∧ fire.board.vbatOk = true ∧
    { fire with board := { fire.board with vbatOk := false } }.board.vbatOk = false ∧
    gives (.coldReset 10000 { hp0Mode := none, bootSrc := none, debugEn := none }) fire
      (fun t => t.boot == .bisque && (t.records.map RetRec.cause) == [6]) = true := by decide +kernel
theorem test_DeviceResetsComplete : linked.board.pwrgood = true ∧ linked.boot ≠ .safe ∧ entering linked = false ∧
    (getHp linked 0).dlUp = true ∧ linked.resetting = none ∧ answers linked vi0 = true ∧ linked.boot = .fired ∧
    entering glaze = false ∧ answers glaze vi0 = true ∧ glaze.boot = .glazing ∧
    { linked with resetting := some .warm }.resetting = some .warm ∧ fget linked .retainArm ≠ 1 ∧ linked.going ≠ some true := by
  decide +kernel
theorem test_ViResetsComplete : isVf vf1 = true ∧ withVfs.board.pwrgood = true ∧ withVfs.resetting = none ∧ withVfs.boot ≠ .safe ∧
    viExists withVfs vf1 = true ∧ (getPf withVfs 0).vfEnable = true ∧ (getPf vi 0).vfEnable = false ∧
    (getVi (updVi 3 (fun x => { x with resetting := true }) vi) 3).resetting = true ∧
    viBusy (drainVi 3 (updVi 3 (fun x => { x with resetting := true }) vi)) 3 = false ∧
    (getHp linked 1).dlUp = true ∧ safe.boot = .safe ∧ safe.board.pwrgood = true ∧ safe.resetting = none := by decide +kernel
theorem test_RailsAndThermalComplete : powered safe = false ∧ safe.board.pwrgood = true ∧ alertAt 0 < tripAt 0 ∧
    powered fire = true ∧ (getRail (updRail 2 (fun r => { r with pend := some 25 }) fire) 2).pend = some 25 ∧
    bitAt (2 : Byte).toNat 1 = true ∧ engFenced fire 9 = false := by decide +kernel
def link0 : Link := { kiln := 0, edge := 0 }
def lane0 : Lane := { link := link0, up := true, group := 0 }
theorem test_IslandsComplete : link0.ok = true ∧ powered fire = true ∧ laneUsed fire lane0 = true ∧
    mget 0 (lanesOf fire link0 true).window 0 < 15 ∧ (lanesOf fire link0 true).failed = [] ∧
    15 ≤ mget 0 (lanesOf (updLanes link0 true (fun x => { x with window := [(0, 15)] }) fire) link0 true).window 0 ∧
    linkFenced { fire with fenced := [.link link0] } link0 = true ∧ Island.home ≠ .aon ∧
    { fire with pllParked := [.home] }.pllParked.contains .home = true ∧ fire.pllParked.contains .home = false ∧
    lostToRefclk fire .home = false ∧ fire.stopped.contains .home = false ∧ islandQuiet fire .home = false ∧
    liveSide fire .home .ring = true ∧ liveSide { fire with stopped := [.ring] } .home .ring = false ∧
    { fire with refSeen := [2] }.refSeen.contains 2 = true ∧ fire.fenced.contains (.refclk 2) = false := by decide +kernel
/-- An image of one byte, signed by a key whose digest is the first fuse's (the signature worked out outside Lean). -/
def image0 : Image := {
  header := natBytes 4 0x54314B46 ++ natBytes 4 1 ++ natBytes 4 5 ++ natBytes 4 0 ++ natBytes 4 1 ++ natBytes 12 0 ++
    [4] ++ beBytes 48 ecG.1 ++ beBytes 48 ecG.2 ++ natBytes 255 0 ++ beBytes 48 ecG.1 ++
    beBytes 48 0xe968ab428609b1212266b5689be73e6c2f11dd9c6593f776325a46187fd9a331ba80ce740b5347150b765021e890b0cc ++
    natBytes 32 0
  body := [0] }
def digest0 : BitVec 384 :=
  0x8c4f262412b7f9ed867606705a130de5212fd048fbaf8c3842f4a240f4b45ba0c90f82194ccdda3ed89c96b0afe1d51d
def selfTested : State := { State.reset with selfTested := true, fuses := { keyDigests := [digest0] } }
/-- The body of a firmware image whose vendor recipe image is one word of zeros, with its CRC-32C worked out by hand. -/
def body1 : List Byte :=
  natBytes 16 (fields [(0, 1), (32, 128)]) ++ natBytes 16 (fields [(0, 2), (32, 128), (64, 0x58)]) ++ natBytes 96 0 ++
    natBytes 8 (fields [(0, 0x52435031), (32, 1)]) ++ natBytes 8 (1 + 9 * 2 ^ 32) ++ natBytes 72 0x84fbecee
def checked (b : List Byte) : State := { selfTested with bootSlot := some 0, fwBody := b }
theorem test_image_signed : keyOk selfTested.fuses image0 = true ∧ sigOk image0 = true := by decide +kernel
theorem test_image_ok (s : State) (h : s.fuses = selfTested.fuses) : imageOk s image0 = true := by
  have k : s.fuses.minSvn ≤ imgField image0 0x0C 4 := by rw [h]; decide +kernel
  have l : (image0.header.length == 512 && imgField image0 0 4 == 0x54314B46 && imgField image0 4 2 == 1 &&
    imgReserved image0 && decide (1 ≤ imgLen image0 && imgLen image0 ≤ 8388096 && image0.body.length = imgLen image0)) = true := by
    decide +kernel
  unfold imageOk
  rw [l, h, test_image_signed.1, test_image_signed.2]
  simpa [h] using k
theorem test_BootCommandsComplete_image : (Instr.selfTest [] []).wf = true ∧ powered State.reset = true ∧
    State.reset.boot = .bisque ∧ State.reset.selfTested = false ∧ coldBoot State.reset = true ∧
    coldBoot { State.reset with records := [{ cause := 5 }] } = false ∧ nextSlot selfTested = some 0 ∧
    nextSlot { selfTested with rejected := [0] } = some 1 ∧ imageOk selfTested { image0 with body := [] } = false ∧
    (checked body1).bootSlot = some 0 ∧ vendorOk [] = false ∧ vendorOk body1 = true := by decide +kernel
theorem test_BootCommandsComplete_go : answers glaze vi0 = true ∧ powered glaze = true ∧ glaze.going = none ∧
    bitAt (1 : U64).toNat 0 = true ∧ bitAt (1 : U64).toNat 2 = false ∧ bits (1 : U64).toNat 1 1 = 0 ∧ bits (3 : U64).toNat 1 1 = 1 ∧
    { glaze with going := some true }.going.isSome = true ∧ answers fire vi0 = true ∧ running fire = true ∧
    staging fire = false ∧ bootCtlWord 8 true (fset .stageOffset 0 (5 * 2 ^ 11) fire) = 8 + 5 * 2 ^ 32 ∧ bitAt (8 : U64).toNat 3 = true ∧ bitAt (8 : U64).toNat 2 = false := by decide +kernel

/-- A record of a loss with retention armed, of the layout that GO with ADOPT finds. -/
def kept : RetRec := recSeal { valid := 1, cause := 5, layoutCrc := layoutCrc (bootCtlFields 3 glaze) }
def keeping : State := { glaze with records := [kept] }
theorem layoutCrc_records (s : State) (l : List RetRec) : layoutCrc { s with records := l } = layoutCrc s := by
  unfold layoutCrc layoutImage fencedKilns kilnFenced fget; rfl
theorem test_BootCommandsComplete_adopt : keeping.records = [kept] ∧ adoptable (bootCtlFields 3 keeping) = true ∧
    kept.layoutCrc = layoutCrc (bootCtlFields 3 keeping) ∧ kept.fencedKiln = fencedKilns keeping := by
  have h : bootCtlFields 3 keeping = { bootCtlFields 3 glaze with records := [kept] } := by
    simp [keeping, glaze, State.reset, bootCtlFields, fset]
  refine ⟨rfl, ?_, ?_, ?_⟩
  rotate_left
  · rw [h, layoutCrc_records]; simp [kept, recSeal]
  · have : fencedKilns keeping = 0 := by decide +kernel
    rw [this]; simp [kept, recSeal]
  simp [keeping, glaze, State.reset, bootCtlFields, fset, adoptable, kept, recSeal, recOk, recBytes]
/-- The image stands at the start of PF0's allotment. -/
def stagedAt : State :=
  { acceptWrite 0x200000 (image0.header ++ image0.body)
      { fset .allotDevBase 0 1 (fset .allotDevSize 0 1 fire) with stage := .checking } with fuses := selfTested.fuses }
theorem test_BootCommandsComplete_check : running stagedAt = true ∧ stagedAt.stage = .checking ∧
    stagedImage stagedAt = some image0 ∧ stagedImage { stagedAt with stageAt := 1 } = none := by decide +kernel
theorem test_BootCommandsComplete_check_ok : stageCheck stagedAt = { stagedAt with stage := .saving } := by
  unfold stageCheck
  rw [test_BootCommandsComplete_check.1, test_BootCommandsComplete_check.2.1, test_BootCommandsComplete_check.2.2.1,
    show (!true || StageState.checking != .checking) = false from rfl]
  simp [test_image_ok stagedAt rfl]
theorem test_BootCommandsComplete_stage : { fire with stage := .saving }.stage = .saving ∧
    { fire with stage := .writing }.stage = .writing ∧ { fire with stageTries := 3 }.stageTries = 3 ∧
    { fire with stageTries := 2 }.stageTries < 3 := by decide +kernel
/-- The slot that failed is the other one's fallback: both rejected, the device goes to SAFE (R103). -/
theorem test_both_images_bad : gives (.imageCheck 1 { image0 with body := [] }) { selfTested with rejected := [0] }
    (fun t => t.boot == .safe) = true := by decide +kernel
theorem test_vendor_image : gives (.vendorImageLoad 0) (checked body1)
    (fun t => t.boot == .glazing && t.vendor == [0] && t.vendorId == 9) = true := by decide +kernel

/-! ## Host ports, clock, counters, faults, registers -/

theorem test_HostPortCommandsComplete : linkWidthOk 1 1 = true ∧ (Instr.hostLinkUp 1 16 5 true).wf = true ∧
    fire.board.pwrgood = true ∧ fire.resetting = none ∧ (getHp fire 1).dlUp = false ∧ fire.board.perst1 = false ∧
    (getHp fire 0).dlUp = false ∧ fire.board.perst0 = false ∧ (getHp linked 0).dlUp = true ∧ viExists fire 0 = true ∧
    viExists fire 1023 = false ∧ isPf 1024 = true ∧ (2 : BitVec 32).toNat % 2 = 0 ∧
    (getPf { fire with pfs := [(1, { d3hot := true })] } 1).d3hot = true ∧ barsLive linked = true ∧
    (getFn (updFn 0 (fun x => { x with holdoff := true }) linked) 0).holdoff = true ∧ (getFn linked 0).holdPending = false ∧
    (getFn (updFn 0 (fun x => { x with holdoff := true, holdPending := true }) linked) 0).holdPending = true ∧
    vecOpen (updFn 0 (fun x => { x with holdoff := true, holdPending := true }) linked) 0 vecCompletion = true ∧
    linked.board.vddAux = true := by
  decide +kernel
def clock (sub : Nat) (acc : Int) (staged : Option (Nat × Nat)) : State :=
  { fire with rtc := { sec := 2 ^ 48 - 1, sub := sub, acc := acc, staged := staged } }
theorem test_ClockCommandsComplete : (clock 0 0 (some (5, 6))).rtc.staged = some (5, 6) ∧ (clock 0 0 none).rtc.running = true ∧
    (clock 0 0 none).rtc.acc + trimOf (clock 0 0 none) < 2000000 ∧ -2000000 < (clock 0 0 none).rtc.acc + trimOf (clock 0 0 none) ∧
    (clock 32767 0 none).rtc.sub = 32767 ∧ 2000000 ≤ (clock 0 2000000 none).rtc.acc + trimOf (clock 0 0 none) ∧
    (clock 0 (-2000000) none).rtc.acc + trimOf (clock 0 0 none) ≤ -2000000 ∧ (clock 32765 0 none).rtc.sub < 32766 ∧
    fire.board.vddAux = true ∧ readable fire = true ∧ answers fire vi0 = true ∧ barsLive fire = true := by decide +kernel
/-- Seconds wrap from 2^48 − 1 to 0 (R570). -/
theorem test_seconds_wrap : gives .rtcTick (clock 32767 0 none) (fun t => t.rtc.sec == 0 && t.rtc.sub == 0) = true := by
  decide +kernel
/-- 2024-02-29 is day 60 of its year, a Thursday (Table: RTC_CAL fields). -/
theorem test_calendar_leap_day : calendar 1709164800 =
    fields [(0, 24), (8, 2), (12, 29), (34, 4), (37, 60), (63, 1)] := by decide +kernel
/-- Counter 0 counts its event, and 351 belongs to the link die. -/
def counting (v : Nat) : State :=
  { fset .cntEnable 0 1 (fset .cntEvent 0 1 fire) with ctrs := [(0, { val := v })] }
theorem test_CounterCommandsComplete : powered (counting 0) = true ∧ ctrIn (counting 0) 0 = true ∧ ctrIn fire 351 = true ∧
    islandRuns (counting 0) (ctrIsle 0) = true ∧ islandRuns fire (ctrIsle 351) = true ∧ selects (counting 0) 0 1 0 = true ∧ (getCtr (counting (2 ^ 48 - 2)) 0).val + 1 < 2 ^ 48 ∧
    2 ^ 48 ≤ (getCtr (counting (2 ^ 48 - 1)) 0).val + 1 ∧ fget (counting 0) .cntOvfIrq 0 = 0 ∧
    fget (fset .cntMode 0 1 fire) .cntMode 0 = 1 ∧ fget (counting 0) .cntMode 0 ≠ 1 ∧
    { fire with win := { running := true } }.win.wrote.contains 0 = false ∧ fget (fset .clearOnEnd 0 1 fire) .clearOnEnd = 1 ∧
    fget fire .winEnable = 0 ∧ fget (fset .winEnable 0 1 fire) .winEnable = 1 ∧
    ctrIn { fire with fenced := [.hub 0] } 15 = false ∧ barsLive fire = true ∧ answers fire vi0 = true := by decide +kernel
theorem test_CounterCommandsComplete_all : ∀ c : Ctr, ctrIn fire c = true →
    { fire with win := { running := true, wrote := List.range 352 } }.win.wrote.contains c.val = true := by decide +kernel
def waitingFault (cause : Nat) : State :=
  { fire with flt := { raised := [{ src := 1283, cause := cause, info := 0, vi := none, part := none }] } }
theorem test_FaultCommandsComplete : collectorOn fire = true ∧ fire.flt.raised = [] ∧ causeClass 0x61 = 3 ∧
    (waitingFault 0x61).flt.raised.length = 1 ∧ above 1 fire.flt.cleared = true ∧ above 0 fire.flt.cleared = false ∧
    { fire.flt with noticeGap := true, noticeDue := true }.noticeDue = true ∧ FUnit.ok (.hub 3) = true ∧
    fenceable (.hub 3) = true ∧ fenceable .home = false ∧ powered fire = true ∧ fire.stopped.contains .mgmt = false ∧
    fire.flt.hbRunning = false ∧ { fire.flt with hbRunning := true, hbMisses := 1 }.hbMisses = 1 ∧ fire.flt.hbLost = false ∧
    safe.flt.safeStepsDone = false := by decide +kernel
theorem test_RegisterCommandsComplete : barsLive linked = true ∧ reaches linked 0 .mgmt = true ∧ reaches linked 1024 .vi = true ∧
    accessOk 0xC0010 8 = true ∧ accessOk 0xC0014 4 = true ∧ accessOk 0xC0014 8 = false ∧ accessOk 0 2 = false ∧
    answers fire vi0 = true ∧ running fire = true ∧ { fire with shadow := [(3, 1)] }.shadow ≠ [] ∧ fire.applying = false ∧
    atSafePoint fire (.engine 255) = true ∧ { fire with applying := true, unitsLeft := [.ring] }.unitsLeft ≠ [] ∧
    CUnit.engine 255 ∈ { fire with applying := true, unitsLeft := [.engine 255] }.unitsLeft ∧ fire.board.vddAux = true ∧
    fire.tap ≠ .shiftDr ∧ fire.tap ≠ .shiftIr ∧ tapNext fire.tap false ≠ .updateIr ∧ debugOpen fire = false ∧
    fire.tapDebug = false := by
  decide +kernel
/-- Six cycles of TMS high lead to Test-Logic-Reset, and 0100 to Shift-DR (IEEE 1149.1). -/
theorem test_tap_walk : [false, true, false, false].foldl tapNext .testLogicReset = .shiftDr ∧
    [true, true, true, true, true].foldl tapNext .shiftDr = .testLogicReset := by decide +kernel
theorem test_RegisterClassesHold : barsLive glaze = true ∧ answers glaze vi0 = true ∧ glaze.boot = .glazing ∧
    fire.boot = .fired ∧ 10 ≤ (10 : U64).toNat % 2 ^ 26 ∧ (60000000 : U64).toNat % 2 ^ 26 ≤ 60000000 ∧
    (9 : U64).toNat % 2 ^ 26 < 10 ∧ 60000000 < (60000001 : U64).toNat % 2 ^ 26 := by decide +kernel

/-! ## Coherence -/

/-- Port 0 runs CXL. -/
def coh : State := { vi with hostPorts := [(0, { dlUp := true, speed := 5, width := 16, cxl := true })] }
def line0 : LineA := 77
def dirAt (d : Dir) : State := updDir line0 (fun _ => d) coh
def hlAt (x : HLine) : State := setHl 3 line0 x coh
/-- The message c has arrived in the FIFO of the home (or of the hub of kiln die 3), and serves w. -/
def arrived (c : Instr) (s : State) (home : Bool := true) (w : Who := .other) : State :=
  { s with mesh := [{
      src := if home then .hub 3 else .home, dst := if home then .home else .hub 3, cls := .request, msg := c, flits := []
      stage := .arrived, who := w }] }
theorem calm (x : HLine) (h : x.parked = false ∧ x.leave = false) :
    ∀ m, (getHl (hlAt x) 3 m).parked = false ∧ (getHl (hlAt x) 3 m).leave = false := by
  intro m
  by_cases e : hkey 3 line0 = hkey 3 m
  · rw [show getHl (hlAt x) 3 m = x by
      unfold hlAt setHl updHl getHl
      rw [← e]
      exact Laws.mget_mset_same _ _ _ _]
    exact h
  · rw [show getHl (hlAt x) 3 m = getHl coh 3 m by
      unfold hlAt setHl updHl getHl
      exact Laws.mget_mset_other _ _ _ e]
    exact ⟨rfl, rfl⟩
theorem test_NoFlags (d : Dir) : NoFlags (dirAt d) := fun _ => ⟨rfl, rfl⟩
theorem test_HomeRequestsComplete : homeRuns coh = true ∧ arrives coh (.gets 3 line0 0) = true ∧
    arrives (arrived (.gets 3 line0 0) coh) (.gets 3 line0 0) = true ∧
    arrives { arrived (.gets 3 line0 0) coh with pllParked := [.home] } (.gets 3 line0 0) = false ∧
    (getDir coh line0).hs = .idle ∧ (getDir coh line0).h = .i ∧ setFull coh line0 = false ∧
    (getDir (dirAt { hs := .orphan }) line0).hs = .orphan ∧ homeRuns (dirAt { hs := .orphan }) = true ∧
    homeRuns { coh with stopped := [.home] } = false := by decide +kernel
theorem test_HomeResponsesComplete : homeRuns (dirAt { hs := .evict }) = true ∧
    arrives (dirAt { hs := .evict }) (.puts 3 line0 0 0 false) = true ∧ (getDir (dirAt { hs := .evict }) line0).hs = .evict ∧
    (getDir (dirAt { hs := .evictSnooped }) line0).hs = .evictSnooped ∧ (getDir (dirAt { p := [3] }) line0).p = [3] ∧
    (getDir (dirAt { p := [3] }) line0).hs = .idle ∧ (getDir (dirAt { hs := .waitLocal, await := [3, 5] }) line0).await = [3, 5] ∧
    (getDir (dirAt { hs := .waitHost, await := [3, 5] }) line0).hs = .waitHost ∧
    (([3, 5] : List Holder).filter fun h => h != 3) ≠ [] ∧ (getDir (dirAt { hs := .waitLocal }) line0).data = none := by
  decide +kernel
theorem test_HostCoherenceComplete : homeRuns coh = true ∧ running { coh with domainDown := true } = true ∧
    islandRuns { coh with domainDown := true } .home = true ∧ cxlOn coh = true ∧
    NoFlags { coh with domainDown := true } := ⟨by decide +kernel, by decide +kernel, by decide +kernel, by decide +kernel,
  fun _ => ⟨rfl, rfl⟩⟩
theorem test_HoldersComplete : holderOn coh 3 = true ∧ holderOn coh 16 = true ∧ hasEntry coh line0 = false ∧
    setFull coh line0 = false ∧ arrives coh (.sliceStore 3 line0 (BitVec.allOnes 64) 1 true) = true ∧
    (getHl coh 3 line0).st = .i ∧ (getHl coh 3 line0).waits = [] ∧ (getHl (hlAt { st := .s }) 3 line0).st = .s ∧
    holderOn (hlAt { st := .s }) 3 = true ∧ (getHl (hlAt { st := .imD }) 3 line0).st = .imD ∧
    (getHl (hlAt { st := .isD }) 3 line0).st = .isD ∧ (getHl (hlAt { st := .isD }) 3 line0).waits = [] ∧
    arrives (arrived (.inv 3 line0) (hlAt { st := .s }) false) (.inv 3 line0) = true := by decide +kernel
theorem test_HolderMessagesTakeEffect : (getHl (hlAt { st := .m }) 3 line0).st = .m ∧
    (getHl (hlAt { st := .smG }) 3 line0).st = .smG ∧ (getHl (hlAt { st := .miA }) 3 line0).st = .miA ∧
    hasRoom coh 3 line0 = true ∧ mayRequest coh 3 line0 = true ∧ arrives (hlAt { st := .m }) (.fwdm 3 line0) = true ∧
    (getHl (hlAt { waits := [(.load true, .line 0 .doorbell)] }) 3 line0).waits = [(.load true, .line 0 .doorbell)] ∧
    (getHl (hlAt { st := .isD, waits := [(.load false, .source 7)] }) 3 line0).waits = [(.load false, .source 7)] := by
  decide +kernel
/-- A dirty owner that is asked to give its line up sends DataResp with the dirty flag, and holds it no more. -/
theorem test_fwdm : gives (.fwdm 3 line0) (arrived (.fwdm 3 line0) (hlAt { st := .m, data := 9 }) false) (fun t =>
    t.out == [.toHome 3 line0 "DataResp" 0 (some (9, true, false))] && (getHl t 3 line0).st == .i &&
    t.mesh.map MeshPkt.msg == [.dataresp 3 line0 9 true false]) = true := by decide +kernel
theorem test_HomeAnswersTakeEffect :
    (getDir (dirAt { hs := .waitLocal, await := [2], todo := some (.reply .getS 3 false), req := some (.getS, 3) }) line0).await
      = [2] ∧ coh.aged = [] ∧ (getDir (dirAt { hs := .waitDone, req := some (.getM, 3), h := .x, owner := some 3 }) line0).req =
      some (.getM, 3) ∧ arrives (dirAt { hs := .waitDone, req := some (.getM, 3) }) (.done 3 line0) = true ∧
    (getHp coh 0).cxl = true ∧ coh.board.pwrgood = true ∧ coh.resetting = none ∧ (getDir (dirAt { h := .s }) line0).h = .s ∧
    (getDir (dirAt { hs := .waitHost, req := some (.getS, 3) }) line0).await = [] ∧
    (getDir (dirAt { hs := .waitHost, hostReq := some .getS }) line0).reissues < fget coh .ageLimit ∧
    (getDir (dirAt { hs := .evict, data := some (5, false, true) }) line0).data = some (5, false, true) ∧
    (getDir (dirAt { hs := .waitHost, req := some (.getS, 3), domain := true }) line0).domain = true := by decide +kernel

/-! ## Rings and descriptors -/

def ringed (f : ViSt → ViSt) : State := updVi 0 f vi
def opBlock (op : Nat) (l : List Nat) : Block := block (op :: l)
theorem test_RingCommandsComplete : ringOn vi 0 = true ∧ served vi 0 = true ∧ viaHome vi 0 = false ∧
    isReading (getVi (ringed fun x => { x with dbReading := true }) 0) .doorbell = true ∧ (5 : Nat) ≤ 2 ^ cmdLog vi 0 ∧
    2 ^ cmdLog vi 0 < (BitVec.ofNat 32 (blockField (block [65]) 0 4) - (getVi vi 0).ciCmd).toNat ∧
    (BitVec.ofNat 32 (blockField (block [64]) 0 4) - (getVi vi 0).ciCmd).toNat ≤ 2 ^ cmdLog vi 0 ∧
    ((getVi vi 0).piCpl - BitVec.ofNat 32 (blockField (block [64]) 8 4)).toNat ≤ 2 ^ cplLog vi 0 := by decide +kernel
/-- A message to slot 2 of virtual engine 1: LEN 64 covers one line beyond the header. -/
def down0 : Down := { seq := 1, veng := 1, slot := 2, len := 8, line0 := 0 }
def down1 : Down := { down0 with len := 64, asked := true }
def down2 : Down := { down0 with len := 176, asked := true }
def mailed (m : Down) : State := ringed fun x => { x with down := some m }
theorem test_RingCommandsComplete_mailbox : ringOn (mailed down1) 0 = true ∧ mbOn (mailed down1) 0 = true ∧
    (getVi (mailed down1) 0).stopped = false ∧ (getVi (mailed down1) 0).down = some down1 ∧
    (viEngines (mailed down1) .ring 0)[1]? = some 1 ∧ engFenced vi 1 = false ∧
    engFenced { mailed down0 with fenced := [.engine 1] } 1 = true ∧ bitAt (fgetU vi .ring .slotMask 0) 2 = true ∧
    payBlocks { down2 with payload := mset none down2.payload 0 (some 7) } = none ∧ payBlocks down0 = some [] ∧
    payBlocks { down1 with payload := [(0, some 7)] } = some [7] ∧ (mget {} (eng vi 1).slots 2).st = .free ∧
    (mget {} (eng (updEng 1 (fun x => { x with slots := [(2, { st := .down })] }) (mailed down0)) 1).slots 2).st ≠ .free := by
  decide +kernel
/-- VI 1024, PF1's own, enabled with its lines in its allotment. -/
def port1Vi : State :=
  { ([(F.viEnable, 1), (.allotHostBase, 20), (.allotHostSize, 2)].foldl (fun s p => fset p.1 1024 p.2 s) linked) with
    fns := [(1024, { busMaster := true })] }
theorem test_RingCommandsTakeEffect_poll : ringOn port1Vi 1024 = true ∧ served port1Vi 1024 = true ∧ viaHome port1Vi 1024 = false ∧
    isReading (getVi port1Vi 1024) .doorbell = false ∧ isWatched (getVi port1Vi 1024) .doorbell = false ∧
    mayMaster port1Vi 1024 = true ∧ (portOf 1024).val = 1 ∧
    inHostAllot port1Vi 1024 (lineOff port1Vi 1024 .doorbell) 64 = true := by decide +kernel
theorem test_RingCommandsTakeEffect_lines : (getVi (ringed fun x => { x with fetching := 2, pi := 2 }) 0).fetching ≠ 0 ∧
    (getVi (ringed fun x => { x with fetching := 2, pi := 2 }) 0).pi =
      (getVi vi 0).ciCmd + BitVec.ofNat 32 (([0, 1] : List Block).take 2).length ∧ viaHome vi 0 = false ∧
    (getVi (ringed fun x => { x with line1Due := true }) 0).line1Due = true ∧ mayMaster vi 0 = true ∧ (getVi vi 0).outq = [] ∧
    inHostAllot vi 0 (line1Off vi 0) 64 = true ∧ inHostAllot vi 0 (fget vi .mailbox 0 * 512 + 256) 256 = true ∧
    (getVi (ringed fun x => { x with upMsgs := [(1, 2)] }) 0).upMsgs.head? = some (1, 2) ∧ (getVi vi 0).upAck = (getVi vi 0).upSeq ∧
    flagOut vi 0 = false ∧ mbOn vi 0 = true ∧ barsLive linked = true ∧ answers linked 0 = true ∧
    viOn linked 0 = false ∧ viOn vi 0 = true ∧ ringOn linked 0 = true ∧ ringOn { linked with stopped := [.ring] } 0 = false ∧
    fget vi .mboxEn 0 ≠ 0 := by decide +kernel
/-- An overflow table in device memory at the allotment's start, with one entry that covers 64 MiB. -/
def missing : State := ringed fun x => { x with misses := [{ addr := 0x4000000, who := .ring job5, at_ := 0 }] }
theorem test_RingCommandsTakeEffect_miss : running missing = true ∧ (getVi missing 0).misses ≠ [] ∧ firmwareOn missing = true ∧
    liveSlot missing 0 0x4000000 = none ∧ (getVi missing 0).changing = none ∧
    (flyOf (flying (opBlock 5 []) id missing) 0 job5).any (fun f => f.fin.isNone) = true := by decide +kernel
def queued (d : Block) (s : State := vi) : State := updVi 0 (fun x => { x with fetched := [(5, d)] }) s
/-- NOP, and a NOP with a reserved bit set. -/
theorem test_DescriptorsComplete_dispatch : ringOn (queued 0) 0 = true ∧ served (queued 0) 0 = true ∧
    (getPf (queued 0) (portOf 0)).d3hot = false ∧ (getVi (queued 0) 0).fetched = [(5, 0)] ∧
    (getVi (queued 0) 0).fly.any holdsBack = false ∧ isWait (0 : Block) = false ∧ cplRoom (queued 0) 0 = true ∧
    cplRoom (updVi 0 (fun x => { x with reserved := 64 }) (queued 0)) 0 = false ∧ waitsRunning (queued (opBlock 5 [])) < 32 ∧
    descOk (opBlock 0 [1]) = false ∧ descOk (opBlock 0 []) = true ∧ launchRoom (queued (opBlock 3 [])) 0 (opBlock 3 []) = true := by
  decide +kernel
theorem test_DispatchNeedsRoom : gives (.dispatch 0) (queued 0) (fun t => (getVi t 0).fly != [] && (getVi t 0).reserved == 1) = true ∧
    ¬ ((getVi (ringed fun x => { x with reserved := 64 }) 0).piCpl - (getVi vi 0).ciCpl).toNat +
      (getVi (ringed fun x => { x with reserved := 64 }) 0).reserved < 2 ^ cplLog vi 0 ∧
    ((getVi (ringed fun x => { x with reserved := 63 }) 0).piCpl - (getVi vi 0).ciCpl).toNat +
      (getVi (ringed fun x => { x with reserved := 63 }) 0).reserved < 2 ^ cplLog vi 0 ∧ waitsRunning vi < 32 ∧
    (getVi (queued 0) 0).fly.any holdsBack = false := by
  decide +kernel
theorem test_DescriptorsComplete_run : fresh (flying (opBlock 0 [])) 0 5 0x00 = some { idx := job5, desc := opBlock 0 [] } ∧
    (fresh (flying (opBlock 6 [])) 0 5 0x06).isSome = true ∧ fenceReady (flying (opBlock 6 [])) 0 job5 = true ∧
    fenceReady (flying (opBlock 6 [])) 0 { idx := 6 } = false ∧ (fresh (flying (opBlock 4 [])) 0 5 0x04).isSome = true ∧
    (fresh (flying (opBlock 5 [])) 0 5 0x05).isSome = true ∧
    (waiting (flying (opBlock 5 []) (fun f => { f with started := true })) 0 5).isSome = true ∧
    (fresh (flying (opBlock 12 [])) 0 5 0x0C).isSome = true ∧ (fresh (flying (opBlock 13 [])) 0 5 0x0D).isSome = true ∧
    blockField (opBlock 13 [2 ^ 16 * 512]) 0x0A 2 % 512 = 0 ∧ blockField (opBlock 13 [2 ^ 16 * 5]) 0x0A 2 % 512 ≠ 0 ∧
    (fresh (flying (opBlock 3 [])) 0 5 0x03).isSome = true ∧ lCount (opBlock 3 []) = 0 := by decide +kernel
/-- LAUNCH of two engines from virtual engine 1 on a partition of two: engine 2 is the first out of range. -/
def launch2 : Block := opBlock 3 [0x1000000, 1 + 2 * 2 ^ 16]
theorem test_LaunchOutOfRange : lCount launch2 = 2 ∧ lFirst launch2 = 1 ∧ engineCount vi 0 < lFirst launch2 + lCount launch2 ∧
    (viEngines vi .ring 0).length < lFirst launch2 + lCount launch2 ∧ fgetU linked .ring .bindValid 0 ≠ 1 ∧
    (fresh (flying launch2 id linked) 0 5 3).isSome = true ∧
    gives (.launch 0 5) (flying launch2) (fun t => ((flyOf t 0 job5).bind Fly.fin) ==
      some (openC .fencedUnit 0 2)) = true := by decide +kernel
/-- Engine 0 between tasks, with its task address in a host segment (slot 8). -/
def hostTask : State :=
  [(F.hostVbase, 100), (.hostTarget, 0), (.hostSize, 2)].foldl (fun s p => fset p.1 0 p.2 s)
    (atWord 0 .between (fun r => { r with task := 0xC800000 }) (flying launch2 fun f => { f with left := 1, started := true }))
theorem test_LaunchOutOfRange_host_task : engOn hostTask 0 = true ∧
    (runOf hostTask 0).any (fun r => r.phase == .between && !r.waitMiss) = true ∧ ownStores hostTask 0 = [] ∧
    translate hostTask (eu 0) 0 0xC800000 8 = .hit (.host 0x200000 false) 8 ∧
    (flyOf hostTask 0 job5).any (fun f => f.fail.isNone) = true ∧
    gives (.taskWordFetch 0) hostTask (fun t => ((flyOf t 0 job5).bind Fly.fin).any fun c => c.status == .segFault) = true := by
  decide +kernel
def ended (d : Block) (st : Status) : State := flying d fun f => { f with fin := some { status := st } }
theorem test_CompletionEntries : dCpl (opBlock 0 []) = false ∧ dCpl (opBlock 0x100 []) = true ∧ dIrq (opBlock 0x300 []) = true ∧
    ringOn (ended (opBlock 0 []) .ok) 0 = true ∧ viOn (ended (opBlock 0 []) .ok) 0 = true ∧
    (endedFly (ended (opBlock 0 []) .ok) 0 5).any (fun f => f.1.idx.lap == (getVi (ended (opBlock 0 []) .ok) 0).lap) = true ∧
    (getVi (ended (opBlock 0 []) .ok) 0).stopped = false ∧ mayMaster vi 0 = true ∧ (getVi vi 0).outq = [] ∧
    cplInAllot (ended (opBlock 0 []) .segFault) 0 = true ∧ viaHome vi 0 = false ∧ flagOut vi 0 = false ∧
    vecOpen (ended (opBlock 0x300 []) .ok) 0 vecCompletion = true ∧ (getFn vi 0).holdoff = false ∧
    (getFn (updFn 0 (fun x => { x with holdoff := true }) vi) 0).holdoff = true ∧
    vecOpen (updFn 0 (fun x => { x with msixEnable := false }) vi) 0 vecCompletion = false := by
  decide +kernel
/-- Under CXL, with no flag out and with one that waits in the aged queue. -/
def flagged : State := { coh with aged := [{ line := 3, r := 16, kind := .wrCur, who := .flag 0 }] }
theorem test_CompletionEntries_home : viaHome coh 0 = true ∧ flagOut coh 0 = false ∧ viaHome flagged 0 = true ∧
    flagOut flagged 0 = true ∧
    gives (.descriptorComplete 0 5 true) (flying (opBlock 0x300 []) (fun f => { f with fin := some {} }) flagged)
      (fun t => (getVi t 0).piCpl == 1 && (getVi t 0).outq.length == 2 && t.out == []) = true := by decide +kernel
theorem test_entries : gives (.descriptorComplete 0 5 true) (ended (opBlock 0 []) .zero)
      (fun t => t.out == [] && (getVi t 0).piCpl == 0) = true ∧
    gives (.descriptorComplete 0 5 true) (ended (opBlock 0 []) .segFault) (fun t => (getVi t 0).piCpl == 1) = true := by
  decide +kernel
theorem test_DescriptorsComplete_end : ringOn (ended 0 .ok) 0 = true ∧ viOn (ended 0 .ok) 0 = true ∧
    (endedFly (ended 0 .ok) 0 5).any (fun f => silent f.1.desc f.2.status) = true ∧
    (getVi (updVi 0 (fun x => { x with stopped := true }) (ended 0 .ok)) 0).stopped = true ∧
    (endedFly (updVi 0 (fun x => { x with lap := 3 }) (ended 0 .segFault)) 0 5).any (fun f => f.1.idx.lap != 3) = true := by
  decide +kernel
theorem test_FenceEndsOk : fenceReady (flying (opBlock 6 [])) 0 job5 = true ∧
    fenceMet (fenceDrain 0 (flying (opBlock 6 []))) 0 = true ∧ gives (.fence 0 5) (flying (opBlock 6 [])) (fun t =>
    ((flyOf t 0 job5).bind Fly.fin) == some { status := .ok }) = true := by decide +kernel
/-- SIGNAL ADD of 3 to a word of 5 at offset 64 of the allotment. -/
def signalled : State := flying (opBlock 4 [0x10, 0, 64, 3]) id (acceptWrite 0x200040 (natBytes 8 5) vi)
theorem test_DescriptorsTakeEffect_signal : (fresh signalled 0 5 4).isSome = true ∧ blockField (opBlock 4 [0x10, 0, 64, 3]) 8 1 = 0x10 ∧
    trSpace signalled .ring 0 0 64 8 = .hit (.dev 0x200040) 0 ∧ memOpen signalled 20 0x200040 8 = true ∧
    anyHole signalled 0x200040 8 = false ∧ anyPoison signalled 0x200040 8 = false ∧
    gives (.signal 0 5 true) signalled (fun t => read64 t 0x200040 == 8 && ((flyOf t 0 job5).bind Fly.fin) == some { value := 5 }) = true := by
  decide +kernel
def waits (cond : Nat) : Block := opBlock 5 [cond * 16, 0, 64, 5, 2 ^ 64 - 1]
theorem test_DescriptorsTakeEffect_wait : waitHolds 0 5 5 (2 ^ 64 - 1) = true ∧ waitHolds 1 5 4 7 = true ∧ waitHolds 2 5 5 7 = true ∧
    blockField (waits 2) 8 1 / 16 = 2 ∧ blockField (waits 2) 8 1 % 16 = 0 ∧
    (waiting (flying (waits 0) (fun f => { f with started := true }) signalled) 0 5).isSome = true := by decide +kernel
/-- STAMP to scratchpad offset 0 of virtual engine 1. -/
theorem test_DescriptorsTakeEffect_stamp : blockField (opBlock 12 [0, 3, 2 ^ 48]) 0x10 1 % 16 = 3 ∧
    spAddr vi .ring 0 (2 ^ 48) 16 = .at_ 1 0 := by decide +kernel
/-- FILL of 64 bytes of scratchpad of virtual engine 0 with a repeated 2-byte pattern. -/
def fill64 : Block := opBlock 2 [64, 0x30 + 2 ^ 16, 0x0201, 2 ^ 40 - 2 ^ 40]
def filling (l : List (Vi × Job)) (d : Block := fill64) : State :=
  { flying d with movers := [(0, { queue := l })] }
theorem test_DescriptorsTakeEffect_fill : mLen fill64 = 64 ∧ mDstSpace fill64 = 3 ∧ dOp fill64 = 2 ∧ mLen (opBlock 2 []) = 0 ∧
    chooseMover (filling [(0, { idx := 9 })]) 0 fill64 = some 1 ∧ scratchCheck vi 1 0 fill64 = none ∧
    chooseMover (filling [] (opBlock 1 [64, 0x100])) 0 (opBlock 1 [64, 0x100]) = some 0 ∧
    chooseMover { vi with fenced := [.mover 0] } 0 (opBlock 1 [64, 0x100]) = none ∧
    (getMv (filling [(0, { idx := 9 })]) 0).queue ≠ [] ∧ (fresh (filling []) 0 5 2).isSome = true ∧
    (fresh (filling [] (opBlock 1 [64])) 0 5 1).isSome = true ∧ moverOn (filling [(0, job5)]) 0 = true ∧
    blockLen fill64 0 = 64 ∧ spAddr vi (.mover 0) 0 0 64 = .at_ 0 0 ∧ heldForSet (filling [(0, job5)]) 0 = false ∧
    (flyOf (filling [(0, job5)]) 0 job5).any (fun f => f.fin.isNone) = true ∧ (getVi (filling [(0, job5)]) 0).misses = [] ∧
    gives (.moverBlock 0 (.done [])) (filling [(0, job5)]) (fun t => ((flyOf t 0 job5).bind Fly.fin) == some { value := 64 } &&
      mget 0 (eng t 0).scratch 62 == 1 && mget 0 (eng t 0).scratch 63 == 2) = true := by decide +kernel
/-- RECIPE_LOAD of one word to engine 1 from engine address 16 MiB. -/
def recipe1 : Block := opBlock 8 [1 + 2 ^ 16 + 2 ^ 48, 0, 0x1000000]
theorem test_DescriptorsTakeEffect_recipe : rCount recipe1 = 1 ∧ rWords recipe1 = 1 ∧ rCount (opBlock 8 []) = 0 ∧
    firmwareOn (flying recipe1) = true ∧ ringOn (flying recipe1) 0 = true ∧
    fgetU vi .ring .rcpEn 0 ≠ 0 ∧ recipeBadVeng (flying recipe1) 0 recipe1 = none ∧
    openPieces (flying recipe1) 20 (piecesOf (flying recipe1) .ring 0 2 (blockField recipe1 0x18 8) 24) = true ∧
    recipeSource (flying recipe1) 0 recipe1 = .ok (List.replicate 24 0) ∧ rActivate recipe1 = false ∧
    rOff recipe1 + rWords recipe1 ≤ 1024 ∧ recipeEngs (flying recipe1) 0 recipe1 = [1] ∧ (eng vi 1).swapDue = false ∧
    (((getVi (flying recipe1) 0).fly.find? fun f => f.idx.idx == 5 && dOp f.desc == 0x08 && f.fin.isNone).any
      fun f => !f.started) = true := by decide +kernel
theorem test_MoversAndFirmwareComplete : (fresh (flying (opBlock 7 [8])) 0 5 7).isSome = true ∧ firmwareOn vi = true ∧
    segSetBad vi 0 (opBlock 7 [8]) ≠ none ∧ (served1 (flying (opBlock 10 [])) 0 5 0x0A).isSome = true ∧
    gsDelete (opBlock 10 []) = false ∧ gsMembers (opBlock 10 []) = 0 ∧ gsDelete (opBlock 10 [2 ^ 16]) = true ∧
    (served1 (flying (opBlock 11 [])) 0 5 0x0B).isSome = true ∧ wsClose (opBlock 11 []) = false ∧ wsSize (opBlock 11 []) = 0 ∧
    wsClose (opBlock 11 [2 ^ 16]) = true ∧ wsIngest (opBlock 11 [2 ^ 16]) = false ∧
    (winOf { vi with fwin := [(0, { open_ := true })] } false 0).open_ = true := by decide +kernel

/-! ## Engines -/

/-- VI 0's overflow list lies at the start of its allotment; entry 0 is valid and covers 64 MiB on. -/
def overflown : State :=
  acceptWrite 0x200000 (natBytes 8 0x4000000 ++ natBytes 8 0x600000 ++ natBytes 4 1 ++ natBytes 1 1)
    (fset .ovfEnable 0 1 missing)
theorem test_miss_service : findOvf overflown 0 0x4000000 = some 0 ∧ ovfChanging overflown 0 = none ∧
    liveSlot overflown 0 0x4000000 = none ∧ swapSlot overflown 0 (readOvf overflown 0 0).host = some 1 ∧
    gives (.segMissService 0) overflown (fun t => seg t 0 1 == { vbase := 32, target := 3, size := 1, attr := 0 } &&
      (getVi t 0).misses == []) = true := by decide +kernel

/-- U1 = 2^64 − 1, U2 = 3. -/
def someRegs (r : Run) : Run := { r with regs := { u := [(1, BitVec.ofNat 64 (2 ^ 64 - 1)), (2, 3)] } }
/-- SOP op: U3 := U1 op U2. -/
def sopWord (op : Nat) : Nat := fields [(156, op), (150, 3), (144, 1), (138, 2)]
def alu3 : Alu := { dst := 3, src1 := 1, src2 := 2, imm := 0, sel := 0 }
def sopResult (c : Instr) (op : Nat) : Option (Nat × Bool × Bool) :=
  (after c (atWord (sopWord op) .pre someRegs)).bind fun t =>
    (runOf t 0).map fun r => ((mget 0 r.regs.u 3).toNat, r.regs.z, r.regs.n)
theorem test_ScalarCommandsComplete : SlotReady (atWord (sopWord 2)) 0 (runAt (sopWord 2)) (sopWord 2) 0 ∧ isSop 2 alu3 (sopWord 2) = true ∧
    SlotReady (atWord 0) 0 (runAt 0) 0 0 ∧ wSop 0 = 0 ∧ isSop 11 alu3 (sopWord 11) = true ∧
    isSop 1 { alu3 with dst := 0x10, src1 := 0, src2 := 0 } (fields [(156, 1), (150, 0x10)]) = true ∧
    SlotReady (atWord (fields [(156, 1), (150, 0x10)])) 0 (runAt (fields [(156, 1), (150, 0x10)]))
      (fields [(156, 1), (150, 0x10)]) 0 := by unfold SlotReady; decide +kernel
theorem test_scalar_results : sopResult (.add 0 alu3) 2 = some (2, false, false) ∧
    sopResult (.sub 0 alu3) 3 = some (2 ^ 64 - 4, false, true) ∧ sopResult (.and 0 alu3) 4 = some (3, false, false) ∧
    sopResult (.or 0 alu3) 5 = some (2 ^ 64 - 1, false, true) ∧ sopResult (.xor 0 alu3) 6 = some (2 ^ 64 - 4, false, true) ∧
    sopResult (.mov 0 alu3) 1 = some (3, false, false) := by decide +kernel
theorem test_scalar_shifts : sopResult (.shl 0 alu3) 7 = some (2 ^ 64 - 8, false, true) ∧
    sopResult (.shr 0 alu3) 8 = some (2 ^ 61 - 1, false, false) ∧ sopResult (.sar 0 alu3) 9 = some (2 ^ 64 - 1, false, true) ∧
    sopResult (.mul 0 alu3) 10 = some (2 ^ 64 - 3, false, true) ∧ sopResult (.cmpu 0 alu3) 11 = some (0, false, false) := by
  decide +kernel
theorem test_MicrowordRegisters : (runAt 0).src = none ∧ (runAt 0).regs.nexta = none ∧ (0x1F : BitVec 6).toNat < 0x20 ∧
    0x2D ≤ (0x2D : BitVec 6).toNat ∧ readReg (writeReg (runAt 0) 0x28 (2 ^ 16 + 5)) 0 0x28 = 5 ∧
    writeReg (runAt 0) 0x22 9 = runAt 0 := by decide +kernel

def seqWord (op : Nat) : Nat := fields [(173, op), (161, 7)]
theorem test_SequencingCommandsComplete : WordReady (atWord (seqWord 1)) 0 (runAt (seqWord 1)) (seqWord 1) ∧ wSeq (seqWord 1) = 1 ∧
    wTarget (seqWord 1) = (7 : BitVec 12).toNat ∧ WordReady (atWord (seqWord 9)) 0 (runAt (seqWord 9)) (seqWord 9) ∧
    WordReady (atWord (seqWord 6)) 0 (runAt (seqWord 6)) (seqWord 6) ∧ wSimm (seqWord 6) = (0 : BitVec 16).toNat ∧
    wSrc1 (seqWord 6) = (0 : BitVec 6).toNat ∧ WordReady (atWord (seqWord 8)) 0 (runAt (seqWord 8)) (seqWord 8) ∧
    WordReady (atWord (seqWord 7) .post) 0 (runAt (seqWord 7) .post) (seqWord 7) ∧
    WordReady (atWord (seqWord 2)) 0 (runAt (seqWord 2)) (seqWord 2) ∧ wLcsel (seqWord 2) = false ∧
    (runAt (seqWord 2)).sopDst ≠ some 0x28 := by unfold WordReady; decide +kernel
/-- LOOP: LC0 falls by 1, and the word at TARGET in the open region follows while it is not 0. -/
theorem test_loop : gives (.seqLoop 0 7 false) (atWord (seqWord 2) .pre fun r => { r with regs := { lc0 := 2 } })
    (fun t => (runOf t 0).any fun r => r.upc == 3079 && r.regs.lc0 == 1) = true ∧
    gives (.seqLoop 0 7 false) (atWord (seqWord 2) .pre fun r => { r with regs := { lc0 := 1 } })
    (fun t => (runOf t 0).any fun r => r.upc == 3073 && r.regs.lc0 == 0) = true := by decide +kernel

/-- MOP op with its address in U1 and its scratchpad offset in U2. -/
def mopWord (op : Nat) (more : List (Nat × Nat) := []) : Nat := fields ([(108, op), (102, 1), (96, 2)] ++ more)
def mem12 : MemSlot := { addr := 1, sp := 2, tbi := 0, ord := 0, ainc := false }
/-- U1 = 16 MiB, which VI 0's segment 0 maps to 2 MiB; U2 = 0x40. -/
def memRegs (r : Run) : Run := { r with regs := { u := [(1, 0x1000000), (2, 0x40)] }, pins := [0] }
def atMop (op : Nat) (ph : Phase := .pre) (f : Run → Run := id) : State := atWord (mopWord op) ph (fun r => f (memRegs r))
def mopRun (op : Nat) (ph : Phase := .pre) (f : Run → Run := id) : Run := f (memRegs (runAt (mopWord op) ph))
theorem test_MemorySlotsComplete_pre : SlotReady (atMop 1) 0 (mopRun 1) (mopWord 1) 1 ∧ isMop 1 mem12 (mopWord 1) = true ∧
    (readReg (atIssue (mopRun 1)) 0 1).toNat = 0x1000000 ∧ translate (atMop 1) (eu 0) 0 0x1000000 64 = .hit (.dev 0x200000) 0 ∧
    anyHole (atMop 1) 0x200000 64 = false ∧ anyPoison (atMop 1) 0x200000 64 = false ∧
    (readReg (atIssue (mopRun 1)) 0 2).toNat = 0x40 := by unfold SlotReady; decide +kernel
theorem test_MemorySlotsComplete_others : SlotReady (atMop 5) 0 (mopRun 5) (mopWord 5) 1 ∧ SlotReady (atMop 12) 0 (mopRun 12) (mopWord 12) 1 ∧
    SlotReady (atMop 7) 0 (mopRun 7) (mopWord 7) 1 ∧ SlotReady (atMop 8) 0 (mopRun 8) (mopWord 8) 1 ∧
    SlotReady (atMop 0) 0 (mopRun 0) (mopWord 0) 1 ∧ wMem (mopWord 0) = mem12 ∧
    SlotReady (atMop 4) 0 (mopRun 4) (mopWord 4) 1 ∧ SlotReady (atMop 2) 0 (mopRun 2) (mopWord 2) 1 := by
  unfold SlotReady; decide +kernel
theorem test_MemorySlotsComplete_post : SlotReady (atMop 2 .post) 0 (mopRun 2 .post) (mopWord 2) 1 ∧
    ((mopRun 2 .post).pins.find? fun k => covers (seg vi 0 k) 0x1000000) = some 0 ∧
    viaSlot (atMop 2 .post) (eu 0) 0 0 0x1000000 64 = .hit (.dev 0x200000) 0 ∧ (eng (atMop 2 .post) 0).sb.length < 32 ∧
    SlotReady (atMop 3 .post) 0 (mopRun 3 .post) (mopWord 3) 1 ∧ spWindow vi (eu 0) 0 0x40 64 = some 0x40 ∧
    SlotReady (atMop 6 .post) 0 (mopRun 6 .post) (mopWord 6) 1 ∧ SlotReady (atMop 9 .post) 0 (mopRun 9 .post) (mopWord 9) 1 ∧
    SlotReady (atMop 10 .post) 0 (mopRun 10 .post) (mopWord 10) 1 ∧
    SlotReady (atMop 11 .post) 0 (mopRun 11 .post) (mopWord 11) 1 ∧
    SlotReady (atMop 1 .post) 0 (mopRun 1 .post) (mopWord 1) 1 := by unfold SlotReady; decide +kernel
theorem test_EngineSlotsTakeEffect : spCheck (atMop 4) 0 0 0x40 64 = some 0x40 ∧
    translate (atMop 5) (eu 0) 0 0x1000000 8 = .hit (.dev 0x200000) 0 ∧ (eng (atMop 5) 0).sb = [] ∧
    gather (atMop 5) 0 = [] ∧ slotOk vi 0 0 (0x1000000 % 4) = true ∧ spCheck vi 0 0 0x40 256 = some 0x40 ∧
    anyHole (atMop 5) 0x200000 8 = false ∧ viaSlot (atMop 6 .post) (eu 0) 0 0 0x1000000 8 = .hit (.dev 0x200000) 0 ∧
    (eng (updEng 0 (fun x => { x with resv := some { tgt := .dev 0x200000, ea := 0x1000000, value := 0 } }) (atMop 6 .post)) 0).resv.isSome
      = true ∧ (eng (atMop 6 .post) 0).resv = none := by decide +kernel
/-- SLOTRD is met with a full slot. -/
theorem test_EngineSlotsTakeEffect_slot :
    (slotAt (updEng 0 (fun x => { x with slots := [(0, { st := .down, data := List.replicate 256 1 })] }) (atMop 9 .post)) 0 0).data.length
      = 256 := by decide +kernel
/-- An STC whose reservation holds stores U2 and succeeds. -/
theorem test_stc : gives (.stc 0 mem12) (updEng 0 (fun x => { x with
    resv := some { tgt := .dev 0x200000, ea := 0x1000000, value := 0 } }) (atMop 6 .post))
    (fun t => read64 t 0x200000 == 0x40 && (eng t 0).stcs.any fun x => x.ok) = true := by decide +kernel

def mxWord (op : Nat) : Nat := fields [(76, op), (73, 1), (64, 1), (58, 2), (52, 3)]
theorem test_ArraySlotsComplete_matrix : SlotReady (atWord 0) 0 (runAt 0) 0 2 ∧ isMx 0 0 = true ∧
    SlotReady (atWord (mxWord 2)) 0 (runAt (mxWord 2)) (mxWord 2) 2 ∧ isMx 2 (mxWord 2) = true ∧
    SlotReady (atWord (mxWord 1)) 0 (runAt (mxWord 1)) (mxWord 1) 2 ∧ wMsrc (mxWord 1) = 1 ∧ wMidx (mxWord 1) = 3 ∧
    SlotReady (atWord (mxWord 3) .post) 0 (runAt (mxWord 3) .post) (mxWord 3) 2 ∧ wFmt (mxWord 3) = .int8 ∧
    spWindow vi (eu 0) 0 0 (rowBytes .int8) = some 0 ∧ spWindow vi (eu 0) 0 0 (mxN .int8 * 4) = some 0 ∧
    spCheck vi 0 0 0 (sliceBytes .int8) = some 0 ∧ SlotReady (atWord (mxWord 3)) 0 (runAt (mxWord 3)) (mxWord 3) 2 := by
  unfold SlotReady; decide +kernel
def vecWord (op : Nat) : Nat := fields [(44, op), (38, 1), (32, 2), (26, 3)]
theorem test_ArraySlotsComplete_vector : SlotReady (atWord (vecWord 1) .post) 0 (runAt (vecWord 1) .post) (vecWord 1) 3 ∧
    SlotReady (atWord 0) 0 (runAt 0) 0 3 ∧ wVop (vecWord 8) = 8 ∧
    SlotReady (atWord (vecWord 8) .post) 0 (runAt (vecWord 8) .post) (vecWord 8) 3 ∧
    SlotReady (atWord (vecWord 7) .post) 0 (runAt (vecWord 7) .post) (vecWord 7) 3 ∧
    spCheck vi 0 0 0 2048 = some 0 ∧ spCheck vi 0 0 0 (512 * dtypeBytes 0) = some 0 ∧
    SlotReady (atWord (vecWord 1)) 0 (runAt (vecWord 1)) (vecWord 1) 3 := by unfold SlotReady; decide +kernel

def engRun (f : EngSt → EngSt) : State := updEng 0 f (atWord 0)
/-- Engine 0 idle, with one index of VI 0 queued. -/
def idleEng : State := { vi with engs := [(0, { queue := [ix0] })] }
theorem test_TaskScheduleCompletes : engOn idleEng 0 = true ∧ runOf idleEng 0 = none ∧
    pickVi (eng idleEng 0) = some (eng idleEng 0).turn ∧ (∀ r ∈ (eng idleEng 0).away, r.ix.vi.val ≠ (eng idleEng 0).turn) ∧
    ((eng idleEng 0).queue.find? fun j => j.vi.val == (eng idleEng 0).turn) = some ix0 ∧
    (runOf (atWord 0) 0).any (fun r => r.phase == .pre && !r.waitMiss) = true ∧
    (runOf (atWord 0 .post) 0).any (fun r => r.phase == .post && r.open_) = true ∧
    otherWaits (eng (engRun fun x => { x with queue := [{ ix0 with vi := 1 }] }) 0) = true := by decide +kernel
/-- Engine 0 between tasks; the task word at 2 MiB names the open entry 0xC00, whose word has HEAD. -/
def tasked (w : Nat) : State :=
  acceptWrite 0x200000 (natBytes 8 w) (atWord (2 ^ 191 + 0xC00 * 2 ^ 179) .between)
theorem test_RoutinesComplete_fetch : engOn (tasked 0xC00) 0 = true ∧
    (runOf (tasked 0xC00) 0).any (fun r => r.phase == .between && fetchTask 0 r (tasked 0xC00) == .ok (natBytes 8 0xC00)
      && !namesStc (tasked 0xC00) 0 r 0xC00) = true ∧ openEntry (eng (tasked 0xC00) 0) 0xC00 = some 3072 ∧
    openEntry (eng (tasked 0xC00) 0) 0xC01 = none ∧ rtOf 0x800 = none ∧ (rtOf 0x010).isSome = true ∧
    (runOf (atWord 0 .between fun r => { r with task := 0x9000000 }) 0).any (fun r =>
      fetchTask 0 r (atWord 0 .between) == .wait 0x9000000) = true := by decide +kernel
def commitWord : Nat := 2 ^ 178
theorem test_RoutinesComplete_commit : openWord (atWord commitWord) 0 = some (runAt commitWord, commitWord) ∧
    isCommitWord (runAt commitWord) commitWord = true ∧ wordBad commitWord = false ∧
    held (atWord commitWord) 0 (runAt commitWord) commitWord = false ∧ pinsOk (atWord commitWord) (runAt commitWord) = true ∧
    pinsOk (atWord commitWord) { runAt commitWord with hits := [(false, { vbase := 99, target := 0, size := 1, attr := 0 })] } = false ∧
    held (atWord commitWord) 0 { runAt commitWord with loads := [{ tbi := 0, host := 0, ea := 0, cxl := false, fwd := [] }] } commitWord = true ∧
    wEnd (2 ^ 177) = true ∧ wordDone (runAt (2 ^ 177) .post) (2 ^ 177) = true ∧ (runAt (2 ^ 177) .post).incs = [] ∧
    (openWord (atWord (2 ^ 177) .post fun r => { r with regs := { exitv := some 9 } }) 0).isSome = true ∧
    (runOf (atWord 0 .post fun r => { r with open_ := false }) 0).any (fun r => !r.open_) = true := by decide +kernel
/-- A host load of block 3 is out, and an STC to register 1. -/
def load3 : HLoad := { tbi := 3, host := 0x200000, ea := 5, cxl := false, fwd := [] }
def stc1 : Stc :=
  { vi := 0, idx := job5, k := 0, reg := 1, tgt := .dev 0, ea := 0, cxl := false, ok := true, compare := 0, new := 0 }
def store1 : SbEnt := { tgt := .dev 0x200000, data := [1], vi := 0 }
def gather1 : Gather := { eng := 0, vi := 0, addr := 0x200000, data := [1] }
def gathered1 : State := { vi with gathers := [(0, [gather1])] }
theorem test_EngineTrafficCompletes : engOn (atWord 0) 0 = true ∧
    (runOf (atWord 0 .pre fun r => { r with loads := [load3] }) 0).any (fun r => r.attempt != 5 && r.attempt + 1 != 5 &&
      r.phase == .pre && r.ldr.isNone && (r.loads.find? fun p => p.tbi == 3) == some load3) = true ∧
    retOf { atWord 0 with hret := [{ h := 0, line := 0, who := .load 0 0 3, data := 7 }] } (.load 0 0 3) =
      some { h := 0, line := 0, who := .load 0 0 3, data := 7 } ∧
    (eng (engRun fun x => { x with stcs := [stc1] }) 0).stcs = [stc1] ∧ isIndex 0 job5 0 (runAt 0) = true ∧
    openWord (atWord 0) 0 = some (runAt 0, 0) := by decide +kernel
theorem test_EngineTrafficCompletes_store : (eng (engRun fun x => { x with sb := [store1] }) 0).sb = [store1] ∧
    islandRuns vi (.hub (kilnOf 0)) = true ∧ (eng (engRun fun x => { x with sb := [store1] }) 0).tbOut = [] ∧
    mayLeave (engRun fun x => { x with sb := [store1] }) 0 store1 = true ∧ gather vi (kilnOf 0) = [] ∧
    running gathered1 = true ∧ kilnFenced gathered1 0 = false ∧ gather gathered1 0 = [gather1] ∧
    memOpen gathered1 0 0x200000 1 = true ∧ (granules 0x200000 1).length = 1 := by decide +kernel
/-- A store is in no memory until its gather is passed (R350). -/
theorem test_store_order : gives (.st64 0 mem12) (atMop 2 .post fun r => { r with tbIn := [(0, 7)] })
    (fun t => t.mem == [] && (eng t 0).sb.length == 1) = true := by decide +kernel

/-! ## Memory, fabric and ingest -/

theorem test_MemoryReadsComplete : running vi = true ∧ isHole vi ((0x200000 : BitVec 38).toNat / 32 * 32) = false ∧
    poisoned vi (0x200000 / 32 * 32) = false ∧ ueCount vi 0 < 63 ∧ islandRuns vi (.memory 0) = true ∧ kilnFenced vi 0 = false ∧
    fget vi .scrubHours ≠ 0 ∧ (3 : BitVec 8) ≠ 0 := by decide +kernel
/-- The last granule below the top is memory, the next is a hole (R417). -/
theorem test_memory_top : isHole vi (0x3000000000 - 32) = false ∧ isHole vi 0x3000000000 = true := by decide +kernel

/-- Node 3 with port 4 UP in role FABRIC; destination 9 goes by port 4. -/
def portAt (x : PortSt) (role : Nat := 0) : State :=
  { (fset .portRole 4 role (fset .nodeId 0 3 (fset .nodeValid 0 1 vi))) with
    ports := [(4, x)], rt := [(521, 0x24)], refSeen := [0] }
def upPort : PortSt := { st := .up, linkUp := true, speed := 2 }
def net : State := portAt upPort
def hello7 : Hello :=
  { uid := 7, node := 9, nodeValid := true, port := 1, role := 0, curEpoch := false, seenUid := 0, seenNode := 3,
    seenValid := true, seenPort := 4 }
theorem test_PortCommandsComplete : portOn net 4 = true ∧ portEnabled net 4 = true ∧ (getPort vi 4).linkUp = false ∧
    (getPort vi 4).st ≠ .held ∧ speedOk net 4 (1 : BitVec 2).toNat = true ∧ speedOk net 4 (2 : BitVec 2).toNat = true ∧
    (getPort net 4).linkUp = true ∧ (getPort net 4).st.live = true ∧ net.waitq = [] ∧ (getPort net 4).cross = [] ∧
    helloLate net 4 = false ∧ helloLate { portAt { upPort with heard := true } with nowNs := 30000000 } 4 = true ∧
    helloLate { portAt { upPort with heard := true } with nowNs := 29999999 } 4 = false ∧ helloOn net 4 = true ∧
    helloState net 4 { hello7 with uid := 0 } = .loop ∧
    helloState { net with fuses := { uid := 5 } } 4 { hello7 with seenUid := 5 } = .up ∧
    helloState { portAt { upPort with st := .init } with fuses := { uid := 5 } } 4 hello7 = .init ∧
    roleOf (portAt { upPort with st := .init } 2) 4 = 2 ∧ (getPort (portAt { upPort with st := .init } 2) 4).heard = false := by
  decide +kernel
theorem test_HopCommandsComplete : linkOn net 4 = true ∧ (List.replicate 8 (0 : BitVec 12)).length = 8 ∧
    (∀ q v, v < 8 → mget 0 (getPort net q).owed v < 16) ∧ (getPort (portAt { upPort with hold := [(frame0, 7)] }) 4).hold ≠ [] ∧
    frame0.ok = true ∧ 2 ≤ frame0.kind.toNat ∧ badFrame frame0 = false ∧
    frame0.lseq.toNat = ((getPort net 4).rxSeq + 1) % 4096 ∧
    ({ frame0 with lseq := 1 } : Frame).lseq.toNat ≠ ((getPort net 4).rxSeq + 1) % 4096 ∧
    badFrame { frame0 with hcrcOk := false } = true ∧ ({ frame0 with len := 1 } : Frame).ok = false := by decide +kernel
theorem test_RoutingCommandsComplete : nodeOk net = true ∧ anyFlue net = true ∧ frame0.epoch = net.epochCur ∧
    decideRoute net frame0 none = .send 4 frame0 ∧ decideRoute net { frame0 with dst := 3 } none = .deliver ∧
    decideRoute net { frame0 with dst := 10 } none = .drop true ∧
    decideRoute (portAt { upPort with spent := [(0, 128)] }) frame0 none = .hold ∧
    (getPort net 4).linkUp = true ∧ roleOf net 4 = 0 ∧ roleOf (portAt upPort 1) 4 = 1 := by decide +kernel
/-- A frame with this device's own node number as SRC is discarded and recorded (R464). -/
theorem test_OwnSourceDiscarded : (Instr.routeFrame frame0 (some 4)).wf = true ∧ linkOn net 4 = true ∧ running net = true ∧
    nodeOk net = true ∧ badFrame frame0 = false ∧ 2 ≤ frame0.kind.toNat ∧
    frame0.src.toNat = ownNode net ∧ (∀ x ∈ net.flt.raised, x.src ≠ srcOf (.fport 4)) ∧
    (∃ x ∈ ({ net with flt := { raised := [{ src := srcOf (.fport 4), cause := 0x0B, info := 0, vi := none, part := none }] } } : State).flt.raised,
      x.src = srcOf (.fport 4)) ∧
    gives (.routeFrame frame0 (some 4)) net (fun t => t.waitq == [] && t.flt.raised.map Raised.cause == [0x0C]) = true := by
  decide +kernel
def write9 : Frame := { frame0 with dst := 3, src := 9, len := 2, payload := [5, 6], kspec := BitVec.ofNat 120 (2 ^ 48) }
/-- Fabric window 1 is open to node 9 over 64 bytes of the allotment. -/
def opened : State := { net with fwin := [(1, { open_ := true, base := 0x40, size := 64, peer := 9 })] }
theorem test_RemoteWritesComplete : write9.ok = true ∧ forMe opened write9 = true ∧ badFrame write9 = false ∧ write9.kind = 2 ∧
    opened.ackq.length < 4096 ∧ landOpen opened write9 = true ∧ windowCode opened 1 9 0 0 2 = 0 ∧
    windowCode opened 1 8 0 0 2 = 2 ∧ ({ net with ackq := [frame0] } : State).ackq = frame0 :: [] ∧
    running net = true ∧ nodeOk net = true ∧ anyFlue net = true := by decide +kernel
/-- Context 0 has a WRITE out, of offset 0 and 2 bytes, sent at time 0. -/
def pending0 (n : Nat) : State := { net with ctxs := [(0, { used := true, pend := [(0, 2, 0, 0)] })], nowNs := n }
def ack0 : Frame := ackFrame (pending0 0) 3 0 0 0 0 2
theorem test_RemoteWritesComplete_ack : forMe (pending0 0) ack0 = true ∧ badFrame ack0 = false ∧ ack0.kind = 3 ∧ fCode ack0 = 0 ∧
    ((getCtx (pending0 0) (fCtx ack0)).pend.find? fun p => p.1 == fOff ack0 && p.2.1 == fAckLen ack0) = some (0, 2, 0, 0) ∧
    (getCtx (pending0 0) 0).all = false ∧ (getCtx (pending0 0) 0).fail = none ∧
    ((getCtx (pending0 0) 0).pend.find? fun p => p.1 == 0) = some (0, 2, 0, 0) ∧ running (pending0 50000000) = true ∧
    0 + 50000000 ≤ (pending0 50000000).nowNs ∧ (pending0 49999999).nowNs < 0 + 50000000 := by decide +kernel
/-- A WRITE lands at the window's base plus its offset, and its ACK is queued. -/
theorem test_write_lands : gives (.writeRx write9) opened (fun t =>
    readBytes t 0x200040 3 == [5, 6, 0] && t.ackq.length == 1) = true := by decide +kernel
theorem test_EpochCommandsComplete : epochOpen fire vi0 = true ∧ fire.grace = false ∧ ({ fire with grace := true } : State).grace = true ∧
    ({ fire with epochArm := true } : State).epochArm = true ∧ fire.epochArm = false ∧ vf1 ≠ vi0 := by decide +kernel

def packet0 : Packet :=
  { icrcOk := true, addrOk := true, qpn := 0x1002, psn := 0, opcode := 0x0A, ackReq := true, va := 0, rkey := 0, dmaLen := 2,
    imm := 0, ce := false, pcp := 0, bytes := 100, payload := [8, 9] }
/-- Port 4 takes ingest for queue pair 2, bound to ingest window 0 of VI 0. -/
def ingesting : State :=
  { (fset .ingEnable 0 1 (fset .portMask 0 16 (portAt { st := .ingest, linkUp := true, xoff := true, rxBytes := 0x40000 } 1))) with
    iwin := [(0, { open_ := true, base := 0x40, size := 64 })]
    qps := [(2, { bound := true, rtr := true, port := 4, pmtu := 1024, ackDue := true })] }
theorem test_IngestCommandsComplete : portOn ingesting 4 = true ∧ carriesRoce ingesting 4 = true ∧ ingestOn ingesting 4 = true ∧
    ingestOn (portAt { st := .ingest, linkUp := true } 1) 4 = false ∧ packet0.bytes.toNat < 384 * 1024 ∧
    qpOf packet0.qpn.toNat = some 2 ∧ qpOf 0x2000 = none ∧ (getQp ingesting 2).bound = true ∧ (getQp ingesting 2).port = 4 ∧
    (getQp ingesting 2).epsn = packet0.psn.toNat ∧ wrOf packet0.opcode.toNat = some (.only false) ∧
    packetOutcome ingesting (getQp ingesting 2) packet0 (.only false) = .accept ∧ landsOpen ingesting 2 packet0 (.only false) = true ∧ pausedOn ingesting 4 0 = false ∧
    (getPort ingesting 4).xoff = true ∧ 256 * 1024 ≤ (getPort ingesting 4).rxBytes ∧ (0x3FFFF : BitVec 20).toNat < 256 * 1024 ∧
    facesAppliance ingesting 4 = true ∧ (1 : BitVec 16) ≠ 0 := by decide +kernel
theorem test_IngestCommandsComplete_entry :
    (getVi (ringed fun x => { x with ingest := [({ status := .ingestWindow }, 0, 2)] }) 0).ingest.length = 1 ∧
    ringOn vi 0 = true ∧ ingestServed vi 0 = true ∧ mayMaster vi 0 = true ∧ entrySlot vi 0 { status := .ingestWindow } = true ∧
    cplInAllot vi 0 = true ∧ viaHome vi 0 = false ∧ (getVi vi 0).outq = [] ∧ fget vi .ingestIrq 0 ≠ 1 := by decide +kernel
/-- The packet's bytes land at the window's base, and the queue pair expects the next number. -/
theorem test_packet_lands : gives (.ingestPacket 4 packet0) ingesting (fun t =>
    readBytes t 0x200040 2 == [8, 9] && (getQp t 2).epsn == 1 && (getQp t 2).msn == 1) = true := by decide +kernel

/-! ## Collectives -/

/-- COLL of group 1 with SEQ 1; kind and data type, options, count. -/
def collDesc (kind opts count : Nat) : Block := opBlock 9 [1 + kind * 2 ^ 16 + opts * 2 ^ 24 + 2 ^ 32, count, 0x1000000, 0x1000000]
/-- Group 1 at 64 bytes into PF0's allotment: owner VI 0, two members, this one of rank 1 below node 7. -/
def grouped : State :=
  acceptWrite 0x200040 (natBytes 4 2 ++ natBytes 4 1 ++ natBytes 4 0 ++ natBytes 2 0x8000 ++ natBytes 2 0 ++ natBytes 4 (2 ^ 31 + 7)) net
def barrier : State := flying (collDesc 0 0 0) id grouped
theorem test_CollectiveStartsComplete : (fresh barrier 0 5 9).isSome = true ∧ entryOpen barrier 1 = true ∧ waitsColl barrier 0 job5 = false ∧
    (fresh barrier 0 5 9).any (fun f => collStop barrier 0 f == none && seqOk barrier f.desc) = true ∧
    collStop net 0 { idx := job5, desc := collDesc 0 0 0 } = some (openC .collMismatch) ∧
    seqOk barrier (opBlock 9 [1 + 2 * 2 ^ 32]) = false ∧ waitsColl { barrier with collWait := [(0, job5)] } 0 job5 = true ∧
    collServed barrier 1 = true ∧ collServed (fset .colEnable 0 0 barrier) 1 = false ∧
    canLaunch { barrier with collWait := [(0, job5)] } 0 job5 1 = true ∧ canLaunch { barrier with collWait := [(0, job5)], colls := [(1, { active := true })] } 0 job5 1 = false := by
  decide +kernel
theorem test_group_delete : groupStop grouped 1 = none ∧ groupForeign grouped 1 4 = true ∧ groupForeign grouped 1 0 = false := by
  decide +kernel
def collRun (c : CollSt) : State := { flying (collDesc 0 0 0) (fun f => { f with started := true }) net with colls := [(1, c)] }
def leaf : CollSt :=
  { active := true, launched := true, vi := 0, idx := job5, desc := collDesc 0 0 0, deadline := 1000, members := 2, rank := 1,
    parent := some 7, arriveSent := true }
def root : CollSt := { leaf with rank := 0, parent := none, kids := [8] }
theorem test_CollectiveFramesComplete : collOn net 1 = true ∧ inFlight net 1 1 = false ∧ inFlight (collRun leaf) 1 1 = true ∧
    expired (collRun leaf) 1 = false ∧ (getColl (collRun leaf) 1).parent = some 7 ∧ (getColl (collRun leaf) 1).released = false ∧
    (getColl (collRun leaf) 1).kids = [] ∧ (getColl (collRun leaf) 1).arriveSent = true ∧
    (getColl (collRun leaf) 1).written = [] ∧ underWay (collRun leaf) (jobWrites 0 job5) = false ∧ cKind leaf.desc = 0 ∧
    nodeEdge { root with parent := none } 8 = some 1 ∧ (0 : Nat) ∉ root.arrived ∧
    (BitVec.ofNat 32 (signature root)).toNat = signature root ∧ (0 : BitVec 32).toNat ≠ signature root ∧
    expired (collRun root) 1 = false ∧ inFlight (collRun root) 1 1 = true ∧
    nodeEdge leaf 7 = some 0 ∧ isBad leaf = false ∧ (collRun leaf).nowNs < leaf.deadline ∧ (0x20 : Byte) ≠ 0x23 ∧
    (flyOf (collRun leaf) (collVi leaf) job5).any (fun f => f.fin.isNone) = true := by decide +kernel
/-- RELEASE ends a leaf's barrier; an ABORT ends it with COLL_ABORT_PEER. -/
theorem test_release_and_abort : gives (.release 1 1 7 []) (collRun leaf) (fun t => collDone t (getColl t 1)) = true ∧
    gives (.abort 1 1 7 0x20 4) (collRun leaf) (fun t => ((flyOf t 0 job5).bind Fly.fin).any fun c =>
      c.status == .collAbortPeer && c.addr == 4) = true := by decide +kernel
/-- A reducing collective of 16 elements, staged: its one sherd has been written. -/
def staged : CollSt := { leaf with desc := collDesc 4 8 16, written := [0] }
def stagedAll : State := collRun staged
theorem test_CollectiveEndsComplete : collRuns stagedAll 1 = true ∧ expired stagedAll 1 = false ∧
    expired { collRun leaf with nowNs := 1000 } 1 = true ∧ expired { collRun leaf with nowNs := 999 } 1 = false ∧
    (flyOf stagedAll (collVi staged) job5).any (fun f => f.fin.isNone && f.fail.isNone) = true ∧
    collDone (collRun { leaf with released := true, written := [0] }) { leaf with released := true, written := [0] } = true ∧
    cStaged staged.desc = true ∧ isBad staged = false ∧ flagEng stagedAll staged = some 0 ∧
    flagWindow stagedAll (.coll (fluef 1)) (collVi staged) (cFlagBase staged.desc) = some 0 ∧
    (mySherds staged).find? (placeable stagedAll staged 0 0) = some 0 ∧ edgeIn staged 0 ≠ [] := by decide +kernel
theorem test_CollectiveEndsComplete_place :
    let x := sherdOf staged.desc (destExt staged.desc staged.members staged.rank) 0
    (match srcBytes 1 staged (cDst staged.desc + destOff staged.desc staged.rank ((x.head?.map Prod.fst).getD 0)) (extLen x)
        stagedAll with
      | (.ok l, u) => (spWindow u (.coll (fluef 1)) 0 0 l.length).isSome && l.length == 16
      | _ => false) = true := by decide +kernel

/-! ## Units and registers -/

theorem test_UnitCommandsTakeEffect : linked.board.pwrgood = true ∧ linked.resetting = none ∧ linked.boot ≠ .safe ∧
    (getPf withVfs 0).vfEnable = true ∧ (getPf { vi with pfs := [(1, { d3hot := true })] } 1).d3hot = true ∧
    ({ vi with pllParked := [.engine 9] } : State).pllParked = [.engine 9] ∧ Island.engine 9 ∉ vi.stopped ∧
    liveSide vi (.engine 9) (.hub 0) = true ∧ islandQuiet vi (.engine 9) = false ∧
    linkFenced { vi with fenced := [.link link0] } link0 = true ∧ atSafePoint vi (.mover 3) = true ∧
    ({ vi with applying := true, unitsLeft := [.mover 3] } : State).unitsLeft = [.mover 3] ∧ running vi = true := by decide +kernel
theorem test_EarlyStates : State.reset.boot = .bisque ∧ safe.boot = .safe ∧ readable safe = true ∧ answers State.reset vi0 = true ∧
    readable State.reset = true ∧ earlyReg 0x18 = true ∧ earlyReg 0x38 = false ∧ earlyReg 0xE0018 = true ∧ earlyReg 0xE0020 = false ∧
    regValue safe vi0 .mgmt 0x18 = 7 ∧ regValue State.reset vi0 .mgmt 0x18 = 1 ∧
    gives (.registerWrite vi0 .mgmt 0xC0010 8 50) State.reset (fun t => t == State.reset) = true := by decide +kernel
theorem test_EmptyCommit : fire.shadow = [] ∧ fire.applying = false ∧ answers linked vi0 = true ∧ running linked = true ∧
    bitAt (1 : U64).toNat 0 = true ∧ bitAt (1 : U64).toNat 1 = false ∧ bitAt (3 : U64).toNat 1 = true ∧
    vecOpen linked vi0 vecNotice = true ∧ vecOpen fire vi0 vecNotice = false ∧
    gives (.genCommit vi0 3) linked (fun t => t.setId == 1 && t.out == [.msix 0 3 0x1030 7]) = true := by decide +kernel
theorem test_StagedSetHolds : (clock 0 0 (some (5, 6))).rtc.staged.isSome = true ∧ barsLive (clock 0 0 (some (5, 6))) = true ∧
    accessOk 0xE0020 8 = true ∧ accessOk 0xE0034 4 = true ∧ accessOk 0xE003C 4 = true ∧
    gives (.registerWrite vi0 .mgmt 0xE0020 8 99) (clock 0 0 (some (5, 6))) (fun t => fget t .setSecLo == 0) = true := by
  decide +kernel

end Sys2Proof.Tests
end

