-- ==== Sys2Proof/Proofs/EarlyStates.lean ====
section
/-! PROOFS. BISQUE and SAFE (R96): every register write is gated by a test that these states fail, and every read outside
Table: Readable in BISQUE and SAFE is answered by 0. -/

namespace Sys2Proof.Proofs

open Sys2Proof.Machine

/-! ## The gates, in BISQUE and in SAFE -/

section
variable {s : State} (h : s.boot = .bisque ∨ s.boot = .safe)
include h

theorem barsLive_early : barsLive s = false := by
  obtain h | h := h <;> simp [barsLive, powered, h]

theorem running_early : running s = false := by
  obtain h | h := h <;> simp [running, h]

/-- GO and a warm reset ask for GLAZING or FIRED by name. -/
theorem glazing_or_fired_early : (s.boot == .glazing || s.boot == .fired) = false := by
  obtain h | h := h <;> simp [h]

/-- A command whose whole effect stands behind `barsLive` changes nothing. -/
theorem next_of_barsLive_gate (c : Bool) (t : State) : (.next (if barsLive s && c then t else s) : Out) = .next s := by
  simp [barsLive_early h]

theorem epochOpen_early (v : Vi) : epochOpen s v = false := by
  simp [epochOpen, running_early h]

theorem warmReset_early : warmReset s = s := by
  simp [warmReset, glazing_or_fired_early h]

theorem writeCommit_early (v : Nat) : writeCommit v s = s := by
  simp [writeCommit, running_early h]

/-! ## Writes -/

theorem execRegisterWrite_early (v : Vi) (sp : Space) (o : BitVec 24) (n : Nat) (w : U64) :
    execRegisterWrite v sp o n w s = .next s := by
  simp [execRegisterWrite, barsLive_early h]

theorem execGo_early (v : Vi) (w : U64) : execGo v w s = .next s := by
  simp [execGo, glazing_or_fired_early h]

theorem execStage_early (v : Vi) (w : U64) (low : Bool) : execStage v w low s = .next s := by
  simp [execStage, running_early h]

theorem execGenCommit_early (v : Vi) (w : U64) : execGenCommit v w s = .next s := by
  simp [execGenCommit, writeCommit_early h]

theorem execWarmReset_early (v : Vi) : execWarmReset v s = .next s := by
  simp [execWarmReset, warmReset_early h]

theorem execEpochArm_early (v : Vi) : execEpochArm v s = .next s := by
  simp [execEpochArm, epochOpen_early h]

theorem execEpochFlip_early (v : Vi) (b : Bool) : execEpochFlip v b s = .next s := by
  simp [execEpochFlip, epochOpen_early h]

/-! ## Reads -/

theorem regValue_vi_early (v : Vi) (o : Nat) : regValue s v .vi o = 0 := by
  simp [regValue, barsLive_early h]

theorem regValue_mgmt_unlisted {o : Nat} (v : Vi) (ho : earlyReg o = false) : regValue s v .mgmt o = 0 := by
  simp [regValue, barsLive_early h, ho]

/-- CNT_VAL_LO is not listed: its read answers 0 and does not latch (R589). -/
theorem execCntValLoRead_early (c : Ctr) (hr : readable s = true) (ha : answers s vi0 = true) :
    execCntValLoRead c s = .next (emit (.regRead 0) s) := by
  simp [execCntValLoRead, barsLive_early h, hr, ha]

end

/-- A register that the table lists reads the same in every state: PF0's stored fields and the device's own values. -/
theorem regValue_mgmt_listed {s : State} {o : Nat} (ho : earlyReg o = true) (hr : readable s = true)
    (ha : answers s vi0 = true) :
    regValue s vi0 .mgmt o = readRows s (mgmtRows o) + (roGen s o + roEng s o + roFab s o + roFlt s o) := by
  simp [regValue, reaches, rowsAt, ho, hr, ha]

/-- Settles O53: the writes fail at `barsLive`, `running` or the test for GLAZING and FIRED, and the reads at the table. -/
theorem earlyStates : Obligations.EarlyStates := by
  intro s h
  have gate := next_of_barsLive_gate h
  refine ⟨execRegisterWrite_early h, fun v w b => ⟨execGo_early h v w, execStage_early h v w b, execGenCommit_early h v w⟩,
    fun v b => ⟨?viEnable, ?viDisable, ?mboxEnable, ?mboxDisable, execWarmReset_early h v, execEpochArm_early h v,
      execEpochFlip_early h v b⟩,
    fun c w => ⟨?cntLo, ?cntHi⟩, fun b n => ?window, fun w => ?clearSeq, fun v n => ?unmask, ?unfreeze, ?rtcSet,
    regValue_vi_early h, fun v o => regValue_mgmt_unlisted h v,
    fun c hr ha => ⟨_, execCntValLoRead_early h c hr ha, rfl⟩, fun o => regValue_mgmt_listed⟩
  all_goals exact gate _ _

end Sys2Proof.Proofs
end

/-! PROOFS. The rings' descriptors (R226, R227, R244, R252). Of a VI, the home, the line store and a drain change neither the
descriptors in flight nor the completion ring's indices: those change at dispatch, at an entry and at an ending alone. -/

namespace Sys2Proof.Proofs

open Sys2Proof.Machine Sys2Proof.Laws

/-! ## Operations that leave every VI as it is -/

/-- A fold of such operations is one. -/
@[simp] theorem foldl_vis {α : Type} {f : State → α → State} (hf : ∀ t x, (f t x).vis = t.vis) (l : List α) (s : State) :
    (l.foldl f s).vis = s.vis :=
  foldl_same (P := fun s t => t.vis = s.vis) (fun _ => rfl) (fun _ _ _ h k => k.trans h) hf l s

section
variable (s : State)

@[simp] theorem send_vis (a b : Island) (m : MCls) (c : Instr) (d : Option Block) (w : Who) :
    (send a b m c d w s).vis = s.vis := rfl
@[simp] theorem putDir_vis (l : LineA) (d : Dir) : (putDir l d s).vis = s.vis := rfl
@[simp] theorem setHl_vis (h : Holder) (l : LineA) (x : HLine) : (setHl h l x s).vis = s.vis := rfl
@[simp] theorem bumpLru_vis : (bumpLru s).vis = s.vis := rfl
@[simp] theorem returned_vis (x : HRet) : (returned x s).vis = s.vis := rfl
@[simp] theorem forget_vis (p : Who → Bool) : (forget p s).vis = s.vis := rfl
@[simp] theorem freeSlot_vis (e : Eng) (k : Fin 4) : (freeSlot e k s).vis = s.vis := rfl
@[simp] theorem popWait_vis (h : Holder) (l : LineA) : (popWait h l s).vis = s.vis := rfl
@[simp] theorem waitOn_vis (h : Holder) (l : LineA) (w : Wait) (who : Who) : (waitOn h l w who s).vis = s.vis := rfl

@[simp] theorem report_vis (u : FUnit) (c n : Nat) (v p : Option Nat) : (report u c n v p s).vis = s.vis := by
  obtain ⟨f, g, h⟩ := report_same u c n v p s
  rw [h]

@[simp] theorem raiseVec_vis (v : Vi) (n : Fin 4) : (raiseVec v n s).vis = s.vis := by
  obtain ⟨o, f, h⟩ := raiseVec_same v n s
  rw [h]

@[simp] theorem raiseCompletion_vis (v : Vi) : (raiseCompletion v s).vis = s.vis := by
  unfold raiseCompletion
  split <;> simp

@[simp] theorem acceptWrite_vis (a : Nat) (l : List Byte) : (acceptWrite a l s).vis = s.vis := by
  obtain ⟨m, p, e, h⟩ := acceptWrite_same a l s
  rw [h]

/-! ### The home -/

@[simp] theorem toHolder_vis (h : Holder) (l : LineA) (m : String) (d : Option (Block × Bool)) :
    (toHolder h l m d s).vis = s.vis := by
  unfold toHolder
  split <;> simp

@[simp] theorem sendAll_vis (hs : List Holder) (l : LineA) (m : String) : (sendAll hs l m s).vis = s.vis := by
  simp [sendAll]

@[simp] theorem startWrite_vis (l : LineA) (k : ReqKind) (b : Block) (w : Who) : (startWrite l k b w s).vis = s.vis := by
  simp [startWrite]

@[simp] theorem serveRingWrite_vis (l : LineA) (b : Block) (w : Who) : (serveRingWrite l b w s).vis = s.vis := by
  unfold serveRingWrite
  dsimp only
  split <;> simp

@[simp] theorem recallLine_vis (l : LineA) : (recallLine l s).vis = s.vis := by simp [recallLine]

@[simp] theorem retryReq_vis (a : Aged) (n : Nat) : (retryReq a n s).vis = s.vis := by
  unfold retryReq
  split <;> simp

/-- A line that the ring engine writes goes through the home: served at once, or behind a recall, or in the aged queue. -/
@[simp] theorem ringLineWrite_vis (l : LineA) (b : Block) (w : Who) : (ringLineWrite l b w s).vis = s.vis := by
  unfold ringLineWrite lineWrite
  dsimp only
  split
  · unfold serveNew
    split
    · simp [serveAged]
    · split <;> simp
  · rfl

@[simp] theorem sendLine_vis (v : Vi) (off : Nat) (b : Block) : (sendLine v off b s).vis = s.vis := by
  unfold sendLine
  dsimp only
  split <;> simp

/-! ### The holders -/

@[simp] theorem sendHome_vis (h : Holder) (l : LineA) (m : String) (n : Nat) (d : Option (Block × Bool × Bool)) :
    (sendHome h l m n d s).vis = s.vis := by
  unfold sendHome
  split <;> simp

@[simp] theorem clearHostResv_vis (h : Holder) (n : Nat) : (clearHostResv h n s).vis = s.vis := by
  unfold clearHostResv
  extract_lets t
  have ht : t.vis = s.vis := rfl
  clear_value t
  split
  · refine (foldl_vis (fun u e => ?_) _ t).trans ht
    simp
  · exact ht

@[simp] theorem request_vis (h : Holder) (l : LineA) (m : String) (st : HSt) : (request h l m st s).vis = s.vis := by
  unfold request
  split <;> simp

@[simp] theorem loadEnds_vis (h : Holder) (l : LineA) (w : Who) (d : Block) (p k : Bool) :
    (loadEnds h l w d p k s).vis = s.vis := by
  unfold loadEnds
  dsimp only
  split <;> simp

@[simp] theorem storeDone_vis (h : Holder) (l : LineA) (m : BitVec 64) (d : Block) (w : Who) :
    (storeDone h l m d w s).vis = s.vis := by
  unfold storeDone
  dsimp only
  split <;> split <;> simp

/-! ### Draining an engine's stores and a die's gather -/

@[simp] theorem acceptThose_vis (k : Kiln) (p : Gather → Bool) : (acceptThose k p s).vis = s.vis := by
  simp [acceptThose]

@[simp] theorem acceptOwn_vis (e : Eng) : (acceptOwn e s).vis = s.vis := acceptThose_vis s _ _

@[simp] theorem pushGather_vis (e : Eng) (v : Vi) (a : Nat) (l : List Byte) : (pushGather e v a l s).vis = s.vis := by
  unfold pushGather
  dsimp only
  split
  · split <;> simp
  · simp

@[simp] theorem toSlice_vis (i : Island) (k : Kiln) (c : Instr) (d : Option Block) (w : Who) :
    (toSlice i k c d w s).vis = s.vis := by
  unfold toSlice
  dsimp only
  split <;> simp

@[simp] theorem hostStore_vis (i : Island) (k : Kiln) (v : Vi) (a : Nat) (bs : List Byte) (st r : Bool) (w : Who) :
    (hostStore i k v a bs st r w s).vis = s.vis := by
  unfold hostStore
  split <;> simp

@[simp] theorem passEntry_vis (e : Eng) (x : SbEnt) : (passEntry e x s).vis = s.vis := by
  unfold passEntry
  split
  · split <;> simp
  · split
    · simp [storeFailed]
    · dsimp only
      split <;> simp

end

@[simp] theorem passAll_vis (e : Eng) (l : List SbEnt) (s : State) : (passAll e l s).2.vis = s.vis := by
  induction l generalizing s with
  | nil => rfl
  | cons x l ih =>
    unfold passAll
    split
    · simp [ih]
    · rfl

@[simp] theorem flushSb_vis (e : Eng) (s : State) : (flushSb e s).vis = s.vis := by simp [flushSb, flushN]

@[simp] theorem drainVi_vis (v : Vi) (s : State) : (drainVi v s).vis = s.vis := by simp [drainVi]

/-- What a FENCE drains ends no descriptor: a store that fails is an index's, and shows at its task boundary (R340). -/
@[simp] theorem fenceDrain_vis (v : Vi) (s : State) : (fenceDrain v s).vis = s.vis := by simp [fenceDrain]

theorem getVi_of_vis {s t : State} (h : t.vis = s.vis) (v : Vi) : getVi t v = getVi s v := by rw [getVi, getVi, h]

/-! ## What the line store, the flags and the fetches leave of a VI's completion ring -/

/-- Of a VI, what a completion concerns: the descriptors in flight, the reserved slots, the next index and the enable. -/
def cplPart (x : ViSt) : List Fly × Nat × BitVec 32 × Nat := (x.fly, x.reserved, x.piCpl, x.lap)

/-- From s to t that part of every VI stands. -/
def CplKept (s t : State) : Prop := ∀ v, cplPart (getVi t v) = cplPart (getVi s v)

section
variable {s t u : State}

theorem CplKept.refl (s : State) : CplKept s s := fun _ => rfl
theorem CplKept.trans (h : CplKept s t) (k : CplKept t u) : CplKept s u := fun v => (k v).trans (h v)
theorem CplKept.of_vis (h : t.vis = s.vis) : CplKept s t := fun v => by rw [getVi_of_vis h]
/-- What follows and leaves the VIs as they are. -/
theorem CplKept.then_vis (h : CplKept s t) (k : u.vis = t.vis) : CplKept s u := h.trans (.of_vis k)
theorem CplKept.ite {c : Prop} [Decidable c] (ht : CplKept s t) (hu : CplKept s u) : CplKept s (if c then t else u) := by
  split <;> assumption
theorem CplKept.foldl {α : Type} {f : State → α → State} (hf : ∀ t x, CplKept t (f t x)) (l : List α) (s : State) :
    CplKept s (l.foldl f s) := foldl_same .refl (fun _ _ _ => .trans) hf l s

theorem CplKept.updVi (v : Vi) {f : ViSt → ViSt} (s : State) (hf : ∀ x, cplPart (f x) = cplPart x := by intro x; rfl) :
    CplKept s (updVi v f s) := by
  intro w
  by_cases h : v = w
  · rw [← h, getVi_updVi_same, hf]
  · rw [getVi_updVi_other f h]

theorem CplKept.fly (h : CplKept s t) (v : Vi) : (getVi t v).fly = (getVi s v).fly := congrArg (·.1) (h v)
theorem CplKept.reserved (h : CplKept s t) (v : Vi) : (getVi t v).reserved = (getVi s v).reserved := congrArg (·.2.1) (h v)
theorem CplKept.piCpl (h : CplKept s t) (v : Vi) : (getVi t v).piCpl = (getVi s v).piCpl := congrArg (·.2.2.1) (h v)
theorem CplKept.lap (h : CplKept s t) (v : Vi) : (getVi t v).lap = (getVi s v).lap := congrArg (·.2.2.2) (h v)
end

section
variable (s : State)

/-! ### An access of the line store: of the VIs, only what they watch changes -/

theorem storeLoses_cplKept (h : Holder) (l : LineA) : CplKept s (storeLoses h l s) := by
  refine .ite ?_ (.refl s)
  unfold dropWatch
  extract_lets t
  refine .trans (t := t) (.of_vis rfl)
    (.foldl (fun u p => .foldl (fun w k => .ite (.updVi _ w fun x => ?_) (.refl w)) _ u) _ t)
  cases k <;> rfl

theorem evictLine_cplKept (h : Holder) (l : LineA) : CplKept s (evictLine h l s) := by
  unfold evictLine
  extract_lets x
  split
  · exact .refl s
  · split
    · exact .of_vis rfl
    · exact .then_vis (.trans (.of_vis (clearHostResv_vis s h l.toNat)) (storeLoses_cplKept _ h l))
        (sendHome_vis _ _ _ _ _ _)

theorem place_cplKept (h : Holder) (l : LineA) (m : String) (st : HSt) : CplKept s (place h l m st s) := by
  unfold place
  refine .ite (.of_vis (by simp)) ?_
  unfold awaitRoom
  extract_lets t
  have ht : CplKept s t := .of_vis rfl
  clear_value t
  split
  · split
    · exact ht.trans (evictLine_cplKept t _ _)
    · exact ht
  · exact ht

theorem serveWaits_cplKept (h : Holder) (l : LineA) (n : Nat) : CplKept s (serveWaits h l n s) := by
  induction n generalizing s with
  | zero => exact .refl s
  | succ n ih =>
    have next {t : State} (ht : t.vis = s.vis) : CplKept s (serveWaits h l n t) := .trans (.of_vis ht) (ih t)
    unfold serveWaits
    dsimp only
    split
    · exact .refl s
    · split
      · exact place_cplKept s _ _ _ _
      · exact .of_vis (by simp)
      · exact next (by simp)
      · split
        · exact next (by simp)
        · split
          · exact place_cplKept s _ _ _ _
          · exact .of_vis (by simp)
          · exact .of_vis (by simp)
          · split
            · exact .trans (.of_vis (by simp)) (evictLine_cplKept _ _ _)
            · exact next (by simp)
          · exact .refl s

theorem goOn_cplKept (h : Holder) (l : LineA) : CplKept s (goOn h l s) := .ite (.refl s) (serveWaits_cplKept s _ _ _)

theorem access_cplKept (h : Holder) (l : LineA) (w : Wait) (who : Who) : CplKept s (access h l w who s) := by
  unfold access
  extract_lets x queue hit
  have hq : CplKept s queue := .of_vis rfl
  have hh : CplKept s hit := by
    subst hit
    split
    · exact .of_vis (by simp)
    · exact hq
  have hg : CplKept s (goOn h l queue) := hq.trans (goOn_cplKept queue h l)
  split
  · exact .ite hg hq
  all_goals assumption

/-! ### The flags -/

theorem stopRing_cplKept (v : Vi) (c : Nat) (p : Bool) : CplKept s (stopRing v c p s) := by
  unfold stopRing
  refine .ite (.refl s) ?_
  generalize ht : report .ring 0x41 c (some v.val) (partOf s v) s = t
  have hs : CplKept s t := .of_vis (by rw [← ht, report_vis])
  unfold stopVi
  generalize hu : updVi v _ t = u
  have hk : CplKept t u := by rw [← hu]; exact .updVi v t
  exact (hs.trans hk).then_vis (raiseVec_vis _ _ _)

theorem pumpOne_cplKept {t : State} {v : Vi} (h : pumpOne v s = some t) : CplKept s t := by
  unfold pumpOne at h
  split at h
  · cases h
  · next r l _ =>
    extract_lets u at h
    have hu : CplKept s u := .updVi v s
    clear_value u
    split at h
    · obtain rfl := Option.some.inj h
      exact hu.then_vis (freeSlot_vis u _ _)
    · split at h
      · obtain rfl := Option.some.inj h
        exact hu.then_vis (sendLine_vis u _ _ _)
      · cases h
    · split at h
      · cases h
      · obtain rfl := Option.some.inj h
        exact .ite (hu.then_vis (raiseCompletion_vis u v)) (hu.then_vis (raiseVec_vis u v _))
    · split at h
      · cases h
      · obtain rfl := Option.some.inj h
        exact hu.trans (.updVi v u)

theorem pumpN_cplKept (v : Vi) (n : Nat) : CplKept s (pumpN v n s) := by
  induction n generalizing s with
  | zero => exact .refl s
  | succ n ih =>
    unfold pumpN
    split
    next t h => exact (pumpOne_cplKept s h).trans (ih t)
    · exact .refl s

theorem ringOut_cplKept (v : Vi) (l : List RingOut) : CplKept s (ringOut v l s) :=
  .trans (t := updVi v _ s) (.updVi v s) (pumpN_cplKept _ v _)

/-! ### The fetches -/

theorem fetchNow_cplKept (v : Vi) : CplKept s (fetchNow v s) := by
  unfold fetchNow
  extract_lets n off t a
  have ht : CplKept s t := .updVi v s
  clear_value t
  exact .ite (.refl s) (.ite (stopRing_cplKept s _ _ _)
    (.ite (ht.trans (.foldl (fun u i => access_cplKept u _ _ _ _) _ t)) (ht.then_vis rfl)))

end

/-! ## FENCE -/

theorem getVi_fenceDrain (v w : Vi) (s : State) : getVi (fenceDrain v s) w = getVi s w := getVi_of_vis (fenceDrain_vis v s) w

theorem flyOf_fenceDrain (v w : Vi) (j : Job) (s : State) : flyOf (fenceDrain v s) w j = flyOf s w j := by
  rw [flyOf, getVi_fenceDrain, ← flyOf]

/-- The first ending stands. -/
def endWith (c : Compl) (f : Fly) : Fly := if f.fin.isSome then f else { f with fin := some c }
/-- Of the descriptors in flight those of job `j` end. -/
def endJob (j : Job) (c : Compl) (f : Fly) : Fly := if f.idx == j then endWith c f else f

theorem endJob_idx (j : Job) (c : Compl) (f : Fly) : (endJob j c f).idx = f.idx := by
  unfold endJob endWith
  split
  · split <;> rfl
  · rfl

theorem endJob_fin {j : Job} {c : Compl} {f : Fly} (hj : f.idx = j) (hf : f.fin = none) : (endJob j c f).fin = some c := by
  simp [endJob, endWith, hj, hf]

/-- A descriptor that had not ended has the ending given, if any. -/
theorem fin_of_endJob {j : Job} {c d : Compl} {f : Fly} (hf : f.fin = none) (h : (endJob j c f).fin = some d) : d = c := by
  unfold endJob endWith at h
  split at h
  · simpa [hf, eq_comm] using h
  · simp [hf] at h

theorem finish_fly (v : Vi) (j : Job) (c : Compl) (s : State) :
    (getVi (finish v j c s) v).fly = (getVi s v).fly.map (endJob j c) := by
  simp only [finish, updFly, getVi_updVi_same]
  rfl

theorem flyOf_finish (v : Vi) (j k : Job) (c : Compl) (s : State) :
    flyOf (finish v j c s) v k = (flyOf s v k).map (endJob j c) := by
  rw [flyOf, finish_fly, flyOf, List.find?_map]
  simp [endJob_idx]

theorem fresh_mem {s : State} {v : Vi} {i : BitVec 32} {op : Nat} {f : Fly} (h : fresh s v i op = some f) :
    f ∈ (getVi s v).fly ∧ f.idx.idx = i ∧ f.fin = none := by
  unfold fresh at h
  split at h
  · cases h
  · have hp := List.find?_some h
    simp only [Bool.and_eq_true, beq_iff_eq, Option.isNone_iff_eq_none] at hp
    obtain ⟨⟨⟨hidx, -⟩, hfin⟩, -⟩ := hp
    exact ⟨List.mem_of_find?_eq_some h, hidx, hfin⟩

/-- The descriptor that a command runs ends with what it is given. -/
theorem ended_finish {s : State} {v : Vi} {i : BitVec 32} {f : Fly} (c : Compl) (hm : f ∈ (getVi s v).fly)
    (hi : f.idx.idx = i) (hf : f.fin = none) : Ended (finish v f.idx c s) v i c :=
  ⟨endJob f.idx c f, by rw [finish_fly]; exact List.mem_map_of_mem hm, by rw [endJob_idx, hi], endJob_fin rfl hf⟩

/-- What a FENCE can do: nothing, drain, or drain and end its own descriptor with OK. -/
theorem execFence_cases {s t : State} {v : Vi} {i : BitVec 32} (h : execFence v i s = .next t) :
    s = t ∨ fenceDrain v s = t ∨ ∃ j, finish v j (okC 0) (fenceDrain v s) = t := by
  unfold execFence at h
  injection h with h
  rw [← h]
  split
  · exact .inl rfl
  · split
    · dsimp only
      split
      · exact .inr (.inr ⟨_, rfl⟩)
      · exact .inr (.inl rfl)
    · exact .inl rfl

theorem execFence_ends {s : State} {v : Vi} {i : BitVec 32} {f : Fly} (hf : fresh s v i 0x06 = some f)
    (hr : fenceReady s v f.idx = true) (hm : fenceMet (fenceDrain v s) v = true) :
    execFence v i s = .next (finish v f.idx (okC 0) (fenceDrain v s)) := by
  simp [execFence, hf, hr, hm]

/-- Settles O56: the drain leaves every descriptor as it was, and the one ending that a FENCE writes is OK. -/
theorem fenceEndsOk : Obligations.FenceEndsOk := by
  refine ⟨fun s v i f hf hr hm => ?_, fun s t v i j f g c h hj hn hg hc => ?_⟩
  · obtain ⟨hmem, hi, hn⟩ := fresh_mem hf
    refine ⟨_, execFence_ends hf hr hm, ended_finish _ ?_ hi hn⟩
    rwa [getVi_fenceDrain]
  · have same (e : flyOf t v j = flyOf s v j) : c.status = .ok := by
      rw [e, hj] at hg
      obtain rfl := Option.some.inj hg
      rw [hn] at hc
      cases hc
    obtain rfl | rfl | ⟨k, rfl⟩ := execFence_cases h
    · exact same rfl
    · exact same (flyOf_fenceDrain v v j s)
    · rw [flyOf_finish, flyOf_fenceDrain, hj] at hg
      obtain rfl := Option.some.inj hg
      rw [fin_of_endJob hn hc, okC]

/-! ## DISPATCH -/

theorem cplRoom_iff {s : State} {v : Vi} :
    cplRoom s v = true ↔ ((getVi s v).piCpl - (getVi s v).ciCpl).toNat + (getVi s v).reserved < 2 ^ cplLog s v := by
  simp [cplRoom]

/-- From s to t descriptor f of VI v enters flight, and one more slot is reserved. -/
def EntersFlight (s t : State) (v : Vi) (f : Fly) : Prop :=
  (getVi t v).fly = (getVi s v).fly ++ [f] ∧ (getVi t v).reserved = (getVi s v).reserved + 1

theorem EntersFlight.then_cplKept {s t u : State} {v : Vi} {f : Fly} (h : EntersFlight s t v f) (k : CplKept t u) :
    EntersFlight s u v f :=
  ⟨(k.fly v).trans h.1, (k.reserved v).trans h.2⟩

/-- A descriptor that is a host error leaves no trace, or it ends with a slot of its own. -/
theorem badDesc_cases (v : Vi) (f : Fly) (s : State) :
    (getVi (badDesc v f s) v).fly = (getVi s v).fly ∨ ∃ g, EntersFlight s (badDesc v f s) v g := by
  have ht : CplKept s (ticks 5 (hostError v s)) := .then_vis (t := hostError v s) (.updVi v s) rfl
  unfold EntersFlight badDesc
  extract_lets c
  rw [getVi_updVi_same, ← ht.fly, ← ht.reserved]
  split
  · exact .inl rfl
  · exact .inr ⟨_, rfl, rfl⟩

/-- What DISPATCH can do to the descriptors in flight: nothing, or one enters, with room for its slot. -/
theorem execDispatch_cases {s t : State} {v : Vi} (h : execDispatch v s = .next t) :
    (getVi t v).fly = (getVi s v).fly ∨ cplRoom s v = true ∧ ∃ f, EntersFlight s t v f := by
  unfold execDispatch at h
  split at h
  · cases h; exact .inl rfl
  split at h
  · cases h; exact .inl rfl
  split at h
  · cases h; exact .inl rfl
  split at h
  · injection h with h; rw [← h]; exact .inl (by rw [getVi_updVi_same])
  next room =>
  replace room : cplRoom s v = true := by simpa using room
  extract_lets f at h
  split at h
  · injection h with h
    have hk : CplKept (badDesc v f s) t := h ▸ .trans (.updVi v _) (fetchNow_cplKept _ v)
    rw [hk.fly]
    exact (badDesc_cases v f s).imp id fun ⟨g, hg⟩ => ⟨room, g, hg.then_cplKept hk⟩
  · split at h
    · cases h; exact .inl rfl
    · injection h with h
      refine .inr ⟨room, f, ?_⟩
      rw [← h]
      refine .then_cplKept ?_ (fetchNow_cplKept _ v)
      constructor <;> rw [getVi_updVi_same]

/-- A VI whose next descriptor, d of index i, nothing but the completion ring can hold back. -/
structure NextIs (s : State) (v : Vi) (i : BitVec 32) (d : Block) (l : List (BitVec 32 × Block)) : Prop where
  on : ringOn s v = true
  served : served s v = true
  awake : (getPf s (portOf v)).d3hot = false
  fetched : (getVi s v).fetched = (i, d) :: l
  free : (getVi s v).fly.any holdsBack = false
  wait : isWait d = true → waitsRunning s < 32

section
variable {s : State} {v : Vi} {i : BitVec 32} {d : Block} {l : List (BitVec 32 × Block)} (h : NextIs s v i d l)
include h

theorem NextIs.waitNotFull : ¬ (isWait d = true ∧ 32 ≤ waitsRunning s) := fun ⟨hd, hn⟩ => Nat.not_lt.2 hn (h.wait hd)

theorem NextIs.waits (hr : cplRoom s v = false) :
    execDispatch v s = .next (updVi v (fun x => { x with cplFull := true }) s) := by
  have hw := h.waitNotFull
  obtain ⟨on, served, awake, fetched, free, -⟩ := h
  simp [execDispatch, *]

theorem NextIs.enters (hr : cplRoom s v = true) (hd : descOk d = true) (hl : dOp d = 0x03 → launchRoom s v d = true) :
    ∃ t, execDispatch v s = .next t ∧
      EntersFlight s t v { idx := { idx := i, lap := (getVi s v).lap }, desc := d, at_ := sampleAt s d } := by
  have hw := h.waitNotFull
  have hl' : ¬ (dOp d = 0x03 ∧ launchRoom s v d = false) := fun ⟨ho, hn⟩ => by simp [hl ho] at hn
  obtain ⟨on, served, awake, fetched, free, -⟩ := h
  refine ⟨fetchNow v (updVi v (fun x => { x with
      fetched := l, fly := x.fly ++ [{ idx := { idx := i, lap := (getVi s v).lap }, desc := d, at_ := sampleAt s d }]
      reserved := x.reserved + 1, cplFull := false, changing := changingAt s v d }) s),
    by simp [execDispatch, *], .then_cplKept ?_ (fetchNow_cplKept _ v)⟩
  constructor <;> rw [getVi_updVi_same]
end

/-- Settles O54: the room test of R226 stands before every way into flight, and the fetch that follows moves nothing. -/
theorem dispatchNeedsRoom : Obligations.DispatchNeedsRoom := by
  intro s v x room
  refine ⟨fun t h hne => ?_, fun i d l on served awake fetched free wait => ?_⟩
  · obtain h | ⟨hr, f, hf⟩ := execDispatch_cases h
    · exact absurd h hne
    · exact ⟨cplRoom_iff.1 hr, hf.2, f, hf.1⟩
  · have h : NextIs s v i d l := ⟨on, served, awake, fetched, free, wait⟩
    refine ⟨fun hr => ⟨_, h.waits (Bool.eq_false_iff.2 (mt cplRoom_iff.1 hr)), getVi_updVi_same v _, rfl⟩,
      fun hr hd hl => ?_⟩
    obtain ⟨t, ht, hf⟩ := h.enters (cplRoom_iff.2 hr) hd hl
    exact ⟨t, ht, _, hf.1, rfl, rfl⟩

/-! ## What the ring engine writes: it leaves at once, or stays queued -/

/-- VI v with l behind what it has still to write. -/
def queued (v : Vi) (l : List RingOut) (s : State) : State := updVi v (fun x => { x with outq := x.outq ++ l }) s
/-- VI v with l left to write. -/
def outqLeft (v : Vi) (l : List RingOut) (s : State) : State := updVi v (fun x => { x with outq := l }) s

section
variable {s t : State} {v : Vi}

theorem outq_queued {l₀ : List RingOut} (h : (getVi s v).outq = l₀) (l : List RingOut) :
    (getVi (queued v l s) v).outq = l₀ ++ l := by rw [queued, getVi_updVi_same, h]

theorem outq_outqLeft (l : List RingOut) : (getVi (outqLeft v l s) v).outq = l := by rw [outqLeft, getVi_updVi_same]

/-- What is queued and leaves again changes the VI alone. -/
theorem outqLeft_queued (l : List RingOut) :
    ∃ q, outqLeft v [] (queued v l s) = { s with vis := q } ∧ (getVi { s with vis := q } v).outq = [] := by
  obtain ⟨q, hq⟩ : ∃ q, outqLeft v [] (queued v l s) = { s with vis := q } := ⟨_, rfl⟩
  exact ⟨q, hq, hq ▸ outq_outqLeft []⟩

theorem pump_stays (h : pumpOne v s = none) : pump v s = s := by
  unfold pump
  cases (getVi s v).outq.length <;> simp [pumpN, h]

theorem pump_leaves {r : RingOut} (ho : (getVi s v).outq = [r]) (h : pumpOne v s = some t) : pump v s = t := by
  simp [pump, ho, pumpN, h]

/-- A line waits for the home to have carried the VI's line before it (R229). -/
theorem pumpOne_line_stays {off : Nat} {b : Block} {l : List RingOut} (ho : (getVi s v).outq = .line off b :: l)
    (hh : viaHome s v = true) (hf : flagOut s v = true) : pumpOne v s = none := by
  simp [pumpOne, ho, hh, hf]

theorem pumpOne_line_leaves {off : Nat} {b : Block} {l : List RingOut} (ho : (getVi s v).outq = .line off b :: l)
    (hw : mayWrite s v = true) (hf : (viaHome s v && flagOut s v) = false) :
    pumpOne v s = some (sendLine v off b (outqLeft v l s)) := by
  simp only [pumpOne, ho, hw, hf]
  rfl

theorem pumpOne_completion {l : List RingOut} (ho : (getVi s v).outq = .irq vecCompletion :: l) (hf : flagOut s v = false) :
    pumpOne v s = some (raiseCompletion v (outqLeft v l s)) := by
  simp only [pumpOne, ho, hf]
  rfl

/-! ### A line of the completion ring -/

theorem sendLine_port (h : viaHome s v = false) (off : Nat) (b : Block) :
    sendLine v off b s = emit (.hostWrite (portOf v) v (hostBase s v + off) (blockBytes b) false) s := by
  simp [sendLine, h]

theorem sendLine_home (h : viaHome s v = true) (off : Nat) (b : Block) :
    sendLine v off b s = ringLineWrite (lineOf (hostBase s v + off)) b (.flag v) s := by
  simp [sendLine, h]

theorem ringWrite_stays (ho : (getVi s v).outq = []) (off : Nat) (b : Block) (hh : viaHome s v = true)
    (hf : flagOut s v = true) : ringWrite v off b s = queued v [.line off b] s :=
  pump_stays (pumpOne_line_stays (outq_queued ho _) hh hf)

theorem ringWrite_leaves (ho : (getVi s v).outq = []) (off : Nat) (b : Block) (hw : mayWrite s v = true)
    (hf : (viaHome s v && flagOut s v) = false) :
    ∃ q, (getVi { s with vis := q } v).outq = [] ∧ ringWrite v off b s = sendLine v off b { s with vis := q } := by
  obtain ⟨q, hq, h⟩ := outqLeft_queued (s := s) (v := v) [.line off b]
  exact ⟨q, h, hq ▸ pump_leaves (outq_queued ho _) (pumpOne_line_leaves (outq_queued ho _) hw hf)⟩

/-! ### COMPLETION (R158, R159, R252) -/

theorem ringOut_completion (ho : (getVi s v).outq = []) (hf : flagOut s v = false) :
    ∃ q, ringOut v [.irq vecCompletion] s = raiseCompletion v { s with vis := q } := by
  obtain ⟨q, hq, -⟩ := outqLeft_queued (s := s) (v := v) [.irq vecCompletion]
  exact ⟨q, hq ▸ pump_leaves (outq_queued ho _) (pumpOne_completion (outq_queued ho _) hf)⟩

theorem ringOut_behind_line {off : Nat} {b : Block} (ho : (getVi s v).outq = [.line off b]) (hh : viaHome s v = true)
    (hf : flagOut s v = true) (r : RingOut) : ringOut v [r] s = queued v [r] s :=
  pump_stays (pumpOne_line_stays (outq_queued ho [r]) hh hf)

theorem raiseCompletion_same (v : Vi) (s : State) : ∃ o f, raiseCompletion v s = { s with out := o, fns := f } := by
  unfold raiseCompletion
  split
  · exact ⟨s.out, _, rfl⟩
  · exact raiseVec_same _ _ _

theorem getFn_updFn_same (v : Vi) (f : Fn → Fn) (s : State) : getFn (updFn v f s) v = f (getFn s v) := by simp [getFn]

theorem raiseCompletion_held (h : (getFn s v).holdoff = true) :
    (raiseCompletion v s).out = s.out ∧ (getFn (raiseCompletion v s) v).holdPending = true := by
  simp [raiseCompletion, h, getFn_updFn_same]

theorem raiseCompletion_open (he : viExists s v = true) (h : (getFn s v).holdoff = false)
    (ho : vecOpen s v vecCompletion = true) : (raiseCompletion v s).out =
      s.out ++ [.msix v vecCompletion (mget ({} : MsixEntry) (getFn s v).msix 0).addr
        (mget ({} : MsixEntry) (getFn s v).msix 0).data] := by
  unfold raiseCompletion raiseVec
  simp only [h, he, ho]
  dsimp
  split <;> rfl

theorem raiseCompletion_closed (he : viExists s v = true) (h : (getFn s v).holdoff = false)
    (ho : vecOpen s v vecCompletion = false) :
    (raiseCompletion v s).out = s.out ∧ mget false (getFn (raiseCompletion v s) v).pba 0 = true := by
  have hc : vecCompletion.val = 0 := rfl
  simp [raiseCompletion, raiseVec, h, he, ho, hc, getFn_updFn_same]

end

/-! ## An entry of the completion ring -/

/-- The offset of the line that the next entry of a VI goes to. -/
def entryOff (s : State) (v : Vi) : Nat := cplOff s v ((getVi s v).piCpl.toNat / 2 * 2)
/-- The entry of descriptor f that ended with c, at the VI's next index. -/
def entryOf (s : State) (v : Vi) (f : Fly) (c : Compl) : List Byte :=
  entryBytes (dTag f.desc) (statusCode c.status) (dOp f.desc) f.idx.idx.toNat (s.ringCycles % 2 ^ 32)
    (phaseOf (cplLog s v) (getVi s v).piCpl.toNat) (entryCompl c s)
/-- The line that carries it. -/
def entryLine (s : State) (v : Vi) (f : Fly) (c : Compl) : Block :=
  bytesBlock (if (getVi s v).piCpl.toNat % 2 = 0 then
    entryOf s v f c ++ oddEmpty (phaseOf (cplLog s v) (getVi s v).piCpl.toNat) else (getVi s v).evenEntry ++ entryOf s v f c)
/-- The index advances; an even entry is kept, for the line of the odd one. -/
def enterIndex (even : List Byte) (x : ViSt) : ViSt := { x with piCpl := x.piCpl + 1, line1Due := true, evenEntry := even }
/-- A free VALUE uses up a free value. -/
def countFree (c : Compl) (s : State) : State := if c.openValue then tick s else s
/-- The entry of f is written, or queued. -/
def entryWritten (v : Vi) (f : Fly) (c : Compl) (s : State) : State :=
  countFree c (updVi v (enterIndex (if (getVi s v).piCpl.toNat % 2 = 0 then entryOf s v f c else []))
    (ringWrite v (entryOff s v) (entryLine s v f c) s))
/-- Its interrupt follows where IRQ is set. -/
def irqRaised (v : Vi) (f : Fly) (s : State) : State := if dIrq f.desc then ringOut v [.irq vecCompletion] s else s

theorem writeEntry_eq (v : Vi) (f : Fly) (c : Compl) (s : State) :
    writeEntry v f c s = dropFly v f.idx (irqRaised v f (entryWritten v f c s)) := rfl

theorem countFree_eq (c : Compl) (s : State) :
    countFree c s = { s with freeCtr := if c.openValue then s.freeCtr + 1 else s.freeCtr } := by
  unfold countFree
  split <;> rfl

theorem getVi_countFree (c : Compl) (s : State) (v : Vi) : getVi (countFree c s) v = getVi s v := by
  rw [countFree_eq]
  rfl

theorem cplPart_enterIndex (e : List Byte) (x : ViSt) :
    cplPart (enterIndex e x) = (x.fly, x.reserved, x.piCpl + 1, x.lap) := rfl

section
variable {s : State} {v : Vi} (f : Fly) (c : Compl)

/-- An entry advances the index; the rest of the VI is as the write of its line leaves it. -/
theorem getVi_entryWritten : ∃ e, getVi (entryWritten v f c s) v =
    enterIndex e (getVi (ringWrite v (entryOff s v) (entryLine s v f c) s) v) := by
  refine ⟨if (getVi s v).piCpl.toNat % 2 = 0 then entryOf s v f c else [], ?_⟩
  rw [entryWritten, getVi_countFree, getVi_updVi_same]

theorem cplPart_entryWritten : cplPart (getVi (entryWritten v f c s) v) =
    ((getVi s v).fly, (getVi s v).reserved, (getVi s v).piCpl + 1, (getVi s v).lap) := by
  have hk : CplKept s (ringWrite v (entryOff s v) (entryLine s v f c) s) := ringOut_cplKept s v _
  obtain ⟨e, he⟩ := getVi_entryWritten (s := s) (v := v) f c
  rw [he, cplPart_enterIndex, hk.fly, hk.reserved, hk.piCpl, hk.lap]

theorem outq_entryWritten : (getVi (entryWritten v f c s) v).outq =
    (getVi (ringWrite v (entryOff s v) (entryLine s v f c) s) v).outq := by
  obtain ⟨e, he⟩ := getVi_entryWritten (s := s) (v := v) f c
  rw [he, enterIndex]

/-- Where the write of the line changes the VI and the outputs alone, the entry does too, but for a free value used up. -/
theorem entryWritten_eq {q : SMap ViSt} {o : List Emit}
    (hl : ringWrite v (entryOff s v) (entryLine s v f c) s = { s with vis := q, out := o }) : ∃ p, entryWritten v f c s =
      { s with vis := p, out := o, freeCtr := if c.openValue then s.freeCtr + 1 else s.freeCtr } := by
  rw [entryWritten, hl, countFree_eq]
  exact ⟨_, rfl⟩

/-- On a port without the home the line leaves as a memory write. -/
theorem entryWritten_port (ho : (getVi s v).outq = []) (hw : mayWrite s v = true) (hh : viaHome s v = false) :
    (getVi (entryWritten v f c s) v).outq = [] ∧ ∃ q, entryWritten v f c s = { s with
      vis := q, freeCtr := if c.openValue then s.freeCtr + 1 else s.freeCtr
      out := s.out ++ [.hostWrite (portOf v) v (hostBase s v + entryOff s v) (blockBytes (entryLine s v f c)) false] } := by
  obtain ⟨q, hq, hl⟩ := ringWrite_leaves ho (entryOff s v) (entryLine s v f c) hw (by simp [hh])
  rw [sendLine_port (s := { s with vis := q }) hh, show hostBase { s with vis := q } v = hostBase s v from rfl] at hl
  exact ⟨by rw [outq_entryWritten, hl, getVi_of_vis (emit_vis _ _), hq], entryWritten_eq f c hl⟩

/-- Behind a line that the home still carries it waits. -/
theorem entryWritten_waits (ho : (getVi s v).outq = []) (hh : viaHome s v = true) (hf : flagOut s v = true) :
    (getVi (entryWritten v f c s) v).outq = [.line (entryOff s v) (entryLine s v f c)] ∧ ∃ q, entryWritten v f c s =
      { s with vis := q, freeCtr := if c.openValue then s.freeCtr + 1 else s.freeCtr } := by
  have hl := ringWrite_stays ho (entryOff s v) (entryLine s v f c) hh hf
  obtain ⟨q, hq⟩ : ∃ q, queued v [.line (entryOff s v) (entryLine s v f c)] s = { s with vis := q } := ⟨_, rfl⟩
  exact ⟨by rw [outq_entryWritten, hl, outq_queued ho]; rfl, entryWritten_eq f c (hl.trans hq)⟩

/-- Otherwise the home takes it up, and what it sends out stands. -/
theorem entryWritten_home (ho : (getVi s v).outq = []) (hw : mayWrite s v = true) (hh : viaHome s v = true)
    (hf : flagOut s v = false) : ∃ q,
      Keeps (ringLineWrite (lineOf (hostBase s v + entryOff s v)) (entryLine s v f c) (.flag v) { s with vis := q })
        (entryWritten v f c s) := by
  obtain ⟨q, -, hl⟩ := ringWrite_leaves ho (entryOff s v) (entryLine s v f c) hw (by simp [hf])
  refine ⟨q, ?_⟩
  rw [entryWritten, hl, sendLine_home (s := { s with vis := q }) hh]
  exact .ite (tick_keeps (updVi_keeps (.refl _))) (updVi_keeps (.refl _))

theorem irqRaised_cplKept (v : Vi) (f : Fly) (s : State) : CplKept s (irqRaised v f s) := .ite (ringOut_cplKept s v _) (.refl s)

theorem irqRaised_keeps {s0 : State} (h : Keeps s0 s) : Keeps s0 (irqRaised v f s) := .ite (ringOut_keeps h) h

end

/-! ## A descriptor leaves -/

/-- A descriptor leaves, with its slot if the running enable reserved it. -/
def release (i : Job) (x : ViSt) : ViSt :=
  { x with fly := x.fly.filter fun f => f.idx != i, reserved := if i.lap = x.lap then x.reserved - 1 else x.reserved }

theorem dropFly_eq {s : State} {v : Vi} (h : viOn s v = true) (i : Job) : dropFly v i s = updVi v (release i) s := by
  have h' : viOn (updVi v (release i) s) v = true := h
  change idleDue v (updVi v (release i) s) = _
  simp [idleDue, h']

theorem cplPart_dropFly (s : State) (v : Vi) (i : Job) : cplPart (getVi (dropFly v i s) v) = cplPart (release i (getVi s v)) := by
  have hk : CplKept (updVi v (release i) s) (dropFly v i s) := .ite (ringOut_cplKept _ v _) (.refl _)
  rw [hk v, getVi_updVi_same]

/-! ## DESCRIPTOR_COMPLETE -/

theorem silent_iff {d : Block} {st : Status} : silent d st = true ↔ dCpl d = false ∧ (st = .ok ∨ st = .zero) := by
  simp [silent]

theorem ringOn_facts {s : State} {v : Vi} (h : ringOn s v = true) :
    viExists s v = true ∧ (getHp s (portOf v)).recovering = false := by
  simp only [ringOn, Bool.and_eq_true, Bool.not_eq_true'] at h
  obtain ⟨⟨⟨-, hex⟩, -⟩, hrec⟩ := h
  exact ⟨hex, hrec⟩

section
variable {s : State} {v : Vi} {i : BitVec 32} {f : Fly} {c : Compl} (hr : ringOn s v = true)
  (he : endedFly s v i = some (f, c))
include hr he

theorem execDescriptorComplete_silent (hq : silent f.desc c.status = true) (ok : Bool) :
    execDescriptorComplete v i ok s = .next (dropFly v f.idx s) := by
  simp [execDescriptorComplete, hr, he, hq]

theorem execDescriptorComplete_writes (hl : f.idx.lap = (getVi s v).lap) (hs : (getVi s v).stopped = false)
    (hq : silent f.desc c.status = false) (hm : mayMaster s v = true) (ha : cplInAllot s v = true) :
    execDescriptorComplete v i true s = .next (dropFly v f.idx (irqRaised v f (entryWritten v f c s))) := by
  rw [← writeEntry_eq]
  simp [execDescriptorComplete, hr, he, hl, hs, hq, hm, ha]
end

/-- What leaves with an entry: the descriptor and its slot, and the index advances. -/
theorem cplPart_written {s : State} {v : Vi} (f : Fly) (c : Compl) (hl : f.idx.lap = (getVi s v).lap) :
    cplPart (getVi (dropFly v f.idx (irqRaised v f (entryWritten v f c s))) v) =
      ((getVi s v).fly.filter (fun g => g.idx != f.idx), (getVi s v).reserved - 1, (getVi s v).piCpl + 1, (getVi s v).lap) := by
  have h : cplPart (getVi (irqRaised v f (entryWritten v f c s)) v) = _ :=
    (irqRaised_cplKept v f _ v).trans (cplPart_entryWritten f c)
  obtain ⟨hfly, hres, hpi, hlap⟩ : _ ∧ _ ∧ _ ∧ _ := by simpa only [cplPart, Prod.mk.injEq] using h
  rw [cplPart_dropFly, cplPart, release]
  simp [hfly, hres, hpi, hlap, hl]

/-- The interrupt of an entry that has left (R252): held by the holdoff, sent, or pending. -/
theorem irqRaised_completion {s : State} {v : Vi} {f : Fly} (ho : (getVi s v).outq = []) (hf : flagOut s v = false)
    (he : viExists s v = true) :
    (∃ q o n, irqRaised v f s = { s with vis := q, out := o, fns := n }) ∧
    (dIrq f.desc = false → irqRaised v f s = s) ∧
    (dIrq f.desc = true → (getFn s v).holdoff = true →
      (irqRaised v f s).out = s.out ∧ (getFn (irqRaised v f s) v).holdPending = true) ∧
    (dIrq f.desc = true → (getFn s v).holdoff = false → vecOpen s v vecCompletion = true → (irqRaised v f s).out =
      s.out ++ [.msix v vecCompletion (mget ({} : MsixEntry) (getFn s v).msix 0).addr
        (mget ({} : MsixEntry) (getFn s v).msix 0).data]) ∧
    (dIrq f.desc = true → (getFn s v).holdoff = false → vecOpen s v vecCompletion = false →
      (irqRaised v f s).out = s.out ∧ mget false (getFn (irqRaised v f s) v).pba 0 = true) := by
  unfold irqRaised
  cases dIrq f.desc with
  | false => exact ⟨⟨s.vis, s.out, s.fns, rfl⟩, fun _ => rfl, nofun, nofun, nofun⟩
  | true =>
    obtain ⟨q, hq⟩ := ringOut_completion ho hf
    obtain ⟨o, n, hn⟩ := raiseCompletion_same v { s with vis := q }
    simp only [if_true, hq]
    refine ⟨⟨q, o, n, hn⟩, nofun, fun _ hh => ?_, fun _ hh hv => ?_, fun _ hh hv => ?_⟩
    · exact raiseCompletion_held (s := { s with vis := q }) hh
    · exact raiseCompletion_open (s := { s with vis := q }) he hh hv
    · exact raiseCompletion_closed (s := { s with vis := q }) he hh hv

/-- Behind a line that waits the interrupt waits too. -/
theorem irqRaised_waits {s : State} {v : Vi} {f : Fly} {off : Nat} {b : Block} (ho : (getVi s v).outq = [.line off b])
    (hh : viaHome s v = true) (hf : flagOut s v = true) :
    (getVi (irqRaised v f s) v).outq = .line off b :: (if dIrq f.desc then [.irq vecCompletion] else []) ∧
    ∃ q, irqRaised v f s = { s with vis := q } := by
  unfold irqRaised
  cases dIrq f.desc with
  | false => exact ⟨ho, s.vis, rfl⟩
  | true =>
    rw [if_pos rfl, ringOut_behind_line ho hh hf]
    exact ⟨outq_queued ho _, _, rfl⟩

/-- Settles O55: an entry is the line that leaves, or waits, and the interrupt behind it; then the descriptor leaves. -/
theorem completionEntries : Obligations.CompletionEntries := by
  intro s v i f c hr hv he hl hs x quiet
  obtain ⟨hx, hrec⟩ := ringOn_facts hr
  refine ⟨fun hq ok => ?_, fun hq hm ha ho => ?_⟩
  · refine ⟨_, execDescriptorComplete_silent hr he (silent_iff.2 hq) ok, ?_⟩
    simp only [dropFly_eq hv, getVi_updVi_same, release, if_pos hl]
    exact ⟨rfl, rfl, rfl, rfl⟩
  · intro j ph e line off w n
    have hw : mayWrite s v = true := by simp [mayWrite, hm, hrec]
    have hsil : silent f.desc c.status = false := Bool.eq_false_iff.2 (mt silent_iff.1 hq)
    refine ⟨_, execDescriptorComplete_writes hr he hl hs hsil hm ha, ?_⟩
    have hc := cplPart_written f c hl
    refine ⟨congrArg (·.1) hc, congrArg (·.2.1) hc, congrArg (·.2.2.1) hc, fun hh hf => ?port, fun hh hf => ?waits,
      fun hh hf => ?home⟩
    case port =>
      obtain ⟨hout, q, hq⟩ := entryWritten_port f c ho hw hh
      rw [hq] at hout ⊢
      obtain ⟨⟨p, o, m, hn⟩, hnone, hheld, hopen, hclosed⟩ := irqRaised_completion (f := f) hout hf hx
      rw [dropFly_eq (by rw [hn]; exact hv)]
      refine ⟨by rw [hn]; rfl, fun hi => by rw [hnone hi]; exact ⟨rfl, rfl⟩, hheld, hopen, hclosed⟩
    case waits =>
      obtain ⟨hout, q, hq⟩ := entryWritten_waits f c ho hh hf
      rw [hq] at hout ⊢
      obtain ⟨hirq, p, hn⟩ := irqRaised_waits (f := f) hout hh hf
      rw [dropFly_eq (by rw [hn]; exact hv), getVi_updVi_same]
      exact ⟨hirq, by rw [hn]; rfl⟩
    case home =>
      obtain ⟨q, hk⟩ := entryWritten_home f c ho hw hh hf
      exact ⟨{ s with vis := q }, _, rfl, rfl, (dropFly_keeps (irqRaised_keeps f hk)).out⟩

end Sys2Proof.Proofs

/-! PROOFS. LAUNCH (R151, R262, R339): one past the partition's last engine ends as it is read, with no index queued, and an
index whose task word cannot be fetched ends with the fetch's failure. -/

namespace Sys2Proof.Proofs

open Sys2Proof.Machine Sys2Proof.Laws

/-! ## A VI without a binding -/

section
variable {s : State} {v : Vi}

theorem viEngines_unbound {u : CUnit} (h : fgetU s u .bindValid v.val ≠ 1) : viEngines s u v = [] := by
  simp [viEngines, viMask, h, bitAt]

theorem engineCount_unbound (h : fgetU s .ring .bindValid v.val ≠ 1) : engineCount s v = 0 := by
  simp [engineCount, viEngines_unbound h]

/-- VI_ENGINE_COUNT holds no stored field: it shows the count of the VI's engines, or nothing where no read is answered. -/
theorem regValue_engineCount (s : State) (v : Vi) :
    regValue s v .vi 0x318 = 0 ∨ regValue s v .vi 0x318 = engineCount s v := by
  have hrows : rowsAt v .vi 0x318 = [] := rfl
  unfold regValue
  split
  · exact .inl rfl
  · split
    · exact .inl rfl
    · exact .inr (by simp [hrows, readRows, roVi])

end

/-! ## A LAUNCH past the last engine -/

theorem execLaunch_outOfRange {s : State} {v : Vi} {i : BitVec 32} {f : Fly} (hf : fresh s v i 0x03 = some f)
    (hc : lCount f.desc ≠ 0) (hn : engineCount s v < lFirst f.desc + lCount f.desc) :
    execLaunch v i s = .next (finish v f.idx (openC .fencedUnit 0 (max (lFirst f.desc) (engineCount s v))) s) := by
  unfold engineCount at hn ⊢
  simp [execLaunch, hf, hc, hn]

theorem launch_outOfRange {s : State} {v : Vi} {i : BitVec 32} {f : Fly} (hf : fresh s v i 0x03 = some f)
    (hc : lCount f.desc ≠ 0) (hn : engineCount s v < lFirst f.desc + lCount f.desc) :
    Completes (.launch v i) s fun t =>
      Ended t v i (openC .fencedUnit 0 (max (lFirst f.desc) (engineCount s v))) ∧ t = { s with vis := t.vis } := by
  obtain ⟨hmem, hidx, hfin⟩ := fresh_mem hf
  exact ⟨_, execLaunch_outOfRange hf hc hn, ended_finish _ hmem hidx hfin, rfl⟩

/-! ## An index ends -/

theorem flyOf_updFly {f : Fly → Fly} (hf : ∀ y, (f y).idx = y.idx) (v : Vi) (j : Job) (s : State) :
    flyOf (updFly v j f s) v j = (flyOf s v j).map f := by
  have hkeep (y : Fly) : (if y.idx == j then f y else y).idx = y.idx := by
    split
    · exact hf y
    · rfl
  simp only [flyOf, updFly, getVi_updVi_same, List.find?_map, Function.comp_def, hkeep]
  refine Option.map_congr fun y hy => ?_
  rw [if_pos (List.find?_some hy)]

/-- The first failure of an index is its LAUNCH's, with DETAIL the virtual engine (R277). -/
theorem indexEnded_fail {s : State} {x : Index} {f : Fly} (c : Compl) (w : U64) (hf : flyOf s x.vi x.idx = some f)
    (hn : f.fail = none) : ∃ g, flyOf (indexEnded x (some c) w s) x.vi x.idx = some g ∧
      g.fail = some { c with detail := BitVec.ofNat 16 x.veng } := by
  unfold indexEnded
  rw [flyOf_updFly (fun y => by dsimp only; split <;> rfl), hf]
  refine ⟨_, rfl, ?_⟩
  dsimp only
  split <;> simp [hn]

theorem runOf_indexEnded (x : Index) (c : Option Compl) (w : U64) (s : State) (e : Eng) :
    runOf (indexEnded x c w s) e = runOf s e := rfl

theorem eng_updVi (v : Vi) (f : ViSt → ViSt) (s : State) (e : Eng) : eng (updVi v f s) e = eng s e := rfl

theorem swapBank_run (x : EngSt) : (swapBank x).run = x.run := by
  unfold swapBank
  split <;> rfl

/-- The running index ends: the engine is free, and of the LAUNCHes in flight only the ending is new. -/
theorem endIndex_eq {s : State} {e : Eng} {r : Run} (hr : runOf s e = some r) (c : Option Compl) (w : U64) :
    ∃ t, endIndex e c w s = indexEnded r.ix c w t ∧ runOf t e = none ∧
      flyOf t r.ix.vi r.ix.idx = flyOf s r.ix.vi r.ix.idx := by
  unfold endIndex
  rw [hr]
  refine ⟨_, rfl, ?run, ?fly⟩
  case run => rw [runOf, eng_updVi, eng_updEng_same, swapBank_run]
  case fly =>
    have hvis (f : EngSt → EngSt) : (updEng e f (forget (loadOf e) (flushSb e s))).vis = s.vis := by simp
    simp only [flyOf, getVi_updVi_same, getVi_of_vis (hvis _)]

theorem runOf_failIndex {s : State} {e : Eng} {r : Run} (hr : runOf s e = some r) (st : Status) (a : Nat) :
    runOf (failIndex e st a s) e = none := by
  obtain ⟨t, ht, hrun, -⟩ := endIndex_eq hr (some (failC st a)) 0
  rw [failIndex, ht, runOf_indexEnded, hrun]

theorem failIndex_fail {s : State} {e : Eng} {r : Run} {f : Fly} (hr : runOf s e = some r) (st : Status) (a : Nat)
    (hf : flyOf s r.ix.vi r.ix.idx = some f) (hn : f.fail = none) :
    ∃ g c, flyOf (failIndex e st a s) r.ix.vi r.ix.idx = some g ∧ g.fail = some c ∧ c.status = st ∧
      c.detail = BitVec.ofNat 16 r.ix.veng := by
  obtain ⟨t, ht, -, hfly⟩ := endIndex_eq hr (some (failC st a)) 0
  obtain ⟨g, hg, hfail⟩ := indexEnded_fail (failC st a) 0 (hfly.trans hf) hn
  exact ⟨g, _, by rw [failIndex, ht, hg], hfail, rfl, rfl⟩

/-! ## A task address in a host segment -/

theorem fetchTask_host {s : State} {e : Eng} {r : Run} {a : Nat} {b : Bool} {j : Fin 16}
    (h : translate s (eu e) r.ix.vi r.task.toNat 8 = .hit (.host a b) j) :
    fetchTask e r s = .fail .segFault r.task.toNat := by
  simp [fetchTask, h]

theorem execTaskWordFetch_fail {s : State} {e : Eng} {r : Run} {st : Status} {a : Nat} (he : engOn s e = true)
    (hr : runOf s e = some r) (hp : r.phase = .between) (hw : r.waitMiss = false) (hf : fetchTask e r s = .fail st a) :
    execTaskWordFetch e s = .next (failIndex e st a s) := by
  simp [execTaskWordFetch, he, hr, hp, hw, hf]

/-- Settles O57: without a binding the partition is empty, so that every engine is past its last one; the range check stands
before any index is placed, and the fetch of a task word takes device segments alone. -/
theorem launchOutOfRange : Obligations.LaunchOutOfRange := by
  refine ⟨fun s v hb => ⟨?count, fun i f hf hc => ?unbound⟩, fun s v i f hf hc hn => launch_outOfRange hf hc hn,
    fun s e r a b j he hr hp hw _ ht => ?host⟩
  case count =>
    have hzero := engineCount_unbound hb
    obtain h | h := regValue_engineCount s v
    · exact h
    · rw [h, hzero]
  case unbound =>
    have hzero := engineCount_unbound hb
    have hpast : engineCount s v < lFirst f.desc + lCount f.desc := by omega
    simpa [hzero] using launch_outOfRange hf hc hpast
  case host =>
    exact ⟨_, execTaskWordFetch_fail he hr hp hw (fetchTask_host ht), runOf_failIndex hr _ _,
      fun f hf hn => failIndex_fail hr _ _ hf hn⟩

end Sys2Proof.Proofs

/-! PROOFS. A routed frame of this device's own node (R464): its port reports a class 0 fault and owes the frame's credits,
and LINK frames that fall due leave. None of these routes the frame on or keeps it for a replay. -/

namespace Sys2Proof.Proofs

open Sys2Proof.Machine Sys2Proof.Laws

/-! ## Returning credits (R454) -/

theorem getPort_updPort_other {p q : Port} (f : PortSt → PortSt) (s : State) (h : p ≠ q) :
    getPort (updPort p f s) q = getPort s q := by
  rw [getPort, getPort, updPort_ports, mget_mupd_other _ _ _ fun e => h (Fin.ext e)]

/-- From s to t only ports and outputs change, and every port's replay buffer stands. -/
structure ReplayKept (s t : State) : Prop where
  eq : t = { s with ports := t.ports, out := t.out }
  hold : ∀ q, (getPort t q).hold = (getPort s q).hold

section
variable {s t u : State}

theorem ReplayKept.refl (s : State) : ReplayKept s s := ⟨rfl, fun _ => rfl⟩

theorem ReplayKept.trans (h : ReplayKept s t) (k : ReplayKept t u) : ReplayKept s u :=
  ⟨by rw [k.eq, h.eq], fun q => (k.hold q).trans (h.hold q)⟩

theorem ReplayKept.emit (h : ReplayKept s t) (e : Emit) : ReplayKept s (emit e t) := h.trans ⟨rfl, fun _ => rfl⟩

theorem ReplayKept.fget (h : ReplayKept s t) (f : F) (i : Nat) : fget t f i = fget s f i := by
  rw [h.eq]
  rfl

theorem updPort_replayKept (p : Port) {f : PortSt → PortSt} (s : State) (hf : ∀ x, (f x).hold = x.hold) :
    ReplayKept s (updPort p f s) := by
  refine ⟨rfl, fun q => ?_⟩
  by_cases h : p = q
  · rw [← h, getPort_updPort_same, hf]
  · rw [getPort_updPort_other f s h]

theorem oweCredits_replayKept (p : Option Port) (v : Nat) (f : Frame) (s : State) : ReplayKept s (oweCredits p v f s) := by
  cases p with
  | none => exact .refl s
  | some p => exact updPort_replayKept p s fun _ => rfl

theorem sendLink_replayKept (p : Port) (s : State) : ReplayKept s (sendLink p s) := by
  refine .emit (updPort_replayKept p s ?_) _
  exact fun _ => rfl

theorem linkDue_replayKept (s : State) : ReplayKept s (linkDue s) := by
  refine foldl_same .refl (fun _ _ _ => .trans) (fun t p => ?_) allPorts s
  split
  · exact sendLink_replayKept p t
  · exact .refl t

/-- A discarded frame leaves its buffer: its credits are owed, and LINK frames that fall due return them. -/
theorem discard_replayKept (p : Option Port) (v : Nat) (f : Frame) (s : State) :
    ReplayKept s (linkDue (oweCredits p v f s)) :=
  (oweCredits_replayKept p v f s).trans (linkDue_replayKept _)

end

/-! ## A class 0 fault of a fabric port (R528, R532, R533) -/

section
variable {s : State}

theorem fget_fcount_same (f : F) (i w k : Nat) (s : State) :
    fget (fcount f i w k s) f i = min (fget s f i + k) (2 ^ w - 1) := fget_fset_same f i _

/-- A port concerns no VI, and class 0 has no effect past the report. -/
theorem raise_fport_of_class0 {c : Nat} (hc : causeClass c = 0) (p : Port) (n : Nat) (s : State) :
    raise (.fport p) c n s = report (.fport p) c n none none s := by
  simp [raise, unitVi, hc]

/-- A source with no fault waiting: the fault waits. -/
theorem report_of_free {u : FUnit} (h : ∀ x ∈ s.flt.raised, x.src ≠ srcOf u) (c n : Nat) (v p : Option Nat) :
    report u c n v p s = updFlt (fun f => { f with raised :=
      f.raised ++ [{ src := srcOf u, cause := c, info := BitVec.ofNat 64 n, vi := v, part := p }] }) s := by
  have hfind : (s.flt.raised.find? fun x => x.src == srcOf u) = none := by simpa using h
  simp [report, hfind]

/-- A source with a fault waiting: one of class 0 never replaces it, and is counted in MISSED. -/
theorem report_of_waiting {u : FUnit} (h : ∃ x ∈ s.flt.raised, x.src = srcOf u) {c : Nat} (hc : causeClass c = 0) (n : Nat)
    (v p : Option Nat) : report u c n v p s = fcount .missed 0 16 1 s := by
  obtain ⟨x, hx⟩ : ∃ x, (s.flt.raised.find? fun x => x.src == srcOf u) = some x :=
    Option.isSome_iff_exists.1 (by simpa using h)
  simp [report, hx, hc]

end

/-! ## ROUTE_FRAME of the device's own node -/

theorem execRouteFrame_ownSource {s : State} {f : Frame} {p : Port} (hwf : (Instr.routeFrame f (some p)).wf = true)
    (hr : running s = true) (hn : nodeOk s = true) (hl : linkOn s p = true) (hb : badFrame f = false)
    (hk : 2 ≤ f.kind.toNat) (hs : f.src.toNat = ownNode s) :
    execRouteFrame f (some p) s =
      .next (linkDue (oweCredits (some p) f.vc.toNat f (raise (.fport p) 0x0C f.src.toNat s))) := by
  simp [execRouteFrame, hwf, hr, hn, hl, hb, hs, Nat.not_lt.2 hk]

/-- Settles O58: past the report, the discarded frame only has its credits returned. -/
theorem ownSourceDiscarded : Obligations.OwnSourceDiscarded := by
  have hclass : causeClass 0x0C = 0 := by decide
  refine ⟨hclass, fun s f p hwf hr hn hl hb hk hs => ⟨_, execRouteFrame_ownSource hwf hr hn hl hb hk hs, ?_⟩⟩
  rw [raise_fport_of_class0 hclass]
  have kept := discard_replayKept (some p) f.vc.toNat f (report (.fport p) 0x0C f.src.toNat none none s)
  generalize linkDue _ = t at kept ⊢
  obtain ⟨flt, fld, hreport⟩ := report_same (.fport p) 0x0C f.src.toNat none none s
  have hflt : t.flt = (report (.fport p) 0x0C f.src.toNat none none s).flt := by rw [kept.eq]
  have hframe : t = { s with ports := t.ports, out := t.out, flt := t.flt, fld := t.fld } := by rw [kept.eq, hreport]
  refine ⟨?mem, ?ctxs, ?ackq, ?colls, ?vis, ?waitq, fun q => ?hold, fun hfree => ?free, fun hwaiting => ⟨?raised, ?missed⟩⟩
  case hold => rw [kept.hold, hreport]; rfl
  case free => rw [hflt, report_of_free hfree]; rfl
  case raised => rw [hflt, report_of_waiting hwaiting hclass]; rfl
  case missed => rw [kept.fget, report_of_waiting hwaiting hclass, fget_fcount_same]
  all_goals rw [hframe]

end Sys2Proof.Proofs

/-! PROOFS. A staged set of the clock (R577): the set registers are locked while SET reads 1 and their writes do nothing
besides storing, and a further SET finds the staged one; RTC_CTL stores TRIM alone. -/

namespace Sys2Proof.Proofs

open Sys2Proof.Machine Sys2Proof.Laws

/-! ## Writes of the management space (R618, R620, R621) -/

section
variable {s : State}

/-- An aligned write of PF0 reaches the management space: it writes the 8-byte register that it falls in. -/
theorem execRegisterWrite_mgmt {o : BitVec 24} {n : Nat} (hb : barsLive s = true) (ha : answers s vi0 = true)
    (hok : accessOk o.toNat n = true) (w : U64) :
    execRegisterWrite vi0 .mgmt o n w s =
      .next (hostWriteReg vi0 .mgmt (o.toNat / 8 * 8) w.toNat (coverLo o.toNat) (8 * n) s) := by
  simp [execRegisterWrite, reaches, hb, ha, hok]

/-- A register without C fields has no shadow to form. -/
theorem formShadow_of_no_c {rows : List Row} (h : ∀ r ∈ rows, r.cls ≠ .c) (c n : Nat) (s : State) :
    formShadow rows c n s = s := by
  have hnone : (rows.filter fun r => r.cls == .c) = [] := by simpa using h
  simp [formShadow, hnone]

/-- A write of an L field stores a value in it or does nothing. -/
theorem writeField_l {r : Row} (h : r.cls = .l) (v c n : Nat) (s : State) :
    writeField v c n s r = s ∨ ∃ x, writeField v c n s r = fset r.f r.i x s := by
  unfold writeField
  extract_lets x
  split
  · exact .inl rfl
  · split
    · split
      · exact .inr ⟨0, rfl⟩
      · exact .inl rfl
    · split
      · exact .inl rfl
      · rw [h]
        exact .inr ⟨x, rfl⟩

theorem fset_fieldsBut {i : Nat} (hi : i < 2 ^ 20) (f : F) (v : Nat) (s : State) : FieldsBut s (fset f i v s) [f] :=
  fun _ _ hj hg => fget_fset_other v hi hj (.inl fun e => hg (by simp [e]))

/-! ## The clock's set (R576, R577) -/

theorem stageSet_of_staged (h : s.rtc.staged.isSome = true) : stageSet s = s := by simp [stageSet, h]

theorem execRtcSet_of_staged (h : s.rtc.staged.isSome = true) : execRtcSet s = .next s := by
  simp [execRtcSet, stageSet_of_staged h]

/-- RTC_SET_SEC_LO, RTC_SET_SEC_HI and RTC_SET_SUBSEC. -/
def IsSetReg (o : Nat) : Prop := o = 0xE0020 ∨ o = 0xE0028 ∨ o = 0xE0030

theorem lockedMgmt_setReg {o : Nat} (h : IsSetReg o) (hs : s.rtc.staged.isSome = true) : lockedMgmt s o = true := by
  obtain rfl | rfl | rfl := h <;> simp [lockedMgmt, hs]

theorem mgmtActs_setReg {o : Nat} (h : IsSetReg o) (v c n : Nat) (s : State) : mgmtActs o v c n s = s := by
  obtain rfl | rfl | rfl := h <;> simp [mgmtActs]

/-- A set register that is locked is not stored, and its write has no other effect. -/
theorem hostWriteReg_setReg {o : Nat} (h : IsSetReg o) (hs : s.rtc.staged.isSome = true) (v c n : Nat) :
    hostWriteReg vi0 .mgmt o v c n s = s := by
  simp [hostWriteReg, lockedAt, lockedMgmt_setReg h hs, mgmtActs_setReg h]

theorem mgmtActs_rtcCtl (v c n : Nat) (s : State) :
    mgmtActs 0xE0038 v c n s = if c = 0 && bitAt v 0 then stageSet s else s := by
  simp [mgmtActs]

theorem mgmtActs_rtcCtl_of_staged (h : s.rtc.staged.isSome = true) (v c n : Nat) : mgmtActs 0xE0038 v c n s = s := by
  rw [mgmtActs_rtcCtl, stageSet_of_staged h, ite_self]

/-- The stored field of RTC_CTL is TRIM, of class L. -/
theorem writeRows_rtcCtl (v c n : Nat) (s : State) : writeRows (mgmtRows 0xE0038) v c n s = s ∨
    ∃ x, writeRows (mgmtRows 0xE0038) v c n s = fset .trim 0 x s := by
  have hrows : mgmtRows 0xE0038 = [{ f := .trim, lo := 16, w := 11 }] := rfl
  rw [hrows, writeRows, formShadow_of_no_c (by simp)]
  exact writeField_l rfl v c n s

/-- While a set is staged, a write of RTC_CTL stores TRIM or does nothing. -/
theorem hostWriteReg_rtcCtl (hs : s.rtc.staged.isSome = true) (v c n : Nat) :
    hostWriteReg vi0 .mgmt 0xE0038 v c n s = s ∨ ∃ x, hostWriteReg vi0 .mgmt 0xE0038 v c n s = fset .trim 0 x s := by
  have hopen : lockedAt s vi0 .mgmt 0xE0038 = false := by simp [lockedAt, lockedMgmt]
  have hwrite : hostWriteReg vi0 .mgmt 0xE0038 v c n s =
      mgmtActs 0xE0038 v c n (writeRows (mgmtRows 0xE0038) v c n s) := by
    simp [hostWriteReg, hopen, rowsAt]
  obtain h | ⟨x, h⟩ := writeRows_rtcCtl v c n s
  · exact .inl (by rw [hwrite, h, mgmtActs_rtcCtl_of_staged hs])
  · exact .inr ⟨x, by rw [hwrite, h, mgmtActs_rtcCtl_of_staged (s := fset .trim 0 x s) hs]⟩

end

/-- Settles O60: SET finds the staged set, the set registers are locked, and RTC_CTL stores TRIM beside SET. -/
theorem stagedSetHolds : Obligations.StagedSetHolds := by
  intro s hs hb ha
  refine ⟨execRtcSet_of_staged hs, fun o n w hok hlo hhi => ?setRegs, fun o n w hok hlo hhi => ?ctl⟩
  case setRegs =>
    have hreg : IsSetReg (o.toNat / 8 * 8) := by unfold IsSetReg; omega
    exact (execRegisterWrite_mgmt hb ha hok w).trans (congrArg _ (hostWriteReg_setReg hreg hs _ _ _))
  case ctl =>
    have hreg : o.toNat / 8 * 8 = 0xE0038 := by omega
    refine ⟨_, execRegisterWrite_mgmt hb ha hok w, ?_⟩
    rw [hreg]
    obtain h | ⟨x, h⟩ := hostWriteReg_rtcCtl hs w.toNat (coverLo o.toNat) (8 * n)
    · rw [h]
      exact ⟨rfl, fun _ _ _ _ => rfl, rfl⟩
    · rw [h]
      exact ⟨rfl, fset_fieldsBut (by decide) .trim x s, rfl⟩

end Sys2Proof.Proofs

/-! PROOFS. A commit without pending shadows (R609): it stores NOTICE_EN, counts SET_ID and, where the same write sets
NOTICE_EN, raises the notice of R608, as a message of an open vector and as the pending bit of a closed one. -/

namespace Sys2Proof.Proofs

open Sys2Proof.Machine Sys2Proof.Laws

section
variable {s : State}

/-! ## NOTICE of PF0 (R157, R158) -/

/-- PF0 always exists, so that its notice is never lost (R147). -/
theorem viExists_vi0 (s : State) : viExists s vi0 = true := rfl

theorem notice_open (ho : vecOpen s vi0 vecNotice = true) :
    notice s = emit (.msix vi0 vecNotice (mget ({} : MsixEntry) (getFn s vi0).msix 3).addr
      (mget ({} : MsixEntry) (getFn s vi0).msix 3).data) s := by
  have hv : vecNotice ≠ vecCompletion := by decide
  have h3 : vecNotice.val = 3 := rfl
  simp [notice, raiseVec, viExists_vi0, ho, hv, h3]

theorem notice_closed (ho : vecOpen s vi0 vecNotice = false) :
    (notice s).out = s.out ∧ mget false (getFn (notice s) vi0).pba 3 = true := by
  have h3 : vecNotice.val = 3 := rfl
  simp [notice, raiseVec, viExists_vi0, ho, h3, getFn_updFn_same]

/-! ## GEN_COMMIT with nothing pending (R603, R609) -/

/-- NOTICE_EN is stored and the commit is counted. -/
def commitCounted (v : Nat) (s : State) : State := { fset .noticeEn 0 (bits v 1 1) s with setId := s.setId + 1 }

theorem vecOpen_commitCounted (v : Nat) (s : State) (f : Vi) (n : Fin 4) :
    vecOpen (commitCounted v s) f n = vecOpen s f n := rfl

theorem commitCounted_fieldsBut (v : Nat) (s : State) : FieldsBut s (commitCounted v s) [.noticeEn] :=
  fset_fieldsBut (by decide) .noticeEn _ s

theorem commitSet_empty (ha : s.applying = false) (hs : s.shadow = []) :
    commitSet s =
      if fget s .noticeEn = 1 then notice { s with setId := s.setId + 1 } else { s with setId := s.setId + 1 } := by
  simp [commitSet, ha, hs, fget]

theorem bits_one_eq_one (v i : Nat) : bits v i 1 = 1 ↔ bitAt v i = true := by simp [bits, bitAt]

/-- The NOTICE_EN that the commit reads is the one of its own write. -/
theorem writeCommit_empty {v : Nat} (hr : running s = true) (ha : s.applying = false) (hs : s.shadow = [])
    (hc : bitAt v 0 = true) :
    writeCommit v s = if bitAt v 1 = true then notice (commitCounted v s) else commitCounted v s := by
  have hstored : writeCommit v s = commitSet (fset .noticeEn 0 (bits v 1 1) s) := by simp [writeCommit, hr, hc]
  rw [hstored, commitSet_empty (s := fset .noticeEn 0 (bits v 1 1) s) ha hs, fget_fset_same]
  exact if_congr (bits_one_eq_one v 1) rfl rfl

theorem execGenCommit_vi0 (h : answers s vi0 = true) (w : U64) :
    execGenCommit vi0 w s = .next (writeCommit w.toNat s) := by simp [execGenCommit, h]

end

/-- Settles O59: a notice changes outputs and PF0's pending bits alone, and NOTICE_EN of the write decides whether one is
raised. -/
theorem emptyCommit : Obligations.EmptyCommit := by
  intro s w hans hr ha hs hc
  refine ⟨_, (execGenCommit_vi0 hans w).trans (congrArg _ (writeCommit_empty hr ha hs hc)), ?_⟩
  have hfields := commitCounted_fieldsBut w.toNat s
  cases hn : bitAt w.toNat 1 with
  | false => exact ⟨rfl, hfields, rfl, fun _ => ⟨rfl, rfl⟩, nofun, nofun⟩
  | true =>
    rw [if_pos rfl]
    have hvec := vecOpen_commitCounted w.toNat s vi0 vecNotice
    obtain ⟨o, f, hsame⟩ := notice_same (commitCounted w.toNat s)
    refine ⟨?setId, ?fields, ?frame, nofun, fun _ ho => ?message, fun _ ho => notice_closed (hvec.trans ho)⟩
    case setId => rw [hsame]; rfl
    case fields => rw [hsame]; exact hfields
    case frame => rw [hsame]; rfl
    case message => rw [notice_open (hvec.trans ho)]; exact ⟨rfl, rfl⟩

end Sys2Proof.Proofs

/-! PROOFS. The run goes on (R95, R103, R110, R117, R150): a command that names units and forms of the device answers a next
state, and all commands but seven keep the device state, the vendor region, the generation and the fences. -/

namespace Sys2Proof.Proofs

open Sys2Proof.Machine Sys2Proof.Laws

/-! ## A next state -/

/-- An outcome that is a next state. -/
def Goes (o : Out) : Prop := ∃ t, o = .next t

theorem Goes.next (t : State) : Goes (.next t) := ⟨t, rfl⟩

theorem Goes.ite {a b : Out} {c : Prop} [Decidable c] (ha : Goes a) (hb : Goes b) : Goes (if c then a else b) := by
  split <;> assumption

/-- A meaning that refuses ill-formed commands alone. -/
theorem Goes.of_wf {c : Bool} {o : Out} (hc : c = true) (ho : Goes o) : Goes (if (!c) = true then .refused .noSuchUnit else o) := by
  rwa [hc, if_neg (by decide)]

section
variable {s : State} {e : Eng}

theorem issue_goes {k : Nat} {is : Nat → Bool} {act : Run → Nat → Nat → State → Out} (h : ∀ r w fr t, Goes (act r w fr t)) :
    Goes (issue e k is act s) := by
  unfold issue
  split
  · exact .next s
  · exact .ite (.next s) (.ite (.next s) (h _ _ _ _))

theorem beforeCommit_goes {k : Nat} {is : Nat → Bool} {act : Run → Nat → Nat → State → Out}
    (h : ∀ r w fr t, Goes (act r w fr t)) : Goes (beforeCommit e k is act s) :=
  issue_goes fun r w fr t => .ite (h r w fr t) (.next _)

theorem afterCommit_goes {k : Nat} {is : Nat → Bool} {act : Run → Nat → Nat → State → Out}
    (h : ∀ r w fr t, Goes (act r w fr t)) : Goes (afterCommit e k is act s) :=
  issue_goes fun r w fr t => .ite (h r w fr t) (.next _)

theorem sop_goes {code : Nat} {f : U64 → U64 → U64} {a : Alu} : Goes (sop code f e a s) :=
  issue_goes fun _ _ _ _ => .next _

theorem mopBefore_goes {code : Nat} {m : MemSlot} {act : Run → Nat → State → State} : Goes (mopBefore code e m act s) :=
  beforeCommit_goes fun _ _ _ _ => .next _

theorem mopAfter_goes {code : Nat} {m : MemSlot} {act : Run → Nat → State → State} : Goes (mopAfter code e m act s) :=
  afterCommit_goes fun _ _ _ _ => .next _

theorem vop_goes {code : Nat} {op : VOp} {v : VecSlot} : Goes (vop code op e v s) :=
  afterCommit_goes fun _ _ _ _ => .next _

theorem sequence_goes {is : Nat → Bool} {act : Run → Nat → State → Out} (h : ∀ r w t, Goes (act r w t)) :
    Goes (Machine.sequence e is act s) := by
  unfold Machine.sequence
  split
  · exact .next s
  · exact .ite (.next s) (.ite (.next s) (.ite (.next _) (h _ _ _)))

theorem branch_goes {code : Nat} {a : BitVec 12} {c : Regs → Bool} : Goes (branch code e a c s) :=
  sequence_goes fun _ _ _ => .ite (.next _) (.next _)

theorem waitWord_goes {code : Nat} {a : BitVec 6} {more : Nat → Bool} {chk : Run → Nat → State → Option State} :
    Goes (waitWord code e a more chk s) := by
  unfold waitWord
  extract_lets is
  split
  · exact .next s
  · refine .ite (.next s) ?_
    split
    · exact .next _
    · exact sequence_goes fun _ _ _ => .next _

theorem execSeqNext_goes {x : Ecc} : Goes (execSeqNext e x s) := by
  unfold execSeqNext
  split
  · exact .next s
  · refine .ite (.next s) ?_
    extract_lets go
    have hgo : ∀ t, Goes (go t) := fun t => sequence_goes fun _ _ _ => .next _
    split
    · exact hgo s
    · exact .ite (hgo _) (.next _)

theorem startRoutine_goes {w : U64} : Goes (startRoutine e w s) := by
  unfold startRoutine
  extract_lets entry t
  split
  · exact .next _
  · split
    · split <;> exact .next _
    · split <;> exact .next _

theorem execTaskWordFetch_goes : Goes (execTaskWordFetch e s) := by
  unfold execTaskWordFetch
  refine .ite (.next s) ?_
  split
  · exact .next s
  · refine .ite (.next s) ?_
    split
    case h_4 => exact .ite (.next s) startRoutine_goes
    all_goals exact .next _

theorem commitOpen_goes {r : Run} : Goes (commitOpen e r s) := .ite (.next s) (.ite (.next _) (.next _))

theorem execCommit_goes {x : Ecc} : Goes (execCommit e x s) := by
  unfold execCommit
  refine .ite (.next s) ?_
  split
  · exact .next s
  · refine .ite (.next s) ?_
    extract_lets go
    have hgo : ∀ t, Goes (go t) := fun t => .ite commitOpen_goes (by split <;> exact .next _)
    split
    · exact hgo s
    · exact .ite (hgo _) (.next _)

theorem execEndWord_goes : Goes (execEndWord e s) := by
  unfold execEndWord
  refine .ite (.next s) ?_
  split
  · exact .next s
  · refine .ite (.next s) (.ite (.ite (.next s) (.next _)) ?_)
    split <;> exact .next _

theorem hostReadEnds_goes {v : Vi} {a : HostRead} {x : HostRes} : Goes (hostReadEnds v a x s) := by
  unfold hostReadEnds
  split
  case h_4 => split <;> exact .next _
  case h_5 =>
    split
    · exact .ite (.next _) (.next s)
    · exact .next s
  all_goals exact .next _

theorem execDispatch_goes {v : Vi} : Goes (execDispatch v s) := by
  unfold execDispatch
  refine .ite (.next s) ?_
  split
  · exact .next s
  · exact .ite (.next s) (.ite (.next _) (.ite (.next _) (.ite (.next s) (.next _))))

end

/-- Every command whose operands name units and forms that the device has answers a next state: the twelve that check their
form, the slots of a microword, the sequencing slot, and those that stop early. -/
theorem exec_goes {c : Instr} {s : State} (h : c.wf = true) : Goes (exec c s) := by
  cases c <;> simp only [exec]
  case vfFlr | ezbenPhaseTimeout | ezbenErrorWindowEnd | detourInstall | linkRx | seqFrameRx | routeFrame | writeRx |
    unitFence => exact .of_wf h (.next _)
  case selfTest => exact .of_wf h (.ite (.next s) (.next _))
  case hostLinkUp => exact .of_wf h (.ite (.next s) (.ite (.next _) (.next _)))
  case flitAckErr => exact .of_wf h (.ite (.next s) (.next _))
  case coldReset => exact .ite (.next _) (.next _)
  case perst0Assert => exact .ite (.next _) (.ite (.next _) (.next _))
  case thermalSample => exact .ite (.next s) (.next _)
  case registerWrite => exact .ite (.next s) (.ite (.next _) (.next _))
  case dispatch => exact execDispatch_goes
  case hostReadCompletion | hostCompletionTimeout => exact hostReadEnds_goes
  case taskWordFetch => exact execTaskWordFetch_goes
  case commit => exact execCommit_goes
  case endWord => exact execEndWord_goes
  case seqNext => exact execSeqNext_goes
  case seqJump | seqBz | seqBnz | seqBn => exact branch_goes
  case wflag | wslotd | wslotf => exact waitWord_goes
  case seqLoop => exact sequence_goes fun _ _ _ => .ite (.next _) (.next _)
  case wload => exact sequence_goes fun _ _ _ => .next _
  case sopNop | cmpu | mopNop | sp2tb | mxNop | shift | swap | vopNop => exact issue_goes fun _ _ _ _ => .next _
  case mov | add | sub | and | or | xor | shl | shr | sar | mul => exact sop_goes
  case ld64 | ldr | probe => exact mopBefore_goes
  case bar | drain => exact beforeCommit_goes fun _ _ _ _ => .next _
  case st64 | tb2sp | stc | slotrd | slotwr | fclr => exact mopAfter_goes
  case fma | vadd | vmul | vmax | vmin | exp | rsq => exact vop_goes
  case stream | cvt => exact afterCommit_goes fun _ _ _ _ => .next _
  all_goals exact .next _

/-! ## What the seven power and boot commands alone change -/

/-- The commands that write the device state, the vendor region, the generation or the fences otherwise than SAFE does. -/
def reshapes : Instr → Bool
  | .auxPowerOn _ | .vddAuxFall | .coldReset _ _ | .deviceResetEnd | .selfTest _ _ | .vendorImageLoad _ | .enterFired => true
  | _ => false

/-- Every other command keeps them. -/
theorem exec_keeps {c : Instr} {s : State} (h : reshapes c = false) : KeepsO s (exec c s) := by
  cases c <;> simp only [exec]
  case auxPowerOn | vddAuxFall | coldReset | deviceResetEnd | selfTest | vendorImageLoad | enterFired => cases h
  case suppliesLost => exact execSuppliesLost_keeps (.refl s)
  case powerDown => exact execPowerDown_keeps (.refl s)
  case perst0Assert => exact execPerst0Assert_keeps (.refl s)
  case perst1Assert => exact execPerst1Assert_keeps (.refl s)
  case hotReset => exact execHotReset_keeps (.refl s)
  case hostLinkLoss => exact execHostLinkLoss_keeps (.refl s)
  case hostLinkUp => exact execHostLinkUp_keeps (.refl s)
  case pfFlr => exact execPfFlr_keeps (.refl s)
  case vfFlr => exact execVfFlr_keeps (.refl s)
  case vfEnableClear => exact execVfEnableClear_keeps (.refl s)
  case numvfsWrite => exact execNumvfsWrite_keeps (.refl s)
  case viResetDone => exact execViResetDone_keeps (.refl s)
  case testReset => exact execTestReset_keeps (.refl s)
  case busMasterDisable => exact execBusMasterDisable_keeps (.refl s)
  case d3hotEntry => exact execD3hotEntry_keeps (.refl s)
  case d0Return => exact execD0Return_keeps (.refl s)
  case configAccess => exact execConfigAccess_keeps (.refl s)
  case hostPoisonedWrite => exact execHostPoisonedWrite_keeps (.refl s)
  case hostReadCompletion => exact execHostReadCompletion_keeps (.refl s)
  case hostCompletionTimeout => exact execHostCompletionTimeout_keeps (.refl s)
  case msixUnmask => exact execMsixUnmask_keeps (.refl s)
  case holdoffExpiry => exact execHoldoffExpiry_keeps (.refl s)
  case smbusRead => exact execSmbusRead_keeps (.refl s)
  case smbusWrite => exact execSmbusWrite_keeps (.refl s)
  case imageCheck => exact execImageCheck_keeps (.refl s)
  case go => exact execGo_keeps (.refl s)
  case warmReset => exact execWarmReset_keeps (.refl s)
  case stage => exact execStage_keeps (.refl s)
  case stageSectorDone => exact execStageSectorDone_keeps (.refl s)
  case thermalSample => exact execThermalSample_keeps (.refl s)
  case damperWindowEnd => exact execDamperWindowEnd_keeps (.refl s)
  case railPowerGood => exact execRailPowerGood_keeps (.refl s)
  case vsetPgTimeout => exact execVsetPgTimeout_keeps (.refl s)
  case vsetAlert => exact execVsetAlert_keeps (.refl s)
  case railOut => exact execRailOut_keeps (.refl s)
  case clockChange => exact execClockChange_keeps (.refl s)
  case refclkLost => exact execRefclkLost_keeps (.refl s)
  case pllLockLoss => exact execPllLockLoss_keeps (.refl s)
  case pllRelock => exact execPllRelock_keeps (.refl s)
  case pllLost => exact execPllLost_keeps (.refl s)
  case unitStall => exact execUnitStall_keeps (.refl s)
  case islandReset => exact execIslandReset_keeps (.refl s)
  case flitAckErr => exact execFlitAckErr_keeps (.refl s)
  case ezbenPhaseTimeout => exact execEzbenPhaseTimeout_keeps (.refl s)
  case ezbenErrorWindowEnd => exact execEzbenErrorWindowEnd_keeps (.refl s)
  case detourInstall => exact execDetourInstall_keeps (.refl s)
  case sliceLoad => exact execSliceLoad_keeps (.refl s)
  case sliceStore => exact execSliceStore_keeps (.refl s)
  case gets => exact execGets_keeps (.refl s)
  case getm => exact execGetm_keeps (.refl s)
  case getcur => exact execGetcur_keeps (.refl s)
  case puts => exact execPuts_keeps (.refl s)
  case puto => exact execPuto_keeps (.refl s)
  case putm => exact execPutm_keeps (.refl s)
  case dataresp => exact execDataresp_keeps (.refl s)
  case invack => exact execInvack_keeps (.refl s)
  case done => exact execDone_keeps (.refl s)
  case datas => exact execDatas_keeps (.refl s)
  case datam => exact execDatam_keeps (.refl s)
  case datacur => exact execDatacur_keeps (.refl s)
  case grantm => exact execGrantm_keeps (.refl s)
  case fwds => exact execFwds_keeps (.refl s)
  case downs => exact execDowns_keeps (.refl s)
  case fwdm => exact execFwdm_keeps (.refl s)
  case inv => exact execInv_keeps (.refl s)
  case ownx => exact execOwnx_keeps (.refl s)
  case putack => exact execPutack_keeps (.refl s)
  case retry => exact execRetry_keeps (.refl s)
  case nackp => exact execNackp_keeps (.refl s)
  case snpdata => exact execSnpdata_keeps (.refl s)
  case snpinv => exact execSnpinv_keeps (.refl s)
  case snpcur => exact execSnpcur_keeps (.refl s)
  case goGrant => exact execGoGrant_keeps (.refl s)
  case goI => exact execGoI_keeps (.refl s)
  case goErr => exact execGoErr_keeps (.refl s)
  case goWritepull => exact execGoWritepull_keeps (.refl s)
  case goWritepullDrop => exact execGoWritepullDrop_keeps (.refl s)
  case viralRx => exact execViralRx_keeps (.refl s)
  case cohTimeout => exact execCohTimeout_keeps (.refl s)
  case pollInterval => exact execPollInterval_keeps (.refl s)
  case line0ReadReturn => exact execLine0ReadReturn_keeps (.refl s)
  case descriptorFetchReturn => exact execDescriptorFetchReturn_keeps (.refl s)
  case line1Write => exact execLine1Write_keeps (.refl s)
  case dispatch => exact execDispatch_keeps (.refl s)
  case descriptorComplete => exact execDescriptorComplete_keeps (.refl s)
  case nop => exact execNop_keeps (.refl s)
  case copy => exact execCopy_keeps (.refl s)
  case fill => exact execFill_keeps (.refl s)
  case moverBlock => exact execMoverBlock_keeps (.refl s)
  case launch => exact execLaunch_keeps (.refl s)
  case signal => exact execSignal_keeps (.refl s)
  case wait => exact execWait_keeps (.refl s)
  case waitPoll => exact execWaitPoll_keeps (.refl s)
  case fence => exact execFence_keeps (.refl s)
  case segSet => exact execSegSet_keeps (.refl s)
  case recipeLoad => exact execRecipeLoad_keeps (.refl s)
  case coll => exact execColl_keeps (.refl s)
  case groupSetDefine => exact execGroupSetDefine_keeps (.refl s)
  case groupSetDelete => exact execGroupSetDelete_keeps (.refl s)
  case windowSetOpen => exact execWindowSetOpen_keeps (.refl s)
  case windowSetClose => exact execWindowSetClose_keeps (.refl s)
  case stamp => exact execStamp_keeps (.refl s)
  case coneSnap => exact execConeSnap_keeps (.refl s)
  case mboxDeliver => exact execMboxDeliver_keeps (.refl s)
  case mboxUpWrite => exact execMboxUpWrite_keeps (.refl s)
  case viEnable => exact execViEnable_keeps (.refl s)
  case viDisable => exact execViDisable_keeps (.refl s)
  case mboxEnable => exact execMboxEnable_keeps (.refl s)
  case mboxDisable => exact execMboxDisable_keeps (.refl s)
  case segMissService => exact execSegMissService_keeps (.refl s)
  case missWatchdog => exact execMissWatchdog_keeps (.refl s)
  case taskWordFetch => exact execTaskWordFetch_keeps (.refl s)
  case launchIndexStart => exact execLaunchIndexStart_keeps (.refl s)
  case sliceEnd => exact execSliceEnd_keeps (.refl s)
  case precommitBudgetEnd => exact execPrecommitBudgetEnd_keeps (.refl s)
  case postcommitBudgetEnd => exact execPostcommitBudgetEnd_keeps (.refl s)
  case commit => exact execCommit_keeps (.refl s)
  case endWord => exact execEndWord_keeps (.refl s)
  case seqNext => exact execSeqNext_keeps (.refl s)
  case seqJump => exact execSeqJump_keeps (.refl s)
  case seqLoop => exact execSeqLoop_keeps (.refl s)
  case seqBz => exact execSeqBz_keeps (.refl s)
  case seqBnz => exact execSeqBnz_keeps (.refl s)
  case seqBn => exact execSeqBn_keeps (.refl s)
  case wflag => exact execWflag_keeps (.refl s)
  case wslotd => exact execWslotd_keeps (.refl s)
  case wslotf => exact execWslotf_keeps (.refl s)
  case wload => exact execWload_keeps (.refl s)
  case sopNop => exact execSopNop_keeps (.refl s)
  case mov => exact execMov_keeps (.refl s)
  case add => exact execAdd_keeps (.refl s)
  case sub => exact execSub_keeps (.refl s)
  case and => exact execAnd_keeps (.refl s)
  case or => exact execOr_keeps (.refl s)
  case xor => exact execXor_keeps (.refl s)
  case shl => exact execShl_keeps (.refl s)
  case shr => exact execShr_keeps (.refl s)
  case sar => exact execSar_keeps (.refl s)
  case mul => exact execMul_keeps (.refl s)
  case cmpu => exact execCmpu_keeps (.refl s)
  case mopNop => exact execMopNop_keeps (.refl s)
  case ld64 => exact execLd64_keeps (.refl s)
  case st64 => exact execSt64_keeps (.refl s)
  case tb2sp => exact execTb2sp_keeps (.refl s)
  case sp2tb => exact execSp2tb_keeps (.refl s)
  case ldr => exact execLdr_keeps (.refl s)
  case stc => exact execStc_keeps (.refl s)
  case bar => exact execBar_keeps (.refl s)
  case drain => exact execDrain_keeps (.refl s)
  case slotrd => exact execSlotrd_keeps (.refl s)
  case slotwr => exact execSlotwr_keeps (.refl s)
  case fclr => exact execFclr_keeps (.refl s)
  case probe => exact execProbe_keeps (.refl s)
  case mxNop => exact execMxNop_keeps (.refl s)
  case shift => exact execShift_keeps (.refl s)
  case swap => exact execSwap_keeps (.refl s)
  case stream => exact execStream_keeps (.refl s)
  case vopNop => exact execVopNop_keeps (.refl s)
  case fma => exact execFma_keeps (.refl s)
  case vadd => exact execVadd_keeps (.refl s)
  case vmul => exact execVmul_keeps (.refl s)
  case vmax => exact execVmax_keeps (.refl s)
  case vmin => exact execVmin_keeps (.refl s)
  case exp => exact execExp_keeps (.refl s)
  case rsq => exact execRsq_keeps (.refl s)
  case cvt => exact execCvt_keeps (.refl s)
  case loadReturn => exact execLoadReturn_keeps (.refl s)
  case stcResult => exact execStcResult_keeps (.refl s)
  case storeBufferPass => exact execStoreBufferPass_keeps (.refl s)
  case gatherPass => exact execGatherPass_keeps (.refl s)
  case shiftStall => exact execShiftStall_keeps (.refl s)
  case memRead => exact execMemRead_keeps (.refl s)
  case scrubRead => exact execScrubRead_keeps (.refl s)
  case memFailed => exact execMemFailed_keeps (.refl s)
  case portLinkUp => exact execPortLinkUp_keeps (.refl s)
  case portLinkLoss => exact execPortLinkLoss_keeps (.refl s)
  case helloTx => exact execHelloTx_keeps (.refl s)
  case helloRx => exact execHelloRx_keeps (.refl s)
  case helloLoss => exact execHelloLoss_keeps (.refl s)
  case ingestFallback => exact execIngestFallback_keeps (.refl s)
  case linkTx => exact execLinkTx_keeps (.refl s)
  case linkRx => exact execLinkRx_keeps (.refl s)
  case seqFrameRx => exact execSeqFrameRx_keeps (.refl s)
  case replayTimeout => exact execReplayTimeout_keeps (.refl s)
  case routeFrame => exact execRouteFrame_keeps (.refl s)
  case writeRx => exact execWriteRx_keeps (.refl s)
  case writeAckTx => exact execWriteAckTx_keeps (.refl s)
  case ackRx => exact execAckRx_keeps (.refl s)
  case writeTimeout => exact execWriteTimeout_keeps (.refl s)
  case epochArm => exact execEpochArm_keeps (.refl s)
  case epochFlip => exact execEpochFlip_keeps (.refl s)
  case graceEnd => exact execGraceEnd_keeps (.refl s)
  case ingestPacket => exact execIngestPacket_keeps (.refl s)
  case ingestAck => exact execIngestAck_keeps (.refl s)
  case ingestCompletion => exact execIngestCompletion_keeps (.refl s)
  case pfcXoffRepeat => exact execPfcXoffRepeat_keeps (.refl s)
  case pfcXon => exact execPfcXon_keeps (.refl s)
  case pfcRx => exact execPfcRx_keeps (.refl s)
  case collLaunch => exact execCollLaunch_keeps (.refl s)
  case arrive => exact execArrive_keeps (.refl s)
  case release => exact execRelease_keeps (.refl s)
  case grant => exact execGrant_keeps (.refl s)
  case abort => exact execAbort_keeps (.refl s)
  case collDataRx => exact execCollDataRx_keeps (.refl s)
  case stagePlace => exact execStagePlace_keeps (.refl s)
  case collDeadline => exact execCollDeadline_keeps (.refl s)
  case collComplete => exact execCollComplete_keeps (.refl s)
  case collectorCycle => exact execCollectorCycle_keeps (.refl s)
  case unitFence => exact execUnitFence_keeps (.refl s)
  case safeEntry => exact execSafeEntry_keeps (.refl s)
  case fltClearSeq => exact execFltClearSeq_keeps (.refl s)
  case unfreeze => exact execUnfreeze_keeps (.refl s)
  case heartbeatStrobe => exact execHeartbeatStrobe_keeps (.refl s)
  case aliveHalfWindow => exact execAliveHalfWindow_keeps (.refl s)
  case heartbeatWindowEnd => exact execHeartbeatWindowEnd_keeps (.refl s)
  case rtcTick => exact execRtcTick_keeps (.refl s)
  case oscStopped => exact execOscStopped_keeps (.refl s)
  case vbatSample => exact execVbatSample_keeps (.refl s)
  case rtcSubsecRead => exact execRtcSubsecRead_keeps (.refl s)
  case rtcSet => exact execRtcSet_keeps (.refl s)
  case counterEvent => exact execCounterEvent_keeps (.refl s)
  case counterWindowEnd => exact execCounterWindowEnd_keeps (.refl s)
  case shadowSeqUpdate => exact execShadowSeqUpdate_keeps (.refl s)
  case windowEnable => exact execWindowEnable_keeps (.refl s)
  case cntValLoRead => exact execCntValLoRead_keeps (.refl s)
  case cntValLoWrite => exact execCntValLoWrite_keeps (.refl s)
  case cntValHiWrite => exact execCntValHiWrite_keeps (.refl s)
  case genCommit => exact execGenCommit_keeps (.refl s)
  case changeTakeup => exact execChangeTakeup_keeps (.refl s)
  case forcedTakeup => exact execForcedTakeup_keeps (.refl s)
  case changeLate => exact execChangeLate_keeps (.refl s)
  case registerWrite => exact execRegisterWrite_keeps (.refl s)
  case internalResetRelease => exact execInternalResetRelease_keeps (.refl s)
  case memUeWindowEnd => exact execMemUeWindowEnd_keeps (.refl s)
  case linkRecovery => exact execLinkRecovery_keeps (.refl s)
  case otherFrameRx => exact execOtherFrameRx_keeps (.refl s)
  case pfcPauseExpiry => exact execPfcPauseExpiry_keeps (.refl s)
  case noticeGapEnd => exact execNoticeGapEnd_keeps (.refl s)
  case testClockEdge => exact execTestClockEdge_keeps (.refl s)

/-- Outside the reset's own path: the vendor region is cleared or stands, the generation stands, and no fence is lifted. -/
structure Stands (s t : State) : Prop where
  vendor : t.vendor = s.vendor ∨ t.vendor = []
  generation : t.generation = s.generation
  fenced : ∀ u ∈ s.fenced, u ∈ t.fenced

theorem stands_of_keeps {s t : State} (h : Keeps s t) : Stands s t := ⟨h.vendor, h.generation, h.fenced⟩

theorem Stands.then {s t u : State} (h : Stands s t) (k : Keeps t u) : Stands s u :=
  ⟨k.vendor.elim (fun e => h.vendor.imp e.trans e.trans) .inr, k.generation.trans h.generation,
    fun w hw => k.fenced w (h.fenced w hw)⟩

section
variable {s t : State}

/-- AUX_POWER_ON and VDD_AUX_FALL start from a device that has lost everything but its clock and pins. -/
theorem execAuxPowerOn_keeps {st : Straps} (h : execAuxPowerOn st s = .next t) : Keeps (powerUp s) t := by
  obtain rfl := Host.Outcome.next.inj h
  exact snapNow_keeps (sampleStraps_keeps (updRtc_keeps (updBoard_keeps (.refl _))))

theorem execVddAuxFall_keeps (h : execVddAuxFall s = .next t) : Keeps (powerUp s) t := by
  obtain rfl := Host.Outcome.next.inj h
  have hoff := updBoard_keeps (a0 := fun b => { b with vddAux := false, pwrgood := false, spiDriven := false })
    (Keeps.refl (powerUp s))
  exact .ite hoff (updRtc_keeps (clockLost_keeps hoff))

theorem execColdReset_stands {n : Nat} {st : Straps} (h : execColdReset n st s = .next t) : Stands s t := by
  unfold execColdReset at h
  extract_lets hit u w k r x at h
  have hu : Keeps s u := Keeps.ite (afterPulse_keeps (.refl s)) (.refl s)
  clear_value u
  have hr : Keeps s (resetIslands k) := resetIslands_keeps (Keeps.put (writeRec_keeps hu))
  have hx : Stands s x := ⟨hr.vendor, hr.generation, hr.fenced⟩
  split at h <;> obtain rfl := Host.Outcome.next.inj h
  · exact stands_of_keeps hu
  · exact hx.then (snapNow_keeps (sampleStraps_keeps (updBoard_keeps (.refl _))))

theorem execDeviceResetEnd_stands (h : execDeviceResetEnd s = .next t) : Stands s t := by
  obtain rfl := Host.Outcome.next.inj h
  split <;> exact ⟨.inl rfl, rfl, fun _ hu => hu⟩

/-- SELF_TEST clears the fences first: of its start only the vendor region and the generation stand. -/
theorem execSelfTest_keeps {ls : List Lane} {fs : List TestFail} (h : execSelfTest ls fs s = .next t) :
    ∃ u, u.vendor = s.vendor ∧ u.generation = s.generation ∧ Keeps u t := by
  unfold execSelfTest at h
  split at h
  · cases h
  split at h
  · obtain rfl := Host.Outcome.next.inj h
    exact ⟨s, rfl, rfl, .refl s⟩
  extract_lets u v at h
  obtain rfl := Host.Outcome.next.inj h
  have hv {w : State} (hw : Keeps w u) : Keeps w { v with
      selfTested := true, board := { v.board with hostDriven := true } } :=
    Keeps.put (Keeps.foldl (fun _ _ k => selfTestFail_keeps k) _ hw)
  by_cases hc : coldBoot s = true
  · refine ⟨{ s with fenced := [], degraded := false, detours := [], lanes := [], ports := [] }, rfl, rfl, hv ?_⟩
    rw [show u = _ from if_pos hc]
    exact Keeps.foldl (fun _ _ k => laneFail_keeps k) _ (.refl _)
  · refine ⟨s, rfl, rfl, hv ?_⟩
    rw [show u = s from if_neg hc]
    exact .refl s

/-- The vendor image is loaded whole, or not at all. -/
theorem execVendorImageLoad_cases {n : Fin 2} (h : execVendorImageLoad n s = .next t) :
    Keeps s t ∨ t = { s with
      vendor := vendorWords (vendorBytes s.fwBody)
      vendorId := BitVec.ofNat 32 (bodyField (vendorBytes s.fwBody) 0x0C 4), vendorSt := 1, boot := .glazing } := by
  obtain rfl := Host.Outcome.next.inj h
  split
  · exact .inl (.refl s)
  · extract_lets v
    split
    · exact .inr rfl
    · exact .inl (raise_keeps (Keeps.put (.refl s)))

/-- ENTER_FIRED counts the generation, and keeps the rest. -/
theorem execEnterFired_cases (h : execEnterFired s = .next t) :
    t = s ∨ ∃ u, u.vendor = s.vendor ∧ u.fenced = s.fenced ∧ u.generation = s.generation + 1 ∧ Keeps u t := by
  obtain rfl := Host.Outcome.next.inj h
  split
  · unfold enterFired
    extract_lets b u v
    refine .inr ⟨u, rfl, rfl, rfl, startAll_keeps (Keeps.foldl (fun _ _ k => updVi_keeps k) _ ?_)⟩
    exact Keeps.foldl (fun _ _ k => startPort_keeps k) _ (unfreezeLog_keeps (.refl u))
  · exact .inl rfl

/-! ## The invariant of the stores -/

theorem exec_base {c : Instr} : BaseO s (exec c s) := by
  by_cases h : reshapes c = true
  · cases c <;> simp only [exec]
    case auxPowerOn => exact execAuxPowerOn_base
    case vddAuxFall => exact execVddAuxFall_base
    case coldReset => exact execColdReset_base
    case deviceResetEnd => exact execDeviceResetEnd_base
    case selfTest => exact execSelfTest_base
    case vendorImageLoad => exact execVendorImageLoad_base
    case enterFired => exact execEnterFired_base
    all_goals cases h
  · exact (exec_keeps (Bool.eq_false_iff.2 h)).base

theorem inv_of_base (h : Base s t) (k : Inv s) : Inv t :=
  ⟨h.mem k.memory, h.poison k.poison, h.recLen k.records, h.recSealed k.sealed⟩

/-- The invariant says nothing of the queue. -/
theorem inv_pending (h : Inv s) (l : List Instr) : Inv { s with pending := l } := ⟨h.memory, h.poison, h.records, h.sealed⟩

end

/-- Settles O4: a step is a command on the state with the rest of the queue, or an idle nanosecond; either keeps Base. -/
theorem stepKeepsInv : Obligations.StepKeepsInv := by
  intro s t hs h
  unfold step at h
  split at h
  · obtain rfl := Host.Outcome.next.inj h
    exact inv_of_base (idle_keeps (.refl s)).toBase hs
  · exact inv_of_base (exec_base.elim h) (inv_pending hs _)

/-- Settles O5: completion by the case split of `exec_goes`, the frame by Base. -/
theorem commandsLeaveQueue : Obligations.CommandsLeaveQueue := by
  intro c s
  refine ⟨exec_goes, fun t h => ?_⟩
  have hb : Base s t := exec_base.elim h
  exact ⟨hb.pending, hb.fuses, hb.out⟩

/-- Settles O7: a power-up and the islands' reset clear the region, VENDOR_IMAGE_LOAD alone writes it. -/
theorem vendorRegionStands : Obligations.VendorRegionStands := by
  intro c s t h hne
  have cleared (hv : t.vendor = s.vendor ∨ t.vendor = []) : t.vendor = [] := hv.resolve_left hne
  cases hc : reshapes c with
  | false => exact .inl (cleared ((exec_keeps hc).elim h).vendor)
  | true =>
    cases c <;> simp only [exec] at h
    case auxPowerOn => exact .inl ((execAuxPowerOn_keeps h).vendor.elim id id)
    case vddAuxFall => exact .inl ((execVddAuxFall_keeps h).vendor.elim id id)
    case coldReset => exact .inl (cleared (execColdReset_stands h).vendor)
    case deviceResetEnd => exact .inl (cleared (execDeviceResetEnd_stands h).vendor)
    case selfTest =>
      obtain ⟨u, hu, -, k⟩ := execSelfTest_keeps h
      exact .inl (cleared (hu ▸ k.vendor))
    case vendorImageLoad n =>
      obtain k | rfl := execVendorImageLoad_cases h
      · exact .inl (cleared k.vendor)
      · exact .inr ⟨⟨n, rfl⟩, rfl⟩
    case enterFired =>
      obtain rfl | ⟨u, hu, -, -, k⟩ := execEnterFired_cases h
      · exact absurd rfl hne
      · exact .inl (cleared (hu ▸ k.vendor))
    all_goals cases hc

/-- Settles O8: of the seven commands that Keeps does not hold of, four keep the fences; the other three are the ones named. -/
theorem fencesStand : Obligations.FencesStand := by
  intro c s t u h hu hn
  have stays (hf : ∀ w ∈ s.fenced, w ∈ t.fenced) : False := hn (hf u hu)
  cases hc : reshapes c with
  | false => exact (stays ((exec_keeps hc).elim h).fenced).elim
  | true =>
    cases c <;> simp only [exec] at h
    case auxPowerOn st => exact .inr (.inr ⟨st, rfl⟩)
    case vddAuxFall => exact .inr (.inl rfl)
    case selfTest ls fs => exact .inl ⟨ls, fs, rfl⟩
    case coldReset => exact (stays (execColdReset_stands h).fenced).elim
    case deviceResetEnd => exact (stays (execDeviceResetEnd_stands h).fenced).elim
    case vendorImageLoad =>
      obtain k | rfl := execVendorImageLoad_cases h
      · exact (stays k.fenced).elim
      · exact (hn hu).elim
    case enterFired =>
      obtain rfl | ⟨w, -, hw, -, k⟩ := execEnterFired_cases h
      · exact (hn hu).elim
      · exact (stays fun x hx => k.fenced x (hw ▸ hx)).elim
    all_goals cases hc

/-- Settles O9: ENTER_FIRED adds one, a power-up starts from 0, and everything else leaves the generation. -/
theorem generationAdvances : Obligations.GenerationAdvances := by
  intro c s t h hne
  cases hc : reshapes c with
  | false => exact absurd ((exec_keeps hc).elim h).generation hne
  | true =>
    cases c <;> simp only [exec] at h
    case auxPowerOn st => exact .inr ⟨(execAuxPowerOn_keeps h).generation, .inr ⟨st, rfl⟩⟩
    case vddAuxFall => exact .inr ⟨(execVddAuxFall_keeps h).generation, .inl rfl⟩
    case coldReset => exact absurd (execColdReset_stands h).generation hne
    case deviceResetEnd => exact absurd (execDeviceResetEnd_stands h).generation hne
    case selfTest =>
      obtain ⟨u, -, hu, k⟩ := execSelfTest_keeps h
      exact absurd (k.generation.trans hu) hne
    case vendorImageLoad =>
      obtain k | rfl := execVendorImageLoad_cases h
      · exact absurd k.generation hne
      · exact absurd rfl hne
    case enterFired =>
      obtain rfl | ⟨u, -, -, hu, k⟩ := execEnterFired_cases h
      · exact absurd rfl hne
      · exact .inl ⟨rfl, k.generation.trans hu⟩
    all_goals cases hc

/-! ## The run goes on -/

/-- A well-formed command but the seven completes, and the run goes on. -/
theorem completes_continues {c : Instr} {s : State} (hw : c.wf = true) (hc : reshapes c = false) :
    Completes c s (Continues s) := by
  obtain ⟨t, h⟩ := exec_goes (s := s) hw
  exact ⟨t, h, KeepsO.continues (exec_keeps hc) h⟩

/-- A command that Keeps holds of completes with what its next state is shown to meet, and the run goes on. -/
theorem completes_and_continues {c : Instr} {s : State} {p : State → Prop} (hc : reshapes c = false) (h : Completes c s p) :
    Completes c s fun t => Continues s t ∧ p t := by
  obtain ⟨t, ht, hp⟩ := h
  exact ⟨t, ht, KeepsO.continues (exec_keeps hc) ht, hp⟩

end Sys2Proof.Proofs

/-! PROOFS. Supplies, device resets and VI resets (R48 to R69, R111 to R116, R162 to R169). -/

namespace Sys2Proof.Proofs

open Sys2Proof.Machine Sys2Proof.Laws

/-! ## The supplies -/

/-- Every strap that is steady in its window reads as its pin (R48, R649). -/
theorem sampleStraps_steady (st : Straps) (s : State) :
    (∀ b, st.hp0Mode = some b → (sampleStraps st s).board.hp0Mode = b) ∧
    (∀ b, st.bootSrc = some b → (sampleStraps st s).board.bootSrc = b) ∧
    ∀ b, st.debugEn = some b → (sampleStraps st s).board.debugEn = b := by
  have strap1_board (x : Option Bool) (t : State) : (strap1 x t).board = t.board := by
    unfold strap1
    split <;> rfl
  refine ⟨fun b h => ?_, fun b h => ?_, fun b h => ?_⟩ <;> simp [sampleStraps, strap1_board, strap, h]

/-- The device with both supplies up, before the straps are sampled. -/
def suppliedUp (s : State) : State :=
  updRtc (fun r => { r with running := true }) (updBoard (fun b => { b with vddAux := true, pwrgood := true }) (powerUp s))

theorem execAuxPowerOn_eq (s : State) (st : Straps) :
    execAuxPowerOn st s = .next (snapNow (sampleStraps st (suppliedUp s))) := rfl

/-- What a cold reset leaves before its pins and straps: the islands as at reset, the rails as R53 keeps them. -/
def coldIslands (s : State) : State :=
  let k := { writeRec .cold s with rails := resetRails s }
  tick { resetIslands k with boot := .bisque, resetAt := none, rails := k.rails, engs := resetEngs k }

/-- And with its pins. -/
def coldPins (s : State) : State := updBoard (fun b => { b with
  pwrgood := true, perst0 := false, perst1 := false, selfRefresh := false, spiDriven := true }) (coldIslands s)

/-- A low pulse of PWRGOOD of 10 µs and more is a cold reset (R69, R649). -/
theorem execColdReset_hit {s : State} {n : Nat} (st : Straps) (h1 : s.board.vddAux = true) (h2 : s.board.pwrgood = true)
    (h3 : 10000 ≤ n) : execColdReset n st s = .next (snapNow (sampleStraps st (coldPins s))) := by
  have hhit : (s.board.vddAux && (!s.board.pwrgood || seen n 10000 s)) = true := by simp [seen, h1, h3]
  have hpulse : (if s.board.pwrgood then afterPulse n 10000 s else s) = s := by
    rw [if_pos h2]
    exact if_neg (by simp; omega)
  have hgood : (writeRec .cold s).board.pwrgood = true := h2
  have hrails : coldRails (writeRec .cold s) = resetRails s := if_pos (by rw [hgood]; rfl)
  simp only [execColdReset, hhit, hpulse, hrails]
  rfl

/-- The record of a loss is sealed as it is pushed (R116, R117). -/
theorem writeRec_records (c : Loss) (s : State) :
    ∃ l, (writeRec c s).records = recSeal (lossRec c s) :: l ∧ recOk (recSeal (lossRec c s)) = true :=
  ⟨_, rfl, recOk_recSeal _⟩

theorem lossRec_cause (c : Loss) (s : State) : (lossRec c s).cause = lossCode c := by
  unfold lossRec
  extract_lets b
  split
  · rfl
  split
  · rfl
  split
  · rfl
  · rfl
  · split <;> rfl

/-- Settles O10: each supply event rebuilds the state whole, and the straps and the snapshot come last. -/
theorem powerCommandsComplete : Obligations.PowerCommandsComplete := by
  refine ⟨fun s st => ?aux, fun s => ?fall, fun s => ⟨_, rfl, rfl, rfl⟩, fun s n st h1 h2 h3 => ?cold,
    fun s => ⟨_, rfl, rfl, rfl, rfl, rfl⟩⟩
  case aux =>
    obtain ⟨hmode, hsrc, hdebug⟩ := sampleStraps_steady st (suppliedUp s)
    obtain ⟨a, b, c, n, h⟩ := sampleStraps_same st (suppliedUp s)
    refine ⟨_, execAuxPowerOn_eq s st, ?_⟩
    rw [h] at hmode hsrc hdebug ⊢
    exact ⟨rfl, rfl, rfl, rfl, rfl, rfl, rfl, rfl, rfl, rfl, rfl, rfl, rfl, rfl, hmode, hsrc, hdebug⟩
  case fall =>
    refine ⟨_, rfl, ?_⟩
    dsimp only
    split
    · next hb => exact ⟨rfl, rfl, rfl, rfl, rfl, rfl, fun _ => rfl, fun hn => absurd (hn.symm.trans hb) (by decide)⟩
    · next hb => exact ⟨rfl, rfl, rfl, rfl, rfl, rfl, fun hv => absurd hv hb, fun _ => rfl⟩
  case cold =>
    refine ⟨_, execColdReset_hit st h1 h2 h3, ?_⟩
    obtain ⟨l, hl, hok⟩ := writeRec_records .cold s
    obtain ⟨a, b, c, k, h⟩ := sampleStraps_same st (coldPins s)
    rw [h]
    exact ⟨rfl, rfl, rfl, rfl, rfl, rfl, rfl, rfl, rfl, rfl, _, l, hl, rfl, rfl, hok⟩

/-! ## Device resets -/

/-- What a trigger leaves, once it acts (R111 to R116). -/
theorem deviceReset_leaves (c : Loss) {s : State} (h1 : s.board.pwrgood = true) (h2 : s.boot ≠ .safe)
    (h3 : entering s = false) : AfterDeviceReset s (deviceReset c s) c (lossCode c) := by
  obtain ⟨k, ⟨m, p, e, g, hk⟩, hmem, h⟩ := deviceReset_same c s h1 h2 h3
  obtain ⟨l, hl, hok⟩ := writeRec_records c s
  rw [h]
  subst hk
  exact ⟨rfl, rfl, rfl, rfl, rfl, rfl, rfl, rfl, rfl, rfl, rfl, rfl, rfl, rfl, hmem, _, l, hl, lossRec_cause c s, hok⟩

/-- A low pulse of 1 µs and more on PERST of port 0 outside SAFE (R649). -/
theorem execPerst0Assert_hit {s : State} {n : Nat} (h1 : s.board.pwrgood = true) (h2 : s.boot ≠ .safe) (h3 : 1000 ≤ n) :
    execPerst0Assert n s = .next (updBoard (fun b => { b with perst0 := true }) (deviceReset .perst0 s)) := by
  have hseen : seen n 1000 s = true := by simp [seen, h3]
  have hpulse : afterPulse n 1000 s = s := if_neg (by simp; omega)
  simp [execPerst0Assert, hseen, hpulse, h1, h2]

/-- Settles O11: every trigger outside SAFE is the one device reset. -/
theorem deviceResetsComplete : Obligations.DeviceResetsComplete := by
  refine ⟨fun s h1 h2 h3 => ?triggers, fun s c hc => ?ends, fun s => ⟨_, rfl, rfl⟩⟩
  case triggers =>
    have leaves (c : Loss) : AfterDeviceReset s (deviceReset c s) c (lossCode c) := deviceReset_leaves c h1 h2 h3
    refine ⟨fun n hn => ⟨_, execPerst0Assert_hit h1 h2 hn, leaves .perst0, rfl⟩, ?hot, fun hl => ?loss, ?flr,
      fun hr ha hb => ?warm⟩
    case hot => exact ⟨_, by simp [exec, execHotReset, h2], leaves .hotReset⟩
    case loss => exact ⟨_, by simp [exec, execHostLinkLoss, linkLoss, hl, h2], leaves .linkLoss⟩
    case flr => exact ⟨_, by simp [exec, execPfFlr, h2], leaves .pf0Flr⟩
    case warm => exact ⟨_, by simp [exec, execWarmReset, warmReset, hr, ha, hb], leaves .warm⟩
  case ends => exact ⟨_, by simp [exec, execDeviceResetEnd, hc]; rfl, rfl, rfl, rfl, rfl, rfl⟩

end Sys2Proof.Proofs

/-! PROOFS. VI resets (R162 to R169). -/

namespace Sys2Proof.Proofs

open Sys2Proof.Machine Sys2Proof.Laws

/-! ## VI resets (R162 to R169) -/

/-- The VI itself, as the start of its reset leaves it (R163). -/
def resetStarted (x : ViSt) : ViSt :=
  { x with
    fetched := [], fetching := 0, misses := [], down := none, dbReading := false, mbReading := false, dbWatched := false,
    mbWatched := false, dbPolled := false, mbPolled := false, dbWake := false, mbWake := false, startDue := false,
    ingest := [], resetting := true }

/-- The last thing that the start of a VI reset does is to the VI. -/
theorem getVi_viResetStart (s : State) (v : Vi) : ∃ x, getVi (viResetStart s v) v = resetStarted x :=
  ⟨_, getVi_updVi_same v _⟩

theorem getPf_updPf_same (p : HPort) (f : Pf → Pf) (s : State) : getPf (updPf p f s) p = f (getPf s p) := by simp [getPf]
theorem getHp_updHp_same (p : HPort) (f : HostPort → HostPort) (s : State) : getHp (updHp p f s) p = f (getHp s p) := by
  simp [getHp]

/-- What a VI keeps over its reset: its up messages and the count of its enables (R164, R240). -/
def keptOver (x : ViSt) : ViSt := { upMsgs := x.upMsgs, lap := x.lap }

/-- The VI but for two counts, its registers and its function as at reset. -/
def viAsAtReset (v : Vi) (s : State) : State :=
  updFn v (fun _ => {}) (updVi v keptOver
    (viRegsReset v (closeFabricOf v (clearFlags v s))))

/-- The end of a VI reset, once its work has ended. -/
theorem viResetEnd_idle {s : State} {v : Vi} (h : (getVi s v).resetting = true) (hb : viBusy (drainVi v s) v = false) :
    viResetEnd s v = viAsAtReset v (drainVi v s) := by
  rw [viResetEnd, if_neg (by simp [h])]
  exact if_neg (by simp [hb])

theorem getVi_viAsAtReset (v : Vi) (s : State) :
    ∃ x, getVi (viAsAtReset v s) v = keptOver x ∧ getFn (viAsAtReset v s) v = {} :=
  ⟨_, getVi_updVi_same v _, getFn_updFn_same v _ _⟩

/-- Settles O12: the start and the end of a VI reset write the VI last; the rest follows from the run's going on. -/
theorem viResetsComplete : Obligations.ViResetsComplete := by
  refine ⟨fun s v hv h1 h2 h3 h4 => ?flr, fun s p _ _ _ _ => completes_continues rfl rfl, fun s p n h1 h2 h3 => ?numvfs,
    fun s v h => ⟨completes_continues rfl rfl, fun hb => completes_and_continues rfl ?ends⟩,
    fun s p => completes_continues rfl rfl, fun s => completes_continues rfl rfl,
    fun s _ _ _ => ⟨fun n _ => completes_continues rfl rfl, completes_continues rfl rfl, completes_continues rfl rfl,
      fun _ => completes_continues rfl rfl⟩, fun s h1 h2 h3 => ?safe⟩
  case flr =>
    refine completes_and_continues rfl ⟨viResetStart s v, by simp [exec, execVfFlr, Instr.wf, *], ?_⟩
    obtain ⟨x, hx⟩ := getVi_viResetStart s v
    rw [hx]
    exact ⟨rfl, rfl, rfl, rfl, rfl⟩
  case numvfs =>
    exact ⟨updPf p (fun x => { x with numVFs := n.toNat }) s, by simp [exec, execNumvfsWrite, *],
      by rw [getPf_updPf_same], rfl⟩
  case ends =>
    obtain ⟨x, hx, hf⟩ := getVi_viAsAtReset v (drainVi v s)
    exact ⟨_, congrArg Host.Outcome.next (viResetEnd_idle h hb), by rw [hx]; rfl, hf⟩
  case safe =>
    exact ⟨updHp 1 (fun _ => {}) s, by simp [exec, execHotReset, port1Trigger, *], getHp_updHp_same _ _ s, rfl⟩

end Sys2Proof.Proofs

/-! PROOFS. Rails, thermal sensors and the damper (R54 to R68, R600, R613), and fences (R150, R550). -/

namespace Sys2Proof.Proofs

open Sys2Proof.Machine Sys2Proof.Laws

/-! ## A fence holds its unit -/

/-- Past the entry of the unit into the list of fences, what leaves with it lifts none. -/
theorem fence_keeps_entered {u : FUnit} {s : State} (hf : fenceable u = true) (hn : s.fenced.contains u = false) :
    Keeps { s with fenced := s.fenced ++ [u], degraded := true } (fence u s) := by
  unfold fence
  rw [if_neg (by rw [hf, hn]; decide)]
  extract_lets cut v t1 t2 t3 t4 t5
  have h1 : Keeps t1 t1 := .refl t1
  change Keeps t1 _
  clear_value t1
  have h2 : Keeps t1 t2 := by
    subst t2
    cases u
    case engine => exact fenceEngine_keeps h1
    case mover => exact fenceMover_keeps h1
    case hub | memory | rail | kilnNet => exact fenceKiln_keeps h1
    case fport => exact fencePort_keeps h1
    case refclk => exact Keeps.foldl (fun _ _ ht => fencePort_keeps ht) _ h1
    case coll | flueTable | flueNet => exact fenceColls_keeps (Keeps.foldl (fun _ _ ht => fencePort_keeps ht) _ h1)
    all_goals exact h1
  clear_value t2
  have h5 : Keeps t1 t5 := leaveSet_keeps (dropCutFlues_keeps (noticeVis_keeps (Keeps.ite (rehop_keeps h2) h2)))
  exact Keeps.ite (fatal_keeps h5) h5

theorem mem_fenced_fence {u : FUnit} (hf : fenceable u = true) (s : State) : u ∈ (fence u s).fenced := by
  cases hc : s.fenced.contains u with
  | true =>
    have : fence u s = s := if_pos (by rw [hc, Bool.or_true])
    rw [this]
    exact List.contains_iff_mem.1 hc
  | false => exact (fence_keeps_entered hf hc).fenced u (by simp)

theorem fence_unfenceable {u : FUnit} (hf : fenceable u = false) (s : State) : fence u s = s := if_pos (by simp [hf])

/-- A class 1 fault fences its unit (R550). -/
theorem mem_fenced_raise {u : FUnit} {c : Nat} (hc : causeClass c = 1) (hf : fenceable u = true) (n : Nat) (s : State) :
    u ∈ (raise u c n s).fenced := by
  unfold raise
  simp only [hc, if_true]
  exact mem_fenced_fence hf _

/-! ## The clocks and voltages that follow a die's ceiling -/

section
variable {s t : State}

theorem getRail_updRail_other {k j : Kiln} (f : Rails → Rails) (s : State) (h : k ≠ j) :
    getRail (updRail k f s) j = getRail s j := by
  rw [getRail, getRail, updRail_rails, mget_mupd_other _ _ _ fun e => h (Fin.ext e)]

/-- From s to t rails, clocks and outputs alone change, and every ceiling stands. -/
structure CeilingsKept (s t : State) : Prop where
  same : t = { s with engs := t.engs, rails := t.rails, out := t.out }
  ceiling : ∀ k, (getRail t k).ceiling = (getRail s k).ceiling

theorem CeilingsKept.refl (s : State) : CeilingsKept s s := ⟨rfl, fun _ => rfl⟩
theorem CeilingsKept.trans {u : State} (h : CeilingsKept s t) (k : CeilingsKept t u) : CeilingsKept s u :=
  ⟨by rw [k.same, h.same], fun n => (k.ceiling n).trans (h.ceiling n)⟩

theorem updRail_ceilingsKept (k : Kiln) {f : Rails → Rails} (hf : ∀ r, (f r).ceiling = r.ceiling) (s : State) :
    CeilingsKept s (updRail k f s) := by
  refine ⟨rfl, fun j => ?_⟩
  by_cases h : k = j
  · rw [← h, getRail_updRail_same, hf]
  · rw [getRail_updRail_other f s h]

theorem setClock_ceilingsKept (s : State) (e : Eng) : CeilingsKept s (setClock s e) := ⟨rfl, fun _ => rfl⟩

theorem settleDie_ceilingsKept (s : State) (k : Kiln) : CeilingsKept s (settleDie s k) := by
  unfold settleDie
  split
  · exact .refl s
  · extract_lets need r t
    have ht : CeilingsKept s t := foldl_same .refl (fun _ _ _ => .trans) setClock_ceilingsKept _ s
    clear_value t
    split
    · exact ht
    · have he : CeilingsKept t (emit (.vset k need) t) := ⟨rfl, fun _ => rfl⟩
      refine (ht.trans he).trans (updRail_ceilingsKept k ?_ _)
      exact fun _ => rfl

theorem settleAll_ceilingsKept (s : State) : CeilingsKept s (kilns.foldl settleDie s) :=
  foldl_same .refl (fun _ _ _ => .trans) settleDie_ceilingsKept kilns s

/-! ## The damper window (R62, R600, R613) -/

/-- The rails that a window's end leaves for a die, the others standing. -/
theorem getRail_foldl_updRail (f : Rails → Rails) (l : List Kiln) (hl : l.Nodup) (s : State) (k : Kiln) :
    getRail (l.foldl (fun s k => updRail k f s) s) k = if k ∈ l then f (getRail s k) else getRail s k := by
  induction l generalizing s with
  | nil => rfl
  | cons j l ih =>
    rw [List.nodup_cons] at hl
    obtain ⟨hj, hl⟩ := hl
    rw [List.foldl_cons, ih hl]
    by_cases h : k = j
    · subst h
      simp [hj, getRail_updRail_same]
    · simp [h, getRail_updRail_other f s (Ne.symm h)]

/-- Every die's rails are written. -/
theorem getRail_allRails (f : Rails → Rails) (s : State) (k : Kiln) :
    getRail (kilns.foldl (fun s k => updRail k f s) s) k = f (getRail s k) := by
  rw [getRail_foldl_updRail f kilns (List.nodup_finRange 16)]
  exact if_pos (List.mem_finRange k)

theorem allRails_same (f : Rails → Rails) (s : State) :
    ∃ r, kilns.foldl (fun s k => updRail k f s) s = { s with rails := r } :=
  foldl_same (P := fun s t => ∃ r, t = { s with rails := r }) (fun s => ⟨s.rails, rfl⟩)
    (fun s t u ⟨a, h⟩ ⟨b, k⟩ => ⟨b, by rw [k, h]⟩) (fun s k => ⟨_, rfl⟩) kilns s

/-- The ceiling of a die by the window that ends (R62). -/
def nextCeiling (budget watts : Nat) (r : Rails) : Rails :=
  { r with
    ceiling := if watts > budget || r.hot then r.ceiling - 1
      else if 100 * watts ≤ 95 * budget && !r.notCool then min (r.ceiling + 1) 18
      else r.ceiling }

theorem stepCeiling_eq (s : State) (w : Nat) (k : Kiln) : stepCeiling s w k = updRail k (nextCeiling s.winBudget w) s := rfl

/-- The steps of a window read the one budget. -/
theorem foldl_stepCeiling (w : Nat) (l : List Kiln) (s : State) :
    l.foldl (fun s k => stepCeiling s w k) s = l.foldl (fun t k => updRail k (nextCeiling s.winBudget w) t) s := by
  induction l generalizing s with
  | nil => rfl
  | cons k l ih => rw [List.foldl_cons, ih]; rfl

/-- The ceilings as a window's end writes them: stepped in DAMPED mode, 18 otherwise. -/
def ceilingOf (s : State) (w : Nat) (r : Rails) : Rails :=
  if fget s .damperMode = 1 ∧ s.damped = true then nextCeiling s.winBudget w r else { r with ceiling := 18 }

/-- The ceilings step, before clocks and voltages follow. -/
theorem damperStep_ceilings (w : Nat) (s : State) : damperStep w s = kilns.foldl settleDie
    (if fget s .damperMode == 1 && s.damped then kilns.foldl (fun s k => stepCeiling s w k) s
      else { kilns.foldl (fun s k => updRail k (fun r => { r with ceiling := 18 }) s) s with
        damped := fget s .damperMode == 1 }) := rfl

theorem damperStep_eq (w : Nat) (s : State) : damperStep w s = kilns.foldl settleDie
    { kilns.foldl (fun t k => updRail k (ceilingOf s w) t) s with damped := fget s .damperMode == 1 } := by
  rw [damperStep_ceilings]
  by_cases h : fget s .damperMode = 1 ∧ s.damped = true
  · obtain ⟨r, hr⟩ := allRails_same (nextCeiling s.winBudget w) s
    have hf : ceilingOf s w = nextCeiling s.winBudget w := funext fun _ => if_pos h
    have hd : (fget s .damperMode == 1) = s.damped := by simp [h]
    rw [if_pos (by simp [h]), foldl_stepCeiling, hf, hr, hd]
  · have hf : ceilingOf s w = fun r => { r with ceiling := 18 } := funext fun _ => if_neg h
    rw [if_neg (by simpa using h), hf]

theorem openWindow_ceilingsKept (s : State) (k : Kiln) : CeilingsKept s (openWindow s k) := by
  refine updRail_ceilingsKept k ?_ s
  exact fun _ => rfl

theorem openAll_ceilingsKept (s : State) : CeilingsKept s (kilns.foldl openWindow s) :=
  foldl_same .refl (fun _ _ _ => .trans) openWindow_ceilingsKept kilns s

theorem CeilingsKept.fget (h : CeilingsKept s t) (f : F) (i : Nat) : fget t f i = fget s f i := by
  rw [h.same]
  rfl

theorem getRail_nextWindow (s : State) (k : Kiln) : getRail (nextWindow s) k = getRail (kilns.foldl openWindow s) k := by
  rw [getRail, getRail, nextWindow]

/-- What a window's end leaves: ceilings and the clocks and voltages that follow, and the next window's limits. -/
theorem nextWindow_damperStep (w : Nat) (s : State) : ∃ r e o, nextWindow (damperStep w s) = { s with
      damped := fget s .damperMode == 1, rails := r, engs := e, out := o
      winBudget := fget s .budget, winLimit := fget s .tempLimit } ∧
    ∀ k, (getRail (nextWindow (damperStep w s)) k).ceiling = (ceilingOf s w (getRail s k)).ceiling := by
  obtain ⟨r, hr⟩ := allRails_same (ceilingOf s w) s
  have hc (k : Kiln) := getRail_allRails (ceilingOf s w) s k
  rw [hr] at hc
  obtain ⟨u, hu⟩ : ∃ u : State, u = { s with rails := r, damped := fget s .damperMode == 1 } := ⟨_, rfl⟩
  have h1 : CeilingsKept u (damperStep w s) := by
    rw [damperStep_eq, hr, hu]
    exact settleAll_ceilingsKept _
  have h2 := h1.trans (openAll_ceilingsKept _)
  have hbudget : fget (damperStep w s) .budget 0 = fget s .budget 0 := by rw [h1.fget, hu]; rfl
  have hlimit : fget (damperStep w s) .tempLimit 0 = fget s .tempLimit 0 := by rw [h1.fget, hu]; rfl
  refine ⟨(kilns.foldl openWindow (damperStep w s)).rails, (kilns.foldl openWindow (damperStep w s)).engs,
    (kilns.foldl openWindow (damperStep w s)).out, ?_, fun k => ?_⟩
  · rw [nextWindow, hbudget, hlimit, h2.same, hu]
  · rw [getRail_nextWindow, h2.ceiling, ← hc, hu]
    rfl

/-! ## Thermal samples (R61) -/

/-- What a reading below its trip does to the rails of the dies that it affects. -/
theorem oneReading_below {i : Fin 78} {x : Int} (h : x < tripAt i) (s : State) :
    ∃ r, oneReading s (i, x) = { s with temps := mset none s.temps i.val (some x), rails := r } := by
  unfold oneReading
  dsimp only
  rw [if_neg (by omega)]
  exact foldl_same (P := fun s t => ∃ r, t = { s with rails := r }) (fun s => ⟨s.rails, rfl⟩)
    (fun s t u ⟨a, h⟩ ⟨b, k⟩ => ⟨b, by rw [k, h]⟩) (fun s k => ⟨_, rfl⟩) (affects i)
    { s with temps := mset none s.temps i.val (some x) }

/-- A reading at its alert threshold asserts THERM_ALERT_N. -/
theorem alertPin_of_alert {s : State} {i : Fin 78} {x : Int} (ht : mget none s.temps i.val = some x) (h : alertAt i ≤ x) :
    alertPin s = true := by
  unfold alertPin
  refine if_pos (List.any_eq_true.2 ⟨i, List.mem_finRange i, ?_⟩)
  rw [ht]
  exact decide_eq_true h

/-- Settles O13: each clause is one meaning run on its branch; the run goes on by `completes_continues`. -/
theorem railsAndThermalComplete : Obligations.RailsAndThermalComplete := by
  refine ⟨fun s l _ => completes_continues rfl rfl, fun s i x h1 h2 h3 h4 => ?alert, fun s w h => ?window,
    fun s k c h hk => ?good, fun s k h hk => ?timeout, fun s k b h hb => ?alertPin, fun s k n b h hn => ?kiln,
    fun s r n b h hn hr => ?shared, fun s e h he => ?clock⟩
  case alert =>
    obtain ⟨r, hr⟩ := oneReading_below h4 s
    have hread : mget none (mset none s.temps i.val (some x)) i.val = some x := mget_mset_same _ _ _ _
    have hpin : alertPin (oneReading s (i, x)) = true := alertPin_of_alert (by rw [hr]; exact hread) h3
    have hoff : powered (updBoard (fun b => { b with thermAlert := true }) (oneReading s (i, x))) = false := by
      rw [hr]
      exact h2
    refine ⟨updBoard (fun b => { b with thermAlert := true }) (oneReading s (i, x)), ?_, ?_⟩
    · simp [exec, execThermalSample, h1, hpin, hoff]
    · rw [hr]
      exact ⟨hread, rfl, rfl⟩
  case window =>
    have hgood : s.board.pwrgood = true := by simp only [powered, Bool.and_eq_true] at h; exact h.1.1
    obtain ⟨r, e, o, hw, hc⟩ := nextWindow_damperStep w s
    refine ⟨nextWindow (damperStep w s), by simp [exec, execDamperWindowEnd, hgood, h], ?_⟩
    refine ⟨by rw [hw], fun k => ?_, by rw [hw], by rw [hw], by rw [hw]⟩
    rw [hc, ceilingOf, stepCeiling_eq, getRail_updRail_same]
    by_cases hd : s.damped = true ∧ fget s .damperMode = 1
    · rw [if_pos hd, if_pos hd.symm]
    · rw [if_neg hd, if_neg (mt And.symm hd)]
  case good =>
    obtain ⟨e, r, o, hs⟩ := settleDie_same (updRail k (fun r => { r with code := c, pend := none }) s) k
    exact ⟨settleDie (updRail k (fun r => { r with code := c, pend := none }) s) k,
      by simp [exec, execRailPowerGood, h, hk], rfl, by rw [hs]; rfl⟩
  case timeout =>
    exact completes_and_continues rfl ⟨raise (.rail k) 0x23 0xFF (updRail k (fun r => { r with pend := none }) s),
      by simp [exec, execVsetPgTimeout, h, hk], mem_fenced_raise (by decide) rfl _ _⟩
  case alertPin =>
    exact completes_and_continues rfl ⟨raise (.rail k) 0x23 b.toNat s, by simp [exec, execVsetAlert, h, hb],
      mem_fenced_raise (by decide) rfl _ _⟩
  case kiln =>
    exact completes_and_continues rfl ⟨raise (.rail k) 0x23 (b.toNat + 256) s, by simp [exec, execRailOut, h, hn],
      mem_fenced_raise (by decide) rfl _ _⟩
  case shared =>
    exact completes_and_continues rfl ⟨raise .sharedRails 0x61 r.val s, by simp [exec, execRailOut, h, hn, hr],
      raise_safe _ _ _ (by decide)⟩
  case clock =>
    refine ⟨setClock s e, by simp [exec, execClockChange, h, he], ?_⟩
    have hclk : eng (setClock s e) e = { eng s e with
        want := wantClock s e, clk := min (wantClock s e) (maxClock s (kilnOf e) (getRail s (kilnOf e)).code) } :=
      eng_updEng_same e _
    exact ⟨by rw [hclk], by rw [hclk], rfl⟩

end

end Sys2Proof.Proofs

/-! PROOFS. Islands and lane groups (R71, R83 to R94). -/

namespace Sys2Proof.Proofs

open Sys2Proof.Machine Sys2Proof.Laws

/-! ## The lane groups of a direction -/

theorem lanesOf_updLanes_same (l : Link) (up : Bool) (f : Lanes → Lanes) (s : State) :
    lanesOf (updLanes l up f s) l up = f (lanesOf s l up) := mget_mupd_same ({} : Lanes) s.lanes _ f

theorem laneKey_up_ne_down (l : Link) : laneKey l false ≠ laneKey l true := by
  simp [laneKey, b2n]

theorem lanesOf_updLanes_true_false (l : Link) (f : Lanes → Lanes) (s : State) :
    lanesOf (updLanes l true f s) l false = lanesOf s l false :=
  mget_mupd_other ({} : Lanes) s.lanes f (laneKey_up_ne_down l).symm

theorem unfenced_of_laneUsed {s : State} {l : Lane} (h : laneUsed s l = true) : linkFenced s l.link = false := by
  simp only [laneUsed, Bool.and_eq_true, Bool.not_eq_true'] at h
  exact h.1.1

/-- What the first failure of a used group leaves. -/
def SparesGroup (s : State) (l : Lane) (t : State) : Prop :=
  (lanesOf t l.link l.up).failed = [l.group] ∧ (lanesOf t l.link l.up).spared = some l.group ∧
    t = { s with lanes := t.lanes, wires := t.wires, flt := t.flt, fld := t.fld }

/-- The first failing group of a direction is spared (R85). -/
theorem laneFail_first {s : State} {l : Lane} (hl : linkFenced s l.link = false) (hg : l.group.val < 4)
    (hx : (lanesOf s l.link l.up).failed = []) : SparesGroup s l (laneFail l s) := by
  unfold laneFail
  simp only [hl, hx, hg, List.contains_nil, Bool.or_false, Bool.false_eq_true, List.isEmpty_nil, if_true, if_false]
  generalize hu : updLanes l.link l.up _ _ = u
  have hlanes : (lanesOf u l.link l.up).failed = [l.group] ∧ (lanesOf u l.link l.up).spared = some l.group := by
    rw [← hu, lanesOf_updLanes_same]
    exact ⟨rfl, rfl⟩
  obtain ⟨f, g, h⟩ := report_same (.link l.link) 0x01 (l.group.val + 8 * b2n l.up) none none u
  rw [h]
  refine ⟨hlanes.1, hlanes.2, ?_⟩
  rw [← hu]
  rfl

/-- The state in which an ACK_ERR has been counted. -/
def ackErrCounted (l : Lane) (s : State) : State :=
  updLanes l.link l.up (fun x => { x with
    window := mset 0 x.window l.group.val (mget 0 (lanesOf s l.link l.up).window l.group.val + 1) }) s

theorem window_ackErrCounted (l : Lane) (s : State) : mget 0 (lanesOf (ackErrCounted l s) l.link l.up).window l.group.val
    = mget 0 (lanesOf s l.link l.up).window l.group.val + 1 := by
  rw [ackErrCounted, lanesOf_updLanes_same]
  simp

theorem execFlitAckErr_used {s : State} {l : Lane} (n : Nat) (hk : l.link.ok = true) (hp : powered s = true)
    (hu : laneUsed s l = true) : exec (.flitAckErr l n) s = .next
      (if n ≥ 3 || mget 0 (lanesOf s l.link l.up).window l.group.val + 1 ≥ 16 then laneFail l (ackErrCounted l s)
      else emit (.retry l) (updWire l.link l.up
        (nackHalf (lanesOf (ackErrCounted l s) l.link l.up) l.group) (ackErrCounted l s))) := by
  simp [exec, execFlitAckErr, Instr.wf, hk, hp, hu, ackErrCounted]

/-! ## Islands -/

theorem unpark_same (i : Island) (s : State) : unpark i s =
    { s with pllParked := (unpark i s).pllParked, parked := (unpark i s).parked, parkAt := (unpark i s).parkAt } := rfl
theorem not_mem_pllParked_unpark (i : Island) (s : State) : i ∉ (unpark i s).pllParked := by simp [unpark]
theorem not_mem_parked_unpark (i : Island) (s : State) : i ∉ (unpark i s).parked := by simp [unpark]

/-- An island's reset ends with the island taken from each list of those that do not run. -/
theorem resetIsland_returns (i : Island) (s : State) : i ∉ (resetIsland i s).parked ∧
    i ∉ (resetIsland i s).pllParked ∧ i ∉ (resetIsland i s).stopped := by
  obtain ⟨u, hu⟩ : ∃ u : State, resetIsland i s = unpark i { u with stopped := u.stopped.filter fun j => j != i } :=
    ⟨_, rfl⟩
  rw [hu]
  refine ⟨not_mem_parked_unpark i _, not_mem_pllParked_unpark i _, ?_⟩
  simp [unpark]

/-- Settles O14: a group that fails first is spared, an ACK_ERR below the limits is answered on the same half, and parked
and stopped islands are entries of lists that relock and reset filter. -/
theorem islandsComplete : Obligations.IslandsComplete := by
  unfold Obligations.IslandsComplete
  refine ⟨fun s l n hk hp hu hn hw => ?_, fun s l n hk hp hu hn hg hx => ?_, fun s l hk hp hu hg hx => ?_,
    fun s l hk => ?_, fun s l hk _ _ => completes_continues hk rfl, fun s i hp hi hq ht => ?_, fun s i hq => ?_,
    fun s i _ _ _ => completes_continues rfl rfl, fun s i u _ _ _ _ => completes_continues rfl rfl, fun s i hp => ?_,
    fun s f hp hs hf => ?_⟩
  · rw [Completes, execFlitAckErr_used n hk hp hu]
    rw [if_neg (by simp; omega)]
    exact ⟨_, rfl, rfl, rfl, window_ackErrCounted l s⟩
  · rw [Completes, execFlitAckErr_used n hk hp hu]
    rw [if_pos (by simp; omega)]
    have hx' : (lanesOf (ackErrCounted l s) l.link l.up).failed = [] := by
      rw [ackErrCounted, lanesOf_updLanes_same]
      exact hx
    obtain ⟨hfail, hspare, hsame⟩ :=
      laneFail_first (s := ackErrCounted l s) (unfenced_of_laneUsed (s := s) hu) hg hx'
    exact ⟨_, rfl, hfail, hspare, hsame⟩
  · refine ⟨laneFail l s, ?_, laneFail_first (unfenced_of_laneUsed hu) hg hx⟩
    simp [exec, execEzbenPhaseTimeout, Instr.wf, hk, hp, hu]
  · refine ⟨updLanes l true (fun x => { x with window := [] }) (updLanes l false (fun x => { x with window := [] }) s),
      by simp [exec, execEzbenErrorWindowEnd, Instr.wf, hk], ?_, ?_, rfl⟩
    · rw [lanesOf_updLanes_same]
    · rw [lanesOf_updLanes_true_false, lanesOf_updLanes_same]
  · refine ⟨{ s with
      pllParked := s.pllParked ++ [i], parked := s.parked ++ [i], parkAt := s.parkAt ++ [(i, s.nowNs)] },
      by simp only [exec, execPllLockLoss, hp, hq, ht, bne_iff_ne.2 hi]; rfl, ?_, rfl⟩
    simp [islandRuns]
  · refine ⟨unpark i s, by rw [exec, execPllRelock, if_pos hq], not_mem_pllParked_unpark i s,
      not_mem_parked_unpark i s, fun ht => ?_, unpark_same i s⟩
    simpa [islandRuns, unpark] using ht
  · refine completes_and_continues rfl ⟨resetIsland i s, by rw [exec, execIslandReset, if_pos hp], ?_⟩
    exact resetIsland_returns i s
  · refine completes_and_continues rfl ⟨raise (.refclk f) 0x27 0 s, ?_, mem_fenced_raise (by decide) rfl 0 s⟩
    rw [exec, execRefclkLost, if_pos (by rw [hp, hs, hf]; rfl)]

end Sys2Proof.Proofs

/-! PROOFS. The boot steps (R99 to R125). -/

namespace Sys2Proof.Proofs

open Sys2Proof.Machine Sys2Proof.Laws

theorem latchSafe_same (s : State) :
    ∃ b r f, latchSafe s = { s with boot := b, resetting := r, flt := f } := by
  unfold latchSafe
  split
  · exact ⟨s.boot, s.resetting, s.flt, rfl⟩
  · exact ⟨_, _, _, rfl⟩

/-- A class 3 fault leaves all but the collector's state and what SAFE changes. -/
theorem raise_safe_same (u : FUnit) {c : Nat} (n : Nat) (s : State) (h : causeClass c = 3) :
    ∃ b r f g, raise u c n s = { s with boot := b, resetting := r, flt := f, fld := g } := by
  unfold raise
  simp only [h, if_true, show ¬ (3 = 1) by omega, if_false]
  obtain ⟨f, g, hr⟩ := report_same u c n ((unitVi s u).map Fin.val) ((unitVi s u).bind (partOf s)) s
  obtain ⟨b, r, f', hl⟩ := latchSafe_same (report u c n ((unitVi s u).map Fin.val) ((unitVi s u).bind (partOf s)) s)
  exact ⟨b, r, f', g, by rw [hl, hr]⟩

/-- A report leaves the image that was taken. -/
theorem report_image (u : FUnit) (c n : Nat) (v p : Option Nat) (s : State) : (report u c n v p s).bootSlot = s.bootSlot ∧
    (report u c n v p s).fwVer = s.fwVer ∧ (report u c n v p s).fwBody = s.fwBody := by
  obtain ⟨f, g, h⟩ := report_same u c n v p s
  rw [h]
  exact ⟨rfl, rfl, rfl⟩

/-! ## The entry into FIRED -/

/-- From the written state and generation on, what the entry into FIRED does keeps both, but for SAFE. -/
theorem enterFired_keeps (s : State) : ∃ u, u.boot = .fired ∧ u.generation = s.generation + 1 ∧ u.fenced = s.fenced ∧
    u.out = s.out ∧ Keeps u (enterFired s) := by
  unfold enterFired
  extract_lets b u v
  refine ⟨u, rfl, rfl, rfl, rfl, startAll_keeps (Keeps.foldl (fun _ _ k => updVi_keeps k) _ ?_)⟩
  exact Keeps.foldl (fun _ _ k => startPort_keeps k) _ (unfreezeLog_keeps (.refl u))

/-! ## The staged image -/

/-- A 64-bit write of BOOT_CTL gives the image's place whole; one of its low half keeps the upper bits of STAGE_OFFSET. -/
theorem stagePlace (w : U64) (s : State) (low : Bool) :
    bits (bootCtlWord w low s).toNat 21 27 =
      if low then bits w.toNat 21 11 + fget s .stageOffset / 2 ^ 11 % 2 ^ 16 * 2 ^ 11 else bits w.toNat 21 27 := by
  cases low with
  | false => rfl
  | true =>
    simp only [bootCtlWord, bits, if_true, BitVec.toNat_ofNat]
    omega

/-- What STAGE writes before it looks at its start bit, in FIRED. -/
theorem bootCtlFields_fired {s : State} (h : s.boot = .fired) (w : U64) :
    bootCtlFields w s = fset .stageOffset 0 (bits w.toNat 21 27) s := by
  simp [bootCtlFields, h]

theorem boot_of_running {s : State} (h : running s = true) : s.boot = .fired := by
  simp only [running, Bool.and_eq_true, beq_iff_eq] at h
  exact h.2

theorem execStage_starts {s : State} {w : U64} (low : Bool) (ha : answers s vi0 = true) (hr : running s = true)
    (hn : staging s = false) (h2 : bitAt w.toNat 2 = false) (h3 : bitAt w.toNat 3 = true) :
    exec (.stage vi0 w low) s = .next { fset .stageOffset 0 (bits (bootCtlWord w low s).toNat 21 27) s with
      stage := .checking, stageTries := 0, stageAt := bits (bootCtlWord w low s).toNat 21 27 } := by
  have hs : stageNow (fset .stageOffset 0 (bits (bootCtlWord w low s).toNat 21 27) s) =
      { fset .stageOffset 0 (bits (bootCtlWord w low s).toNat 21 27) s with
        stage := .checking, stageTries := 0, stageAt := bits (bootCtlWord w low s).toNat 21 27 } := by
    rw [stageNow, if_neg, fget_fset_same]
    change ¬ ((!running s || staging s) = true)
    rw [hr, hn]
    decide
  simp only [exec, execStage, ha, hr, h2, h3, bootCtlFields_fired (boot_of_running hr), hs]
  rfl

/-! ## GO -/

theorem adoptOf_bootCtlFields {s : State} (h : s.boot = .glazing) (w : U64) :
    fget (bootCtlFields w s) .bootAdopt = bits w.toNat 1 1 := by
  simp only [bootCtlFields, h, if_true]
  rw [fget_fset_other _ (by decide) (by decide) (.inl (by decide)), fget_fset_same]

theorem bootCtlFields_same (w : U64) (s : State) : ∃ f, bootCtlFields w s = { s with fld := f } := by
  unfold bootCtlFields
  split <;> exact ⟨_, rfl⟩

theorem execGo_starts {s : State} {w : U64} (ha : answers s vi0 = true) (hp : powered s = true) (hb : s.boot = .glazing)
    (hg : s.going = none) (h2 : bitAt w.toNat 2 = false) (h0 : bitAt w.toNat 0 = true) : exec (.go vi0 w) s = .next
      (if bits w.toNat 1 1 = 1 then adopt (bootCtlFields w s) else fillMemory (bootCtlFields w s)) := by
  have hs : goNow (bootCtlFields w s) =
      if bits w.toNat 1 1 = 1 then adopt (bootCtlFields w s) else fillMemory (bootCtlFields w s) := by
    rw [goNow, adoptOf_bootCtlFields hb, if_neg]
    obtain ⟨f, hf⟩ := bootCtlFields_same w s
    rw [hf]
    change ¬ ((!(powered s && s.boot == .glazing && s.going.isNone)) = true)
    rw [hp, hb, hg]
    decide
  simp only [exec, execGo, ha, hp, hb, h2, h0, hs]
  rfl

theorem adopt_matching {s : State} {r : RetRec} {l : List RetRec} (hr : s.records = r :: l) (ha : adoptable s = true)
    (hl : r.layoutCrc = layoutCrc s) (hk : r.fencedKiln = fencedKilns s) :
    adopt s = { s with
      records := recSeal { r with valid := 2 } :: l, going := some true, board := { s.board with selfRefresh := false } } := by
  simp only [adopt, hr, ha, hl, hk, updRec0]
  simp

theorem recOk_recSeal (r : RetRec) : recOk (recSeal r) = true := beq_self_eq_true _

/-! ## The sectors of a staged image -/

theorem sectorDone_gate {s : State} (h : running s = true) (hs : s.stage = .saving ∨ s.stage = .writing) :
    (!(running s && (s.stage == .saving || s.stage == .writing))) = false := by
  rcases hs with hs | hs <;> rw [h, hs] <;> rfl

/-- Settles O15: each boot step is its definition's branch, with the frame of the reports and faults it makes. -/
theorem bootCommandsComplete : Obligations.BootCommandsComplete := by
  unfold Obligations.BootCommandsComplete
  refine ⟨fun s ls fs hw hp hb ht => ?_, fun s n i hp hb ht hn => ?_, fun s n hp hb ht hn => ?_,
    fun s w ha hp hb hg h2 h0 => ?_, fun s hp hb hg => ?_, fun s w low ha hr hn h2 h3 => ?_, fun s hr hs => ⟨?_, ?_⟩,
    fun s last n hr => ⟨fun hs => ?_, fun hs => ?_, fun hs => ?_, fun hs => ?_⟩⟩
  · have hg : (!(powered s && s.boot == .bisque && !s.selfTested)) = false := by
      rw [hp, hb, ht]
      rfl
    simp only [Completes, exec, execSelfTest, hw, hg, Bool.not_true, Bool.false_eq_true, if_false]
    refine ⟨_, rfl, rfl, rfl, fun hc hf => ?_, fun hc hl hf => ?_⟩
    · rw [hc, hf, if_neg Bool.false_ne_true, List.foldl_nil]
    · rw [hc, hl, hf, if_pos rfl, List.foldl_nil, List.foldl_nil]
  · have hg : (!(powered s && s.boot == .bisque && s.selfTested && nextSlot s == some n)) = false := by
      rw [hp, hb, ht, hn]
      simp
    simp only [Completes, exec, execImageCheck, hg, Bool.false_eq_true, if_false]
    refine ⟨_, rfl, fun hi => ?_, fun hi he => ?_, fun hi he => ?_⟩
    · rw [if_pos hi]
      by_cases hr : s.rejected = []
      · rw [if_pos (by rw [hr]; rfl)]
        exact ⟨rfl, rfl, rfl, fun _ => rfl⟩
      · rw [if_neg (by simpa using hr)]
        obtain ⟨hslot, hver, hbody⟩ := report_image .bootRom 0x02 (firstSlot s).val none none
          { s with bootSlot := some n, fwVer := BitVec.ofNat 32 (imgField i 0x08 4), fwBody := i.body, bootErr := .slotFallback }
        exact ⟨hslot, hver, hbody, fun h => absurd h hr⟩
    · simp [hi, he]
    · have hl : ¬ (s.rejected ++ [n]).length < 2 := by
        have := List.length_pos_iff.2 he
        simp
        omega
      simp only [hi, Bool.false_eq_true, if_false, hl]
      exact raise_safe _ _ _ (by decide)
  · have hg : (!(powered s && s.boot == .bisque && s.selfTested && s.bootSlot == some n)) = false := by
      rw [hp, hb, ht, hn]
      simp
    simp only [Completes, exec, execVendorImageLoad, hg, Bool.false_eq_true, if_false]
    refine ⟨_, rfl, fun hv => ?_, fun hv => ?_⟩
    · rw [if_pos hv]
      exact ⟨rfl, rfl, rfl, rfl, rfl⟩
    · rw [if_neg (by rw [hv]; decide)]
      refine ⟨raise_safe _ _ _ (by decide), ?_⟩
      obtain ⟨b, r, f, g, h⟩ := raise_safe_same .mgmt 0 { s with vendorSt := 2 } (c := 0x66) (by decide)
      rw [h]
      exact ⟨rfl, rfl⟩
  · refine ⟨_, execGo_starts ha hp hb hg h2 h0, fun ha => ?_, fun ha r l hr hok hl hk => ?_⟩
    · rw [if_neg (by omega)]
      obtain ⟨f, hf⟩ := bootCtlFields_same w s
      rw [hf]
      unfold fillMemory
      split <;> exact ⟨rfl, rfl, rfl, hb⟩
    · have hrec : (bootCtlFields w s).records = r :: l := by
        obtain ⟨f, hf⟩ := bootCtlFields_same w s
        rw [hf, hr]
      have hkiln : fencedKilns (bootCtlFields w s) = fencedKilns s := by
        obtain ⟨f, hf⟩ := bootCtlFields_same w s
        rw [hf]
        rfl
      rw [if_pos ha, adopt_matching hrec hok hl (hk.trans hkiln.symm)]
      obtain ⟨f, hf⟩ := bootCtlFields_same w s
      exact ⟨rfl, by rw [hf], _, rfl, rfl, recOk_recSeal _⟩
  · obtain ⟨u, hboot, hgen, hfenced, hout, k⟩ := enterFired_keeps s
    refine ⟨enterFired s, by rw [exec, execEnterFired, if_pos (by rw [hp, hb, hg]; rfl)], hboot ▸ k.boot,
      k.generation.trans hgen, fun x hx => k.fenced x (hfenced ▸ hx), hout ▸ k.out⟩
  · refine ⟨_, execStage_starts low ha hr hn h2 h3, rfl, rfl, fun hl => ?_, fun hl => ?_, rfl⟩
    · exact (stagePlace w s low).trans (if_neg (by simp [hl]))
    · exact (stagePlace w s low).trans (if_pos hl)
  · intro i hi hok
    simp [stageCheck, hr, hs, hi, hok]
  · intro hbad
    cases hi : stagedImage s with
    | none => simp [stageCheck, hr, hs, hi]
    | some i => simp [stageCheck, hr, hs, hi, hbad i hi]
  · refine ⟨_, by simp only [exec, execStageSectorDone, sectorDone_gate hr (.inl hs)]; rfl, ?_⟩
    simp [emit, hs]
  · refine ⟨_, by simp only [exec, execStageSectorDone, sectorDone_gate hr (.inr hs)]; rfl, ?_⟩
    simp [emit, hs]
  · exact ⟨_, by simp only [exec, execStageSectorDone, sectorDone_gate hr hs]; rfl, rfl⟩
  · simp only [Completes, exec, execStageSectorDone, sectorDone_gate hr hs, Bool.false_eq_true, if_false]
    refine ⟨_, rfl, fun ht => if_pos ht, fun ht => ?_⟩
    rw [if_neg (by omega)]
    generalize hu : ({ s with stage := .failed, bootErr := .stageFlash } : State) = u
    obtain ⟨f, g, h⟩ := report_same .spi 0x0F
      ((if s.stage = .saving then otherSlot (firstSlot s) else firstSlot s).val + 256 * n.toNat) none none u
    rw [h, ← hu]
    exact ⟨rfl, rfl⟩

end Sys2Proof.Proofs

/-! PROOFS. What the ring engine's requests change: its VIs, its lines and directory, its messages, and no port's state. -/

namespace Sys2Proof.Proofs

open Sys2Proof.Machine Sys2Proof.Laws

/-- Engine e has a routine past its commit (R349). -/
def pastCommit (s : State) (e : Eng) : Bool := (runOf s e).any fun r => r.phase == .post

/-- From s to t no routine comes to be past its commit. -/
def NoCommit (s t : State) : Prop := ∀ e, pastCommit t e = true → pastCommit s e = true

theorem NoCommit.of_engs {s t : State} (h : t.engs = s.engs) : NoCommit s t := fun e hp => by
  rwa [pastCommit, runOf, eng, h] at hp

theorem NoCommit.trans {s t u : State} (h : NoCommit s t) (k : NoCommit t u) : NoCommit s u := fun e hp => h e (k e hp)

/-- A change of an engine that leaves its routine where it is, or ends it, commits nothing. -/
theorem NoCommit.updEng {f : EngSt → EngSt} (hf : ∀ x, (f x).run.any (fun r => r.phase == .post) = true →
    x.run.any (fun r => r.phase == .post) = true) (e : Eng) (s : State) : NoCommit s (Machine.updEng e f s) := fun g hp => by
  rw [pastCommit, runOf] at hp ⊢
  by_cases h : e = g
  · subst h
    rw [eng_updEng_same] at hp
    exact hf _ hp
  · rwa [eng_updEng_other _ h] at hp

/-- From s to t nothing changes but what the ring engine, the home and the holders keep, and what they report. -/
structure Ringwise (s t : State) : Prop where
  same : t = { s with
    vis := t.vis, fns := t.fns, engs := t.engs, hl := t.hl, dir := t.dir, aged := t.aged, mesh := t.mesh, hret := t.hret
    lruCtr := t.lruCtr, out := t.out, fld := t.fld, flt := t.flt }
  fields : FieldsBut s t [.missed] := by exact fun _ _ _ _ => rfl
  runs : NoCommit s t := by exact fun _ h => h

namespace Ringwise

variable {s t u : State}

theorem refl (s : State) : Ringwise s s := .mk rfl
theorem trans (h : Ringwise s t) (k : Ringwise t u) : Ringwise s u := 
  ⟨by rw [k.same, h.same], fun f i hi hf => (k.fields f i hi hf).trans (h.fields f i hi hf), h.runs.trans k.runs⟩
theorem ite {c : Prop} [Decidable c] (h : Ringwise s t) (k : Ringwise s u) : Ringwise s (if c then t else u) := by
  split <;> assumption
theorem foldl {α : Type} {f : State → α → State} (hf : ∀ s x, Ringwise s (f s x)) (l : List α) (s : State) :
    Ringwise s (l.foldl f s) := foldl_same refl (fun _ _ _ => trans) hf l s
theorem pfs (h : Ringwise s t) : t.pfs = s.pfs := by rw [h.same]

end Ringwise

/-- A report that enters its latch or is counted changes no field but the count of the missed ones. -/
theorem report_fieldsBut (u : FUnit) (c n : Nat) (v p : Option Nat) (s : State) : FieldsBut s (report u c n v p s) [.missed] := by
  intro f i hi hf
  have hm (t : State) : fget (fcount .missed 0 16 1 t) f i = fget t f i :=
    fset_fieldsBut (by decide) .missed _ t f i hi hf
  unfold report
  split
  · rfl
  · split
    · rw [hm]
      rfl
    · rw [hm]

section
variable (s : State)

/-! ## Reports and messages -/

theorem report_ringwise (u : FUnit) (c n : Nat) (v p : Option Nat) : Ringwise s (report u c n v p s) := by
  obtain ⟨f, g, h⟩ := report_same u c n v p s
  exact ⟨by rw [h], report_fieldsBut u c n v p s, .of_engs (by rw [h])⟩

theorem raiseVec_ringwise (v : Vi) (n : Fin 4) : Ringwise s (raiseVec v n s) := by
  obtain ⟨o, f, h⟩ := raiseVec_same v n s
  rw [h]
  exact .mk rfl

theorem raiseCompletion_ringwise (v : Vi) : Ringwise s (raiseCompletion v s) := .ite (.mk rfl) (raiseVec_ringwise s _ _)

theorem forget_ringwise (p : Who → Bool) : Ringwise s (forget p s) := .mk rfl
theorem updVi_ringwise (v : Vi) (f : ViSt → ViSt) : Ringwise s (updVi v f s) := .mk rfl
theorem emit_ringwise (e : Emit) : Ringwise s (emit e s) := .mk rfl

theorem stopVi_ringwise (v : Vi) (c : Nat) (p : Bool) : Ringwise s (stopVi v c p s) := by
  unfold stopVi
  refine .trans (.trans ?_ (emit_ringwise _ _)) (raiseVec_ringwise _ _ _)
  exact .trans (updVi_ringwise s v _) (forget_ringwise _ _)

theorem stopRing_ringwise (v : Vi) (c : Nat) (p : Bool) : Ringwise s (stopRing v c p s) :=
  .ite (.refl s) (.trans (report_ringwise s _ _ _ _ _) (stopVi_ringwise _ _ _ _))

theorem sendHome_ringwise (h : Holder) (l : LineA) (m : String) (n : Nat) (d : Option (Block × Bool × Bool)) :
    Ringwise s (sendHome h l m n d s) := by
  unfold sendHome
  split
  · exact .mk rfl
  · exact .refl s

theorem toHolder_ringwise (h : Holder) (l : LineA) (m : String) (d : Option (Block × Bool)) :
    Ringwise s (toHolder h l m d s) := by
  unfold toHolder
  split
  · exact .mk rfl
  · exact .refl s

/-! ## The home, for a line that the ring engine writes -/

theorem sendAll_ringwise (hs : List Holder) (l : LineA) (m : String) : Ringwise s (sendAll hs l m s) :=
  .foldl (fun t h => toHolder_ringwise t h l m none) hs s

theorem recallLine_ringwise (l : LineA) : Ringwise s (recallLine l s) :=
  .trans (.trans (.mk rfl) (sendAll_ringwise _ _ _ _)) (sendAll_ringwise _ _ _ _)

theorem serveRingWrite_ringwise (l : LineA) (b : Block) (w : Who) : Ringwise s (serveRingWrite l b w s) :=
  .ite (.mk rfl) (.trans (.trans (.mk rfl) (sendAll_ringwise _ _ _ _)) (sendAll_ringwise _ _ _ _))

theorem retryReq_ringwise (a : Aged) (n : Nat) : Ringwise s (retryReq a n s) := .ite (.mk rfl) (toHolder_ringwise _ _ _ _ _)

theorem ringLineWrite_ringwise (l : LineA) (b : Block) (w : Who) : Ringwise s (ringLineWrite l b w s) := by
  unfold ringLineWrite lineWrite
  refine .ite ?_ (.mk rfl)
  unfold serveNew
  refine .ite (serveRingWrite_ringwise s l b w) ?_
  split
  · exact .trans (.mk rfl) (recallLine_ringwise _ _)
  · exact retryReq_ringwise s _ _

/-! ## The line store -/

theorem clearHostResv_ringwise (h : Holder) (n : Nat) : Ringwise s (clearHostResv h n s) := by
  unfold clearHostResv
  extract_lets t
  have ht : Ringwise s t := .mk rfl
  clear_value t
  split
  · refine ht.trans (.foldl (fun u e => .mk rfl (runs := ?_)) _ t)
    refine .updEng (fun x hx => ?_) e u
    rw [Option.any_map] at hx
    exact hx
  · exact ht

theorem dropWatch_ringwise (l : LineA) : Ringwise s (dropWatch l s) := by
  unfold dropWatch
  extract_lets t
  have ht : Ringwise s t := .mk rfl
  clear_value t
  refine ht.trans (.foldl (fun u p => .foldl (fun w k => ?_) _ u) _ t)
  exact .ite (.mk rfl) (.refl w)

theorem storeLoses_ringwise (h : Holder) (l : LineA) : Ringwise s (storeLoses h l s) :=
  .ite (dropWatch_ringwise s l) (.refl s)

theorem evictLine_ringwise (h : Holder) (l : LineA) : Ringwise s (evictLine h l s) := by
  refine .ite (.refl s) (.ite (.mk rfl) (.trans (.trans ?_ (.mk rfl)) (sendHome_ringwise _ _ _ _ _ _)))
  exact .trans (clearHostResv_ringwise s h _) (storeLoses_ringwise _ h l)

theorem awaitRoom_ringwise (h : Holder) (l : LineA) : Ringwise s (awaitRoom h l s) := by
  unfold awaitRoom
  extract_lets t set
  have ht : Ringwise s t := .mk rfl
  clear_value t
  refine .ite ?_ ht
  split
  · exact ht.trans (evictLine_ringwise t _ _)
  · exact ht

theorem request_ringwise (h : Holder) (l : LineA) (m : String) (st : HSt) : Ringwise s (request h l m st s) :=
  .ite (.trans (.mk rfl) (sendHome_ringwise _ _ _ _ _ _)) (.mk rfl)

theorem place_ringwise (h : Holder) (l : LineA) (m : String) (st : HSt) : Ringwise s (place h l m st s) :=
  .ite (request_ringwise s _ _ _ _) (awaitRoom_ringwise s _ _)

theorem loadEnds_ringwise (h : Holder) (l : LineA) (w : Who) (d : Block) (p k : Bool) :
    Ringwise s (loadEnds h l w d p k s) := .ite (.mk rfl) (.mk rfl)

theorem storeDone_ringwise (h : Holder) (l : LineA) (m : BitVec 64) (d : Block) (w : Who) :
    Ringwise s (storeDone h l m d w s) := by
  unfold storeDone
  extract_lets x t u
  have ht : Ringwise s t := .ite (.refl s) (clearHostResv_ringwise s h _)
  have hk (t : State) : Ringwise t (updHl h l (fun x => { x with data := mergeBytes x.data d m, lru := t.lruCtr + 1 }) (bumpLru t)) :=
    .mk rfl
  have hu : Ringwise s u := ht.trans (hk t)
  clear_value u
  split
  · exact hu.trans (.mk rfl)
  · exact hu.trans (.mk rfl)
  · exact hu

end

theorem serveWaits_ringwise (h : Holder) (l : LineA) (n : Nat) (s : State) : Ringwise s (serveWaits h l n s) := by
  induction n generalizing s with
  | zero => exact .refl s
  | succ n ih =>
    unfold serveWaits
    dsimp only
    split
    · exact .refl s
    · split
      · exact place_ringwise s _ _ _ _
      · exact request_ringwise s _ _ _ _
      · exact .trans (.trans (.mk rfl) (loadEnds_ringwise _ _ _ _ _ _ _)) (ih _)
      · refine .ite (.trans (.mk rfl) (ih _)) ?_
        split
        · exact place_ringwise s _ _ _ _
        · exact request_ringwise s _ _ _ _
        · exact request_ringwise s _ _ _ _
        · have hd := fun m d w => Ringwise.trans (.mk rfl) (storeDone_ringwise (popWait h l s) h l m d w)
          exact .ite ((hd _ _ _).trans (evictLine_ringwise _ _ _)) ((hd _ _ _).trans (ih _))
        · exact .refl s

section
variable (s : State)

theorem goOn_ringwise (h : Holder) (l : LineA) : Ringwise s (goOn h l s) := .ite (.refl s) (serveWaits_ringwise h l _ s)

theorem access_ringwise (h : Holder) (l : LineA) (w : Wait) (who : Who) : Ringwise s (access h l w who s) := by
  unfold access
  extract_lets x queue hit
  have hq : Ringwise s queue := .mk rfl
  have hh : Ringwise s hit := by
    unfold hit
    split
    · exact loadEnds_ringwise s _ _ _ _ _ _
    · exact hq
  have hg : Ringwise s (goOn h l queue) := hq.trans (goOn_ringwise queue h l)
  split
  · exact .ite hg hq
  · exact hg
  · exact hg
  · exact hg
  · exact hh
  · exact hh
  · exact hq

/-! ## The ring engine's reads and writes -/

theorem sendLine_ringwise (v : Vi) (off : Nat) (b : Block) : Ringwise s (sendLine v off b s) :=
  .ite (ringLineWrite_ringwise s _ _ _) (.mk rfl)

theorem freeSlot_ringwise (e : Eng) (n : Fin 4) : Ringwise s (freeSlot e n s) := by
  refine .mk rfl (runs := ?_)
  unfold freeSlot
  refine .updEng ?_ e s
  exact fun _ h => h

theorem pumpOne_ringwise {v : Vi} {t : State} (h : pumpOne v s = some t) : Ringwise s t := by
  unfold pumpOne at h
  split at h
  · cases h
  · rename_i r l _
    cases r with
    | free e n => cases h; exact .trans (updVi_ringwise s _ _) (freeSlot_ringwise _ _ _)
    | line off b =>
      dsimp only at h
      split at h <;> cases h
      exact (updVi_ringwise s _ _).trans (sendLine_ringwise _ v off b)
    | irq n =>
      dsimp only at h
      split at h <;> cases h
      exact .ite ((updVi_ringwise s _ _).trans (raiseCompletion_ringwise _ v)) ((updVi_ringwise s _ _).trans (raiseVec_ringwise _ v n))
    | idle =>
      dsimp only at h
      split at h <;> cases h
      exact (updVi_ringwise s _ _).trans (updVi_ringwise _ _ _)

end

theorem pumpN_ringwise (v : Vi) (n : Nat) (s : State) : Ringwise s (pumpN v n s) := by
  induction n generalizing s with
  | zero => exact .refl s
  | succ n ih =>
    unfold pumpN
    split
    next t h => exact (pumpOne_ringwise s h).trans (ih t)
    · exact .refl s

section
variable (s : State)

theorem pump_ringwise (v : Vi) : Ringwise s (pump v s) := pumpN_ringwise v _ s

theorem readLine_ringwise (v : Vi) (k : LineKind) : Ringwise s (readLine v k s) := by
  refine .ite (updVi_ringwise s _ _) (.ite (stopRing_ringwise s _ _ _) (.ite ?_ ((updVi_ringwise s _ _).trans (emit_ringwise _ _))))
  exact (updVi_ringwise s _ _).trans (access_ringwise _ _ _ _ _)

theorem fetchNow_ringwise (v : Vi) : Ringwise s (fetchNow v s) := by
  refine .ite (.refl s) (.ite (stopRing_ringwise s _ _ _) (.ite ?_ ((updVi_ringwise s _ _).trans (emit_ringwise _ _))))
  exact (updVi_ringwise s _ _).trans (.foldl (fun _ _ => access_ringwise _ _ _ _ _) _ _)

theorem readPay_ringwise (v : Vi) (n : Nat) : Ringwise s (readPay v s n) := .ite (access_ringwise s _ _ _ _) (.mk rfl)

theorem readPayload_ringwise (v : Vi) : Ringwise s (readPayload v s) := by
  unfold readPayload
  split
  · exact .ite (.refl s) (.trans (.mk rfl) (.foldl (fun _ _ => readPay_ringwise _ _ _) _ _))
  · exact .refl s

theorem resumeVi_ringwise (v : Vi) : Ringwise s (resumeVi s v) := by
  unfold resumeVi
  refine .ite (.refl s) ?_
  extract_lets t u
  have ht : Ringwise s t := .ite (readLine_ringwise s _ _) (.refl s)
  have hu : Ringwise s u := .ite (ht.trans (readLine_ringwise t _ _)) ht
  exact (hu.trans (pump_ringwise u v)).trans (.trans (readPayload_ringwise _ v) (fetchNow_ringwise _ v))

/-- Work that goes on when a port leaves D3hot leaves every function's configuration (R161). -/
theorem resumePort_ringwise (p : HPort) : Ringwise s (resumePort p s) := .foldl (fun _ _ => resumeVi_ringwise _ _) _ s

theorem getPf_resumePort (p q : HPort) : getPf (resumePort p s) q = getPf s q := by
  rw [getPf, getPf, (resumePort_ringwise s p).pfs]

end

end Sys2Proof.Proofs

/-! PROOFS. The host ports, their configuration space and the SMBus (R50, R130 to R161). -/

namespace Sys2Proof.Proofs

open Sys2Proof.Machine Sys2Proof.Laws

/-! ## Two ports -/

theorem getHp_updHp_other {p q : HPort} (h : p ≠ q) (f : HostPort → HostPort) (s : State) :
    getHp (updHp p f s) q = getHp s q := by
  rw [getHp, getHp, updHp_hostPorts, mget_mupd_other _ _ _ fun e => h (Fin.ext e)]

/-! ## Messages that wait -/

/-- Messages leave and their functions' pending bits clear. -/
theorem outFns_trans (s t u : State) (h : ∃ o f, t = { s with out := o, fns := f })
    (k : ∃ o f, u = { t with out := o, fns := f }) : ∃ o f, u = { s with out := o, fns := f } := by
  obtain ⟨o, f, rfl⟩ := h
  exact k

theorem flushVec_same (v : Vi) (s : State) : ∃ o f, flushVec v s = { s with out := o, fns := f } := by
  refine foldl_same (P := fun s t => ∃ o f, t = { s with out := o, fns := f }) (fun s => ⟨s.out, s.fns, rfl⟩)
    outFns_trans (fun s n => ?_) _ s
  split
  · refine outFns_trans s (updFn v (fun x => { x with pba := mset false x.pba n.val false }) s) _ ⟨s.out, _, rfl⟩ ?_
    dsimp only
    split
    · exact raiseCompletion_same v _
    · exact raiseVec_same v n _
  · exact ⟨s.out, s.fns, rfl⟩

theorem flushPort_same (p : HPort) (s : State) : ∃ o f, flushPort p s = { s with out := o, fns := f } := by
  unfold flushPort
  split
  · exact ⟨s.out, s.fns, rfl⟩
  · exact foldl_same (P := fun s t => ∃ o f, t = { s with out := o, fns := f }) (fun s => ⟨s.out, s.fns, rfl⟩)
      outFns_trans (fun s q => flushVec_same _ s) _ s

/-! ## Vectors -/

/-- A write of a function that leaves a field leaves it in every function. -/
theorem getFn_updFn_field {α : Type} (g : Fn → α) {f : Fn → Fn} (hg : ∀ x, g (f x) = g x) (v w : Vi) (s : State) :
    g (getFn (updFn v f s) w) = g (getFn s w) := by
  by_cases h : v = w
  · rw [h, getFn_updFn_same, hg]
  · rw [getFn, getFn, updFn_fns, mget_mupd_other _ _ _ fun e => h (Fin.ext e)]

/-- A vector is open by its function's enables, masks and table, which the holdoff's end leaves. -/
theorem vecOpen_updFn {f : Fn → Fn} (h1 : ∀ x, (f x).msixEnable = x.msixEnable) (h2 : ∀ x, (f x).funcMask = x.funcMask)
    (h3 : ∀ x, (f x).msix = x.msix) (h4 : ∀ x, (f x).busMaster = x.busMaster) (v w : Vi) (n : Fin 4) (s : State) :
    vecOpen (updFn v f s) w n = vecOpen s w n := by
  unfold vecOpen mayMaster
  rw [getFn_updFn_field Fn.msixEnable h1, getFn_updFn_field Fn.funcMask h2, getFn_updFn_field Fn.msix h3,
    getFn_updFn_field Fn.busMaster h4, getFn_updFn_field Fn.busMaster h4]
  rfl

/-- A holdoff has ended. -/
def endHoldoff (x : Fn) : Fn := { x with holdoff := false, holdPending := false }
def holdoffEnded (v : Vi) (s : State) : State := updFn v endHoldoff s

/-- The message that a holdoff held back leaves, and may start the next one. -/
theorem raiseVec_holdoffEnded {v : Vi} {s : State} (ho : vecOpen s v vecCompletion = true) :
    raiseVec v vecCompletion (holdoffEnded v s) =
      if fget s .holdoffUs v.val ≠ 0 then updFn v (fun x => { x with holdoff := true })
        (emit (.msix v vecCompletion (mget ({} : MsixEntry) (getFn s v).msix 0).addr
          (mget ({} : MsixEntry) (getFn s v).msix 0).data) (holdoffEnded v s))
      else emit (.msix v vecCompletion (mget ({} : MsixEntry) (getFn s v).msix 0).addr
          (mget ({} : MsixEntry) (getFn s v).msix 0).data) (holdoffEnded v s) := by
  have hopen : vecOpen (holdoffEnded v s) v vecCompletion = true :=
    (vecOpen_updFn (f := endHoldoff) (fun _ => rfl) (fun _ => rfl) (fun _ => rfl) (fun _ => rfl) v v _ s).trans ho
  have hmsix : (getFn (holdoffEnded v s) v).msix = (getFn s v).msix :=
    getFn_updFn_field Fn.msix (f := endHoldoff) (fun _ => rfl) v v s
  have hex : viExists (holdoffEnded v s) v = true := by
    simp only [vecOpen, Bool.and_eq_true] at hopen
    exact hopen.1.1.1.1.1.2
  unfold raiseVec
  rw [if_neg (by simp [hex]), if_pos hopen, hmsix]
  dsimp only
  by_cases hz : fget s .holdoffUs v.val ≠ 0
  · rw [if_pos hz]
    exact if_pos (by rw [Bool.and_eq_true]; exact ⟨by decide, decide_eq_true hz⟩)
  · rw [if_neg hz]
    exact if_neg (by rw [Bool.and_eq_true]; exact fun h => hz (of_decide_eq_true h.2))

/-! ## Links -/

/-- The lanes are driven from the first link on (R59). -/
def lanesDriven (s : State) : State := updBoard (fun b => { b with hostDriven := true }) s

/-- A port that comes up has the negotiated width and speed, and no earlier state. -/
def portUp (width speed : Nat) (cxl : Bool) : HostPort := { dlUp := true, speed := speed, width := width, cxl := cxl }

/-- Port 0 comes up and its mode is decided. -/
def port0Up (width speed : Nat) (cxl : Bool) (s : State) : State :=
  { updHp 0 (fun _ => portUp width speed (portMode s width speed cxl == .cxl)) (lanesDriven s) with
    port0 := portMode s width speed cxl }

theorem execHostLinkUp_up {s : State} {p : HPort} {w n : Nat} (x : Bool) (hw : linkWidthOk w n = true)
    (hb : s.board.pwrgood = true) (hr : s.resetting = none) (hd : (getHp s p).dlUp = false) (hp : perst s p = false) :
    exec (.hostLinkUp p w n x) s = .next (if p = 1 then
        updHp 1 (fun _ => portUp w n false) (lanesDriven s)
      else if portMode s w n x = .cxlFallback then report (.hostPort 0) 0x03 0 none none
        (port0Up w n x s)
      else port0Up w n x s) := by
  have hg : (!(s.board.pwrgood && s.resetting.isNone) || (getHp s p).dlUp || perst s p) = false := by
    rw [hb, hr, hd, hp]
    rfl
  simp only [exec, execHostLinkUp, Instr.wf, hw, hg, Bool.not_true, Bool.false_eq_true, if_false]
  split <;> rfl

/-! ## Configuration accesses -/

theorem execConfigAccess_there {s : State} {v : Vi} (hb : s.board.pwrgood = true) (hr : s.resetting = none)
    (hv : viExists s v = true) (i : CfgItem) (w : BitVec 32) :
    exec (.configAccess v (.write i w)) s = .next (emit (.cfgReply v none) (cfgWrite v i w s)) ∧
    exec (.configAccess v (.read i)) s = .next (emit (.cfgReply v (cfgRead s v i)) s) := by
  simp [exec, execConfigAccess, hb, hr, hv]

/-- Settles O16: each command is its definition's branch; what flushes messages touches messages and functions alone, and
what resumes rings touches no port. -/
theorem hostPortCommandsComplete : Obligations.HostPortCommandsComplete := by
  unfold Obligations.HostPortCommandsComplete
  refine ⟨fun s w n x hw hb hr => ⟨fun hd hp => ?_, fun hd hp => ?_⟩, fun s p w n x hw hd => ⟨s, ?_, rfl⟩,
    fun s p hd => ⟨?_, ?_⟩, fun s v hv => ?_, fun s p hb hr => ?_, fun s p hd => ?_, fun s v hb hr => ?_,
    fun s v a hb hr => ⟨fun hv => ?_, fun hv i => ?_, fun hv w hw => ?_, fun hv hpf w => ?_, fun _ _ _ =>
      completes_continues rfl rfl⟩,
    fun s v hl hh => ⟨fun hp => ?_, fun hp ho => ?_⟩, fun s c l ha => ⟨?_, ?_⟩⟩
  · refine ⟨_, execHostLinkUp_up x hw hb hr hd hp, ?_, ?_, rfl⟩
    · exact getHp_updHp_same 1 _ _
    · exact getHp_updHp_other (by decide) _ _
  · rw [Completes, execHostLinkUp_up x hw hb hr hd hp, if_neg (by decide)]
    refine ⟨_, rfl, ?_⟩
    have hup : getHp (port0Up w n x s) 0 = portUp w n (portMode s w n x == .cxl) ∧ getHp (port0Up w n x s) 1 = getHp s 1 :=
      ⟨getHp_updHp_same 0 (fun _ => portUp w n (portMode s w n x == .cxl)) (lanesDriven s),
        getHp_updHp_other (by decide) (fun _ => portUp w n (portMode s w n x == .cxl)) (lanesDriven s)⟩
    split
    · obtain ⟨f, g, h⟩ := report_same (.hostPort 0) 0x03 0 none none (port0Up w n x s)
      rw [h]
      exact ⟨hup.1, hup.2, rfl, rfl⟩
    · exact ⟨hup.1, hup.2, rfl, rfl⟩
  · have hw : linkWidthOk w n = true := hw
    simp [exec, execHostLinkUp, Instr.wf, hw, hd]
  · refine ⟨updHp p (fun x => { x with recovering := true }) s, by simp [exec, execLinkRecovery, hd], ?_, rfl⟩
    exact getHp_updHp_same p _ s
  · refine completes_and_continues rfl
      ⟨flushPort p (updHp p (fun x => { x with recovering := false }) s), by simp [exec, execLinkRecovery, hd], ?_⟩
    obtain ⟨o, f, h⟩ := flushPort_same p (updHp p (fun x => { x with recovering := false }) s)
    rw [h]
    exact ⟨getHp_updHp_same p (fun x => { x with recovering := false }) s, rfl⟩
  · exact ⟨updFn v (fun x => { x with busMaster := false }) s, by simp [exec, execBusMasterDisable, hv],
      getFn_updFn_same v _ s, rfl⟩
  · exact ⟨updPf p (fun x => { x with d3hot := true }) s, by simp [exec, execD3hotEntry, hb, hr],
      getPf_updPf_same p _ s, rfl⟩
  · refine completes_and_continues rfl
      ⟨resumePort p (updPf p (fun x => { x with d3hot := false }) s), by rw [exec, execD0Return, if_pos hd], ?_⟩
    change (getPf (resumePort p (updPf p (fun x => { x with d3hot := false }) s)) p).d3hot = false
    rw [getPf_resumePort, getPf_updPf_same]
  · exact ⟨emit (.aerAdvisory (pfVi (portOf v))) { s with advisories := s.advisories + 1 },
      by simp [exec, execHostPoisonedWrite, hb, hr], rfl⟩
  · exact ⟨emit (.cfgReply v none) s, by simp [exec, execConfigAccess, hb, hr, hv], rfl⟩
  · exact ⟨_, (execConfigAccess_there hb hr hv i 0).2, rfl⟩
  · refine ⟨_, (execConfigAccess_there hb hr hv .busMaster w).1, ?_⟩
    have hc : cfgWrite v .busMaster w s = updFn v (fun x => { x with busMaster := false }) s := by
      simp [cfgWrite, hw]
    rw [hc]
    exact ⟨getFn_updFn_same v (fun x => { x with busMaster := false }) s, rfl⟩
  · refine ⟨_, (execConfigAccess_there hb hr hv .relaxedOrdering w).1, ?_⟩
    have hc : cfgWrite v .relaxedOrdering w s = updPf (portOf v) (fun x => { x with relaxed := w.toNat % 2 == 1 }) s := by
      simp [cfgWrite, hpf]
    rw [hc]
    exact ⟨getPf_updPf_same (portOf v) (fun x => { x with relaxed := w.toNat % 2 == 1 }) s, rfl⟩
  · refine ⟨updFn v (fun x => { x with holdoff := false, holdPending := false }) s,
      by simp [exec, execHoldoffExpiry, hl, hh, hp], ?_, rfl⟩
    rw [getFn_updFn_same, ← hp]
  · refine ⟨raiseVec v vecCompletion (holdoffEnded v s), ?_, ?_⟩
    · rw [exec, execHoldoffExpiry, if_neg (by simp [hl, hh])]
      exact congrArg _ (if_pos hp)
    · rw [raiseVec_holdoffEnded ho]
      have hf := getFn_updFn_same v endHoldoff s
      split
      · exact ⟨rfl, (getFn_updFn_field Fn.holdPending (f := fun x => { x with holdoff := true }) (fun _ => rfl) v v
          (holdoffEnded v s)).trans (congrArg Fn.holdPending hf), rfl⟩
      · exact ⟨rfl, congrArg Fn.holdPending hf, rfl⟩
  · exact ⟨emit (.smbus (some (Config.smbusByte c s.freeCtr))) (tick s), by simp [exec, execSmbusRead, ha], rfl⟩
  · exact ⟨emit (.smbus none) s, by simp [exec, execSmbusWrite, ha], rfl⟩

end Sys2Proof.Proofs

/-! PROOFS. The calendar clock (R573 to R583) and the event counters (R588 to R596). -/

namespace Sys2Proof.Proofs

open Sys2Proof.Machine Sys2Proof.Laws

/-! ## The calendar clock -/

theorem execRtcTick_running {s : State} (h : s.rtc.running = true) :
    exec .rtcTick s = .next { s with rtc := tickRtc (trimOf s) s.rtc } := by
  rw [exec, execRtcTick, if_pos h, updRtc]

theorem tickRtc_staged {r : Rtc} {sec sub : Nat} (h : r.staged = some (sec, sub)) (n : Int) :
    tickRtc n r = { r with sec := sec, sub := sub, staged := none } := by
  rw [tickRtc, h]

/-- A tick that lands no set advances by what the corrected accumulator says (R578). -/
theorem tickRtc_free {r : Rtc} (h : r.staged = none) {n : Int} {k : Nat} {acc : Int}
    (ha : tickAdvance (r.acc + n) = (k, acc)) : tickRtc n r = advanceRtc { r with acc := acc } k := by
  rw [tickRtc, h]
  simp only [ha]

theorem sampleVbat_leaves (mv : Nat) (s : State) :
    (sampleVbat mv s).board.vbatOk = decide (2000 ≤ mv && mv ≤ 3600) ∧ (mv < 2000 → fget (sampleVbat mv s) .vbatLow = 1) ∧
      (2000 ≤ mv → (sampleVbat mv s).fld = s.fld) ∧
      sampleVbat mv s = { s with board := (sampleVbat mv s).board, fld := (sampleVbat mv s).fld } := by
  unfold sampleVbat
  split
  · exact ⟨rfl, fun _ => fget_fset_same .., fun h => by omega, rfl⟩
  · exact ⟨rfl, fun h => by omega, fun _ => rfl, rfl⟩

/-- Settles O17: a tick by the four cases of a staged set and the accumulator; the rest is one write each. -/
theorem clockCommandsComplete : Obligations.ClockCommandsComplete := by
  unfold Obligations.ClockCommandsComplete
  refine ⟨fun s hr => ⟨fun sec sub h => ?_, fun h hu hl hs => ?_, fun h hu hl hs => ?_, fun h hu hs => ?_,
    fun h hl hs => ?_⟩, fun s => ⟨_, rfl, fget_fset_same .., rfl⟩, fun s mv ha => ⟨?_, ?_⟩, fun s hr ha => ⟨?_, ?_⟩,
    fun s hb ha hs => ?_⟩
  · refine ⟨_, execRtcTick_running hr, ?_⟩
    rw [tickRtc_staged h]
  · refine ⟨_, execRtcTick_running hr, ?_⟩
    rw [tickRtc_free h (k := 1) (if_neg (by rw [whole]; omega) |>.trans (if_neg (by rw [whole]; omega))), advanceRtc,
      if_pos (by simp; omega)]
  · refine ⟨_, execRtcTick_running hr, ?_⟩
    rw [tickRtc_free h (k := 1) (if_neg (by rw [whole]; omega) |>.trans (if_neg (by rw [whole]; omega))), advanceRtc,
      if_neg (by simp [hs])]
    simp [hs]
  · refine ⟨_, execRtcTick_running hr, ?_⟩
    rw [tickRtc_free h (k := 2) (if_pos (by rw [whole]; omega)), advanceRtc, if_pos (by simp; omega)]
    rfl
  · refine ⟨_, execRtcTick_running hr, ?_⟩
    rw [tickRtc_free h (k := 0) (if_neg (by rw [whole]; omega) |>.trans (if_pos (by rw [whole]; omega))), advanceRtc,
      if_pos (by simpa using hs)]
    rfl
  · exact ⟨sampleVbat mv s, by rw [exec, execVbatSample, if_pos ha], sampleVbat_leaves mv s⟩
  · exact ⟨sampleVbat mv s, by rw [exec, execInternalResetRelease, if_pos ha], sampleVbat_leaves mv s⟩
  · exact ⟨emit (.regRead s.rtc.sub) (snapNow s), by simp [exec, execRtcSubsecRead, hr, ha]; rfl, rfl, rfl, rfl⟩
  · exact ⟨emit (.regRead 0) s, by simp [exec, execRtcSubsecRead, hr, ha], rfl⟩
  · exact ⟨stageSet s, by simp [exec, execRtcSet, hb, ha], by simp [stageSet, hs, updRtc], by simp [stageSet, hs, updRtc]⟩

/-! ## The event counters -/

theorem getCtr_updCtr_same (c : Ctr) (f : CtrSt → CtrSt) (s : State) : getCtr (updCtr c f s) c = f (getCtr s c) := by
  simp [getCtr]

/-- A counter that counts, and whether its overflow is told of. -/
theorem countEvent_same (c : Ctr) (n : Nat) (s : State) :
    countEvent c n s = updCtr c (fun x => countUp (fget s .cntMode c.val == 1) x n) s ∨
      fget s .cntOvfIrq c.val = 1 ∧
        countEvent c n s = notice (updCtr c (fun x => countUp (fget s .cntMode c.val == 1) x n) s) := by
  unfold countEvent
  extract_lets was t
  split
  · rename_i h
    refine .inr ⟨?_, rfl⟩
    simp only [Bool.and_eq_true, decide_eq_true_eq] at h
    exact h.1.2
  · exact .inl rfl

theorem countEvent_quiet {c : Ctr} {s : State} (h : fget s .cntOvfIrq c.val = 0) (n : Nat) :
    countEvent c n s = updCtr c (fun x => countUp (fget s .cntMode c.val == 1) x n) s := by
  obtain h' | ⟨h', -⟩ := countEvent_same c n s
  · exact h'
  · omega

theorem putShadow_same (l : List Ctr) (s : State) : ∃ b,
    l.foldl (fun s c => putShadow s.win.k c s) s = { s with shadowBank := b } :=
  foldl_same (P := fun s t => ∃ b, t = { s with shadowBank := b }) (fun s => ⟨s.shadowBank, rfl⟩)
    (fun s t u ⟨b, h⟩ ⟨d, k⟩ => ⟨d, by rw [k, h]⟩) (fun s c => ⟨_, rfl⟩) l s

theorem execCounterEvent_selected {s : State} {c : Ctr} {e : BitVec 6} {u : BitVec 4} (n : Nat) (hp : powered s = true)
    (hc : ctrIn s c = true) (hi : islandRuns s (ctrIsle c) = true) (hs : selects s c e.toNat u.toNat = true) :
    exec (.counterEvent c e u n) s = .next (countEvent c n s) := by
  rw [exec, execCounterEvent, if_pos (by rw [hp, hc, hi, hs]; rfl)]

theorem execWindowEnable_live {s : State} (hb : barsLive s = true) (ha : answers s vi0 = true) (on : Bool)
    (l : Option (BitVec 32)) : exec (.windowEnable on l) s = .next (windowSet on (l.map BitVec.toNat) s) := by
  rw [exec, execWindowEnable, if_pos (by rw [hb, ha]; rfl)]

theorem lenM1_ne_winEnable {s : State} (v : Nat) : fget (fset .winEnable 0 v s) .lenM1 = fget s .lenM1 :=
  fget_fset_other v (by decide) (by decide) (.inl (by decide))

theorem windowSet_starts {s : State} (h : fget s .winEnable = 0) (n : Nat) : windowSet true (some n) s =
    { fset .winEnable 0 1 (fset .lenM1 0 n s) with win := { s.win with running := true, k := 1, wrote := [] } } := by
  simp [windowSet, h, b2n]

theorem windowSet_runs {s : State} (h : fget s .winEnable = 1) (n : Nat) :
    windowSet true (some n) s = fset .winEnable 0 1 s := by
  simp [windowSet, h, b2n]

theorem windowSet_stops (s : State) : windowSet false none s =
    { fset .winEnable 0 0 s with win := { s.win with running := false, wrote := [] } } := by
  simp [windowSet, b2n]

/-- Settles O18: counting by its two cases, the shadow bank by the counters that have not written it, and the windows by
whether they are enabled already. -/
theorem counterCommandsComplete : Obligations.CounterCommandsComplete := by
  unfold Obligations.CounterCommandsComplete
  refine ⟨fun s c e u n hp hc hi hs => ⟨fun hn hq => ?_, fun hn hq => ?_, ?_⟩, fun s c hp hw hi hn => ?_,
    fun s hp hw hall => ?_, fun s n hb ha => ⟨fun he => ?_, fun he => ?_, ?_⟩,
    fun s c v hb ha => ⟨fun hc => ?_, fun hc => ?_, fun hc => ?_, ?_⟩⟩
  · refine ⟨_, execCounterEvent_selected n hp hc hi hs, ?_⟩
    beta_reduce
    rw [countEvent_quiet hq, getCtr_updCtr_same, countUp, if_pos hn]
    exact ⟨rfl, rfl⟩
  · refine ⟨_, execCounterEvent_selected n hp hc hi hs, ?_⟩
    beta_reduce
    rw [countEvent_quiet hq, getCtr_updCtr_same, countUp, if_neg (by omega)]
    exact ⟨rfl, rfl, fun h => by simp [h], fun h => by simp [h]⟩
  · refine ⟨_, execCounterEvent_selected n hp hc hi hs, ?_⟩
    obtain h | ⟨-, h⟩ := countEvent_same c n s
    · rw [h]
      rfl
    · obtain ⟨o, f, k⟩ := notice_same (updCtr c (fun x => countUp (fget s .cntMode c.val == 1) x n) s)
      rw [h, k]
      rfl
  · have hg : (!(powered s && s.win.running) || !islandRuns s (ctrIsle c) || s.win.wrote.contains c.val) = false := by
      rw [hp, hw, hi, hn]
      rfl
    simp only [Completes, exec, execCounterWindowEnd, hg, Bool.false_eq_true, if_false]
    refine ⟨_, rfl, ?_⟩
    split
    next h =>
      refine ⟨mget_mset_same .., rfl, fun _ => ?_, fun hne => absurd h hne, rfl⟩
      rw [getCtr_updCtr_same]
      exact ⟨rfl, rfl⟩
    next h => exact ⟨mget_mset_same .., rfl, fun he => absurd he h, fun _ => rfl, rfl⟩
  · have hg : (!(powered s && s.win.running) ||
        !((List.finRange 352).all fun c => !ctrIn s c || s.win.wrote.contains c.val)) = false := by
      rw [hp, hw, Bool.true_and, Bool.not_true, Bool.false_or, Bool.not_eq_false', List.all_eq_true]
      intro c _
      cases hc : ctrIn s c with
      | false => rfl
      | true => rw [hall c hc]; rfl
    simp only [Completes, exec, execShadowSeqUpdate, hg, Bool.false_eq_true, if_false]
    refine ⟨_, rfl, ?_⟩
    obtain ⟨b, hb⟩ := putShadow_same ((List.finRange 352).filter fun c => !ctrIn s c) s
    rw [hb]
    split
    · obtain ⟨o, f, h⟩ := notice_same
        { s with shadowBank := b, win := { s.win with seq := s.win.k, k := s.win.k + 1, wrote := [] } }
      rw [h]
      exact ⟨rfl, rfl⟩
    · exact ⟨rfl, rfl⟩
  · refine ⟨_, execWindowEnable_live hb ha _ _, ?_⟩
    rw [Option.map_some, windowSet_starts he]
    exact ⟨fget_fset_same .winEnable 0 1 (s := fset .lenM1 0 n.toNat s),
      (lenM1_ne_winEnable (s := fset .lenM1 0 n.toNat s) 1).trans (fget_fset_same ..), rfl, rfl⟩
  · refine ⟨_, execWindowEnable_live hb ha _ _, ?_⟩
    rw [Option.map_some, windowSet_runs he]
    exact ⟨fget_fset_same .., lenM1_ne_winEnable 1, rfl⟩
  · refine ⟨_, execWindowEnable_live hb ha _ _, ?_⟩
    rw [Option.map_none, windowSet_stops]
    exact ⟨fget_fset_same .winEnable 0 0 (s := s), rfl, rfl⟩
  · refine ⟨emit (.regRead ((getCtr (readCtrLo c s) c).latch % 2 ^ 32)) (readCtrLo c s),
      by simp [exec, execCntValLoRead, hb, ha], ?_⟩
    have h : getCtr (readCtrLo c s) c = { getCtr s c with latch := (getCtr s c).val, latchOvf := (getCtr s c).ovf } := by
      rw [readCtrLo, getCtr_updCtr_same, if_pos hc]
    rw [h]
    have hlo : getCtr (emit (.regRead ((getCtr s c).val % 2 ^ 32)) (readCtrLo c s)) c =
      { getCtr s c with latch := (getCtr s c).val, latchOvf := (getCtr s c).ovf } := h
    exact ⟨rfl, (congrArg CtrSt.latch hlo :), (congrArg CtrSt.val hlo :), rfl⟩
  · refine ⟨emit (.regRead ((getCtr (readCtrLo c s) c).latch % 2 ^ 32)) (readCtrLo c s),
      by simp [exec, execCntValLoRead, hb, ha], ?_⟩
    have h : (getCtr (readCtrLo c s) c).latch = 0 := by
      rw [readCtrLo, getCtr_updCtr_same, if_neg (by simp [hc])]
    rw [h]
    exact ⟨rfl, rfl⟩
  · refine ⟨writeCtrLo c v.toNat s, by simp [exec, execCntValLoWrite, hb, ha], ?_⟩
    beta_reduce
    rw [writeCtrLo, if_pos hc, getCtr_updCtr_same, Nat.mod_eq_of_lt v.isLt]
    exact ⟨rfl, rfl⟩
  · refine ⟨writeCtrHi c (some (v.toNat % 2 ^ 16)) (bitAt v.toNat 16) s, by simp [exec, execCntValHiWrite, hb, ha], ?_⟩
    beta_reduce
    rw [writeCtrHi, getCtr_updCtr_same]
    exact ⟨rfl, rfl, rfl⟩

end Sys2Proof.Proofs

/-! PROOFS. The collector, fences, the heartbeat and the entry into SAFE (R534 to R568). -/

namespace Sys2Proof.Proofs

open Sys2Proof.Machine Sys2Proof.Laws

/-! ## The collector -/

/-- A cycle with nothing pending takes nothing. -/
theorem collect40_idle {s : State} (h : s.flt.raised = []) : collect40 s = s := by
  have hf : { s.flt with raised := [] } = s.flt := by rw [← h]
  unfold collect40
  rw [h]
  change ({ s with flt := { s.flt with raised := [] } } : State) = s
  rw [hf]

/-- A cycle that held one fault, of class 3, freezes the log (R541, R542). -/
theorem collect40_freezes {s : State} {q : Raised} (h : s.flt.raised = [q]) (hc : causeClass q.cause = 3) :
    (collect40 s).flt.frozen = true := by
  have hl : sortRaised s.flt.raised = [q] := by rw [h]; rfl
  unfold collect40
  rw [hl]
  dsimp only
  rw [if_pos (by simp [classOf, hc])]
  rfl

theorem latchSafe_flt (s : State) : ∃ b, (latchSafe s).flt = { s.flt with safeStepsDone := b } := by
  unfold latchSafe
  split
  · exact ⟨s.flt.safeStepsDone, rfl⟩
  · exact ⟨false, rfl⟩

/-! ## The heartbeat -/

theorem heartbeatEnd_gate {s : State} (hp : powered s = true) (hb : s.flt.hbRunning = true) :
    (!(powered s && s.flt.hbRunning)) = false := by
  rw [hp, hb]
  rfl

/-! ## The entry into SAFE -/

theorem aerFatal_same (s : State) : ∃ o, aerFatal s = { s with out := o } :=
  foldl_same (P := fun s t => ∃ o, t = { s with out := o }) (fun s => ⟨s.out, rfl⟩)
    (fun s t u ⟨a, h⟩ ⟨b, k⟩ => ⟨b, by rw [k, h]⟩)
    (fun s p => by
      split
      · exact ⟨_, rfl⟩
      · exact ⟨s.out, rfl⟩) _ s

/-- Where the steps of Table: SAFE entry steps leave the units of the device. -/
structure SafeUnits (t : State) : Prop where
  done : t.flt.safeStepsDone = true
  alive : t.board.alive = false
  selfRefresh : t.board.selfRefresh = true
  hl : t.hl = []
  dir : t.dir = []
  gathers : t.gathers = []
  mesh : t.mesh = []
  wires : t.wires = []

theorem execSafeEntry_steps {s : State} (hp : s.board.pwrgood = true) (hb : s.boot = .safe)
    (hd : s.flt.safeStepsDone = false) :
    ∃ t, SafeUnits t ∧ exec .safeEntry s = .next (railsOff (writeRec .safe t)) := by
  have hg : (!(s.board.pwrgood && s.boot == .safe && !s.flt.safeStepsDone)) = false := by
    rw [hp, hb, hd]
    rfl
  simp only [exec, execSafeEntry, hg, Bool.false_eq_true, if_false]
  refine ⟨_, ?_, rfl⟩
  split
  all_goals
    obtain ⟨o, h⟩ := aerFatal_same _
    rw [h]
    exact ⟨rfl, rfl, rfl, rfl, rfl, rfl, rfl, rfl⟩

theorem SafeUnits.railsOff {t : State} (h : SafeUnits t) : SafeUnits (railsOff t) := by
  obtain ⟨r, o, k⟩ := railsOff_same t
  rw [k]
  exact ⟨h.done, h.alive, h.selfRefresh, h.hl, h.dir, h.gathers, h.mesh, h.wires⟩

theorem SafeUnits.writeRec {t : State} (c : Loss) (h : SafeUnits t) : SafeUnits (writeRec c t) :=
  ⟨h.done, h.alive, h.selfRefresh, h.hl, h.dir, h.gathers, h.mesh, h.wires⟩

/-- Settles O19: a cycle by what was pending, the heartbeat by whether it was strobed, and SAFE_ENTRY by its steps in
order. -/
theorem faultCommandsComplete : Obligations.FaultCommandsComplete := by
  unfold Obligations.FaultCommandsComplete
  refine ⟨fun s hc => ⟨fun h => ?_, completes_continues rfl rfl, fun q h hq => ?_, ?_, fun u =>
      completes_continues rfl rfl⟩,
    fun s v hb ha => ⟨fun h => ?_, fun h => ?_, ?_⟩, fun s hg => ⟨fun hd => ?_, fun hd => ?_⟩, fun s u hu hp => ?_,
    fun s hp hm => ⟨fun hr => ?_, fun hr => ?_⟩, fun s hp hr hl => ?_, fun s hp hr => ⟨fun hs => ?_, fun hs hm => ?_⟩,
    fun s hp hb hd => ?_⟩
  · exact ⟨collect40 s, by simp [exec, execCollectorCycle, hc], collect40_idle h⟩
  · exact ⟨collect40 s, by simp [exec, execCollectorCycle, hc], collect40_freezes h hq⟩
  · refine completes_and_continues rfl
      ⟨latchSafe (updFlt (fun f => { f with collErr := true, frozen := true }) s),
        by simp [exec, execCollectorCycle, hc], latchSafe_boot _, ?_⟩
    obtain ⟨b, h⟩ := latchSafe_flt (updFlt (fun f => { f with collErr := true, frozen := true }) s)
    rw [h]
    exact ⟨rfl, rfl, rfl⟩
  · refine ⟨clearSeq v s, by simp [exec, execFltClearSeq, hb, ha], ?_⟩
    rw [clearSeq, if_pos h, updFlt]
  · refine ⟨clearSeq v s, by simp [exec, execFltClearSeq, hb, ha], ?_⟩
    rw [clearSeq, if_neg (by rw [h]; decide)]
  · exact ⟨unfreezeLog s, by simp [exec, execUnfreeze, hb, ha], rfl⟩
  · exact ⟨updFlt (fun f => { f with noticeGap := false }) s, by simp [exec, execNoticeGapEnd, hg, hd], rfl⟩
  · refine ⟨notice (updFlt (fun f => { f with noticeDue := false }) s), by simp [exec, execNoticeGapEnd, hg, hd], ?_⟩
    obtain ⟨o, f, h⟩ := notice_same (updFlt (fun f => { f with noticeDue := false }) s)
    rw [h]
    rfl
  · refine completes_and_continues rfl ⟨fence u s, by simp [exec, execUnitFence, Instr.wf, hu, hp],
      fun hf => mem_fenced_fence hf s, fun hf => fence_unfenceable hf s⟩
  · exact ⟨updFlt (fun f => { f with hbStrobed := true }) s,
      by simp only [exec, execHeartbeatStrobe, hp, hm, hr]; rfl, rfl⟩
  · refine ⟨updFlt (fun f => { f with
      hbRunning := true, hbStrobed := true, hbMisses := 0, hbWindow := 1, hbPeriod := fget s .pinPeriod })
      (updBoard (fun b => { b with serdesIdle := b.serdesIdle && s.boot != .fired }) s),
      by simp only [exec, execHeartbeatStrobe, hp, hm, hr]; rfl, rfl, rfl, rfl, fun h => ?_, rfl⟩
    simp [h]
  · exact ⟨updBoard (fun b => { b with alive := !b.alive }) s, by simp [exec, execAliveHalfWindow, hp, hr, hl], rfl⟩
  · simp only [Completes, exec, execHeartbeatWindowEnd, heartbeatEnd_gate hp hr, hs, Bool.not_true, Bool.false_eq_true,
      if_false]
    exact ⟨_, rfl, rfl, rfl, rfl, rfl⟩
  · simp only [Completes, exec, execHeartbeatWindowEnd, heartbeatEnd_gate hp hr, hs, Bool.not_false, Bool.false_eq_true,
      if_false, if_true]
    refine ⟨_, rfl, ?_⟩
    rw [if_pos (by omega)]
    exact ⟨raise_safe .mgmt 0 _ (c := 0x67) (by decide), rfl⟩
  · obtain ⟨u, hu, h⟩ := execSafeEntry_steps hp hb hd
    refine completes_and_continues rfl ⟨_, h, ?_⟩
    obtain ⟨hdone, halive, hself, hhl, hdir, hgath, hmesh, hwires⟩ := (hu.writeRec .safe).railsOff
    refine ⟨hdone, halive, hself, hhl, hdir, hgath, hmesh, hwires, ?_⟩
    obtain ⟨l, hl, hok⟩ := writeRec_records .safe u
    obtain ⟨r, o, k⟩ := railsOff_same (writeRec .safe u)
    rw [k]
    exact ⟨_, l, hl, lossRec_cause .safe u, hok⟩

end Sys2Proof.Proofs

/-! PROOFS. Register writes, committed changes and the TAP (R49, R603 to R607, R618, R661). -/

namespace Sys2Proof.Proofs

open Sys2Proof.Machine Sys2Proof.Laws

theorem execRegisterWrite_wrongSize {s : State} {v : Vi} {sp : Space} {o : BitVec 24} {n : Nat} (w : U64)
    (hb : barsLive s = true) (hr : reaches s v sp = true) (hn : accessOk o.toNat n = false) :
    exec (.registerWrite v sp o n w) s = .next (wildWrite v (hostError v s)) := by
  simp [exec, execRegisterWrite, hb, hr, hn]

/-! ## A commit of pending shadows (R603, R604) -/

theorem writeCommit_pending {s : State} {v : Nat} (hr : running s = true) (ha : s.applying = false) (hs : s.shadow ≠ [])
    (hc : bitAt v 0 = true) : ∃ l, writeCommit v s =
      { fset .noticeEn 0 (bits v 1 1) s with
        setId := s.setId + 1, chg := s.shadow, shadow := [], applying := true, unitsLeft := l } := by
  have hstored : writeCommit v s = commitSet (fset .noticeEn 0 (bits v 1 1) s) := by simp [writeCommit, hr, hc]
  rw [hstored, commitSet, if_neg (by change ¬ s.applying = true; rw [ha]; decide)]
  have he : s.shadow.isEmpty = false := by simpa using hs
  dsimp only
  rw [if_neg (by change ¬ s.shadow.isEmpty = true; rw [he]; decide)]
  exact ⟨_, rfl⟩

/-! ## The TAP (R49) -/

/-- The TAP with the output of its shift register, before its state moves. -/
def tapShifted (s : State) : State :=
  if s.tap == .shiftDr || s.tap == .shiftIr then tick (emit (.tdo (free s % 2 == 1)) s) else s

/-- And as it moves: an instruction takes effect in Update-IR, and Test-Logic-Reset takes it out. -/
def tapMoved (m : Bool) (s : State) : State :=
  if tapNext s.tap m = .testLogicReset then { s with tap := tapNext s.tap m, tapDebug := false }
  else if tapNext s.tap m = .updateIr then
    tick { s with tap := tapNext s.tap m, tapDebug := debugOpen s && free s % 2 == 1 }
  else { s with tap := tapNext s.tap m }

theorem execTestClockEdge_powered {s : State} (h : s.board.vddAux = true) (m d : Bool) :
    exec (.testClockEdge m d) s = .next (tapMoved m (tapShifted s)) := by
  rw [exec, execTestClockEdge, if_neg (by simp [h])]
  rfl

theorem tapShifted_same (s : State) : ∃ o n, tapShifted s = { s with out := o, freeCtr := n } := by
  unfold tapShifted
  split
  · exact ⟨_, _, rfl⟩
  · exact ⟨s.out, s.freeCtr, rfl⟩

theorem tapMoved_tap (m : Bool) (s : State) : (tapMoved m s).tap = tapNext s.tap m := by
  unfold tapMoved
  split
  · rfl
  · split <;> rfl

theorem tapMoved_same (m : Bool) (s : State) : tapMoved m s = { s with
    tap := (tapMoved m s).tap, tapDebug := (tapMoved m s).tapDebug, freeCtr := (tapMoved m s).freeCtr } := by
  unfold tapMoved
  split
  · rfl
  · split <;> rfl

theorem tapMoved_quiet {m : Bool} {s : State} (h : tapNext s.tap m ≠ .updateIr) : tapMoved m s = { s with
    tap := tapNext s.tap m, tapDebug := s.tapDebug && decide (tapNext s.tap m ≠ .testLogicReset) } := by
  unfold tapMoved
  split
  next hr => simp [hr]
  next hr => simp [hr]

/-- Debug access that is closed is not opened. -/
theorem tapMoved_closed {s : State} (m : Bool) (hd : debugOpen s = false) (ht : s.tapDebug = false) :
    (tapMoved m s).tapDebug = false := by
  unfold tapMoved
  split
  · rfl
  · split
    · simp [hd]
    · exact ht

/-- Settles O20: a write of the wrong size is the host error's; the others are their definitions' branches. -/
theorem registerCommandsComplete : Obligations.RegisterCommandsComplete := by
  unfold Obligations.RegisterCommandsComplete
  refine ⟨fun s v sp o n w hb hr => ⟨completes_continues rfl rfl, fun hn => ?_⟩, fun s w ha hr hp hc hs => ?_,
    fun s u _ _ _ _ => completes_continues rfl rfl, fun s _ _ => completes_continues rfl rfl, fun s hr ha hu => ?_,
    fun s m d ha => ?_⟩
  · exact ⟨_, execRegisterWrite_wrongSize w hb hr hn, rfl⟩
  · obtain ⟨l, h⟩ := writeCommit_pending (v := w.toNat) hr hp hs hc
    refine ⟨_, execGenCommit_vi0 ha w, ?_⟩
    rw [h]
    exact ⟨rfl, rfl, rfl, rfl, rfl⟩
  · have he : s.unitsLeft.isEmpty = false := by simpa using hu
    exact ⟨{ s with late := true }, by simp [exec, execChangeLate, hr, ha, he], rfl⟩
  · refine ⟨_, execTestClockEdge_powered ha m d, ?_⟩
    obtain ⟨o, n, h⟩ := tapShifted_same s
    refine ⟨?_, ?_, fun h1 h2 h3 => ?_, fun hd ht => ?_⟩
    · rw [tapMoved_tap, h]
    · rw [tapMoved_same, h]
    · have hs : tapShifted s = s := if_neg (by simp [h1, h2])
      rw [hs]
      exact tapMoved_quiet h3
    · rw [h]
      exact tapMoved_closed (s := { s with out := o, freeCtr := n }) m hd ht

end Sys2Proof.Proofs

/-! PROOFS. The coherence home: requests, Puts and responses of holders, and the host's side (R173 to R200). -/

namespace Sys2Proof.Proofs

open Sys2Proof.Machine Sys2Proof.Laws

/-! ## Messages -/

theorem taken_same (c : Instr) (s : State) : ∃ m, taken c s = { s with mesh := m } := by
  unfold taken
  split
  · exact ⟨_, rfl⟩
  · exact ⟨s.mesh, rfl⟩

theorem taken_mesh (c : Instr) (s : State) : taken c s = { s with mesh := (taken c s).mesh } := by
  obtain ⟨m, h⟩ := taken_same c s
  rw [h]

theorem getDir_taken (c : Instr) (s : State) (l : LineA) : getDir (taken c s) l = getDir s l := by
  rw [taken_mesh]
  rfl

/-- The home's message is in the kiln mesh and among the outputs. -/
def homeSends (h : Holder) (cls : MCls) (c : Instr) (d : Option Block) (e : Emit) (s : State) : State :=
  { s with mesh := s.mesh ++ [homePacket h cls c d], out := s.out ++ [e] }

theorem toHolder_eq {h : Holder} {l : LineA} {m : String} {d : Option (Block × Bool)} {cls : MCls} {c : Instr}
    (hm : homeMsg h l m (d.getD (0, false)) = some (cls, c)) (s : State) :
    toHolder h l m d s = homeSends h cls c (d.map Prod.fst) (.toHolder h l m d) s := by
  rw [toHolder, hm]
  rfl

theorem toHolder_nackP (h : Holder) (l : LineA) (s : State) : toHolder h l "NackP" none s =
    homeSends h .response (.nackp h l) none (.toHolder h l "NackP" none) s := toHolder_eq rfl s
theorem toHolder_putAck (h : Holder) (l : LineA) (s : State) : toHolder h l "PutAck" none s =
    homeSends h .response (.putack h l) none (.toHolder h l "PutAck" none) s := toHolder_eq rfl s

/-! ## The directory -/

theorem getDir_putDir_same (l : LineA) (d : Dir) (s : State) : getDir (putDir l d s) l = d := getDir_updDir_same l _
theorem getDir_putDir_other {l m : LineA} (h : m ≠ l) (d : Dir) (s : State) : getDir (putDir l d s) m = getDir s m :=
  getDir_updDir_other _ h.symm
theorem homeRuns_homeOn {s : State} (h : homeRuns s = true) : homeOn s = true := by
  simp only [homeRuns, Bool.and_eq_true] at h
  exact h.1
theorem homeOn_taken {c : Instr} {s : State} (h : homeRuns s = true) : homeOn (taken c s) = true := by
  rw [taken_mesh]
  exact homeRuns_homeOn h
theorem setFull_taken (c : Instr) (s : State) (l : LineA) : setFull (taken c s) l = setFull s l := by
  rw [taken_mesh]
  rfl

theorem atHome_runs {c : Instr} {f : State → State} {s : State} (h : homeRuns s = true) (ha : arrives s c = true) :
    atHome c f s = .next (f (taken c s)) := by
  rw [atHome, if_pos (by rw [h, ha]; rfl)]

theorem atHome_stays {c : Instr} {f : State → State} {s : State} (h : homeRuns s = false ∨ arrives s c = false) :
    atHome c f s = .next s := by
  rw [atHome, if_neg]
  rcases h with h | h <;> simp [h]

/-! ## Requests -/

/-- The entry of a line for which the home has asked the host. -/
def askedDir (s : State) (l : LineA) (k q : ReqKind) (r : Holder) : Dir :=
  { touchDir (getDir (bumpLru s) l) (bumpLru s) with
    req := some (k, r), hs := .waitHost, hostReq := some q, domain := fgetU s .home .failMode == 1 }

theorem serveReq_asks {s : State} {l : LineA} (r : Holder) {k q : ReqKind}
    (hk : (k, q) ∈ [(ReqKind.getS, ReqKind.getS), (.getM, .getM), (.getCur, .rdCur)]) (hi : (getDir s l).h = .i) :
    serveReq l k r s = emit (.d2h l q) (putDir l (askedDir s l k q r) (bumpLru s)) := by
  have hd : (touchDir (getDir (bumpLru s) l) (bumpLru s)).h = .i := hi
  simp only [List.mem_cons, Prod.mk.injEq, List.not_mem_nil, or_false] at hk
  obtain ⟨rfl, rfl⟩ | ⟨rfl, rfl⟩ | ⟨rfl, rfl⟩ := hk <;> simp only [serveReq, hd, askedDir, askHost] <;> rfl

theorem holderReq_idle {s : State} {l : LineA} (r : Holder) {k q : ReqKind} (age : BitVec 4)
    (hk : (k, q) ∈ [(ReqKind.getS, ReqKind.getS), (.getM, .getM), (.getCur, .rdCur)]) (ho : homeOn s = true)
    (hs : (getDir s l).hs = .idle) (hi : (getDir s l).h = .i) (hf : setFull s l = false) :
    holderReq k r l age s = emit (.d2h l q) (putDir l (askedDir s l k q r) (bumpLru s)) := by
  have hserve : serveAged { line := l, r := r, kind := k } s = serveReq l k r s := by
    simp only [List.mem_cons, Prod.mk.injEq, List.not_mem_nil, or_false] at hk
    obtain ⟨rfl, rfl⟩ | ⟨rfl, rfl⟩ | ⟨rfl, rfl⟩ := hk <;> rfl
  rw [← serveReq_asks r hk hi, ← hserve]
  simp [holderReq, ho, hs, serveNew, hf]

theorem holderReq_orphan {s : State} {l : LineA} (k : ReqKind) (r : Holder) (age : BitVec 4) (ho : homeOn s = true)
    (hs : (getDir s l).hs = .orphan) : holderReq k r l age s = toHolder r l "NackP" none s := by
  simp [holderReq, ho, hs]

/-- Settles O21: each request is served by one definition, and a line without holders is asked of the host. -/
theorem homeRequestsComplete : Obligations.HomeRequestsComplete := by
  unfold Obligations.HomeRequestsComplete
  intro s r l age q hq
  have hask : ∀ s, exec q.1 s = atHome q.1 (holderReq q.2.1 r l age) s := by
    simp only [List.mem_cons, List.not_mem_nil, or_false] at hq
    obtain rfl | rfl | rfl := hq <;> exact fun _ => rfl
  have hkind : (q.2.1, q.2.2) ∈ [(ReqKind.getS, ReqKind.getS), (.getM, .getM), (.getCur, .rdCur)] := by
    simp only [List.mem_cons, List.not_mem_nil, or_false] at hq
    obtain rfl | rfl | rfl := hq <;> simp
  refine ⟨?_, fun h => ?_, fun hr ha => ⟨fun hs hi hf => ?_, fun hs => ?_⟩⟩
  · simp only [List.mem_cons, List.not_mem_nil, or_false] at hq
    obtain rfl | rfl | rfl := hq <;> exact completes_continues rfl rfl
  · exact ⟨s, by rw [hask, atHome_stays h], rfl⟩
  · refine ⟨_, (hask s).trans (atHome_runs hr ha), ?_⟩
    rw [holderReq_idle (q := q.2.2) r age hkind (homeOn_taken hr) (by rw [getDir_taken]; exact hs) (by rw [getDir_taken]; exact hi)
      (by rw [setFull_taken]; exact hf)]
    have hd : getDir (emit (.d2h l q.2.2) (putDir l (askedDir (taken q.1 s) l q.2.1 q.2.2 r) (bumpLru (taken q.1 s)))) l =
        askedDir (taken q.1 s) l q.2.1 q.2.2 r := getDir_putDir_same l _ _
    refine ⟨?_, ?_, ?_, fun m hm => ?_, ⟨?_, ?_⟩, ?_⟩
    · rw [hd]; rfl
    · rw [hd]; rfl
    · rw [hd]; rfl
    · exact (getDir_putDir_other hm _ (bumpLru (taken q.1 s))).trans (getDir_taken q.1 s m)
    · simp [bumpLru, putDir]
    · rw [taken_mesh]; rfl
    · rw [taken_mesh]; rfl
  · refine ⟨_, (hask s).trans (atHome_runs hr ha), ?_⟩
    rw [holderReq_orphan _ r age (homeOn_taken hr) (by rw [getDir_taken]; exact hs), toHolder_nackP]
    refine ⟨⟨rfl, ?_⟩, ?_⟩
    · rw [taken_mesh]; rfl
    · rw [taken_mesh]; rfl

end Sys2Proof.Proofs

/-! PROOFS. Puts and responses at the home, and the host's side of the coherent link (R180 to R200). -/

namespace Sys2Proof.Proofs

open Sys2Proof.Machine Sys2Proof.Laws

theorem getDir_emit (e : Emit) (s : State) (l : LineA) : getDir (emit e s) l = getDir s l := rfl

/-! ## Puts -/

theorem holderPut_leaving {s : State} {r : Holder} {l : LineA} (age : BitVec 4) (d : Block) (x : Bool)
    (ho : homeOn s = true) (hs : (getDir s l).hs = .evict ∨ (getDir s l).hs = .evictSnooped) :
    holderPut r l age d x s = toHolder r l "PutAck" none s := by
  rcases hs with hs | hs <;> simp [holderPut, ho, hs]

/-- The entry of a line whose last holder has put it. -/
def putEvicted (s : State) (l : LineA) (d : Block) (poison dirty : Bool) : Dir :=
  {
    hs := .evict, data := some (d, poison, dirty), domain := fgetU s .home .failMode == 1, lru := s.lruCtr
    held := (getDir s l).held }

theorem startEvict_eq (l : LineA) (d : Block) (poison dirty : Bool) (s : State) : startEvict l d poison dirty s =
    emit (.evict l dirty poison) (putDir l (putEvicted s l d poison dirty) s) := rfl

/-- The Put of a line's last holder is acknowledged, and the line is written out (R180, R181). -/
theorem holderPut_last {s : State} {r : Holder} {l : LineA} (age : BitVec 4) (d : Block) (x : Bool) (ho : homeOn s = true)
    (hs : (getDir s l).hs = .idle) (hp : (getDir s l).p = [r]) : holderPut r l age d x s =
      startEvict l d x ((getDir s l).owner == some r) (toHolder r l "PutAck" none s) := by
  simp [holderPut, ho, hs, servePut, hp, lowest]

/-! ## Responses -/

/-- What an entry keeps of the data that its holders have sent (R179, R194). -/
def dataWith (resp : Option (Block × Bool × Bool)) (d : Dir) : Option (Block × Bool × Bool) :=
  match resp, d.data with
  | some x, none => some x
  | some x, some y => if x.2.2 then some x else some y
  | none, y => y

/-- An entry to which a holder has answered. -/
def answered (h : Holder) (resp : Option (Block × Bool × Bool)) (d : Dir) : Dir :=
  { d with
    await := d.await.filter (fun x => x != h), data := dataWith resp d
    p := if dropsLine d then d.p.filter (fun x => x != h) else d.p }

theorem collect_awaited {s : State} {h : Holder} {l : LineA} (resp : Option (Block × Bool × Bool))
    (hs : (getDir s l).hs = .waitLocal ∨ (getDir s l).hs = .waitHost) (ha : h ∈ (getDir s l).await) :
    collect h l resp s = gathered l (putDir l (answered h resp (getDir s l)) s) := by
  have hw : ((getDir s l).hs ≠ .waitHost && (getDir s l).hs ≠ .waitLocal) = false := by
    rcases hs with hs | hs <;> rw [hs] <;> rfl
  have hc : (!(getDir s l).await.contains h) = false := by rw [List.contains_iff_mem.2 ha]; rfl
  unfold collect
  dsimp only
  rw [if_neg (by rw [hw]; decide), if_neg (by rw [hc]; decide)]
  rfl

/-- While another response is awaited, the transaction waits. -/
theorem gathered_waits {s : State} {l : LineA} (h : (getDir s l).await ≠ []) : gathered l s = s := by
  simp [gathered, h]

/-- Settles O22: a Put by what its entry does, a response by what is still awaited. -/
theorem homeResponsesComplete : Obligations.HomeResponsesComplete := by
  unfold Obligations.HomeResponsesComplete
  intro s r l age d x y hr
  refine ⟨fun c hc => ?puts, fun hs ha hmore c hc harr => ?responses, completes_continues rfl rfl,
    completes_continues rfl rfl, completes_continues rfl rfl⟩
  case puts =>
    have hput : ∀ s, exec c s = atHome c (holderPut r l age d x) s := by
      simp only [List.mem_cons, List.not_mem_nil, or_false] at hc
      obtain rfl | rfl | rfl := hc <;> exact fun _ => rfl
    refine ⟨?_, fun ha hs => ?_, fun ha hs hp => ?_⟩
    · simp only [List.mem_cons, List.not_mem_nil, or_false] at hc
      obtain rfl | rfl | rfl := hc <;> exact completes_continues rfl rfl
    · refine ⟨_, (hput s).trans (atHome_runs hr ha), ?_⟩
      rw [holderPut_leaving age d x (homeOn_taken hr) (by rw [getDir_taken]; exact hs), toHolder_putAck]
      refine ⟨⟨rfl, ?_⟩, ?_⟩ <;> rw [taken_mesh] <;> rfl
    · refine ⟨_, (hput s).trans (atHome_runs hr ha), ?_⟩
      rw [holderPut_last age d x (homeOn_taken hr) (by rw [getDir_taken]; exact hs) (by rw [getDir_taken]; exact hp),
        getDir_taken, toHolder_putAck, startEvict_eq]
      generalize hu : homeSends r .response (.putack r l) none (.toHolder r l "PutAck" none) (taken c s) = u
      have hd : getDir (emit (.evict l ((getDir s l).owner == some r) x)
        (putDir l (putEvicted u l d x ((getDir s l).owner == some r)) u)) l =
          putEvicted u l d x ((getDir s l).owner == some r) := by
        rw [getDir_emit, getDir_putDir_same]
      refine ⟨?_, ?_, fun m hm => ?_, ⟨?_, ?_⟩, ?_⟩
      · rw [hd]; rfl
      · rw [hd]; rfl
      · rw [getDir_emit, getDir_putDir_other hm, ← hu]
        exact getDir_taken c s m
      · rw [← hu]; rfl
      · rw [← hu]
        change (taken c s).out ++ [_] ++ [_] = _
        rw [taken_mesh, List.append_assoc]
        rfl
      · rw [← hu, taken_mesh]; rfl
  case responses =>
    obtain ⟨resp, hresp, hdata⟩ : ∃ resp, (∀ s, exec c s = atHome c (collect r l resp) s) ∧
        ((getDir s l).data = none → c = .dataresp r l d x y → dataWith resp (getDir s l) = some (d, y, x)) := by
      simp only [List.mem_cons, List.not_mem_nil, or_false] at hc
      obtain rfl | rfl := hc
      · exact ⟨some (d, y, x), fun _ => rfl, fun h _ => by simp only [dataWith, h]⟩
      · exact ⟨none, fun _ => rfl, fun _ h => nomatch h⟩
    refine ⟨_, (hresp s).trans (atHome_runs hr harr), ?_⟩
    have hd : getDir (putDir l (answered r resp (getDir s l)) (taken c s)) l = answered r resp (getDir s l) :=
      getDir_putDir_same l _ _
    rw [collect_awaited resp (by rw [getDir_taken]; exact hs) (by rw [getDir_taken]; exact ha), getDir_taken,
      gathered_waits (by rw [hd]; exact hmore)]
    refine ⟨?_, ?_, fun hn hc => ?_, fun m hm => ?_, ⟨?_, ?_⟩, ?_⟩
    · rw [hd]; rfl
    · rw [hd]; rfl
    · rw [hd]; exact hdata hn hc
    · exact (getDir_putDir_other hm _ _).trans (getDir_taken c s m)
    · simp [putDir]
    · rw [taken_mesh]; simp [putDir]
    · rw [taken_mesh]; rfl

/-! ## Domain-down (R198, R200) -/

theorem storeFailed_ringwise (e : Eng) (v : Vi) (i : Job) (k : Nat) (c : Compl) (s : State) :
    Ringwise s (storeFailed e v i k c s) := by
  refine .mk rfl (runs := ?_)
  refine .updEng (fun x hx => ?_) e s
  rw [Option.any_map] at hx
  cases hr : x.run with
  | none => rw [hr] at hx; exact hx
  | some r =>
    rw [hr] at hx
    simp only [Option.any_some] at hx ⊢
    split at hx <;> exact hx

theorem storeEnds_ringwise (w : Who) (st : Status) (s : State) : Ringwise s (storeEnds w st s) := by
  unfold storeEnds
  split
  · exact .ite (storeFailed_ringwise _ _ _ _ _ s) (updVi_ringwise s _ _)
  · exact updVi_ringwise s _ _
  · exact updVi_ringwise s _ _
  · exact .refl s

theorem accessEnds_ringwise (h : Holder) (l : LineA) (w : Who) (st : Status) (s : State) :
    Ringwise s (accessEnds h l w st s) := by
  unfold accessEnds
  split
  · exact .refl s
  · exact storeEnds_ringwise _ st s
  · exact storeEnds_ringwise _ st s
  · exact storeEnds_ringwise _ st s
  · exact .mk rfl
  · exact .mk rfl

theorem failAll_ringwise (s : State) : Ringwise s (failAll s) := .foldl (fun _ _ => accessEnds_ringwise _ _ _ _ _) _ s

/-- The domain has gone down, and the host has been told once. -/
def domainMarked (cause : Nat) (s : State) : State :=
  if cause = 2 || s.viralTx then report .home 0x40 cause none none { s with domainDown := true }
  else emit .viral { report .home 0x40 cause none none { s with domainDown := true } with viralTx := true }

theorem domainFall_ringwise {s : State} (cause : Nat) (h : s.domainDown = false) :
    Ringwise (domainMarked cause s) (domainFall cause s) := by
  have hv : (report .home 0x40 cause none none { s with domainDown := true }).viralTx = s.viralTx := by
    obtain ⟨f, g, h⟩ := report_same .home 0x40 cause none none { s with domainDown := true }
    rw [h]
  unfold domainFall
  rw [if_neg (by simp [h])]
  dsimp only
  rw [hv]
  change Ringwise (domainMarked cause s) _
  refine .trans (.trans (failAll_ringwise _) (.mk rfl)) (.foldl (fun _ _ => stopVi_ringwise _ _ _ _) _ _)

theorem domainMarked_down (cause : Nat) (s : State) :
    (domainMarked cause s).domainDown = true ∧ (domainMarked cause s).viralRx = s.viralRx := by
  obtain ⟨f, g, h⟩ := report_same .home 0x40 cause none none { s with domainDown := true }
  unfold domainMarked
  rw [h]
  split <;> exact ⟨rfl, rfl⟩

/-- After domain-down the domain is down, whatever stood before. -/
theorem domainFall_down (cause : Nat) (s : State) :
    (domainFall cause s).domainDown = true ∧ (domainFall cause s).viralRx = s.viralRx := by
  cases h : s.domainDown with
  | true =>
    have : domainFall cause s = s := by rw [domainFall, if_pos h]
    rw [this]
    exact ⟨h, rfl⟩
  | false =>
    obtain ⟨hd, hr⟩ := domainMarked_down cause s
    rw [(domainFall_ringwise cause h).same]
    exact ⟨hd, hr⟩

/-! ## Flags that wait for the host -/

/-- With no flag of any VI waiting or under way, nothing goes on. -/
theorem pumpAll_of_noFlags {s : State} (h : NoFlags s) : pumpAll s = s := by
  have hstep : ∀ v, pump v (flagFails v s) = s := by
    intro v
    obtain ⟨hq, hr⟩ := h v
    have hf : flagFails v s = s := by rw [flagFails, hr]
    rw [hf, pump, hq]
    rfl
  have hfold : ∀ l : List (Nat × ViSt), l.foldl (fun s p => pump (viNo p.1) (flagFails (viNo p.1) s)) s = s := by
    intro l
    induction l with
    | nil => rfl
    | cons p l ih => rw [List.foldl_cons, hstep, ih]
  rw [pumpAll, hfold, ite_self]

theorem NoFlags.of_same {s t : State} (h : NoFlags s) (hv : t.vis = s.vis) (hr : t.hret = s.hret) : NoFlags t := by
  intro v
  obtain ⟨hq, hn⟩ := h v
  refine ⟨?_, ?_⟩
  · rw [getVi_of_vis hv]
    exact hq
  · rw [retOf, hr]
    exact hn

/-- Settles O23: the snoops and answers go on; after domain-down a pull is Bogus, and viral indications take it down. -/
theorem hostCoherenceComplete : Obligations.HostCoherenceComplete := by
  unfold Obligations.HostCoherenceComplete
  refine ⟨fun s l g d x _ => ⟨?_, ?_, ?_, ?_, ?_, ?_, ?_, ?_, ?_⟩, fun s l hr hi hd hn => ?_, fun s hr hc => ⟨?_, fun hd => ?_⟩⟩
  iterate 9 exact completes_continues rfl rfl
  · have hoff : homeRuns s = false := by simp [homeRuns, homeOn, hd]
    have hpull : pullNow l s = emit (.pullData l 0 false true) s := by simp [pullNow, hoff, hr, hd]
    refine ⟨pumpAll (pullNow l s), by rw [exec, execGoWritepull, if_pos hi], ?_⟩
    rw [hpull, pumpAll_of_noFlags (NoFlags.of_same (t := emit (.pullData l 0 false true) s) hn rfl rfl)]
    rfl
  · refine completes_and_continues rfl ⟨domainFall 2 { s with viralRx := true }, by
      rw [exec, execViralRx, if_pos (by rw [hr, hc]; rfl)], domainFall_down 2 _⟩
  · refine ⟨domainFall 2 { s with viralRx := true }, by
      rw [exec, execViralRx, if_pos (by rw [hr, hc]; rfl)], ?_⟩
    rw [domainFall, if_pos hd]

end Sys2Proof.Proofs

/-! PROOFS. The holders. A line that changes at a holder of a kiln die takes the reservation of an LDR whose data is still
on its way back to its engine (R367): the frames of HoldersComplete and HolderMessagesTakeEffect leave that record out. -/

namespace Sys2Proof.Proofs

open Sys2Proof.Machine Sys2Proof.Laws

/-- A device in FIRED with CXL, and an LDR of kiln die 0 whose line 0 has been returned and not yet taken up. -/
def ldrReturned (hl : SMap HLine) : State :=
  { State.reset with
    boot := .fired, hostPorts := [(0, { dlUp := true, speed := 5, width := 16, cxl := true })], hl := hl
    hret := [{ h := 0, line := 0, who := .ldr 0 0, kept := true }] }

/-- The commands that follow leave the record of the LDR as it was. -/
def keepsReturns (c : Instr) (s : State) : Bool := match exec c s with
  | .next t => decide (t.hret = s.hret)
  | .fault _ => true
  | .refused _ => true

theorem keepsReturns_of_next {c : Instr} {s t : State} (h : exec c s = .next t) (ht : t.hret = s.hret) :
    keepsReturns c s = true := by
  rw [keepsReturns, h]
  exact decide_eq_true ht

/-- A whole-line STREAM store to the line of an LDR takes its reservation. -/
theorem sliceStore_takesReservation :
    keepsReturns (.sliceStore 0 0 (BitVec.allOnes 64) 1 true) (ldrReturned []) = false := by decide +kernel

/-- So does an Inv of the line. -/
theorem inv_takesReservation :
    keepsReturns (.inv 0 0) (ldrReturned [(0, { st := .s })]) = false := by decide +kernel

/-- Refutes O24: a STREAM store marks the returned LDR of its line as lost, which the frame does not allow. -/
theorem not_holdersComplete : ¬ Obligations.HoldersComplete := by
  unfold Obligations.HoldersComplete
  rintro ⟨-, hstore, -⟩
  obtain ⟨t, ht, -, -, -, -, hsame⟩ := hstore (ldrReturned []) 0 0 1 (by decide +kernel) (by decide +kernel)
    (by decide +kernel) (by decide +kernel) (by decide +kernel) (by decide +kernel)
  have hret : t.hret = (ldrReturned []).hret := by rw [hsame]
  exact absurd (keepsReturns_of_next ht hret) (by rw [sliceStore_takesReservation]; decide)

theorem getHl_single (x : HLine) (h : Holder) (m : LineA) :
    getHl (ldrReturned [(0, x)]) h m = x ∨ getHl (ldrReturned [(0, x)]) h m = {} := by
  unfold getHl ldrReturned
  simp only [mget]
  split
  · exact .inl rfl
  · exact .inr rfl

/-- Refutes O46: an Inv marks the returned LDR of its line as lost, which the frame does not allow. -/
theorem not_holderMessagesTakeEffect : ¬ Obligations.HolderMessagesTakeEffect := by
  unfold Obligations.HolderMessagesTakeEffect
  intro h
  have hcalm : ∀ m, (getHl (ldrReturned [(0, { st := .s })]) 0 m).parked = false ∧
      (getHl (ldrReturned [(0, { st := .s })]) 0 m).leave = false := by
    intro m
    obtain hm | hm := getHl_single { st := .s } 0 m <;> rw [hm] <;> exact ⟨rfl, rfl⟩
  obtain ⟨hcells, -, -⟩ := h (ldrReturned [(0, { st := .s })]) 0 0 (by decide +kernel) (by decide) hcalm
  obtain ⟨-, hinv, -⟩ := hcells (by decide +kernel)
  obtain ⟨t, ht, -, -, -, -, hsame⟩ := hinv (by decide +kernel) (by decide +kernel)
  have hret : t.hret = (ldrReturned [(0, { st := .s })]).hret := by rw [hsame]
  exact absurd (keepsReturns_of_next ht hret) (by rw [inv_takesReservation]; decide)

end Sys2Proof.Proofs

/-! PROOFS. What the line store, the flags and the reads of its lines leave of a VI: all but its lines, its stop and its
fetches. -/

namespace Sys2Proof.Proofs

open Sys2Proof.Machine Sys2Proof.Laws

/-- From x to y a VI's lines may be read, watched, polled or woken, its service may stop and drop what is fetched, and its
flags may go on; the rest stands. -/
structure LineStep (x y : ViSt) : Prop where
  same : y = { x with
    dbWake := y.dbWake, mbWake := y.mbWake, dbWatched := y.dbWatched, mbWatched := y.mbWatched, dbReading := y.dbReading
    mbReading := y.mbReading, dbPolled := y.dbPolled, mbPolled := y.mbPolled, stopped := y.stopped
    stopCause := y.stopCause, stopPoison := y.stopPoison, fetching := y.fetching, fetched := y.fetched, outq := y.outq
    ringIdle := y.ringIdle }
  fetched : y.fetched = x.fetched ∨ y.fetched = []

theorem LineStep.refl (x : ViSt) : LineStep x x := ⟨rfl, .inl rfl⟩
theorem LineStep.trans {x y z : ViSt} (h : LineStep x y) (k : LineStep y z) : LineStep x z :=
  ⟨by rw [k.same, h.same], k.fetched.elim (fun e => h.fetched.imp e.trans e.trans) .inr⟩

/-- Every VI goes through such a step. -/
def LinesKept (s t : State) : Prop := ∀ v, LineStep (getVi s v) (getVi t v)

namespace LinesKept

variable {s t u : State}

theorem refl (s : State) : LinesKept s s := fun _ => .refl _
theorem trans (h : LinesKept s t) (k : LinesKept t u) : LinesKept s u := fun v => (h v).trans (k v)
theorem of_vis (h : t.vis = s.vis) : LinesKept s t := fun v => by rw [getVi_of_vis h]; exact .refl _
theorem then_vis (h : LinesKept s t) (k : u.vis = t.vis) : LinesKept s u := h.trans (.of_vis k)
theorem ite {c : Prop} [Decidable c] (ht : LinesKept s t) (hu : LinesKept s u) : LinesKept s (if c then t else u) := by
  split <;> assumption
theorem foldl {α : Type} {f : State → α → State} (hf : ∀ t x, LinesKept t (f t x)) (l : List α) (s : State) :
    LinesKept s (l.foldl f s) := foldl_same refl (fun _ _ _ => trans) hf l s

theorem updVi (v : Vi) {f : ViSt → ViSt} (s : State) (hf : ∀ x, LineStep x (f x)) :
    LinesKept s (Machine.updVi v f s) := by
  intro w
  by_cases h : v = w
  · rw [← h, getVi_updVi_same]
    exact hf _
  · rw [getVi_updVi_other f h]
    exact .refl _

end LinesKept

theorem setWake_step (k : LineKind) (b : Bool) (x : ViSt) : LineStep x (setWake k b x) := by
  cases k <;> exact ⟨rfl, .inl rfl⟩
theorem setWatched_step (k : LineKind) (b : Bool) (x : ViSt) : LineStep x (setWatched k b x) := by
  cases k <;> exact ⟨rfl, .inl rfl⟩
theorem setReading_step (k : LineKind) (b : Bool) (x : ViSt) : LineStep x (setReading k b x) := by
  cases k <;> exact ⟨rfl, .inl rfl⟩
theorem setPolled_step (k : LineKind) (b : Bool) (x : ViSt) : LineStep x (setPolled k b x) := by
  cases k <;> exact ⟨rfl, .inl rfl⟩

section
variable (s : State)

/-! ## The line store -/

theorem storeLoses_linesKept (h : Holder) (l : LineA) : LinesKept s (storeLoses h l s) := by
  refine .ite ?_ (.refl s)
  unfold dropWatch
  extract_lets t
  refine .trans (t := t) (.of_vis rfl)
    (.foldl (fun u p => .foldl (fun w k => .ite (.updVi _ w fun x => ?_) (.refl w)) _ u) _ t)
  exact (setWatched_step k false x).trans (setWake_step k true _)

theorem evictLine_linesKept (h : Holder) (l : LineA) : LinesKept s (evictLine h l s) := by
  unfold evictLine
  extract_lets x
  refine .ite (.refl s) (.ite (.of_vis rfl) ?_)
  exact .then_vis (.trans (.of_vis (clearHostResv_vis s h l.toNat)) (storeLoses_linesKept _ h l)) (sendHome_vis _ _ _ _ _ _)

theorem place_linesKept (h : Holder) (l : LineA) (m : String) (st : HSt) : LinesKept s (place h l m st s) := by
  unfold place
  refine .ite (.of_vis (by simp)) ?_
  unfold awaitRoom
  extract_lets t
  have ht : LinesKept s t := .of_vis rfl
  clear_value t
  refine .ite ?_ ht
  split
  · exact ht.trans (evictLine_linesKept t _ _)
  · exact ht

theorem serveWaits_linesKept (h : Holder) (l : LineA) (n : Nat) : LinesKept s (serveWaits h l n s) := by
  induction n generalizing s with
  | zero => exact .refl s
  | succ n ih =>
    have next {t : State} (ht : t.vis = s.vis) : LinesKept s (serveWaits h l n t) := .trans (.of_vis ht) (ih t)
    unfold serveWaits
    dsimp only
    split
    · exact .refl s
    · split
      · exact place_linesKept s _ _ _ _
      · exact .of_vis (by simp)
      · exact next (by simp)
      · refine .ite (next (by simp)) ?_
        split
        · exact place_linesKept s _ _ _ _
        · exact .of_vis (by simp)
        · exact .of_vis (by simp)
        · exact .ite (.trans (.of_vis (by simp)) (evictLine_linesKept _ _ _)) (next (by simp))
        · exact .refl s

theorem access_linesKept (h : Holder) (l : LineA) (w : Wait) (who : Who) : LinesKept s (access h l w who s) := by
  unfold access
  extract_lets x queue hit
  have hq : LinesKept s queue := .of_vis rfl
  have hh : LinesKept s hit := by
    subst hit
    split
    · exact .of_vis (by simp)
    · exact hq
  have hg : LinesKept s (goOn h l queue) := hq.trans (.ite (.refl _) (serveWaits_linesKept _ _ _ _))
  split
  · exact .ite hg hq
  all_goals assumption

/-! ## Stops, flags, reads and fetches -/

theorem stopVi_linesKept (v : Vi) (c : Nat) (p : Bool) : LinesKept s (stopVi v c p s) := by
  unfold stopVi
  generalize hu : updVi v _ s = u
  have hk : LinesKept s u := by
    rw [← hu]
    exact .updVi v s fun x => ⟨rfl, .inr rfl⟩
  exact hk.then_vis (raiseVec_vis _ _ _)

theorem stopRing_linesKept (v : Vi) (c : Nat) (p : Bool) : LinesKept s (stopRing v c p s) := by
  unfold stopRing
  exact .ite (.refl s) (.trans (.of_vis (report_vis s _ _ _ _ _)) (stopVi_linesKept _ v c p))

theorem pumpOne_linesKept {t : State} {v : Vi} (h : pumpOne v s = some t) : LinesKept s t := by
  unfold pumpOne at h
  split at h
  · cases h
  · next r l _ =>
    extract_lets u at h
    have hu : LinesKept s u := .updVi v s fun _ => ⟨rfl, .inl rfl⟩
    clear_value u
    split at h
    · obtain rfl := Option.some.inj h
      exact hu.then_vis (freeSlot_vis u _ _)
    · split at h
      · obtain rfl := Option.some.inj h
        exact hu.then_vis (sendLine_vis u _ _ _)
      · cases h
    · split at h
      · cases h
      · obtain rfl := Option.some.inj h
        exact .ite (hu.then_vis (raiseCompletion_vis u v)) (hu.then_vis (raiseVec_vis u v _))
    · split at h
      · cases h
      · obtain rfl := Option.some.inj h
        exact hu.trans (.updVi v u fun _ => ⟨rfl, .inl rfl⟩)

theorem pumpN_linesKept (v : Vi) (n : Nat) : LinesKept s (pumpN v n s) := by
  induction n generalizing s with
  | zero => exact .refl s
  | succ n ih =>
    unfold pumpN
    split
    next t h => exact (pumpOne_linesKept s h).trans (ih t)
    · exact .refl s

theorem ringOut_linesKept (v : Vi) (l : List RingOut) : LinesKept s (ringOut v l s) := by
  unfold ringOut pump
  refine .trans (.updVi v s ?_) (pumpN_linesKept _ v _)
  exact fun _ => ⟨rfl, .inl rfl⟩

theorem readLine_linesKept (v : Vi) (k : LineKind) : LinesKept s (readLine v k s) := by
  unfold readLine
  refine .ite (.updVi v s fun x => setWake_step k true x) (.ite (stopRing_linesKept s _ _ _) ?_)
  extract_lets l can room t
  have ht : LinesKept s t := .updVi v s fun x =>
    ((setWake_step k false x).trans (setReading_step k true _)).trans (setPolled_step k _ _)
  clear_value t
  exact .ite (ht.trans (access_linesKept t _ _ _ _)) (ht.then_vis rfl)

theorem fetchNow_linesKept (v : Vi) : LinesKept s (fetchNow v s) := by
  unfold fetchNow
  extract_lets n off t a
  have ht : LinesKept s t := .updVi v s fun _ => ⟨rfl, .inl rfl⟩
  clear_value t
  exact .ite (.refl s) (.ite (stopRing_linesKept s _ _ _)
    (.ite (ht.trans (.foldl (fun u i => access_linesKept u _ _ _ _) _ t)) (ht.then_vis rfl)))

theorem rearm_linesKept : LinesKept s (rearm s) :=
  .foldl (fun t _ => .foldl (fun u k => .ite (readLine_linesKept u _ k) (.refl u)) _ t) _ s

end

end Sys2Proof.Proofs

/-! PROOFS. The ring engine's lines and mailbox (R210, R234 to R238, R661). -/

namespace Sys2Proof.Proofs

open Sys2Proof.Machine Sys2Proof.Laws

/-! ## A doorbell that has been read -/

/-- The indices of a doorbell line are beyond what the VI's rings hold. -/
def doorbellWild (s : State) (v : Vi) (d : Block) : Bool :=
  decide ((BitVec.ofNat 32 (blockField d 0 4) - (getVi s v).ciCmd).toNat > 2 ^ cmdLog s v) ||
    decide (((getVi s v).piCpl - BitVec.ofNat 32 (blockField d 8 4)).toNat > 2 ^ cplLog s v)

/-- The command index that a doorbell line leaves (R210, R661). -/
def doorbellPi (s : State) (v : Vi) (d : Block) : BitVec 32 :=
  if doorbellWild s v d then (getVi s v).ciCmd + BitVec.ofNat 32 (free s % (2 ^ cmdLog s v + 1))
  else BitVec.ofNat 32 (blockField d 0 4)
/-- And the completion index. -/
def doorbellCi (s : State) (v : Vi) (d : Block) : BitVec 32 :=
  if doorbellWild s v d then (getVi s v).piCpl - BitVec.ofNat 32 (free s / 2 ^ 32 % (2 ^ cplLog s v + 1))
  else BitVec.ofNat 32 (blockField d 8 4)

/-- The part of a VI that a doorbell line gives. -/
def Doorbell (x : ViSt) (pi sq ci ack : BitVec 32) : Prop := x.pi = pi ∧ x.seqSeen = sq ∧ x.ciCpl = ci ∧ x.upAck = ack

theorem LineStep.doorbell {x y : ViSt} {pi sq ci ack : BitVec 32} (h : LineStep x y) (k : Doorbell x pi sq ci ack) :
    Doorbell y pi sq ci ack := by
  rw [h.same]
  exact k

theorem line0Data_doorbell (v : Vi) (d : Block) (s : State) : Doorbell (getVi (line0Data v d s) v) (doorbellPi s v d)
    (BitVec.ofNat 32 (blockField d 4 4)) (doorbellCi s v d) (BitVec.ofNat 32 (blockField d 12 4)) := by
  unfold line0Data
  extract_lets x pi sq ci ack wild pi' ci' t u
  have hu : Doorbell (getVi u v) pi' sq ci' ack := by
    rw [getVi_updVi_same]
    exact ⟨rfl, rfl, rfl, rfl⟩
  clear_value u
  refine (fetchNow_linesKept _ v v).doorbell ?_
  rw [getVi_updVi_same]
  exact hu

/-- The line's reading ends, and its data waits to be taken. -/
def doorbellRead (v : Vi) (s : State) : State :=
  updVi v (fun x => setWake .doorbell (false || x.dbWake) (setWatched .doorbell (false && !false && watchable s v) x))
    (updVi v (setReading .doorbell false) s)

theorem execLine0ReadReturn_doorbell {s : State} {v : Vi} (d : Block) (hr : ringOn s v = true) (hs : served s v = true)
    (hh : viaHome s v = false) (hb : isReading (getVi s v) .doorbell = true) :
    exec (.line0ReadReturn v .doorbell (.data d)) s = .next (rearm (line0Data v d (doorbellRead v s))) := by
  rw [exec, execLine0ReadReturn, if_pos hr, lineEnds, if_pos (by rw [hh]; rfl), lineReturn,
    if_neg (by rw [hb, hs]; decide)]
  rfl

theorem getVi_doorbellRead (v : Vi) (s : State) : (getVi (doorbellRead v s) v).ciCmd = (getVi s v).ciCmd ∧
    (getVi (doorbellRead v s) v).piCpl = (getVi s v).piCpl := by
  have h : LineStep (getVi s v) (getVi (doorbellRead v s) v) := by
    rw [doorbellRead, getVi_updVi_same, getVi_updVi_same]
    exact ((setReading_step _ _ _).trans (setWatched_step _ _ _)).trans (setWake_step _ _ _)
  rw [h.same]
  exact ⟨rfl, rfl⟩

theorem doorbellWild_read (v : Vi) (d : Block) (s : State) : doorbellWild (doorbellRead v s) v d = doorbellWild s v d := by
  obtain ⟨hc, hp⟩ := getVi_doorbellRead v s
  rw [doorbellWild, hc, hp]
  rfl

theorem line0ReadReturn_doorbell {s : State} {v : Vi} (d : Block) :
    Doorbell (getVi (rearm (line0Data v d (doorbellRead v s))) v) (doorbellPi s v d)
      (BitVec.ofNat 32 (blockField d 4 4)) (doorbellCi s v d) (BitVec.ofNat 32 (blockField d 12 4)) := by
  have hpi : doorbellPi (doorbellRead v s) v d = doorbellPi s v d := by
    rw [doorbellPi, doorbellWild_read, (getVi_doorbellRead v s).1]
    rfl
  have hci : doorbellCi (doorbellRead v s) v d = doorbellCi s v d := by
    rw [doorbellCi, doorbellWild_read, (getVi_doorbellRead v s).2]
    rfl
  rw [← hpi, ← hci]
  exact (rearm_linesKept _ v).doorbell (line0Data_doorbell v d _)

/-! ## Mailbox messages -/

theorem mbox_gate {s : State} {v : Vi} (hr : ringOn s v = true) (hm : mbOn s v = true) (hs : (getVi s v).stopped = false) :
    (!ringOn s v || !mbOn s v || (getVi s v).stopped) = false := by
  rw [hr, hm, hs]
  rfl

theorem mboxDone_leaves (v : Vi) (m : Down) (st : Nat) (s : State) : (getVi (mboxDone v m st s) v).down = none ∧
    (getVi (mboxDone v m st s) v).mboxAck = m.seq ∧ (getVi (mboxDone v m st s) v).mboxStatus = st ∧
    mboxDone v m st s = { s with vis := (mboxDone v m st s).vis } := by
  rw [mboxDone, getVi_updVi_same]
  exact ⟨rfl, rfl, rfl, rfl⟩

theorem deliver_none {s : State} {v : Vi} (h : (getVi s v).down = none) : deliver v s = s := by rw [deliver, h]

/-- A message of an engine that is fenced ends; an incomplete one and one whose slot is occupied wait (R237). -/
theorem deliver_fenced {s : State} {v : Vi} {m : Down} {e : Eng} (hd : (getVi s v).down = some m)
    (he : (viEngines s .ring v)[m.veng]? = some e) (hf : engFenced s e = true) : deliver v s = mboxDone v m 0x30 s := by
  simp [deliver, hd, he, hf]

theorem deliver_waits {s : State} {v : Vi} {m : Down} {e : Eng} (hd : (getVi s v).down = some m)
    (he : (viEngines s .ring v)[m.veng]? = some e) (hf : engFenced s e = false)
    (hb : bitAt (fgetU s .ring .slotMask v.val) m.slot = true)
    (hw : payBlocks m = none ∨ (mget {} (eng s e).slots m.slot).st ≠ .free) : deliver v s = s := by
  rcases hw with hw | hw
  · simp [deliver, hd, he, hf, hb, hw]
  · simp only [deliver, hd, he, hf, hb]
    cases payBlocks m with
    | none => rfl
    | some l => exact if_pos hw

/-- The slot of an engine as a message fills it. -/
def slotFilled (v : Vi) (m : Down) (l : List Block) (e : Eng) (s : State) : State :=
  tick (updEng e (fun y => { y with
    slots := mset {} y.slots m.slot { st := .down, data := msgBytes s m l, vi := v.val } }) s)

theorem deliver_enters {s : State} {v : Vi} {m : Down} {e : Eng} {l : List Block} (hd : (getVi s v).down = some m)
    (he : (viEngines s .ring v)[m.veng]? = some e) (hf : engFenced s e = false)
    (hb : bitAt (fgetU s .ring .slotMask v.val) m.slot = true) (hl : payBlocks m = some l)
    (hs : (mget {} (eng s e).slots m.slot).st = .free) : deliver v s = mboxDone v m 0 (slotFilled v m l e s) := by
  simp only [deliver, hd, he, hf, hb, hl, hs]
  rfl

theorem execMboxDeliver_read {s : State} {v : Vi} {m : Down} {l : List Block} (x : FetchRes) (hr : ringOn s v = true)
    (hm : mbOn s v = true) (hs : (getVi s v).stopped = false) (hd : (getVi s v).down = some m) (hl : payBlocks m = some l) :
    exec (.mboxDeliver v x) s = .next (deliver v s) := by
  rw [exec, execMboxDeliver, if_neg (by rw [mbox_gate hr hm hs]; decide), deliverWith]
  simp [hd, hl]

theorem execMboxPayload_on {s : State} {v : Vi} {n : Nat} {x : HostRes} (hr : ringOn s v = true) (hm : mbOn s v = true)
    (hs : (getVi s v).stopped = false) : execMboxPayload v n x s = .next (deliver v (payIn v n x s)) := by
  rw [execMboxPayload, if_neg (by rw [mbox_gate hr hm hs]; decide)]

theorem execHostReadCompletion_mbox (v : Vi) (n : Fin 3) (x : HostRes) (s : State) :
    exec (.hostReadCompletion v (.mboxPayload n) x) s = execMboxPayload v n.val x s := by
  simp only [exec, execHostReadCompletion, hostReadEnds]

theorem execHostCompletionTimeout_mbox (v : Vi) (n : Fin 3) (s : State) :
    exec (.hostCompletionTimeout v (.mboxPayload n)) s = execMboxPayload v n.val .abort s := by
  simp only [exec, execHostCompletionTimeout, hostReadEnds]

/-- Settles O25: a doorbell line by its indices, a payload line by its answer, a message by its engine and slot. -/
theorem ringCommandsComplete : Obligations.RingCommandsComplete := by
  unfold Obligations.RingCommandsComplete
  refine ⟨fun s v k _ _ => completes_continues rfl rfl, fun s v _ => ⟨fun x => completes_continues rfl rfl,
      fun x => completes_continues rfl rfl, fun x => completes_continues rfl rfl, fun k x => completes_continues rfl rfl,
      fun e n => completes_continues rfl rfl⟩,
    fun s v d hr hs hh hb => ⟨fun hp hc => ?_, fun hp => ?_⟩,
    fun s v x _ => ⟨fun what => completes_continues rfl rfl, fun what => completes_continues rfl rfl⟩,
    fun s v m n hr hm hs hd => ⟨?_, ?_, fun d e he hf hb hp => ?_⟩,
    fun s v m e l x hr hm hs hd hl he => ⟨fun hf hb => ⟨fun hfree => ?_, fun hfree => ?_⟩, fun hf => ?_⟩⟩
  · refine completes_and_continues rfl ⟨_, execLine0ReadReturn_doorbell d hr hs hh hb, ?_⟩
    have hwild : doorbellWild s v d = false := by
      rw [doorbellWild, decide_eq_false (by omega), decide_eq_false (by omega)]
      rfl
    have h := line0ReadReturn_doorbell (s := s) (v := v) d
    rw [doorbellPi, doorbellCi, hwild] at h
    exact h
  · refine completes_and_continues rfl ⟨_, execLine0ReadReturn_doorbell d hr hs hh hb, ?_⟩
    have hwild : doorbellWild s v d = true := by
      rw [doorbellWild, decide_eq_true (by omega)]
      rfl
    have h := line0ReadReturn_doorbell (s := s) (v := v) d
    rw [doorbellPi, doorbellCi, hwild] at h
    exact h.1
  · refine ⟨_, (execHostReadCompletion_mbox v n _ s).trans (execMboxPayload_on hr hm hs), ?_⟩
    have hin : payIn v n.val .poisoned s = mboxDone v m 0x11 s := by unfold payIn; rw [hd]
    rw [hin, deliver_none (mboxDone_leaves v m 0x11 s).1]
    exact mboxDone_leaves v m 0x11 s
  · refine ⟨_, (execHostCompletionTimeout_mbox v n s).trans (execMboxPayload_on hr hm hs), ?_⟩
    have hin : payIn v n.val .abort s = mboxDone v m 0x10 s := by unfold payIn; rw [hd]
    rw [hin, deliver_none (mboxDone_leaves v m 0x10 s).1]
    exact mboxDone_leaves v m 0x10 s
  · refine ⟨_, (execHostReadCompletion_mbox v n _ s).trans (execMboxPayload_on hr hm hs), ?_⟩
    generalize hu : payIn v n.val (.data d) s = u
    have hin : u = updVi v (fun x => { x with down := some { m with payload := mset none m.payload n.val (some d) } }) s := by
      rw [← hu]
      unfold payIn
      rw [hd]
    have hdown : (getVi u v).down = some { m with payload := mset none m.payload n.val (some d) } := by
      rw [hin, getVi_updVi_same]
    rw [deliver_waits (e := e) hdown (by rw [hin]; exact he) (by rw [hin]; exact hf) (by rw [hin]; exact hb) (.inl hp)]
    exact ⟨hdown, by rw [hin]; rfl⟩
  · refine ⟨_, execMboxDeliver_read x hr hm hs hd hl, ?_⟩
    rw [deliver_enters hd he hf hb hl hfree]
    obtain ⟨hdown, hack, hst, hsame⟩ := mboxDone_leaves v m 0 (slotFilled v m l e s)
    refine ⟨?_, hdown, hack, hst, ?_⟩
    · have heng : eng (mboxDone v m 0 (slotFilled v m l e s)) e = _ := eng_updEng_same e (fun y => { y with
        slots := mset {} y.slots m.slot { st := .down, data := msgBytes s m l, vi := v.val } })
      rw [heng]
      simp
    · rw [hsame]
      rfl
  · exact ⟨_, execMboxDeliver_read x hr hm hs hd hl, deliver_waits hd he hf hb (.inr hfree)⟩
  · refine ⟨_, execMboxDeliver_read x hr hm hs hd hl, ?_⟩
    rw [deliver_fenced hd he hf]
    exact mboxDone_leaves v m 0x30 s

end Sys2Proof.Proofs

/-! PROOFS. Descriptors of the ring engine: what each one's command leaves (R224 to R227, R241 to R243, R261 to R276). -/

namespace Sys2Proof.Proofs

open Sys2Proof.Machine Sys2Proof.Laws

/-! ## DISPATCH of a host error -/

theorem LineStep.wild {x y : ViSt} (h : LineStep x y) : y.wild = x.wild := by rw [h.same]

theorem badDesc_wild (v : Vi) (f : Fly) (s : State) : (getVi (badDesc v f s) v).wild = true := by
  have hw : (getVi (ticks 5 (hostError v s)) v).wild = true := by
    change (getVi (updVi v (fun x => { x with wild := true }) s) v).wild = true
    rw [getVi_updVi_same]
  unfold badDesc
  rw [getVi_updVi_same]
  split
  · exact hw
  · exact hw

theorem NextIs.errs {s : State} {v : Vi} {i : BitVec 32} {d : Block} {l : List (BitVec 32 × Block)} (h : NextIs s v i d l)
    (hr : cplRoom s v = true) (hd : descOk d = false) :
    ∃ t, execDispatch v s = .next t ∧ (getVi t v).wild = true := by
  have hw := h.waitNotFull
  obtain ⟨on, served, awake, fetched, free, -⟩ := h
  refine ⟨fetchNow v (updVi v (fun x => { x with fetched := l, cplFull := false })
    (badDesc v { idx := { idx := i, lap := (getVi s v).lap }, desc := d, at_ := sampleAt s d } s)),
    by simp [execDispatch, *], ?_⟩
  rw [(fetchNow_linesKept _ v v).wild, getVi_updVi_same]
  exact badDesc_wild v _ s

/-! ## A descriptor that leaves without an entry -/

theorem execDescriptorComplete_quiet {s : State} {v : Vi} {i : BitVec 32} {f : Fly} {c : Compl} (hr : ringOn s v = true)
    (he : endedFly s v i = some (f, c))
    (hq : (getVi s v).stopped = true ∨ f.idx.lap ≠ (getVi s v).lap ∨ silent f.desc c.status = true) (ok : Bool) :
    execDescriptorComplete v i ok s = .next (dropFly v f.idx s) := by
  have hg : ((getVi s v).stopped || f.idx.lap != (getVi s v).lap || silent f.desc c.status) = true := by
    rcases hq with h | h | h <;> simp [h]
  simp only [execDescriptorComplete, hr, he, hg]
  rfl

theorem flyOf_release (s : State) (v : Vi) (j : Job) : flyOf (updVi v (release j) s) v j = none := by
  rw [flyOf, getVi_updVi_same, release, List.find?_eq_none]
  intro f hf
  simpa using (List.mem_filter.1 hf).2

/-! ## Commands that end a descriptor at once -/

/-- A command that finishes its descriptor changes that VI alone. -/
theorem completes_finish {s : State} {v : Vi} {i : BitVec 32} {op : Nat} {f : Fly} {c : Instr} {x : Compl}
    (hf : fresh s v i op = some f) (h : exec c s = .next (finish v f.idx x s)) :
    Completes c s fun t => Ended t v i x ∧ t = { s with vis := t.vis } := by
  obtain ⟨hmem, hidx, hfin⟩ := fresh_mem hf
  exact ⟨_, h, ended_finish x hmem hidx hfin, rfl⟩

/-- Settles O26: DISPATCH by its room and its encoding, the endings by the descriptor that they finish. -/
theorem descriptorsComplete : Obligations.DescriptorsComplete := by
  unfold Obligations.DescriptorsComplete
  refine ⟨fun s v i d l hr hs hd3 hf hb hw => ⟨fun hroom => ?_, fun hroom => ?_⟩, fun s v i f c ok hr hv he hq => ?_,
    fun s v i ok _ => completes_continues rfl rfl, fun s v i f hf => ?_, fun s v i f hf => ⟨fun hready => ?_, fun hready => ?_⟩,
    fun s v i f _ ok => completes_continues rfl rfl, fun s v i f _ => completes_continues rfl rfl,
    fun s v i f _ x => ⟨completes_continues rfl rfl, completes_continues rfl rfl⟩,
    fun s v i f _ ok => completes_continues rfl rfl,
    fun s v i f hf ok => ⟨completes_continues rfl rfl, fun hc => ?_, fun hc hv => ?_⟩,
    fun s v i f hf => ⟨completes_continues rfl rfl, fun hc => ?_, fun hc hn => ?_⟩⟩
  · have hnext : NextIs s v i d l := ⟨hr, hs, hd3, hf, hb, fun h => hw.resolve_left (by simp [h])⟩
    refine completes_and_continues rfl ?_
    cases hd : descOk d with
    | false =>
      obtain ⟨t, ht, hwild⟩ := hnext.errs hroom hd
      exact ⟨t, ht, fun _ => hwild⟩
    | true =>
      obtain ⟨t, ht, -⟩ := completes_continues (c := .dispatch v) (s := s) rfl rfl
      exact ⟨t, ht, nofun⟩
  · have hnext : NextIs s v i d l := ⟨hr, hs, hd3, hf, hb, fun h => hw.resolve_left (by simp [h])⟩
    refine ⟨_, hnext.waits hroom, ?_, ?_, rfl⟩ <;> rw [getVi_updVi_same]
  · refine ⟨_, execDescriptorComplete_quiet hr he hq ok, ?_⟩
    rw [dropFly_eq hv]
    refine ⟨?_, flyOf_release s v f.idx, rfl⟩
    rw [getVi_updVi_same]
    rfl
  · exact completes_finish hf (by simp [exec, execNop, hf])
  · refine completes_and_continues rfl ⟨_, rfl, ?_⟩
    simp only [hf, hready, if_true]
  · exact ⟨s, by simp [exec, execFence, hf, hready], rfl⟩
  · exact completes_finish hf (by simp [exec, execConeSnap, hf, hc])
  · exact completes_finish hf (by simp [exec, execConeSnap, hf, hc, hv])
  · exact completes_finish hf (by simp [exec, execLaunch, hf, hc])
  · obtain ⟨t, ht, hend, hsame⟩ := launch_outOfRange hf hc hn
    exact ⟨t, ht, hsame, hend⟩

end Sys2Proof.Proofs

/-! PROOFS. Movers, segments and firmware descriptors (R251 to R258, R268 to R272, R286, R410, R434, R490). -/

namespace Sys2Proof.Proofs

open Sys2Proof.Machine Sys2Proof.Laws

theorem fresh_of_served1 {s : State} {v : Vi} {i : BitVec 32} {op : Nat} {f : Fly} (h : served1 s v i op = some f) :
    fresh s v i op = some f := by
  unfold served1 at h
  split at h
  · exact h
  · cases h

theorem startMove_empty {f : Fly} (h : mLen f.desc = 0) (v : Vi) (s : State) : startMove v f s = finish v f.idx zeroC s := by
  rw [startMove, if_pos h]

/-- A SEG_SET that fails a check ends with its status and the slot that it names, and holds its slot no longer (R286). The
check is made opaque first: its bound of 2^48 is not to be evaluated. -/
theorem execSegSet_bad {s : State} {v : Vi} {i : BitVec 32} {f : Fly} {st : Status} (hw : firmwareOn s = true)
    (hf : fresh s v i 0x07 = some f) (hb : segSetBad s v f.desc = some st) :
    exec (.segSet v i) s = .next (endSegSet v f.idx (openC st 0 (sgSlot f.desc)) s) := by
  change execSegSet v i s = _
  unfold execSegSet
  obtain ⟨bad, hbad⟩ : ∃ b, b = segSetBad := ⟨_, rfl⟩
  rw [← hbad] at hb ⊢
  simp only [hw, if_true, hf, hb]

theorem getVi_endSegSet (v : Vi) (j : Job) (c : Compl) (s : State) :
    (getVi (endSegSet v j c s) v).fly = (getVi s v).fly.map (endJob j c) ∧ (getVi (endSegSet v j c s) v).changing = none := by
  refine ⟨?_, ?_⟩
  · rw [endSegSet, finish_fly, getVi_updVi_same]
  · rw [endSegSet, finish, updFly, getVi_updVi_same, getVi_updVi_same]

/-- Settles O27: the endings without effect by the check that they fail, and the closing of a window by its entry. -/
theorem moversAndFirmwareComplete : Obligations.MoversAndFirmwareComplete := by
  unfold Obligations.MoversAndFirmwareComplete
  refine ⟨fun s v i f => ⟨fun hf => ⟨completes_continues rfl rfl, fun hl => ?_⟩,
      fun hf => ⟨completes_continues rfl rfl, fun hl => ?_⟩⟩,
    fun s m x _ _ => completes_continues rfl rfl,
    fun s v i f hw hf => ⟨completes_continues rfl rfl, fun st hb => ?_⟩,
    fun s v _ _ => completes_continues rfl rfl, fun s v _ _ => completes_continues rfl rfl,
    fun s v i f _ _ => completes_continues rfl rfl,
    fun s v i f hf => ⟨fun hd => ⟨completes_continues rfl rfl, fun hm => ?_⟩,
      fun hd => ⟨completes_continues rfl rfl, fun hs hb hg => ?_⟩⟩,
    fun s v i f hf => ⟨fun hc => ⟨completes_continues rfl rfl, fun hz => ?_⟩,
      fun hc => ⟨completes_continues rfl rfl, fun hi ho hv => ?_⟩⟩⟩
  · exact completes_finish hf (by simp [exec, execCopy, hf, startMove_empty hl])
  · exact completes_finish hf (by simp [exec, execFill, hf, startMove_empty hl])
  · obtain ⟨hmem, hidx, hfin⟩ := fresh_mem hf
    obtain ⟨hfly, hchg⟩ := getVi_endSegSet v f.idx (openC st 0 (sgSlot f.desc)) s
    refine ⟨_, execSegSet_bad hw hf hb, ⟨endJob f.idx (openC st 0 (sgSlot f.desc)) f, ?_, ?_, endJob_fin rfl hfin⟩, hchg, rfl⟩
    · rw [hfly]
      exact List.mem_map_of_mem hmem
    · rw [endJob_idx, hidx]
  · exact completes_finish (fresh_of_served1 hf) (by simp [exec, execGroupSetDefine, hf, hd, hm])
  · exact completes_finish (fresh_of_served1 hf) (by simp [exec, execGroupSetDelete, hf, hd, hs, hb, hg])
  · exact completes_finish (fresh_of_served1 hf) (by simp [exec, execWindowSetOpen, hf, hc, hz])
  · obtain ⟨hmem, hidx, hfin⟩ := fresh_mem (fresh_of_served1 hf)
    refine ⟨finish v f.idx (okC 0) { s with fwin := mset {} s.fwin (wsWindow f.desc) {} },
      by simp [exec, execWindowSetClose, hf, hc, ho, hv, hi], ?_, rfl⟩
    exact ended_finish (s := { s with fwin := mset {} s.fwin (wsWindow f.desc) {} }) (okC 0) hmem hidx hfin

end Sys2Proof.Proofs

/-! PROOFS. The registers of a routine and the scalar and sequencing slots (R390, R393, R398). -/

namespace Sys2Proof.Proofs

open Sys2Proof.Machine Sys2Proof.Laws

/-! ## The registers -/

section Registers

variable {r : Run} {n : BitVec 6}

theorem writeReg_u (h : n.toNat < 0x10) (v : U64) :
    writeReg r n v = { r with regs := { r.regs with u := mset 0 r.regs.u n.toNat v } } := by
  rw [writeReg, if_pos h]

theorem writeReg_x (h : ¬ n.toNat < 0x10) (h' : n.toNat < 0x20) (v : U64) :
    writeReg r n v = { r with regs := setX r.regs (n.toNat - 0x10) v } := by
  rw [writeReg, if_neg h, if_pos h']

theorem readReg_u (h : n.toNat < 0x10) (fr : Nat) : readReg r fr n = mget 0 (srcRegs r).u n.toNat := by
  rw [readReg, if_pos h]

theorem readReg_x (h : ¬ n.toNat < 0x10) (h' : n.toNat < 0x20) (fr : Nat) :
    readReg r fr n = xReg (srcRegs r) (n.toNat - 0x10) := by
  rw [readReg, if_neg h, if_pos h']

/-- A register of no name reads 0, and a write to it is discarded. -/
theorem readReg_reserved (h : 0x2D ≤ n.toNat) (fr : Nat) : readReg r fr n = 0 := by
  unfold readReg
  dsimp only
  rw [if_neg (by omega), if_neg (by omega)]
  split <;> try omega
  rfl

theorem writeReg_reserved (h : 0x2D ≤ n.toNat) (v : U64) : writeReg r n v = r := by
  unfold writeReg
  dsimp only
  rw [if_neg (by omega), if_neg (by omega)]
  split <;> try omega
  rfl

theorem srcRegs_of_none {r : Run} (h : r.src = none) : srcRegs r = r.regs := by
  rw [srcRegs, h, Option.getD_none]

theorem srcRegs_writeReg_u (hs : r.src = none) (h : n.toNat < 0x10) (v : U64) :
    srcRegs (writeReg r n v) = { r.regs with u := mset 0 r.regs.u n.toNat v } := by
  rw [writeReg_u h]
  exact srcRegs_of_none hs

theorem srcRegs_writeReg_x (hs : r.src = none) (h : ¬ n.toNat < 0x10) (h' : n.toNat < 0x20) (v : U64) :
    srcRegs (writeReg r n v) = setX r.regs (n.toNat - 0x10) v := by
  rw [writeReg_x h h']
  exact srcRegs_of_none hs

/-- A U or an X register reads what was written to it. -/
theorem readReg_writeReg_same (hs : r.src = none) (h : n.toNat < 0x20) (v : U64) (fr : Nat) :
    readReg (writeReg r n v) fr n = v := by
  by_cases hu : n.toNat < 0x10
  · rw [readReg_u hu, srcRegs_writeReg_u hs hu]
    simp
  · rw [readReg_x hu h, srcRegs_writeReg_x hs hu h]
    simp [xReg, setX]

/-- … and every other one stands. -/
theorem readReg_writeReg_other (hs : r.src = none) (h : n.toNat < 0x20) (v : U64) (fr : Nat) {m : BitVec 6}
    (hm : m.toNat < 0x20) (hne : m ≠ n) : readReg (writeReg r n v) fr m = readReg r fr m := by
  have hk : m.toNat ≠ n.toNat := fun h => hne (BitVec.eq_of_toNat_eq h)
  by_cases hu : n.toNat < 0x10 <;> by_cases hmu : m.toNat < 0x10
  · rw [readReg_u hmu, readReg_u hmu, srcRegs_writeReg_u hs hu, srcRegs_of_none hs]
    exact mget_mset_other _ _ _ hk.symm
  · rw [readReg_x hmu hm, readReg_x hmu hm, srcRegs_writeReg_u hs hu, srcRegs_of_none hs]
    rfl
  · rw [readReg_u hmu, readReg_u hmu, srcRegs_writeReg_x hs hu h, srcRegs_of_none hs]
    rfl
  · rw [readReg_x hmu hm, readReg_x hmu hm, srcRegs_writeReg_x hs hu h, srcRegs_of_none hs]
    exact mget_mset_other _ _ _ (by omega)

end Registers

/-- Settles O28: the register's place decides. -/
theorem microwordRegisters : Obligations.MicrowordRegisters := by
  unfold Obligations.MicrowordRegisters
  refine fun r n v fr hs => ⟨fun h => ⟨readReg_writeReg_same hs h v fr, fun m => readReg_writeReg_other hs h v fr⟩, ?_,
    fun h => readReg_reserved h fr, fun h => ?_, ?_⟩
  · rintro (rfl | rfl | rfl | rfl | rfl | rfl | h)
    case inr.inr.inr.inr.inr.inr => exact writeReg_reserved h v
    all_goals rfl
  · change (Option.getD (srcRegs r).nexta (r.task + 8)).setWidth 64 = _
    rw [srcRegs_of_none hs, h, Option.getD_none]
  · rintro (rfl | rfl) <;> simp [readReg, writeReg, srcRegs, hs]

/-! ## What a slot and a word make of the run -/

theorem openWord_runOf {s : State} {e : Eng} {r : Run} {w : Nat} (h : openWord s e = some (r, w)) :
    runOf s e = some r := by
  unfold openWord at h
  split at h
  · cases h
  · split at h
    · next q hq =>
      split at h
      · cases h
        exact hq
      · cases h
    · cases h

theorem runBecomes_tick {s : State} {e : Eng} {r : Run} (hr : runOf s e = some r) : RunBecomes s (tick s) e r := by
  refine ⟨?_, fun _ _ => rfl, rfl⟩
  change eng s e = _
  rw [← show (eng s e).run = some r from hr]

/-- … and every change of the run that follows it. -/
theorem runBecomes_then {s t : State} {e : Eng} {r : Run} (h : RunBecomes s t e r) (g : Run → Run) :
    RunBecomes s (updRun e g t) e (g r) := by
  obtain ⟨hsame, hother, ht⟩ := h
  refine ⟨?_, fun x hx => (eng_updEng_other _ hx.symm).trans (hother x hx), ?_⟩
  · refine (eng_updEng_same ..).trans ?_
    rw [hsame, Option.map_some]
  · rw [ht]
    rfl

/-- A change of the run as a slot issues, after which the state is the one `RunBecomes` speaks of. -/
theorem runBecomes_updRun {s : State} {e : Eng} {r : Run} (hr : runOf s e = some r) (g : Run → Run) :
    RunBecomes s (tick (updRun e g s)) e (g r) :=
  (runBecomes_then (runBecomes_tick hr) g : RunBecomes s (updRun e g (tick s)) e (g r))

section Slot

variable {s : State} {e : Eng} {r : Run} {w k : Nat}

/-- A slot that is ready acts on the run as it was at the issue, its slot marked as done. -/
theorem issue_ready (h : SlotReady s e r w k) {is : Nat → Bool} (hi : is w = true) (act : Run → Nat → Nat → State → Out) :
    issue e k is act s = act (atIssue r) w (free s) (tick (updRun e (markSlot k) s)) := by
  obtain ⟨ho, hd, hb, hc, hh⟩ := h
  unfold issue
  rw [ho]
  dsimp only
  rw [hd, hi, hc, hh, badWord, hb]
  rfl

/-- An operation of the scalar slot gives SDST its result, and Z and N. -/
theorem sop_ready (h : SlotReady s e r w 0) {code : Nat} {a : Alu} (f : U64 → U64 → U64) {c : Instr}
    (hc : exec c s = sop code f e a s) (hi : isSop code a w = true) {v : U64}
    (hv : v = f (readReg (atIssue r) (free s) a.src1) (operand2 (atIssue r) (free s) a)) :
    Completes c s fun t => RunBecomes s t e { writeReg (markSlot 0 r) a.dst v with
      sopDst := some a.dst
      regs := { (writeReg (markSlot 0 r) a.dst v).regs with z := decide (v = 0), n := v.msb } } := by
  subst hv
  exact ⟨_, hc.trans (issue_ready h hi _), runBecomes_then (runBecomes_updRun (openWord_runOf h.1) (markSlot 0)) _⟩

end Slot

/-- Settles O29: every operation of the scalar slot is one act on the run at its issue. -/
theorem scalarCommandsComplete : Obligations.ScalarCommandsComplete := by
  unfold Obligations.ScalarCommandsComplete
  intro s e r w a h
  refine ⟨fun hw => ?_, fun hi => ?_, (sop_ready h (fun _ y => y) rfl · rfl), (sop_ready h (fun x y => x + y) rfl · rfl),
    (sop_ready h (fun x y => x - y) rfl · rfl), (sop_ready h (fun x y => x &&& y) rfl · rfl),
    (sop_ready h (fun x y => x ||| y) rfl · rfl), (sop_ready h (fun x y => x ^^^ y) rfl · rfl),
    (sop_ready h (fun x y => x <<< (y.toNat % 64)) rfl · rfl), (sop_ready h (fun x y => x >>> (y.toNat % 64)) rfl · rfl),
    (sop_ready h (fun x y => x.sshiftRight (y.toNat % 64)) rfl · rfl), (sop_ready h (fun x y => x * y) rfl · rfl)⟩
  · exact ⟨_, (issue_ready (is := fun w => wSop w == 0) h (beq_iff_eq.mpr hw) _ : execSopNop e s = _), runBecomes_updRun (openWord_runOf h.1) (markSlot 0)⟩
  · exact ⟨_, (issue_ready h hi _ : execCmpu e a s = _), runBecomes_then (runBecomes_updRun (openWord_runOf h.1) (markSlot 0)) _⟩

section Word

variable {s : State} {e : Eng} {r : Run} {w : Nat}

/-- A word whose slots have issued acts on the run at its issue. -/
theorem sequence_ready (h : WordReady s e r w) {is : Nat → Bool} (hi : is w = true) (act : Run → Nat → State → Out) :
    Machine.sequence e is act s = act (atIssue r) w (tick s) := by
  obtain ⟨ho, he, hd, hb, hc, hh⟩ := h
  unfold Machine.sequence
  rw [ho]
  dsimp only
  rw [hi, he, hd, hc, hh, badWord, hb]
  rfl

/-- The word ends and `n` is the next one. -/
theorem runBecomes_endWord {t : State} (h : RunBecomes s t e r) (n : Nat) :
    RunBecomes s (endWord e n t) e { applyIncs r with upc := wordAddr r.open_ n } := runBecomes_then h _

theorem nextWord_ready (h : WordReady s e r w) {is : Nat → Bool} (hi : is w = true) :
    ∃ t, Machine.sequence e is (fun r _ s => nextWord e r s) s = .next t ∧
      RunBecomes s t e { applyIncs r with upc := wordAddr r.open_ (r.upc + 1) } :=
  ⟨_, sequence_ready h hi _, runBecomes_endWord (runBecomes_tick (openWord_runOf h.1)) (r.upc + 1)⟩

/-- A branch ends at its target if its condition holds, and else at the next word. -/
theorem branch_ready (h : WordReady s e r w) {code : Nat} {a : BitVec 12} (hs : wSeq w = code) (ht : wTarget w = a.toNat)
    (c : Regs → Bool) : ∃ t, branch code e a c s = .next t ∧ RunBecomes s t e
      { applyIncs r with upc := wordAddr r.open_ (if c (srcRegs r) = true then a.toNat else r.upc + 1) } := by
  refine ⟨_, (sequence_ready h (by simp [hs, ht]) _).trans (apply_ite Host.Outcome.next _ _ _).symm, ?_⟩
  have hr := runBecomes_tick (openWord_runOf h.1)
  change RunBecomes s (if c (srcRegs r) = true then _ else _) e _
  split
  · exact runBecomes_endWord hr _
  · exact runBecomes_endWord hr _

/-- A wait whose condition is met acts as NEXT. -/
theorem waitWord_ready (h : WordReady s e r w) {code : Nat} {a : BitVec 6} (hs : wSeq w = code) (ha : wSrc1 w = a.toNat)
    {more : Nat → Bool} (hm : more w = true) {chk : Run → Nat → State → Option State}
    (hk : r.phase = .pre → chk r (readReg r (free s) a).toNat s = none) :
    ∃ t, waitWord code e a more chk s = .next t ∧
      RunBecomes s t e { applyIncs r with upc := wordAddr r.open_ (r.upc + 1) } := by
  have hi : (wSeq w == code && wSrc1 w == a.toNat && more w) = true := by simp [hs, ha, hm]
  obtain ⟨t, ht, hb⟩ := nextWord_ready (is := fun w => wSeq w == code && wSrc1 w == a.toNat && more w) h hi
  refine ⟨t, ?_, hb⟩
  obtain ⟨ho, he, -⟩ := h
  have hc : (if r.phase = .pre then chk r (readReg r (free s) a).toNat s else none) = none := by
    split
    · next hp => exact hk hp
    · rfl
  unfold waitWord
  rw [ho]
  dsimp only
  rw [if_neg (by rw [hi, he]; decide), hc]
  exact ht

/-- A word that is not held has met the condition of its own SEQ. -/
theorem seqMet_of_ready (h : WordReady s e r w) : seqMet s e r w = true := by
  obtain ⟨-, -, -, -, -, hh⟩ := h
  unfold held at hh
  grind

theorem seqMet_slot (h : WordReady s e r w) {a : BitVec 6} (ha : wSrc1 w = a.toNat) (hs : wSeq w = 7 ∨ wSeq w = 8)
    (hp : r.phase = .pre) : slotOk s e r.ix.vi ((readReg r (free s) a).toNat % 4) = true := by
  have hm := seqMet_of_ready h
  obtain ⟨-, he, -⟩ := h
  rcases hs with hs | hs <;> simp [seqMet, hp, he, hs, ha] at hm <;> exact hm.1

theorem seqMet_flag (h : WordReady s e r w) {a : BitVec 6} (ha : wSrc1 w = a.toNat) (hs : wSeq w = 6) (hp : r.phase = .pre) :
    flagWait s e r.ix.vi ((readReg r (free s) a).toNat % 1024) (wSimm w) = .met := by
  have hm := seqMet_of_ready h
  obtain ⟨-, he, -⟩ := h
  simpa [seqMet, hp, he, hs, ha] using hm

theorem slotFail_none {v : Nat} (h : slotOk s e r.ix.vi (v % 4) = true) : slotFail e r v s = none := by
  rw [slotFail, if_pos h]

/-- What LOOP leaves of the run before its word ends: the counter that it names, less by 1. -/
theorem loop_ready (h : WordReady s e r w) {a : BitVec 12} {c : Bool} (hs : wSeq w = 2) (ha : wTarget w = a.toNat)
    (hc : wLcsel w = c) (hd : r.sopDst ≠ some (lcReg c)) : Completes (.seqLoop e a c) s fun t => RunBecomes s t e
      { applyIncs (setLc c (lcOf (srcRegs r) c - 1) r) with
        upc := wordAddr r.open_ (if lcOf (srcRegs r) c - 1 ≠ 0 then a.toNat else r.upc + 1) } := by
  have hact := sequence_ready h (is := fun w => wSeq w == 2 && wTarget w == a.toNat && wLcsel w == c) (by simp [hs, ha, hc])
    fun r _ s =>
      let v := lcOf (srcRegs r) c - 1
      let s := if r.sopDst == some (lcReg c) then s else updRun e (setLc c v) s
      if v ≠ 0 then .next (endWord e a.toNat s) else nextWord e r s
  have hsop : ((atIssue r).sopDst == some (lcReg c)) = false := by simpa [atIssue] using hd
  dsimp only at hact
  rw [hsop, if_neg Bool.false_ne_true] at hact
  refine ⟨_, hact.trans (apply_ite Host.Outcome.next _ _ _).symm, ?_⟩
  have hr := runBecomes_then (runBecomes_tick (openWord_runOf h.1)) (setLc c (lcOf (srcRegs r) c - 1))
  change RunBecomes s (if lcOf (srcRegs r) c - 1 ≠ 0 then _ else _) e _
  split
  · exact runBecomes_endWord hr _
  · exact runBecomes_endWord hr _

end Word

/-- Settles O30: each word ends at the word that its SEQ names. -/
theorem sequencingCommandsComplete : Obligations.SequencingCommandsComplete := by
  unfold Obligations.SequencingCommandsComplete
  intro s e r w h
  refine ⟨fun hs => ?_, fun hs => nextWord_ready h (beq_iff_eq.mpr hs), fun a ha => ⟨fun hs => ?_, fun hs => ?_, fun n hs hn => ?_⟩,
    fun a ha => ⟨fun hs => ?_, fun hs => branch_ready h hs ha _, fun hs => ?_, fun hs => branch_ready h hs ha _,
      fun c hs hc hd => ?_⟩⟩
  · obtain ⟨t, ht, hb⟩ := nextWord_ready (is := fun w => wSeq w == 0) h (beq_iff_eq.mpr hs)
    obtain ⟨ho, he, -, -, hc, -⟩ := h
    refine ⟨t, Eq.trans ?_ ht, hb⟩
    change execSeqNext e .clean s = _
    unfold execSeqNext
    rw [ho]
    dsimp only
    rw [if_neg (by simp [hs, he, hc]), wordCheck, openWord_runOf ho]
  · exact waitWord_ready h hs ha rfl fun hp => slotFail_none (seqMet_slot h ha (.inl hs) hp)
  · exact waitWord_ready h hs ha rfl fun hp => slotFail_none (seqMet_slot h ha (.inr hs) hp)
  · refine waitWord_ready (more := fun w => wSimm w == n.toNat) h hs ha (beq_iff_eq.mpr hn) (chk := fun r v s =>
      match flagWait s e r.ix.vi (v % 1024) n.toNat with
      | .invalid f => some (failIndex e .fencedUnit f s)
      | .failed f => some (failIndex e .poisoned f s)
      | _ => none) fun hp => ?_
    rw [← hn, seqMet_flag h ha hs hp]
  · exact branch_ready h hs ha fun _ => true
  · obtain ⟨t, ht, hb⟩ := branch_ready h hs ha fun g => !g.z
    refine ⟨t, ht, ?_⟩
    cases hz : (srcRegs r).z <;> simpa [hz] using hb
  · cases c
    · exact loop_ready h hs ha hc hd
    · exact loop_ready h hs ha hc hd

end Sys2Proof.Proofs

/-! PROOFS. The memory, matrix and vector slots (R322, R350, R358, R359, R391, R396). -/

namespace Sys2Proof.Proofs

open Sys2Proof.Machine Sys2Proof.Laws

/-! ## A slot that has issued -/

/-- A slot has issued, and may have left increments for the word's end (AINC). -/
def Issued (s t : State) (e : Eng) (k : Nat) (r : Run) : Prop := ∃ l, RunBecomes s t e { markSlot k r with incs := l }

/-- Nothing but the engines and the choices made has changed. -/
def EngsOnly (s t : State) : Prop := t = { s with engs := t.engs, freeCtr := s.freeCtr + 1 }

section Issue

variable {s t : State} {e : Eng} {r : Run} {w k : Nat}

theorem issued_mark (h : SlotReady s e r w k) : Issued s (tick (updRun e (markSlot k) s)) e k r :=
  ⟨r.incs, runBecomes_updRun (openWord_runOf h.1) (markSlot k)⟩

theorem issued_addIncs (h : Issued s t e k r) (l : List (BitVec 6 × Nat)) : Issued s (addIncs e l t) e k r := by
  obtain ⟨i, hi⟩ := h
  exact ⟨_, runBecomes_then hi _⟩

theorem issued_ainc (h : Issued s t e k r) (m : MemSlot) : Issued s (ainc e m t) e k r := by
  unfold ainc
  split
  · exact issued_addIncs h _
  · exact h

theorem issued_rinc (h : Issued s t e k r) (x : StreamSlot) : Issued s (rinc e x t) e k r := by
  unfold rinc
  split
  · exact issued_addIncs h _
  · exact h

theorem issued_vinc (h : Issued s t e k r) (x : VecSlot) (l : List (BitVec 6 × Nat)) : Issued s (vinc e x l t) e k r := by
  unfold vinc
  split
  · exact issued_addIncs h _
  · exact h

theorem ainc_of_none {m : MemSlot} (h : m.ainc = false) (s : State) : ainc e m s = s := by
  rw [ainc, h, if_neg Bool.false_ne_true]

theorem Issued.eng (h : Issued s t e k r) : ∃ l, Machine.eng t e =
    { Machine.eng s e with run := some { markSlot k r with incs := l } } := by
  obtain ⟨l, hl, -⟩ := h
  exact ⟨l, hl⟩

theorem Issued.engsOnly (h : Issued s t e k r) : EngsOnly s t := by
  obtain ⟨l, -, -, ht⟩ := h
  exact ht

theorem Issued.runOf (h : Issued s t e k r) : ∃ l, Machine.runOf t e = some { markSlot k r with incs := l } := by
  obtain ⟨l, hl⟩ := h.eng
  exact ⟨l, by rw [Machine.runOf, hl]⟩

theorem Issued.scratch (h : Issued s t e k r) : (Machine.eng t e).scratch = (Machine.eng s e).scratch := by
  obtain ⟨l, hl⟩ := h.eng
  rw [hl]

theorem engsOnly_updEng (h : EngsOnly s t) (g : Eng) (f : EngSt → EngSt) : EngsOnly s (updEng g f t) := by
  unfold EngsOnly at h ⊢
  conv_lhs => rw [h]
  rfl

theorem spCheck_engsOnly (h : EngsOnly s t) : spCheck t = spCheck s := by
  rw [h]
  rfl

theorem translate_engsOnly (h : EngsOnly s t) : translate t = translate s := by
  rw [h]
  rfl

theorem viaSlot_engsOnly (h : EngsOnly s t) : viaSlot t = viaSlot s := by
  rw [h]
  rfl

theorem seg_engsOnly (h : EngsOnly s t) : seg t = seg s := by
  rw [h]
  rfl

theorem anyHole_engsOnly (h : EngsOnly s t) : anyHole t = anyHole s := by
  rw [h]
  rfl

theorem anyPoison_engsOnly (h : EngsOnly s t) : anyPoison t = anyPoison s := by
  rw [h]
  rfl

theorem spRead_of_scratch (h : (eng t e).scratch = (eng s e).scratch) : spRead t e = spRead s e := by
  funext o n
  rw [spRead, h, spRead]

/-- An operation of the memory slot before commit acts after the slot has issued. -/
theorem mopBefore_ready {o : Out} {act : Run → Nat → State → State} (h : SlotReady s e r w 1) (hp : r.phase = .pre) {code : Nat} {m : MemSlot} (hi : isMop code m w = true)
    (hc : o = mopBefore code e m act s) :
    ∃ t, Issued s t e 1 r ∧ o = .next (act (atIssue r) (free s) t) := by
  refine ⟨_, issued_ainc (issued_mark h) m, ?_⟩
  rw [hc, mopBefore, beforeCommit, issue_ready h hi]
  exact if_pos hp

/-- … and one after it. -/
theorem mopAfter_ready {o : Out} {act : Run → Nat → State → State} (h : SlotReady s e r w 1) (hp : r.phase = .post) {code : Nat} {m : MemSlot} (hi : isMop code m w = true)
    (hc : o = mopAfter code e m act s) :
    ∃ t, Issued s t e 1 r ∧ o = .next (act (atIssue r) (free s) t) := by
  refine ⟨_, issued_ainc (issued_mark h) m, ?_⟩
  rw [hc, mopAfter, afterCommit, issue_ready h hi]
  exact if_pos hp

/-- An operation in the wrong phase issues, and is a host error (R661). -/
theorem phaseError_mark (h : SlotReady s e r w k) :
    PhaseError s (hostError r.ix.vi (tick (updRun e (markSlot k) s))) e r k := by
  have hr := runBecomes_updRun (openWord_runOf h.1) (markSlot k)
  obtain ⟨hsame, -, -⟩ := hr
  refine ⟨?_, hsame, rfl⟩
  rw [hostError, getVi_updVi_same]

theorem beforeCommit_post {o : Out} {act : Run → Nat → Nat → State → Out} (h : SlotReady s e r w k) (hp : r.phase = .post) {is : Nat → Bool} (hi : is w = true)
    (hc : o = beforeCommit e k is act s) :
    ∃ t, o = .next t ∧ PhaseError s t e r k := by
  refine ⟨_, ?_, phaseError_mark h⟩
  rw [hc, beforeCommit, issue_ready h hi]
  exact if_neg (by rw [show (atIssue r).phase = r.phase from rfl, hp]; decide)

theorem afterCommit_pre {o : Out} {act : Run → Nat → Nat → State → Out} (h : SlotReady s e r w k) (hp : r.phase = .pre) {is : Nat → Bool} (hi : is w = true)
    (hc : o = afterCommit e k is act s) :
    ∃ t, o = .next t ∧ PhaseError s t e r k := by
  refine ⟨_, ?_, phaseError_mark h⟩
  rw [hc, afterCommit, issue_ready h hi]
  exact if_neg (by rw [show (atIssue r).phase = r.phase from rfl, hp]; decide)

end Issue

/-! ## Scratchpad -/

theorem mget_spGo : ∀ (l : List Byte) (o : Nat) (m : SMap Byte) (k : Nat),
    mget 0 (spGo l o m) k = if o ≤ k ∧ k < o + l.length then l.getD (k - o) 0 else mget 0 m k
  | [], o, m, k => by
    rw [spGo, if_neg (by simp)]
  | b :: t, o, m, k => by
    rw [spGo, mget_spGo t (o + 1)]
    by_cases hk : o = k
    · subst hk
      rw [if_neg (by omega), if_pos (by simp), Nat.sub_self, List.getD_cons_zero]
      simp
    · rw [mget_mset_other _ _ _ hk]
      by_cases hin : o + 1 ≤ k ∧ k < o + 1 + t.length
      · rw [if_pos hin, if_pos (by simp; omega), show k - o = k - (o + 1) + 1 by omega, List.getD_cons_succ]
      · rw [if_neg hin, if_neg (by simp; omega)]

/-- Scratchpad holds what is written to it, over what it held before. -/
theorem scratchHolds_spWrite {s t : State} {e : Eng} (h : (eng t e).scratch = (eng s e).scratch) (o : Nat) (l : List Byte) :
    ScratchHolds s (spWrite e o l t) e o l := by
  intro k
  rw [spWrite, eng_updEng_same, ← h]
  exact mget_spGo l o _ k

theorem length_natBytes (n v : Nat) : (natBytes n v).length = n := by simp [natBytes]

theorem length_blockBytes (b : Block) : (blockBytes b).length = 64 := length_natBytes 64 _

theorem spCheck_of_window {s : State} {e : Eng} {v : Vi} {o n : Nat} (h : o % 64 = 0) : spCheck s e v o n = spWindow s (eu e) v o n := by
  rw [spCheck, if_neg (by simpa using h)]

/-- A write of scratchpad at a VI's offset leaves its bytes there. -/
theorem spPut_hits {s : State} {e : Eng} {v : Vi} {o x : Nat} {l : List Byte} (h : spCheck s e v o l.length = some x) :
    spPut e v o l s = spWrite e x l s := by
  rw [spPut, h]

/-! ## Loads and stores -/

theorem loadDev_congr {s t : State} {e : Eng} (hm : t.mem = s.mem) (hg : t.gathers = s.gathers)
    (ho : ownStores t e = ownStores s e) : loadDev t e = loadDev s e := by
  funext a n
  unfold loadDev readBytes readByte gather
  rw [hm, hg, ho]

theorem ownStores_of_run {s t : State} {e : Eng} {q : Option Run} (h : eng t e = { eng s e with run := q }) :
    ownStores t e = ownStores s e := by
  rw [ownStores, h, ownStores]

/-- The run with a segment's hit noted. -/
def withHit (h : Bool × Seg) (r : Run) : Run := { r with hits := if r.hits.contains h then r.hits else r.hits ++ [h] }

theorem mem_withHit (h : Bool × Seg) (r : Run) : h ∈ (withHit h r).hits := by
  unfold withHit
  dsimp only
  split
  · next hc => exact List.contains_iff_mem.mp hc
  · exact List.mem_append_right _ (List.mem_singleton_self h)

theorem eng_noteHit {s : State} {e : Eng} {r : Run} (hr : runOf s e = some r) (v : Vi) (i : Fin 16) :
    eng (noteHit e v i s) e = { eng s e with run := some (withHit (isHostSlot i, seg s v i) r) } := by
  have h := eng_updEng_same (s := s) e fun x => { x with run := x.run.map (withHit (isHostSlot i, seg s v i)) }
  rw [show (eng s e).run = some r from hr] at h
  exact h

/-- A load of device memory finds its block: the segment's hit is noted and the block's place in the transfer buffer holds
the bytes (R359, R294). -/
theorem loadBlock_dev {s : State} {e : Eng} {r : Run} {a x : Nat} {i : Fin 16} (hr : runOf s e = some r) (ha : a % 64 = 0)
    (ht : translate s (eu e) r.ix.vi a 64 = .hit (.dev x) i) (hh : anyHole s x 64 = false) (hp : anyPoison s x 64 = false)
    (tbi : BitVec 10) (acq : Bool) : loadBlock e a tbi acq s =
      updRun e (fun r => { r with tbIn := mset 0 r.tbIn tbi.toNat (bytesBlock (loadDev s e x 64)) }) (noteHit e r.ix.vi i s) := by
  have hl : loadDev (noteHit e r.ix.vi i s) e = loadDev s e :=
    loadDev_congr rfl rfl (ownStores_of_run (eng_noteHit hr r.ix.vi i))
  unfold loadBlock
  rw [hr]
  dsimp only
  rw [if_neg (by simpa using ha), ht]
  dsimp only
  rw [show anyHole (noteHit e r.ix.vi i s) = anyHole s from rfl, hh,
    show anyPoison (noteHit e r.ix.vi i s) = anyPoison s from rfl, hp, hl]
  rfl

/-- What a load of device memory leaves, the slot having issued. -/
theorem loadBlock_issued {s t : State} {e : Eng} {r : Run} {k a x : Nat} {i : Fin 16} (h : Issued s t e k r) (ha : a % 64 = 0)
    (ht : translate s (eu e) r.ix.vi a 64 = .hit (.dev x) i) (hh : anyHole s x 64 = false) (hp : anyPoison s x 64 = false)
    (tbi : BitVec 10) (acq : Bool) :
    let u := loadBlock e a tbi acq t
    (∃ y, runOf u e = some y ∧ y.tbIn = mset 0 r.tbIn tbi.toNat (bytesBlock (loadDev s e x 64)) ∧ y.regs = r.regs ∧
      (isHostSlot i, seg s r.ix.vi i) ∈ y.hits) ∧
    u = { s with engs := u.engs, vis := u.vis, lruCtr := s.lruCtr + 1, freeCtr := s.freeCtr + 1 } := by
  obtain ⟨l, hl⟩ := h.eng
  have ho := h.engsOnly
  have hr : runOf t e = some { markSlot k r with incs := l } := by rw [runOf, hl]
  have hd : loadDev t e = loadDev s e := loadDev_congr (by rw [ho]) (by rw [ho]) (ownStores_of_run hl)
  dsimp only
  rw [loadBlock_dev hr ha (by rw [translate_engsOnly ho]; exact ht) (by rw [anyHole_engsOnly ho]; exact hh)
    (by rw [anyPoison_engsOnly ho]; exact hp), hd]
  refine ⟨⟨{ withHit (isHostSlot i, seg s r.ix.vi i) { markSlot k r with incs := l } with
    tbIn := mset 0 r.tbIn tbi.toNat (bytesBlock (loadDev s e x 64)) }, ?_, rfl, rfl, mem_withHit _ _⟩, ?_⟩
  · rw [runOf, updRun, eng_updEng_same, eng_noteHit hr, seg_engsOnly ho]
    rfl
  · rw [ho]
    rfl

/-- A store buffer with room takes the block at its end (R350). -/
theorem pushSb_room {s : State} {e : Eng} (hb : (eng s e).tbOut = []) (hl : (eng s e).sb.length < 32) (tbi : BitVec 10)
    (x : SbEnt) : ∃ f, pushSb e tbi x s = updEng e f s ∧ (f (eng s e)).sb = (eng s e).sb ++ [x] := by
  unfold pushSb
  dsimp only
  rw [hb, if_neg (by decide)]
  split
  · rw [if_pos hl]
    exact ⟨_, rfl, rfl⟩
  · next hs => exact ⟨_, rfl, by rw [hs]; rfl⟩

/-- A store through a pinned segment to device memory waits at the end of the store buffer (R294, R350). -/
theorem storeBlock_dev {s : State} {e : Eng} {r : Run} {a x : Nat} {l : List Byte} {i j : Fin 16} (hr : runOf s e = some r)
    (hf : (r.pins.find? fun k => covers (seg s r.ix.vi k) a) = some i)
    (hv : viaSlot s (eu e) r.ix.vi i a l.length = .hit (.dev x) j) (hh : anyHole s x l.length = false)
    (hb : (eng s e).tbOut = []) (hl : (eng s e).sb.length < 32) (tbi : BitVec 10) (rel : Bool) :
    ∃ f y, storeBlock e a tbi l rel s = updEng e f (touchSlot r.ix.vi i s) ∧
      (f (eng s e)).sb = (eng s e).sb ++ [y] ∧ y.tgt = .dev x ∧ y.data = l ∧ y.release = rel := by
  unfold storeBlock
  rw [hr]
  dsimp only
  rw [hf]
  dsimp only
  rw [show viaSlot (touchSlot r.ix.vi i s) = viaSlot s from rfl, hv]
  dsimp only
  rw [show anyHole (touchSlot r.ix.vi i s) = anyHole s from rfl, hh, if_neg Bool.false_ne_true]
  obtain ⟨f, hp, hs⟩ := pushSb_room (s := touchSlot r.ix.vi i s) hb hl tbi
    { tgt := .dev x, data := l, release := rel, vi := r.ix.vi, veng := r.ix.veng, addr := a, fly := r.ix.idx, k := r.ix.k, att := r.attempt }
  exact ⟨f, _, hp, hs, rfl, rfl, rfl⟩

/-- The run with BAR's entries fixed. -/
def gated (s : State) (e : Eng) (r : Run) : Run := { r with gate := some (r.gate.getD (gather s (kilnOf e))) }

section Bar

variable {s : State} {e : Eng} {r : Run} {w : Nat}

theorem eng_barIssue (hr : runOf s e = some r) : eng (barIssue e s) e = { eng s e with run := some (gated s e r) } := by
  rw [barIssue, updRun, eng_updEng_same, show (eng s e).run = some r from hr]
  rfl

theorem openWord_barIssue (h : openWord s e = some (r, w)) : openWord (barIssue e s) e = some (gated s e r, w) := by
  have hr := openWord_runOf h
  have hg : runOf (barIssue e s) e = some (gated s e r) := by rw [runOf, eng_barIssue hr]
  have ha : wordAt (barIssue e s) e = wordAt s e := by
    funext a
    rw [wordAt, eng_barIssue hr]
    rfl
  unfold openWord at h ⊢
  rw [show engOn (barIssue e s) e = engOn s e from rfl, hg]
  rw [hr] at h
  dsimp only at h ⊢
  rw [ha]
  split at h
  · cases h
  · next hon =>
    rw [if_neg hon]
    split at h
    · next hc =>
      rw [if_pos (by exact hc)]
      cases h
      rfl
    · cases h

theorem seqMet_barIssue (hr : runOf s e = some r) : seqMet (barIssue e s) e (gated s e r) w = seqMet s e r w := by
  have hf : flagWait (barIssue e s) e = flagWait s e := by
    funext v f n
    unfold flagWait flagAt
    rw [eng_barIssue hr]
    rfl
  have hs : slotAt (barIssue e s) e = slotAt s e := by
    funext n
    rw [slotAt, eng_barIssue hr]
    rfl
  unfold seqMet
  rw [hf, hs]
  rfl

/-- BAR has fixed its entries, and none of them is left. -/
theorem barMet_barIssue (hr : runOf s e = some r) (h : barMet s e = true) : barMet (barIssue e s) e = true := by
  unfold barMet at h ⊢
  rw [show drained (barIssue e s) e = drained s e by rw [drained, ownStores_of_run (eng_barIssue hr)]; rfl,
    show gather (barIssue e s) = gather s from rfl, show runOf (barIssue e s) e = some (gated s e r) by rw [runOf, eng_barIssue hr]]
  rw [hr] at h
  cases hg : r.gate with
  | none => simp_all [gated]
  | some l => simp_all [gated]

theorem held_barIssue (hr : runOf s e = some r) (hw : wMop w = 7) (hp : r.phase = .pre) (h : held s e r w = false) :
    held (barIssue e s) e (gated s e r) w = false := by
  have hm : mopMet s e r w = true → mopMet (barIssue e s) e (gated s e r) w = true := by
    have hp' : (gated s e r).phase = .pre := hp
    simp only [mopMet, hw, hp, hp']
    intro hb
    simp at hb ⊢
    exact ⟨barMet_barIssue hr hb.1, hb.2⟩
  unfold held at h ⊢
  rw [seqMet_barIssue hr]
  simp at h ⊢
  exact ⟨⟨⟨h.1.1.1, hm h.1.1.2⟩, h.1.2⟩, h.2⟩

/-- BAR's first attempt fixes what it waits for, and the slot stays ready (R358). -/
theorem slotReady_barIssue (h : SlotReady s e r w 1) (hw : wMop w = 7) (hp : r.phase = .pre) :
    SlotReady (barIssue e s) e (gated s e r) w 1 := by
  obtain ⟨ho, hd, hb, hc, hh⟩ := h
  exact ⟨openWord_barIssue ho, hd, hb, hc, held_barIssue (openWord_runOf ho) hw hp hh⟩

theorem barTries_ready (h : SlotReady s e r w 1) (hw : wMop w = 7) (hp : r.phase = .pre) : barTries e s = barIssue e s := by
  obtain ⟨ho, hd, -⟩ := h
  rw [barTries, ho]
  exact if_pos (by simp [hw, hp] at hd ⊢; exact hd)

end Bar

/-- Settles O31: each operation acts once its slot has issued. -/
theorem memorySlotsComplete : Obligations.MemorySlotsComplete := by
  unfold Obligations.MemorySlotsComplete
  intro s e r w m h q a o v
  refine ⟨fun hw hm => ⟨completes_continues rfl rfl, fun hi => ?_⟩, fun _ => completes_continues rfl rfl,
    fun hp => ⟨fun hi => ⟨completes_continues rfl rfl, fun x i ha ht hh hx => ?_⟩, fun _ => completes_continues rfl rfl,
      fun _ => completes_continues rfl rfl, fun hw => ⟨completes_continues rfl rfl, fun hi => ?_⟩,
      fun hw => ⟨completes_continues rfl rfl, fun hi => ?_⟩, fun hi => ?_⟩,
    fun hp => ⟨fun hi => ⟨completes_continues rfl rfl, fun x i j ha hf hv hh hl hb => ?_⟩,
      fun hi => ⟨completes_continues rfl rfl, fun x ho hs => ?_⟩, fun _ => completes_continues rfl rfl,
      fun _ => completes_continues rfl rfl, fun _ => completes_continues rfl rfl,
      fun hi => ⟨completes_continues rfl rfl, fun h0 hn => ?_⟩, fun hi => ?_⟩⟩
  · refine ⟨_, (issue_ready (is := fun w => wMop w == 0) h (beq_iff_eq.mpr hw) _ : execMopNop e s = _), ?_⟩
    rw [hm, ainc_of_none hi]
    exact runBecomes_updRun (openWord_runOf h.1) _
  · obtain ⟨t, ht1, he⟩ := mopBefore_ready (o := execLd64 e m s) h hp hi rfl
    exact ⟨_, he, loadBlock_issued ht1 ha ht hh hx m.tbi (ldAcquires m)⟩
  · have hr := openWord_runOf h.1
    refine ⟨_, ?_, runBecomes_then (runBecomes_then (runBecomes_tick hr) (gated s e)) (markSlot 1)⟩
    change execBar e s = _
    rw [execBar, barTries_ready h hw hp, beforeCommit,
      issue_ready (is := fun w => wMop w == 7) (slotReady_barIssue h hw hp) (beq_iff_eq.mpr hw), if_pos (by exact hp), ainc_of_none hi]
    rfl
  · refine ⟨_, ?_, runBecomes_updRun (openWord_runOf h.1) (markSlot 1)⟩
    change execDrain e s = _
    rw [execDrain, beforeCommit, issue_ready (is := fun w => wMop w == 8) h (beq_iff_eq.mpr hw),
      if_pos (show (atIssue r).phase = .pre from hp), ainc_of_none hi]
  · exact afterCommit_pre (o := execSt64 e m s) h hp hi (by rw [execSt64, mopAfter])
  · obtain ⟨t, ht, he⟩ := mopAfter_ready (o := execSt64 e m s) h hp hi rfl
    rw [if_neg (by simpa [mAddr] using ha)] at he
    obtain ⟨g, hg⟩ := ht.eng
    have ho := ht.engsOnly
    have hr : runOf t e = some { markSlot 1 r with incs := g } := by rw [runOf, hg]
    obtain ⟨f, y, hst, hsb, htgt, hdata, hrel⟩ := storeBlock_dev (a := a) (x := x) (l := tbBlock (atIssue r) m.tbi.toNat) hr
      (by rw [seg_engsOnly ho]; exact hf) (by rw [viaSlot_engsOnly ho, tbBlock, length_blockBytes]; exact hv)
      (by rw [anyHole_engsOnly ho, tbBlock, length_blockBytes]; exact hh) (by rw [hg]; exact hb) (by rw [hg]; exact hl) m.tbi (stReleases m)
    refine ⟨_, he.trans (congrArg _ hst), ⟨y, ?_, htgt, hdata, hrel⟩, ?_⟩
    · rw [eng_updEng_same]
      exact hsb.trans (by rw [hg])
    · rw [ho]
      rfl
  · obtain ⟨t, ht, he⟩ := mopAfter_ready (o := execTb2sp e m s) h hp hi rfl
    have hx : spCheck t e v o (blockBytes (mget 0 r.tbIn m.tbi.toNat)).length = some x := by
      rw [spCheck_engsOnly ht.engsOnly, length_blockBytes, spCheck_of_window ho, hs]
    exact ⟨_, he.trans (congrArg _ (spPut_hits hx)), scratchHolds_spWrite ht.scratch x _, engsOnly_updEng ht.engsOnly e _⟩
  · refine ⟨_, ?_, runBecomes_updRun (openWord_runOf h.1) (markSlot 1)⟩
    change execFclr e m s = _
    rw [execFclr, mopAfter, afterCommit, issue_ready h hi, if_pos (show (atIssue r).phase = .post from hp), ainc_of_none hn]
    have hz : mSp (atIssue r) (free s) m = 0 := h0
    rw [hz]
    rfl
  · exact beforeCommit_post (o := execLd64 e m s) h hp hi (by rw [execLd64, mopBefore])

end Sys2Proof.Proofs

/-! PROOFS. The matrix and vector slots (R322, R333, R391). -/

namespace Sys2Proof.Proofs

open Sys2Proof.Machine Sys2Proof.Laws

section Slot

variable {s t : State} {e : Eng} {r : Run} {w k : Nat} {is : Nat → Bool} {act : Run → Nat → Nat → State → Out}

theorem afterCommit_ready (h : SlotReady s e r w k) (hp : r.phase = .post) (hi : is w = true) :
    afterCommit e k is act s = act (atIssue r) w (free s) (tick (updRun e (markSlot k) s)) := by
  rw [afterCommit, issue_ready h hi]
  exact if_pos hp

/-- The planes are exchanged. -/
theorem swap_ready (h : SlotReady s e r w 2) (hi : isMx 2 w = true) : ∃ t, execSwap e s = .next t ∧
    eng t e = { eng s e with run := some (markSlot 2 r), plane := (eng s e).shadow, shadow := (eng s e).plane } ∧
    EngsOnly s t := by
  obtain ⟨hsame, -, ht⟩ := runBecomes_updRun (openWord_runOf h.1) (markSlot 2)
  refine ⟨_, issue_ready h hi _, ?_, engsOnly_updEng ht e _⟩
  rw [eng_updEng_same, hsame]

theorem isVop_wVec {code : Nat} (h : wVop w = code) : isVop code (wVec w) w = true := by
  simp [isVop, h]

/-- A moving row of the matrix slot: its result goes to the scratchpad. -/
theorem stream_ready (h : SlotReady s e r w 2) (hp : r.phase = .post) (hi : isMx 3 w = true) {p d : Nat}
    (hs : spCheck s e r.ix.vi (readReg (atIssue r) (free s) (wStream w).src).toNat (rowBytes (wStream w).fmt) = some p)
    (hd : spCheck s e r.ix.vi (readReg (atIssue r) (free s) (wStream w).dst).toNat (mxN (wStream w).fmt * 4) = some d) :
    let x := wStream w
    ∃ t, execStream e x s = .next t ∧
      ScratchHolds s t e d (streamRow x.fmt x.acc x.e5t x.e5m (spRead s e p (rowBytes x.fmt))
        ((List.range (tileBytes x.fmt)).map fun i => mget 0 (eng s e).plane i) (spRead s e d (mxN x.fmt * 4))) ∧
      EngsOnly s t := by
  have hm := issued_rinc (issued_mark h) (wStream w)
  have hplane : (eng (rinc e (wStream w) (tick (updRun e (markSlot 2) s))) e).plane = (eng s e).plane := by
    obtain ⟨l, hl⟩ := hm.eng
    rw [hl]
  have he : execStream e (wStream w) s = _ :=
    afterCommit_ready (is := fun x => isMx 3 x && wStream x == wStream w) h hp (by simp [hi])
  dsimp only at he ⊢
  rw [show (atIssue r).ix = r.ix from rfl, spCheck_engsOnly hm.engsOnly, hs, hd, spRead_of_scratch hm.scratch, hplane] at he
  exact ⟨_, he, scratchHolds_spWrite hm.scratch d _, engsOnly_updEng hm.engsOnly e _⟩

/-- A vector operation on three checked vectors. -/
theorem vecAt_hits {v : Vi} {op : VOp} {a b c x y z : Nat} (ha : spCheck s e v a 2048 = some x) (hb : spCheck s e v b 2048 = some y)
    (hc : spCheck s e v (if (op == .exp || op == .rsq) = true then b else c) 2048 = some z) :
    vecAt e v op a b c s =
      spWrite e x (vectorOp op (spRead s e x 2048) (spRead s e y 2048) (spRead s e z 2048)) s := by
  unfold vecAt
  dsimp only
  rw [ha, hb, hc]

/-- An operation of the vector slot: its result goes to the scratchpad. -/
theorem vop_ready (h : SlotReady s e r w 3) (hp : r.phase = .post) {code : Nat} (hi : wVop w = code) {op : VOp} {x y z : Nat}
    (ha : spCheck s e r.ix.vi (readReg (atIssue r) (free s) (wVec w).dst).toNat 2048 = some x)
    (hb : spCheck s e r.ix.vi (readReg (atIssue r) (free s) (wVec w).src1).toNat 2048 = some y)
    (hc : spCheck s e r.ix.vi (if (op == .exp || op == .rsq) = true then (readReg (atIssue r) (free s) (wVec w).src1).toNat
      else (readReg (atIssue r) (free s) (wVec w).src2).toNat) 2048 = some z) :
    ∃ t, vop code op e (wVec w) s = .next t ∧
      ScratchHolds s t e x (vectorOp op (spRead s e x 2048) (spRead s e y 2048) (spRead s e z 2048)) ∧ EngsOnly s t := by
  have hm := issued_vinc (issued_mark h) (wVec w) (if op = .exp || op = .rsq then [((wVec w).dst, 2048), ((wVec w).src1, 2048)]
    else [((wVec w).dst, 2048), ((wVec w).src1, 2048)] ++ [((wVec w).src2, 2048)])
  have ho := hm.engsOnly
  refine ⟨_, (afterCommit_ready h hp (isVop_wVec hi)).trans (congrArg _ (vecAt_hits (x := x) (y := y) (z := z) ?_ ?_ ?_)), ?_,
    engsOnly_updEng ho e _⟩
  · rw [spCheck_engsOnly ho]
    exact ha
  · rw [spCheck_engsOnly ho]
    exact hb
  · rw [spCheck_engsOnly ho]
    exact hc
  · rw [spRead_of_scratch hm.scratch]
    exact scratchHolds_spWrite hm.scratch x _

end Slot

/-- Settles O32: each operation acts once its slot has issued. -/
theorem arraySlotsComplete : Obligations.ArraySlotsComplete := by
  unfold Obligations.ArraySlotsComplete
  refine ⟨fun s e r w h => ⟨fun hi => ?_, fun hi => swap_ready h hi, fun _ _ _ _ _ => completes_continues rfl rfl,
      fun hi hp => ⟨completes_continues rfl rfl, fun p d ha ho hs hd => ?_⟩, fun hi hp => ?_⟩,
    fun s e r w h => ⟨fun hi => ?_, fun hp => ⟨fun x y z hx hy hz => ⟨fun hi => vop_ready h hp hi hx hy hz,
      fun hi => vop_ready h hp hi hx hy hz, fun hi => vop_ready h hp hi hx hy hz, fun hi => vop_ready h hp hi hx hy hz,
      fun hi => vop_ready h hp hi hx hy hz⟩, fun x y hx hy => ⟨fun hi => vop_ready h hp hi hx hy hy,
      fun hi => vop_ready h hp hi hx hy hy⟩, fun _ _ _ _ _ => completes_continues rfl rfl⟩, fun hi hp => ?_⟩⟩
  · exact ⟨_, (issue_ready h hi _ : execMxNop e s = _), runBecomes_updRun (openWord_runOf h.1) (markSlot 2)⟩
  · exact stream_ready h hp hi ((spCheck_of_window ha).trans hs) ((spCheck_of_window ho).trans hd)
  · exact afterCommit_pre (o := execStream e (wStream w) s) h hp (is := fun x => isMx 3 x && wStream x == wStream w)
      (by simp [hi]) rfl
  · exact ⟨_, (issue_ready (is := fun w => wVop w == 0) h (beq_iff_eq.mpr hi) _ : execVopNop e s = _),
      runBecomes_updRun (openWord_runOf h.1) (markSlot 3)⟩
  · exact afterCommit_pre (o := execFma e (wVec w) s) h hp (isVop_wVec hi) (by rw [execFma, vop])

end Sys2Proof.Proofs

/-! PROOFS. What writes of device memory leave (R350, R374, R428), and the remaining slots of a microword (R316, R337, R360,
R366, R367, R391). -/

namespace Sys2Proof.Proofs

open Sys2Proof.Machine Sys2Proof.Laws

/-! ## Device memory -/

section Memory

variable {s t : State}

theorem memoryHolds_writeGo : ∀ (l : List Byte) (a : Nat) (s : State), MemoryHolds s (writeGo l a s) a l
  | [], a, s => fun b => by rw [writeGo, if_neg (by simp; omega)]
  | x :: l, a, s => fun b => by
    have h := memoryHolds_writeGo l (a + 1) (if isHole s a then s else writeByte a x s) b
    have hh : isHole (if isHole s a then s else writeByte a x s) = isHole s := by
      split
      · rfl
      · rfl
    rw [writeGo, h, hh]
    by_cases hb : a = b
    · subst hb
      rw [if_neg (by omega), Nat.sub_self, List.getD_cons_zero]
      cases hha : isHole s a with
      | true => simp
      | false => simp [readByte_writeByte_same]
    · have hs : readByte (if isHole s a then s else writeByte a x s) b = readByte s b := by
        split
        · rfl
        · exact readByte_writeByte_other x hb
      rw [hs]
      by_cases hin : a + 1 ≤ b ∧ b < a + 1 + l.length ∧ isHole s b = false
      · obtain ⟨h1, h2, h3⟩ := hin
        rw [if_pos ⟨h1, h2, h3⟩, if_pos ⟨by omega, by rw [List.length_cons]; omega, h3⟩,
          show b - a = b - (a + 1) + 1 by omega, List.getD_cons_succ]
      · rw [if_neg hin, if_neg fun ⟨h1, h2, h3⟩ => hin ⟨by omega, by rw [List.length_cons] at h2; omega, h3⟩]

theorem memWrite_mem (a : Nat) (l : List Byte) (s : State) : (memWrite a l s).mem = (writeGo l a s).mem := by
  unfold memWrite
  dsimp only
  exact foldl_same (P := fun s t => t.mem = s.mem) (fun _ => rfl) (fun _ _ _ h k => k.trans h) (fun s x => by split <;> rfl) _ _

theorem acceptWrite_mem (a : Nat) (l : List Byte) (s : State) : (acceptWrite a l s).mem = (writeGo l a s).mem := by
  rw [← memWrite_mem]
  exact foldl_same (f := fun s (p : Nat × EngSt) => { s with engs := mupd {} s.engs p.1 (clearMet a l.length) }) (P := fun s t => t.mem = s.mem) (fun _ => rfl) (fun _ _ _ h k => k.trans h) (fun _ _ => rfl) _ _

theorem memoryHolds_congr {u v : State} {a : Nat} {l : List Byte} (h : MemoryHolds u v a l) (hm : u.mem = s.mem)
    (hh : isHole u = isHole s) (ht : t.mem = v.mem) : MemoryHolds s t a l := by
  intro b
  have h := h b
  unfold readByte at h ⊢
  rw [ht, ← hm, ← hh]
  exact h

theorem memoryHolds_from {u : State} {a : Nat} {l : List Byte} (h : MemoryHolds u t a l) (hm : u.mem = s.mem)
    (hh : isHole u = isHole s) : MemoryHolds s t a l := memoryHolds_congr (t := t) h hm hh rfl

/-- An accepted write leaves its bytes, outside holes, and every other byte as it was. -/
theorem memoryHolds_acceptWrite (a : Nat) (l : List Byte) (s : State) : MemoryHolds s (acceptWrite a l s) a l :=
  memoryHolds_congr (memoryHolds_writeGo l a s) rfl rfl (acceptWrite_mem a l s)

/-- Of an engine an accepted write takes its reservations alone. -/
def ResvOnly (x y : EngSt) : Prop := y = { x with resv := y.resv, run := y.run } ∧ (x.resv = none → y.resv = none)

theorem ResvOnly.refl (x : EngSt) : ResvOnly x x := ⟨rfl, id⟩

theorem ResvOnly.trans {x y z : EngSt} (h : ResvOnly x y) (k : ResvOnly y z) : ResvOnly x z := by
  obtain ⟨hy, hr⟩ := h
  obtain ⟨hz, hs⟩ := k
  refine ⟨?_, fun hx => hs (hr hx)⟩
  rw [hz, hy]

theorem clearMet_resvOnly (a n : Nat) (x : EngSt) : ResvOnly x (clearMet a n x) := by
  refine ⟨rfl, fun h => ?_⟩
  simp [clearMet, h]

theorem acceptWrite_engs (a : Nat) (l : List Byte) (s : State) (e : Eng) : ResvOnly (eng s e) (eng (acceptWrite a l s) e) := by
  have hm : eng (memWrite a l s) e = eng s e := by
    obtain ⟨m, p, h⟩ := memWrite_same a l s
    rw [h]
    rfl
  rw [← hm]
  refine foldl_same (P := fun s t => ResvOnly (eng s e) (eng t e)) (fun _ => .refl _) (fun _ _ _ h k => h.trans k) (fun s x => ?_) _ _
  by_cases hx : x.1 = e.val
  · rw [eng, eng, ← hx, mget_mupd_same]
    exact clearMet_resvOnly _ _ _
  · rw [eng, eng, mget_mupd_other _ _ _ hx]
    exact .refl _

end Memory

/-! ## What is on its way to the granule of a reserved access -/

/-- Nothing has changed but how the engines and the gathers are written down. -/
def Resettled (s t : State) : Prop := t = { s with engs := t.engs, gathers := t.gathers } ∧
  (∀ x, eng t x = eng s x) ∧ ∀ k, gather t k = gather s k

theorem anyPoison_resettled {s t : State} (h : Resettled s t) : anyPoison t = anyPoison s := by
  rw [h.1]
  rfl

theorem mem_resettled {s t : State} (h : Resettled s t) : t.mem = s.mem := by
  rw [h.1]

theorem isHole_resettled {s t : State} (h : Resettled s t) : isHole t = isHole s := by
  rw [h.1]
  rfl

theorem anyHole_resettled {s t : State} (h : Resettled s t) : anyHole t = anyHole s := by
  rw [h.1]
  rfl

theorem viaSlot_resettled {s t : State} (h : Resettled s t) : viaSlot t = viaSlot s := by
  rw [h.1]
  rfl

theorem seg_resettled {s t : State} (h : Resettled s t) : seg t = seg s := by
  rw [h.1]
  rfl

section Granule

variable {s : State} {e : Eng}

theorem keepStores_nil {y : EngSt} (h : y.sb ++ y.tbOut.map Prod.snd = []) : keepStores [] y = y := by
  obtain ⟨hs, ht⟩ := List.append_eq_nil_iff.mp h
  rw [List.map_eq_nil_iff] at ht
  cases y
  simp_all [keepStores]

/-- With no store of the engine's own and none in its die's gather, nothing has to pass. -/
theorem acceptThose_flushN_empty (ho : ownStores s e = []) (hg : gather s (kilnOf e) = []) (n : Nat) (p : Gather → Bool) :
    Resettled s (acceptThose (kilnOf e) p (flushN e n s)) := by
  have hf : flushN e n s = updEng e (keepStores []) s := by
    unfold flushN
    dsimp only
    rw [ho, List.take_nil, List.drop_nil]
    rfl
  have hg' : gather (updEng e (keepStores []) s) (kilnOf e) = [] := hg
  unfold acceptThose
  rw [hf]
  dsimp only
  rw [hg', passing, List.foldl_nil]
  refine ⟨rfl, fun x => ?_, fun k => ?_⟩
  · change eng (updEng e (keepStores []) s) x = eng s x
    by_cases hx : e = x
    · rw [← hx, eng_updEng_same, keepStores_nil ho]
    · exact eng_updEng_other _ hx
  · change mget [] (mupd [] s.gathers (kilnOf e).val fun m => m) k.val = mget [] s.gathers k.val
    by_cases hk : (kilnOf e).val = k.val
    · rw [← hk, mget_mupd_same]
    · exact mget_mupd_other _ _ _ hk

theorem passGranule_empty (ho : ownStores s e = []) (hg : gather s (kilnOf e) = []) (a : Nat) :
    Resettled s (passGranule e a s) := acceptThose_flushN_empty ho hg _ _

theorem drainEngine_empty (ho : ownStores s e = []) (hg : gather s (kilnOf e) = []) : Resettled s (drainEngine e s) :=
  acceptThose_flushN_empty ho hg _ _

end Granule

/-! ## The slots -/

section Slots

/-- What the rest of an operation needs of the run as its slot has issued. -/
theorem Issued.view {s t : State} {e : Eng} {r : Run} {k : Nat} (h : Issued s t e k r) :
    ∃ q, Machine.eng t e = { Machine.eng s e with run := some q } ∧ Machine.runOf t e = some q ∧ q.ix = r.ix ∧
      q.regs = r.regs ∧ q.tbIn = r.tbIn ∧ q.pins = r.pins := by
  obtain ⟨l, hl⟩ := h.eng
  exact ⟨_, hl, by rw [Machine.runOf, hl], rfl, rfl, rfl, rfl⟩

variable {s t : State} {e : Eng} {r : Run} {w k : Nat}

theorem isHole_engsOnly (h : EngsOnly s t) : isHole t = isHole s := by
  rw [h]
  rfl

theorem slotOk_engsOnly (h : EngsOnly s t) : slotOk t = slotOk s := by
  rw [h]
  rfl

theorem updRun_mem (e : Eng) (f : Run → Run) (s : State) : (updRun e f s).mem = s.mem := rfl

theorem engsOnly_updRun (h : EngsOnly s t) (g : Eng) (f : Run → Run) : EngsOnly s (updRun g f t) := engsOnly_updEng h g _

/-- The transfer buffer with a block at its place. -/
def withBlock (tbi : BitVec 10) (b : Block) (r : Run) : Run := { r with tbIn := mset 0 r.tbIn tbi.toNat b }

theorem withBlock_tbIn (tbi : BitVec 10) (b : Block) (r : Run) : (withBlock tbi b r).tbIn = mset 0 r.tbIn tbi.toNat b := rfl

theorem withBlock_regs (tbi : BitVec 10) (b : Block) (r : Run) : (withBlock tbi b r).regs = r.regs := rfl

theorem sp2tb_ready (h : SlotReady s e r w 1) {m : MemSlot} (hi : isMop 4 m w = true) {x : Nat}
    (hx : spCheck s e r.ix.vi (readReg (atIssue r) (free s) m.sp).toNat 64 = some x) : ∃ t, execSp2tb e m s = .next t ∧
      (∃ q, runOf t e = some q ∧ q.tbIn = mset 0 r.tbIn m.tbi.toNat (bytesBlock (spRead s e x 64)) ∧ q.regs = r.regs) ∧
      EngsOnly s t := by
  have hm := issued_ainc (issued_mark h) m
  obtain ⟨q, hl, -, -, hregs, htb, -⟩ := hm.view
  refine ⟨updRun e (withBlock m.tbi (bytesBlock (spRead s e x 64))) (ainc e m (tick (updRun e (markSlot 1) s))), ?_,
    ⟨withBlock m.tbi (bytesBlock (spRead s e x 64)) q, ?_, ?_, ?_⟩, ?_⟩
  · refine (issue_ready h hi _).trans ?_
    dsimp only
    rw [spCheck_engsOnly hm.engsOnly, mSp, show (atIssue r).ix = r.ix from rfl, hx, ← spRead_of_scratch hm.scratch]
    rfl
  · rw [runOf, updRun, eng_updEng_same, hl]
    rfl
  · rw [withBlock_tbIn, htb]
  · rw [withBlock_regs, hregs]
  · exact engsOnly_updRun hm.engsOnly e _

/-- The run with a reserved load's value and its reservation. -/
def reserved (x a : Nat) (v : U64) (r : Run) : Run :=
  { r with regs := { r.regs with mres := v }, ldrDone := true, resv := some { tgt := .dev x, ea := a, value := v } }

theorem reserved_regs (x a : Nat) (v : U64) (r : Run) : (reserved x a v r).regs = { r.regs with mres := v } := rfl

theorem withHit_regs (h : Bool × Seg) (r : Run) : (withHit h r).regs = r.regs := rfl

theorem reserved_resv (x a : Nat) (v : U64) (r : Run) :
    (reserved x a v r).resv = some { tgt := .dev x, ea := a, value := v } := rfl

theorem loadReserved_hit {a x : Nat} {i : Fin 16} (hr : runOf t e = some r) (ha : a % 8 = 0)
    (ht : translate t (eu e) r.ix.vi a 8 = .hit (.dev x) i) (hh : anyHole t x 8 = false)
    (hp : anyPoison (passGranule e x (noteHit e r.ix.vi i t)) x 8 = false) (tbi : BitVec 10) :
    let u := passGranule e x (noteHit e r.ix.vi i t)
    loadReserved e a tbi t = updRun e (reserved x a (BitVec.ofNat 64 (read64 u x))) u := by
  unfold loadReserved
  rw [hr]
  dsimp only
  rw [if_neg (by simpa using ha), ht]
  dsimp only
  rw [show anyHole (noteHit e r.ix.vi i t) = anyHole t from rfl, hh, if_neg Bool.false_ne_true, hp, if_neg Bool.false_ne_true]
  rfl

theorem loadReserved_dev {a x : Nat} {i : Fin 16} (h : Issued s t e k r) (ha : a % 8 = 0)
    (ht : translate s (eu e) r.ix.vi a 8 = .hit (.dev x) i) (hh : anyHole s x 8 = false) (hp : anyPoison s x 8 = false)
    (ho : ownStores s e = []) (hg : gather s (kilnOf e) = []) (tbi : BitVec 10) :
    let u := loadReserved e a tbi t
    (∃ q, runOf u e = some q ∧ q.regs = { r.regs with mres := BitVec.ofNat 64 (read64 s x) } ∧
      q.resv = some { tgt := .dev x, ea := a, value := BitVec.ofNat 64 (read64 s x) }) ∧ u.mem = s.mem := by
  obtain ⟨q, hl, hr, hix, hregs, -⟩ := h.view
  have he := h.engsOnly
  have hn := eng_noteHit hr r.ix.vi i
  have hown : ownStores (noteHit e r.ix.vi i t) e = [] := by
    rw [ownStores_of_run hn, ownStores_of_run hl, ho]
  have hgat : gather (noteHit e r.ix.vi i t) (kilnOf e) = [] := by
    rw [show gather (noteHit e r.ix.vi i t) = gather t from rfl, he]
    exact hg
  have hpass := passGranule_empty hown hgat x
  have hme : (passGranule e x (noteHit e r.ix.vi i t)).mem = s.mem := by
    rw [mem_resettled hpass, show (noteHit e r.ix.vi i t).mem = t.mem from rfl, he]
  have hrd : read64 (passGranule e x (noteHit e r.ix.vi i t)) = read64 s := by
    unfold read64 readBytes readByte
    rw [hme]
  have hpo : anyPoison (passGranule e x (noteHit e r.ix.vi i t)) x 8 = false := by
    rw [anyPoison_resettled hpass, show anyPoison (noteHit e r.ix.vi i t) = anyPoison t from rfl, anyPoison_engsOnly he, hp]
  have hload := loadReserved_hit (x := x) (i := i) hr ha (by rw [translate_engsOnly he, hix, ht]) (by rw [anyHole_engsOnly he, hh])
    (by rw [hix]; exact hpo) tbi
  dsimp only at hload ⊢
  rw [hload, hix, hrd]
  refine ⟨⟨reserved x a (BitVec.ofNat 64 (read64 s x)) (withHit (isHostSlot i, seg t r.ix.vi i) q), ?_, ?_,
    reserved_resv ..⟩, (updRun_mem ..).trans hme⟩
  · rw [runOf, updRun, eng_updEng_same, hpass.2.1, hn]
    rfl
  · rw [reserved_regs, withHit_regs, hregs]

theorem probe_ready (h : SlotReady s e r w 1) (hp : r.phase = .pre) {m : MemSlot} (hi : isMop 12 m w = true) {x : Target} {i : Fin 16}
    (ht : translate s (eu e) r.ix.vi ((readReg (atIssue r) (free s) m.addr).toNat / 64 * 64) 64 = .hit x i) :
    ∃ u, execProbe e m s = .next u ∧
      (∃ q, runOf u e = some q ∧ (isHostSlot i, seg s r.ix.vi i) ∈ q.hits ∧ q.regs = r.regs ∧ q.tbIn = r.tbIn) ∧
      u = { s with engs := u.engs, vis := u.vis, lruCtr := s.lruCtr + 1, freeCtr := s.freeCtr + 1 } := by
  obtain ⟨t, hm, he⟩ := mopBefore_ready (o := execProbe e m s) h hp hi rfl
  obtain ⟨q, hl, hr, hix, hregs, htb, -⟩ := hm.view
  have ho := hm.engsOnly
  have hpr : probeBlock e (mAddr (atIssue r) (free s) m / 64 * 64) t = noteHit e r.ix.vi i t := by
    unfold probeBlock probeAt
    rw [hr]
    dsimp only
    rw [translate_engsOnly ho, hix, mAddr, ht]
  refine ⟨_, he.trans (congrArg _ hpr), ⟨withHit (isHostSlot i, seg s r.ix.vi i) q, ?_, mem_withHit _ _, hregs, htb⟩, ?_⟩
  · rw [runOf, eng_noteHit hr, seg_engsOnly ho]
  · rw [ho]
    rfl

theorem eng_touchSlot (v : Vi) (i : Fin 16) (s : State) (e : Eng) : eng (touchSlot v i s) e = eng s e := rfl

theorem touchSlot_mem (v : Vi) (i : Fin 16) (s : State) : (touchSlot v i s).mem = s.mem := rfl

theorem isHole_touchSlot (v : Vi) (i : Fin 16) (s : State) : isHole (touchSlot v i s) = isHole s := rfl

theorem isHole_updEng (e : Eng) (f : EngSt → EngSt) (s : State) : isHole (updEng e f s) = isHole s := rfl

/-- An STC whose entries have passed, its reservation taken. -/
def resvTaken (e : Eng) (v : Vi) (i : Fin 16) (x : Nat) (s : State) : State :=
  updEng e (fun y => { y with resv := none }) (passGranule e x (touchSlot v i s))

/-- The note of an STC to device memory, with its answer. -/
def stcNote (r : Run) (reg x a : Nat) (y : U64) (ok : Bool) : Stc :=
  {
    vi := r.ix.vi, idx := r.ix.idx, k := r.ix.k, reg := reg, tgt := .dev x, ea := a, cxl := false, ok := ok
    compare := 0, new := y }

theorem storeCond_hit {a x : Nat} {i j : Fin 16} (hr : runOf t e = some r)
    (hf : (r.pins.find? fun k => covers (seg t r.ix.vi k) a) = some i)
    (hv : viaSlot t (eu e) r.ix.vi i a 8 = .hit (.dev x) j) (hh : anyHole t x 8 = false) (reg : Nat) (y : U64) {ok : Bool}
    (hok : ((resvHolds (passGranule e x (touchSlot r.ix.vi i t)) e a).any fun q => q.tgt == .dev x) = ok) :
    storeCond e a reg y t =
      let v := noteStc e (stcNote r reg x a y ok) (resvTaken e r.ix.vi i x t)
      if ok then acceptWrite x (natBytes 8 y.toNat) v else v := by
  subst hok
  unfold storeCond
  rw [hr]
  dsimp only
  rw [hf]
  dsimp only
  rw [show viaSlot (touchSlot r.ix.vi i t) = viaSlot t from rfl, hv]
  dsimp only
  rw [show anyHole (touchSlot r.ix.vi i t) = anyHole t from rfl, hh, if_neg Bool.false_ne_true, takeResv, stcNote, resvTaken]

theorem passGranule_touched (ho : ownStores t e = []) (hg : gather t (kilnOf e) = []) (v : Vi) (i : Fin 16) (x : Nat) :
    Resettled (touchSlot v i t) (passGranule e x (touchSlot v i t)) := passGranule_empty (s := touchSlot v i t) ho hg x

/-- What an STC to device memory has found by the time it is decided, nothing of its engine being on its way. -/
theorem resvTaken_leaves (ho : ownStores t e = []) (hg : gather t (kilnOf e) = []) (v : Vi) (i : Fin 16) (x : Nat) :
    eng (resvTaken e v i x t) e = { eng t e with resv := none } ∧ (resvTaken e v i x t).mem = t.mem ∧
      isHole (resvTaken e v i x t) = isHole t := by
  have hp := passGranule_touched ho hg v i x
  refine ⟨?_, ?_, ?_⟩
  · rw [resvTaken, eng_updEng_same, hp.2.1, eng_touchSlot]
  · rw [resvTaken, updEng_mem, mem_resettled hp, touchSlot_mem]
  · rw [resvTaken, isHole_updEng, isHole_resettled hp, isHole_touchSlot]

/-- What an STC to device memory leaves: the reservation is cleared, the answer is noted, and the value is stored if the
reservation held. -/
theorem storeCond_dev {a x : Nat} {i j : Fin 16} (h : Issued s t e k r)
    (hf : (r.pins.find? fun k => covers (seg s r.ix.vi k) a) = some i)
    (hv : viaSlot s (eu e) r.ix.vi i a 8 = .hit (.dev x) j) (hh : anyHole s x 8 = false)
    (ho : ownStores s e = []) (hg : gather s (kilnOf e) = []) (reg : Nat) (y : U64) {ok : Bool}
    (hok : (((eng s e).resv.filter fun r => r.ea == a).any fun q => q.tgt == .dev x) = ok) :
    let u := storeCond e a reg y (drainEngine e t)
    (if ok then MemoryHolds s u x (natBytes 8 y.toNat) else u.mem = s.mem) ∧ (eng u e).resv = none ∧
      (eng u e).stcs = (eng s e).stcs ++ [stcNote r reg x a y ok] := by
  obtain ⟨q, hl, hr, hix, -, -, hpins⟩ := h.view
  have he := h.engsOnly
  have hown : ownStores t e = [] := by rw [ownStores_of_run hl, ho]
  have hgat : gather t (kilnOf e) = [] := by
    rw [he]
    exact hg
  have hd := drainEngine_empty hown hgat
  have hown' : ownStores (drainEngine e t) e = [] := by
    rw [ownStores, hd.2.1]
    exact hown
  have hgat' : gather (drainEngine e t) (kilnOf e) = [] := by rw [hd.2.2, hgat]
  have hq : runOf (drainEngine e t) e = some q := by rw [runOf, hd.2.1, hl]
  have hpg := passGranule_touched hown' hgat' q.ix.vi i x
  have hres : (eng (passGranule e x (touchSlot q.ix.vi i (drainEngine e t))) e).resv = (eng s e).resv := by
    rw [hpg.2.1, eng_touchSlot, hd.2.1, hl]
  obtain ⟨hut, hum, huh⟩ := resvTaken_leaves hown' hgat' q.ix.vi i x
  have hst := storeCond_hit (e := e) (a := a) (x := x) (i := i) (j := j) (ok := ok) hq (by rw [seg_resettled hd, seg_engsOnly he, hix, hpins, hf])
    (by rw [viaSlot_resettled hd, viaSlot_engsOnly he, hix, hv]) (by rw [anyHole_resettled hd, anyHole_engsOnly he, hh]) reg y
    (by rw [resvHolds, hres, hok])
  have hvm : (noteStc e (stcNote q reg x a y ok) (resvTaken e q.ix.vi i x (drainEngine e t))).mem = s.mem := by
    rw [noteStc, updEng_mem, hum, mem_resettled hd, he]
  have hvh : isHole (noteStc e (stcNote q reg x a y ok) (resvTaken e q.ix.vi i x (drainEngine e t))) = isHole s := by
    rw [noteStc, isHole_updEng, huh, isHole_resettled hd, isHole_engsOnly he]
  have hve : eng (noteStc e (stcNote q reg x a y ok) (resvTaken e q.ix.vi i x (drainEngine e t))) e =
      { eng t e with resv := none, stcs := (eng s e).stcs ++ [stcNote r reg x a y ok] } := by
    rw [noteStc, eng_updEng_same, hut, hd.2.1, hl, stcNote, stcNote, hix]
  dsimp only at hst ⊢
  rw [hst]
  cases ok with
  | false =>
    simp only [Bool.false_eq_true, if_false]
    exact ⟨hvm, by rw [hve], by rw [hve]⟩
  | true =>
    obtain ⟨hsame, hnone⟩ := acceptWrite_engs x (natBytes 8 y.toNat)
      (noteStc e (stcNote q reg x a y true) (resvTaken e q.ix.vi i x (drainEngine e t))) e
    simp only [if_true]
    have hmem := memoryHolds_from (memoryHolds_acceptWrite x (natBytes 8 y.toNat)
      (noteStc e (stcNote q reg x a y true) (resvTaken e q.ix.vi i x (drainEngine e t)))) hvm hvh
    exact ⟨hmem, hnone (by rw [hve]), by rw [hsame, hve]⟩

/-- A slot that has been read is FREE, and no up message names it (R316). -/
def slotFreed (e : Eng) (n : Nat) (s : State) : State :=
  let s := tick (updEng e (fun y => { y with slots := mset {} y.slots n {} }) s)
  { s with vis := s.vis.map fun p => (p.1, { p.2 with upMsgs := p.2.upMsgs.filter fun m => !(m.1 == e && m.2.val == n) }) }

theorem eng_slotFreed (e : Eng) (n : Nat) (s : State) :
    eng (slotFreed e n s) e = { eng s e with slots := mset {} (eng s e).slots n {} } :=
  eng_updEng_same (s := s) e fun y => { y with slots := mset {} y.slots n {} }

theorem slotFreed_mem (e : Eng) (n : Nat) (s : State) : (slotFreed e n s).mem = s.mem := rfl

theorem slotRead_full {v : Vi} {n o x : Nat} (hd : (slotAt t e n).data.length = 256) (hx : spCheck t e v o 256 = some x) :
    slotRead e v n o t = spWrite e x (slotAt t e n).data (slotFreed e n t) := by
  have hl : ((slotAt t e n).data ++ natBytes (256 - (slotAt t e n).data.length) (free t)).take 256 = (slotAt t e n).data := by
    rw [← hd]
    exact List.take_left
  unfold slotRead
  dsimp only
  rw [hl]
  exact spPut_hits (s := slotFreed e n t) (by rw [hd]; exact hx)

/-- A slot is read whole into the scratchpad and is free. -/
theorem slotRead_hits {v : Vi} {n o x : Nat} (hd : (slotAt t e n).data.length = 256) (hx : spCheck t e v o 256 = some x)
    (hs : (eng t e).scratch = (eng s e).scratch) :
    ScratchHolds s (slotRead e v n o t) e x (slotAt t e n).data ∧ slotAt (slotRead e v n o t) e n = {} ∧
      (slotRead e v n o t).mem = t.mem := by
  rw [slotRead_full hd hx]
  refine ⟨scratchHolds_spWrite (by rw [eng_slotFreed, hs]) x _, ?_, by rw [spWrite, updEng_mem, slotFreed_mem]⟩
  rw [slotAt, spWrite, eng_updEng_same, eng_slotFreed]
  simp

/-- A slot is written with the scratchpad's bytes under the device's own header fields (R337). -/
theorem slotWrite_hits {v : Vi} {n o x veng : Nat} (hx : spCheck t e v o 256 = some x) :
    slotAt (slotWrite e v veng n o t) e n = {
      st := .up, vi := v.val
      data := natBytes 4 0 ++ natBytes 2 veng ++ natBytes 1 n ++ (spRead t e x 256).drop 7 } ∧
    slotWrite e v veng n o t = { t with engs := (slotWrite e v veng n o t).engs, vis := (slotWrite e v veng n o t).vis } := by
  unfold slotWrite
  rw [hx]
  refine ⟨?_, rfl⟩
  dsimp only
  rw [slotAt, eng_updVi, eng_updEng_same]
  simp

theorem getD_spRead (s : State) (e : Eng) (o : Nat) {j n : Nat} (h : j < n) :
    (spRead s e o n).getD j 0 = mget 0 (eng s e).scratch (o + j) := by
  simp [spRead, h]

theorem length_spRead (s : State) (e : Eng) (o n : Nat) : (spRead s e o n).length = n := by simp [spRead]

/-- A slice of the scratchpad goes into the shadow plane (R322). -/
theorem shift_ready (h : SlotReady s e r w 2) (hi : isMx 1 w = true) {o : Nat} :
    let n := sliceBytes (wFmt w)
    let k := (readReg (atIssue r) (free s) (wMidx w)).toNat % 256
    spCheck s e r.ix.vi ((readReg (atIssue r) (free s) (wMsrc w)).toNat + n * k) n = some o →
    ∃ t, execShift e (wFmt w) (wMsrc w) (wMidx w) s = .next t ∧
      (∀ j, mget 0 (eng t e).shadow j = if n * k ≤ j ∧ j < n * k + n then mget 0 (eng s e).scratch (o + (j - n * k))
        else mget 0 (eng s e).shadow j) ∧ (eng t e).plane = (eng s e).plane ∧ (eng t e).scratch = (eng s e).scratch ∧
      EngsOnly s t := by
  intro n k ho
  have hm := issued_mark h
  obtain ⟨q, hl, -⟩ := hm.view
  have he : execShift e (wFmt w) (wMsrc w) (wMidx w) s = _ := issue_ready
    (is := fun x => isMx 1 x && wFmt x == wFmt w && wMsrc x == wMsrc w && wMidx x == wMidx w) h (by simp [hi]) _
  dsimp only at he
  rw [show (atIssue r).ix = r.ix from rfl, spCheck_engsOnly hm.engsOnly, ho, spRead_of_scratch hm.scratch] at he
  refine ⟨_, he, fun j => ?_, ?_, ?_, engsOnly_updEng hm.engsOnly e _⟩ <;> rw [eng_updEng_same, hl]
  refine (mget_spGo _ _ _ j).trans ?_
  rw [length_spRead]
  split
  · next hj => exact getD_spRead s e o (by omega)
  · rfl

theorem cvtAt_hits {v : Vi} {p d a b x y : Nat} {sat : Bool} (hx : spCheck t e v a (512 * dtypeBytes d) = some x)
    (hy : spCheck t e v b (512 * dtypeBytes p) = some y) :
    cvtAt e v p d sat a b t = spWrite e x (vectorCvt p d sat (spRead t e y (512 * dtypeBytes p))) t := by
  unfold cvtAt
  rw [hx, hy]

/-- A converted vector goes to the scratchpad. -/
theorem cvt_ready (h : SlotReady s e r w 3) (hp : r.phase = .post) {p d : BitVec 4} {x y : Nat} (hi : wVop w = 8)
    (hs : wCvtSrc w = p.toNat) (hd : wCvtDst w = d.toNat)
    (hx : spCheck s e r.ix.vi (readReg (atIssue r) (free s) (wVec w).dst).toNat (512 * dtypeBytes d.toNat) = some x)
    (hy : spCheck s e r.ix.vi (readReg (atIssue r) (free s) (wVec w).src1).toNat (512 * dtypeBytes p.toNat) = some y) :
    ∃ t, execCvt e (wVec w) p d (wSat w) s = .next t ∧
      ScratchHolds s t e x (vectorCvt p.toNat d.toNat (wSat w) (spRead s e y (512 * dtypeBytes p.toNat))) ∧ EngsOnly s t := by
  have hm := issued_vinc (issued_mark h) (wVec w)
    [((wVec w).dst, 512 * dtypeBytes d.toNat), ((wVec w).src1, 512 * dtypeBytes p.toNat)]
  have ho := hm.engsOnly
  refine ⟨_, (afterCommit_ready (is := fun x => isVop 8 (wVec w) x && wCvtSrc x == p.toNat && wCvtDst x == d.toNat &&
    wSat x == wSat w) h hp (by simp [isVop_wVec hi, hs, hd])).trans (congrArg _ (cvtAt_hits (x := x) (y := y) ?_ ?_)), ?_,
    engsOnly_updEng ho e _⟩
  · rw [spCheck_engsOnly ho]
    exact hx
  · rw [spCheck_engsOnly ho]
    exact hy
  · rw [spRead_of_scratch hm.scratch]
    exact scratchHolds_spWrite hm.scratch x _

end Slots

/-- Settles O50: each slot acts once it has issued. -/
theorem engineSlotsTakeEffect : Obligations.EngineSlotsTakeEffect := by
  unfold Obligations.EngineSlotsTakeEffect
  refine ⟨fun s e r w m h => ⟨fun x hi hx => sp2tb_ready h hi hx, fun x i hi hp ha ht hh hx ho hg => ?_,
      fun t i hi hp ht => probe_ready h hp hi ht, fun x i j hi hp hm ha hf hv hh ho hg => ⟨fun z hz => ?_, fun hz => ?_⟩,
      fun x hp hs hx => ⟨fun hi hd => ?_, fun hi => ?_⟩⟩, fun s e r w o h hi ho => ?_,
    fun s e r w p d x y h hp hi hs hd hx hy => ?_⟩
  · obtain ⟨t, hm, he⟩ := mopBefore_ready (o := execLdr e m s) h hp hi rfl
    exact ⟨_, he, loadReserved_dev hm ha ht hh hx ho hg m.tbi⟩
  · obtain ⟨t, hm, he⟩ := mopAfter_ready (o := execStc e m s) h hp hi rfl
    rw [if_neg (by simpa [mAddr] using ha)] at he
    obtain ⟨hmem, hres, hstc⟩ := storeCond_dev (ok := true) hm hf hv hh ho hg (opA r % 16)
      (readReg (atIssue r) (free s) m.sp) (by rw [hz]; simp)
    exact ⟨_, he, hmem, hres, hstc⟩
  · obtain ⟨t, hm, he⟩ := mopAfter_ready (o := execStc e m s) h hp hi rfl
    rw [if_neg (by simpa [mAddr] using ha)] at he
    obtain ⟨hmem, hres, hstc⟩ := storeCond_dev (ok := false) hm hf hv hh ho hg (opA r % 16)
      (readReg (atIssue r) (free s) m.sp) (by rw [hz]; rfl)
    exact ⟨_, he, hmem, hstc⟩
  · obtain ⟨t, hm, he⟩ := mopAfter_ready (o := execSlotrd e m s) h hp hi rfl
    obtain ⟨q, hl, -⟩ := hm.view
    have hx' : spCheck t e r.ix.vi (mSp (atIssue r) (free s) m) 256 = some x := by
      rw [spCheck_engsOnly hm.engsOnly]
      exact hx
    have hsl : slotAt t e = slotAt s e := by
      funext n
      rw [slotAt, hl, slotAt]
    have hok : slotOk t e r.ix.vi (mAddr (atIssue r) (free s) m % 4) = true := by
      rw [slotOk_engsOnly hm.engsOnly]
      exact hs
    dsimp only at he
    rw [show (atIssue r).ix = r.ix from rfl, hok, if_neg (by decide), hx', if_neg (by simp)] at he
    obtain ⟨hsp, hfree, hmem⟩ := slotRead_hits (s := s) (v := r.ix.vi) (n := mAddr (atIssue r) (free s) m % 4)
      (o := mSp (atIssue r) (free s) m) (by rw [hsl]; exact hd) hx' hm.scratch
    rw [hsl] at hsp
    exact ⟨_, he, hsp, hfree, hmem.trans (by rw [hm.engsOnly])⟩
  · obtain ⟨t, hm, he⟩ := mopAfter_ready (o := execSlotwr e m s) h hp hi rfl
    have hx' : spCheck t e r.ix.vi (mSp (atIssue r) (free s) m) 256 = some x := by
      rw [spCheck_engsOnly hm.engsOnly]
      exact hx
    have hok : slotOk t e r.ix.vi (mAddr (atIssue r) (free s) m % 4) = true := by
      rw [slotOk_engsOnly hm.engsOnly]
      exact hs
    dsimp only at he
    rw [show (atIssue r).ix = r.ix from rfl, hok, if_neg (by decide)] at he
    obtain ⟨hslot, hframe⟩ := slotWrite_hits (n := mAddr (atIssue r) (free s) m % 4) (veng := r.ix.veng) hx'
    rw [spRead_of_scratch hm.scratch] at hslot
    refine ⟨_, he, hslot, ?_⟩
    generalize slotWrite e r.ix.vi r.ix.veng (mAddr (atIssue r) (free s) m % 4) (mSp (atIssue r) (free s) m) t = u at hframe ⊢
    rw [hm.engsOnly] at hframe
    exact hframe
  · exact shift_ready h hi ho
  · exact cvt_ready h hp hi hs hd hx hy

end Sys2Proof.Proofs

/-! PROOFS. Launch indices and budgets of an engine, and its loads, stores and gathers (R326, R343, R345, R350, R359, R367,
R374, R401 to R404). -/

namespace Sys2Proof.Proofs

open Sys2Proof.Machine Sys2Proof.Laws

section Schedule

variable {s : State} {e : Eng} {r : Run}

/-- The registers that a launch index starts with (R326). -/
theorem xReg_startRegs (i : Index) : xReg (startRegs i) 0 = i.arg ∧ xReg (startRegs i) 1 = BitVec.ofNat 64 i.k ∧
    xReg (startRegs i) 2 = BitVec.ofNat 64 i.veng ∧ xReg (startRegs i) 3 = BitVec.ofNat 64 i.count ∧
    ∀ n, 4 ≤ n → xReg (startRegs i) n = 0 := by
  unfold xReg startRegs
  refine ⟨?_, ?_, ?_, ?_, fun n hn => ?_⟩
  · simp [mget_mset_other]
  · simp [mget_mset_other]
  · simp [mget_mset_other]
  · simp
  · rw [mget_mset_other _ _ _ (by omega), mget_mset_other _ _ _ (by omega), mget_mset_other _ _ _ (by omega),
      mget_mset_other _ _ _ (by omega)]
    rfl

/-- The engine with the first queued index of the VI that it serves started. -/
def started (i : Index) (x : EngSt) : EngSt := { x with sliceDue := false, run := some (startRun i), queue := x.queue.erase i }

theorem takeUp_turn {i : Index} (ha : ∀ r ∈ (eng s e).away, r.ix.vi.val ≠ (eng s e).turn)
    (hq : ((eng s e).queue.find? fun j => j.vi.val == (eng s e).turn) = some i) :
    eng (takeUp e (eng s e).turn s) e = started i (eng s e) ∧
      takeUp e (eng s e).turn s = { s with engs := (takeUp e (eng s e).turn s).engs } := by
  have hn : ((eng s e).away.find? fun r => r.ix.vi.val == (eng s e).turn) = none :=
    List.find?_eq_none.mpr fun r hr => by simpa using ha r hr
  unfold takeUp
  dsimp only
  rw [if_pos rfl, if_neg (by simp)]
  refine ⟨?_, rfl⟩
  rw [eng_updEng_same, hn, hq]
  rfl

theorem eng_forget (p : Who → Bool) (s : State) (e : Eng) : eng (forget p s) e = eng s e := rfl

/-- A routine that is abandoned before commit starts again, its task registers and its task word kept (R404). -/
theorem abandon_leaves (hr : runOf s e = some r) :
    (∃ q, runOf (abandon e s) e = some q ∧ q.attempt = r.attempt + 1 ∧ q.regs = { x := r.regs.x } ∧ q.tbIn = [] ∧ q.cycles = 0 ∧
      q.task = r.task ∧ q.word = r.word ∧ q.phase = r.phase) ∧
    (eng (abandon e s) e).shadow = [] ∧ (eng (abandon e s) e).sb = (eng s e).sb ∧ (eng (abandon e s) e).tbOut = (eng s e).tbOut ∧
    abandon e s = { s with
      engs := (abandon e s).engs, hret := (abandon e s).hret, mesh := (abandon e s).mesh, hl := (abandon e s).hl } := by
  have hrun : (eng s e).run = some r := hr
  unfold abandon
  refine ⟨⟨{ dropAttempt r with
    upc := if r.open_ then (openEntry (eng s e) (r.word.toNat % 4096)).getD 3072 else r.upc }, ?_, rfl, rfl, rfl, rfl, rfl, rfl, rfl⟩,
    ?_, ?_, ?_, rfl⟩
  · rw [runOf, eng_forget, eng_updEng_same, hrun]
    rfl
  all_goals rw [eng_forget, eng_updEng_same]

/-- An index that leaves for another VI's keeps its task word and its task registers (R343, R406). -/
theorem switchAway_leaves (hr : runOf s e = some r) :
    runOf (switchAway e s) e = none ∧
    (∃ q ∈ (eng (switchAway e s) e).away, q.ix = r.ix ∧ q.task = r.task ∧ q.regs = { x := r.regs.x }) ∧
    (eng (switchAway e s) e).shadow = [] ∧
    switchAway e s = { s with
      engs := (switchAway e s).engs, hret := (switchAway e s).hret, mesh := (switchAway e s).mesh, hl := (switchAway e s).hl } := by
  have hrun : (eng s e).run = some r := hr
  unfold switchAway
  refine ⟨?_, ⟨{ dropAttempt r with phase := .between }, ?_, rfl, rfl, rfl⟩, ?_, rfl⟩
  · rw [runOf, eng_forget, eng_updEng_same]
  · rw [eng_forget, eng_updEng_same, hrun]
    exact List.mem_append_right _ (List.mem_singleton_self _)
  · rw [eng_forget, eng_updEng_same]

theorem runOf_endIndex (hr : runOf s e = some r) (c : Option Compl) (w : U64) : runOf (endIndex e c w s) e = none := by
  obtain ⟨t, ht, hrun, -⟩ := endIndex_eq hr c w
  rw [ht, runOf_indexEnded, hrun]

end Schedule

/-- Settles O33: the queue, the phase and the waiting VIs decide. -/
theorem taskScheduleCompletes : Obligations.TaskScheduleCompletes := by
  unfold Obligations.TaskScheduleCompletes
  refine fun s e => ⟨completes_continues rfl rfl, completes_continues rfl rfl, completes_continues rfl rfl,
    completes_continues rfl rfl, fun i hon hr hp ha hq => ?_, fun r hon hr => ⟨fun hp hm => ?_, fun hp ho => ?_,
      fun hp hw => ?_, fun hp hw => ?_⟩⟩
  · obtain ⟨heng, hframe⟩ := takeUp_turn ha hq
    obtain ⟨h0, h1, h2, h3, h4⟩ := xReg_startRegs i
    refine ⟨takeUp e (eng s e).turn s, ?_, ⟨startRun i, by rw [runOf, heng]; rfl, rfl, rfl, rfl, h0, h1, h2, h3, h4⟩,
      by rw [heng]; rfl, hframe⟩
    change execLaunchIndexStart e s = _
    rw [execLaunchIndexStart, hr, hp, if_neg (by simp [hon])]
  · obtain ⟨hq, hrest⟩ := abandon_leaves hr
    rw [hp] at hq
    refine ⟨abandon e s, ?_, hq, hrest⟩
    change execPrecommitBudgetEnd e s = _
    rw [execPrecommitBudgetEnd, if_neg (by simp [hon]), hr]
    dsimp only
    rw [if_pos (by simp [hp, hm])]
  · refine completes_and_continues rfl ⟨endIndex e (some (openC .fencedUnit)) 0 s, ?_, runOf_endIndex hr _ _⟩
    change execPostcommitBudgetEnd e s = _
    rw [execPostcommitBudgetEnd, if_neg (by simp [hon]), hr]
    dsimp only
    rw [if_pos (by simp [hp, ho])]
  · refine ⟨updEng e (fun x => { x with sliceDue := true }) s, ?_, eng_updEng_same .., rfl⟩
    change execSliceEnd e s = _
    rw [execSliceEnd, if_neg (by simp [hon, hw]), hr]
    dsimp only
    rw [if_pos hp]
  · refine ⟨switchAway e s, ?_, switchAway_leaves hr⟩
    change execSliceEnd e s = _
    rw [execSliceEnd, if_neg (by simp [hon, hw]), hr]
    dsimp only
    rw [if_neg hp]

/-! ## What returns to an engine and what leaves it -/

section Traffic

variable {s : State} {e : Eng} {r : Run}

/-- The loads of the running attempt, one of them answered (R359). -/
def loadAnswered (p : HLoad) (d : Block) (r : Run) : Run :=
  { r with
    loads := r.loads.erase p
    tbIn := mset 0 r.tbIn p.tbi.toNat (bytesBlock (loadHost p.fwd p.host (blockBytes d))) }

theorem loadEndsAt_data {p : HLoad} {x : LoadRes} {d : Block}
    (h : (loadAnswer s p.cxl (.load e r.attempt p.tbi) x).map Prod.fst = some (.data d)) :
    loadEndsAt e r p x s = updRun e (loadAnswered p d) (dropRet (.load e r.attempt p.tbi) s) := by
  obtain ⟨⟨y, b⟩, hy, rfl⟩ := Option.map_eq_some_iff.mp h
  unfold loadEndsAt
  dsimp only
  rw [hy]
  rfl

theorem updRun_dropRet (f : Run → Run) (w : Who) (hr : runOf s e = some r) :
    runOf (updRun e f (dropRet w s)) e = some (f r) ∧
      updRun e f (dropRet w s) = { s with engs := (updRun e f (dropRet w s)).engs, hret := (updRun e f (dropRet w s)).hret } := by
  refine ⟨?_, rfl⟩
  rw [runOf, updRun, eng_updEng_same, show (eng (dropRet w s) e).run = some r from hr]
  rfl

/-- The answer of a load: from the host port, or what the slice has returned. -/
theorem loadAnswer_data {p : HLoad} {x : LoadRes} {d : Block} {w : Who}
    (h : (p.cxl = false ∧ x = .data d) ∨ (p.cxl = true ∧ ∃ y, retOf s w = some y ∧ y.failed = false ∧ y.poison = false ∧ y.data = d)) :
    (loadAnswer s p.cxl w x).map Prod.fst = some (.data d) := by
  rcases h with ⟨hc, rfl⟩ | ⟨hc, y, hy, hf, hp, rfl⟩
  · rw [loadAnswer, hc]
    rfl
  · rw [loadAnswer, hc, if_pos rfl, hy, Option.map_some, hf, hp]
    rfl

theorem loadReturn_data {n : Nat} {b : BitVec 10} {x : LoadRes} {p : HLoad} {d : Block} (hon : engOn s e = true)
    (hr : runOf s e = some r) (hn : r.attempt = n) (hp : r.phase = .pre) (hl : r.ldr = none)
    (hf : (r.loads.find? fun p => p.tbi == b) = some p)
    (h : (p.cxl = false ∧ x = .data d) ∨
      (p.cxl = true ∧ ∃ y, retOf s (.load e n b) = some y ∧ y.failed = false ∧ y.poison = false ∧ y.data = d)) :
    execLoadReturn e n b x s = .next (updRun e (loadAnswered p d) (dropRet (.load e n b) s)) := by
  subst hn
  have hb : p.tbi = b := by simpa using List.find?_some hf
  subst hb
  unfold execLoadReturn
  rw [hr]
  dsimp only
  rw [if_neg (by simp [hon]), if_neg (by omega), if_neg (by simp [hp]), hl, Option.filter_none, hf]
  dsimp only
  rw [loadEndsAt_data (loadAnswer_data h)]

theorem loadReturn_stale {n : Nat} (hr : runOf s e = some r) (h : r.attempt ≠ n) (h' : r.attempt + 1 ≠ n) (b : BitVec 10) (x : LoadRes) :
    execLoadReturn e n b x s = .next s := by
  unfold execLoadReturn
  rw [hr]
  dsimp only
  rw [if_neg h']
  split
  · rfl
  · rw [if_pos (by simp [h])]

/-- The result of an STC to device memory, the only one that is out. -/
theorem stcResult_dev {y : Stc} {a : Nat} (x : StcRes) (hon : engOn s e = true) (hy : (eng s e).stcs = [y]) (ht : y.tgt = .dev a)
    (hc : y.cxl = false) : execStcResult e x s = .next (updEng e (fun z => { z with
      stcs := z.stcs.erase y, run := z.run.map (takeStc y (b2n y.ok, none)), away := z.away.map (takeStc y (b2n y.ok, none)) }) s) := by
  have hv : stcValue s e y x = some (b2n y.ok, none) := by
    unfold stcValue
    rw [ht]
  unfold execStcResult
  rw [if_neg (by simp [hon]), hy, List.findSome?_cons, hv, Option.map_some]
  dsimp only
  rw [hc, if_neg Bool.false_ne_true]

theorem takeStc_here {y : Stc} (h : isIndex y.vi y.idx y.k r = true) :
    takeStc y (b2n y.ok, none) r = { r with regs := setX r.regs y.reg (if y.ok then 1 else 0) } := by
  unfold takeStc
  rw [if_pos h]
  cases y.ok <;> cases r.fail <;> simp [b2n]

/-- The only entry of a store buffer is the next to pass. -/
theorem sbMayPass_only (y : SbEnt) (fr : Nat) : pickFree fr ((List.range [y].length).filter (sbMayPass [y])) = 0 := by
  simp [sbMayPass, pickFree]

theorem gatherMayPass_only (g : Gather) (fr : Nat) : pickFree fr ((List.range [g].length).filter (gatherMayPass [g])) = 0 := by
  simp [gatherMayPass, pickFree]

theorem pushGather_empty {v : Vi} {a : Nat} {l : List Byte} (hg : gather s (kilnOf e) = []) :
    pushGather e v a l s = updGather (kilnOf e) (fun g => g ++ [{ eng := e, vi := v, addr := a, data := l }]) s := by
  unfold pushGather
  dsimp only
  rw [hg]

theorem gather_updGather (k : Kiln) (f : List Gather → List Gather) (s : State) : gather (updGather k f s) k = f (gather s k) := by
  simp [gather, updGather]

theorem gather_acceptWrite (a : Nat) (l : List Byte) (s : State) : gather (acceptWrite a l s) = gather s := by
  obtain ⟨m, p, e, h⟩ := acceptWrite_same a l s
  rw [h]
  rfl

theorem refillSb_empty (h : (eng s e).tbOut = []) : eng (refillSb e s) e = eng s e := by
  rw [refillSb, eng_updEng_same, h]

/-- The only entry of a store buffer passes to the die's write gather (R350). -/
theorem storeBufferPass_only {ok : Bool} {y : SbEnt} {x : Nat} (hon : engOn s e = true) (hi : islandRuns s (.hub (kilnOf e)) = true)
    (hsb : (eng s e).sb = [y]) (htb : (eng s e).tbOut = []) (hm : mayLeave s e y = true) (ht : y.tgt = .dev x)
    (hr : y.release = false) (hg : gather s (kilnOf e) = []) : ∃ t, execStoreBufferPass e ok s = .next t ∧
      (eng t e).sb = [] ∧ gather t (kilnOf e) = [{ eng := e, vi := y.vi, addr := x, data := y.data }] ∧
      t = { s with engs := t.engs, gathers := t.gathers, freeCtr := s.freeCtr + 1 } := by
  have hpass : execStoreBufferPass e ok s = .next (pushGather e y.vi x y.data
      (refillSb e (updEng e (fun z => { z with sb := [] }) (tick s)))) := by
    unfold execStoreBufferPass
    rw [if_neg (by simp [hon, hi]), hsb]
    dsimp only
    rw [sbMayPass_only]
    dsimp only [List.getElem?_cons_zero]
    rw [if_neg (by simp [hm]), ht]
    dsimp only
    rw [passEntry, ht, hr]
    rfl
  have hgat : gather (refillSb e (updEng e (fun z => { z with sb := [] }) (tick s))) (kilnOf e) = [] := hg
  rw [pushGather_empty hgat] at hpass
  refine ⟨_, hpass, ?_, ?_, rfl⟩
  · change (eng (refillSb e (updEng e (fun z => { z with sb := [] }) (tick s))) e).sb = []
    rw [refillSb_empty (by rw [eng_updEng_same]; exact htb), eng_updEng_same]
  · rw [gather_updGather, hgat]
    rfl

/-- An entry of one granule is one piece. -/
theorem gatherPieces_one {g : Gather} (h : (granules g.addr g.data.length).length = 1) : gatherPieces g = [g] := by
  unfold gatherPieces granules at *
  split at h
  · cases h
  · next hn =>
    rw [if_neg hn]
    simp only [List.length_map, List.length_range] at h
    rw [h]
    have hlo : max g.addr (32 * (g.addr / 32 + 0)) = g.addr := by omega
    have hlen : min (g.addr + g.data.length) (32 * (g.addr / 32 + 0) + 32) - g.addr = g.data.length := by omega
    rw [show List.range 1 = [0] from rfl, List.map_singleton, List.map_singleton]
    dsimp only
    rw [hlo, hlen, Nat.sub_self, List.drop_zero, List.take_length]

/-- The only entry of a gather goes to device memory (R374). -/
theorem gatherPass_only {k : Kiln} {g : Gather} (hon : running s = true) (hk : kilnFenced s k = false) (hi : islandRuns s (.hub k) = true)
    (hg : gather s k = [g]) (hm : memOpen s k.val g.addr g.data.length = true) (h1 : (granules g.addr g.data.length).length = 1) :
    execGatherPass k s = .next (acceptWrite g.addr g.data (updGather k (fun _ => []) (tick (tick s)))) := by
  unfold execGatherPass
  rw [if_neg (by simp [hon, hk, hi]), hg]
  dsimp only
  rw [gatherMayPass_only]
  dsimp only [List.getElem?_cons_zero]
  rw [if_pos hm, passPiece, gatherPieces_one h1]
  rw [List.length_singleton, Nat.mod_one]
  simp

end Traffic

/-- Settles O35: the answer, the entry or the word decides. -/
theorem engineTrafficCompletes : Obligations.EngineTrafficCompletes := by
  unfold Obligations.EngineTrafficCompletes
  refine ⟨fun s e n b x => ⟨completes_continues rfl rfl, fun r hr h h' => ⟨s, loadReturn_stale hr h h' b x, rfl⟩,
      fun r p d hon hr hn hp hl hf h => ?_⟩,
    fun s e x => ⟨completes_continues rfl rfl, fun r y a hon hr hy ht hc hi => ?_⟩,
    fun s e ok => ⟨completes_continues rfl rfl, fun y x hon hi hsb htb hm ht hr hg => storeBufferPass_only hon hi hsb htb hm ht hr hg⟩,
    fun s k => ⟨completes_continues rfl rfl, fun g hon hk hi hg hm h1 => ?_⟩,
    fun s e => ⟨completes_continues rfl rfl, fun r w ho => ?_⟩⟩
  · have hb : p.tbi = b := by simpa using List.find?_some hf
    obtain ⟨hq, hframe⟩ := updRun_dropRet (loadAnswered p d) (.load e n b) hr
    refine ⟨_, loadReturn_data hon hr hn hp hl hf h, ?_, hframe⟩
    rw [hq, loadAnswered, hb]
  · refine ⟨_, stcResult_dev x hon hy ht hc, ?_, ?_, rfl⟩
    · rw [runOf, eng_updEng_same, show (eng s e).run = some r from hr]
      exact congrArg some (takeStc_here hi)
    · rw [eng_updEng_same, hy]
      simp
  · refine ⟨_, gatherPass_only hon hk hi hg hm h1, ?_, ?_, ?_⟩
    · rw [gather_acceptWrite, gather_updGather]
    · exact memoryHolds_from (memoryHolds_acceptWrite g.addr g.data (updGather k (fun _ => []) (tick (tick s)))) rfl rfl
    · obtain ⟨m, p, e, h⟩ := acceptWrite_same g.addr g.data (updGather k (fun _ => []) (tick (tick s)))
      rw [h]
      rfl
  · refine ⟨updRun e (fun r => { r with cycles := r.cycles + 1 }) s, ?_, ?_, rfl⟩
    · change execShiftStall e s = _
      rw [execShiftStall, ho, holdCycle]
    · rw [updRun, eng_updEng_same, show (eng s e).run = some r from openWord_runOf ho]
      rfl

end Sys2Proof.Proofs

/-! PROOFS. What memory controllers find as they read, and the epochs of the routing tables (R422 to R428, R471, R639). -/

namespace Sys2Proof.Proofs

open Sys2Proof.Machine Sys2Proof.Laws

/-! ## Fields -/

section Fields

variable {s t u : State} {l m : List F}

theorem FieldsBut.trans' (h : FieldsBut s t l) (k : FieldsBut t u m) (hl : ∀ f ∈ l, f ∈ n) (hm : ∀ f ∈ m, f ∈ n) : FieldsBut s u n :=
  fun f i hi hf => (k f i hi fun h => hf (hm f h)).trans (h f i hi fun h => hf (hl f h))

end Fields

section Memory

variable {s : State}

/-- Class 0 has no effect past the report, and a channel concerns no VI. -/
theorem raise_channel_of_class0 {c : Nat} (hc : causeClass c = 0) (x : Chan) (n : Nat) (s : State) :
    raise (.channel x) c n s = report (.channel x) c n none none s := by
  simp [raise, unitVi, hc]

section Check

variable {a : Nat} (hr : running s = true) (hi : islandRuns s (.memory (kilnOfChan (chanNo (chanOf (fget s .interleave) (a / 32 * 32))))) = true)
  (hh : isHole s (a / 32 * 32) = false) (hp : poisoned s (a / 32 * 32) = false)

theorem memCheck_clean (a : Nat) (s : State) : memCheck a .clean s = s := by
  unfold memCheck
  dsimp only
  rw [ite_self]

include hr hi hh hp

/-- A controller that runs and a granule that is sound: the error is taken. -/
theorem memCheck_open : (!running s || !islandRuns s (.memory (kilnOfChan (chanNo (chanOf (fget s .interleave) (a / 32 * 32))))) ||
    isHole s (a / 32 * 32) || poisoned s (a / 32 * 32)) = false := by
  rw [hr, hi, hh, hp]
  rfl

/-- A corrected error is counted and reported (R422). -/
theorem memCheck_corrected : memCheck a .corrected s =
    report (.channel (chanNo (chanOf (fget s .interleave) (a / 32 * 32)))) 0x07 (a / 32 * 32) none none
      (fcount .eccCorrected 0 32 1 s) := by
  unfold memCheck
  dsimp only
  rw [memCheck_open hr hi hh hp, if_neg Bool.false_ne_true, raise_channel_of_class0 rfl]

end Check

/-- The granule is poisoned, and the error counted in its window (R424, R425). -/
def uePoisoned (c : Chan) (g : Nat) (s : State) : State :=
  { setPoison g true s with ueWindow := mupd 0 s.ueWindow c.val (· + 1) }

/-- The error's fields (R423). -/
def ueFields (g : Nat) (s : State) : State := fset .lastUe 0 g (fcount .eccUncorrected 0 32 1 s)

theorem ueFields_same (g : Nat) (s : State) : ueFields g s = { s with fld := (ueFields g s).fld } := rfl

theorem fget_uePoisoned (c : Chan) (g : Nat) (s : State) (f : F) (i : Nat) : fget (uePoisoned c g s) f i = fget s f i := rfl

/-- … and it is reported. -/
def ueTaken (c : Chan) (g : Nat) (s : State) : State :=
  report (.channel c) 0x08 g none none (uePoisoned c g (ueFields g s))

theorem ueTaken_same (c : Chan) (g : Nat) (s : State) : ∃ f h, ueTaken c g s = { s with
    flt := f, fld := h, poison := mset false s.poison (g / 32) true, ueWindow := mupd 0 s.ueWindow c.val (· + 1) } := by
  obtain ⟨f, h, hr⟩ := report_same (.channel c) 0x08 g none none (uePoisoned c g (ueFields g s))
  refine ⟨f, h, ?_⟩
  rw [ueTaken, hr, uePoisoned, ueFields_same, setPoison]

theorem fget_ueTaken (c : Chan) (g : Nat) (s : State) {f : F} {i : Nat} (hi : i < 2 ^ 20) (hf : f ≠ .missed) :
    fget (ueTaken c g s) f i = fget (ueFields g s) f i :=
  (report_fieldsBut _ _ _ _ _ (uePoisoned c g (ueFields g s)) f i hi (by simpa using hf)).trans (fget_uePoisoned ..)

theorem ueCount_sum (s : State) (k : Kiln) : ueCount s k = ((chansOf k).map fun c => mget 0 s.ueWindow c).sum := by
  unfold ueCount
  rw [← List.foldl_map (f := fun c => mget 0 s.ueWindow c) (g := fun a n => a + n), ← List.sum_eq_foldl]

/-- One count more adds 1 to a sum of counts at most. -/
theorem sum_bump (m : SMap Nat) (c : Nat) : ∀ (l : List Nat), l.Nodup →
    (l.map fun j => mget 0 (mupd 0 m c (· + 1)) j).sum ≤ (l.map fun j => mget 0 m j).sum + 1
  | [], _ => by simp
  | j :: l, h => by
    obtain ⟨hj, hl⟩ := List.nodup_cons.mp h
    have ih := sum_bump m c l hl
    rw [List.map_cons, List.map_cons, List.sum_cons, List.sum_cons]
    by_cases hc : c = j
    · subst hc
      have hrest : (l.map fun j => mget 0 (mupd 0 m c (· + 1)) j) = l.map fun j => mget 0 m j :=
        List.map_congr_left fun x hx => mget_mupd_other _ _ _ fun h => hj (h ▸ hx)
      rw [hrest, mget_mupd_same]
      omega
    · rw [mget_mupd_other _ _ _ hc]
      omega

/-- Counts that are set back are 0. -/
theorem mget_cleared (j : Nat) : ∀ (l : List Nat) (m : SMap Nat), j ∈ l ∨ mget 0 m j = 0 →
    mget 0 (l.foldl (fun m c => mset 0 m c 0) m) j = 0
  | [], m, h => h.resolve_left (List.not_mem_nil)
  | c :: l, m, h => by
    refine mget_cleared j l (mset 0 m c 0) ?_
    by_cases hc : c = j
    · exact .inr (by rw [hc]; simp)
    · rw [mget_mset_other _ _ _ hc]
      exact h.imp_left fun h => (List.mem_cons.mp h).resolve_left (Ne.symm hc)

theorem nodup_chansOf (k : Kiln) : (chansOf k).Nodup := by
  refine List.nodup_range.map fun i j h => ?_
  have h : 8 * k.val + i = 8 * k.val + j := h
  omega

theorem ueCount_ueTaken (c : Chan) (g : Nat) (s : State) (k : Kiln) : ueCount (ueTaken c g s) k ≤ ueCount s k + 1 := by
  obtain ⟨f, h, ht⟩ := ueTaken_same c g s
  rw [ueCount_sum, ueCount_sum, ht]
  exact sum_bump s.ueWindow c.val _ (nodup_chansOf k)

/-- An uncorrectable error below the count that fails the island (R423 to R425, R428). -/
theorem memCheck_uncorrectable {a : Nat} {c : Chan} (hc : c = chanNo (chanOf (fget s .interleave) (a / 32 * 32))) (hr : running s = true)
    (hi : islandRuns s (.memory (kilnOfChan c)) = true) (hh : isHole s (a / 32 * 32) = false)
    (hp : poisoned s (a / 32 * 32) = false) (hu : ueCount s (kilnOfChan c) < 63) :
    memCheck a .uncorrectable s = ueTaken c (a / 32 * 32) s := by
  have hle := ueCount_ueTaken c (a / 32 * 32) s (kilnOfChan c)
  have hn : ¬ 64 ≤ ueCount (ueTaken c (a / 32 * 32) s) (kilnOfChan c) := by omega
  subst hc
  unfold memCheck
  dsimp only
  rw [memCheck_open hr hi hh hp, if_neg Bool.false_ne_true, raise_channel_of_class0 rfl]
  exact if_neg hn

/-- What an uncorrectable error leaves. -/
theorem ueTaken_leaves (c : Chan) (a : Nat) (s : State) :
    let t := ueTaken c (a / 32 * 32) s
    poisoned t a = true ∧ fget t .lastUe = a / 32 * 32 ∧
      fget t .eccUncorrected = min (fget s .eccUncorrected + 1) (2 ^ 32 - 1) ∧
      FieldsBut s t [.eccUncorrected, .lastUe, .missed] ∧
      (∀ b, b / 32 ≠ a / 32 → poisoned t b = poisoned s b) ∧
      t = { s with fld := t.fld, flt := t.flt, poison := t.poison, ueWindow := t.ueWindow } := by
  obtain ⟨f, g, h⟩ := ueTaken_same c (a / 32 * 32) s
  have hpo (b : Nat) : poisoned (ueTaken c (a / 32 * 32) s) b = mget false (mset false s.poison (a / 32) true) (b / 32) := by
    rw [poisoned, h, Nat.mul_div_cancel _ (by decide)]
  have hue : FieldsBut s (fcount .eccUncorrected 0 32 1 s) [.eccUncorrected] := fset_fieldsBut (by decide) _ _ _
  have hlast : FieldsBut (fcount .eccUncorrected 0 32 1 s) (ueFields (a / 32 * 32) s) [.lastUe] :=
    fset_fieldsBut (by decide) _ _ _
  dsimp only
  refine ⟨?_, ?_, ?_, fun x i hi hx => ?_, fun b hb => ?_, ?_⟩
  · rw [hpo]
    simp
  · rw [fget_ueTaken c _ s (by decide) (by decide)]
    exact fget_fset_same ..
  · rw [fget_ueTaken c _ s (by decide) (by decide), hlast .eccUncorrected 0 (by decide) (by decide)]
    exact fget_fcount_same ..
  · simp only [List.mem_cons, List.not_mem_nil, or_false, not_or] at hx
    obtain ⟨hx1, hx2, hx3⟩ := hx
    rw [fget_ueTaken c _ s hi hx3, hlast x i hi (by simpa using hx2), hue x i hi (by simpa using hx1)]
  · rw [hpo, mget_mset_other _ _ _ (Ne.symm hb)]
    rfl
  · rw [h]

theorem kilnFenced_of_mem {k : Kiln} (h : FUnit.memory k ∈ s.fenced) : kilnFenced s k = true :=
  List.any_eq_true.mpr ⟨_, h, by simp⟩

end Memory

/-- Settles O36: the controller, the granule and what is found decide. -/
theorem memoryReadsComplete : Obligations.MemoryReadsComplete := by
  unfold Obligations.MemoryReadsComplete
  refine ⟨fun s a x => ⟨completes_continues rfl rfl, ⟨s, congrArg Host.Outcome.next (memCheck_clean _ s), rfl⟩,
      fun hr hi hh hp => ⟨?_, fun hu => ⟨_, congrArg Host.Outcome.next (memCheck_uncorrectable rfl hr hi hh hp hu),
        ueTaken_leaves _ _ s⟩⟩⟩,
    fun s c x => ⟨completes_continues rfl rfl, fun hr hk hi hs => ?_⟩,
    fun s k n => ⟨completes_continues rfl rfl, fun hr hk hn => ?_⟩, fun s k => ⟨_, rfl, ?_, rfl⟩⟩
  · have hrep := report_fieldsBut (.channel (chanNo (chanOf (fget s .interleave) (a.toNat / 32 * 32)))) 0x07
      (a.toNat / 32 * 32) none none (fcount .eccCorrected 0 32 1 s)
    obtain ⟨f, g, h⟩ := report_same (.channel (chanNo (chanOf (fget s .interleave) (a.toNat / 32 * 32)))) 0x07
      (a.toNat / 32 * 32) none none (fcount .eccCorrected 0 32 1 s)
    refine ⟨_, congrArg Host.Outcome.next (memCheck_corrected hr hi hh hp), ?_, fun x i hx hn => ?_, by rw [h]; rfl⟩
    · exact (hrep .eccCorrected 0 (by decide) (by decide)).trans (fget_fcount_same ..)
    · simp only [List.mem_cons, List.not_mem_nil, or_false, not_or] at hn
      refine (hrep x i hx (by simpa using hn.2)).trans ?_
      exact fset_fieldsBut (by decide) .eccCorrected _ s x i hx (by simpa using hn.1)
  · refine ⟨{ s with scrubAt := mset 0 s.scrubAt c.val ((mget 0 s.scrubAt c.val + 32) % chanBytes) }, ?_, ?_, rfl⟩
    · change execScrubRead c .clean s = _
      rw [execScrubRead, if_neg (by simp [hr, hi, hk, hs])]
      exact congrArg Host.Outcome.next (memCheck_clean _ _)
    · simp
  · refine ⟨raise (.memory k) 0x28 n.toNat s, ?_, kilnFenced_of_mem (mem_fenced_raise rfl rfl _ s)⟩
    change execMemFailed k n s = _
    rw [execMemFailed, if_pos (by simpa [hr] using hn), memFail, hk, if_neg Bool.false_ne_true]
  · rw [ueCount_sum]
    refine List.sum_eq_zero fun n hn => ?_
    obtain ⟨c, hc, rfl⟩ := List.mem_map.mp hn
    exact mget_cleared c _ _ (.inl hc)

/-- Settles O41: ARM and the grace decide. -/
theorem epochCommandsComplete : Obligations.EpochCommandsComplete := by
  unfold Obligations.EpochCommandsComplete
  refine ⟨fun s ho => ⟨fun hg => ?_, fun hg => ?_, fun ha b => ?_, fun ha => ?_, fun ha hg => ?_⟩, fun s v b hv => ?_, fun s => ⟨_, rfl, rfl⟩⟩
  · exact ⟨{ s with epochArm := true }, by simp [exec, execEpochArm, ho, armEpoch, hg], rfl⟩
  · exact ⟨s, by simp [exec, execEpochArm, ho, armEpoch, hg], rfl⟩
  · exact ⟨flipEpoch s, by simp [exec, execEpochFlip, ho, ha], rfl⟩
  · exact ⟨s, by simp [exec, execEpochFlip, ho, ha], rfl⟩
  · exact ⟨{ s with epochArm := true }, by simp [exec, execEpochFlip, ho, ha, armEpoch, hg], rfl⟩
  · have hc : epochOpen s v = false := by simp [epochOpen, hv]
    exact ⟨⟨s, by simp [exec, execEpochArm, hc], rfl⟩, ⟨s, by simp [exec, execEpochFlip, hc], rfl⟩⟩

end Sys2Proof.Proofs

/-! PROOFS. Fabric ports and hellos (R449, R461 to R463, R486). -/

namespace Sys2Proof.Proofs

open Sys2Proof.Machine Sys2Proof.Laws

section Ports

variable {s : State} {p : Port}

/-- The entries into DOWN or HELD from UP of the last 60 s, with one of now (R462). -/
def recentDowns (s : State) (p : Port) : List Nat :=
  ((getPort s p).downs.filter fun n => decide (s.nowNs < n + 60000000000)) ++ (if (getPort s p).st = .up then [s.nowNs] else [])

/-- The state that a loss gives a live port (R462, R486). -/
def lostState (s : State) (p : Port) : PState :=
  if (getPort s p).st = .up ∧ 8 ≤ (recentDowns s p).length then .held else .down

theorem rerouteAll_empty (h : s.waitq = []) : rerouteAll s = s := by
  rw [rerouteAll, h, List.foldl_nil, ← h]

theorem crossAborts_empty (h : (getPort s p).cross = []) :
    crossAborts p s = updPort p (fun x => { x with cross := [] }) s := by
  rw [crossAborts, h]
  rfl

/-- What a port that leaves its state keeps, none of its own frames waiting. -/
structure LeftTo (s t : State) (p : Port) (st : PState) : Prop where
  st_eq : (getPort t p).st = st
  kept : ∃ hold cross, getPort t p = { getPort s p with st := st, hold := hold, cross := cross }
  others : ∀ q, q ≠ p → getPort t q = getPort s q
  fields : FieldsBut s t [.discards]
  same : t = { s with ports := t.ports, fld := t.fld }

theorem fget_updPort (p : Port) (f : PortSt → PortSt) (s : State) (g : F) (i : Nat) : fget (updPort p f s) g i = fget s g i := rfl

theorem fcount_fieldsBut {i : Nat} (hi : i < 2 ^ 20) (f : F) (w n : Nat) (s : State) : FieldsBut s (fcount f i w n s) [f] :=
  fset_fieldsBut hi f _ s

theorem dropHold_fieldsBut (p : Port) (s : State) : FieldsBut s (dropHold p s) [.discards] := by
  intro g i hi hg
  rw [dropHold, fget_updPort]
  exact fcount_fieldsBut (i := p.val) (by omega) .discards 16 (getPort s p).hold.length s g i hi hg

theorem dropHold_waitq (p : Port) (s : State) : (dropHold p s).waitq = s.waitq := rfl

theorem dropHold_same (p : Port) (s : State) : ∃ a b, dropHold p s = { s with ports := a, fld := b } := ⟨_, _, rfl⟩

theorem getPort_fcount (f : F) (i w n : Nat) (s : State) (q : Port) : getPort (fcount f i w n s) q = getPort s q := rfl

theorem leaveUp_quiet (hw : s.waitq = []) (hc : (getPort s p).cross = []) (st : PState) : LeftTo s (leaveUp p st s) p st := by
  by_cases hu : (getPort s p).st = .up
  · have hl : leaveUp p st s = updPort p (fun x => { x with cross := [] })
        (dropHold p (updPort p (fun x => { x with st := st }) s)) := by
      rw [leaveUp, if_pos hu, rerouteAll_empty (by rw [dropHold_waitq]; exact hw), crossAborts_empty]
      rw [dropHold, getPort_updPort_same, getPort_fcount, getPort_updPort_same]
      exact hc
    have hp : getPort (leaveUp p st s) p = { getPort s p with st := st, hold := [], cross := [] } := by
      rw [hl, getPort_updPort_same, dropHold, getPort_updPort_same, getPort_fcount, getPort_updPort_same]
    refine ⟨by rw [hp], ⟨[], [], hp⟩, fun q hq => ?_, fun g i hi hg => ?_, ?_⟩
    · rw [hl, getPort_updPort_other _ _ hq.symm, dropHold, getPort_updPort_other _ _ hq.symm, getPort_fcount,
        getPort_updPort_other _ _ hq.symm]
    · rw [hl, fget_updPort]
      exact (dropHold_fieldsBut _ _ g i hi hg).trans (fget_updPort ..)
    · obtain ⟨a, b, hd⟩ := dropHold_same p (updPort p (fun x => { x with st := st }) s)
      rw [hl, hd]
      rfl
  · rw [leaveUp, if_neg hu]
    have hp : getPort (updPort p (fun x => { x with st := st }) s) p = { getPort s p with st := st } := getPort_updPort_same ..
    refine ⟨by rw [hp], ⟨_, _, hp⟩, fun q hq => getPort_updPort_other _ _ hq.symm, fun _ _ _ _ => ?_, ?_⟩
    · rw [fget_updPort]
    · apply Eq.refl

theorem report_ports (u : FUnit) (c n : Nat) (v q : Option Nat) (s : State) : (report u c n v q s).ports = s.ports := by
  obtain ⟨f, g, h⟩ := report_same u c n v q s
  rw [h]

/-- What a loss makes of a live port, none of its own frames waiting (R462, R486). -/
structure Lost (s t : State) (p : Port) (cause : Nat) : Prop where
  st_eq : (getPort t p).st = lostState s p
  cause_eq : (getPort t p).cause = cause
  heard : (getPort t p).heard = false
  linkUp : (getPort t p).linkUp = (getPort s p).linkUp
  downs : (getPort t p).downs = recentDowns s p
  others : ∀ q, q ≠ p → getPort t q = getPort s q
  fields : FieldsBut s t [.discards, .missed]
  same : t = { s with ports := t.ports, fld := t.fld, flt := t.flt }

/-- The port as a loss is noted, before it leaves its state. -/
def noted (s : State) (p : Port) (cause : Nat) : State :=
  updPort p (fun x => { x with cause := cause, downs := recentDowns s p, heard := false }) s

theorem portDown_eq (p : Port) (cause : Nat) (s : State) : portDown p cause s = leaveUp p (lostState s p) (noted s p cause) := by
  unfold portDown lostState noted recentDowns
  by_cases hu : (getPort s p).st = .up <;> simp [hu]

theorem losePort_quiet (hl : (getPort s p).st.live = true) (hw : s.waitq = []) (hc : (getPort s p).cross = []) (cause : Nat) :
    Lost s (losePort p cause s) p cause := by
  have hn : getPort (noted s p cause) p = { getPort s p with cause := cause, downs := recentDowns s p, heard := false } :=
    getPort_updPort_same ..
  have hleft : LeftTo (noted s p cause) (portDown p cause s) p (lostState s p) := by
    rw [portDown_eq]
    exact leaveUp_quiet (s := noted s p cause) hw (by rw [hn]; exact hc) _
  rw [losePort, if_pos hl, raise_fport_of_class0 rfl]
  have hrep := report_fieldsBut (.fport p) 0x0B (cause - 1) none none (portDown p cause s)
  have hports := report_ports (.fport p) 0x0B (cause - 1) none none (portDown p cause s)
  obtain ⟨f, g, hsame⟩ := report_same (.fport p) 0x0B (cause - 1) none none (portDown p cause s)
  generalize report (.fport p) 0x0B (cause - 1) none none (portDown p cause s) = u at hrep hports hsame ⊢
  have hget (q : Port) : getPort u q = getPort (portDown p cause s) q := by rw [getPort, hports, getPort]
  obtain ⟨hst, ⟨h, c, hk⟩, ho, hf, hs⟩ := hleft
  rw [hn] at hk
  refine ⟨?_, ?_, ?_, ?_, ?_, fun q hq => ?_, fun x i hi hx => ?_, ?_⟩
  · rw [hget, hst]
  · rw [hget, hk]
  · rw [hget, hk]
  · rw [hget, hk]
  · rw [hget, hk]
  · rw [hget, ho q hq]
    exact getPort_updPort_other _ _ hq.symm
  · simp only [List.mem_cons, List.not_mem_nil, or_false, not_or] at hx
    rw [hrep x i hi (by simpa using hx.2), hf x i hi (by simpa using hx.1)]
    rfl
  · rw [hsame, hs]
    rfl

/-- The link of a port goes. -/
def unlinked (s : State) (p : Port) : State := updPort p (fun x => { x with linkUp := false, speed := 0 }) s

theorem getPort_unlinked (s : State) (p : Port) : getPort (unlinked s p) p = { getPort s p with linkUp := false, speed := 0 } :=
  getPort_updPort_same ..

theorem recentDowns_unlinked (s : State) (p : Port) : recentDowns (unlinked s p) p = recentDowns s p := by
  rw [recentDowns, getPort_unlinked]
  rfl

theorem lostState_unlinked (s : State) (p : Port) : lostState (unlinked s p) p = lostState s p := by
  rw [lostState, recentDowns_unlinked, getPort_unlinked]
  rfl

/-- A hello in time, as it is recorded. -/
def heardOf (s : State) (p : Port) (h : Hello) : State :=
  updPort p (fun x => { x with nbr := some h, heard := true, heardAt := s.nowNs }) s

theorem getPort_heardOf (s : State) (p : Port) (h : Hello) :
    getPort (heardOf s p h) p = { getPort s p with nbr := some h, heard := true, heardAt := s.nowNs } := getPort_updPort_same ..

theorem helloRx_inTime {h : Hello} (ho : helloOn s p = true) (hl : helloLate s p = false) :
    execHelloRx p h s = .next (setHello p (helloState s p h) (heardOf s p h)) := by
  rw [execHelloRx, if_pos ho, hl, if_neg Bool.false_ne_true, takeHello, heardOf]

/-- A port enters UP with its link's counters fresh, no frame waiting (R454, R463). -/
theorem setHello_up (h : (getPort s p).st ≠ .up) (hw : s.waitq = []) :
    setHello p .up s = updPort p (fun x => { freshLink x with st := .up }) s := by
  rw [setHello, if_neg h, if_pos rfl, enterUp, rerouteAll_empty (by exact hw)]
  rfl

end Ports

/-- Settles O37: the port's state and the hello decide. -/
theorem portCommandsComplete : Obligations.PortCommandsComplete := by
  unfold Obligations.PortCommandsComplete
  intro s p hon x recent lost
  refine ⟨fun v he hl hh hs => ?_, fun hl => ⟨completes_continues rfl rfl, fun hlive hw hc => ?_⟩, fun hl => ?_,
    fun hl hlive hw hc => ?_, fun hh => ⟨?_, fun h => ⟨completes_continues rfl rfl, fun hl hst => ?_, fun hl hst hn hw => ?_⟩⟩,
    fun hr hl hst hh => ?_⟩
  · refine ⟨updPort p (fun x => { x with
        linkUp := true, speed := v.toNat, upAt := s.nowNs, heard := false
        st := if roleOf s p = 1 then .ingest else .init })
      { s with refSeen := if s.refSeen.contains (flueOf p) then s.refSeen else s.refSeen ++ [flueOf p] }, ?_,
      getPort_updPort_same .., fun q hq => getPort_updPort_other _ _ hq.symm, ?_, rfl⟩
    · change execPortLinkUp p v s = _
      unfold execPortLinkUp
      dsimp only
      rw [if_neg (by simp [hon, he, hs, x] at hl hh ⊢; exact ⟨hl, hh⟩)]
    · change flueOf p ∈ if s.refSeen.contains (flueOf p) then s.refSeen else s.refSeen ++ [flueOf p]
      split
      · next h => exact List.contains_iff_mem.mp h
      · simp
  · have hu := getPort_unlinked s p
    obtain ⟨h1, h2, -, h3, h4, h5, h6, h7⟩ := losePort_quiet (s := unlinked s p) (p := p) (by rw [hu]; exact hlive) hw
      (by rw [hu]; exact hc) 1
    rw [lostState_unlinked] at h1
    rw [hu] at h3
    rw [recentDowns_unlinked] at h4
    refine ⟨losePort p 1 (unlinked s p), ?_, h1, h2, h3, h4, fun q hq => (h5 q hq).trans (getPort_updPort_other _ _ hq.symm),
      fun f i hi hf => (h6 f i hi hf).trans (fget_updPort ..), h7⟩
    change execPortLinkLoss p s = _
    rw [execPortLinkLoss, if_neg (by simp [hon]; exact hl), unlinked]
  · refine ⟨s, ?_, rfl⟩
    change execHelloLoss p s = _
    rw [execHelloLoss, if_neg (by simp [hl])]
  · obtain ⟨h1, h2, h3, -, h4, h5, h6, h7⟩ := losePort_quiet hlive hw hc 2
    refine ⟨losePort p 2 s, ?_, h1, h2, h3, h5, h6, h7⟩
    change execHelloLoss p s = _
    rw [execHelloLoss, if_pos (by simp [hon, hl])]
  · refine ⟨emit (.helloFrame p (helloOf s p)) s, ?_, rfl⟩
    change execHelloTx p s = _
    rw [execHelloTx, if_pos hh]
  · refine ⟨heardOf s p h, (helloRx_inTime hh hl).trans ?_, getPort_heardOf .., fun q hq => getPort_updPort_other _ _ hq.symm, rfl⟩
    rw [setHello, getPort_heardOf, if_pos hst.symm]
  · have hx : (getPort (heardOf s p h) p).st ≠ .up := by
      rw [getPort_heardOf]
      exact hn
    have hnew : getPort (updPort p (fun x => { freshLink x with st := .up }) (heardOf s p h)) p =
        { freshLink { getPort s p with nbr := some h, heard := true, heardAt := s.nowNs } with st := .up } := by
      rw [getPort_updPort_same, getPort_heardOf]
    refine ⟨updPort p (fun x => { freshLink x with st := .up }) (heardOf s p h), (helloRx_inTime hh hl).trans ?_, ?_, ?_, ?_, ?_, ?_,
      fun q hq => (getPort_updPort_other _ _ hq.symm).trans (getPort_updPort_other _ _ hq.symm), rfl⟩
    · rw [hst, setHello_up hx hw]
    all_goals rw [hnew, freshLink]
  · refine ⟨updPort p (fun x => { x with st := .ingest }) s, ?_, getPort_updPort_same ..,
      fun q hq => getPort_updPort_other _ _ hq.symm, rfl⟩
    change execIngestFallback p s = _
    unfold execIngestFallback
    dsimp only
    rw [if_pos (by simp [hon, hr, x] at hl hst hh ⊢; exact ⟨⟨hl, hst⟩, hh⟩)]

end Sys2Proof.Proofs

/-! PROOFS. Delivery over one hop and the routing of a source unit's frames (R447, R453 to R458, R464, R467). -/

namespace Sys2Proof.Proofs

open Sys2Proof.Machine Sys2Proof.Laws

section Hop

variable {s : State} {p : Port}

/-- Entries 0 to n − 1 of a map, each rewritten once. -/
theorem mget_foldl_range (h : Nat → Nat → Nat) (m : SMap Nat) (n k : Nat) :
    mget 0 ((List.range n).foldl (fun m v => mset 0 m v (h v (mget 0 m v))) m) k =
      if k < n then h k (mget 0 m k) else mget 0 m k := by
  induction n generalizing k with
  | zero => simp
  | succ n ih =>
    rw [List.range_succ, List.foldl_append, List.foldl_cons, List.foldl_nil]
    by_cases hk : n = k
    · subst hk
      rw [if_pos (by omega), ih n, if_neg (by omega)]
      simp
    · rw [mget_mset_other _ _ _ hk, ih]
      by_cases hlt : k < n
      · rw [if_pos hlt, if_pos (by omega)]
      · rw [if_neg hlt, if_neg (by omega)]

/-- The credits that a LINK frame returns (R454, R455). -/
def creditsOf (x : PortSt) : List Nat := (List.range 8).map fun v => (mget 0 x.sent v + mget 0 x.owed v) % 4096

theorem getD_creditsOf (x : PortSt) {v : Nat} (h : v < 8) : (creditsOf x).getD v 0 = (mget 0 x.sent v + mget 0 x.owed v) % 4096 := by
  simp [creditsOf, h]

/-- The port whose credits have been returned. -/
def credited (x : PortSt) : PortSt :=
  { x with
    sent := (List.range 8).foldl (fun m v => mset 0 m v ((mget 0 m v + mget 0 x.owed v) % 4096)) x.sent, owed := [] }

theorem mget_credited (x : PortSt) {v : Nat} (h : v < 8) : mget 0 (credited x).sent v = (creditsOf x).getD v 0 := by
  rw [getD_creditsOf x h]
  exact (mget_foldl_range (fun v n => (n + mget 0 x.owed v) % 4096) x.sent 8 v).trans (if_pos h)

theorem sendLink_eq (p : Port) (s : State) : sendLink p s =
    emit (.linkFrame p (creditsOf (getPort s p)) (getPort s p).rxSeq (getPort s p).waitSeq) (updPort p credited s) := rfl

theorem getPort_emit (x : Emit) (s : State) (q : Port) : getPort (emit x s) q = getPort s q := rfl

theorem getPort_sendLink_same (p : Port) (s : State) : getPort (sendLink p s) p = credited (getPort s p) := by
  rw [sendLink_eq, getPort_emit, getPort_updPort_same]

theorem getPort_sendLink_other {q : Port} (h : q ≠ p) : getPort (sendLink p s) q = getPort s q := by
  rw [sendLink_eq, getPort_emit, getPort_updPort_other _ _ h.symm]

theorem sendLink_out (p : Port) (s : State) : (sendLink p s).out =
    s.out ++ [.linkFrame p (creditsOf (getPort s p)) (getPort s p).rxSeq (getPort s p).waitSeq] := rfl

theorem sendLink_same (p : Port) (s : State) : ∃ a b, sendLink p s = { s with ports := a, out := b } := ⟨_, _, rfl⟩

/-- No channel of any port has 16 credits to return. -/
def FewOwed (s : State) : Prop := ∀ q v, v < 8 → mget 0 (getPort s q).owed v < 16

theorem linkDue_few (h : FewOwed s) : linkDue s = s := by
  unfold linkDue
  have hq (q : Port) : ((List.range 8).any fun v => decide (mget 0 (getPort s q).owed v ≥ 16)) = false :=
    List.any_eq_false.mpr fun v hv => by
      have := h q v (List.mem_range.mp hv)
      simpa using this
  induction allPorts with
  | nil => rfl
  | cons q l ih => rw [List.foldl_cons, hq, Bool.and_false, if_neg Bool.false_ne_true, ih]

/-- A change of a port that leaves what it owes. -/
theorem fewOwed_updPort (h : FewOwed s) {f : PortSt → PortSt} (hf : ∀ x, (f x).owed = x.owed) : FewOwed (updPort p f s) := by
  intro q v hv
  by_cases hq : p = q
  · subst hq
    rw [getPort_updPort_same, hf]
    exact h p v hv
  · rw [getPort_updPort_other _ _ hq]
    exact h q v hv

theorem drainPort_empty (h : s.waitq = []) (p : Port) : drainPort p s = s := by
  rw [drainPort, h]
  rfl

theorem emits_out (f : Frame × Nat → Emit) (l : List (Frame × Nat)) (s : State) :
    l.foldl (fun s q => emit (f q) s) s = { s with out := s.out ++ l.map f } := by
  induction l generalizing s with
  | nil => simp
  | cons q l ih => rw [List.foldl_cons, ih, List.map_cons]; simp [emit]

theorem counted_fcount {i : Nat} (hi : i < 2 ^ 20) (f : F) (w n : Nat) (s : State) : Counted s (fcount f i w n s) f i w n :=
  ⟨fget_fcount_same .., fun _ _ hj h => fget_fset_other _ hi hj (h.imp Ne.symm Ne.symm)⟩

theorem linkOn_portOn (h : linkOn s p = true) : portOn s p = true ∧ (getPort s p).st = .up := by
  unfold linkOn at h
  simp only [Bool.and_eq_true, beq_iff_eq] at h
  exact ⟨h.1.1, h.2⟩

/-- The port with the credits and the acknowledgement of a LINK frame. -/
def acked (l : List (BitVec 12)) (n : BitVec 12) (x : PortSt) : PortSt :=
  { x with
    back := (List.range 8).foldl (fun m v => mset 0 m v (l.getD v 0).toNat) x.back
    hold := coverHold n.toNat x.hold }

theorem mget_acked (l : List (BitVec 12)) (n : BitVec 12) (x : PortSt) {v : Nat} (h : v < 8) :
    mget 0 (acked l n x).back v = (l.getD v 0).toNat :=
  (mget_foldl_range (fun v _ => (l.getD v 0).toNat) x.back 8 v).trans (if_pos h)

/-- A LINK frame without NAK, nothing waiting and few credits owed. -/
theorem execLinkRx_quiet {l : List (BitVec 12)} (hon : linkOn s p = true) (hl : l.length = 8) (hw : s.waitq = [])
    (ho : FewOwed s) (n : BitVec 12) : execLinkRx p l n false s = .next (updPort p (acked l n) s) := by
  have hfew : FewOwed (updPort p (acked l n) s) := fewOwed_updPort ho fun _ => rfl
  have hdue : linkDue (drainPort p (updPort p (acked l n) s)) = updPort p (acked l n) s := by
    rw [drainPort_empty (s := updPort p (acked l n) s) hw, linkDue_few hfew]
  unfold execLinkRx
  rw [if_neg (by simp [Instr.wf, hl]), if_neg (by simp [hon])]
  exact congrArg Host.Outcome.next hdue

/-- The port whose held frames have all been sent again (R457). -/
def resent (x : PortSt) : PortSt := { x with hold := x.hold.map fun q => (q.1, q.2 + 1) }

theorem replay_eq (hh : (getPort s p).hold ≠ []) (h8 : ∀ q ∈ (getPort s p).hold, q.2 < 8) : replay p s =
    fcount .replays p.val 16 (getPort s p).hold.length (updPort p resent
      { s with out := s.out ++ (getPort s p).hold.map fun q => Emit.frame p q.1 }) := by
  have hany : ((getPort s p).hold.any fun q => decide (q.2 ≥ 8)) = false :=
    List.any_eq_false.mpr fun q hq => by simpa using h8 q hq
  unfold replay
  dsimp only
  rw [if_neg (by simpa using hh), hany, if_neg Bool.false_ne_true, emits_out fun q => Emit.frame p q.1]
  rfl

theorem creditsOf_waitSeq (x : PortSt) (b : Bool) : creditsOf { x with waitSeq := b } = creditsOf x := rfl

/-- A frame in error asks for a replay (R456). -/
theorem rxError_leaves (p : Port) (s : State) :
    getPort (rxError p s) p = credited { getPort s p with waitSeq := true } ∧
      (rxError p s).out = s.out ++ [.linkFrame p (creditsOf (getPort s p)) (getPort s p).rxSeq true] ∧
      ∃ a b, rxError p s = { s with ports := a, out := b } := by
  refine ⟨?_, ?_, sendLink_same p (updPort p (fun x => { x with waitSeq := true }) s)⟩
  · rw [rxError, getPort_sendLink_same, getPort_updPort_same]
  · rw [rxError, sendLink_out, getPort_updPort_same, creditsOf_waitSeq, updPort_out]

section Frame

variable {f : Frame} {c : Fcs} (hon : linkOn s p = true) (hf : f.ok = true) (hk : 2 ≤ f.kind.toNat)

include hon hf hk

/-- A frame on a link that is up comes to its checks. -/
theorem execSeqFrameRx_up : execSeqFrameRx p f c s = .next (
    if badFrame f then rxError p (fcount .discards p.val 16 1 s)
    else if c = .bad || f.lseq.toNat ≠ ((getPort s p).rxSeq + 1) % 4096 then rxError p s
    else if c = .stomped then linkDue (oweCredits (some p) f.vc.toNat f (rxAccept p s))
    else rxAccept p s) := by
  obtain ⟨hp, hst⟩ := linkOn_portOn hon
  have hkk : (!linkOn s p || decide (f.kind.toNat < 2)) = false := by
    simp [hon]
    omega
  unfold execSeqFrameRx
  rw [if_neg (by simp [Instr.wf, hf]), if_neg (by simp [hp]), if_neg (by simp [hst]), hkk, if_neg Bool.false_ne_true]

end Frame

end Hop

/-- Settles O38: the port, the frame's sequence number and its check decide. -/
theorem hopCommandsComplete : Obligations.HopCommandsComplete := by
  unfold Obligations.HopCommandsComplete
  refine ⟨fun s p hon => ⟨?_, fun l n k hl => completes_continues (beq_iff_eq.mpr hl) rfl, fun l n hl hw ho => ?_, fun l n k hl => ?_,
      completes_continues rfl rfl, fun hh h8 => ?_, fun f c hf hk => ⟨fun hb hs => ?_, fun hb hs => ?_, fun hb => ?_⟩⟩,
    fun s p f c q hf => ⟨?_, ?_, ?_⟩⟩
  · refine ⟨sendLink p s, ?_, sendLink_out p s, by rw [getPort_sendLink_same]; rfl, fun v hv => ?_,
      fun q hq => getPort_sendLink_other hq, ?_⟩
    · change execLinkTx p s = _
      rw [execLinkTx, if_pos hon]
    · rw [getPort_sendLink_same]
      exact mget_credited _ hv
    · rfl
  · refine ⟨updPort p (acked l n) s, execLinkRx_quiet hon hl hw ho n, fun v hv => ?_, ?_,
      fun q hq => getPort_updPort_other _ _ hq.symm, rfl⟩
    · rw [getPort_updPort_same]
      exact mget_acked l n _ hv
    · rw [getPort_updPort_same]
      rfl
  · change execLinkRx p l n k s = _
    rw [execLinkRx, if_pos (by simpa [Instr.wf] using hl)]
  · have hr := replay_eq hh h8
    refine ⟨replay p s, ?_, by rw [hr]; rfl, ?_, ?_, by rw [hr]; rfl⟩
    · change execReplayTimeout p s = _
      rw [execReplayTimeout, if_pos hon]
    · rw [hr, getPort_fcount, getPort_updPort_same]
      rfl
    · rw [hr]
      exact counted_fcount (by omega) .replays 16 _ (updPort p resent
        { s with out := s.out ++ (getPort s p).hold.map fun q => Emit.frame p q.1 })
  · refine ⟨rxAccept p s, ?_, getPort_updPort_same .., fun q hq => getPort_updPort_other _ _ hq.symm, rfl⟩
    refine (execSeqFrameRx_up hon hf hk : execSeqFrameRx p f .good s = _).trans ?_
    rw [hb, if_neg Bool.false_ne_true, if_neg (by simpa using hs), if_neg (by decide)]
  · obtain ⟨hp, hout, a, b, hsame⟩ := rxError_leaves p s
    refine ⟨rxError p s, ?_, by rw [hp]; rfl, by rw [hp]; rfl, hout, by rw [hsame]⟩
    refine (execSeqFrameRx_up hon hf hk : execSeqFrameRx p f c s = _).trans ?_
    rw [hb, if_neg Bool.false_ne_true, if_pos (by simpa using hs)]
  · obtain ⟨hp, hout, a, b, hsame⟩ := rxError_leaves p (fcount .discards p.val 16 1 s)
    have hc := counted_fcount (i := p.val) (by omega) .discards 16 1 s
    refine ⟨rxError p (fcount .discards p.val 16 1 s), ?_, by rw [hp]; rfl, ?_, by rw [hsame]; rfl⟩
    · refine (execSeqFrameRx_up hon hf hk : execSeqFrameRx p f c s = _).trans ?_
      rw [hb, if_pos rfl]
    · rw [hsame]
      exact hc
  · change execSeqFrameRx p f c s = _
    rw [execSeqFrameRx, if_pos (by simp [Instr.wf, hf])]
  · change execRouteFrame f q s = _
    unfold execRouteFrame
    rw [if_pos (by simp [Instr.wf, hf])]
  · change execWriteRx f s = _
    rw [execWriteRx, if_pos (by simp [Instr.wf, hf])]

end Sys2Proof.Proofs

/-! PROOFS. The routing of a source unit's frames, and frames that a port does not carry (R447, R464, R467). -/

namespace Sys2Proof.Proofs

open Sys2Proof.Machine Sys2Proof.Laws

section Routing

variable {s : State} {p : Port} {f g : Frame}

/-- A frame as it leaves on a port (R454, R464). -/
def leaving (s : State) (p : Port) (g : Frame) : Frame :=
  { g with hops := g.hops - 1, lseq := BitVec.ofNat 12 (getPort s p).txSeq }

/-- The port that has sent a frame: its sequence number, its replay buffer and its credits. -/
def sentOn (g : Frame) (x : PortSt) : PortSt :=
  { x with
    txSeq := (x.txSeq + 1) % 4096, hold := x.hold ++ [(g, 1)],
    spent := mupd 0 x.spent g.vc.toNat (fun c => (c + frameCredits g) % 4096) }

theorem sendOn_eq (p : Port) (g : Frame) (s : State) : sendOn p g s =
    recCross p (leaving s p g) (emit (.frame p (leaving s p g)) (updPort p (sentOn (leaving s p g)) s)) := rfl

/-- A collective's frame is recorded at the port, and nothing else changes. -/
theorem recCross_leaves (p : Port) (g : Frame) (s : State) : (∃ c, getPort (recCross p g s) p = { getPort s p with cross := c }) ∧
    (∀ q, q ≠ p → getPort (recCross p g s) q = getPort s q) ∧ ∃ a, recCross p g s = { s with ports := a } := by
  unfold recCross
  split
  · exact ⟨⟨_, getPort_updPort_same ..⟩, fun q hq => getPort_updPort_other _ _ hq.symm, _, rfl⟩
  · exact ⟨⟨_, rfl⟩, fun _ _ => rfl, _, rfl⟩

/-- What a frame that is sent leaves. -/
theorem sendOn_leaves (p : Port) (g : Frame) (s : State) :
    (∃ c, getPort (sendOn p g s) p = { sentOn (leaving s p g) (getPort s p) with cross := c }) ∧
      (∀ q, q ≠ p → getPort (sendOn p g s) q = getPort s q) ∧
      (sendOn p g s).out = s.out ++ [.frame p (leaving s p g)] ∧
      ∃ a b, sendOn p g s = { s with ports := a, out := b } := by
  obtain ⟨⟨c, hc⟩, ho, a, hs⟩ := recCross_leaves p (leaving s p g)
    (emit (.frame p (leaving s p g)) (updPort p (sentOn (leaving s p g)) s))
  rw [← sendOn_eq] at hc ho hs
  refine ⟨⟨c, ?_⟩, fun q hq => ?_, ?_, a, s.out ++ [.frame p (leaving s p g)], ?_⟩
  · rw [hc, getPort_emit, getPort_updPort_same]
  · rw [ho q hq, getPort_emit, getPort_updPort_other _ _ hq.symm]
  · rw [hs]
    rfl
  · rw [hs]
    rfl

/-- Nothing of what a port owes changes as a frame is sent. -/
theorem fewOwed_sendOn (h : FewOwed s) (p : Port) (g : Frame) : FewOwed (sendOn p g s) := by
  obtain ⟨⟨c, hc⟩, ho, -⟩ := sendOn_leaves p g s
  intro q v hv
  by_cases hq : q = p
  · subst hq
    rw [hc]
    exact h q v hv
  · rw [ho q hq]
    exact h q v hv

/-- A source unit's frame of the current epoch goes where its route says (R464, R467). -/
theorem sendFrame_current (hn : nodeOk s = true) (he : f.epoch = s.epochCur) : sendFrame f s =
    match decideRoute s f none with
    | .send p g => sendOn p g s
    | .deliver => s
    | .drop unreach => fcount (if unreach then .unreach else .discards) 0 16 1 s
    | .hold => { s with waitq := s.waitq ++ [(f, none)] } := by
  have hb : (frameBank s f).2 = false := by rw [frameBank, if_pos he]
  have hst : ¬ (f.dst.toNat ≠ ownNode s ∧ (frameBank s f).2 = true) := by simp [hb]
  unfold sendFrame routeIn
  rw [if_neg (by simp [hn])]
  dsimp only
  rw [if_neg (by simpa using hst), if_neg (by simpa using hst)]
  rfl

theorem routeFrame_source (hf : f.ok = true) (hr : running s = true) (hn : nodeOk s = true) (hb : badFrame f = false)
    (hk : 2 ≤ f.kind.toNat) (ha : anyFlue s = true) : execRouteFrame f none s = .next (linkDue (sendFrame f s)) := by
  have hc : (!running s || !nodeOk s || badFrame f || decide (f.kind.toNat < 2)) = false := by
    simp [hr, hn, hb]
    omega
  unfold execRouteFrame
  rw [if_neg (by simp [Instr.wf, hf]), hc, if_neg Bool.false_ne_true]
  dsimp only
  rw [if_pos ha]

/-- A frame that the port does not carry is counted (R447, R461). -/
theorem otherFrame_counted {k : OtherFrame} (hon : portOn s p = true) (hl : (getPort s p).linkUp = true)
    (hk : (match k with
      | .unknownType => true | .roceOnFabric => roleOf s p == 0 | .vfpOnIngest => roleOf s p == 1
      | .pause => false | .cnp => false) = true) :
    Completes (.otherFrameRx p k) s fun t => Counted s t .discards p.val 16 1 ∧ t = { s with fld := t.fld } := by
  refine ⟨fcount .discards p.val 16 1 s, ?_, counted_fcount (by omega) .discards 16 1 s, rfl⟩
  change execOtherFrameRx p k s = _
  cases k <;> simp_all [execOtherFrameRx]

theorem otherFrame_ignored {k : OtherFrame} (hk : k = .pause ∨ k = .cnp) :
    Completes (.otherFrameRx p k) s fun t => t = s := by
  refine ⟨s, ?_, rfl⟩
  change execOtherFrameRx p k s = _
  rcases hk with rfl | rfl <;> simp [execOtherFrameRx]

end Routing

/-- Settles O39: the route decides. -/
theorem routingCommandsComplete : Obligations.RoutingCommandsComplete := by
  unfold Obligations.RoutingCommandsComplete
  refine ⟨fun s f q hf => completes_continues hf rfl, fun s f hf hr hn hb hk ha he ho => ?_, fun s p hon hl =>
    ⟨otherFrame_ignored (.inl rfl), otherFrame_ignored (.inr rfl), otherFrame_counted hon hl rfl,
      fun h => otherFrame_counted hon hl (beq_iff_eq.mpr h), fun h => otherFrame_counted hon hl (beq_iff_eq.mpr h)⟩⟩
  have hroute := routeFrame_source hf hr hn hb hk ha
  rw [sendFrame_current hn he] at hroute
  refine ⟨fun p g hd => ?_, fun hd => ?_, fun hd => ?_, fun hd => ?_⟩ <;> rw [hd] at hroute <;> dsimp only at hroute
  · obtain ⟨⟨c, hc⟩, hother, hout, a, b, hs⟩ := sendOn_leaves p g s
    rw [linkDue_few (fewOwed_sendOn ho p g)] at hroute
    refine ⟨sendOn p g s, hroute, hout, by rw [hc]; rfl, by rw [hc]; rfl, hother, by rw [hs]⟩
  · rw [linkDue_few (s := { s with waitq := s.waitq ++ [(f, none)] }) ho] at hroute
    exact ⟨_, hroute, rfl⟩
  · rw [linkDue_few ho] at hroute
    exact ⟨s, hroute, rfl⟩
  · rw [if_pos rfl, linkDue_few (s := fcount .unreach 0 16 1 s) ho] at hroute
    exact ⟨_, hroute, counted_fcount (by decide) .unreach 16 1 s, rfl⟩

end Sys2Proof.Proofs

/-! PROOFS. Remote writes and their acknowledgements (R479 to R484). -/

namespace Sys2Proof.Proofs

open Sys2Proof.Machine Sys2Proof.Laws

section Writes

variable {s : State} {f : Frame}

theorem oweCredits_ackq (q : Option Port) (v : Nat) (f : Frame) (s : State) : (oweCredits q v f s).ackq = s.ackq := by
  unfold oweCredits
  split <;> rfl

theorem sendOn_ackq (p : Port) (g : Frame) (s : State) : (sendOn p g s).ackq = s.ackq := by
  obtain ⟨-, -, -, a, b, h⟩ := sendOn_leaves p g s
  rw [h]

theorem fcount_ackq (f : F) (i w n : Nat) (s : State) : (fcount f i w n s).ackq = s.ackq := rfl

/-- A routed frame leaves the ACKs that wait. -/
theorem routeIn_ackq (f : Frame) (q : Option Port) (s : State) : (routeIn f q s).ackq = s.ackq := by
  have hstale (c : Bool) (g : F) (i w n : Nat) : (if c = true then fcount g i w n s else s).ackq = s.ackq := by
    split
    · exact fcount_ackq ..
    · rfl
  unfold routeIn
  split
  · rfl
  · dsimp only
    split
    · rw [oweCredits_ackq, sendOn_ackq, hstale]
    · rw [oweCredits_ackq, hstale]
    · rw [oweCredits_ackq, fcount_ackq, hstale]
    · rw [hstale]

/-- A WRITE for this device whose memory can be reached is answered (R482). -/
theorem writeRx_open (hf : f.ok = true) (hm : forMe s f = true) (hb : badFrame f = false) (hk : f.kind = 2)
    (hq : s.ackq.length < 4096) (ho : landOpen s f = true) {code : Nat}
    (hc : windowCode s (fWindow f) f.src.toNat (fRkey f) (fOff f) f.payload.length = code) {t : State}
    (ht : (if code = 0 then acceptWrite (winAddr s (fwinOf s (fWindow f)) (fOff f)) f.payload s else s) = t) :
    execWriteRx f s = .next
      { t with ackq := t.ackq ++ [ackFrame s f.src.toNat (fWindow f) (fCtx f) (fOff f) code f.payload.length] } := by
  have hk' : f.kind.toNat = 2 := by rw [hk]; rfl
  unfold execWriteRx
  rw [if_neg (by simp [Instr.wf, hf]), if_neg (by simp [hm, hb, hk', ho]; omega), writeWindow, hc, ht]

/-- Of two conditions the weaker one finds the entry, and the stronger one holds of it. -/
theorem find?_of_stronger {α : Type} {q r : α → Bool} {l : List α} {p : α} (h : l.find? q = some p) (hqr : ∀ x, r x = true → q x = true)
    (hp : r p = true) : l.find? r = some p := by
  obtain ⟨-, a, b, rfl, ha⟩ := List.find?_eq_some_iff_append.mp h
  refine List.find?_eq_some_iff_append.mpr ⟨hp, a, b, rfl, fun x hx => ?_⟩
  have := ha x hx
  cases hr : r x with
  | false => rfl
  | true => simp [hqr x hr] at this

theorem getCtx_updCtx_same (c : Nat) (g : Ctx → Ctx) (s : State) : getCtx (updCtx c g s) c = g (getCtx s c) := by
  simp [getCtx]

/-- The context as an answer to one of its WRITEs leaves it. -/
def answeredCtx (p : Nat × Nat × Nat × Nat) (fail : Option (Nat × Nat)) (x : Ctx) : Ctx := { x with pend := x.pend.erase p, fail := fail }

/-- An answer to a context that still has WRITEs to send. -/
theorem ctxAnswer_open {c o len code : Nat} {p : Nat × Nat × Nat × Nat} (ha : (getCtx s c).all = false)
    (hp : ((getCtx s c).pend.find? fun p => p.1 == o && p.2.1 == len) = some p) {fail : Option (Nat × Nat)}
    (hf : code = 0 ∧ (getCtx s c).fail = fail ∨ code ≠ 0 ∧ (getCtx s c).fail = none ∧ some (p.2.2.2, o) = fail) :
    ctxAnswer c o (some len) code s = updCtx c (answeredCtx p fail) s := by
  have hpred : (fun p : Nat × Nat × Nat × Nat => p.1 == o && ((some len).isNone || some len == some p.2.1)) =
      fun p => p.1 == o && p.2.1 == len := by
    funext p
    rw [Option.isNone_some, Bool.false_or, Option.some_beq_some, BEq.comm (a := len)]
  unfold ctxAnswer
  dsimp only
  rw [hpred, hp]
  dsimp only
  have hall : (getCtx (updCtx c (answeredCtx p fail) s) c).all = false := by
    rw [getCtx_updCtx_same]
    exact ha
  have hcheck : ctxCheck c (updCtx c (answeredCtx p fail) s) = updCtx c (answeredCtx p fail) s := if_neg (by rw [hall]; simp)
  rcases hf with ⟨hc, rfl⟩ | ⟨hc, hn, rfl⟩
  · rw [if_pos hc]
    exact hcheck
  · rw [if_neg hc, hn]
    exact hcheck

/-- The send time of the WRITE that an ACK names. -/
theorem sentAt_of_pend {c o len : Nat} {p : Nat × Nat × Nat × Nat}
    (hp : ((getCtx s c).pend.find? fun p => p.1 == o && p.2.1 == len) = some p) : sentAt s c o len = some p.2.2.1 := by
  rw [sentAt, hp, Option.map_some]

theorem ackRx_known (hm : forMe s f = true) (hb : badFrame f = false) (hk : f.kind = 3) {p : Nat × Nat × Nat × Nat}
    (hp : ((getCtx s (fCtx f)).pend.find? fun p => p.1 == fOff f && p.2.1 == fAckLen f) = some p) :
    execAckRx f s = .next (if s.nowNs ≥ p.2.2.1 + 50000000 then s
      else ctxAnswer (fCtx f) (fOff f) (some (fAckLen f)) (fCode f) s) := by
  have hk' : f.kind.toNat = 3 := by rw [hk]; rfl
  rw [execAckRx, if_neg (by simp [hm, hb, hk']), sentAt_of_pend hp]

theorem writeTimeout_known (hr : running s = true) {c : BitVec 12} {o : BitVec 48} {p : Nat × Nat × Nat × Nat}
    (hp : ((getCtx s c.toNat).pend.find? fun p => p.1 == o.toNat) = some p) :
    execWriteTimeout c o s = .next (if p.2.2.1 + 50000000 ≤ s.nowNs then ctxAnswer c.toNat o.toNat (some p.2.1) 15 s else s) := by
  rw [execWriteTimeout, if_neg (by simp [hr]), hp]

end Writes

/-- Settles O40: the window's checks and the deadline decide. -/
theorem remoteWritesComplete : Obligations.RemoteWritesComplete := by
  unfold Obligations.RemoteWritesComplete
  refine ⟨fun s f hf hm hb hk hq ho => completes_and_continues rfl ?_,
    fun s => ⟨fun h => ?_, fun f l h hr hn ha => completes_and_continues rfl ?_⟩,
    fun s f hm hb hk p hp => ⟨fun ht => ?_, fun ht => completes_continues rfl rfl, fun ht ha hc => ?_⟩,
    fun s c o hr => ⟨completes_continues rfl rfl, fun p hp => ⟨fun ht => ?_, fun ht ha hf => ?_⟩⟩⟩
  · by_cases hc : windowCode s (fWindow f) f.src.toNat (fRkey f) (fOff f) f.payload.length = 0
    · have hrx := writeRx_open hf hm hb hk hq ho hc (if_pos rfl)
      obtain ⟨m, p, e, hsame⟩ := acceptWrite_same (winAddr s (fwinOf s (fWindow f)) (fOff f)) f.payload s
      refine ⟨_, hrx, ?_, fun _ => ⟨?_, ?_⟩, fun h => absurd hc h⟩
      · rw [hc, hsame]
      · exact memoryHolds_congr (memoryHolds_acceptWrite _ _ s) rfl rfl rfl
      · rw [hsame]
    · refine ⟨_, writeRx_open hf hm hb hk hq ho rfl (if_neg hc), rfl, fun h => absurd h hc, fun _ => rfl⟩
  · exact ⟨s, by simp [exec, execWriteAckTx, h], rfl⟩
  · refine ⟨sendFrame { f with epoch := s.epochCur } { s with ackq := l }, ?_, routeIn_ackq ..⟩
    change execWriteAckTx s = _
    rw [execWriteAckTx, h]
    dsimp only
    rw [if_pos (by simp [hr, hn, ha])]
  · exact ⟨s, (ackRx_known hm hb hk hp).trans (congrArg _ (if_pos ht)), rfl⟩
  · refine ⟨_, (ackRx_known hm hb hk hp).trans (congrArg _ ((if_neg (by omega)).trans (ctxAnswer_open ha hp (.inl ⟨hc, rfl⟩)))), ?_, rfl⟩
    rw [getCtx_updCtx_same]
    rfl
  · exact ⟨s, (writeTimeout_known hr hp).trans (congrArg _ (if_neg (by omega))), rfl⟩
  · have hp' : ((getCtx s c.toNat).pend.find? fun q => q.1 == o.toNat && q.2.1 == p.2.1) = some p :=
      find?_of_stronger hp (fun x hx => (Bool.and_eq_true_iff.mp hx).1) (by simpa using List.find?_some hp)
    have hans := ctxAnswer_open (code := 15) (fail := some (p.2.2.2, o.toNat)) ha hp' (.inr ⟨by decide, hf, rfl⟩)
    refine ⟨_, (writeTimeout_known hr hp).trans (congrArg _ ((if_pos ht).trans hans)), ?_, rfl⟩
    rw [getCtx_updCtx_same]
    rfl

end Sys2Proof.Proofs

/-! PROOFS. RoCEv2 ingest and flow control (R432 to R448). -/

namespace Sys2Proof.Proofs

open Sys2Proof.Machine Sys2Proof.Laws

/-! ## Priorities and their pauses -/

section Pfc

variable {s : State} {p : Port}

theorem emits_list {α : Type} (f : α → Emit) (l : List α) (s : State) :
    l.foldl (fun s q => emit (f q) s) s = { s with out := s.out ++ l.map f } := by
  induction l generalizing s with
  | nil => simp
  | cons q l ih => rw [List.foldl_cons, ih, List.map_cons]; simp [emit]

theorem sendPfc_eq (p : Port) (x : Bool) (s : State) :
    sendPfc p x s = { s with out := s.out ++ (pfcPrios s).map fun q => Emit.pfc p q x } := emits_list (fun q => Emit.pfc p q x) _ s

theorem mget_foldl_mset (n k : Nat) (l : List Nat) (m : SMap Nat) :
    mget 0 (l.foldl (fun m q => mset 0 m q n) m) k = if k ∈ l then n else mget 0 m k := by
  induction l generalizing m with
  | nil => simp
  | cons q l ih =>
    rw [List.foldl_cons, ih]
    by_cases hk : k ∈ l
    · rw [if_pos hk, if_pos (List.mem_cons_of_mem q hk)]
    · rw [if_neg hk]
      by_cases hq : q = k
      · subst hq
        simp
      · rw [mget_mset_other _ _ _ hq, if_neg (by simp [hk, Ne.symm hq])]

/-- Priorities paused one after the other. -/
theorem pause_each (n : Nat) (l : List Nat) (s : State) (p : Port) :
    let t := l.foldl (fun s q => updPort p (fun x => { x with paused := mset 0 x.paused q n }) s) s
    (getPort t p).paused = l.foldl (fun m q => mset 0 m q n) (getPort s p).paused ∧ ∃ a, t = { s with ports := a } := by
  induction l generalizing s with
  | nil => exact ⟨rfl, _, rfl⟩
  | cons q l ih =>
    obtain ⟨h, a, ha⟩ := ih (updPort p (fun x => { x with paused := mset 0 x.paused q n }) s)
    refine ⟨?_, a, ?_⟩
    · rw [List.foldl_cons, h, getPort_updPort_same]
      rfl
    · rw [List.foldl_cons, ha]
      rfl

/-- A port at which a pause has ended: what waited on the priority is no longer held. -/
def resumed (q : Nat) (x : PortSt) : PortSt := { x with
  paused := mset 0 x.paused q 0, heldTx := x.heldTx.filter fun y => y.1 != q }

/-- What waited for a priority at a port. -/
def heldFor (s : State) (p : Port) (q : Nat) : List Emit :=
  ((getPort s p).heldTx.filter fun y => y.1 == q).map fun y => Emit.roce p q y.2

/-- What the end of a pause leaves: what waited on the priority is out (R447). -/
theorem unpause_eq (p : Port) (q : Nat) (s : State) :
    unpause p q s = { updPort p (resumed q) s with out := s.out ++ heldFor s p q } :=
  emits_list (fun y : Nat × Roce => Emit.roce p q y.2) _ (updPort p (resumed q) s)

theorem getPort_withOut (o : List Emit) (s : State) : getPort { s with out := o } p = getPort s p := rfl

theorem getPort_unpause (p : Port) (q : Nat) (s : State) : getPort (unpause p q s) p = resumed q (getPort s p) := by
  rw [unpause_eq, getPort_withOut, getPort_updPort_same]

theorem pfcPrios_ports (a : SMap PortSt) (s : State) : pfcPrios { s with ports := a } = pfcPrios s := rfl

/-- A port that holds the bytes of its buffer. -/
def filled (n : Nat) (x : PortSt) : PortSt := { x with rxBytes := n }

/-- A port that lets its sender go on. -/
def letOn (x : PortSt) : PortSt := { x with xoff := false }

/-- A buffer that falls below XON sends it (R447). -/
theorem execPfcXon_low {n : BitVec 20} (ho : portOn s p = true) (hx : (getPort s p).xoff = true) (hn : n.toNat < 256 * 1024) :
    Completes (.pfcXon p n) s fun t => t.out = s.out ++ ((pfcPrios s).map fun q => .pfc p q false) ∧
      getPort t p = { getPort s p with rxBytes := n.toNat, xoff := false } ∧ t = { s with ports := t.ports, out := t.out } := by
  have hx' : (getPort (updPort p (filled n.toNat) s) p).xoff = true := by
    rw [getPort_updPort_same]
    exact hx
  have he : execPfcXon p n s = .next (sendPfc p false (updPort p letOn (updPort p (filled n.toNat) s))) := by
    unfold execPfcXon
    rw [if_neg (by simp [ho])]
    exact congrArg Host.Outcome.next (if_pos (Bool.and_eq_true_iff.mpr ⟨hx', decide_eq_true hn⟩))
  have ht : getPort (updPort p letOn (updPort p (filled n.toNat) s)) p = letOn (filled n.toNat (getPort s p)) := by
    rw [getPort_updPort_same, getPort_updPort_same]
  obtain ⟨a, ha⟩ : ∃ a, updPort p letOn (updPort p (filled n.toNat) s) = { s with ports := a } := ⟨_, rfl⟩
  rw [ha] at ht he
  rw [sendPfc_eq, pfcPrios_ports] at he
  exact ⟨_, he, rfl, ht, rfl⟩

/-- Pauses that have ended stay ended as others end. -/
theorem unpause_each (l : List Nat) (s : State) (p : Port) (q : Nat) (h : q ∈ l ∨ mget 0 (getPort s p).paused q = 0) :
    mget 0 (getPort (l.foldl (fun s q => unpause p q s) s) p).paused q = 0 := by
  induction l generalizing s with
  | nil => exact h.resolve_left List.not_mem_nil
  | cons r l ih =>
    refine ih (unpause p r s) ?_
    rw [getPort_unpause]
    by_cases hr : r = q
    · subst hr
      exact .inr (by simp [resumed])
    · rw [resumed, mget_mset_other _ _ _ hr]
      exact h.imp_left fun h => (List.mem_cons.mp h).resolve_left (Ne.symm hr)

theorem mem_named (b : BitVec 8) {q : Nat} (h : q < 8) : q ∈ ((List.range 8).filter fun q => bitAt b.toNat q) ↔ bitAt b.toNat q = true := by
  simp [h]

end Pfc

/-! ## Packets -/

section Packet

variable {s : State} {p : Port} {k : Packet} {q : Grp} {w : Wr}

theorem getQp_updQp_same (q : Grp) (f : Qp → Qp) (s : State) : getQp (updQp q f s) q = f (getQp s q) := by simp [getQp]

/-- A buffer below XOFF only counts its bytes. -/
theorem fillTo_low {n : Nat} (h : n < 384 * 1024) :
    fillTo p n s = updPort p (fun x => { x with rxBytes := n }) s := by
  unfold fillTo
  dsimp only
  rw [if_neg (by simp; omega)]

/-- What a packet that lands makes of its queue pair. -/
def landed (k : Packet) (w : Wr) (m : Nat × Nat × Nat) (x : Qp) : Qp := { x with
  epsn := (x.epsn + 1) % 2 ^ 24, msn := if w.ends then (x.msn + 1) % 2 ^ 24 else x.msn
  inMsg := !w.ends, va := if w.ends then 0 else m.1, dmaLen := if w.ends then 0 else m.2.1
  got := if w.ends then 0 else m.2.2 + k.payload.length, sinceAck := x.sinceAck + 1
  ackDue := x.ackDue || k.ackReq || w.ends || decide (x.sinceAck + 1 ≥ 32) }

/-- Where a packet's payload lands (R442). -/
def landsAt (s : State) (x : Qp) (k : Packet) (w : Wr) : Nat :=
  (allotDev s .ring (viNo (mget {} s.iwin x.window).vi)).1 + (mget {} s.iwin x.window).base + (msgOf x w k).1 + (msgOf x w k).2.2

theorem acceptPacket_eq (hi : w.imm = false) : acceptPacket q k w s =
    updQp q (landed k w (msgOf (getQp s q) w k)) (acceptWrite (landsAt s (getQp s q) k w) k.payload s) := by
  unfold acceptPacket
  dsimp only
  rw [if_neg (by simp [hi])]
  rfl

theorem acceptPacket_leaves (hi : w.imm = false) :
    MemoryHolds s (acceptPacket q k w s) (landsAt s (getQp s q) k w) k.payload ∧
    getQp (acceptPacket q k w s) q = landed k w (msgOf (getQp s q) w k) (getQp s q) ∧
    ∃ a b c d, acceptPacket q k w s = { s with mem := a, poison := b, engs := c, qps := d } := by
  rw [acceptPacket_eq hi]
  have hm := memoryHolds_acceptWrite (landsAt s (getQp s q) k w) k.payload s
  obtain ⟨a, b, c, h⟩ := acceptWrite_same (landsAt s (getQp s q) k w) k.payload s
  rw [h] at hm ⊢
  exact ⟨hm, getQp_updQp_same .., a, b, c, _, rfl⟩

/-- A queue pair whose gap is forgotten. -/
def ungapped (x : Qp) : Qp := { x with gapNak := false }

theorem msgOf_ungapped (x : Qp) : msgOf (ungapped x) w k = msgOf x w k := rfl

theorem lengthBad_ungapped (x : Qp) : lengthBad (ungapped x) w k = lengthBad x w k := by
  unfold lengthBad
  rw [msgOf_ungapped]
  rfl

/-- The gap that a queue pair notes decides nothing about a packet. -/
theorem packetOutcome_ungapped (x : Qp) : packetOutcome s (ungapped x) k w = packetOutcome s x k w := by
  unfold packetOutcome
  rw [msgOf_ungapped, lengthBad_ungapped]
  rfl

theorem anyHole_queuePairs (a : SMap Qp) (b : SMap PortSt) : anyHole { s with qps := a, ports := b } = anyHole s := rfl

theorem cplRoom_queuePairs (a : SMap Qp) (b : SMap PortSt) (v : Vi) :
    cplRoom { s with qps := a, ports := b } v = cplRoom s v := rfl

theorem ingestServed_queuePairs (a : SMap Qp) (b : SMap PortSt) (v : Vi) :
    ingestServed { s with qps := a, ports := b } v = ingestServed s v := rfl

theorem allotDev_queuePairs (a : SMap Qp) (b : SMap PortSt) (c : CUnit) (v : Vi) :
    allotDev { s with qps := a, ports := b } c v = allotDev s c v := rfl

/-- Nor do the queue pairs and the ports themselves. -/
theorem packetOutcome_queuePairs (a : SMap Qp) (b : SMap PortSt) (x : Qp) :
    packetOutcome { s with qps := a, ports := b } x k w = packetOutcome s x k w := by
  unfold packetOutcome
  dsimp only
  rw [anyHole_queuePairs, ingestServed_queuePairs, cplRoom_queuePairs, allotDev_queuePairs]

theorem memOpen_queuePairs (a : SMap Qp) (b : SMap PortSt) (d n m : Nat) :
    memOpen { s with qps := a, ports := b } d n m = memOpen s d n m := rfl

theorem landsOpen_ungapped (g : PortSt → PortSt) :
    landsOpen (updQp q ungapped (updPort p g s)) q k w = landsOpen s q k w := by
  unfold landsOpen
  dsimp only
  rw [getQp_updQp_same, show getQp (updPort p g s) q = getQp s q from rfl, msgOf_ungapped]
  obtain ⟨a, b, h⟩ : ∃ a b, updQp q ungapped (updPort p g s) = { s with qps := a, ports := b } := ⟨_, _, rfl⟩
  rw [h, memOpen_queuePairs, allotDev_queuePairs]
  rfl

theorem landsAt_ungapped (x : Qp) (f : Qp → Qp) (g : PortSt → PortSt) :
    landsAt (updQp q f (updPort p g s)) (ungapped x) k w = landsAt s x k w := by
  unfold landsAt
  rw [msgOf_ungapped]
  rfl

/-- An in-sequence packet that nothing stands against lands. -/
theorem qpPacket_lands {u : State} (hce : k.ce = false) (hseq : (getQp u q).epsn = k.psn.toNat) (hw : wrOf k.opcode.toNat = some w)
    (ho : packetOutcome (updQp q ungapped u) (getQp (updQp q ungapped u) q) k w = .accept)
    (hl : landsOpen (updQp q ungapped u) q k w = true) :
    qpPacket q k u = acceptPacket q k w (updQp q ungapped u) := by
  have hb : ((getQp u q).epsn + 2 ^ 24 - k.psn.toNat) % 2 ^ 24 = 0 := by rw [hseq]; omega
  have hr : runPacket q k u = acceptPacket q k w (updQp q ungapped u) := by
    unfold runPacket
    extract_lets t x p fail
    clear_value fail
    rw [hw]
    dsimp only
    rw [show packetOutcome t x k w = .accept from ho]
    exact if_pos hl
  unfold qpPacket
  simp only [hce, hb, Bool.false_eq_true, if_false, ne_eq, not_true_eq_false, decide_false, Bool.false_and, hr]

/-- A packet at a port that takes ingest comes to its bound queue pair. -/
theorem execIngestPacket_bound (ho : portOn s p = true) (hc : carriesRoce s p = true) (hi : ingestOn s p = true)
    (hn : k.bytes.toNat < 384 * 1024) (hq : qpOf k.qpn.toNat = some q) (hb : (getQp s q).bound = true) :
    execIngestPacket p k s = .next (
      if !k.icrcOk || !k.addrOk || (getQp s q).port ≠ p.val || !(getQp s q).rtr then
        updQp q (fun x => { x with drops := satAdd x.drops 1 32 }) (updPort p (filled k.bytes.toNat) s)
      else qpPacket q k (updPort p (filled k.bytes.toNat) s)) := by
  unfold execIngestPacket
  rw [if_neg (by simp [ho, hc]), if_neg (by simp [hi]; omega), hq, show fillTo p k.bytes.toNat s = updPort p (filled k.bytes.toNat) s from
    fillTo_low hn]
  dsimp only
  rw [show getQp (updPort p (filled k.bytes.toNat) s) q = getQp s q from rfl, if_neg (by simp [hb]), apply_ite Host.Outcome.next]

end Packet

/-! ## Entries of the completion ring -/

section Entry

variable {s : State} {v : Vi}

/-- A VI whose line has been queued and has left is as it was. -/
theorem getVi_outqLeft_queued (ho : (getVi s v).outq = []) (l : List RingOut) :
    getVi (outqLeft v [] (queued v l s)) v = getVi s v := by
  rw [outqLeft, getVi_updVi_same, queued, getVi_updVi_same]
  generalize getVi s v = x at ho ⊢
  cases x
  cases ho
  rfl

/-- A line of a ring that the home does not carry leaves at once. -/
theorem ringWrite_port {off : Nat} {b : Block} (ho : (getVi s v).outq = []) (hw : mayWrite s v = true)
    (hh : viaHome s v = false) : ∃ q, getVi { s with vis := q } v = getVi s v ∧ ringWrite v off b s =
      emit (.hostWrite (portOf v) v (hostBase s v + off) (blockBytes b) false) { s with vis := q } := by
  have hv := getVi_outqLeft_queued ho [.line off b]
  obtain ⟨q, hq, -⟩ := outqLeft_queued (s := s) (v := v) [.line off b]
  have hp := pump_leaves (outq_queued ho _) (pumpOne_line_leaves (outq_queued ho [.line off b]) hw (by
    rw [show viaHome (queued v [.line off b] s) v = viaHome s v from rfl, hh]
    rfl))
  rw [hq] at hv hp
  exact ⟨q, hv, hp.trans (sendLine_port (s := { s with vis := q }) hh off b)⟩

/-- A VI whose completion ring has taken an entry. -/
def entered (l : List Byte) (x : ViSt) : ViSt := { x with piCpl := x.piCpl + 1, line1Due := true, evenEntry := l }

/-- An entry of the completion ring leaves at once where the home does not carry it (R229, R231). -/
theorem putEntry_port (ho : (getVi s v).outq = []) (hw : mayWrite s v = true) (hh : viaHome s v = false)
    (tag st op i : Nat) (c : Compl) :
    (∃ l, getVi (putEntry v tag st op i c s) v = entered l (getVi s v)) ∧
    ∃ a o, putEntry v tag st op i c s = { s with vis := a, out := o } := by
  unfold putEntry
  extract_lets x j ph e line u
  obtain ⟨q, hq, hu⟩ := ringWrite_port (off := cplOff s v (j / 2 * 2)) (b := bytesBlock line) ho hw hh
  have hv : getVi u v = getVi s v := (congrArg (getVi · v) hu).trans hq
  rw [show u = _ from hu] at hv ⊢
  clear_value u
  refine ⟨⟨if j % 2 = 0 then e else [], ?_⟩, _, _, rfl⟩
  rw [getVi_updVi_same, hv]
  rfl

/-- A VI that has taken an ingest completion from those that wait. -/
def ingested (c : Compl) (l : List (Compl × Nat × Nat)) (x : ViSt) : ViSt := { x with
  ingest := l, reserved := if c.status = .ok then x.reserved - 1 else x.reserved }

theorem cplInAllot_ingested (c : Compl) (l : List (Compl × Nat × Nat)) :
    cplInAllot (updVi v (ingested c l) s) v = cplInAllot s v := by
  unfold cplInAllot
  rw [getVi_updVi_same]
  rfl

/-- The oldest ingest completion enters the completion ring, where its interrupt is not wanted. -/
theorem execIngestCompletion_enters {c : Compl} {w q : Nat} {l : List (Compl × Nat × Nat)} (hg : (getVi s v).ingest = (c, w, q) :: l)
    (hr : ringOn s v = true) (hs : ingestServed s v = true) (hm : mayMaster s v = true) (he : entrySlot s v c = true)
    (ha : cplInAllot s v = true)
    (hirq : fget (putEntry v w (statusCode c.status) 0x80 q c (updVi v (ingested c l) s)) .ingestIrq v.val ≠ 1) :
    execIngestCompletion v true s = .next (putEntry v w (statusCode c.status) 0x80 q c (updVi v (ingested c l) s)) := by
  unfold execIngestCompletion
  rw [hg]
  dsimp only
  rw [if_neg (by simp [hr, hs, hm, he])]
  have ha' := (cplInAllot_ingested c l).trans ha
  unfold ingested at ha' hirq ⊢
  rw [if_neg (by simp [ha']), if_neg hirq]

end Entry

/-- Settles O42: packets, acknowledgements, completions and priority flow control in turn (R432 to R447). -/
theorem ingestCommandsComplete : Obligations.IngestCommandsComplete := by
  refine ⟨fun s p k => ⟨completes_continues rfl rfl, fun ho hc hi => ?_, fun q ho hc hi hn hq hb => ⟨fun hk => ?_, fun hk ha hp hr hce hseq w hw him hout hl => ?_⟩⟩,
    fun s q hb hd ho hp => ?_, fun s v ok => ⟨completes_continues rfl rfl, fun c w q l hg hr hs hm he ha hh hoq hirq => ?_⟩,
    fun s p ho => ⟨fun hx hn => ?_, fun n hx hn => ?_, fun b n hf hn => ?_, fun b hf => ?_, fun q => ?_⟩⟩
  · refine ⟨_, ?_, counted_fcount (by omega) .discards 16 1 s, rfl⟩
    change execIngestPacket p k s = _
    unfold execIngestPacket
    rw [if_neg (by simp [ho, hc]), if_pos (by simp [hi])]
  · refine ⟨_, (execIngestPacket_bound ho hc hi hn hq hb).trans (congrArg Host.Outcome.next (if_pos (by simp [hk]))), ?_, rfl⟩
    exact getQp_updQp_same ..
  · have hu : getQp (updPort p (filled k.bytes.toNat) s) q = getQp s q := rfl
    have hout' : packetOutcome (updQp q ungapped (updPort p (filled k.bytes.toNat) s))
        (getQp (updQp q ungapped (updPort p (filled k.bytes.toNat) s)) q) k w = .accept := by
      obtain ⟨a, b, h⟩ : ∃ a b, updQp q ungapped (updPort p (filled k.bytes.toNat) s) = { s with qps := a, ports := b } :=
        ⟨_, _, rfl⟩
      rw [getQp_updQp_same, hu, packetOutcome_ungapped, h, packetOutcome_queuePairs, hout]
    have hq' := qpPacket_lands hce (hu ▸ hseq) hw hout' ((landsOpen_ungapped _).trans hl)
    refine ⟨_, (execIngestPacket_bound ho hc hi hn hq hb).trans (congrArg Host.Outcome.next
      ((if_neg (by simp [hk, ha, hp, hr])).trans hq')), ?_⟩
    obtain ⟨hm, hqp, a, b, c, d, he⟩ := acceptPacket_leaves (s := updQp q ungapped (updPort p (filled k.bytes.toNat) s)) (q := q) (k := k) him
    rw [getQp_updQp_same, hu] at hm hqp
    rw [landsAt_ungapped] at hm
    refine ⟨memoryHolds_from hm rfl rfl, by rw [hqp]; rfl, by rw [hqp]; rfl, fun h => ?_, by rw [he]; rfl⟩
    rw [hqp]
    rcases h with h | h
    · simp [landed, h]
    · simp [landed, h]
  · have hp' : pausedOn (updQp q (fun x => { x with ackDue := false, sinceAck := 0 }) s) (portNo (getQp s q).port) (getQp s q).pcp =
      false := hp
    refine ⟨_, congrArg Host.Outcome.next ((if_neg (by simp [ho, hb, hd])).trans (if_neg (by simp [hp']))), rfl, ?_, rfl⟩
    exact getQp_updQp_same q (fun x => { x with ackDue := false, sinceAck := 0 }) s
  · obtain ⟨-, hrec⟩ := ringOn_facts hr
    have hw : mayWrite s v = true := by simp [mayWrite, hm, hrec]
    have hg' : getVi (updVi v (ingested c l) s) v = ingested c l (getVi s v) := getVi_updVi_same ..
    have hoq' : (getVi (updVi v (ingested c l) s) v).outq = [] := by rw [hg']; exact hoq
    obtain ⟨⟨b, hv⟩, x, o, ht⟩ := putEntry_port (s := updVi v (ingested c l) s) hoq' hw hh w (statusCode c.status) 0x80 q c
    refine ⟨_, execIngestCompletion_enters hg hr hs hm he ha ?_, ?_⟩
    · rw [ht]
      exact hirq
    · dsimp only
      rw [hv, hg']
      exact ⟨rfl, rfl, rfl, rfl, ht ▸ rfl⟩
  · refine ⟨_, congrArg Host.Outcome.next ((if_pos (by simp [ho, hx, hn])).trans (sendPfc_eq p true s)), rfl⟩
  · exact execPfcXon_low ho hx hn
  · have hne : ¬(n = 0) := hn
    have he : execPfcRx p b n s = .next (((List.range 8).filter fun q => bitAt b.toNat q).foldl
        (fun s q => updPort p (fun x => { x with paused := mset 0 x.paused q n.toNat }) s) s) := by
      unfold execPfcRx
      rw [if_neg (by simp [ho, hf])]
      simp only [if_neg hne]
    obtain ⟨hpa, a, ha⟩ := pause_each n.toNat ((List.range 8).filter fun q => bitAt b.toNat q) s p
    refine ⟨_, he, fun q hq => ?_, ha ▸ rfl⟩
    rw [hpa, mget_foldl_mset]
    simp only [mem_named b hq]
  · have he : execPfcRx p b 0 s = .next (((List.range 8).filter fun q => bitAt b.toNat q).foldl
        (fun s q => unpause p q s) s) := by
      unfold execPfcRx
      rw [if_neg (by simp [ho, hf])]
      simp only [if_true]
    exact completes_and_continues rfl ⟨_, he, fun q hq hb => unpause_each _ s p q (.inl ((mem_named b hq).mpr hb))⟩
  · refine ⟨_, congrArg Host.Outcome.next ((if_pos ho).trans (unpause_eq p q.val s)), ?_, rfl, ?_, rfl⟩
    · rw [getPort_withOut, getPort_updPort_same]
      simp [resumed]
    · rw [getPort_withOut, getPort_updPort_same]
      rfl

end Sys2Proof.Proofs

/-! PROOFS. What the steps of a collective leave alone (chapter 15): the waiting launches, and a member's standing. -/

namespace Sys2Proof.Proofs

open Sys2Proof.Machine Sys2Proof.Laws

/-! ## Counts -/

section Tallies

variable {s t u : State}

/-- The fields that count what happens, of faults, frames, collectives and segments. -/
def tallies : List F :=
  [.missed, .stale, .unreach, .discards, .abortsOrig, .abortsRx, .timeouts, .crcFails, .segLongest, .segMisses, .segSwaps]

/-- Every field but those counts stands. -/
def Tallied (s t : State) : Prop := FieldsBut s t tallies

theorem Tallied.refl (s : State) : Tallied s s := fun _ _ _ _ => rfl

theorem Tallied.trans (h : Tallied s t) (k : Tallied t u) : Tallied s u := fun f i hi hf => (k f i hi hf).trans (h f i hi hf)

theorem FieldsBut.tallied {l : List F} (h : FieldsBut s t l) (hl : ∀ f ∈ l, f ∈ tallies) : Tallied s t :=
  fun f i hi hf => h f i hi fun hm => hf (hl f hm)

theorem fset_tallied {f : F} {i : Nat} (hf : f ∈ tallies) (hi : i < 2 ^ 20) (v : Nat) (s : State) : Tallied s (fset f i v s) :=
  FieldsBut.tallied (fset_fieldsBut hi f v s) fun _ hg => List.mem_singleton.mp hg ▸ hf

theorem fcount_tallied {f : F} {i : Nat} (hf : f ∈ tallies) (hi : i < 2 ^ 20) (w n : Nat) (s : State) : Tallied s (fcount f i w n s) :=
  fset_tallied hf hi _ s

theorem Ringwise.tallied (h : Ringwise s t) : Tallied s t := FieldsBut.tallied h.fields (by simp [tallies])

end Tallies

/-! ## Frames that a unit sends -/

section Routed

variable {s t u : State}

/-- What the routing of frames may change: ports, counts, the wires and the frames that wait. -/
structure Routed (s t : State) : Prop where
  same : ∃ a b c d, t = { s with ports := a, fld := b, out := c, waitq := d }
  fields : Tallied s t

theorem Routed.refl (s : State) : Routed s s := ⟨⟨_, _, _, _, rfl⟩, .refl s⟩

theorem Routed.trans (h : Routed s t) (k : Routed t u) : Routed s u := by
  refine ⟨?_, h.fields.trans k.fields⟩
  obtain ⟨a, b, c, d, rfl⟩ := h.same
  obtain ⟨a', b', c', d', rfl⟩ := k.same
  exact ⟨a', b', c', d', rfl⟩

theorem Routed.vis (h : Routed s t) : t.vis = s.vis := by
  obtain ⟨a, b, c, d, rfl⟩ := h.same
  rfl

theorem fcount_routed {f : F} {i : Nat} (hf : f ∈ tallies) (hi : i < 2 ^ 20) (w n : Nat) (s : State) : Routed s (fcount f i w n s) :=
  ⟨⟨_, _, _, _, rfl⟩, fcount_tallied hf hi w n s⟩

theorem counted_routed (c : Prop) [Decidable c] {f : F} (hf : f ∈ tallies) (s : State) :
    Routed s (if c then fcount f 0 32 1 s else s) := by
  split
  · exact fcount_routed hf (by decide) ..
  · exact .refl s

theorem sendOn_routed (p : Port) (g : Frame) (s : State) : Routed s (sendOn p g s) := by
  obtain ⟨-, -, -, a, b, h⟩ := sendOn_leaves p g s
  rw [h]
  exact ⟨⟨_, _, _, _, rfl⟩, fun _ _ _ _ => rfl⟩

theorem oweCredits_routed (q : Option Port) (v : Nat) (f : Frame) (s : State) : Routed s (oweCredits q v f s) := by
  unfold oweCredits
  split
  · exact ⟨⟨_, _, _, _, rfl⟩, fun _ _ _ _ => rfl⟩
  · exact .refl s

theorem routeIn_routed (f : Frame) (q : Option Port) (s : State) : Routed s (routeIn f q s) := by
  have hp : (countPort q).val < 2 ^ 20 := (countPort q).isLt.trans (by decide)
  have hstale (c : Bool) : Routed s (if c = true then fcount .stale (countPort q).val 16 1 s else s) := by
    split
    · exact fcount_routed (by decide) hp ..
    · exact .refl s
  have hdrop (c : Bool) : (if c = true then F.unreach else F.discards) ∈ tallies := by cases c <;> decide
  unfold routeIn
  split
  · exact .refl s
  · dsimp only
    split
    · exact (hstale _).trans ((sendOn_routed ..).trans (oweCredits_routed ..))
    · exact (hstale _).trans (oweCredits_routed ..)
    · exact (hstale _).trans ((fcount_routed (hdrop _) hp ..).trans (oweCredits_routed ..))
    · exact (hstale _).trans ⟨⟨_, _, _, _, rfl⟩, fun _ _ _ _ => rfl⟩

theorem sendFrame_routed (f : Frame) (s : State) : Routed s (sendFrame f s) := routeIn_routed f none s

theorem sendFrames_routed {α : Type} (f : State → α → Frame) (l : List α) (s : State) :
    Routed s (l.foldl (fun s x => sendFrame (f s x) s) s) :=
  foldl_same (f := fun s x => sendFrame (f s x) s) .refl (fun _ _ _ => .trans) (fun _ _ => sendFrame_routed _ _) l s

theorem sendAbort_routed (g seq code arg : Nat) (l : List Nat) (s : State) : Routed s (sendAbort g seq code arg l s) :=
  sendFrames_routed (fun s d => collCtl s g seq d 3 code arg []) l s

end Routed

/-! ## What touches no collective -/

section Apart

variable {s t u : State}

/-- A step that touches no collective and no launch that waits. -/
structure Apart (s t : State) : Prop where
  wait : t.collWait = s.collWait
  colls : t.colls = s.colls
  fields : Tallied s t := by exact fun _ _ _ _ => rfl

theorem Apart.refl (s : State) : Apart s s := .mk rfl rfl

theorem Apart.trans (h : Apart s t) (k : Apart t u) : Apart s u := 
  ⟨k.wait.trans h.wait, k.colls.trans h.colls, h.fields.trans k.fields⟩

theorem Apart.foldl {α : Type} {f : State → α → State} (hf : ∀ s x, Apart s (f s x)) (l : List α) (s : State) :
    Apart s (l.foldl f s) := foldl_same .refl (fun _ _ _ => .trans) hf l s

theorem Apart.getColl (h : Apart s t) (g : Grp) : Machine.getColl t g = Machine.getColl s g := by
  rw [Machine.getColl, Machine.getColl, h.colls]

theorem Routed.apart (h : Routed s t) : Apart s t := by
  refine ⟨?_, ?_, h.fields⟩
  · obtain ⟨a, b, c, d, rfl⟩ := h.same
    rfl
  · obtain ⟨a, b, c, d, rfl⟩ := h.same
    rfl

theorem Ringwise.apart (h : Ringwise s t) : Apart s t := ⟨by rw [h.same], by rw [h.same], h.tallied⟩

theorem acceptWrite_apart (a : Nat) (l : List Byte) (s : State) : Apart s (acceptWrite a l s) := by
  obtain ⟨m, p, e, h⟩ := acceptWrite_same a l s
  rw [h]
  exact .mk rfl rfl

theorem touchAll_apart (v : Vi) (n : Nat) (l : List Piece) (s : State) : Apart s (touchAll v n l s) := by
  unfold touchAll
  split
  · refine .foldl (fun s p => ?_) l s
    split
    · exact .mk rfl rfl
    · exact .refl s
  · exact .refl s

theorem dropBlocks_apart (v : Vi) (l : List Piece) (s : State) : Apart s (dropBlocks v l s) := .mk rfl rfl

theorem collMiss_apart (g : Nat) (v : Vi) (a : Nat) (s : State) : Apart s (collMiss g v a s) := by
  unfold collMiss
  split
  · exact .refl s
  · exact .mk rfl rfl

theorem askBlock_apart (v : Vi) (s : State) (l : Nat) : Apart s (askBlock v s l) := by
  unfold askBlock
  dsimp only
  split
  · exact .refl s
  · refine Apart.trans (t := { s with hblocks := s.hblocks ++ [(v, 64 * l, none)] }) (.mk rfl rfl) ?_
    split
    · exact (access_ringwise _ _ _ _ _).apart
    · exact .mk rfl rfl

theorem askBlocks_apart (v : Vi) (l : List Piece) (s : State) : Apart s (askBlocks v l s) := by
  unfold askBlocks
  split
  · exact .foldl (askBlock_apart v) _ s
  · exact .refl s

theorem srcBytes_apart (g : Nat) (c : CollSt) (a n : Nat) (s : State) : Apart s (srcBytes g c a n s).2 := by
  unfold srcBytes
  dsimp only
  split
  · exact .refl s
  · split
    · exact (touchAll_apart ..).trans (dropBlocks_apart ..)
    · exact collMiss_apart ..
    · exact askBlocks_apart ..
    · exact dropBlocks_apart ..

theorem hostRing_apart (v : Vi) (a : Nat) (l : List Byte) (w : Who) (s : State) : Apart s (hostRing v a l w s) := by
  unfold hostRing
  split
  · refine .foldl (fun s x => ?_) _ s
    dsimp only
    split
    · exact (ringLineWrite_ringwise _ _ _ _).apart
    · exact (access_ringwise _ _ _ _ _).apart
  · exact .mk rfl rfl

theorem writePiece_apart (w : Who) (v : Vi) (p : Piece) (l : List Byte) (s : State) : Apart s (writePiece (.ring w) v p l s).2 := by
  unfold writePiece
  dsimp only
  split
  · exact acceptWrite_apart ..
  · split
    · exact hostRing_apart ..
    · exact .refl s
  · exact .refl s
  · exact .refl s

theorem writeAll_apart (w : Who) (v : Vi) (b : List Byte) (l : List Piece) (s : State) : Apart s (writeAll (.ring w) v b l s).2 := by
  induction l generalizing s with
  | nil => exact .refl s
  | cons p l ih => exact (writePiece_apart w v p b s).trans (ih _)

theorem writePieces_apart (w : Who) (v : Vi) (n a : Nat) (l : List Piece) (b : List Byte) (s : State) :
    Apart s (writePieces (.ring w) v n a l b s).2 := by
  have h := (touchAll_apart v n l s).trans (writeAll_apart w v b l _)
  unfold writePieces
  split
  · exact .refl s
  · split
    · next hu => rwa [hu] at h
    · next hu => rwa [hu] at h

theorem dstBytes_apart (g : Nat) (c : CollSt) (a : Nat) (b : List Byte) (s : State) : Apart s (dstBytes g c a b s).2 := by
  unfold dstBytes
  dsimp only
  split
  · exact .refl s
  · have h := writePieces_apart (.data (collVi c) c.idx) (collVi c) 2 a (piecesOf s (.coll (fluef g)) (collVi c) 2 a b.length) b s
    split
    · next hu => rwa [hu] at h
    · next hu => rw [hu] at h; exact h.trans (collMiss_apart ..)
    · next hu => rwa [hu] at h
    · next hu => rwa [hu] at h

theorem spoil_apart (g : Nat) (c : CollSt) (s : State) : Apart s (spoil g c s) := by
  have hs : Apart s (spoilStage g c s) := by
    unfold spoilStage
    dsimp only
    split
    · exact .refl s
    · split
      · exact .mk rfl rfl
      · exact .refl s
  exact (hs.trans (writeAll_apart ..)).trans (.mk rfl rfl)

theorem scalarValue_apart (g : Nat) (c : CollSt) (s : State) : Apart s (scalarValue g c s).2 := by
  have h := srcBytes_apart g c (cSrc c.desc) (cBytes c.desc) s
  unfold scalarValue
  split
  · next hu => rwa [hu] at h
  · exact h

theorem abortFlags_apart (g : Nat) (c : CollSt) (s : State) : Apart s (abortFlags g c s) := by
  unfold abortFlags
  split
  · split
    · exact .mk rfl rfl
    · exact .refl s
  · exact .refl s

end Apart

/-! ## A member's standing -/

section Standing

variable {s t u : State} {g : Nat}

/-- A member that goes on with its collective keeps its tree, its descriptor, and what came of ARRIVE, grants and data; a
member whose collective has ended is no longer active. -/
def Goeson (x y : CollSt) : Prop := y.active = false ∨ y = { x with
  arriveSent := y.arriveSent, released := y.released, sent := y.sent, scalars := y.scalars, src := y.src
  written := y.written, placed := y.placed }

theorem Goeson.refl (x : CollSt) : Goeson x x := .inr rfl

theorem Goeson.trans {x y z : CollSt} (h : Goeson x y) (k : Goeson y z) : Goeson x z := by
  rcases k with k | k
  · exact .inl k
  · rcases h with h | h
    · exact .inl (by rw [k]; exact h)
    · exact .inr (by rw [k, h])

/-- A step of a member's collective. -/
structure CollStep (g : Nat) (s t : State) : Prop where
  wait : t.collWait = s.collWait
  stands : Goeson (getColl s (grp g)) (getColl t (grp g))
  fields : Tallied s t

theorem CollStep.refl (g : Nat) (s : State) : CollStep g s s := ⟨rfl, .refl _, .refl s⟩

theorem CollStep.trans (h : CollStep g s t) (k : CollStep g t u) : CollStep g s u :=
  ⟨k.wait.trans h.wait, h.stands.trans k.stands, h.fields.trans k.fields⟩

theorem CollStep.foldl {α : Type} {f : State → α → State} (hf : ∀ s x, CollStep g s (f s x)) (l : List α) (s : State) :
    CollStep g s (l.foldl f s) := foldl_same (.refl g) (fun _ _ _ => .trans) hf l s

theorem Apart.step (h : Apart s t) : CollStep g s t := ⟨h.wait, by rw [h.getColl]; exact .refl _, h.fields⟩

theorem updColl_step {f : CollSt → CollSt} (hf : Goeson (getColl s (grp g)) (f (getColl s (grp g)))) :
    CollStep g s (updColl (grp g) f s) := ⟨rfl, by rw [getColl_updColl_same]; exact hf, fun _ _ _ _ => rfl⟩

/-- A member whose collective has been cleared is no longer active. -/
def Cleared (x : CollSt) : Prop := x = { early := x.early, earlyGr := x.earlyGr }

theorem getColl_clearColl (g : Nat) (s : State) : Cleared (getColl (clearColl g s) (grp g)) := by
  unfold clearColl
  rw [getColl_updColl_same]
  rfl

theorem Cleared.inactive {x : CollSt} (h : Cleared x) : x.active = false ∧ x.launched = false ∧ x.released = false := by
  rw [h]
  exact ⟨rfl, rfl, rfl⟩

theorem endColl_cleared (g : Nat) (x : Option Compl) (n : Option Nat) (k a : Nat) (s : State) :
    Cleared (getColl (endColl g x n k a s) (grp g)) := getColl_clearColl g _

theorem clearColl_same (n : Nat) (s : State) :
    ∃ a b c d e, clearColl n s = { s with hret := a, mesh := b, hl := c, hblocks := d, colls := e } := ⟨_, _, _, _, _, rfl⟩

theorem clearColl_tallied (g n : Nat) (s : State) : Tallied s (clearColl g (noteLast g n true s)) := by
  obtain ⟨a, b, c, d, e, h⟩ := clearColl_same g (noteLast g n true s)
  rw [h]
  exact fun _ _ _ _ => rfl

theorem endColl_step (g : Nat) (x : Option Compl) (n : Option Nat) (k a : Nat) (s : State) :
    CollStep g s (endColl g x n k a s) := by
  have h : (endColl g x n k a s).collWait = s.collWait ∧ Tallied s (endColl g x n k a s) := by
    unfold endColl
    extract_lets c u v w
    have hu : Apart s u := (sendAbort_routed ..).apart
    have hv : Apart u v := abortFlags_apart ..
    have hw : Apart v w := by
      unfold w
      split
      · exact .mk rfl rfl
      · exact .refl v
    have hz : Tallied w (clearColl g (noteLast g (cSeq c.desc) true w)) := clearColl_tallied g (cSeq c.desc) w
    clear_value w v u
    have hsw := hu.trans (hv.trans hw)
    exact ⟨hsw.wait, hsw.fields.trans hz⟩
  exact ⟨h.1, .inl (endColl_cleared g x n k a s).inactive.1, h.2⟩

theorem collFail_step (g : Nat) (x : Compl) (s : State) : CollStep g s (collFail g x s) := by
  unfold collFail
  extract_lets c u
  have hu : CollStep g s u := (fcount_routed (by decide) (by decide) ..).apart.step
  clear_value u
  exact hu.trans (endColl_step ..)

theorem originate_step (g : Nat) (x : Status) (n : Nat) (s : State) : CollStep g s (originate g x n s) := by
  unfold originate
  extract_lets c u v w
  have hu : Routed s u := fcount_routed (by decide) (by decide) ..
  have hv : Routed u v := counted_routed _ (by decide) _
  have hw : Routed v w := counted_routed _ (by decide) _
  clear_value w v u
  exact (hu.trans (hv.trans hw)).apart.step.trans (endColl_step ..)

theorem ownSherd_step (g i : Nat) (s : State) : CollStep g s (ownSherd g i s).2 := by
  unfold ownSherd
  dsimp only
  split
  · exact .refl g s
  · split
    · exact .refl g s
    · have h := srcBytes_apart g (getColl s (grp g)) (cSrc (getColl s (grp g)).desc +
        ownOff (getColl s (grp g)) (extLo (sherdOf (getColl s (grp g)).desc (ownExt (getColl s (grp g))) i)))
        (extLen (sherdOf (getColl s (grp g)).desc (ownExt (getColl s (grp g))) i)) s
      split
      · next hu => rw [hu] at h; exact h.step.trans (updColl_step (.inr rfl))
      · exact h.step

theorem pieceData_step {up : Bool} {i : Nat} {x : Ext} {r : Src × State} (h : pieceData g up i x s = some r) :
    CollStep g s r.2 := by
  have ho := ownSherd_step g i s
  unfold pieceData at h
  extract_lets c red at h
  clear_value red
  generalize (!(if red = true then kidEdges c else neededEdges c up x).all fun e => usable c e i) = missing at h
  generalize (!red && (offsOf x).all fun off => origin c up off != .own) = passed at h
  split at h
  · cases h
  · split at h
    · cases h
      exact .refl g s
    · split at h
      · next hu =>
        rw [hu] at ho
        cases h
        exact ho
      · cases h
        exact ho

theorem sendEdge_step (g e n : Nat) (s : State) : CollStep g s (sendEdge g e n s) := by
  induction n generalizing s with
  | zero => exact .refl g s
  | succ n ih =>
    rw [sendEdge]
    dsimp only
    split
    · exact .refl g s
    · split
      · split
        · exact .refl g s
        · split
          · exact .refl g s
          · next h => exact pieceData_step h
          · next h => exact (pieceData_step h).trans (collFail_step ..)
          · next h =>
            exact ((pieceData_step h).trans (updColl_step (.inr rfl))).trans ((sendFrame_routed ..).apart.step.trans (ih _))
      · exact .refl g s

theorem writeSherd_step (g i : Nat) (s : State) : CollStep g s (writeSherd g i s) := by
  unfold writeSherd
  dsimp only
  split
  · exact .refl g s
  · split
    · exact .refl g s
    · next h => exact pieceData_step h
    · next h => exact (pieceData_step h).trans (collFail_step ..)
    · next l u h =>
      have hd := (dstBytes_apart g (getColl s (grp g)) (cDst (getColl s (grp g)).desc + destOff (getColl s (grp g)).desc
        (getColl s (grp g)).rank (extLo (sherdOf (getColl s (grp g)).desc (destExt (getColl s (grp g)).desc
          (getColl s (grp g)).members (getColl s (grp g)).rank) i))) l u).step (g := g)
      refine (pieceData_step h).trans ?_
      split
      · next hu => rw [hu] at hd; exact hd.trans (updColl_step (.inr rfl))
      · next hu => rwa [hu] at hd
      · next hu => rw [hu] at hd; exact hd.trans (collFail_step ..)

theorem noteWritten_step (g : Nat) (s : State) : CollStep g s (noteWritten g s) := updColl_step (.inr rfl)

theorem landScalar_step (g : Nat) (s : State) : CollStep g s (landScalar g s) := by
  unfold landScalar
  dsimp only
  split
  · exact .refl g s
  · split
    · exact (spoil_apart ..).step.trans (noteWritten_step ..)
    · split
      · have hd := (dstBytes_apart g (getColl s (grp g)) (cDst (getColl s (grp g)).desc)
          (mget [] (getColl s (grp g)).scalars 0) s).step (g := g)
        split
        · next hu => rw [hu] at hd; exact hd.trans (noteWritten_step ..)
        · next hu => rwa [hu] at hd
        · next hu => rw [hu] at hd; exact hd.trans (collFail_step ..)
      · exact noteWritten_step ..

theorem releaseDown_step (g : Nat) (l : List Byte) (s : State) : CollStep g s (releaseDown g l s) := by
  unfold releaseDown
  extract_lets t c
  have ht : CollStep g s t := updColl_step (.inr rfl)
  clear_value t
  split
  · exact ht
  · exact (ht.trans (sendFrames_routed (fun s n => collCtl s g (cSeq c.desc) n 1 0 0 l) c.kids t).apart.step).trans
      (landScalar_step ..)

theorem arriveUp_step (g : Nat) (s : State) : CollStep g s (arriveUp g s) := by
  unfold arriveUp
  extract_lets c val
  have hv : CollStep g s val.2 := by
    unfold val
    split
    · exact (scalarValue_apart ..).step
    · exact .refl g s
  clear_value val
  split
  · exact .refl g s
  · split
    · exact hv
    · exact hv.trans (collFail_step ..)
    · next l u =>
      have hu : CollStep g s (updColl (grp g) (fun c => { c with arriveSent := true }) u) := hv.trans (updColl_step (.inr rfl))
      refine hu.trans ?_
      split
      · exact (sendFrame_routed ..).apart.step
      · exact releaseDown_step ..

/-- Whatever a member does for its collective keeps its standing. -/
theorem progress_step (g : Nat) (s : State) : CollStep g s (progress g s) := by
  have h := (arriveUp_step g s).trans (landScalar_step g (arriveUp g s))
  unfold progress
  dsimp only
  split
  · exact h
  · exact (h.trans (.foldl (fun s e => sendEdge_step ..) _ _)).trans (.foldl (fun s i => writeSherd_step ..) _ _)

/-- A member whose collective has ended has nothing to do. -/
theorem progress_cleared (h : Cleared (getColl s (grp g))) : progress g s = s := by
  obtain ⟨-, hl, hr⟩ := h.inactive
  have ha : arriveUp g s = s := if_pos (by simp [hl])
  have hs : landScalar g s = s := if_pos (by simp [hr])
  unfold progress
  rw [ha, hs]
  exact if_pos (by simp [hl])

end Standing

end Sys2Proof.Proofs

/-! PROOFS. The start of a collective (R496, R497, R499, R500). -/

namespace Sys2Proof.Proofs

open Sys2Proof.Machine Sys2Proof.Laws

section Launch

variable {s t : State} {v : Vi} {i : BitVec 32} {f : Fly}

theorem execColl_stopped (hf : fresh s v i 0x09 = some f) (hw : waitsColl s v f.idx = false)
    (ho : entryOpen s (cGroup f.desc) = true) {x : Compl} (hx : collStop s v f = some x) :
    execColl v i s = .next (finish v f.idx x s) := by
  unfold execColl
  rw [hf]
  dsimp only
  rw [if_neg (by simp [hw, ho]), hx]

/-- A launch that waits for its reservation (R497). -/
def waitsNow (v : Vi) (f : Fly) (s : State) : State := { s with collWait := s.collWait ++ [(v, f.idx)] }

theorem execColl_passes (hf : fresh s v i 0x09 = some f) (hw : waitsColl s v f.idx = false)
    (ho : entryOpen s (cGroup f.desc) = true) (hx : collStop s v f = none) :
    execColl v i s = .next (if seqOk s f.desc then waitsNow v f (writeLastSeq (cGroup f.desc) (cSeq f.desc) s)
      else seqMismatch v f (writeLastSeq (cGroup f.desc) (cSeq f.desc) s)) := by
  unfold execColl
  rw [hf]
  dsimp only
  rw [if_neg (by simp [hw, ho]), hx]
  rfl

/-- The bytes outside a write stand. -/
theorem readBytes_of_memoryHolds {a b n : Nat} {l : List Byte} (h : MemoryHolds s t a l) (hd : b + n ≤ a ∨ a + l.length ≤ b) :
    readBytes t b n = readBytes s b n := by
  unfold readBytes
  refine List.map_congr_left fun k hk => ?_
  have hk := List.mem_range.mp hk
  rw [h, if_neg (by omega)]

/-- LAST_SEQ lies beside the rank in a group's entry (R490). -/
theorem gRank_writeLastSeq (g n : Nat) (s : State) : gRank (writeLastSeq g n s) g = gRank s g := by
  have hm : MemoryHolds s (writeLastSeq g n s) (groupAddr s g + 0x3C) (natBytes 4 n) :=
    memoryHolds_acceptWrite (groupAddr s g + 0x3C) (natBytes 4 n) s
  obtain ⟨m, p, e, h⟩ := acceptWrite_same (groupAddr s g + 0x3C) (natBytes 4 n) s
  have ha : groupAddr (writeLastSeq g n s) g = groupAddr s g := by
    unfold writeLastSeq
    rw [h]
    rfl
  unfold gRank gField
  rw [ha, readBytes_of_memoryHolds hm (.inl (by omega))]

theorem writeLastSeq_vis (g n : Nat) (s : State) : (writeLastSeq g n s).vis = s.vis := acceptWrite_vis ..

theorem abortFlags_vis (g : Nat) (c : CollSt) (s : State) : (abortFlags g c s).vis = s.vis := by
  unfold abortFlags
  split
  · split
    · rfl
    · rfl
  · rfl

/-- A SEQ that does not follow ends the COLL with COLL_MISMATCH and the member's own rank (R495). -/
theorem ended_seqMismatch (hm : f ∈ (getVi s v).fly) (hi : f.idx.idx = i) (hf : f.fin = none) :
    Ended (seqMismatch v f s) v i (openC .collMismatch (gRank s (cGroup f.desc))) := by
  unfold seqMismatch
  extract_lets g c u w
  have hu : u.vis = s.vis := rfl
  have hw : w.vis = u.vis := (sendAbort_routed ..).vis
  clear_value w u
  refine ended_finish _ ?_ hi hf
  rw [getVi_of_vis ((abortFlags_vis ..).trans (hw.trans hu))]
  exact hm

theorem execCollLaunch_waiting (hf : fresh s v i 0x09 = some f) (hw : waitsColl s v f.idx = true) {u : State}
    (hu : (if !collServed s (cGroup f.desc) then
        finish v f.idx (openC .fencedUnit) { s with collWait := s.collWait.filter fun w => w != (v, f.idx) }
      else if !canLaunch s v f.idx (cGroup f.desc) || !entryOpen s (cGroup f.desc) then s
      else launchColl v f { s with collWait := s.collWait.filter fun w => w != (v, f.idx) }) = u) :
    execCollLaunch v i s = .next u := by
  unfold execCollLaunch
  rw [hf]
  dsimp only
  rw [if_neg (by simp [hw]), hu]

theorem recvArrive_wait (g n sig : Nat) (l : List Byte) (s : State) : (recvArrive g n sig l s).collWait = s.collWait := by
  unfold recvArrive
  dsimp only
  split
  · rfl
  · rfl
  · split
    · rfl
    · split
      · exact (originate_step ..).wait
      · rfl

theorem recvGrant_wait (g n k : Nat) (s : State) : (recvGrant g n k s).collWait = s.collWait := by
  unfold recvGrant
  dsimp only
  split
  · rfl
  · rfl

theorem foldl_wait {α : Type} {f : State → α → State} (hf : ∀ s x, (f s x).collWait = s.collWait) (l : List α) (s : State) :
    (l.foldl f s).collWait = s.collWait := foldl_same (P := fun s t => t.collWait = s.collWait) (fun _ => rfl) (fun _ _ _ h k => k.trans h) hf l s

theorem takeEarly_wait (g : Grp) (s : State) : (takeEarly g s).collWait = s.collWait := by
  unfold takeEarly
  extract_lets c mine u w
  have hu : u.collWait = s.collWait := rfl
  have hw : w.collWait = u.collWait := foldl_wait (fun _ _ => recvGrant_wait ..) ..
  clear_value w u
  refine (foldl_wait (fun s x => ?_) ..).trans (hw.trans hu)
  split
  · exact recvArrive_wait ..
  · rfl

theorem grantAll_wait (g : Nat) (s : State) : (grantAll g s).collWait = s.collWait := by
  refine foldl_wait (fun s x => ?_) _ s
  split
  · split
    · rfl
    · exact (sendFrame_routed ..).apart.wait
  · rfl

theorem endRefail_wait (g : Nat) (c : CollSt) (s : State) : (endRefail g c s).collWait = s.collWait := by
  unfold endRefail
  split
  · rfl
  · split
    · rfl
    · rfl

/-- A launch lets no other collective wait or go. -/
theorem launchColl_wait (v : Vi) (f : Fly) (s : State) : (launchColl v f s).collWait = s.collWait := by
  unfold launchColl
  extract_lets g c a b d
  have ha : a.collWait = s.collWait := rfl
  have hb : b.collWait = a.collWait := endRefail_wait ..
  have hd : d.collWait = b.collWait := (takeEarly_wait ..).trans (grantAll_wait ..)
  clear_value d b a
  exact (progress_step ..).wait.trans (hd.trans (hb.trans ha))

end Launch

/-- Settles O43: the launch checks, the wait for the island, and the launch (R496, R497). -/
theorem collectiveStartsComplete : Obligations.CollectiveStartsComplete := by
  intro s v i f hf
  obtain ⟨hm, hi, hfin⟩ := fresh_mem hf
  refine ⟨fun hw ho => ⟨fun x hx => ?_, fun hx hq => ?_, fun hx hq => ?_⟩, fun hw => ⟨fun hs => ?_, fun hs hl ho => ?_, fun hs hl => ?_⟩⟩
  · exact ⟨_, execColl_stopped hf hw ho hx, ended_finish x hm hi hfin, rfl⟩
  · refine ⟨_, (execColl_passes hf hw ho hx).trans (congrArg Host.Outcome.next (if_pos hq)), ?_⟩
    have hmem : MemoryHolds s (writeLastSeq (cGroup f.desc) (cSeq f.desc) s) (groupAddr s (cGroup f.desc) + 0x3C)
      (natBytes 4 (cSeq f.desc)) := memoryHolds_acceptWrite (groupAddr s (cGroup f.desc) + 0x3C) (natBytes 4 (cSeq f.desc)) s
    obtain ⟨m, p, e, h⟩ : ∃ m p e, writeLastSeq (cGroup f.desc) (cSeq f.desc) s = { s with mem := m, poison := p, engs := e } :=
      acceptWrite_same ..
    rw [h] at hmem ⊢
    exact ⟨rfl, hmem, rfl⟩
  · refine completes_and_continues rfl ⟨_, (execColl_passes hf hw ho hx).trans (congrArg Host.Outcome.next (if_neg (by simp [hq]))), ?_⟩
    rw [← gRank_writeLastSeq _ (cSeq f.desc)]
    refine ended_seqMismatch ?_ hi hfin
    rw [getVi_of_vis (writeLastSeq_vis ..)]
    exact hm
  · exact ⟨_, execCollLaunch_waiting hf hw (if_pos (by simp [hs])), ended_finish _ hm hi hfin, rfl⟩
  · exact completes_and_continues rfl ⟨_, execCollLaunch_waiting hf hw ((if_neg (by simp [hs])).trans (if_neg (by simp [hl, ho]))),
      launchColl_wait ..⟩
  · exact ⟨s, execCollLaunch_waiting hf hw ((if_neg (by simp [hs])).trans (if_pos (by simp [hl]))), rfl⟩

end Sys2Proof.Proofs

/-! PROOFS. The frames of a collective (R501 to R509, R519). -/

namespace Sys2Proof.Proofs

open Sys2Proof.Machine Sys2Proof.Laws

/-! ## Members that end -/

section Ends

variable {s t : State} {f : Fly}

@[simp] theorem grp_val (g : Grp) : grp g.val = g := Fin.ext (Nat.mod_eq_of_lt g.isLt)

/-- What a step that keeps a member's standing keeps of it, if the collective has not ended. -/
theorem Goeson.keeps {α : Type} {x y : CollSt} (h : Goeson x y) (π : CollSt → α)
    (hπ : ∀ x a b c d e f g, π { x with arriveSent := a, released := b, sent := c, scalars := d, src := e, written := f, placed := g } = π x) :
    y.active = false ∨ π y = π x := by
  rcases h with h | h
  · exact .inl h
  · exact .inr (by rw [h, hπ])

theorem Goeson.inactive {x y : CollSt} (h : Goeson x y) (hx : x.active = false) : y.active = false := by
  rcases h.keeps (·.active) (fun _ _ _ _ _ _ _ _ => rfl) with h | h
  · exact h
  · exact h.trans hx

theorem flyOf_mem {v : Vi} {j : Job} (h : flyOf s v j = some f) : f ∈ (getVi s v).fly ∧ f.idx = j := by
  unfold flyOf at h
  exact ⟨List.mem_of_find?_eq_some h, by simpa using List.find?_some h⟩

theorem clearColl_vis (g : Nat) (s : State) : (clearColl g s).vis = s.vis := rfl

theorem ended_of_vis {v : Vi} {i : BitVec 32} {c : Compl} (h : t.vis = s.vis) (he : Ended s v i c) : Ended t v i c := by
  obtain ⟨f, hf⟩ := he
  exact ⟨f, by rw [getVi_of_vis h]; exact hf⟩

/-- A member that ends with a status ends its COLL with it (R518). -/
theorem ended_endColl {g : Nat} {n : Option Nat} {k a : Nat} (x : Compl)
    (hf : flyOf s (collVi (getColl s (grp g))) (getColl s (grp g)).idx = some f) (hn : f.fin = none) :
    Ended (endColl g (some x) n k a s) (collVi (getColl s (grp g))) (getColl s (grp g)).idx.idx x := by
  obtain ⟨hm, hi⟩ := flyOf_mem hf
  unfold endColl
  extract_lets c u v w
  have hu : u.vis = s.vis := (sendAbort_routed ..).vis
  have hv : v.vis = u.vis := abortFlags_vis ..
  have hw : Ended w (collVi c) c.idx.idx x := by
    change Ended (finish (collVi c) c.idx x v) _ _ _
    rw [← hi]
    refine ended_finish x ?_ rfl hn
    rw [getVi_of_vis (hv.trans hu)]
    exact hm
  clear_value w
  exact ended_of_vis (clearColl_vis ..) hw

/-- A member that originates an abort has cleared its context. -/
theorem originate_cleared (g : Nat) (x : Status) (n : Nat) (s : State) : Cleared (getColl (originate g x n s) (grp g)) := by
  unfold originate
  extract_lets c u v w
  exact endColl_cleared ..

theorem flyOf_of_vis {v : Vi} {j : Job} (h : t.vis = s.vis) : flyOf t v j = flyOf s v j := by
  rw [flyOf, flyOf, getVi_of_vis h]

/-- After frames and counts a member ends its own COLL. -/
theorem Routed.ended_endColl {g : Nat} {n : Option Nat} {k a : Nat} (h : Routed s t) (x : Compl)
    (hf : flyOf s (collVi (getColl s (grp g))) (getColl s (grp g)).idx = some f) (hn : f.fin = none) :
    Ended (endColl g (some x) n k a t) (collVi (getColl s (grp g))) (getColl s (grp g)).idx.idx x := by
  rw [← h.apart.getColl] at hf ⊢
  exact Proofs.ended_endColl x (flyOf_of_vis h.vis ▸ hf) hn

theorem ended_originate {g : Nat} (x : Status) (n : Nat)
    (hf : flyOf s (collVi (getColl s (grp g))) (getColl s (grp g)).idx = some f) (hn : f.fin = none) :
    Ended (originate g x n s) (collVi (getColl s (grp g))) (getColl s (grp g)).idx.idx (openC x n) := by
  unfold originate
  extract_lets c u v w
  have hu : Routed s u := fcount_routed (by decide) (by decide) ..
  have hv : Routed u v := counted_routed _ (by decide) _
  have hw : Routed v w := counted_routed _ (by decide) _
  clear_value w v u
  exact (hu.trans (hv.trans hw)).ended_endColl _ hf hn

theorem ended_collFail {g : Nat} (x : Compl)
    (hf : flyOf s (collVi (getColl s (grp g))) (getColl s (grp g)).idx = some f) (hn : f.fin = none) :
    Ended (collFail g x s) (collVi (getColl s (grp g))) (getColl s (grp g)).idx.idx x := by
  unfold collFail
  extract_lets c u
  have hu : Routed s u := fcount_routed (by decide) (by decide) ..
  clear_value u
  exact hu.ended_endColl _ hf hn

theorem collFail_cleared (g : Nat) (x : Compl) (s : State) : Cleared (getColl (collFail g x s) (grp g)) := by
  unfold collFail
  extract_lets c u
  exact endColl_cleared ..

end Ends

/-! ## Frames in flight -/

section Frames

variable {s t : State} {g : Grp} {q : BitVec 16} {n : BitVec 18}

theorem execArrive_inFlight (ho : collOn s g = true) (hi : inFlight s g q.toNat = true) (x : BitVec 32) (l : List Byte) :
    execArrive g q n x l s = .next (inTime g (fun s => progress g.val (recvArrive g.val n.toNat x.toNat l s)) s) := by
  unfold execArrive
  rw [if_neg (by simp [ho]), if_pos hi]

theorem execGrant_inFlight (ho : collOn s g = true) (hi : inFlight s g q.toNat = true) (x : BitVec 32) :
    execGrant g q n x s = .next (inTime g (fun s => progress g.val (recvGrant g.val n.toNat x.toNat s)) s) := by
  unfold execGrant
  rw [if_neg (by simp [ho]), if_pos hi]

/-- What happens in time, or that the member has timed out. -/
theorem inTime_or {f : State → State} {P : CollSt → Prop} (hf : (getColl (f s) g).active = false ∨ P (getColl (f s) g)) :
    (getColl (inTime g f s) g).active = false ∨ P (getColl (inTime g f s) g) := by
  unfold inTime
  split
  · have h := (originate_cleared g.val .collTimeout 0 s).inactive.1
    rw [grp_val] at h
    exact .inl h
  · exact hf

theorem recvArrive_edge {j : Nat} {sig : Nat} {l : List Byte}
    (he : nodeEdge { getColl s g with parent := none } n.toNat = some (j + 1)) (hj : j ∉ (getColl s g).arrived) :
    recvArrive g.val n.toNat sig l s = if sig ≠ signature (getColl s g) then
        originate g.val .collMismatch (edgeRank (getColl s g) (j + 1)) s
      else updColl g (fun c => { c with arrived := c.arrived ++ [j], scalars := mset [] c.scalars (j + 1) l }) s := by
  unfold recvArrive
  dsimp only
  rw [grp_val, he]
  dsimp only
  rw [if_neg (by simpa using hj)]

theorem recvGrant_edge {e k : Nat} (he : nodeEdge (getColl s g) n.toNat = some e) :
    recvGrant g.val n.toNat k s = updColl g (fun c => { c with grants := mupd 0 c.grants e (· + k) }) s := by
  unfold recvGrant
  dsimp only
  rw [grp_val, he]

theorem progress_stands (g : Grp) (s : State) : Goeson (getColl s g) (getColl (progress g.val s) g) := by
  have h := (progress_step g.val s).stands
  rwa [grp_val] at h

end Frames

/-! ## Data of an edge -/

section Data

variable {s : State} {g : Grp}

/-- Bytes once landed stay, and each that lands is there. -/
theorem mget_foldl_land (e off k : Nat) (l : List (Nat × Byte)) (m : SMap (Option Byte))
    (h : mget none m k ≠ none ∨ ∃ q ∈ l, rxKey e (off + q.1) = k) :
    mget none (l.foldl (fun m q => mset none m (rxKey e (off + q.1)) (some q.2)) m) k ≠ none := by
  induction l generalizing m with
  | nil => exact h.resolve_right (by simp)
  | cons q l ih =>
    refine ih _ ?_
    by_cases hq : rxKey e (off + q.1) = k
    · left
      rw [← hq, mget_mset_same]
      exact Option.some_ne_none _
    · rw [mget_mset_other _ _ _ hq]
      refine h.imp_right fun ⟨p, hp, hk⟩ => ⟨p, (List.mem_cons.mp hp).resolve_left ?_, hk⟩
      rintro rfl
      exact hq hk

theorem rx_landBytes {e off k : Nat} {l : List Byte} {i : Nat × Nat} (hk : k < l.length) (hi : i ∈ edgeIn (getColl s g) e)
    (hlo : i.1 ≤ off + k) (hhi : off + k < i.2) : mget none (getColl (landBytes g e off l s) g).rx (rxKey e (off + k)) ≠ none := by
  unfold landBytes
  rw [getColl_updColl_same]
  dsimp only
  refine mget_foldl_land e off _ _ _ ?_
  by_cases hr : mget none (getColl s g).rx (rxKey e (off + k)) = none
  · refine .inr ⟨(k, l[k]), List.mem_filter.mpr ⟨?_, ?_⟩, rfl⟩
    · exact List.mem_iff_getElem.mpr ⟨k, by simpa using hk, by simp⟩
    · simp only [Bool.and_eq_true, List.any_eq_true, decide_eq_true_eq, Option.isNone_iff_eq_none]
      exact ⟨⟨i, hi, hlo, hhi⟩, hr⟩
  · exact .inl hr

/-- A byte of an edge is kept, or the collective has ended. -/
def KeptByte (g : Grp) (k : Nat) (s : State) : Prop :=
  (getColl s g).active = false ∨ mget none (getColl s g).rx k ≠ none

theorem KeptByte.of_stands {t : State} {k : Nat} (h : KeptByte g k s) (hs : Goeson (getColl s g) (getColl t g)) : KeptByte g k t := by
  rcases h with h | h
  · exact .inl (hs.inactive h)
  · exact (hs.keeps (·.rx) fun _ _ _ _ _ _ _ _ => rfl).imp_right fun hr => by rw [hr]; exact h

theorem KeptByte.checkPiece {k : Nat} (h : KeptByte g k s) (e i : Nat) : KeptByte g k (checkPiece g e i s) := by
  unfold Machine.checkPiece
  dsimp only
  split
  · exact h
  · split
    · exact h
    · split
      · have hc := (originate_cleared g.val .collCheck (edgeRank (getColl s g) e) s).inactive.1
        rw [grp_val] at hc
        exact .inl hc
      · unfold KeptByte
        rw [getColl_updColl_same]
        exact h

theorem KeptByte.grantMore {k : Nat} (h : KeptByte g k s) (e n : Nat) : KeptByte g k (grantMore g e n s) := by
  unfold Machine.grantMore
  dsimp only
  split
  · split
    · exact h
    · exact h.of_stands (by rw [(sendFrame_routed ..).apart.getColl]; exact .refl _)
  · exact h

/-- The bytes of a frame within the edge's extent are kept until the collective ends (R506, R507). -/
theorem keptByte_recvData {e a o k : Nat} {l : List Byte} {i : Nat × Nat} (z : Bool) (x : Nat) (hk : k < l.length)
    (hi : i ∈ edgeIn (getColl s g) e) (hlo : i.1 ≤ a * cSherd (getColl s g).desc + o + k)
    (hhi : a * cSherd (getColl s g).desc + o + k < i.2) :
    KeptByte g (rxKey e (a * cSherd (getColl s g).desc + o + k)) (recvData g e a o z x l s) := by
  unfold recvData
  extract_lets c n u w
  have hu : KeptByte g (rxKey e (a * cSherd c.desc + o + k)) u := .inr (rx_landBytes hk hi hlo hhi)
  have hw : KeptByte g (rxKey e (a * cSherd c.desc + o + k)) w := by
    unfold w
    split
    · unfold KeptByte
      rw [getColl_updColl_same]
      exact hu
    · exact hu
  clear_value w
  exact ((hw.checkPiece e a).grantMore e n).of_stands (progress_stands ..)

end Data

/-! ## ABORT -/

section Abort

variable {s : State} {g : Grp} {q : BitVec 16} {n : BitVec 18}

theorem inFlight_facts (h : inFlight s g q.toNat = true) :
    (getColl s g).active = true ∧ (getColl s g).launched = true ∧ cSeq (getColl s g).desc % 2 ^ 16 = q.toNat := by
  unfold inFlight at h
  simp only [Bool.and_eq_true, beq_iff_eq] at h
  obtain ⟨⟨⟨-, ha⟩, hl⟩, hq⟩ := h
  exact ⟨ha, hl, hq⟩

/-- An ABORT in time ends the member with COLL_ABORT_PEER and the rank that it names (R519, R520). -/
theorem recvAbort_peer {x : Byte} {y : BitVec 32} (hi : inFlight s g q.toNat = true) (hd : s.nowNs < (getColl s g).deadline)
    (hx : x ≠ 0x23) (hy : y.toNat < 2 ^ 18) : recvAbort g.val q.toNat (some n.toNat) x.toNat y.toNat s =
      endColl g.val (some (openC .collAbortPeer y.toNat)) (some n.toNat) x.toNat y.toNat (fcount .abortsRx 0 32 1 s) := by
  obtain ⟨ha, hl, hq⟩ := inFlight_facts hi
  have hb : bitAt y.toNat 31 = false := by
    unfold bitAt
    rw [Nat.div_eq_of_lt (by omega)]
    rfl
  have hx' : x.toNat ≠ 0x23 := fun h => hx (BitVec.eq_of_toNat_eq h)
  unfold recvAbort
  extract_lets c u who
  have hc : c = getColl s g := by
    unfold c
    rw [grp_val]
  have hw : who = y.toNat := by
    unfold who
    rw [hb, if_neg (by decide), Nat.mod_eq_of_lt hy]
  have hu : ¬(u.nowNs ≥ c.deadline) := by
    rw [hc]
    exact Nat.not_le.mpr hd
  have huf : u = fcount .abortsRx 0 32 1 s := rfl
  rw [← huf]
  clear_value u who c
  rw [if_pos (by simpa [hc, ha, hl] using hq), if_neg hu, if_neg hx', hw]

end Abort

/-! ## RELEASE of a barrier -/

section Barrier

variable {s : State} {g : Grp} {c : CollSt}

/-- A member that runs a barrier under a parent, without children, and has sent its ARRIVE. -/
structure Leaf (c : CollSt) : Prop where
  kind : cKind c.desc = 0
  kids : c.kids = []
  launched : c.launched = true
  arriveSent : c.arriveSent = true

/-- A released barrier that has noted its end. -/
def barrierOver (l : List Byte) (c : CollSt) : CollSt := { c with released := true, scalars := mset [] c.scalars 0 l, written := [0] }

theorem totalBytes_barrier (h : Leaf c) : totalBytes c.desc c.members = 0 := by
  unfold totalBytes
  rw [h.kind]
  rfl

theorem sherdCount_barrier (h : Leaf c) : sherdCount c.desc c.members = 0 := by
  have hp : 0 < cSherd c.desc := by
    unfold cSherd
    positivity
  rw [sherdCount, totalBytes_barrier h]
  exact Nat.div_eq_of_lt (by omega)

theorem overlapBad_barrier (h : Leaf c) : overlapBad c.desc c.members c.rank = false := by
  have hs : srcLen c.desc c.members = 0 := by
    unfold srcLen
    rw [h.kind]
    rfl
  have hd : destLen c.desc c.members c.rank = 0 := by
    unfold destLen
    rw [h.kind]
    rfl
  unfold overlapBad
  extract_lets a b same
  rw [hs, hd]
  have hab : ¬(a < b ∧ b < a) := by omega
  simp [hab]

theorem isBad_barrier (h : Leaf c) : isBad c = false := by
  rw [isBad, collBad, sherdCount_barrier h, overlapBad_barrier h, h.kind]
  rfl

theorem barrierLike_barrier (h : Leaf c) : barrierLike c = true := by
  rw [barrierLike, totalBytes_barrier h]
  rfl

theorem edgeOut_barrier (h : Leaf c) : edgeOut c 0 = [] := by
  unfold edgeOut
  rw [if_pos rfl]
  split
  · unfold upExt
    rw [h.kind]
    rfl
  · rfl

theorem locate_nil (d : Block) (k i pos : Nat) : locate d [] k i pos = none := by
  induction k generalizing i pos with
  | zero => rfl
  | succ k ih =>
    rw [locate, if_neg (by simp [sherdOf, clip, extLen]), ih]

theorem sendEdge_barrier (h : Leaf (getColl s g)) (n : Nat) : sendEdge g.val 0 n s = s := by
  cases n with
  | zero => rfl
  | succ n =>
    rw [sendEdge]
    dsimp only
    rw [grp_val, edgeOut_barrier h, locate_nil]
    split
    · rfl
    · split
      · next hl => cases hl
      · rfl

theorem Leaf.barrierOver (h : Leaf c) (l : List Byte) : Leaf (Proofs.barrierOver l c) := ⟨h.kind, h.kids, h.launched, h.arriveSent⟩

/-- A barrier that is over has nothing left to do. -/
theorem progress_barrierOver {l : List Byte} (h : Leaf c) (hs : getColl s g = barrierOver l c) : progress g.val s = s := by
  have hl : Leaf (getColl s g) := hs ▸ h.barrierOver l
  have ha : arriveUp g.val s = s := by
    unfold arriveUp
    dsimp only
    rw [grp_val, if_pos (by simp [hl.arriveSent])]
  have hw : landScalar g.val s = s := by
    unfold landScalar
    dsimp only
    rw [grp_val, if_pos (by simp [hs, Proofs.barrierOver])]
  have he : edges (getColl s g) = [0] := by
    rw [edges, hl.kids]
    rfl
  have hm : mySherds (getColl s g) = [] := by
    rw [mySherds, sherdCount_barrier hl]
    rfl
  unfold progress
  dsimp only
  rw [ha, hw, grp_val, if_neg (by simp [hl.launched, isBad_barrier hl]), he, hm]
  exact sendEdge_barrier hl _

/-- RELEASE ends the wait of a barrier (R503). -/
theorem releaseDown_barrier (h : Leaf (getColl s g)) (hw : (getColl s g).written = []) (l : List Byte) :
    getColl (releaseDown g.val l s) g = barrierOver l (getColl s g) ∧ ∃ a, releaseDown g.val l s = { s with colls := a } := by
  unfold releaseDown
  extract_lets u c
  have hu : getColl u g = { getColl s g with released := true, scalars := mset [] (getColl s g).scalars 0 l } := by
    unfold u
    rw [grp_val, getColl_updColl_same]
  have hc : Leaf c := by
    unfold c
    rw [grp_val, hu]
    exact ⟨h.kind, h.kids, h.launched, h.arriveSent⟩
  have hcu : c = getColl u g := by
    unfold c
    rw [grp_val]
  have hland : landScalar g.val u = noteWritten g.val u := by
    unfold landScalar
    dsimp only
    rw [grp_val, ← hcu, if_neg (by rw [barrierLike_barrier hc, hcu, hu]; simp [hw]), if_neg (by simp [isBad_barrier hc]),
      if_neg (by simp [hc.kind])]
  rw [if_neg (by simp [barrierLike_barrier hc]), hc.kids, List.foldl_nil, hland, noteWritten, grp_val]
  refine ⟨?_, _, rfl⟩
  rw [getColl_updColl_same, hu]
  rfl

end Barrier

/-- Settles O44: early frames, frames in flight, RELEASE of a barrier and ABORT (R501 to R507, R519). -/
theorem collectiveFramesComplete : Obligations.CollectiveFramesComplete := by
  refine ⟨fun s g q n => ⟨fun x l => ⟨completes_continues rfl rfl, fun ho hi => ?_⟩, fun x => ⟨completes_continues rfl rfl, fun ho hi => ?_⟩,
    fun l => completes_continues rfl rfl, fun x y => completes_continues rfl rfl, fun up a o z x l => completes_continues rfl rfl⟩,
    fun s g q n l ho hi hx hp hr hk hkids ha hw hu => ?_,
    fun s g q n ho hi => ⟨fun x l j he hj => ⟨fun hx => ?_, fun f hx hn hf hfin => ?_⟩, fun x e he => ?_, fun up a o z x l e hb he hup => ?_⟩,
    fun s g q n x y f ho hi hd hx hy hf hfin => ?_⟩
  · refine ⟨_, (show execArrive g q n x l s = _ from (congrArg Host.Outcome.next
      ((if_neg (by simp [ho])).trans (if_neg (by simp [hi]))))), ?_, rfl⟩
    exact getColl_updColl_same ..
  · refine ⟨_, (show execGrant g q n x s = _ from (congrArg Host.Outcome.next
      ((if_neg (by simp [ho])).trans (if_neg (by simp [hi]))))), ?_, rfl⟩
    exact getColl_updColl_same ..
  · obtain ⟨-, hl, -⟩ := inFlight_facts hi
    have hleaf : Leaf (getColl s g) := ⟨hk, hkids, hl, ha⟩
    obtain ⟨hc, a, hs⟩ := releaseDown_barrier hleaf hw l
    have he : execRelease g q n l s = .next (releaseDown g.val l s) := by
      unfold execRelease
      rw [if_neg (by simp [ho, hi, hp, hr]), inTime, if_neg (by simp [hx]), progress_barrierOver hleaf hc]
    refine ⟨_, he, by rw [hc]; rfl, ?_, by rw [hs]⟩
    have hu' : underWay (releaseDown g.val l s) (jobWrites (collVi (getColl s g)) (getColl s g).idx) = false := by
      rw [hs]
      exact hu
    rw [collDone, hc, if_pos (barrierLike_barrier (hleaf.barrierOver l)), show (barrierOver l (getColl s g)).launched = true from hl,
      show (barrierOver l (getColl s g)).arriveSent = true from ha,
      show underWay _ (jobWrites (collVi (barrierOver l (getColl s g))) (barrierOver l (getColl s g)).idx) = false from hu']
    simp [barrierOver]
  · refine ⟨_, execArrive_inFlight ho hi x l, inTime_or (P := fun c => j ∈ c.arrived) ?_⟩
    rw [recvArrive_edge he hj, if_neg (not_not_intro hx)]
    have h := (progress_stands g (updColl g (fun c => { c with arrived := c.arrived ++ [j], scalars := mset [] c.scalars (j + 1) l }) s)).keeps
      (·.arrived) fun _ _ _ _ _ _ _ _ => rfl
    refine h.imp_right fun h => ?_
    rw [h, getColl_updColl_same]
    simp
  · have hrec : recvArrive g.val n.toNat x.toNat l s = originate g.val .collMismatch (edgeRank (getColl s g) (j + 1)) s :=
      (recvArrive_edge he hj).trans (if_pos hx)
    have hc := originate_cleared g.val .collMismatch (edgeRank (getColl s g) (j + 1)) s
    refine ⟨_, execArrive_inFlight ho hi x l, ?_⟩
    rw [inTime, if_neg (by simp [hn]), hrec, progress_cleared hc]
    have hend := ended_originate (g := g.val) .collMismatch (edgeRank (getColl s g) (j + 1)) (grp_val g ▸ hf) hfin
    rw [grp_val] at hc hend
    exact ⟨hc.inactive.1, hend⟩
  · refine ⟨_, execGrant_inFlight ho hi x, inTime_or (P := fun c => grantsOf c e = grantsOf (getColl s g) e + x.toNat) ?_⟩
    rw [recvGrant_edge he]
    have h := (progress_stands g (updColl g (fun c => { c with grants := mupd 0 c.grants e (· + x.toNat) }) s)).keeps
      (grantsOf · e) fun _ _ _ _ _ _ _ _ => rfl
    refine h.imp_right fun h => ?_
    rw [h, getColl_updColl_same]
    simp [grantsOf]
  · have hup' : ((e == 0) == up) = false := by
      rw [hup]
      cases e <;> rfl
    have hex : execCollDataRx g q n up a o z x l s = .next (inTime g (recvData g e a.toNat o.toNat z x.toNat l) s) := by
      unfold execCollDataRx
      rw [if_neg (by simp [ho, hi, hb]), he]
      dsimp only
      rw [if_neg (by simp [hup'])]
    refine ⟨_, hex, inTime_or (P := fun c' => ∀ k i, k < l.length → i ∈ edgeIn (getColl s g) e →
      i.1 ≤ a.toNat * cSherd (getColl s g).desc + o.toNat + k → a.toNat * cSherd (getColl s g).desc + o.toNat + k < i.2 →
      mget none c'.rx (rxKey e (a.toNat * cSherd (getColl s g).desc + o.toNat + k)) ≠ none) ?_⟩
    refine or_iff_not_imp_left.mpr fun ha k i hk hi hlo hhi => ?_
    exact (keptByte_recvData z x.toNat hk hi hlo hhi).resolve_left ha
  · refine ⟨_, congrArg Host.Outcome.next ((if_pos ho).trans (recvAbort_peer hi hd hx hy)), ?_⟩
    have hc := endColl_cleared g.val (some (openC .collAbortPeer y.toNat)) (some n.toNat) x.toNat y.toNat (fcount .abortsRx 0 32 1 s)
    have hf' : flyOf s (collVi (getColl s (grp g.val))) (getColl s (grp g.val)).idx = some f := by
      rw [grp_val]
      exact hf
    have hend := (fcount_routed (f := .abortsRx) (i := 0) (by decide) (by decide) 32 1 s).ended_endColl (n := some n.toNat) (k := x.toNat) (a := y.toNat)
      (openC .collAbortPeer y.toNat) hf' hfin
    rw [grp_val] at hc hend
    exact ⟨hc.inactive.1, hend⟩

end Sys2Proof.Proofs

/-! PROOFS. Staging, the deadline and the end of a collective (R499, R503, R514 to R518). -/

namespace Sys2Proof.Proofs

open Sys2Proof.Machine Sys2Proof.Laws

section CollEnds

variable {s t u : State} {g : Grp} {f : Fly}

/-- A collective that is done does not time out. -/
theorem expired_of_done (h : collDone s (getColl s g) = true) : expired s g = false := by
  unfold expired
  simp [h]

theorem flyOf_grp (hf : flyOf s (collVi (getColl s g)) (getColl s g).idx = some f) :
    flyOf s (collVi (getColl s (grp g.val))) (getColl s (grp g.val)).idx = some f := by
  rw [grp_val]
  exact hf

theorem execCollComplete_failed {x : Compl} (hr : collRuns s g = true) (ha : (getColl s g).active = true)
    (hd : collDone s (getColl s g) = true) (hf : flyOf s (collVi (getColl s g)) (getColl s g).idx = some f) (hx : f.fail = some x) :
    execCollComplete g s = .next (collFail g.val x s) := by
  unfold execCollComplete
  dsimp only
  rw [if_neg (by simp [hr, ha]), inTime, if_neg (by simp [expired_of_done hd]), if_neg (by simp [hd]), hf, Option.bind_some, hx]

/-- A collective that has come to its end, its COLL ended with what is given. -/
def collOver (g : Grp) (v : Vi) (j : Job) (n : Nat) (x : Compl) (s : State) : State :=
  clearColl g.val (noteLast g.val n false (finish v j x s))

theorem collOver_same (g : Grp) (v : Vi) (j : Job) (n : Nat) (x : Compl) (s : State) : ∃ a b c d e k q, collOver g v j n x s =
    { s with hret := a, mesh := b, hl := c, hblocks := d, colls := e, collLast := k, vis := q } := by
  obtain ⟨q, hq⟩ : ∃ q, finish v j x s = { s with vis := q } := ⟨_, rfl⟩
  obtain ⟨a, b, c, d, e, h⟩ := clearColl_same g.val (noteLast g.val n false { s with vis := q })
  unfold collOver
  rw [hq, h]
  exact ⟨a, b, c, d, e, _, q, rfl⟩

theorem collOver_inactive (g : Grp) (v : Vi) (j : Job) (n : Nat) (x : Compl) (s : State) :
    (getColl (collOver g v j n x s) g).active = false := by
  have h := getColl_clearColl g.val (noteLast g.val n false (finish v j x s))
  rw [grp_val] at h
  exact h.inactive.1

theorem ended_collOver {v : Vi} {j : Job} (hf : flyOf s v j = some f) (hn : f.fin = none) (n : Nat) (x : Compl) :
    Ended (collOver g v j n x s) v j.idx x := by
  obtain ⟨hm, hi⟩ := flyOf_mem hf
  have h := ended_finish x hm rfl hn
  rw [hi] at h
  exact ended_of_vis (clearColl_vis ..) h

theorem execCollComplete_done (hr : collRuns s g = true) (ha : (getColl s g).active = true) (hd : collDone s (getColl s g) = true)
    (hf : flyOf s (collVi (getColl s g)) (getColl s g).idx = some f) (hx : f.fail = none) :
    execCollComplete g s = .next (collOver g (collVi (getColl s g)) (getColl s g).idx (cSeq (getColl s g).desc)
      (okC (destLen (getColl s g).desc (getColl s g).members (getColl s g).rank)) s) := by
  unfold execCollComplete
  dsimp only
  rw [if_neg (by simp [hr, ha]), inTime, if_neg (by simp [expired_of_done hd]), if_neg (by simp [hd]), hf, Option.bind_some, hx]
  rfl

/-- Bytes that have been read touch no engine and no memory. -/
structure ReadOnly (s t : State) : Prop where
  engs : t.engs = s.engs
  mem : t.mem = s.mem

theorem touchAll_readOnly (v : Vi) (n : Nat) (l : List Piece) (s : State) : ReadOnly s (touchAll v n l s) := by
  unfold touchAll
  split
  · refine foldl_same (P := ReadOnly) (fun _ => ⟨rfl, rfl⟩) (fun _ _ _ h k => ⟨k.engs.trans h.engs, k.mem.trans h.mem⟩) (fun s p => ?_) l s
    split
    · exact ⟨rfl, rfl⟩
    · exact ⟨rfl, rfl⟩
  · exact ⟨rfl, rfl⟩

theorem srcBytes_readOnly {c : CollSt} {a n : Nat} {l : List Byte} (h : srcBytes g.val c a n s = (.ok l, u)) : ReadOnly s u := by
  unfold srcBytes at h
  dsimp only at h
  split at h
  · cases h
  · split at h
    · cases h
      obtain ⟨he, hm⟩ := touchAll_readOnly (collVi c) 2 (piecesOf s (.coll (fluef g.val)) (collVi c) 2 a n) s
      exact ⟨he, hm⟩
    · cases h
    · cases h
    · cases h

/-- A sherd placed in its slot, with its flag SET. -/
def sherdPlaced (g : Grp) (e : Eng) (k o i : Nat) (l : List Byte) (u : State) : State :=
  updColl g (fun c => { c with placed := c.placed ++ [i] })
    (updEng e (fun y => { y with flags := mset .clear y.flags k .set }) (spWrite e o l u))

theorem getColl_updEng (e : Eng) (f : EngSt → EngSt) (u : State) : getColl (updEng e f u) g = getColl u g := rfl

theorem getColl_sherdPlaced (g : Grp) (e : Eng) (k o i : Nat) (l : List Byte) (u : State) :
    getColl (sherdPlaced g e k o i l u) g = { getColl u g with placed := (getColl u g).placed ++ [i] } := by
  rw [sherdPlaced, getColl_updColl_same, getColl_updEng, spWrite, getColl_updEng]

theorem sherdPlaced_mem (g : Grp) (e : Eng) (k o i : Nat) (l : List Byte) (u : State) : (sherdPlaced g e k o i l u).mem = u.mem := by
  rw [sherdPlaced, updColl_mem, updEng_mem, spWrite, updEng_mem]

theorem eng_updColl (f : CollSt → CollSt) (u : State) : eng (updColl g f u) = eng u := rfl

theorem eng_sherdPlaced (g : Grp) (e : Eng) (k o i : Nat) (l : List Byte) (u : State) :
    eng (sherdPlaced g e k o i l u) e = { eng (spWrite e o l u) e with flags := mset .clear (eng (spWrite e o l u) e).flags k .set } := by
  rw [sherdPlaced, eng_updColl, eng_updEng_same]

/-- A sherd whose bytes can be read and whose slot lies in the window is copied. -/
theorem placeSherd_places {c : CollSt} {e : Eng} {b i o : Nat} {l : List Byte}
    (hsrc : srcBytes g.val c (cDst c.desc + destOff c.desc c.rank
      (((sherdOf c.desc (destExt c.desc c.members c.rank) i).head?.map Prod.fst).getD 0))
      (extLen (sherdOf c.desc (destExt c.desc c.members c.rank) i)) s = (.ok l, u))
    (ho : spWindow u (.coll (fluef g.val)) (collVi c) (c.stageSp * 2 ^ 17 + i % max 1 c.stageSlots * cSherd c.desc) l.length = some o) :
    placeSherd g.val c e b i s = sherdPlaced g e (b + i % max 1 c.stageSlots) o i l u := by
  unfold placeSherd
  extract_lets x lo j
  rw [hsrc]
  dsimp only
  rw [ho, grp_val, sherdPlaced]

/-- The first sherd that may be copied is copied (R514 to R516). -/
theorem execStagePlace_places {e : Eng} {b i o : Nat} {l : List Byte} (hr : collRuns s g = true) (ha : (getColl s g).active = true)
    (hl : (getColl s g).launched = true) (hx : expired s g = false) (hs : cStaged (getColl s g).desc = true)
    (hb : isBad (getColl s g) = false) (he : flagEng s (getColl s g) = some e)
    (hw : flagWindow s (.coll (fluef g.val)) (collVi (getColl s g)) (cFlagBase (getColl s g).desc) = some b)
    (hi : (mySherds (getColl s g)).find? (placeable s (getColl s g) e b) = some i)
    (hsrc : srcBytes g.val (getColl s g) (cDst (getColl s g).desc + destOff (getColl s g).desc (getColl s g).rank
      (((sherdOf (getColl s g).desc (destExt (getColl s g).desc (getColl s g).members (getColl s g).rank) i).head?.map Prod.fst).getD 0))
      (extLen (sherdOf (getColl s g).desc (destExt (getColl s g).desc (getColl s g).members (getColl s g).rank) i)) s = (.ok l, u))
    (ho : spWindow u (.coll (fluef g.val)) (collVi (getColl s g)) ((getColl s g).stageSp * 2 ^ 17 +
      i % max 1 (getColl s g).stageSlots * cSherd (getColl s g).desc) l.length = some o) :
    execStagePlace g s = .next (sherdPlaced g e (b + i % max 1 (getColl s g).stageSlots) o i l u) := by
  unfold execStagePlace
  dsimp only
  rw [if_neg (by simp [hr, ha, hl, hs, hb]), inTime, if_neg (by simp [hx]), he, hw]
  dsimp only
  rw [hi]
  exact congrArg Host.Outcome.next (placeSherd_places hsrc ho)

end CollEnds

/-- Settles O45: staging, the deadline and the completion of a collective (R499, R503, R514 to R518). -/
theorem collectiveEndsComplete : Obligations.CollectiveEndsComplete := by
  refine fun s g => ⟨completes_continues rfl rfl, completes_continues rfl rfl, completes_continues rfl rfl, fun hx => ?_,
    fun hr f hf hfin => ⟨fun hx => ?_, fun ha hd hfail => ?_, fun x ha hd hfail => ?_⟩,
    fun hr ha hl hx e b i l u o hs hb he hw hi hsrc ho => ?_⟩
  · refine ⟨s, ?_, rfl⟩
    change execCollDeadline g s = _
    unfold execCollDeadline
    split
    · rw [inTime, if_neg (by simp [hx])]
      rfl
    · rfl
  · have hc := originate_cleared g.val .collTimeout 0 s
    have hend := ended_originate .collTimeout 0 (flyOf_grp hf) hfin
    rw [grp_val] at hc hend
    exact ⟨_, congrArg Host.Outcome.next ((if_pos hr).trans (if_pos hx)), hc.inactive.1, hend⟩
  · obtain ⟨a, b, c, d, e, k, q, h⟩ := collOver_same g (collVi (getColl s g)) (getColl s g).idx (cSeq (getColl s g).desc)
      (okC (destLen (getColl s g).desc (getColl s g).members (getColl s g).rank)) s
    exact ⟨_, execCollComplete_done hr ha hd hf hfail, collOver_inactive .., ended_collOver hf hfin .., by rw [h]⟩
  · have hc := collFail_cleared g.val x s
    have hend := ended_collFail x (flyOf_grp hf) hfin
    rw [grp_val] at hc hend
    exact ⟨_, execCollComplete_failed hr ha hd hf hfail, hc.inactive.1, hend⟩
  · have hro := srcBytes_readOnly hsrc
    have hap : Apart s u := by
      have h := srcBytes_apart g.val (getColl s g) (cDst (getColl s g).desc + destOff (getColl s g).desc (getColl s g).rank
        (((sherdOf (getColl s g).desc (destExt (getColl s g).desc (getColl s g).members (getColl s g).rank) i).head?.map
          Prod.fst).getD 0))
        (extLen (sherdOf (getColl s g).desc (destExt (getColl s g).desc (getColl s g).members (getColl s g).rank) i)) s
      rwa [hsrc] at h
    have heng : eng u e = eng s e := by rw [eng, eng, hro.engs]
    refine ⟨_, execStagePlace_places hr ha hl hx hs hb he hw hi hsrc ho, ?_, ?_, ?_, (sherdPlaced_mem ..).trans hro.mem⟩
    · intro k
      rw [eng_sherdPlaced]
      exact scratchHolds_spWrite (congrArg (·.scratch) heng) o l k
    · rw [flagAt, eng_sherdPlaced]
      simp
    · rw [getColl_sherdPlaced, hap.getColl]

end Sys2Proof.Proofs

/-! PROOFS. What the home makes of responses, snoops and the host's answers (R179 to R200). -/

namespace Sys2Proof.Proofs

open Sys2Proof.Machine Sys2Proof.Laws

/-! ## Lines that become idle -/

section Idle

variable {s t : State} {l : LineA} {d : Dir}

/-- No aged request waits for the line or for a place in its set. -/
def NoneWait (s : State) (l : LineA) : Prop := ∀ a ∈ s.aged, a.line.toNat % 65536 ≠ l.toNat % 65536

theorem takeAged_none {p : Aged → Bool} {q : List Aged} (h : ∀ a ∈ q, p a = false) : takeAged p q = none := by
  induction q with
  | nil => rfl
  | cons a q ih =>
    rw [takeAged, if_neg (by simp [h a List.mem_cons_self]), ih fun b hb => h b (List.mem_cons_of_mem a hb)]
    rfl

theorem serveQueue_none (h : NoneWait s l) (n : Nat) : serveQueue l n s = s := by
  have hl : takeAged (fun a => a.line == l) s.aged = none :=
    takeAged_none fun a ha => beq_eq_false_iff_ne.mpr fun he => h a ha (by rw [he])
  have hset : takeAged (fun a => a.line.toNat % 65536 == l.toNat % 65536 && !hasEntry s a.line) s.aged = none :=
    takeAged_none fun a ha => by simp [h a ha]
  cases n with
  | zero => rfl
  | succ n =>
    rw [serveQueue]
    split
    · rfl
    · rw [hl]
      dsimp only
      rw [hset]
      dsimp only
      split <;> rfl

/-- A line for which nothing waits and that has its owner becomes idle, and nothing else happens. -/
theorem toIdle_quiet (hh : d.held = []) (hn : NoneWait s l) (ho : d.h = .x → d.owner.isSome = true) :
    toIdle l d s = putDir l (idleDir d) s := by
  have hs : settleLine l d s = putDir l (idleDir d) s := by
    unfold settleLine
    refine if_neg ?_
    simp only [Bool.and_eq_true, decide_eq_true_eq, not_and, Bool.not_eq_true]
    intro hx
    have := ho hx
    simp only [Option.isSome_iff_exists] at this
    obtain ⟨o, ho⟩ := this
    rw [ho]
    rfl
  rw [toIdle, hs, hh, wakeLine, List.foldl_nil]
  exact serveQueue_none (s := putDir l (idleDir d) s) hn _

theorem idleDir_hs (d : Dir) : (idleDir d).hs = .idle := by
  unfold idleDir
  split <;> rfl

theorem idleDir_p (d : Dir) : (idleDir d).p = d.p := by
  unfold idleDir
  split
  · next h => rw [List.isEmpty_iff.mp h]
  · rfl

/-- A line that is written out leaves the directory. -/
theorem freeLine_quiet (hh : d.held = []) (hn : NoneWait s l) : freeLine l d s = putDir l {} s :=
  (toIdle_quiet (d := { d with p := [], h := .i, owner := none, hs := .idle }) hh hn (fun h => nomatch h)).trans rfl

end Idle

/-! ## Replies -/

section Replies

variable {s : State} {l : LineA} {d : Dir} {r : Holder}

/-- The entry of a line whose data has been sent to a new sharer (R179). -/
def sharedWith (r : Holder) (d : Dir) : Dir := { d with
  hs := .waitDone, req := some (.getS, r), await := [], todo := none, hostData := none, data := none, hostReq := none
  reissues := 0, snoop := none, h := if d.h = .i then .s else d.h, p := if d.p.contains r then d.p else d.p ++ [r] }

theorem mem_sharedWith (r : Holder) (d : Dir) : r ∈ (sharedWith r d).p := by
  change r ∈ if d.p.contains r then d.p else d.p ++ [r]
  split
  · next h => exact List.contains_iff_mem.mp h
  · simp

theorem toHolder_dataS (r : Holder) (l : LineA) (b : Block) (z : Bool) (s : State) : toHolder r l "DataS" (some (b, z)) s =
    homeSends r .response (.datas r l b z) (some b) (.toHolder r l "DataS" (some (b, z))) s := toHolder_eq rfl s

/-- The reply to GETS, with the data that the host or a holder gave. -/
theorem replyReq_getS {b : Block} {z : Bool} (h : d.hostData = some (b, z) ∨ d.hostData = none ∧ ∃ y, d.data = some (b, z, y)) :
    replyReq l .getS r d s =
      homeSends r .response (.datas r l b z) (some b) (.toHolder r l "DataS" (some (b, z))) (putDir l (sharedWith r d) s) := by
  rw [← toHolder_dataS]
  unfold replyReq
  dsimp only
  rcases h with h | ⟨h, y, hd⟩
  · rw [h]
    rfl
  · rw [h, hd]
    rfl

theorem getDir_homeSends (h : Holder) (cls : MCls) (c : Instr) (x : Option Block) (e : Emit) (s : State) (m : LineA) :
    getDir (homeSends h cls c x e s) m = getDir s m := rfl

/-- What the home has gathered for GETS is sent to the holder that asked. -/
theorem gathered_replies {b : Block} {z : Bool} (ha : (getDir s l).await = []) (hs : (getDir s l).snoop = none)
    (hw : (getDir s l).hs = .waitLocal ∧ (∃ x, (getDir s l).todo = some (.reply .getS r x)) ∨
      (getDir s l).hs = .waitHost ∧ (∃ x, (getDir s l).hostData = some x) ∧ (getDir s l).req = some (.getS, r))
    (hd : (getDir s l).hostData = some (b, z) ∨ (getDir s l).hostData = none ∧ ∃ y, (getDir s l).data = some (b, z, y)) :
    gathered l s = homeSends r .response (.datas r l b z) (some b) (.toHolder r l "DataS" (some (b, z)))
      (putDir l (sharedWith r (getDir s l)) (putDir l (getDir s l) s)) := by
  rw [← replyReq_getS hd]
  unfold gathered
  dsimp only
  rw [if_neg (by simp [ha]), hs]
  dsimp only
  rcases hw with ⟨hw, x, hx⟩ | ⟨hw, ⟨x, hx⟩, hr⟩
  · rw [hw, hx]
  · rw [hw, hx, hr]

end Replies

/-! ## Domain-down leaves nothing of the home -/

section Down

variable {s t : State}

/-- No VI has anything to write. -/
def NoOutq (s : State) : Prop := ∀ v, (getVi s v).outq = []

theorem NoOutq.of_vis (h : NoOutq s) (hv : t.vis = s.vis) : NoOutq t := fun v => by
  rw [getVi_of_vis hv]
  exact h v

theorem NoOutq.updVi (h : NoOutq s) (v : Vi) (f : ViSt → ViSt) (hf : ∀ x : ViSt, x.outq = [] → (f x).outq = []) :
    NoOutq (updVi v f s) := by
  intro w
  by_cases hw : v = w
  · subst hw
    rw [getVi_updVi_same]
    exact hf _ (h v)
  · rw [getVi_updVi_other _ hw]
    exact h w

theorem NoOutq.storeEnds (h : NoOutq s) (w : Who) (st : Status) : NoOutq (storeEnds w st s) := by
  unfold Machine.storeEnds
  split
  · split
    · exact h.of_vis rfl
    · exact h.updVi _ _ fun _ hx => hx
  · exact h.updVi _ _ fun _ hx => hx
  · exact h.updVi _ _ fun _ hx => hx
  · exact h

theorem NoOutq.accessEnds (h : NoOutq s) (r : Holder) (l : LineA) (w : Who) (st : Status) : NoOutq (accessEnds r l w st s) := by
  unfold Machine.accessEnds
  split
  · exact h
  · exact h.storeEnds _ _
  · exact h.storeEnds _ _
  · exact h.storeEnds _ _
  · exact h.of_vis rfl
  · exact h.of_vis rfl

theorem NoOutq.stopVi (h : NoOutq s) (v : Vi) (c : Nat) (p : Bool) : NoOutq (stopVi v c p s) := by
  have hu := h.updVi v (fun x => { x with
    stopped := true, stopCause := c, stopPoison := p, fetched := [], fetching := 0, outq := x.outq.filter staysOut,
    dbReading := false, mbReading := false, dbWatched := false, mbWatched := false, dbPolled := false, mbPolled := false })
    fun x hx => by
      change x.outq.filter staysOut = []
      rw [hx]
      rfl
  exact hu.of_vis (raiseVec_vis ..)

theorem NoOutq.foldl {α : Type} {f : State → α → State} (hf : ∀ s x, NoOutq s → NoOutq (f s x)) (l : List α) (h : NoOutq s) :
    NoOutq (l.foldl f s) :=
  foldl_same (P := fun s t => NoOutq s → NoOutq t) (fun _ h => h) (fun _ _ _ h k x => k (h x)) hf l s h

/-- The domain is down: the home and the holders are empty, and no VI has anything to write. -/
structure Down (s : State) : Prop where
  down : s.domainDown = true
  dir : s.dir = []
  hl : s.hl = []
  outq : NoOutq s

theorem stopVi_home (v : Vi) (c : Nat) (p : Bool) (s : State) : (stopVi v c p s).domainDown = s.domainDown ∧
    (stopVi v c p s).dir = s.dir ∧ (s.hl = [] → (stopVi v c p s).hl = []) := by
  unfold stopVi
  obtain ⟨q, hq⟩ : ∃ q, updVi v (fun x => { x with
    stopped := true, stopCause := c, stopPoison := p, fetched := [], fetching := 0, outq := x.outq.filter staysOut,
    dbReading := false, mbReading := false, dbWatched := false, mbWatched := false, dbPolled := false, mbPolled := false }) s =
      { s with vis := q } := ⟨_, rfl⟩
  rw [hq]
  obtain ⟨o, f, h⟩ := raiseVec_same v vecError (emit (.aer (pfVi (portOf v)) false) (forget (ringRead v) { s with vis := q }))
  rw [h]
  exact ⟨rfl, rfl, fun hl => List.map_eq_nil_iff.mpr hl⟩

theorem Down.stopVi (h : Down s) (v : Vi) (c : Nat) (p : Bool) : Down (stopVi v c p s) := by
  obtain ⟨hd, hdir, hhl⟩ := stopVi_home v c p s
  exact ⟨hd.trans h.down, hdir.trans h.dir, hhl h.hl, h.outq.stopVi _ _ _⟩

/-- A device that has gone domain-down, with what was told of it. -/
theorem down_domainFall (cause : Nat) (h : s.domainDown = false) (ho : NoOutq s) : Down (domainFall cause s) := by
  unfold domainFall
  rw [if_neg (by simp [h])]
  extract_lets u w f e
  have hu : u.domainDown = true ∧ NoOutq u := by
    obtain ⟨a, b, hr⟩ := report_same .home 0x40 cause none none { s with domainDown := true }
    exact ⟨by rw [show u = _ from hr], ho.of_vis (by rw [show u = _ from hr])⟩
  have hw : w.domainDown = true ∧ NoOutq w := by
    unfold w
    split
    · exact hu
    · exact ⟨hu.1, hu.2.of_vis rfl⟩
  have hf : f.domainDown = true ∧ NoOutq f := by
    refine ⟨?_, NoOutq.foldl (fun s x h => h.accessEnds _ _ _ _) _ hw.2⟩
    rw [show f.domainDown = w.domainDown by rw [show f = failAll w from rfl, (failAll_ringwise w).same]]
    exact hw.1
  have he : Down e := ⟨hf.1, rfl, rfl, hf.2.of_vis rfl⟩
  exact foldl_same (P := fun s t => Down s → Down t) (fun _ h => h) (fun _ _ _ h k x => k (h x)) (fun s v h => h.stopVi _ _ _) _ e he

theorem Down.stopRing (h : Down s) (v : Vi) (c : Nat) (p : Bool) : Down (stopRing v c p s) := by
  unfold Machine.stopRing
  split
  · exact h
  · obtain ⟨a, b, hr⟩ := report_same .ring 0x41 c (some v.val) (partOf s v) s
    have hd : Down (report .ring 0x41 c (some v.val) (partOf s v) s) := by
      rw [hr]
      exact ⟨h.down, h.dir, h.hl, h.outq.of_vis rfl⟩
    exact hd.stopVi _ _ _

/-- Nothing of the ring engine reaches the home any more. -/
theorem Down.pumpAll (h : Down s) : Down (pumpAll s) := by
  have hstep (s : State) (v : Vi) (h : Down s) : Down (pump v (flagFails v s)) := by
    have hf : Down (flagFails v s) := by
      unfold flagFails
      split
      · exact h
      · exact Down.stopRing (s := dropRet (.flag v) s) ⟨h.down, h.dir, h.hl, h.outq.of_vis rfl⟩ _ _ _
    rw [pump, hf.outq v]
    exact hf
  unfold Machine.pumpAll
  split
  · exact h
  · exact foldl_same (P := fun s t => Down s → Down t) (fun _ h => h) (fun _ _ _ h k x => k (h x)) (fun s p h => hstep s _ h) _ s h

end Down

/-! ## Answers -/

section Answers

variable {s : State} {l : LineA} {d : Dir} {r : Holder}

/-- The data of a line sent to the holder that asked for it, and its entry. -/
def replied (l : LineA) (r : Holder) (b : Block) (z : Bool) (d : Dir) (s : State) : State :=
  homeSends r .response (.datas r l b z) (some b) (.toHolder r l "DataS" (some (b, z)))
    (putDir l (sharedWith r d) (putDir l d (putDir l d s)))

theorem getDir_replied (b : Block) (z : Bool) : getDir (replied l r b z d s) l = sharedWith r d := by
  rw [replied, getDir_homeSends, getDir_putDir_same]

theorem getDir_replied_other (b : Block) (z : Bool) {m : LineA} (hm : m ≠ l) : getDir (replied l r b z d s) m = getDir s m := by
  rw [replied, getDir_homeSends, getDir_putDir_other hm, getDir_putDir_other hm, getDir_putDir_other hm]

theorem putDir_dir (l : LineA) (d : Dir) (s : State) : ∃ a, putDir l d s = { s with dir := a } := ⟨_, rfl⟩

theorem replied_same (b : Block) (z : Bool) : ∃ a, replied l r b z d s = { s with
    dir := a, mesh := s.mesh ++ [homePacket r .response (.datas r l b z) (some b)]
    out := s.out ++ [.toHolder r l "DataS" (some (b, z))] } := by
  obtain ⟨a, ha⟩ := putDir_dir l d s
  obtain ⟨b, hb⟩ := putDir_dir l d { s with dir := a }
  obtain ⟨c, hc⟩ := putDir_dir l (sharedWith r d) { s with dir := b }
  rw [replied, ha, hb, hc]
  exact ⟨c, rfl⟩

/-- A gathered line is answered from its entry. -/
theorem gathered_replied {b : Block} {z : Bool} (ha : d.await = []) (hs : d.snoop = none)
    (hw : d.hs = .waitLocal ∧ (∃ x, d.todo = some (.reply .getS r x)) ∨
      d.hs = .waitHost ∧ (∃ x, d.hostData = some x) ∧ d.req = some (.getS, r))
    (hd : d.hostData = some (b, z) ∨ d.hostData = none ∧ ∃ y, d.data = some (b, z, y)) :
    gathered l (putDir l d s) = replied l r b z d s := by
  have h : getDir (putDir l d s) l = d := getDir_putDir_same ..
  have hg := gathered_replies (s := putDir l d s) (l := l) (r := r) (b := b) (z := z)
  rw [h] at hg
  exact hg ha hs hw hd

theorem hostGo_replied {b : Block} (hw : (getDir s l).hs = .waitHost) (ha : (getDir s l).await = [])
    (hr : (getDir s l).req = some (.getS, r)) (hs : (getDir s l).snoop = none) :
    hostGo l b false s = replied l r b false { getDir s l with hostData := some (b, false), hostReq := none, hs := .waitHost } s := by
  unfold hostGo
  dsimp only
  rw [hw]
  dsimp only
  rw [if_pos (by rw [ha]; rfl), notePoison, if_neg (by decide)]
  exact gathered_replied ha hs (.inr ⟨rfl, ⟨_, rfl⟩, hr⟩) (.inl rfl)

/-- An entry whose request has failed: the holder that asked leaves it (R191, R198). -/
def nacked (r : Holder) (d : Dir) : Dir := { d with
  req := none, hostReq := none, hostData := none, reissues := 0, p := d.p.filter fun h => h != r }

theorem nackReq_idle {k : ReqKind} (hr : (getDir s l).req = some (k, r)) (ha : (getDir s l).await = [])
    (hh : (getDir s l).held = []) (hn : NoneWait s l) (ho : (getDir s l).h = .x → (getDir s l).owner.isSome = true) :
    nackReq l .idle s = putDir l (idleDir (nacked r (getDir s l))) (homeSends r .response (.nackp r l) none
      (.toHolder r l "NackP" none) s) := by
  unfold nackReq
  dsimp only
  rw [hr]
  dsimp only
  rw [if_neg (by decide), if_pos (by simp [ha]), toHolder_nackP]
  exact toIdle_quiet (d := nacked r (getDir s l)) hh hn ho

theorem nackReq_orphan {k : ReqKind} (hr : (getDir s l).req = some (k, r)) :
    nackReq l .orphan s = putDir l { nacked r (getDir s l) with hs := .orphan, await := [] }
      (homeSends r .response (.nackp r l) none (.toHolder r l "NackP" none) s) := by
  unfold nackReq
  dsimp only
  rw [hr]
  dsimp only
  rw [if_pos rfl, toHolder_nackP]
  rfl

/-! ### The poison log (R628) -/

/-- A poison event of a line, logged and reported. -/
def poisonNoted (l : LineA) (k c : Nat) (s : State) : State := report .home c (hostAddr l) none none (logPoison l k s)

theorem logPoison_fieldsBut (l : LineA) (k : Nat) (s : State) :
    FieldsBut s (logPoison l k s) [.plValid, .plCause, .plAddr, .plOverrun] := by
  have ho : FieldsBut s (if fget s .plValid = 1 then fset .plOverrun 0 1 s else s) [.plOverrun] := by
    split
    · exact fset_fieldsBut (i := 0) (by decide) .plOverrun 1 s
    · exact fun _ _ _ _ => rfl
  unfold logPoison
  extract_lets u
  intro f i hi hf
  simp only [List.mem_cons, List.not_mem_nil, or_false, not_or] at hf
  obtain ⟨hv, hc, ha, hov⟩ := hf
  have hz : 0 < 2 ^ 20 := by decide
  rw [fset_fieldsBut hz _ _ _ f i hi (by simpa using hv), fset_fieldsBut hz _ _ _ f i hi (by simpa using hc),
    fset_fieldsBut hz _ _ _ f i hi (by simpa using ha)]
  exact ho f i hi (by simpa using hov)

theorem fget_logPoison (l : LineA) (k : Nat) (s : State) : fget (logPoison l k s) .plValid = 1 ∧
    fget (logPoison l k s) .plCause = k ∧ fget (logPoison l k s) .plAddr = l.toNat := by
  unfold logPoison
  extract_lets u
  have hz : 0 < 2 ^ 20 := by decide
  refine ⟨fget_fset_same .., ?_, ?_⟩
  · rw [fget_fset_other _ hz hz (.inl (by decide)), fget_fset_same]
  · rw [fget_fset_other _ hz hz (.inl (by decide)), fget_fset_other _ hz hz (.inl (by decide)), fget_fset_same]

theorem poisonNoted_fieldsBut (l : LineA) (k c : Nat) (s : State) :
    FieldsBut s (poisonNoted l k c s) [.plValid, .plCause, .plAddr, .plOverrun, .missed] :=
  FieldsBut.trans' (logPoison_fieldsBut l k s) (report_fieldsBut .home c (hostAddr l) none none (logPoison l k s)) (by simp) (by simp)

theorem fget_poisonNoted (l : LineA) (k c : Nat) (s : State) : fget (poisonNoted l k c s) .plValid = 1 ∧
    fget (poisonNoted l k c s) .plCause = k ∧ fget (poisonNoted l k c s) .plAddr = l.toNat := by
  have h := report_fieldsBut .home c (hostAddr l) none none (logPoison l k s)
  obtain ⟨hv, hc, ha⟩ := fget_logPoison l k s
  exact ⟨(h _ _ (by decide) (by decide)).trans hv, (h _ _ (by decide) (by decide)).trans hc, (h _ _ (by decide) (by decide)).trans ha⟩

theorem fset_same (f : F) (i v : Nat) (s : State) : ∃ a, fset f i v s = { s with fld := a } := ⟨_, rfl⟩

theorem logPoison_same (l : LineA) (k : Nat) (s : State) : ∃ f, logPoison l k s = { s with fld := f } := by
  obtain ⟨a, ha⟩ : ∃ a, (if fget s .plValid = 1 then fset .plOverrun 0 1 s else s) = { s with fld := a } := by
    split
    · exact ⟨_, rfl⟩
    · exact ⟨s.fld, rfl⟩
  obtain ⟨b, hb⟩ := fset_same .plAddr 0 l.toNat { s with fld := a }
  obtain ⟨c, hc⟩ := fset_same .plCause 0 k { s with fld := b }
  rw [logPoison, ha, hb, hc]
  exact ⟨_, rfl⟩

theorem poisonNoted_same (l : LineA) (k c : Nat) (s : State) : ∃ f g, poisonNoted l k c s = { s with fld := f, flt := g } := by
  obtain ⟨f, hf⟩ := logPoison_same l k s
  obtain ⟨a, b, h⟩ := report_same .home c (hostAddr l) none none (logPoison l k s)
  rw [poisonNoted, h, hf]
  exact ⟨_, _, rfl⟩

/-- The holder that asked is told that its request has failed, with the event in the poison log. -/
def refused (l : LineA) (r : Holder) (k c : Nat) (d : Dir) (s : State) : State :=
  putDir l d (homeSends r .response (.nackp r l) none (.toHolder r l "NackP" none) (poisonNoted l k c s))

theorem refused_same (l : LineA) (r : Holder) (k c : Nat) (d : Dir) (s : State) : ∃ a f g, refused l r k c d s = { s with
    dir := a, fld := f, flt := g, mesh := s.mesh ++ [homePacket r .response (.nackp r l) none]
    out := s.out ++ [.toHolder r l "NackP" none] } := by
  obtain ⟨f, g, h⟩ := poisonNoted_same l k c s
  rw [refused, h]
  exact ⟨_, f, g, rfl⟩

theorem getDir_poisonNoted (l m : LineA) (k c : Nat) (s : State) : getDir (poisonNoted l k c s) m = getDir s m := by
  obtain ⟨f, g, h⟩ := poisonNoted_same l k c s
  rw [h]
  rfl

theorem getDir_refused (k c : Nat) : getDir (refused l r k c d s) l = d := getDir_putDir_same ..

theorem getDir_refused_other (k c : Nat) {m : LineA} (hm : m ≠ l) : getDir (refused l r k c d s) m = getDir s m := by
  rw [refused, getDir_putDir_other hm, getDir_homeSends, getDir_poisonNoted]

theorem NoFlags.refused (hn : NoFlags s) (k c : Nat) : NoFlags (refused l r k c d s) := by
  obtain ⟨a, f, g, h⟩ := refused_same l r k c d s
  exact NoFlags.of_same hn (by rw [h]) (by rw [h])

theorem hostGoErr_refuses {k : ReqKind} (hw : (getDir s l).hs = .waitHost) (hr : (getDir s l).req = some (k, r))
    (ha : (getDir s l).await = []) (hh : (getDir s l).held = []) (hn : NoneWait s l)
    (ho : (getDir s l).h = .x → (getDir s l).owner.isSome = true) :
    hostGoErr l s = refused l r 3 0x06 (idleDir (nacked r (getDir s l))) s := by
  obtain ⟨f, g, h⟩ := poisonNoted_same l 3 0x06 s
  have hd := getDir_poisonNoted l l 3 0x06 s
  have hnack := nackReq_idle (s := poisonNoted l 3 0x06 s) (hd ▸ hr) (hd ▸ ha) (hd ▸ hh) (by rw [h]; exact hn) (hd ▸ ho)
  rw [hd] at hnack
  unfold hostGoErr
  dsimp only
  rw [hw]
  exact hnack

theorem homeTimeout_refuses {k : ReqKind} (hw : (getDir s l).hs = .waitHost) (hr : (getDir s l).req = some (k, r))
    (hd : (getDir s l).domain = false) :
    homeTimeout l s = refused l r 2 0x05 { nacked r (getDir s l) with hs := .orphan, await := [] } s := by
  have hp := getDir_poisonNoted l l 2 0x05 s
  have hnack := nackReq_orphan (s := poisonNoted l 2 0x05 s) (hp ▸ hr)
  rw [hp] at hnack
  unfold homeTimeout
  dsimp only
  rw [hw]
  dsimp only
  rw [if_neg (by simp [hd])]
  exact hnack

theorem homeTimeout_falls (hw : (getDir s l).hs = .waitHost) (hd : (getDir s l).domain = true) :
    homeTimeout l s = domainFall 0 s := by
  unfold homeTimeout
  dsimp only
  rw [hw]
  exact if_pos hd

theorem domainUp_of_homeRuns (h : homeRuns s = true) : s.domainDown = false := by
  have := homeRuns_homeOn h
  simp only [homeOn, Bool.and_eq_true, Bool.not_eq_true'] at this
  exact this.2

/-! ### Snoops -/

theorem hostSnoop_idle (hr : homeRuns s = true) (hc : (getHp s 0).cxl = true) (hp : s.board.pwrgood = true)
    (hn : s.resetting = none) (hi : (getDir s l).hs = .idle) (sn : Snoop) : hostSnoop l sn s = serveSnoop l sn s := by
  unfold hostSnoop
  rw [if_neg (by simp [hc, hp, hn]), if_neg (by simp [homeRuns_homeOn hr])]
  dsimp only
  rw [hi]

theorem serveSnoop_invalid (hi : (getDir s l).h = .i) (sn : Snoop) :
    serveSnoop l sn s = { s with out := s.out ++ [.snoopRsp l "RspIHitI" none] } := by
  unfold serveSnoop
  dsimp only
  rw [hi]
  cases sn <;> rfl

theorem serveSnoop_data (hi : (getDir s l).h = .s) :
    serveSnoop l .data s = { s with out := s.out ++ [.snoopRsp l "RspSHitSE" none] } := by
  unfold serveSnoop
  dsimp only
  rw [hi]
  rfl

theorem serveSnoop_cur (hi : (getDir s l).h = .s) :
    serveSnoop l .cur s = { s with out := s.out ++ [.snoopRsp l "RspVHitV" none] } := by
  unfold serveSnoop
  dsimp only
  rw [hi]
  rfl

theorem islandRuns_of_homeRuns (h : homeRuns s = true) : islandRuns s .home = true := by
  simp only [homeRuns, Bool.and_eq_true] at h
  exact h.2

end Answers

/-- Settles O47: each answer of a holder or of the host by the state of its line (R179 to R200). -/
theorem homeAnswersTakeEffect : Obligations.HomeAnswersTakeEffect := by
  intro s l hr hn
  refine ⟨fun h r b y z hw ha ht hd hhd hs hq harr => ?_, fun h k hw hq hh hnone ho harr => ?_, fun hcxl hpw hres hidle => ⟨fun hi => ?_, fun hi => ⟨?_, ?_⟩⟩,
    fun r g b hw ha hq hs hi => ?_, fun b x hw hq ha => ?_, fun k r hw ha hq hh hnone ho => ?_,
    fun hw hh hnone => ⟨?_, fun b p y hd => ?_⟩, fun k r hw hq => ⟨fun hd => ?_, fun hd => ?_⟩⟩
  · have hd' : getDir (taken (.dataresp h l b y z) s) l = getDir s l := getDir_taken ..
    have hgo := collect_awaited (some (b, z, y)) (.inl (by rw [hd', hw])) (by rw [hd', ha]; exact List.mem_singleton_self h)
    have hans : (answered h (some (b, z, y)) (getDir s l)).await = [] ∧ (answered h (some (b, z, y)) (getDir s l)).data = some (b, z, y) := by
      refine ⟨?_, ?_⟩
      · simp [answered, ha]
      · simp [answered, dataWith, hd]
    rw [hd', gathered_replied hans.1 hs (.inl ⟨hw, _, ht⟩) (.inr ⟨hhd, _, hans.2⟩)] at hgo
    obtain ⟨m, hm⟩ := taken_same (.dataresp h l b y z) s
    obtain ⟨a, hrep⟩ := replied_same (s := taken (.dataresp h l b y z) s) (l := l) (r := r) (d := answered h (some (b, z, y)) (getDir s l)) b z
    refine ⟨_, (atHome_runs hr harr).trans (congrArg Host.Outcome.next hgo), ⟨?_, ?_⟩, ?_, ?_, fun k hk => ?_, ?_⟩
    · rw [hrep]
    · rw [hrep, hm]
    · rw [getDir_replied]
      rfl
    · rw [getDir_replied]
      exact mem_sharedWith ..
    · rw [getDir_replied_other _ _ hk, getDir_taken]
    · rw [hrep, hm]
  · have hd' : getDir (taken (.done h l) s) l = getDir s l := getDir_taken ..
    obtain ⟨m, hm⟩ := taken_same (.done h l) s
    have hgo : doneNow h l (taken (.done h l) s) = putDir l (idleDir (getDir s l)) (taken (.done h l) s) := by
      unfold doneNow
      dsimp only
      rw [hd', hw]
      dsimp only
      rw [if_pos (by rw [hq]; rfl)]
      exact toIdle_quiet hh (by rw [hm]; exact hnone) ho
    refine ⟨_, (atHome_runs hr harr).trans (congrArg Host.Outcome.next hgo), ?_, ?_, fun k hk => ?_, ⟨?_, ?_⟩, ?_⟩
    · rw [getDir_putDir_same, idleDir_hs]
    · rw [getDir_putDir_same, idleDir_p]
    · rw [getDir_putDir_other hk, getDir_taken]
    · rw [List.append_nil]
      rfl
    · rw [hm, List.append_nil]
      rfl
    · rw [hm]
      rfl
  · have hisl := islandRuns_of_homeRuns hr
    have hsn (sn : Snoop) := (hostSnoop_idle hr hcxl hpw hres hidle sn).trans (serveSnoop_invalid hi sn)
    intro c hc
    simp only [List.mem_cons, List.not_mem_nil, or_false] at hc
    obtain rfl | rfl | rfl := hc
    · exact ⟨_, congrArg Host.Outcome.next ((if_pos hisl).trans (hsn .data)), rfl⟩
    · exact ⟨_, congrArg Host.Outcome.next ((if_pos hisl).trans (hsn .inv)), rfl⟩
    · exact ⟨_, congrArg Host.Outcome.next ((if_pos hisl).trans (hsn .cur)), rfl⟩
  · exact ⟨_, congrArg Host.Outcome.next ((if_pos (islandRuns_of_homeRuns hr)).trans
      ((hostSnoop_idle hr hcxl hpw hres hidle .data).trans (serveSnoop_data hi))), rfl⟩
  · exact ⟨_, congrArg Host.Outcome.next ((if_pos (islandRuns_of_homeRuns hr)).trans
      ((hostSnoop_idle hr hcxl hpw hres hidle .cur).trans (serveSnoop_cur hi))), rfl⟩
  · obtain ⟨a, hrep⟩ := replied_same (s := s) (l := l) (r := r)
      (d := { getDir s l with hostData := some (b, false), hostReq := none, hs := .waitHost }) b false
    refine ⟨_, congrArg Host.Outcome.next ((if_pos hr).trans (hostGo_replied hw ha hq hs)), ?_, ?_, ?_, ?_, ?_, fun k hk => ?_, ?_⟩
    · rw [hrep]
    · rw [hrep]
    · rw [getDir_replied]
      rfl
    · rw [getDir_replied]
      exact if_pos hi
    · rw [getDir_replied]
      exact mem_sharedWith ..
    · rw [getDir_replied_other _ _ hk]
    · rw [hrep]
  · have hgo : hostGoI l b x s = { putDir l { getDir s l with reissues := (getDir s l).reissues + 1 } s with
        out := s.out ++ [.d2h l .getS] } := by
      unfold hostGoI
      dsimp only
      rw [hw]
      dsimp only
      rw [hq, if_neg (by decide), if_pos ha]
      rfl
    refine ⟨_, congrArg Host.Outcome.next ((if_pos hr).trans hgo), rfl, ?_, fun k hk => ?_, rfl⟩
    · exact getDir_putDir_same l { getDir s l with reissues := (getDir s l).reissues + 1 } s
    · exact getDir_putDir_other hk { getDir s l with reissues := (getDir s l).reissues + 1 } s
  · obtain ⟨a, f, g, h⟩ := refused_same l r 3 0x06 (idleDir (nacked r (getDir s l))) s
    obtain ⟨hv, hc, hadr⟩ := fget_poisonNoted l 3 0x06 s
    refine ⟨refused l r 3 0x06 (idleDir (nacked r (getDir s l))) s, ?_, by rw [h], by rw [h], ?_, ?_, hv, hc, hadr,
      fun k hk => getDir_refused_other 3 0x06 hk, fun f i hi hf => poisonNoted_fieldsBut l 3 0x06 s f i hi hf, by rw [h]⟩
    · refine congrArg Host.Outcome.next ((if_pos hr).trans ?_)
      dsimp only
      rw [hostGoErr_refuses hw hq ha hh hnone ho]
      exact pumpAll_of_noFlags (NoFlags.refused hn 3 0x06)
    · rw [getDir_refused, idleDir_hs]
    · rw [getDir_refused, idleDir_p]
      simp [nacked]
  · have hgo : writePull l true s = putDir l {} s := by
      unfold writePull
      dsimp only
      rw [hw]
      exact freeLine_quiet hh hnone
    refine ⟨putDir l {} s, ?_, getDir_putDir_same .., fun k hk => getDir_putDir_other hk .., rfl⟩
    refine congrArg Host.Outcome.next ((if_pos hr).trans ?_)
    dsimp only
    rw [hgo]
    exact pumpAll_of_noFlags (NoFlags.of_same (t := putDir l {} s) hn rfl rfl)
  · have hgo : pullNow l s = putDir l {} (emit (.pullData l b p false) s) := by
      unfold pullNow
      rw [if_pos hr]
      unfold writePull
      dsimp only
      rw [hw, hd]
      exact freeLine_quiet (s := emit (.pullData l b p false) s) hh hnone
    refine ⟨putDir l {} (emit (.pullData l b p false) s), ?_, rfl, getDir_putDir_same .., fun k hk => getDir_putDir_other hk .., rfl⟩
    refine congrArg Host.Outcome.next ((if_pos (islandRuns_of_homeRuns hr)).trans ?_)
    rw [hgo]
    exact pumpAll_of_noFlags (NoFlags.of_same (t := putDir l {} (emit (.pullData l b p false) s)) hn rfl rfl)
  · have hdown := (down_domainFall 0 (domainUp_of_homeRuns hr) fun v => (hn v).1).pumpAll
    refine completes_and_continues rfl ⟨pumpAll (domainFall 0 s), ?_, hdown.down, hdown.dir, hdown.hl⟩
    refine congrArg Host.Outcome.next ((if_pos hr).trans ?_)
    dsimp only
    rw [homeTimeout_falls hw hd]
  · obtain ⟨a, f, g, h⟩ := refused_same l r 2 0x05 { nacked r (getDir s l) with hs := .orphan, await := [] } s
    obtain ⟨hv, hc, hadr⟩ := fget_poisonNoted l 2 0x05 s
    refine ⟨refused l r 2 0x05 { nacked r (getDir s l) with hs := .orphan, await := [] } s, ?_, by rw [h], by rw [h], ?_, hc, by rw [h],
      fun k hk => getDir_refused_other 2 0x05 hk⟩
    · refine congrArg Host.Outcome.next ((if_pos hr).trans ?_)
      dsimp only
      rw [homeTimeout_refuses hw hq hd]
      exact pumpAll_of_noFlags (NoFlags.refused hn 2 0x05)
    · rw [getDir_refused]

end Sys2Proof.Proofs

/-! PROOFS. Operations that leave the units where they are: drains, ends of indices, and the starts of VI resets (R163). -/

namespace Sys2Proof.Proofs

open Sys2Proof.Machine Sys2Proof.Laws

/-! ## Steady steps -/

section

variable {s t : State}

theorem Tallied.foldl {α : Type} {f : State → α → State} (hf : ∀ s x, Tallied s (f s x)) (l : List α) (s : State) :
    Tallied s (l.foldl f s) := foldl_same .refl (fun _ _ _ => .trans) hf l s

theorem Tallied.stands (h : Tallied s t) (f : F) (i : Nat) (hi : i < 2 ^ 20 := by decide) (hf : f ∉ tallies := by decide) :
    fget t f i = fget s f i := h f i hi hf

end

/-- What the islands, the ports, the board and a committed set say of the units. -/
def unitPart (s : State) := (s.pllParked, s.stopped, s.detours, s.pfs, s.hostPorts, s.board, s.unitsLeft, s.applying)

/-- A VI is not taken into reset nor out of it, and keeps what it has fetched or loses it. -/
def ViStands (x y : ViSt) : Prop := y.resetting = x.resetting ∧ (y.fetched = x.fetched ∨ y.fetched = [])

theorem ViStands.refl (x : ViSt) : ViStands x x := ⟨rfl, .inl rfl⟩

theorem ViStands.trans {x y z : ViSt} (h : ViStands x y) (k : ViStands y z) : ViStands x z :=
  ⟨k.1.trans h.1, k.2.elim (fun e => h.2.imp e.trans e.trans) .inr⟩

theorem LineStep.stands {x y : ViSt} (h : LineStep x y) : ViStands x y := ⟨by rw [h.same], h.fetched⟩

/-- A step that leaves the units where they are: no routine commits, no mover begins a block, no VI enters its reset. -/
structure Steady (s t : State) : Prop where
  fields : Tallied s t
  units : unitPart t = unitPart s
  runs : NoCommit s t
  asks : ∀ m, (getMv t m).asked ≠ 0 → (getMv s m).asked ≠ 0
  vis : ∀ v, ViStands (getVi s v) (getVi t v)

section

variable {s t u : State}

theorem getMv_of_movers (h : t.movers = s.movers) (m : Mover) : getMv t m = getMv s m := by rw [getMv, getMv, h]

namespace Steady

theorem of (hu : unitPart t = unitPart s) (he : t.engs = s.engs) (hm : t.movers = s.movers) (hv : t.vis = s.vis)
    (ht : Tallied s t := by exact fun _ _ _ _ => rfl) : Steady s t :=
  ⟨ht, hu, .of_engs he, fun m => by rw [getMv_of_movers hm]; exact id, fun v => by rw [getVi_of_vis hv]; exact .refl _⟩

theorem refl (s : State) : Steady s s := .of rfl rfl rfl rfl

theorem trans (h : Steady s t) (k : Steady t u) : Steady s u :=
  ⟨h.fields.trans k.fields, k.units.trans h.units, h.runs.trans k.runs, fun m hm => h.asks m (k.asks m hm), fun v => (h.vis v).trans (k.vis v)⟩

theorem ite {c : Prop} [Decidable c] (h : Steady s t) (k : Steady s u) : Steady s (if c then t else u) := by
  split <;> assumption

theorem foldl {α : Type} {f : State → α → State} (hf : ∀ s x, Steady s (f s x)) (l : List α) (s : State) :
    Steady s (l.foldl f s) := foldl_same refl (fun _ _ _ => trans) hf l s

/-- Of what the ring engine changes only its VIs are to be looked at. -/
theorem of_ringwise (h : Ringwise s t) (hv : ∀ v, ViStands (getVi s v) (getVi t v)) : Steady s t :=
  ⟨h.tallied, (congrArg unitPart h.same).trans rfl, h.runs, fun m => by rw [getMv_of_movers (by rw [h.same])]; exact id, hv⟩

theorem of_routed (h : Routed s t) : Steady s t := by
  have hf := h.fields
  obtain ⟨a, b, c, d, rfl⟩ := h.same
  exact .of rfl rfl rfl rfl hf

end Steady

/-! ## Updates -/

theorem updEng_steady (e : Eng) (f : EngSt → EngSt) (s : State) (hf : ∀ x, (f x).run.any (fun r => r.phase == .post) = true →
    x.run.any (fun r => r.phase == .post) = true := by exact fun _ h => h) : Steady s (updEng e f s) :=
  ⟨fun _ _ _ _ => rfl, rfl, .updEng hf e s, fun _ => id, fun _ => .refl _⟩

theorem updVi_steady (v : Vi) (f : ViSt → ViSt) (s : State) (hf : ∀ x, ViStands x (f x) := by exact fun _ => ⟨rfl, .inl rfl⟩) : Steady s (updVi v f s) :=
  ⟨fun _ _ _ _ => rfl, rfl, fun _ => id, fun _ => id, fun w => by
    by_cases h : v = w
    · subst h
      rw [getVi_updVi_same]
      exact hf _
    · rw [getVi_updVi_other _ h]
      exact .refl _⟩

theorem getMv_updMv_other {m n : Mover} (f : MvSt → MvSt) (h : m ≠ n) (s : State) : getMv (updMv m f s) n = getMv s n :=
  mget_mupd_other _ _ _ fun x => h (Fin.ext x)

theorem updMv_steady (m : Mover) (f : MvSt → MvSt) (s : State) (hf : ∀ x, (f x).asked ≠ 0 → x.asked ≠ 0 := by exact fun _ h => h) :
    Steady s (updMv m f s) :=
  ⟨fun _ _ _ _ => rfl, rfl, fun _ => id, fun n hn => by
    by_cases h : m = n
    · subst h
      rw [getMv_updMv_same] at hn
      exact hf _ hn
    · rwa [getMv_updMv_other _ h] at hn, fun _ => .refl _⟩

theorem updFly_steady (v : Vi) (i : Job) (f : Fly → Fly) (s : State) : Steady s (updFly v i f s) := updVi_steady v _ s

theorem finish_steady (v : Vi) (i : Job) (c : Compl) (s : State) : Steady s (finish v i c s) := updFly_steady v i _ s

theorem indexEnded_steady (x : Index) (c : Option Compl) (w : U64) (s : State) : Steady s (indexEnded x c w s) :=
  updFly_steady x.vi x.idx _ s

theorem forget_steady (p : Who → Bool) (s : State) : Steady s (forget p s) := .of rfl rfl rfl rfl

/-! ## Writes that memory accepts, and drains -/

theorem clearMet_steady (k a n : Nat) (s : State) : Steady s { s with engs := mupd {} s.engs k (clearMet a n) } := by
  refine ⟨fun _ _ _ _ => rfl, rfl, fun e hp => ?_, fun _ => id, fun _ => .refl _⟩
  rw [pastCommit, runOf, eng] at hp ⊢
  by_cases h : k = e.val
  · subst h
    rw [mget_mupd_same, clearMet, Option.any_map] at hp
    exact hp
  · rwa [mget_mupd_other _ _ _ h] at hp

theorem acceptWrite_steady (a : Nat) (l : List Byte) (s : State) : Steady s (acceptWrite a l s) := by
  obtain ⟨m, p, h⟩ := memWrite_same a l s
  unfold acceptWrite
  rw [h]
  exact Steady.trans (t := { s with mem := m, poison := p }) (.of rfl rfl rfl rfl) (.foldl (fun s (p : Nat × EngSt) => clearMet_steady p.1 a l.length s) _ _)

theorem acceptThose_steady (k : Kiln) (p : Gather → Bool) (s : State) : Steady s (acceptThose k p s) :=
  Steady.trans (t := updGather k _ s) (.of rfl rfl rfl rfl) (.foldl (fun s _ => acceptWrite_steady _ _ s) _ _)

theorem acceptOwn_steady (e : Eng) (s : State) : Steady s (acceptOwn e s) := acceptThose_steady _ _ s

theorem pushGather_steady (e : Eng) (v : Vi) (a : Nat) (l : List Byte) (s : State) : Steady s (pushGather e v a l s) := by
  unfold pushGather
  extract_lets k u
  have hu : Steady s u := by
    unfold u
    split
    · exact .ite (Steady.trans (t := updGather k _ s) (.of rfl rfl rfl rfl) (acceptWrite_steady _ _ _)) (.refl s)
    · exact .refl s
  clear_value u
  exact hu.trans (.of rfl rfl rfl rfl)

theorem toSlice_steady (i : Island) (k : Kiln) (c : Instr) (d : Option Block) (w : Who) (s : State) : Steady s (toSlice i k c d w s) := by
  unfold toSlice
  split <;> exact .of rfl rfl rfl rfl

theorem hostStore_steady (i : Island) (k : Kiln) (v : Vi) (a : Nat) (l : List Byte) (x y : Bool) (w : Who) (s : State) :
    Steady s (hostStore i k v a l x y w s) :=
  .ite (.foldl (fun s _ => toSlice_steady _ _ _ _ _ s) _ s) (.of rfl rfl rfl rfl)

theorem hostLoad_steady (i : Island) (k : Kiln) (v : Vi) (a n : Nat) (x : Bool) (r : HostRead) (w : Who) (s : State) :
    Steady s (hostLoad i k v a n x r w s) :=
  .ite (.foldl (fun s _ => toSlice_steady _ _ _ _ _ s) _ s) (.of rfl rfl rfl rfl)

theorem storeFailed_steady (e : Eng) (v : Vi) (i : Job) (k : Nat) (c : Compl) (s : State) : Steady s (storeFailed e v i k c s) :=
  .of_ringwise (storeFailed_ringwise e v i k c s) fun _ => .refl _

theorem passEntry_steady (e : Eng) (x : SbEnt) (s : State) : Steady s (passEntry e x s) := by
  have hr : Steady s (if x.release then acceptOwn e s else s) := .ite (acceptOwn_steady e s) (.refl s)
  unfold passEntry
  split
  · exact hr.trans (pushGather_steady ..)
  · refine .ite (storeFailed_steady ..) (hr.trans ?_)
    exact (updEng_steady e _ _).trans (hostStore_steady ..)

theorem passAll_steady (e : Eng) (l : List SbEnt) (s : State) : Steady s (passAll e l s).2 := by
  induction l generalizing s with
  | nil => exact .refl s
  | cons x l ih =>
    unfold passAll
    split
    · exact (passEntry_steady e x s).trans (ih _)
    · exact .refl s

theorem flushSb_steady (e : Eng) (s : State) : Steady s (flushSb e s) :=
  (passAll_steady e _ s).trans (updEng_steady e _ _)

/-! ## Movers -/

/-- A step of mover m alone: it may begin a block. -/
structure MoverStep (m : Mover) (s t : State) : Prop where
  fields : Tallied s t
  units : unitPart t = unitPart s
  runs : NoCommit s t
  asks : ∀ n, n ≠ m → (getMv t n).asked ≠ 0 → (getMv s n).asked ≠ 0

theorem Steady.moverStep (h : Steady s t) (m : Mover) : MoverStep m s t := ⟨h.fields, h.units, h.runs, fun n _ => h.asks n⟩

theorem MoverStep.trans {m : Mover} (h : MoverStep m s t) (k : MoverStep m t u) : MoverStep m s u :=
  ⟨h.fields.trans k.fields, k.units.trans h.units, h.runs.trans k.runs, fun n hn ha => h.asks n hn (k.asks n hn ha)⟩

theorem asked_moverStep (m : Mover) (y : Nat) (s : State) : MoverStep m s (updMv m (fun x => { x with asked := y }) s) :=
  ⟨fun _ _ _ _ => rfl, rfl, fun _ => id, fun n hn ha => by rwa [getMv_updMv_other _ (Ne.symm hn)] at ha⟩

theorem askPieces_moverStep (m : Mover) (v : Vi) (l : List Piece) (s : State) : MoverStep m s (askPieces m v l s) := by
  induction l generalizing s with
  | nil => exact (Steady.refl s).moverStep m
  | cons p l ih =>
    unfold askPieces
    split
    · exact ih s
    · split
      · exact (Steady.refl s).moverStep m
      · next x stream _ _ =>
        have hl : Steady s (if hostOk s v then hostLoad (.hub (kilnOfMover m)) (kilnOfMover m) v x p.len stream (.moverBlock m)
            (.source m) s else s) := .ite (hostLoad_steady ..) (.refl s)
        exact (hl.moverStep m).trans ((asked_moverStep m _ _).trans (ih _))
      · exact (asked_moverStep m _ s).trans (ih _)

theorem startBlock_moverStep (m : Mover) (s : State) : MoverStep m s (startBlock m s) := by
  unfold startBlock
  split
  · exact (Steady.refl s).moverStep m
  · split
    · exact (Steady.refl s).moverStep m
    · split
      · exact (Steady.refl s).moverStep m
      · split
        · exact askPieces_moverStep m _ _ s
        · exact (Steady.refl s).moverStep m

/-! ## Indices that end -/

theorem run_swapBank (x : EngSt) : (swapBank x).run = x.run := by
  unfold swapBank
  split <;> rfl

theorem endIndex_steady (e : Eng) (c : Option Compl) (w : U64) (s : State) : Steady s (endIndex e c w s) := by
  unfold endIndex
  split
  · exact .refl s
  · next r _ =>
    extract_lets a b d
    have ha : Steady s a := flushSb_steady e s
    have hb : Steady a b := (forget_steady _ a).trans (updEng_steady e _ _ fun x h => by
      rw [run_swapBank] at h
      cases h)
    have hd : Steady b d := updVi_steady r.ix.vi _ b
    clear_value d b a
    exact (ha.trans (hb.trans hd)).trans (indexEnded_steady r.ix c w d)

theorem lateFail_steady (e : Eng) (c : Compl) (s : State) : Steady s (lateFail e c s) :=
  updEng_steady e _ s fun x h => by rwa [Option.any_map] at h

theorem dropIndexes_steady (v : Vi) (c : Compl) (s : State) (e : Eng) : Steady s (dropIndexes v c s e) := by
  unfold dropIndexes
  extract_lets x gone a b
  have ha : Steady s a := updEng_steady e _ s
  have hb : Steady a b := by
    unfold b
    split
    · exact .ite (.refl a) (.ite (lateFail_steady e c a) (endIndex_steady e _ 0 a))
    · exact .refl a
  clear_value b a
  exact (ha.trans hb).trans (.foldl (fun s _ => indexEnded_steady _ _ _ s) gone b)

theorem abandon_steady (e : Eng) (s : State) : Steady s (abandon e s) :=
  (updEng_steady e _ s fun x h => by rwa [Option.any_map] at h).trans (forget_steady _ _)

/-! ## Collectives that end -/

theorem abortFlags_steady (g : Nat) (c : CollSt) (s : State) : Steady s (abortFlags g c s) := by
  unfold abortFlags
  refine .ite ?_ (.refl s)
  split
  · exact Steady.trans (t := failFlags _ _ _ s) (updEng_steady _ _ s) (.of rfl rfl rfl rfl)
  · exact .refl s

theorem clearColl_steady (g : Nat) (s : State) : Steady s (clearColl g s) := .of rfl rfl rfl rfl

theorem endColl_steady (g : Nat) (x : Option Compl) (n : Option Nat) (k a : Nat) (s : State) : Steady s (endColl g x n k a s) := by
  unfold endColl
  extract_lets c b d f
  have hb : Steady s b := .of_routed (sendAbort_routed ..)
  have hd : Steady b d := abortFlags_steady g c b
  have hf : Steady d f := by
    unfold f
    split
    · exact finish_steady ..
    · exact .refl d
  clear_value f d b
  exact ((hb.trans hd).trans hf).trans (Steady.trans (t := noteLast g (cSeq c.desc) true f) (.of rfl rfl rfl rfl) (clearColl_steady g _))

theorem abortCounted_steady (s : State) : Steady s (fcount .abortsOrig 0 32 1 s) :=
  .of rfl rfl rfl rfl (fcount_tallied (by decide) (by decide) 32 1 s)

theorem resetColls_steady (v : Vi) (s : State) : Steady s (resetColls v s) :=
  Steady.trans (t := { s with collWait := s.collWait.filter fun w => w.1 != v }) (.of rfl rfl rfl rfl)
    (.foldl (fun s _ => .ite ((abortCounted_steady s).trans (endColl_steady ..)) (clearColl_steady _ s)) _ _)

/-! ## The start of a VI reset -/

theorem dropMover_steady (v : Vi) (s : State) (m : Mover) : Steady s (dropMover v s m) := updMv_steady m _ s

theorem writeBackQp_steady (q : Grp) (s : State) : Steady s (writeBackQp q s) := by
  unfold writeBackQp
  extract_lets x a b c
  clear_value c b a x
  refine .trans ?_ (acceptWrite_steady _ _ _)
  refine .trans ?_ (acceptWrite_steady _ _ _)
  refine .trans ?_ (acceptWrite_steady _ _ _)
  exact (acceptWrite_steady _ _ s).trans (acceptWrite_steady _ _ _)

theorem updQp_steady (q : Grp) (f : Qp → Qp) (s : State) : Steady s (updQp q f s) := .of rfl rfl rfl rfl
theorem iwin_steady (m : SMap Win) (s : State) : Steady s { s with iwin := m } := .of rfl rfl rfl rfl

theorem closeIngest_steady (w : Nat) (s : State) : Steady s (closeIngest w s) := by
  unfold closeIngest
  extract_lets x u
  have hu : Steady s u := (writeBackQp_steady (grp x.qp) s).trans (updQp_steady _ _ _)
  clear_value u
  exact hu.trans (iwin_steady _ u)

theorem closeIngestOf_steady (v : Vi) (s : State) : Steady s (closeIngestOf v s) := by
  have h (t : State) (p : Nat × Win) : Steady t (closeIngest p.1 t) := closeIngest_steady p.1 t
  unfold closeIngestOf
  generalize (s.iwin.filter fun p => p.2.open_ && p.2.vi == v.val) = l
  exact .foldl h l s

theorem dropFlags_steady (v : Vi) (s : State) : Steady s (dropFlags v s) := by
  refine Steady.trans (.foldl (fun s r => ?_) _ s) (updVi_steady v _ _)
  split
  · exact updEng_steady _ _ s
  · exact .refl s

/-- What a VI reset drops before it marks the VI (R163). -/
def resetDrops (v : Vi) (s : State) : State :=
  let s := allMovers.foldl (dropMover v) (allEngs.foldl (dropIndexes v (openC .viReset)) s)
  let s := forget (fun w => ringRead v w || blockOf v w) (dropFlags v (closeIngestOf v (resetColls v s)))
  { s with hblocks := s.hblocks.filter fun b => b.1 != v }

theorem viResetStart_eq (s : State) (v : Vi) : viResetStart s v = updVi v resetStarted (resetDrops v s) := rfl

theorem resetDrops_steady (v : Vi) (s : State) : Steady s (resetDrops v s) := by
  unfold resetDrops
  extract_lets a b
  have ha : Steady s a := (Steady.foldl (fun s e => dropIndexes_steady v _ s e) allEngs s).trans
    (.foldl (fun s m => dropMover_steady v s m) allMovers _)
  have hb : Steady a b := (resetColls_steady v a).trans ((closeIngestOf_steady v _).trans
    ((dropFlags_steady v _).trans (forget_steady _ _)))
  clear_value b a
  exact (ha.trans hb).trans (.of rfl rfl rfl rfl)

end

/-! ## VI resets one after the other -/

section Resets

variable {s t : State}

/-- A VI that is in its reset and holds nothing that it fetched. -/
def InReset (s : State) (v : Vi) : Prop := (getVi s v).resetting = true ∧ (getVi s v).fetched = []

theorem inReset_viResetStart (s : State) (v : Vi) : InReset (viResetStart s v) v := by
  rw [viResetStart_eq, InReset, getVi_updVi_same]
  exact ⟨rfl, rfl⟩

theorem InReset.stands {v : Vi} (h : InReset s v) (w : Vi) : InReset (viResetStart s w) v := by
  by_cases hw : w = v
  · exact hw ▸ inReset_viResetStart s w
  · obtain ⟨hr, hf⟩ := (resetDrops_steady w s).vis v
    rw [viResetStart_eq, InReset, getVi_updVi_other _ hw]
    exact ⟨hr.trans h.1, hf.elim (·.trans h.2) id⟩

theorem units_updVi (v : Vi) (f : ViSt → ViSt) (s : State) : unitPart (updVi v f s) = unitPart s := rfl

theorem units_viResetStart (s : State) (v : Vi) : unitPart (viResetStart s v) = unitPart s := by
  rw [viResetStart_eq, units_updVi, (resetDrops_steady v s).units]

theorem units_resets (l : List Vi) (s : State) : unitPart (l.foldl viResetStart s) = unitPart s :=
  foldl_same (P := fun s t => unitPart t = unitPart s) (fun _ => rfl) (fun _ _ _ h k => k.trans h) units_viResetStart l s

theorem InReset.foldl {v : Vi} (h : InReset s v) (l : List Vi) : InReset (l.foldl viResetStart s) v := by
  induction l generalizing s with
  | nil => exact h
  | cons w l ih =>
    rw [List.foldl_cons]
    exact ih (h.stands w)

theorem inReset_resets {l : List Vi} (s : State) : ∀ v ∈ l, InReset (l.foldl viResetStart s) v := by
  induction l generalizing s with
  | nil => nofun
  | cons w l ih =>
    intro v hv
    rw [List.foldl_cons]
    rcases List.mem_cons.mp hv with rfl | hv
    · exact (inReset_viResetStart s v).foldl l
    · exact ih _ v hv

end Resets

end Sys2Proof.Proofs

/-! PROOFS. What enables, disables and segment misses change (R214, R240, R247, R292 to R297). -/

namespace Sys2Proof.Proofs

open Sys2Proof.Machine Sys2Proof.Laws

/-! ## Enables -/

section Enables

variable {s t : State} {v : Vi}

theorem vi_index (v : Vi) : v.val < 2 ^ 20 := v.isLt.trans (by decide)

theorem viOn_of_tallied (h : Tallied s t) (v : Vi) : viOn t v = viOn s v := by
  rw [viOn, viOn, h.stands .viEnable v.val (vi_index v)]

/-- The VI as an enable restarts it (R214). -/
def restarted (x : ViSt) : ViSt := {
  fly := x.fly, lap := x.lap + 1, upMsgs := x.upMsgs, segHit := x.segHit, misses := x.misses, changing := x.changing
  ringIdle := false }

theorem dropFlags_ringwise (v : Vi) (s : State) : Ringwise s (dropFlags v s) := by
  refine Ringwise.trans (.foldl (fun s r => ?_) _ s) (updVi_ringwise ..)
  split
  · exact freeSlot_ringwise ..
  · exact .refl s

theorem dropFlags_lap (v : Vi) (s : State) : (getVi (dropFlags v s) v).lap = (getVi s v).lap := by
  rw [dropFlags, getVi_updVi_same]
  dsimp only
  refine congrArg ViSt.lap (getVi_of_vis (foldl_vis (fun t r => ?_) _ s) v)
  split <;> rfl

/-- A start restarts the indices, and leaves them restarted. -/
theorem startVi_leaves (v : Vi) (s : State) : Ringwise s (startVi v s) ∧ ∃ x, x.lap = (getVi s v).lap ∧
    LineStep (restarted x) (getVi (startVi v s) v) := by
  unfold startVi
  extract_lets a b c d
  have ha : Ringwise s a := (dropFlags_ringwise v s).trans (forget_ringwise ..)
  have hb : Ringwise a b := updVi_ringwise ..
  have hl : (getVi a v).lap = (getVi s v).lap := dropFlags_lap v s
  have hx : getVi b v = restarted (getVi a v) := getVi_updVi_same ..
  have hc : Ringwise b c ∧ LinesKept b c := by
    unfold c
    split
    · exact ⟨stopVi_ringwise .., stopVi_linesKept _ _ _ _⟩
    · split
      · exact ⟨stopRing_ringwise .., stopRing_linesKept _ _ _ _⟩
      · exact ⟨(updVi_ringwise ..).trans (pump_ringwise ..), ringOut_linesKept _ _ _⟩
  have hd : Ringwise c d ∧ LinesKept c d := ⟨readLine_ringwise .., readLine_linesKept _ _ _⟩
  clear_value d c b a
  have habc := ha.trans (hb.trans hc.1)
  have hs := hx ▸ hc.2 v
  split
  · exact ⟨habc, _, hl, hs⟩
  · split
    · exact ⟨habc.trans (hd.1.trans (readLine_ringwise ..)), _, hl, hs.trans ((hd.2 v).trans (readLine_linesKept _ _ _ v))⟩
    · exact ⟨habc.trans hd.1, _, hl, hs.trans (hd.2 v)⟩

theorem LineStep.restarted {x y : ViSt} (h : LineStep (restarted x) y) :
    y.lap = x.lap + 1 ∧ y.ciCmd = 0 ∧ y.pi = 0 ∧ y.piCpl = 0 ∧ y.fetched = [] := by
  have hf : y.fetched = [] := h.fetched.elim id id
  rw [h.same] at *
  exact ⟨rfl, rfl, rfl, rfl, hf⟩

/-- The device with the VI's ENABLE set and its start due. -/
def startOwed (v : Vi) (s : State) : State := updVi v (fun x => { x with startDue := true }) (fset .viEnable v.val 1 s)

theorem viOn_startOwed (v : Vi) (s : State) : viOn (startOwed v s) v = true := by
  have h : fget (fset .viEnable v.val 1 s) .viEnable v.val = 1 := fget_fset_same .viEnable v.val 1
  rw [viOn, show fget (startOwed v s) .viEnable v.val = fget (fset .viEnable v.val 1 s) .viEnable v.val from rfl, h]
  rfl

theorem getVi_startOwed (v : Vi) (s : State) : getVi (startOwed v s) v = { getVi s v with startDue := true } :=
  getVi_updVi_same ..

theorem ringOn_startOwed (v : Vi) (s : State) : ringOn (startOwed v s) v = ringOn s v := by
  have hr : (getVi (startOwed v s) v).resetting = (getVi s v).resetting := by rw [getVi_startOwed]
  unfold ringOn
  rw [hr]
  rfl

theorem enableVi_eq (h : viOn s v = false) : enableVi v s = if ringOn s v then startVi v (startOwed v s) else startOwed v s := by
  have hd : (getVi (startOwed v s) v).startDue = true := by rw [getVi_startOwed]
  rw [enableVi, if_neg (by simp [h])]
  change startNow v (startOwed v s) = _
  rw [startNow, viOn_startOwed, hd, ringOn_startOwed]
  simp

/-! ## Disables -/

theorem dropDown_down (v : Vi) (a : Bool) (s : State) : (getVi (dropDown v a s) v).down = none := by
  have h (x : ViSt) : (match x.down with
    | some m => if a then { x with down := none, mboxAck := m.seq, mboxStatus := 0x31, line1Due := true } else { x with down := none }
    | none => x).down = none := by
    split
    · split <;> rfl
    · next hx => exact hx
  rw [dropDown, getVi_of_vis (forget_vis _ _), getVi_updVi_same]
  exact h _

theorem dropDown_same (v : Vi) (a : Bool) (s : State) : ∃ b c d e, dropDown v a s = { s with vis := b, hret := c, mesh := d, hl := e } :=
  ⟨_, _, _, _, rfl⟩

theorem dropDown_tallied (v : Vi) (a : Bool) (s : State) : Tallied s (dropDown v a s) := by
  obtain ⟨b, c, d, e, h⟩ := dropDown_same v a s
  rw [h]
  exact fun _ _ _ _ => rfl

/-- A VI whose ENABLE is cleared fetches nothing and has no start due (R247). -/
def unfetched (x : ViSt) : ViSt := { x with
  fetched := [], fetching := 0, dbReading := false, dbWatched := false, dbPolled := false, dbWake := false
  cplFull := false, startDue := false }

theorem unfetched_down (x : ViSt) : (unfetched x).down = x.down := rfl

theorem disableVi_leaves (h : viOn s v = true) : viOn (disableVi v s) v = false ∧ (getVi (disableVi v s) v).fetched = [] ∧
    (getVi (disableVi v s) v).down = none := by
  unfold disableVi
  rw [if_neg (by simp [h])]
  extract_lets a b c d e
  have ha : viOn a v = false := by
    have h0 : fget a .viEnable v.val = 0 := fget_fset_same .viEnable v.val 0
    rw [viOn, h0]
    rfl
  have hb : Tallied a b := .foldl (fun s f => by
    split
    · exact fun _ _ _ _ => rfl
    · exact .refl s) _ a
  have hc : Tallied b c := .foldl (fun s x => (dropIndexes_steady v _ s x).fields) _ b
  have hd : Tallied c d := (dropDown_tallied v false c).trans (forget_ringwise _ _).tallied
  have hdd : (getVi d v).down = none := by
    rw [getVi_of_vis (forget_vis _ _), dropDown_down]
  have he : Tallied d e := (updVi_ringwise d _ _).tallied
  have hee : getVi e v = unfetched (getVi d v) := getVi_updVi_same ..
  have hon : viOn e v = false := by
    rw [viOn_of_tallied he, viOn_of_tallied hd, viOn_of_tallied hc, viOn_of_tallied hb, ha]
  have hf : (getVi e v).fetched = [] := by rw [hee]; rfl
  have hdn : (getVi e v).down = none := by rw [hee, unfetched_down, hdd]
  clear_value e d c b a
  split
  · have hk := ringOut_linesKept e v [.idle] v
    have hr : Ringwise e (ringOut v [.idle] e) := (updVi_ringwise ..).trans (pump_ringwise ..)
    refine ⟨(viOn_of_tallied hr.tallied v).trans hon, ?_, ?_⟩
    · exact hk.fetched.elim (·.trans hf) id
    · rw [hk.same]
      exact hdn
  · exact ⟨hon, hf, hdn⟩

theorem enableMbox_leaves (v : Vi) (s : State) : fget (enableMbox v s) .mboxEn v.val = 1 := by
  have ha : fget (fset .mboxEn v.val 1 s) .mboxEn v.val = 1 := fget_fset_same ..
  unfold enableMbox
  split
  · next h => exact h
  · dsimp only
    split
    · rw [(readLine_ringwise _ _ _).tallied.stands .mboxEn v.val (vi_index v), ha]
    · exact ha

end Enables

/-! ## Segment misses -/

section Misses

variable {s t : State} {v : Vi}

/-- What a live slot holds once it has been written. -/
theorem seg_setSeg (v : Vi) (i : Fin 16) (g : Seg) (s : State) :
    seg (setSeg v i (if isHostSlot i then g else { g with attr := 0 }) s) v i = if isHostSlot i then g else { g with attr := 0 } := by
  have hv : v.val < 2048 := v.isLt
  have hi : i.val < 16 := i.isLt
  have other {f f' : F} {k : Nat} (x : Nat) (u : State) (hk : k < 2 ^ 20) (hf : f ≠ f') : fget (fset f k x u) f' k = fget u f' k :=
    fget_fset_other x hk hk (.inl hf)
  unfold seg setSeg
  by_cases h : i.val < 8
  · have hk : v.val * 8 + i.val < 2 ^ 20 := by omega
    have hh : isHostSlot i = false := by simp [isHostSlot, h]
    rw [if_pos h, if_pos h]
    dsimp only
    rw [other (f := .devSize) (f' := .devVbase) _ _ hk (by decide), other (f := .devTarget) (f' := .devVbase) _ _ hk (by decide),
      other (f := .devSize) (f' := .devTarget) _ _ hk (by decide), fget_fset_same, fget_fset_same, fget_fset_same, hh]
    rfl
  · have hk : v.val * 8 + (i.val - 8) < 2 ^ 20 := by omega
    have hh : isHostSlot i = true := by simp [isHostSlot]; omega
    rw [if_neg h, if_neg h]
    dsimp only
    rw [other (f := .hostAttr) (f' := .hostVbase) _ _ hk (by decide), other (f := .hostSize) (f' := .hostVbase) _ _ hk (by decide),
      other (f := .hostTarget) (f' := .hostVbase) _ _ hk (by decide), other (f := .hostAttr) (f' := .hostTarget) _ _ hk (by decide),
      other (f := .hostSize) (f' := .hostTarget) _ _ hk (by decide), other (f := .hostAttr) (f' := .hostSize) _ _ hk (by decide),
      fget_fset_same, fget_fset_same, fget_fset_same, fget_fset_same, hh]

/-- The live slots stand as counts go up. -/
theorem seg_of_tallied (h : Tallied s t) (v : Vi) (i : Fin 16) : seg t v i = seg s v i := by
  have hv : v.val < 2048 := v.isLt
  have hi : i.val < 16 := i.isLt
  have h1 : v.val * 8 + i.val < 2 ^ 20 := by omega
  have h2 : v.val * 8 + (i.val - 8) < 2 ^ 20 := by omega
  unfold seg
  dsimp only
  rw [h.stands .devVbase _ h1, h.stands .devTarget _ h1, h.stands .devSize _ h1, h.stands .hostVbase _ h2, h.stands .hostTarget _ h2,
    h.stands .hostSize _ h2, h.stands .hostAttr _ h2]

theorem waitRead_tallied (v : Vi) (i : Job) (d : Block) (s : State) : Tallied s (waitRead v i d s) := by
  unfold waitRead
  split
  · split
    · exact .refl s
    · split
      · exact (access_ringwise _ _ _ _ _).tallied
      · exact (emit_ringwise _ _).tallied
  · exact .refl s

theorem wakeWho_tallied (v : Vi) (w : MissWho) (s : State) : Tallied s (wakeWho v w s) := by
  unfold wakeWho
  split
  · exact fun _ _ _ _ => rfl
  · exact fun _ _ _ _ => rfl
  · exact (progress_step _ s).fields
  · exact (startBlock_moverStep _ s).fields
  · split
    · exact waitRead_tallied _ _ _ s
    · exact .refl s

theorem wakeAll_tallied (v : Vi) (l : List Miss) (s : State) : Tallied s (l.foldl (fun s m => wakeWho v m.who s) s) :=
  .foldl (fun s m => by exact wakeWho_tallied v m.who s) l s

theorem fcount_vis (f : F) (i w n : Nat) (s : State) : (fcount f i w n s).vis = s.vis := rfl

theorem longest_tallied (us : Nat) (s : State) :
    Tallied s (fset .segLongest 0 (min (max (fget s .segLongest) us) 4095) s) :=
  fset_tallied (by decide) (by decide) _ s

/-- Of the misses that are tried again none is left. -/
theorem wakeMisses_leaves (v : Vi) (p : Miss → Bool) (s : State) : Tallied s (wakeMisses v p s) ∧
    ∀ m, p m = true → m ∉ (getVi (wakeMisses v p s) v).misses := by
  unfold wakeMisses
  extract_lets l a us b
  have ha : Tallied s a := wakeAll_tallied v l s
  clear_value us
  have hb : Tallied a b := longest_tallied us a
  clear_value b a
  have hc : Tallied b (fcount .segMisses 0 20 l.length b) := fcount_tallied (f := .segMisses) (i := 0) (by decide) (by decide) 20 _ b
  refine ⟨(ha.trans (hb.trans hc)).trans (updVi_ringwise _ _ _).tallied, fun m hm h => ?_⟩
  rw [getVi_updVi_same] at h
  have := (List.mem_filter.mp h).2
  simp [hm] at this

theorem touchSlot_tallied (v : Vi) (i : Fin 16) (s : State) : Tallied s (touchSlot v i s) := by
  exact fun _ _ _ _ => rfl

/-- The slot that is swapped in holds the entry (R293). -/
theorem seg_swapIn (v : Vi) (e : Nat) (i : Fin 16) (s : State) :
    seg (swapIn v e i s) v i = if isHostSlot i then (readOvf s v e).seg else { (readOvf s v e).seg with attr := 0 } := by
  unfold swapIn
  extract_lets x old a g b
  have hb : seg b v i = if isHostSlot i then x.seg else { x.seg with attr := 0 } := seg_setSeg v i x.seg a
  have hc : Tallied b (touchSlot v i (fcount .segSwaps 0 20 1 b)) :=
    (fcount_tallied (f := .segSwaps) (i := 0) (by decide) (by decide) 20 1 b).trans (touchSlot_tallied v i _)
  clear_value b a
  rw [seg_of_tallied hc, hb]

theorem serveMiss_swaps {m : Miss} {e : Nat} {i : Fin 16} (hl : liveSlot s v m.addr = none) (hc : (getVi s v).changing = none)
    (hf : findOvf s v m.addr = some e) (ho : ovfChanging s v = none) (hs : swapSlot s v (readOvf s v e).host = some i) :
    serveMiss v m s = wakeMisses v (fun x => covers (readOvf s v e).seg x.addr) (swapIn v e i s) := by
  unfold serveMiss
  rw [hl]
  dsimp only
  rw [hc, if_neg (by simp), hf]
  dsimp only
  rw [ho, if_neg (by simp), hs]

theorem covers_of_findOvf {a e : Nat} (h : findOvf s v a = some e) : covers (readOvf s v e).seg a = true := by
  unfold findOvf at h
  split at h
  · have := List.find?_some h
    simp only [ovfUsable, Bool.and_eq_true] at this
    exact this.2
  · cases h

/-- A miss that ends has left the table, and the counts have gone up. -/
def missCounted (v : Vi) (m : Miss) (s : State) : State :=
  fcount .segFaults 0 12 1 (fcount .segMisses 0 20 1 (updVi v (fun x => { x with misses := x.misses.erase m }) s))

theorem getVi_missCounted (v : Vi) (m : Miss) (s : State) :
    getVi (missCounted v m s) v = { getVi s v with misses := (getVi s v).misses.erase m } := by
  rw [missCounted, getVi_of_vis (fcount_vis ..), getVi_of_vis (fcount_vis ..), getVi_updVi_same]

theorem missFaultOf_ring {m : Miss} {j : Job} (hw : m.who = .ring j) :
    missFaultOf v m s = finish v j (openC .segFault) (missCounted v m s) := by
  rw [missFaultOf]
  dsimp only
  rw [hw]
  dsimp only
  rw [missFault]
  rw [hw]
  rfl

/-- The miss of a WAIT that the watchdog ends is no longer there, and its descriptor has ended (R297). -/
theorem execMissWatchdog_ring {m : Miss} {l : List Miss} {j : Job} {f : Fly} (hr : running s = true) (hm : (getVi s v).misses = m :: l)
    (hw : m.who = .ring j) (hf : flyOf s v j = some f) (hn : f.fin = none) : ∃ t, execMissWatchdog v s = .next t ∧
      (getVi t v).misses = l ∧ Ended t v j.idx (openC .segFault) := by
  obtain ⟨hmem, hidx⟩ := flyOf_mem hf
  unfold execMissWatchdog
  rw [if_neg (by simp [hr]), hm]
  dsimp only
  have hv := report_vis s .mgmt 0x26 v.val (some v.val) (partOf s v)
  generalize report .mgmt 0x26 v.val (some v.val) (partOf s v) s = u at hv ⊢
  have hu : getVi u v = getVi s v := getVi_of_vis hv v
  rw [missFaultOf_ring hw]
  have hb : getVi (missCounted v m u) v = { getVi s v with misses := l } := by
    rw [getVi_missCounted, hu, hm, List.erase_cons_head]
  generalize missCounted v m u = b at hb ⊢
  refine ⟨_, rfl, ?_, ?_⟩
  · rw [finish, updFly, getVi_updVi_same, hb]
  · rw [← hidx]
    refine ended_finish _ ?_ rfl hn
    rw [hb]
    exact hmem

end Misses

end Sys2Proof.Proofs

/-! PROOFS. What the ring engine's lines, enables and misses change (R213 to R247, R292 to R297). -/

namespace Sys2Proof.Proofs

open Sys2Proof.Machine Sys2Proof.Laws

section Lines

variable {s : State} {v : Vi}

/-! ## Reads of a line and of descriptors -/

theorem watchable_of_port (hh : viaHome s v = false) : watchable s v = false := by
  unfold viaHome at hh
  unfold watchable
  cases hc : cxlOn s <;> simp_all

theorem not_recovering_of_ringOn (h : ringOn s v = true) : (getHp s (portOf v)).recovering = false := by
  simp only [ringOn, Bool.and_eq_true, Bool.not_eq_true'] at h
  exact h.2

/-- What a VI notes as its line is asked for. -/
def asking (k : LineKind) (x : ViSt) : ViSt := setPolled k false (setReading k true (setWake k false x))

theorem isReading_asking (k : LineKind) (x : ViSt) : isReading (asking k x) k = true := by cases k <;> rfl

theorem readLine_port (k : LineKind) (hm : mayMaster s v = true) (hr : (getHp s (portOf v)).recovering = false)
    (ha : inHostAllot s v (lineOff s v k) 64 = true) (hh : viaHome s v = false) :
    readLine v k s = emit (.hostRead (portOf v) v (lineAddr s v k) .line0) (updVi v (asking k) s) := by
  unfold readLine
  rw [if_neg (by simp [hm, hr]), if_neg (by simp [ha])]
  extract_lets l can room t
  have hc : can = false := watchable_of_port hh
  have ht : t = updVi v (asking k) s := by
    unfold t
    rw [hc]
    rfl
  rw [ht, show viaHome (updVi v (asking k) s) v = viaHome s v from rfl, hh]
  rfl

/-- What a VI holds when descriptors have come. -/
def fetchedMore (l : List Block) (x : ViSt) : ViSt := { x with
  fetched := x.fetched ++ indexed x.ciCmd l, ciCmd := x.ciCmd + BitVec.ofNat 32 l.length
  fetching := x.fetching - l.length, line1Due := true }

/-- With nothing left to fetch the return asks for nothing more. -/
theorem fetchReturn_last {ds : List Block} (hs : served s v = true) (hf : (getVi s v).fetching ≠ 0)
    (hp : (getVi s v).pi = (getVi s v).ciCmd + BitVec.ofNat 32 (ds.take (getVi s v).fetching).length) :
    fetchReturn v (.data ds) s = updVi v (fetchedMore (ds.take (getVi s v).fetching)) s := by
  have hn : fetchCount (updVi v (fetchedMore (ds.take (getVi s v).fetching)) s) v = 0 := by
    rw [fetchCount, getVi_updVi_same]
    rw [show (fetchedMore (ds.take (getVi s v).fetching) (getVi s v)).pi = (getVi s v).pi from rfl, hp]
    simp [fetchedMore]
  rw [fetchReturn, if_neg (by simp [hs, hf])]
  change fetchNow v (updVi v (fetchedMore _) s) = _
  rw [fetchNow, hn]
  rfl

theorem execDescriptorFetchReturn_port (hr : ringOn s v = true) (hh : viaHome s v = false) (res : FetchRes) :
    execDescriptorFetchReturn v res s = .next (fetchReturn v res s) := by
  rw [execDescriptorFetchReturn, if_pos hr, fetchEnds, hh]
  rfl

theorem stopVi_stops (v : Vi) (c : Nat) (p : Bool) (s : State) : (getVi (stopVi v c p s) v).stopped = true ∧
    (getVi (stopVi v c p s) v).stopCause = c ∧ (getVi (stopVi v c p s) v).stopPoison = p := by
  have he (e : Emit) (t : State) : (emit e t).vis = t.vis := rfl
  rw [stopVi, getVi_of_vis (raiseVec_vis ..), getVi_of_vis (he ..), getVi_of_vis (forget_vis ..), getVi_updVi_same]
  exact ⟨rfl, rfl, rfl⟩

theorem stopRing_stops (h : served s v = true) (c : Nat) (p : Bool) : (getVi (stopRing v c p s) v).stopped = true ∧
    (getVi (stopRing v c p s) v).stopCause = c ∧ (getVi (stopRing v c p s) v).stopPoison = p := by
  have hn : (getVi s v).stopped = false := by simp [served] at h; exact h.2
  rw [stopRing, if_neg (by simp [hn])]
  exact stopVi_stops ..

theorem fetchReturn_failed (hs : served s v = true) (hf : (getVi s v).fetching ≠ 0) :
    fetchReturn v .failed s = stopRing v 1 false s := by rw [fetchReturn, if_neg (by simp [hs, hf])]

theorem fetchReturn_poisoned (hs : served s v = true) (hf : (getVi s v).fetching ≠ 0) :
    fetchReturn v .poisoned s = stopRing v 1 true s := by rw [fetchReturn, if_neg (by simp [hs, hf])]

/-! ## Lines that go out one after the other -/

/-- The write of a line of VI v to host memory. -/
def lineOut (s : State) (v : Vi) (p : Nat × Block) : Emit :=
  .hostWrite (portOf v) v (hostBase s v + p.1) (blockBytes p.2) false

/-- The lines as the VI queues them. -/
def asLines (l : List (Nat × Block)) : List RingOut := l.map fun p => .line p.1 p.2

/-- Lines that the home does not carry leave in order (R229). -/
theorem pumpN_lines {r : List RingOut} (l : List (Nat × Block)) (n : Nat) (s : State) (hw : mayWrite s v = true)
    (hh : viaHome s v = false) (ho : (getVi s v).outq = asLines l ++ r) :
    ∃ q, pumpN v (l.length + n) s = pumpN v n { s with vis := q, out := s.out ++ l.map (lineOut s v) } ∧
      mget {} q v.val = { getVi s v with outq := r } := by
  induction l generalizing s with
  | nil =>
    refine ⟨s.vis, ?_, ?_⟩
    · simp
    · change getVi s v = _
      rw [← show (getVi s v).outq = r from ho]
  | cons p l ih =>
    rw [asLines, List.map_cons, List.cons_append, ← asLines] at ho
    have hp := pumpOne_line_leaves ho hw (by rw [hh]; rfl)
    rw [sendLine_port (s := outqLeft v _ s) hh] at hp
    have hl : (getVi (outqLeft v (asLines l ++ r) s) v).outq = asLines l ++ r := outq_outqLeft _
    obtain ⟨q, hq, hv⟩ := ih (emit (lineOut s v p) (outqLeft v (asLines l ++ r) s)) hw hh hl
    refine ⟨q, ?_, ?_⟩
    · rw [List.length_cons, Nat.succ_add, pumpN, hp]
      refine hq.trans ?_
      rw [List.map_cons, List.append_cons]
      rfl
    · rw [hv]
      change { getVi (outqLeft v _ s) v with outq := r } = _
      rw [outqLeft, getVi_updVi_same]

theorem out_raiseVec (v : Vi) (n : Fin 4) (s : State) : s.out <+: (raiseVec v n s).out := by
  unfold raiseVec
  split
  · exact List.prefix_rfl
  · split
    · dsimp only
      split <;> exact List.prefix_append _ _
    · exact List.prefix_rfl

/-- The interrupt of a message and the freeing of its slot leave behind its lines. -/
theorem pumpN_irq_free {e : Eng} {k : Fin 4} (ho : (getVi s v).outq = [.irq vecMailbox, .free e k]) (hf : flagOut s v = false) :
    pumpN v 2 s = freeSlot e k (outqLeft v [] (raiseVec v vecMailbox (outqLeft v [.free e k] s))) := by
  have h1 : pumpOne v s = some (raiseVec v vecMailbox (outqLeft v [.free e k] s)) := by
    simp only [pumpOne, ho, hf]
    rfl
  have h2 : (getVi (raiseVec v vecMailbox (outqLeft v [.free e k] s)) v).outq = [.free e k] := by
    rw [getVi_of_vis (raiseVec_vis ..)]
    exact outq_outqLeft _
  rw [pumpN, h1]
  dsimp only
  generalize raiseVec v vecMailbox (outqLeft v [.free e k] s) = u at h2 ⊢
  simp only [pumpN, pumpOne, h2]
  rfl

theorem freed_same (v : Vi) (e : Eng) (k : Fin 4) (l : List RingOut) (s : State) :
    ∃ a b, freeSlot e k (outqLeft v l s) = { s with vis := a, engs := b } := ⟨_, _, rfl⟩

theorem outqLeft_same (v : Vi) (l : List RingOut) (s : State) : ∃ a, outqLeft v l s = { s with vis := a } := ⟨_, rfl⟩

/-- The interrupt of a message and the freeing of its slot change the VI, the slot and what has gone out. -/
theorem freed_raised_same (v : Vi) (n : Fin 4) (e : Eng) (k : Fin 4) (l m : List RingOut) (s : State) : ∃ a b c d,
    freeSlot e k (outqLeft v l (raiseVec v n (outqLeft v m s))) = { s with vis := a, engs := b, fns := c, out := d } ∧ s.out <+: d := by
  have hout := out_raiseVec v n (outqLeft v m s)
  obtain ⟨a, ha⟩ := outqLeft_same v m s
  obtain ⟨o, f, hr⟩ := raiseVec_same v n (outqLeft v m s)
  obtain ⟨b, c, hf⟩ := freed_same v e k l (raiseVec v n (outqLeft v m s))
  rw [hf]
  rw [hr, ha] at hout ⊢
  exact ⟨_, _, _, _, rfl, hout⟩

/-- What leaves as an up message is written. -/
def upOut (s : State) (v : Vi) (l : List (Nat × Block)) (e : Eng) (k : Fin 4) (t : State) : Prop :=
  (s.out ++ l.map (lineOut s v)) <+: t.out ∧ mget {} (eng t e).slots k.val = {} ∧
  t = { s with vis := t.vis, engs := t.engs, fns := t.fns, out := t.out }

theorem ringOut_up {e : Eng} {k : Fin 4} (l : List (Nat × Block)) (hw : mayWrite s v = true) (hh : viaHome s v = false)
    (ho : (getVi s v).outq = []) (hf : flagOut s v = false) :
    let t := ringOut v (asLines l ++ [.irq vecMailbox, .free e k]) s
    upOut s v l e k t ∧ getVi t v = getVi s v := by
  intro t
  let u := queued v (asLines l ++ [.irq vecMailbox, .free e k]) s
  obtain ⟨q, hq, hv⟩ := pumpN_lines (s := u) (r := [.irq vecMailbox, .free e k]) l 2 hw hh (outq_queued ho _)
  have ht : t = pumpN v (l.length + 2) u := by
    change pumpN v (getVi u v).outq.length u = _
    rw [show (getVi u v).outq = _ from outq_queued ho _]
    simp [asLines]
  have hoq : (getVi { u with vis := q, out := u.out ++ l.map (lineOut u v) } v).outq = [.irq vecMailbox, .free e k] :=
    congrArg ViSt.outq hv
  rw [hq, pumpN_irq_free hoq hf] at ht
  have hvis : getVi t v = getVi s v := by
    rw [ht, getVi_of_vis (freeSlot_vis ..), outqLeft, getVi_updVi_same, getVi_of_vis (raiseVec_vis ..), outqLeft, getVi_updVi_same]
    change { mget {} q v.val with outq := [] } = _
    rw [hv]
    change { getVi (queued v _ s) v with outq := [] } = _
    rw [queued, getVi_updVi_same, ← ho]
  have hslot : mget {} (eng t e).slots k.val = {} := by rw [ht, freeSlot, eng_updEng_same, mget_mset_same]
  obtain ⟨a, b, c, d, h, hout⟩ := freed_raised_same v vecMailbox e k [] [.free e k]
    { u with vis := q, out := u.out ++ l.map (lineOut u v) }
  rw [h] at ht
  exact ⟨⟨ht ▸ hout, hslot, ht ▸ rfl⟩, hvis⟩

/-! ## The commands -/

theorem execPollInterval_asks {k : LineKind} (hr : ringOn s v = true) (hs : served s v = true) (hh : viaHome s v = false)
    (hk : isReading (getVi s v) k = false) (hw : isWatched (getVi s v) k = false) (hon : k = .mailbox → mbOn s v = true)
    (hm : mayMaster s v = true) (ha : inHostAllot s v (lineOff s v k) 64 = true) :
    execPollInterval v k s = .next (emit (.hostRead (portOf v) v (lineAddr s v k) .line0) (updVi v (asking k) s)) := by
  have hv : viOn s v = true := by
    simp only [served, Bool.and_eq_true] at hs
    exact hs.1
  rw [← readLine_port k hm (not_recovering_of_ringOn hr) ha hh]
  unfold execPollInterval
  cases k with
  | doorbell => simp [hr, hs, hv, hk, hw]
  | mailbox => simp [hr, hs, hon, hk, hw]

theorem execLine1Write_port (hr : ringOn s v = true) (hs : served s v = true) (hh : viaHome s v = false)
    (hl : (getVi s v).line1Due = true) (hm : mayMaster s v = true) (ha : inHostAllot s v (line1Off s v) 64 = true)
    (ho : (getVi s v).outq = []) : ∃ q, execLine1Write v true s = .next (emit
      (.hostWrite (portOf v) v (hostBase s v + line1Off s v) (blockBytes (line1 (getVi s v))) false) { s with vis := q }) ∧
      (mget {} q v.val).line1Due = false := by
  have hn : (getVi s v).stopped = false := by
    simp only [served, Bool.and_eq_true, Bool.not_eq_true'] at hs
    exact hs.2
  have hv : getVi (updVi v (fun x => { x with line1Due := false }) s) v = { getVi s v with line1Due := false } := getVi_updVi_same ..
  have hw : mayWrite s v = true := by rw [mayWrite, hm, not_recovering_of_ringOn hr]; rfl
  have ho' : (getVi (updVi v (fun x => { x with line1Due := false }) s) v).outq = [] := by rw [hv]; exact ho
  obtain ⟨q, hq, he⟩ := ringWrite_port (off := line1Off s v) (b := line1 (getVi s v)) ho' hw hh
  refine ⟨q, ?_, ?_⟩
  · rw [execLine1Write, if_neg (by simp [hr, hl, hn, hm])]
    dsimp only
    rw [if_neg (fun h => by
      rw [show inHostAllot (updVi v (fun x => { x with line1Due := false }) s) v
        (line1Off (updVi v (fun x => { x with line1Due := false }) s) v) 64 = inHostAllot s v (line1Off s v) 64 from rfl, ha] at h
      exact absurd h (by decide)), hv]
    exact congrArg Host.Outcome.next he
  · have hq' : mget {} q v.val = getVi (updVi v (fun x => { x with line1Due := false }) s) v := hq
    rw [hq', hv]

/-- What a VI holds once its oldest up message has been written. -/
def upSent (x : ViSt) : ViSt := { x with upSeq := x.upSeq + 1, upMsgs := x.upMsgs.tail }

/-- The lines of an up message: its header, line 0, goes last (R245). -/
def upLines (off : Nat) (b : List Byte) : List (Nat × Block) := [1, 2, 3, 0].map fun i => (off + 64 * i, upLine b i)

theorem execMboxUpWrite_sends {e : Eng} {n : Fin 4} (hr : ringOn s v = true) (hs : served s v = true) (hh : viaHome s v = false)
    (hon : mbOn s v = true) (hm : mayMaster s v = true) (hu : (getVi s v).upMsgs.head? = some (e, n))
    (hack : (getVi s v).upAck = (getVi s v).upSeq) (ha : inHostAllot s v (fget s .mailbox v.val * 512 + 256) 256 = true)
    (ho : (getVi s v).outq = []) (hf : flagOut s v = false) : ∃ t, execMboxUpWrite v e n s = .next t ∧
      upOut s v (upLines (fget s .mailbox v.val * 512 + 256) (upBytes ((getVi s v).upSeq + 1).toNat
        ((viEngines s .ring v).findIdx fun g => g == e) (mget {} (eng s e).slots n.val).data)) e n t ∧
      getVi t v = upSent (getVi s v) := by
  have hn : (getVi s v).stopped = false := by
    simp only [served, Bool.and_eq_true, Bool.not_eq_true'] at hs
    exact hs.2
  have hv : getVi (updVi v upSent s) v = upSent (getVi s v) := getVi_updVi_same ..
  have hw : mayWrite s v = true := by rw [mayWrite, hm, not_recovering_of_ringOn hr]; rfl
  have ho' : (getVi (updVi v upSent s) v).outq = [] := by rw [hv]; exact ho
  obtain ⟨⟨hout, hslot, hsame⟩, hvi⟩ := ringOut_up (s := updVi v upSent s) (e := e) (k := n)
    (upLines (fget s .mailbox v.val * 512 + 256) (upBytes ((getVi s v).upSeq + 1).toNat
      ((viEngines s .ring v).findIdx fun g => g == e) (mget {} (eng s e).slots n.val).data)) hw hh ho' hf
  refine ⟨_, ?_, ⟨hout, hslot, hsame⟩, hvi.trans hv⟩
  rw [execMboxUpWrite]
  dsimp only
  rw [if_neg (by simp [hr, hon, hn, hm, hu, hack]), if_neg (by simp [ha])]
  rfl

end Lines

/-- Settles O48: the lines of a served VI, enables and disables, and the oldest segment miss in turn. -/
theorem ringCommandsTakeEffect : Obligations.RingCommandsTakeEffect := by
  refine ⟨fun s v hr hs hh => ?_, fun s v hb ha => ⟨fun hoff => ?_, fun hon => ?_, ?_, fun hon => ?_⟩,
    fun s v m l hml => ⟨fun e i hfw hl hc hf ho hsw => ?_, fun j f hr hw hf hn => ?_⟩⟩
  case refine_1 =>
    intro x
    refine ⟨fun k hk hw hon hm ha => ⟨_, execPollInterval_asks hr hs hh hk hw hon hm ha, rfl, ?_, rfl⟩,
      fun hf => ⟨?_, ?_, ?_, ?_, ?_⟩, fun hl hm ha ho => ?_, fun e n hon hm hu hack ha ho hf => ?_⟩
    · change isReading (getVi (updVi v (asking k) s) v) k = true
      rw [getVi_updVi_same, isReading_asking]
    · intro ds l hpi
      refine ⟨_, (execDescriptorFetchReturn_port hr hh _).trans (congrArg Host.Outcome.next (fetchReturn_last hs hf hpi)), ?_⟩
      dsimp only
      rw [getVi_updVi_same]
      exact ⟨rfl, hpi.symm, rfl, rfl⟩
    · obtain ⟨hst, hc, -⟩ := stopRing_stops hs 1 false
      exact ⟨_, (execDescriptorFetchReturn_port hr hh _).trans (congrArg Host.Outcome.next (fetchReturn_failed hs hf)), hst, hc⟩
    · exact ⟨_, (execDescriptorFetchReturn_port hr hh _).trans (congrArg Host.Outcome.next (fetchReturn_poisoned hs hf)),
        stopRing_stops hs 1 true⟩
    · obtain ⟨hst, hc, -⟩ := stopRing_stops hs 1 false
      exact ⟨_, (execDescriptorFetchReturn_port hr hh _).trans (congrArg Host.Outcome.next (fetchReturn_failed hs hf)), hst, hc⟩
    · obtain ⟨hst, hc, -⟩ := stopRing_stops hs 1 false
      exact ⟨_, (execDescriptorFetchReturn_port hr hh _).trans (congrArg Host.Outcome.next (fetchReturn_failed hs hf)), hst, hc⟩
    · obtain ⟨q, he, hq⟩ := execLine1Write_port hr hs hh hl hm ha ho
      exact ⟨_, he, rfl, hq, rfl⟩
    · intro b
      obtain ⟨t, he, ⟨hout, hslot, hsame⟩, hv⟩ := execMboxUpWrite_sends hr hs hh hon hm hu hack ha ho hf
      exact ⟨t, he, hout, congrArg ViSt.upSeq hv, congrArg ViSt.upMsgs hv, hslot, hsame⟩
  case refine_2 =>
    have he : exec (.viEnable v) s = .next (enableVi v s) := by
      change execViEnable v s = _
      rw [execViEnable, if_pos (by simp [hb, ha])]
    refine ⟨_, he, ?_⟩
    rw [enableVi_eq hoff]
    have hon := viOn_startOwed v s
    cases hr : ringOn s v with
    | true =>
      obtain ⟨hw, x, hx, hl⟩ := startVi_leaves v (startOwed v s)
      obtain ⟨hlap, hrest⟩ := hl.restarted
      rw [if_pos rfl]
      exact ⟨(viOn_of_tallied hw.tallied v).trans hon, fun _ => ⟨by rw [hlap, hx, getVi_startOwed], hrest⟩, nofun⟩
    | false =>
      rw [if_neg (by decide)]
      exact ⟨hon, nofun, fun _ => ⟨by rw [getVi_startOwed], rfl⟩⟩
  case refine_3 =>
    have he : exec (.viDisable v) s = .next (disableVi v s) := by
      change execViDisable v s = _
      rw [execViDisable, if_pos (by simp [hb, ha])]
    exact ⟨_, he, disableVi_leaves hon⟩
  case refine_4 =>
    have he : exec (.mboxEnable v) s = .next (enableMbox v s) := by
      change execMboxEnable v s = _
      rw [execMboxEnable, if_pos (by simp [hb, ha])]
    exact ⟨_, he, enableMbox_leaves v s⟩
  case refine_5 =>
    have he : exec (.mboxDisable v) s = .next (dropDown v (viOn s v) (fset .mboxEn v.val 0 s)) := by
      change execMboxDisable v s = _
      rw [execMboxDisable, if_pos (by simp [hb, ha]), disableMbox, if_neg hon]
    obtain ⟨a, b, c, d, hsame⟩ := dropDown_same v (viOn s v) (fset .mboxEn v.val 0 s)
    refine ⟨_, he, ?_, dropDown_down .., ?_⟩
    · rw [(dropDown_tallied v (viOn s v) _).stands .mboxEn v.val (vi_index v), fget_fset_same]
    · rw [hsame]
      rfl
  case refine_6 =>
    have he : exec (.segMissService v) s = .next (wakeMisses v (fun x => covers (readOvf s v e).seg x.addr) (swapIn v e i s)) := by
      change execSegMissService v s = _
      rw [execSegMissService, if_neg (by simp [hfw]), hml]
      exact congrArg Host.Outcome.next (serveMiss_swaps hl hc hf ho hsw)
    obtain ⟨ht, hgone⟩ := wakeMisses_leaves v (fun x => covers (readOvf s v e).seg x.addr) (swapIn v e i s)
    exact ⟨_, he, (seg_of_tallied ht v i).trans (seg_swapIn v e i s), hgone m (covers_of_findOvf hf)⟩
  case refine_7 =>
    exact completes_and_continues rfl (execMissWatchdog_ring hr hml hw hf hn)

end Sys2Proof.Proofs

/-! PROOFS. What descriptors change as they run (R224 to R226, R257 to R274). -/

namespace Sys2Proof.Proofs

open Sys2Proof.Machine Sys2Proof.Laws

section Descriptors

variable {s t : State} {v : Vi} {i : BitVec 32} {f : Fly}

/-! ## DISPATCH -/

/-- What a VI holds once its next descriptor is in flight. -/
def dispatched (l : List (BitVec 32 × Block)) (f : Fly) (c : Option (Fin 16)) (x : ViSt) : ViSt := { x with
  fetched := l, fly := x.fly ++ [f], reserved := x.reserved + 1, cplFull := false, changing := c }

theorem execDispatch_enters {d : Block} {l : List (BitVec 32 × Block)} (h : NextIs s v i d l) (hr : cplRoom s v = true)
    (hd : descOk d = true) (hl : dOp d = 0x03 → launchRoom s v d = true) :
    execDispatch v s = .next (fetchNow v (updVi v (dispatched l
      { idx := { idx := i, lap := (getVi s v).lap }, desc := d, at_ := sampleAt s d } (changingAt s v d)) s)) := by
  have hw := h.waitNotFull
  have hl' : ¬ (dOp d = 0x03 ∧ launchRoom s v d = false) := fun ⟨ho, hn⟩ => by simp [hl ho] at hn
  obtain ⟨on, served, awake, fetched, free, -⟩ := h
  unfold execDispatch
  rw [if_neg (by simp [on, served, awake]), fetched]
  dsimp only
  rw [if_neg (by simp [free, hw]), if_neg (by simp [hr]), if_neg (by simp [hd]), if_neg (by simpa using hl')]
  rfl

/-- A ring whose next index is the producer's asks for nothing. -/
theorem fetchNow_none (h : (getVi s v).pi = (getVi s v).ciCmd) : fetchNow v s = s := by
  have hn : fetchCount s v = 0 := by
    rw [fetchCount, h]
    simp
  rw [fetchNow, hn]
  rfl

/-! ## SIGNAL, WAIT and STAMP -/

/-- A SIGNAL ADD of sound device memory adds at the controller (R265). -/
theorem signalNow_adds {x : Nat} {j : Fin 16} (hop : blockField f.desc 8 1 = 0x10)
    (ht : trSpace s .ring v 0 (blockField f.desc 0x18 8) 8 = .hit (.dev x) j) (hm : memOpen s 20 x 8 = true)
    (hh : anyHole s x 8 = false) (hp : anyPoison s x 8 = false) (ok : Bool) :
    signalNow v f ok s = finish v f.idx (okC (read64 s x))
      (acceptWrite x (natBytes 8 ((read64 s x + blockField f.desc 0x20 8) % 2 ^ 64)) s) := by
  have hs : blockField f.desc 8 1 % 16 = 0 := by rw [hop]
  have hadd : (blockField f.desc 8 1 / 16 == 1) = true := by rw [hop]; rfl
  rw [← hs] at ht
  have h4 : blockField f.desc 8 1 % 16 ≠ 4 := by rw [hs]; decide
  have h2 : blockField f.desc 8 1 % 16 ≠ 2 := by rw [hs]; decide
  unfold signalNow
  dsimp only
  rw [if_neg h4, ht]
  dsimp only
  rw [if_neg (by simp [hm]), if_neg h2, if_pos hadd, signalAdd, if_neg (by simp [hh]), if_neg (by simp [hp])]

theorem waitRead_linesKept (v : Vi) (j : Job) (d : Block) (s : State) : LinesKept s (waitRead v j d s) := by
  unfold waitRead
  split
  · split
    · exact .refl s
    · split
      · exact access_linesKept _ _ _ _ _
      · exact .of_vis rfl
  · exact .refl s

/-- A WAIT that holds ends with the value read (R266). -/
theorem waitPoll_holds {x : Nat} {j : Fin 16} (hs : blockField f.desc 8 1 % 16 = 0)
    (ht : trSpace s .ring v 0 (blockField f.desc 0x18 8) 8 = .hit (.dev x) j) (hm : memOpen s 20 x 8 = true)
    (hh : anyHole s x 8 = false) (hp : anyPoison s x 8 = false)
    (hw : waitHolds (blockField f.desc 8 1 / 16) (read64 s x) (blockField f.desc 0x20 8) (blockField f.desc 0x28 8) = true)
    (y : HostRes) : waitPoll v f y s = finish v f.idx (okC (read64 s x)) s := by
  rw [← hs] at ht
  have h2 : blockField f.desc 8 1 % 16 ≠ 2 := by rw [hs]; decide
  unfold waitPoll
  dsimp only
  rw [ht]
  dsimp only
  rw [if_neg (by simp [hm]), if_neg h2, if_neg (by simp [hh]), if_neg (by simp [hp]), waitValue, if_pos hw]

theorem waiting_mem (h : waiting s v i = some f) : f ∈ (getVi s v).fly ∧ f.idx.idx = i ∧ f.fin = none := by
  unfold waiting at h
  split at h
  · cases h
  · have hp := List.find?_some h
    simp only [Bool.and_eq_true, beq_iff_eq, Option.isNone_iff_eq_none] at hp
    obtain ⟨⟨⟨hidx, -⟩, hfin⟩, -⟩ := hp
    exact ⟨List.mem_of_find?_eq_some h, hidx, hfin⟩

theorem putResult_scratch {bs : List Byte} {e : Eng} {o : Nat} (hs : blockField f.desc 0x10 1 % 16 = 3)
    (ha : spAddr s .ring v (blockField f.desc 0x18 8) bs.length = .at_ e o) (value : Nat) (ok : Bool) :
    putResult v f bs value ok s = finish v f.idx (okC value) (spWrite e o bs s) := by
  unfold putResult
  dsimp only
  rw [if_pos hs, ha]

theorem length_stampBytes (x : Nat) : (stampBytes x).length = 16 := by simp [stampBytes, length_natBytes]

/-! ## COPY and FILL -/

def begun (y : Fly) : Fly := { y with started := true }

/-- A descriptor in flight that begins is in flight, begun. -/
theorem begun_mem (hf : f ∈ (getVi s v).fly) : begun f ∈ (getVi (updFly v f.idx begun s) v).fly := by
  rw [updFly, getVi_updVi_same]
  exact List.mem_map.mpr ⟨f, hf, if_pos (by simp)⟩

theorem startMove_fenced (hl : mLen f.desc ≠ 0) (hc : chooseMover s v f.desc = none) :
    startMove v f s = finish v f.idx (failC .fencedUnit) s := by
  rw [startMove]
  dsimp only
  rw [if_neg hl, hc]

theorem startMove_joins {m : Mover} (hl : mLen f.desc ≠ 0) (hc : chooseMover s v f.desc = some m)
    (hs : scratchCheck s m v f.desc = none) (hq : (getMv s m).queue ≠ []) :
    startMove v f s = updMv m (fun x => { x with queue := x.queue ++ [(v, f.idx)] }) (updFly v f.idx begun s) := by
  rw [startMove]
  dsimp only
  rw [if_neg hl, hc]
  dsimp only
  rw [hs]
  dsimp only
  rw [if_neg (by simpa using hq)]
  rfl

/-- A mover whose queue is empty begins nothing. -/
theorem startBlock_empty {m : Mover} (h : (getMv s m).queue = []) : startBlock m s = s := by
  rw [startBlock, h]
  simp

theorem nextDesc_last {m : Mover} (h : (getMv s m).queue.tail = []) : ∃ a b c d, nextDesc m s =
    { s with movers := a, hret := b, mesh := c, hl := d } ∧
      (getMv (nextDesc m s) m).queue = [] := by
  have hq : (getMv (takenUp m (updMv m (fun x => { queue := x.queue.tail }) s)) m).queue = [] := by
    rw [takenUp, show ∀ p u, getMv (forget p u) m = getMv u m from fun _ _ => rfl, getMv_updMv_same]
    exact h
  rw [nextDesc, startBlock_empty hq]
  exact ⟨_, _, _, _, rfl, hq⟩

/-- The bytes of one block of a FILL. -/
def fillBytes (d : Block) (pos : Nat) : List Byte :=
  (List.range (blockLen d pos)).map fun i =>
    BitVec.ofNat 8 (blockField d 0x18 8 / 256 ^ ((pos + i) % 2 ^ (blockField d 0x12 1 % 4)))

/-- A FILL of a scratchpad writes its block, and with its last block it ends (R258, R260). -/
theorem doBlock_fill {m : Mover} {e : Eng} {o : Nat} (hop : dOp f.desc = 2) (hd : mDstSpace f.desc = 3)
    (hl : mLen f.desc ≤ (getMv s m).pos + blockLen f.desc (getMv s m).pos)
    (ha : spAddr s (.mover m) v (mDst f.desc + (getMv s m).pos) (blockLen f.desc (getMv s m).pos) = .at_ e o) (res : BlockRes) :
    doBlock m v f res s = endDesc m v f.idx (okC (mLen f.desc)) (spWrite e o (fillBytes f.desc (getMv s m).pos) s) := by
  have hc : isCopy f.desc = false := by simp [isCopy, hop]
  have hsrc : memSource f.desc = false := by simp [memSource, hc]
  have hopen : blockOpen s m v f.desc = true := by simp [blockOpen, hsrc, memDest, hd]
  have hov : overlaps s m v f.desc = false := by simp [overlaps, hc]
  have hb : blockSource s m v f.desc (getMv s m).pos (blockAns s m v res) = .ok (fillBytes f.desc (getMv s m).pos) := by
    rw [blockSource, hc]
    rfl
  have hlen : (fillBytes f.desc (getMv s m).pos).length = blockLen f.desc (getMv s m).pos := by simp [fillBytes]
  have hdata (l : List Byte) : blockData s m v f.desc l = l := by rw [blockData, hov]; rfl
  have htouch : touchBlock s m v f.desc = s := by rw [touchBlock, hov, hsrc]; rfl
  have hwrite : blockWrite m v f (getMv s m).pos (fillBytes f.desc (getMv s m).pos) (destOk res) s =
      (.written, spWrite e o (fillBytes f.desc (getMv s m).pos) s) := by
    unfold blockWrite
    dsimp only
    rw [if_pos hd, hlen, ha]
  unfold doBlock
  dsimp only
  rw [if_neg (by simp [hopen]), hb]
  dsimp only
  rw [if_neg (by simp [hd]), hdata, htouch, hwrite]
  dsimp only
  rw [blockDone]
  exact if_pos hl

theorem execMoverBlock_runs {m : Mover} {j : Job} {l : List (Vi × Job)} (hon : moverOn s m = true) (hq : (getMv s m).queue = (v, j) :: l)
    (hr : (getVi s v).resetting = false) (hf : flyOf s v j = some f) (hn : f.fin = none) (hm : (getVi s v).misses = [])
    (hh : heldForSet s m = false) (res : BlockRes) : execMoverBlock m res s = .next (doBlock m v f res s) := by
  unfold execMoverBlock
  rw [if_neg (by simp [hon]), hq]
  dsimp only
  rw [hf]
  dsimp only
  rw [if_neg (by simp [hr]), if_neg (by simp [hn]), if_neg (by simp [hh, hm])]

/-! ## RECIPE_LOAD -/

theorem mget_putWords (l : List (BitVec 192)) (o : Nat) (m : SMap (BitVec 192)) (k : Nat) :
    mget 0 (putWords l o m) k = if o ≤ k ∧ k < o + l.length then l.getD (k - o) 0 else mget 0 m k := by
  induction l generalizing o m with
  | nil => rw [putWords, if_neg (by simp)]
  | cons w l ih =>
    rw [putWords, ih]
    obtain h | rfl | h := Nat.lt_trichotomy k o
    · rw [if_neg (by omega), if_neg (by omega), mget_mset_other _ _ _ (by omega)]
    · rw [if_neg (by omega), if_pos (by simp), mget_mset_same]
      simp
    · have hk : k - o = (k - (o + 1)) + 1 := by omega
      rw [hk, List.getD_cons_succ, mget_mset_other _ _ _ (by omega)]
      refine if_congr ?_ rfl rfl
      rw [List.length_cons]
      omega

/-- Every engine named takes the words as often as it is named. -/
theorem eng_updBanks (g : EngSt → EngSt) (es : List Eng) (s : State) (e : Eng) :
    eng (es.foldl (fun s e => updEng e g s) s) e = g^[es.count e] (eng s e) := by
  induction es generalizing s with
  | nil => rfl
  | cons a es ih =>
    rw [List.foldl_cons, ih]
    by_cases h : a = e
    · subst h
      rw [eng_updEng_same, List.count_cons_self, Function.iterate_succ_apply]
    · rw [eng_updEng_other _ h, List.count_cons_of_ne h]

theorem updBank_stands (g : SMap (BitVec 192) → SMap (BitVec 192)) (n : Nat) (x : EngSt) :
    ((updBank g)^[n] x).active = x.active ∧ ((updBank g)^[n] x).swapDue = x.swapDue := by
  induction n generalizing x with
  | zero => exact ⟨rfl, rfl⟩
  | succ n ih =>
    have h : (updBank g x).active = x.active ∧ (updBank g x).swapDue = x.swapDue := by
      unfold updBank
      split <;> exact ⟨rfl, rfl⟩
    rw [Function.iterate_succ_apply]
    exact ⟨(ih _).1.trans h.1, (ih _).2.trans h.2⟩

/-- The open bank that is not active, for an engine whose active bank is a. -/
def spareBank (a : Bool) (x : EngSt) : SMap (BitVec 192) := if a then x.bank0 else x.bank1

theorem spareBank_updBank (g : SMap (BitVec 192) → SMap (BitVec 192)) (x : EngSt) :
    spareBank x.active (updBank g x) = g (spareBank x.active x) := by
  unfold updBank spareBank
  split <;> rfl

/-- An engine that has taken the words holds them in its spare bank (R269). -/
theorem spareBank_loaded {n : Nat} (hn : n ≠ 0) (ws : List (BitVec 192)) (o : Nat) (x : EngSt) {k : Nat} (hk : k < ws.length) :
    mget 0 (spareBank x.active ((updBank (putWords ws o))^[n] x)) (o + k) = ws.getD k 0 := by
  obtain ⟨m, rfl⟩ := Nat.exists_eq_succ_of_ne_zero hn
  rw [Function.iterate_succ_apply', ← (updBank_stands (putWords ws o) m x).1, spareBank_updBank, mget_putWords,
    if_pos ⟨by omega, by omega⟩, Nat.add_sub_cancel_left]

theorem getD_wordsOf (n : Nat) (l : List Byte) {k : Nat} (h : k < n) :
    (wordsOf n l).getD k 0 = BitVec.ofNat 192 (leNat ((l.drop (24 * k)).take 24)) := by
  simp [wordsOf, List.getD_eq_getElem?_getD, h]

/-- The words of a RECIPE_LOAD in the spare bank of every engine named. -/
def banksLoaded (v : Vi) (d : Block) (l : List Byte) (s : State) : State :=
  (recipeEngs s v d).foldl (fun s e => updEng e (updBank (putWords (wordsOf (rWords d) l) (rOff d))) s) s

theorem loadBanks_fits {d : Block} {l : List Byte} (ho : rOff d + rWords d ≤ 1024) (ha : rActivate d = false) (s : State) :
    loadBanks v d l s = banksLoaded v d l s := by
  unfold loadBanks
  extract_lets es u
  have hu : u = banksLoaded v d l s := if_neg (Nat.not_lt.mpr ho)
  rw [hu, if_neg (by simp [ha])]

theorem banksLoaded_same (v : Vi) (d : Block) (l : List Byte) (s : State) : ∃ a, banksLoaded v d l s = { s with engs := a } :=
  foldl_same (P := fun s t => ∃ a, t = { s with engs := a }) (fun s => ⟨s.engs, rfl⟩) (fun _ _ _ ⟨_, h⟩ ⟨b, k⟩ => ⟨b, by rw [k, h]⟩)
    (fun s e => ⟨_, rfl⟩) _ s

/-- What the load has touched before it writes: the slots it read through, and its descriptor, begun. -/
def touchedBegun (v : Vi) (f : Fly) (s : State) : State :=
  updFly v f.idx begun (touchAll v 2 (piecesOf s .ring v 2 (blockField f.desc 0x18 8) (24 * rWords f.desc)) s)

/-- Reading through slots touches them alone. -/
def SlotsTouched (s t : State) : Prop :=
  (∃ a b, t = { s with vis := a, lruCtr := b }) ∧ ∀ v, (getVi t v).fly = (getVi s v).fly

theorem SlotsTouched.refl (s : State) : SlotsTouched s s := ⟨⟨_, _, rfl⟩, fun _ => rfl⟩

theorem SlotsTouched.trans {s t u : State} (h : SlotsTouched s t) (k : SlotsTouched t u) : SlotsTouched s u := by
  obtain ⟨⟨a, b, rfl⟩, hv⟩ := h
  obtain ⟨⟨c, d, rfl⟩, kv⟩ := k
  exact ⟨⟨c, d, rfl⟩, fun v => (kv v).trans (hv v)⟩

theorem touchSlot_touches (w : Vi) (i : Fin 16) (s : State) : SlotsTouched s (touchSlot w i s) := by
  refine ⟨⟨_, _, rfl⟩, fun v => ?_⟩
  unfold touchSlot
  by_cases h : w = v
  · subst h
    rw [getVi_updVi_same]
    rfl
  · rw [getVi_updVi_other _ h]
    rfl

theorem touchAll_touches (v : Vi) (n : Nat) (l : List Piece) (s : State) : SlotsTouched s (touchAll v n l s) := by
  unfold touchAll
  split
  · refine foldl_same .refl (fun _ _ _ => .trans) (fun s p => ?_) l s
    split
    · exact touchSlot_touches _ _ _
    · exact .refl s
  · exact .refl s

theorem touchedBegun_same (hf : f ∈ (getVi s v).fly) : (∃ a b, touchedBegun v f s = { s with vis := a, lruCtr := b }) ∧
    begun f ∈ (getVi (touchedBegun v f s) v).fly := by
  obtain ⟨⟨a, b, h⟩, hv⟩ := touchAll_touches v 2 (piecesOf s .ring v 2 (blockField f.desc 0x18 8) (24 * rWords f.desc)) s
  rw [← hv v] at hf
  refine ⟨?_, begun_mem hf⟩
  rw [touchedBegun, h]
  exact ⟨_, _, rfl⟩

theorem recipeStart_loads {l : List Byte} (hc : rCount f.desc ≠ 0) (hw : rWords f.desc ≠ 0) (hen : fgetU s .ring .rcpEn v.val ≠ 0)
    (hb : recipeBadVeng s v f.desc = none)
    (hp : openPieces s 20 (piecesOf s .ring v 2 (blockField f.desc 0x18 8) (24 * rWords f.desc)) = true)
    (hs : recipeSource s v f.desc = .ok l) :
    recipeStart v f s = recipeDone v f (loadBanks v f.desc l (touchedBegun v f s)) := by
  unfold recipeStart
  dsimp only
  rw [if_neg (by simp [hc, hw]), if_neg hen, hb]
  dsimp only
  rw [if_neg (by simp [hp]), hs]
  rfl

theorem execRecipeLoad_starts (hw : firmwareOn s = true) (hr : ringOn s v = true)
    (hf : ((getVi s v).fly.find? fun f => f.idx.idx == i && dOp f.desc == 0x08 && f.fin.isNone) = some f) (hn : f.started = false) :
    execRecipeLoad v i s = .next (recipeStart v f s) := by
  unfold execRecipeLoad
  rw [if_neg (by simp [hw, hr]), hf]
  dsimp only
  rw [if_neg (by simp [hn])]

/-- A load that fits and is not to become active ends at once (R269, R410). -/
theorem recipeDone_loaded {l : List Byte} (hf : f ∈ (getVi s v).fly) (hs : ∀ e ∈ recipeEngs s v f.desc, (eng s e).swapDue = false) :
    ∃ u, recipeDone v f (banksLoaded v f.desc l (touchedBegun v f s)) =
        endRecipe v f.idx (okC (rWords f.desc * rCount f.desc)) u ∧ begun f ∈ (getVi u v).fly ∧
      ∀ e, eng u e = (updBank (putWords (wordsOf (rWords f.desc) l) (rOff f.desc)))^[(recipeEngs s v f.desc).count e] (eng s e) := by
  obtain ⟨⟨a, b, ht⟩, hm⟩ := touchedBegun_same hf
  have he (e : Eng) : eng (banksLoaded v f.desc l (touchedBegun v f s)) e =
      (updBank (putWords (wordsOf (rWords f.desc) l) (rOff f.desc)))^[(recipeEngs s v f.desc).count e] (eng s e) := by
    rw [banksLoaded, eng_updBanks, ht]
    rfl
  obtain ⟨c, hc⟩ := banksLoaded_same v f.desc l (touchedBegun v f s)
  have hfly : begun f ∈ (getVi (banksLoaded v f.desc l (touchedBegun v f s)) v).fly := by
    rw [getVi_of_vis (congrArg State.vis hc)]
    exact hm
  have hes : recipeEngs (banksLoaded v f.desc l (touchedBegun v f s)) v f.desc = recipeEngs s v f.desc := by
    rw [hc, ht]
    rfl
  refine ⟨_, ?_, hfly, he⟩
  rw [recipeDone, hes]
  refine if_pos (List.all_eq_true.mpr fun e h => ?_)
  rw [he, (updBank_stands _ _ _).2, hs e h]
  simp

theorem ended_endRecipe {c : Compl} (hf : f ∈ (getVi s v).fly) (hi : f.idx.idx = i) (hn : f.fin = none) :
    Ended (endRecipe v f.idx c s) v i c :=
  ended_finish (s := { s with lastLoad := (statusCode c.status, v.val) }) c hf hi hn

end Descriptors

/-- Settles O49: each descriptor by the equation of its command under the clause's hypotheses. -/
theorem descriptorsTakeEffect : Obligations.DescriptorsTakeEffect := by
  refine ⟨fun s v i d l hr hs hd hf hb hw hroom hok hl => ?_, fun s v i f ok x j hf hop ht hm hh hp => ?_, fun s v i f hf => ?_,
    fun s v i f y x j hf hs ht hm hh hp hw => ?_, fun s v i f ok e o hf hs ha => ?_, fun s v i f => ?_,
    fun s m v j f e o hon hq hr hf hn hm hh hop hd hl ha => ?_, fun s v i f l hfw hr hf hn => ?_⟩
  case refine_1 =>
    have hnext : NextIs s v i d l := ⟨hr, hs, hd, hf, hb, fun h => absurd h (by simp [hw])⟩
    refine ⟨_, execDispatch_enters hnext hroom hok hl, ?_⟩
    dsimp only
    generalize hF : ({ idx := { idx := i, lap := (getVi s v).lap }, desc := d, at_ := sampleAt s d } : Fly) = F
    have hv := getVi_updVi_same (s := s) v (dispatched l F (changingAt s v d))
    obtain ⟨q, hq⟩ : ∃ q, updVi v (dispatched l F (changingAt s v d)) s = { s with vis := q } := ⟨_, rfl⟩
    rw [hq] at hv ⊢
    have hk := (fetchNow_linesKept (s := { s with vis := q }) v v).same
    rw [hv] at hk
    refine ⟨by rw [hk]; rfl, by rw [hk]; rfl, fun hp => ?_⟩
    rw [fetchNow_none (by rw [hv]; exact hp), hv]
    exact ⟨rfl, rfl⟩
  case refine_2 =>
    obtain ⟨hmem, hidx, hfin⟩ := fresh_mem hf
    obtain ⟨a, b, c, he⟩ := acceptWrite_same x (natBytes 8 ((read64 s x + blockField f.desc 0x20 8) % 2 ^ 64)) s
    have hmw := memoryHolds_acceptWrite x (natBytes 8 ((read64 s x + blockField f.desc 0x20 8) % 2 ^ 64)) s
    have hx : exec (.signal v i ok) s = .next (finish v f.idx (okC (read64 s x))
        (acceptWrite x (natBytes 8 ((read64 s x + blockField f.desc 0x20 8) % 2 ^ 64)) s)) := by
      change execSignal v i ok s = _
      rw [execSignal, hf]
      exact congrArg Host.Outcome.next (signalNow_adds hop ht hm hh hp ok)
    refine ⟨_, hx, ?_⟩
    dsimp only
    rw [he] at hmw ⊢
    exact ⟨memoryHolds_congr hmw rfl rfl rfl, ended_finish (s := { s with mem := a, poison := b, engs := c }) _ hmem hidx hfin, rfl⟩
  case refine_3 =>
    obtain ⟨hmem, -⟩ := fresh_mem hf
    have hx : exec (.wait v i) s = .next (waitRead v f.idx f.desc (updFly v f.idx begun s)) := by
      change execWait v i s = _
      rw [execWait, hf]
      rfl
    have hk := (waitRead_linesKept v f.idx f.desc (updFly v f.idx begun s) v).same
    refine ⟨_, hx, ?_⟩
    dsimp only
    rw [hk]
    exact begun_mem hmem
  case refine_4 =>
    obtain ⟨hmem, hidx, hfin⟩ := waiting_mem hf
    have hx : exec (.waitPoll v i y) s = .next (finish v f.idx (okC (read64 s x)) s) := by
      change execWaitPoll v i y s = _
      rw [execWaitPoll, hf]
      exact congrArg Host.Outcome.next (waitPoll_holds hs ht hm hh hp hw y)
    exact ⟨_, hx, ended_finish _ hmem hidx hfin, rfl⟩
  case refine_5 =>
    obtain ⟨hmem, hidx, hfin⟩ := fresh_mem hf
    have hx : exec (.stamp v i ok) s = .next (finish v f.idx (okC (f.at_ % 2 ^ 64)) (spWrite e o (stampBytes f.at_) s)) := by
      change execStamp v i ok s = _
      rw [execStamp, hf]
      exact congrArg Host.Outcome.next (putResult_scratch hs (by rw [length_stampBytes, ha]) _ ok)
    exact ⟨_, hx, scratchHolds_spWrite rfl o _, ended_finish (s := spWrite e o (stampBytes f.at_) s) _ hmem hidx hfin, rfl⟩
  case refine_6 =>
    intro joins ends
    have joined {m : Mover} {c : Instr} (hmem : f ∈ (getVi s v).fly) (hx : exec c s = .next (startMove v f s))
        (hl : mLen f.desc ≠ 0) (hc : chooseMover s v f.desc = some m) (hs : scratchCheck s m v f.desc = none)
        (hq : (getMv s m).queue ≠ []) : Completes c s (joins m) := by
      refine ⟨_, hx.trans (congrArg Host.Outcome.next (startMove_joins hl hc hs hq)), ?_, begun_mem hmem, rfl⟩
      rw [getMv_updMv_same]
      rfl
    refine ⟨fun hf => ?_, fun hf => ?_⟩
    · have hx : exec (.copy v i) s = .next (startMove v f s) := by
        change execCopy v i s = _
        rw [execCopy, hf]
      exact ⟨fun hl => completes_finish hf (hx.trans (by rw [startMove_empty hl])),
        fun hl hc => completes_finish hf (hx.trans (by rw [startMove_fenced hl hc])), fun m => joined (fresh_mem hf).1 hx⟩
    · have hx : exec (.fill v i) s = .next (startMove v f s) := by
        change execFill v i s = _
        rw [execFill, hf]
      exact ⟨fun hl => completes_finish hf (hx.trans (by rw [startMove_empty hl])),
        fun hl hc => completes_finish hf (hx.trans (by rw [startMove_fenced hl hc])), fun m => joined (fresh_mem hf).1 hx⟩
  case refine_7 =>
    obtain ⟨hmem, rfl⟩ := flyOf_mem hf
    have hx : exec (.moverBlock m (.done [])) s = .next (endDesc m v f.idx (okC (mLen f.desc))
        (spWrite e o (fillBytes f.desc (getMv s m).pos) s)) :=
      (execMoverBlock_runs hon hq hr hf hn hm hh _).trans (congrArg Host.Outcome.next (doBlock_fill hop hd hl ha _))
    have he : Ended (finish v f.idx (okC (mLen f.desc)) (spWrite e o (fillBytes f.desc (getMv s m).pos) s)) v f.idx.idx
        (okC (mLen f.desc)) := ended_finish (s := spWrite e o (fillBytes f.desc (getMv s m).pos) s) _ hmem rfl hn
    have hsp : ScratchHolds s (finish v f.idx (okC (mLen f.desc)) (spWrite e o (fillBytes f.desc (getMv s m).pos) s)) e o
        (fillBytes f.desc (getMv s m).pos) := scratchHolds_spWrite (t := s) rfl o _
    obtain ⟨b, g, hfin⟩ : ∃ b g, finish v f.idx (okC (mLen f.desc)) (spWrite e o (fillBytes f.desc (getMv s m).pos) s) =
      { s with vis := b, engs := g } := ⟨_, _, rfl⟩
    refine ⟨_, hx, ?_⟩
    dsimp only
    rw [endDesc]
    rw [hfin] at he hsp ⊢
    obtain ⟨q, x, y, z, hnext, hempty⟩ := nextDesc_last (s := { s with vis := b, engs := g }) (m := m) (by
      change (getMv s m).queue.tail = []
      rw [hq]
      rfl)
    rw [hnext] at hempty ⊢
    exact ⟨hsp, he, hempty, rfl⟩
  case refine_8 =>
    obtain ⟨hidx, hfin⟩ : f.idx.idx = i ∧ f.fin = none := by
      have hp := List.find?_some hf
      simp only [Bool.and_eq_true, beq_iff_eq, Option.isNone_iff_eq_none] at hp
      obtain ⟨⟨hidx, -⟩, hfin⟩ := hp
      exact ⟨hidx, hfin⟩
    have hmem := List.mem_of_find?_eq_some hf
    have hx := execRecipeLoad_starts hfw hr hf hn
    intro d
    refine ⟨fun hz => ?_, fun hc hw hen hb hp hs ho ha hsw => ?_⟩
    · refine ⟨_, hx.trans (congrArg Host.Outcome.next (if_pos (by simpa using hz))), ended_endRecipe hmem hidx hfin⟩
    · obtain ⟨u, hu, hfly, heng⟩ := recipeDone_loaded (l := l) hmem hsw
      have hstart : recipeStart v f s = endRecipe v f.idx (okC (rWords d * rCount d)) u := by
        rw [recipeStart_loads hc hw hen hb hp hs, loadBanks_fits ho ha, hu]
      refine ⟨_, hx.trans (congrArg Host.Outcome.next hstart), ended_endRecipe (f := begun f) hfly hidx hfin, fun e he k hk => ?_⟩
      have hload := spareBank_loaded (List.count_pos_iff.mpr he).ne' (wordsOf (rWords d) l) (rOff d) (eng s e) (k := k)
        (by simpa [wordsOf] using hk)
      rw [getD_wordsOf _ _ hk, ← heng] at hload
      exact hload

end Sys2Proof.Proofs

/-! PROOFS. The step: the command in front, and idling. The stores at reset. -/

namespace Sys2Proof.Proofs

open Sys2Proof.Machine Sys2Proof.Laws

/-- Settles O1: the step's branch for a queue that is not empty. -/
theorem stepTakesFront : Obligations.StepTakesFront := by
  intro c rest s h
  rw [step, h]

theorem step_idle {s : State} (h : s.pending = []) : step s = .next (idle s) := by rw [step, h]

section Quiet

variable {s : State}

theorem foldl_id {α : Type} {f : State → α → State} {l : List α} (h : ∀ x ∈ l, f s x = s) : l.foldl f s = s := by
  induction l with
  | nil => rfl
  | cons x l ih => rw [List.foldl_cons, h x List.mem_cons_self, ih fun y hy => h y (List.mem_cons_of_mem x hy)]

theorem meshTick_empty (hm : s.mesh = []) (hw : s.wires = []) : meshTick s = s := by
  rw [meshTick, hm]
  dsimp only [List.length_nil, List.range_zero, List.foldl_nil]
  rw [hw, List.map_nil, ← hw]

theorem stageCheck_still (h : running s = false) : stageCheck s = s := by simp [stageCheck, h]

theorem startAll_none (h : ∀ p ∈ s.vis, p.2.startDue = false) : startAll s = s :=
  foldl_id fun p hp => by simp [h p hp]

theorem rearm_still (h : running s = false) : rearm s = s :=
  foldl_id fun p _ => foldl_id fun k _ => by
    cases k <;> simp [h]

theorem pumpAll_still (h : running s = false) : pumpAll s = s := by simp [pumpAll, ringRuns, h]

theorem payloadsDue_still (h : running s = false) : payloadsDue s = s := by simp [payloadsDue, ringRuns, h]

theorem pokeAll_still (h : running s = false) : pokeAll s = s := by simp [pokeAll, h]

/-- With the device not running, the mesh empty and no start due nothing acts by itself. -/
theorem background_still (h : running s = false) (hm : s.mesh = []) (hw : s.wires = []) (hv : ∀ p ∈ s.vis, p.2.startDue = false) :
    background s = s := by
  rw [background, meshTick_empty hm hw, stageCheck_still h, startAll_none hv, rearm_still h, pumpAll_still h, payloadsDue_still h,
    pokeAll_still h]

end Quiet

/-- Settles O2: idling keeps what every step keeps, and in a quiet device it is the two counts alone. -/
theorem idleTicks : Obligations.IdleTicks := by
  intro s h
  have hk := idle_keeps (Keeps.refl s)
  refine ⟨⟨idle s, step_idle h, hk.pending, hk.generation, hk.boot, hk.fenced, hk.out⟩, fun hr hm hw hv => ?_⟩
  rw [step_idle h, idle]
  exact congrArg Host.Outcome.next (background_still hr hm hw hv)

/-- Settles O3: at reset memory, marks and records are empty. -/
theorem resetHasInv : Obligations.ResetHasInv :=
  ⟨mwf_nil _, mwf_nil _, Nat.zero_le _, nofun⟩

end Sys2Proof.Proofs

/-! PROOFS. The change classes of register fields (R602, R620, R621, R664). -/

namespace Sys2Proof.Proofs

open Sys2Proof.Machine Sys2Proof.Laws

section Fields

variable {s : State} {r : Row} {v : Nat}

/-- A write of 8 bytes to an open register of one row writes its field. -/
theorem execRegisterWrite_row {o : BitVec 24} (hb : barsLive s = true) (ha : answers s vi0 = true) (ho : accessOk o.toNat 8 = true)
    (hl : lockedMgmt s (o.toNat / 8 * 8) = false) (hr : mgmtRows (o.toNat / 8 * 8) = [r])
    (hm : ∀ v c n t, mgmtActs (o.toNat / 8 * 8) v c n t = t) (w : U64) :
    execRegisterWrite vi0 .mgmt o 8 w s =
      .next (writeField w.toNat (coverLo o.toNat) 64 (formShadow [r] (coverLo o.toNat) 64 s) r) := by
  rw [execRegisterWrite_mgmt hb ha ho w, hostWriteReg, lockedAt, hl, if_neg (by decide), hm, rowsAt, hr]
  rfl

/-- A whole-register write gives a field its bits of the value. -/
theorem mergeField_whole (cur c lo w : Nat) (hv : v < 2 ^ 64) : mergeField cur v c 64 lo w = v / 2 ^ lo % 2 ^ w := by
  rw [mergeField, merged, if_pos (Nat.le_refl _), Nat.mod_eq_of_lt hv, bits]

theorem writeField_refused (hk : r.w1c = false) (hv : v < 2 ^ 64) (hx : r.ok (v / 2 ^ r.lo % 2 ^ r.w) = false) :
    writeField v 0 64 s r = s := by
  unfold writeField
  rw [mergeField_whole _ _ _ _ hv]
  split
  · rfl
  · dsimp only
    rw [if_neg (by simp [hk]), if_pos (by simp [hx])]

/-- A field of class L, and every field in GLAZING, is written at once. -/
theorem writeField_stores (hc : covered 0 64 r.lo r.w = true) (hk : r.w1c = false) (hv : v < 2 ^ 64)
    (hx : r.ok (v / 2 ^ r.lo % 2 ^ r.w) = true) (hb : r.cls = .l ∨ s.boot = .glazing) :
    writeField v 0 64 s r = fset r.f r.i (v / 2 ^ r.lo % 2 ^ r.w) s := by
  unfold writeField
  rw [mergeField_whole _ _ _ _ hv, if_neg (by simp [hc])]
  dsimp only
  rw [if_neg (by simp [hk]), if_neg (by simp [hx])]
  cases hcls : r.cls with
  | l => rfl
  | s => exact if_pos (hb.resolve_left (by simp [hcls]))
  | c => exact if_pos (hb.resolve_left (by simp [hcls]))

/-- A field of class S is not written in FIRED. -/
theorem writeField_s_fired (hk : r.w1c = false) (hs : r.cls = .s) (hb : s.boot = .fired) (c n : Nat) :
    writeField v c n s r = s := by
  unfold writeField
  split
  · rfl
  · dsimp only
    rw [if_neg (by simp [hk]), hs]
    split
    · rfl
    · dsimp only
      rw [hb]
      rfl

/-- A field of class C forms a shadow in FIRED. -/
theorem writeField_c_fired (hc : covered 0 64 r.lo r.w = true) (hk : r.w1c = false) (hv : v < 2 ^ 64)
    (hx : r.ok (v / 2 ^ r.lo % 2 ^ r.w) = true) (hs : r.cls = .c) (hb : s.boot = .fired) :
    writeField v 0 64 s r = { s with shadow := mins s.shadow (fkey r.f r.i) (v / 2 ^ r.lo % 2 ^ r.w) } := by
  unfold writeField
  rw [mergeField_whole _ _ _ _ hv, if_neg (by simp [hc])]
  dsimp only
  rw [if_neg (by simp [hk]), if_neg (by simp [hx]), hs]
  dsimp only
  rw [hb]
  rfl

theorem formShadow_same (l : List Row) (c n : Nat) (s : State) : ∃ a, formShadow l c n s = { s with shadow := a } := by
  unfold formShadow
  dsimp only
  split
  · exact ⟨_, rfl⟩
  · exact ⟨s.shadow, rfl⟩

theorem formShadow_glazing (hb : s.boot = .glazing) (l : List Row) (c n : Nat) : formShadow l c n s = s := by
  unfold formShadow
  dsimp only
  rw [hb]
  rfl

theorem lookup_mins_same {α : Type} (m : SMap α) (k : Nat) (x : α) : (mins m k x).lookup k = some x := by
  induction m with
  | nil => simp [mins]
  | cons p m ih =>
    rw [mins]
    split
    · simp [List.lookup]
    · split
      · simp [List.lookup]
      · next h => 
        have hk : (k == p.1) = false := by simpa using fun e => h e.symm
        rw [List.lookup, hk]
        exact ih

/-- A field that is written at once is all that changes. -/
theorem writes_field {o : BitVec 24} {w : U64} (hw : exec (.registerWrite vi0 .mgmt o 8 w) s = .next (writeField w.toNat 0 64 s r))
    (hi : r.i < 2 ^ 20) (h : writeField w.toNat 0 64 s r = fset r.f r.i v s) :
    Completes (.registerWrite vi0 .mgmt o 8 w) s fun t => fget t r.f r.i = v ∧ FieldsBut s t [r.f] ∧ t = { s with fld := t.fld } :=
  ⟨_, hw.trans (congrArg Host.Outcome.next h), fget_fset_same .., fset_fieldsBut hi _ _ _, rfl⟩

end Fields

/-! ## The three registers -/

section Registers

variable {r : Row}

/-- COL_TIMEOUT, the group table's base and DELIVERY (chapter 19). -/
def timeoutRow : Row := { f := .colTimeout, w := 26, lim := (10, 60000000) }
def groupRow : Row := { f := .groupBase, lo := 16, w := 32, cls := .s }
def deliveryRow : Row := { f := .delivery, lo := 8, cls := .c }

theorem row_ok (hf : r.f ≠ .trim) (x : Nat) : r.ok x = true ↔ (r.zero = true ∧ x = 0) ∨ (r.lim.1 ≤ x ∧ x ≤ r.lim.2) := by
  rw [Row.ok, if_neg hf]
  simp

theorem timeoutRow_ok (x : Nat) : timeoutRow.ok x = true ↔ 10 ≤ x ∧ x ≤ 60000000 :=
  (row_ok (by decide) x).trans (by simp [timeoutRow])

/-- A field without a range takes every value that it can hold. -/
theorem row_ok_wide (hf : r.f ≠ .trim) (hl : r.lim = (0, 2 ^ 64)) (hw : r.w ≤ 64) (x : Nat) : r.ok (x % 2 ^ r.w) = true :=
  (row_ok hf _).mpr (.inr (by
    rw [hl]
    exact ⟨Nat.zero_le _, (Nat.mod_lt x (Nat.two_pow_pos r.w)).le.trans (Nat.pow_le_pow_right (by decide) hw)⟩))

end Registers

/-- Settles O52: one row of each class, by what the write of its field does in either state. -/
theorem registerClassesHold : Obligations.RegisterClassesHold := by
  intro s w hb ha n b
  have hv : w.toNat < 2 ^ 64 := w.isLt
  have ht : exec (.registerWrite vi0 .mgmt 0xC0010 8 w) s = .next (writeField w.toNat 0 64 s timeoutRow) :=
    (execRegisterWrite_row hb ha rfl rfl rfl (fun _ _ _ _ => rfl) w).trans
      (by rw [formShadow_of_no_c (by simp)]; rfl)
  have hg : exec (.registerWrite vi0 .mgmt 0xC0008 8 w) s = .next (writeField w.toNat 0 64 s groupRow) :=
    (execRegisterWrite_row hb ha rfl rfl rfl (fun _ _ _ _ => rfl) w).trans
      (by rw [formShadow_of_no_c (by simp)]; rfl)
  have hd : exec (.registerWrite vi0 .mgmt 0x20000 8 w) s =
      .next (writeField w.toNat 0 64 (formShadow [deliveryRow] 0 64 s) deliveryRow) :=
    execRegisterWrite_row hb ha rfl rfl rfl (fun _ _ _ _ => rfl) w
  refine ⟨fun h1 h2 => ?_, fun h => ?_, fun hs => ?_, fun hs => ?_, fun hs => ?_, fun hs => ?_⟩
  · have h := writeField_stores (r := timeoutRow) (s := s) rfl rfl hv
      ((timeoutRow_ok _).mpr ⟨by simpa [timeoutRow, n] using h1, by simpa [timeoutRow, n] using h2⟩) (.inl rfl)
    obtain ⟨t, hx, hf, hs⟩ := writes_field ht (by decide) h
    exact ⟨t, hx, hf.trans (by simp [timeoutRow, n]), hs⟩
  · have hx : timeoutRow.ok (w.toNat / 2 ^ timeoutRow.lo % 2 ^ timeoutRow.w) = false := by
      rw [Bool.eq_false_iff, ne_eq, timeoutRow_ok]
      simp only [timeoutRow, Nat.pow_zero, Nat.div_one]
      omega
    exact ⟨_, ht, writeField_refused rfl hv hx⟩
  · have h := writeField_stores (r := groupRow) (s := s) rfl rfl hv (row_ok_wide (by decide) rfl (by decide) _) (.inr hs)
    exact writes_field hg (by decide) h
  · exact ⟨_, hg, writeField_s_fired rfl rfl hs _ _⟩
  · rw [formShadow_glazing hs] at hd
    have h := writeField_stores (r := deliveryRow) (s := s) rfl rfl hv (row_ok_wide (by decide) rfl (by decide) _) (.inr hs)
    exact writes_field hd (by decide) h
  · obtain ⟨a, he⟩ := formShadow_same [deliveryRow] 0 64 s
    rw [he, writeField_c_fired (r := deliveryRow) (s := { s with shadow := a }) rfl rfl hv (row_ok_wide (by decide) rfl (by decide) _) rfl hs] at hd
    exact ⟨_, hd, lookup_mins_same _ _ _, rfl⟩

end Sys2Proof.Proofs

/-! PROOFS. A fence and a report of a fault leave the islands and the detours as they were (R88 to R94, R150). -/

namespace Sys2Proof.Proofs

open Sys2Proof.Machine Sys2Proof.Laws

section Home

variable {s t u : State}

/-! ## The home's lines -/

theorem Ringwise.units (h : Ringwise s t) : unitPart t = unitPart s := (congrArg unitPart h.same).trans rfl

/-- Steps that leave the units one after the other. -/
theorem units_foldl {α : Type} {f : State → α → State} (hf : ∀ s x, unitPart (f s x) = unitPart s) (l : List α) (s : State) :
    unitPart (l.foldl f s) = unitPart s :=
  foldl_same (P := fun s t => unitPart t = unitPart s) (fun _ => rfl) (fun _ _ _ h k => k.trans h) hf l s

theorem units_putDir (l : LineA) (d : Dir) (s : State) : unitPart (putDir l d s) = unitPart s := rfl
theorem units_tick (s : State) : unitPart (tick s) = unitPart s := rfl
theorem units_fset (f : F) (i v : Nat) (s : State) : unitPart (fset f i v s) = unitPart s := rfl

theorem units_toHolder (h : Holder) (l : LineA) (m : String) (d : Option (Block × Bool)) (s : State) :
    unitPart (toHolder h l m d s) = unitPart s := (toHolder_ringwise s h l m d).units

theorem units_sendAll (hs : List Holder) (l : LineA) (m : String) (s : State) : unitPart (sendAll hs l m s) = unitPart s :=
  (sendAll_ringwise s hs l m).units

theorem units_askHost (l : LineA) (d : Dir) (k : ReqKind) (s : State) : unitPart (askHost l d k s) = unitPart s := rfl
theorem units_startEvict (l : LineA) (b : Block) (p d : Bool) (s : State) : unitPart (startEvict l b p d s) = unitPart s := rfl
theorem units_evictBare (l : LineA) (p d : Bool) (s : State) : unitPart (evictBare l p d s) = unitPart s := rfl
theorem units_startWrite (l : LineA) (k : ReqKind) (b : Block) (w : Who) (s : State) : unitPart (startWrite l k b w s) = unitPart s := rfl

theorem units_logPoison (l : LineA) (c : Nat) (s : State) : unitPart (logPoison l c s) = unitPart s := by
  unfold logPoison
  extract_lets a
  have ha : unitPart a = unitPart s := by
    unfold a
    split <;> rfl
  clear_value a
  rw [units_fset, units_fset, units_fset, ha]

theorem units_replyReq (l : LineA) (k : ReqKind) (r : Holder) (d : Dir) (s : State) : unitPart (replyReq l k r d s) = unitPart s := by
  unfold replyReq
  dsimp only
  split <;> rw [units_toHolder, units_putDir]

theorem units_serveReq (l : LineA) (k : ReqKind) (r : Holder) (s : State) : unitPart (serveReq l k r s) = unitPart s := by
  unfold serveReq
  extract_lets a d others own rest src
  have ha : unitPart a = unitPart s := rfl
  clear_value d a
  split
  · rw [units_askHost, ha]
  · rw [units_askHost, ha]
  · rw [units_sendAll, units_askHost, ha]
  · split
    · split
      · rw [units_replyReq, ha]
      · rw [units_sendAll, units_putDir, ha]
    · rw [units_sendAll, units_sendAll, units_putDir, ha]
  · rw [units_askHost, ha]
  · rw [units_sendAll, units_putDir, ha]

theorem units_servePut (l : LineA) (r : Holder) (b : Block) (p : Bool) (s : State) : unitPart (servePut l r b p s) = unitPart s := by
  unfold servePut
  extract_lets d a rest own
  have ha : unitPart a = unitPart s := units_toHolder ..
  clear_value a
  split
  · exact ha
  · split
    · rw [units_startEvict, ha]
    · split
      · rw [units_toHolder, units_putDir, ha]
      · rw [units_putDir, ha]

theorem units_snoopRsp (l : LineA) (n : String) (d : Option (Block × Bool)) (s : State) : unitPart (snoopRsp l n d s) = unitPart s := rfl

theorem units_serveSnoop (l : LineA) (n : Snoop) (s : State) : unitPart (serveSnoop l n s) = unitPart s := by
  unfold serveSnoop
  dsimp only
  split
  · rw [units_snoopRsp]
  · rw [units_snoopRsp]
  · rw [units_snoopRsp]
  · rw [units_sendAll, units_sendAll, units_putDir]
  · rw [units_sendAll, units_putDir]
  · rw [units_sendAll, units_putDir]

theorem units_settleLine (l : LineA) (d : Dir) (s : State) : unitPart (settleLine l d s) = unitPart s := by
  unfold settleLine
  split
  · split
    · rw [units_toHolder, units_putDir]
    · rw [units_evictBare, units_logPoison]
  · rw [units_putDir]

theorem units_serveAged (a : Aged) (s : State) : unitPart (serveAged a s) = unitPart s := by
  unfold serveAged
  split
  · exact units_servePut ..
  · exact (serveRingWrite_ringwise s _ _ _).units
  · exact units_startWrite ..
  · exact units_serveReq ..

theorem units_aged (l : List Aged) (s : State) : unitPart { s with aged := l } = unitPart s := rfl

theorem units_serveQueue (l : LineA) (n : Nat) (s : State) : unitPart (serveQueue l n s) = unitPart s := by
  induction n generalizing s with
  | zero => rfl
  | succ n ih =>
    unfold serveQueue
    split
    · rfl
    · split
      · split
        · rfl
        · rw [ih, units_serveAged, units_aged]
      · split
        · rfl
        · split
          · rw [units_serveAged, units_aged]
          · rfl

theorem units_wakeLine (l : LineA) (h : List Snoop) (s : State) : unitPart (wakeLine l h s) = unitPart s := by
  unfold wakeLine
  dsimp only
  rw [units_serveQueue]
  refine units_foldl (fun s n => ?_) h s
  split
  · exact units_serveSnoop ..
  · rfl

theorem units_toIdle (l : LineA) (d : Dir) (s : State) : unitPart (toIdle l d s) = unitPart s := by
  rw [toIdle, units_wakeLine, units_settleLine]

theorem units_answerSnoop (l : LineA) (d : Dir) (n : Snoop) (s : State) : unitPart (answerSnoop l d n s).2 = unitPart s := by
  unfold answerSnoop
  dsimp only
  split
  · rfl
  · rfl
  · dsimp only
    split <;> rfl

theorem units_gathered (l : LineA) (s : State) : unitPart (gathered l s) = unitPart s := by
  unfold gathered
  extract_lets d
  split
  · rfl
  · split
    next d' u h =>
    have hu : unitPart u = unitPart s := by
      split at h
      · next n _ =>
        have hs := units_answerSnoop l d n s
        rwa [h] at hs
      · cases h
        rfl
    clear h
    extract_lets a
    have ha : unitPart a = unitPart s := hu
    clear_value a
    split
    · split
      · rw [units_replyReq, ha]
      · rw [units_toIdle, ha]
      · split
        · rw [units_startEvict, ha]
        · rw [units_evictBare, ha]
      · rw [units_startWrite, ha]
      · rw [units_replyReq, ha]
      · rw [units_toIdle, ha]
    · split
      · rw [units_replyReq, ha]
      · exact ha
    · exact ha

/-! ## A holder that leaves -/

theorem units_loseData (l : LineA) (d : Dir) (s : State) : unitPart (loseData l d s).2 = unitPart s := by
  unfold loseData
  split
  · rfl
  · rw [units_tick, units_logPoison]

theorem units_dropIdle (l : LineA) (o : Bool) (d : Dir) (s : State) : unitPart (dropHolderLine.dropIdle l o d s) = unitPart s := by
  unfold dropHolderLine.dropIdle
  split
  · exact units_evictBare ..
  · exact units_settleLine ..

theorem units_dropHolderLine (h : Holder) (s : State) (q : Nat × Dir) : unitPart (dropHolderLine h s q) = unitPart s := by
  have hx (c : Bool) (l : LineA) (d : Dir) : unitPart (if c then loseData l d s else (d, s)).2 = unitPart s := by
    split
    · exact units_loseData ..
    · rfl
  unfold dropHolderLine
  extract_lets l d owned mine asked d1 x
  have hy : unitPart x.2 = unitPart s := hx _ _ _
  clear_value x d1
  split
  · split
    · exact units_dropIdle ..
    · rfl
  · split
    · exact units_toIdle ..
    · exact units_putDir ..
  · split
    · exact units_putDir ..
    · rw [units_gathered, units_putDir, hy]
  · split
    · split
      · rw [units_toIdle, hy]
      · rw [units_putDir, hy]
    · rw [units_gathered, units_putDir, hy]
  · exact units_putDir ..

theorem units_fenceHolder (k : Kiln) (s : State) : unitPart (fenceHolder k s) = unitPart s :=
  units_foldl (fun s q => units_dropHolderLine _ s q) _ _

/-! ## Ports and collectives that leave -/

theorem units_updPort (p : Port) (f : PortSt → PortSt) (s : State) : unitPart (updPort p f s) = unitPart s := rfl
theorem units_fcount (f : F) (i w n : Nat) (s : State) : unitPart (fcount f i w n s) = unitPart s := rfl
theorem units_noteLast (g n : Nat) (b : Bool) (s : State) : unitPart (noteLast g n b s) = unitPart s := rfl
theorem units_clearColl (g : Nat) (s : State) : unitPart (clearColl g s) = unitPart s := rfl
theorem units_sendFrame (f : Frame) (s : State) : unitPart (sendFrame f s) = unitPart s :=
  (Steady.of_routed (sendFrame_routed f s)).units
theorem units_sendAbort (g n c a : Nat) (l : List Nat) (s : State) : unitPart (sendAbort g n c a l s) = unitPart s :=
  (Steady.of_routed (sendAbort_routed g n c a l s)).units
theorem units_endColl (g : Nat) (x : Option Compl) (n : Option Nat) (k a : Nat) (s : State) :
    unitPart (endColl g x n k a s) = unitPart s := (endColl_steady g x n k a s).units

theorem units_recvAbort (g n : Nat) (src : Option Nat) (c a : Nat) (s : State) : unitPart (recvAbort g n src c a s) = unitPart s := by
  unfold recvAbort
  extract_lets x u who
  have hu : unitPart u = unitPart s := units_fcount ..
  clear_value u
  split
  · split
    · rw [units_endColl, units_fcount, hu]
    · rw [units_endColl, hu]
  · split
    · rw [units_noteLast, units_sendAbort, hu]
    · exact hu

theorem units_crossAborts (p : Port) (s : State) : unitPart (crossAborts p s) = unitPart s := by
  unfold crossAborts
  extract_lets recs u
  have hu : unitPart u = unitPart s := units_updPort ..
  clear_value u
  refine (units_foldl (fun s r => ?_) recs u).trans hu
  split
  · rfl
  · refine units_foldl (fun s n => ?_) _ s
    split
    · exact units_recvAbort ..
    · exact units_sendFrame ..

theorem units_rerouteAll (s : State) : unitPart (rerouteAll s) = unitPart s := by
  have h (u : State) (w : Frame × Option Port) : unitPart (routeIn w.1 w.2 u) = unitPart u :=
    (Steady.of_routed (routeIn_routed w.1 w.2 u)).units
  have hw : unitPart { s with waitq := [] } = unitPart s := rfl
  unfold rerouteAll
  generalize s.waitq = l
  exact (units_foldl h l _).trans hw

theorem units_dropHold (p : Port) (s : State) : unitPart (dropHold p s) = unitPart s := rfl

theorem units_leaveUp (p : Port) (x : PState) (s : State) : unitPart (leaveUp p x s) = unitPart s := by
  unfold leaveUp
  split
  · rw [units_crossAborts, units_rerouteAll, units_dropHold, units_updPort]
  · exact units_updPort ..

theorem units_fencePorts (l : List Port) (s : State) : unitPart (l.foldl (fun s p => fencePort p s) s) = unitPart s :=
  units_foldl (fun s p => units_leaveUp p .fenced s) l s

theorem units_counted (c : Prop) [Decidable c] (f : F) (s : State) : unitPart (if c then fcount f 0 32 1 s else s) = unitPart s := by
  split <;> rfl

theorem units_originate (g : Nat) (x : Status) (n : Nat) (s : State) : unitPart (originate g x n s) = unitPart s := by
  unfold originate
  dsimp only
  rw [units_endColl, units_counted, units_counted, units_fcount]

theorem units_finish (v : Vi) (i : Job) (c : Compl) (s : State) : unitPart (finish v i c s) = unitPart s := rfl

theorem units_fenceColls (f : Flue) (s : State) : unitPart (fenceColls f s) = unitPart s := by
  refine units_foldl (fun s q => ?_) _ s
  split
  · exact units_originate ..
  · rw [units_clearColl, units_finish]

theorem units_dropCutFlues (l : List Flue) (s : State) : unitPart (dropCutFlues l s) = unitPart s := by
  have h (u : State) (f : Flue) : unitPart (fenceColls f ((portsOf f).foldl (fun s p => fencePort p s) u)) = unitPart u := by
    rw [units_fenceColls, units_fencePorts]
  unfold dropCutFlues
  exact units_foldl h _ s

/-! ## Engines, movers and dies that leave -/

theorem fenceEngine_steady (e : Eng) (b : Bool) (s : State) : Steady s (fenceEngine e b s) := by
  unfold fenceEngine
  extract_lets a c x d others f
  have ha : Steady s a := updEng_steady e _ s
  have hc : Steady a c := .ite (acceptOwn_steady e a) (.refl a)
  have hd : Steady c d := endIndex_steady e _ 0 c
  have hf : Steady d f := updEng_steady e _ d (fun _ h => by cases h)
  clear_value f d c a
  refine (((ha.trans hc).trans hd).trans hf).trans ?_
  exact Steady.trans (t := clearCrossings (.engine e) f) (.of rfl rfl rfl rfl) (.foldl (fun s i => indexEnded_steady i _ 0 s) others _)

theorem fenceMover_steady (m : Mover) (s : State) : Steady s (fenceMover m s) := by
  unfold fenceMover
  extract_lets x a b
  have ha : Steady s a := by
    unfold a
    split
    · exact (finish_steady _ _ _ s).trans (.foldl (fun s (q : Vi × Job) => finish_steady q.1 q.2 _ s) _ _)
    · exact .refl s
  have hb : Steady a b := by
    unfold b
    split
    · exact .of rfl rfl rfl rfl
    · exact .refl a
  clear_value b a
  exact ((ha.trans hb).trans (forget_steady _ b)).trans (updMv_steady m _ _ fun _ h => absurd rfl h)

theorem units_fenceKiln (k : Kiln) (s : State) : unitPart (fenceKiln k s) = unitPart s := by
  unfold fenceKiln
  extract_lets a b c
  have ha : unitPart a = unitPart s := rfl
  have hb : unitPart b = unitPart a := units_foldl (fun s e => (fenceEngine_steady e false s).units) _ a
  have hc : unitPart c = unitPart b := units_foldl (fun s m => (fenceMover_steady m s).units) _ b
  clear_value c b a
  refine Eq.trans ?_ ((hc.trans hb).trans ha)
  exact (show unitPart (clearDie k.val (fenceHolder k c)) = unitPart (fenceHolder k c) from rfl).trans (units_fenceHolder k c)

end Home

/-! ## Fences and faults -/

section Fences

variable {s t : State}

/-- What the islands and the detours are, apart from a committed set. -/
def isles (s : State) := (s.pllParked, s.stopped, s.detours)

theorem isles_of_units (h : unitPart t = unitPart s) : isles t = isles s :=
  congrArg (fun x => (x.1, x.2.1, x.2.2.1)) h

theorem isles_report (u : FUnit) (c n : Nat) (v p : Option Nat) (s : State) : isles (report u c n v p s) = isles s :=
  isles_of_units (report_ringwise s u c n v p).units

theorem isles_latchSafe (s : State) : isles (latchSafe s) = isles s := by
  unfold latchSafe
  split <;> rfl

/-- What a step of a committed set changes: fields, a NOTICE, and how far the set is. -/
def SetStep (s t : State) : Prop := ∃ a b c d e f g, t = { s with
  fld := a, chg := b, fns := c, out := d, applying := e, late := f, unitsLeft := g }

theorem applySet_same (s : State) : ∃ a b, applySet s = { s with fld := a, chg := b } := by
  have h := foldl_same (P := fun s t => ∃ a, t = { s with fld := a }) (fun s => ⟨s.fld, rfl⟩) (fun _ _ _ ⟨_, h⟩ ⟨b, k⟩ => ⟨b, by rw [k, h]⟩)
    (f := fun s (p : Nat × Nat) => match fieldOfKey p.1 with
      | some f => fset f (p.1 % 2 ^ 20) p.2 s
      | none => s) (fun s p => by
      split
      · exact ⟨_, rfl⟩
      · exact ⟨s.fld, rfl⟩) s.chg { s with chg := [] }
  obtain ⟨a, ha⟩ := h
  exact ⟨a, [], ha⟩

theorem noticeVis_same (l : List Nat) (s : State) : ∃ a b, noticeVis l s = { s with fns := a, out := b } := by
  refine foldl_same (P := fun s t => ∃ a b, t = { s with fns := a, out := b }) (fun s => ⟨s.fns, s.out, rfl⟩)
    (fun _ _ _ ⟨_, _, h⟩ ⟨b, c, k⟩ => ⟨b, c, by rw [k, h]⟩) (fun s n => ?_) l s
  split
  · obtain ⟨o, f, h⟩ := raiseVec_same (viNo n) vecNotice s
    exact ⟨f, o, h⟩
  · exact ⟨s.fns, s.out, rfl⟩

/-- With its last unit a committed set is whole, and is over. -/
theorem finishSet_ends (s : State) : SetStep s (finishSet s) ∧ (finishSet s).applying = false ∧ (finishSet s).unitsLeft = [] := by
  unfold finishSet
  extract_lets vis a b
  obtain ⟨x, y, hx⟩ := applySet_same s
  obtain ⟨f, o, hf⟩ := noticeVis_same vis (applySet s)
  have ha : a = { s with fld := x, chg := y, fns := f, out := o } := by
    unfold a
    rw [hf, hx]
  have hb : b = { s with fld := x, chg := y, fns := f, out := o, applying := false, late := false, unitsLeft := [] } := by
    unfold b
    rw [ha]
  rw [hb]
  split
  · obtain ⟨p, q, hr⟩ := raiseVec_same vi0 vecNotice { s with
      fld := x, chg := y, fns := f, out := o, applying := false, late := false, unitsLeft := [] }
    rw [notice, hr]
    exact ⟨⟨_, _, _, _, _, _, _, rfl⟩, rfl, rfl⟩
  · exact ⟨⟨_, _, _, _, _, _, _, rfl⟩, rfl, rfl⟩

theorem leaveSet_step (p : CUnit → Bool) (s : State) : SetStep s (leaveSet p s) := by
  unfold leaveSet
  split
  · exact ⟨s.fld, s.chg, s.fns, s.out, s.applying, s.late, s.unitsLeft, rfl⟩
  · dsimp only
    split
    · exact (finishSet_ends s).1
    · exact ⟨s.fld, s.chg, s.fns, s.out, s.applying, s.late, _, rfl⟩

theorem SetStep.isles (h : SetStep s t) : isles t = Proofs.isles s := by
  obtain ⟨a, b, c, d, e, f, g, rfl⟩ := h
  rfl

theorem units_noticeVis (l : List Nat) (s : State) : unitPart (noticeVis l s) = unitPart s := by
  obtain ⟨a, b, h⟩ := noticeVis_same l s
  rw [h]
  rfl

theorem isles_fence (u : FUnit) (s : State) : isles (fence u s) = isles s := by
  unfold fence
  split
  · rfl
  · extract_lets cut s0 a b c d e
    have ha : isles a = isles s := rfl
    have hb : isles b = isles a := by
      refine isles_of_units ?_
      unfold b
      split
      · exact (fenceEngine_steady _ _ a).units
      · exact (fenceMover_steady _ a).units
      · exact units_fenceKiln ..
      · exact units_fenceKiln ..
      · exact units_fenceKiln ..
      · exact units_fenceKiln ..
      · exact units_leaveUp ..
      · exact units_fencePorts ..
      · exact (units_fenceColls _ _).trans (units_fencePorts ..)
      · exact (units_fenceColls _ _).trans (units_fencePorts ..)
      · exact (units_fenceColls _ _).trans (units_fencePorts ..)
      · rfl
    have hc : isles c = isles b := by
      unfold c
      split <;> rfl
    have hd : isles d = isles c := isles_of_units (units_noticeVis _ c)
    have he : isles e = isles d := (leaveSet_step _ _).isles.trans (isles_of_units (units_dropCutFlues cut d))
    have hall := he.trans (hd.trans (hc.trans (hb.trans ha)))
    clear_value e d c b a
    split
    · rw [fatal, isles_latchSafe, isles_report, hall]
    · exact hall

/-- A fault leaves the islands as they were: what it stops is stopped beside it. -/
theorem isles_raise (u : FUnit) (c n : Nat) (s : State) : isles (raise u c n s) = isles s := by
  unfold raise
  dsimp only
  split
  · rw [isles_fence, isles_report]
  · split
    · rw [isles_latchSafe, isles_report]
    · exact isles_report ..

end Fences

end Sys2Proof.Proofs

/-! PROOFS. What unit, island and change commands change (R88 to R94, R158 to R168, R605, R606). -/

namespace Sys2Proof.Proofs

open Sys2Proof.Machine Sys2Proof.Laws

/-! ## Vectors -/

section Vectors

variable (s : State)

theorem msix_updFn (v w : Vi) (f : Fn → Fn) (hf : ∀ x, (f x).msix = x.msix := by exact fun _ => rfl) :
    (getFn (updFn v f s) w).msix = (getFn s w).msix := getFn_updFn_field Fn.msix hf v w s

theorem msix_raiseVec (v w : Vi) (n : Fin 4) : (getFn (raiseVec v n s) w).msix = (getFn s w).msix := by
  unfold raiseVec
  split
  · rfl
  · split
    · dsimp only
      split
      · exact msix_updFn _ v w _
      · rfl
    · exact msix_updFn s v w _

theorem msix_raiseCompletion (v w : Vi) : (getFn (raiseCompletion v s) w).msix = (getFn s w).msix := by
  unfold raiseCompletion
  split
  · exact msix_updFn s v w _
  · exact msix_raiseVec s v w _

/-- Messages that go out leave the vectors' table as it is (R158). -/
theorem msix_flushVec (v w : Vi) : (getFn (flushVec v s) w).msix = (getFn s w).msix := by
  refine foldl_same (P := fun s t => (getFn t w).msix = (getFn s w).msix) (fun _ => rfl) (fun _ _ _ h k => k.trans h) (fun s n => ?_) _ s
  have hp := msix_updFn s v w fun x => { x with pba := mset false x.pba n.val false }
  split
  · dsimp only
    split
    · exact (msix_raiseCompletion _ v w).trans hp
    · exact (msix_raiseVec _ v w n).trans hp
  · rfl

/-- A vector whose mask is cleared. -/
def unmasked (v : Vi) (n : Fin 4) (s : State) : State :=
  updFn v (fun x => { x with msix := mupd {} x.msix n.val fun e => { e with masked := false } }) s

theorem masked_unmasked (v : Vi) (n : Fin 4) (s : State) : (mget {} (getFn (unmasked v n s) v).msix n.val).masked = false := by
  rw [unmasked, getFn_updFn_same, mget_mupd_same]

end Vectors

/-! ## Resets of a port's VIs -/

section Resets

variable {s : State}

theorem execPerst1Assert_resets {n : Nat} (hp : s.board.pwrgood = true) (hr : s.resetting = none) (hb : s.boot ≠ .safe)
    (hn : 1000 ≤ n) : execPerst1Assert n s = .next (port1Reset (updBoard (fun b => { b with perst1 := true }) s)) := by
  unfold execPerst1Assert
  have hseen : (s.board.pwrgood && seen n 1000 s) = true := by simp [hp, seen, hn]
  have hafter : afterPulse n 1000 s = s := if_neg (by simp [hn])
  dsimp only
  rw [hseen, hafter, if_pos rfl, port1Trigger, if_neg (by simp [updBoard, hp, hr]), if_neg (by simpa [updBoard] using hb)]

/-- A port 1 reset takes every VI of the port into its reset, and the port and its PF are as at reset (R162, R166). -/
theorem port1Reset_leaves (s : State) : (port1Reset s).board = s.board ∧ getHp (port1Reset s) 1 = {} ∧ getPf (port1Reset s) 1 = {} ∧
    ∀ v ∈ port1Vis, InReset (port1Reset s) v := by
  unfold port1Reset
  obtain ⟨u, hu⟩ : ∃ u, u = { updHp 1 (fun _ => {}) s with
    pfs := mset {} s.pfs 1 {}, stopped := s.stopped.filter fun i => i != Island.hostPort 1 } := ⟨_, rfl⟩
  rw [← hu]
  have hpart := units_resets port1Vis u
  simp only [unitPart, Prod.mk.injEq] at hpart
  obtain ⟨-, -, -, hpfs, hports, hboard, -, -⟩ := hpart
  refine ⟨?_, ?_, ?_, fun v hv => inReset_resets u v hv⟩
  · rw [hboard, hu]
    rfl
  · rw [getHp, hports, hu]
    exact getHp_updHp_same 1 (fun _ => {}) s
  · rw [getPf, hpfs, hu]
    exact mget_mset_same ({} : Pf) s.pfs 1 {}

theorem execVfEnableClear_resets {p : HPort} (hp : s.board.pwrgood = true) (hr : s.resetting = none) (hb : s.boot ≠ .safe)
    (hv : (getPf s p).vfEnable = true) :
    execVfEnableClear p s = .next ((vfsOf p).foldl viResetStart (updPf p (fun x => { x with vfEnable := false }) s)) := by
  unfold execVfEnableClear
  rw [if_pos (by simp [hp, hr]), clearVfEnable, if_pos hv]
  change Host.Outcome.next (if s.boot = Boot.safe then _ else _) = _
  rw [if_neg hb]

theorem getPf_of_units {t : State} (h : unitPart t = unitPart s) (p : HPort) : getPf t p = getPf s p := by
  simp only [unitPart, Prod.mk.injEq] at h
  obtain ⟨-, -, -, hpfs, -⟩ := h
  rw [getPf, getPf, hpfs]

end Resets

/-! ## Islands that stop -/

section Islands

variable {s : State}

/-- An engine's island that stops is fenced, and the lists of islands stand (R89 to R94). -/
theorem stopIsland_engine {c : Nat} (hc : causeClass c = 1) (e : Eng) (n : Nat) (s : State) :
    isles (stopIsland (.engine e) c n s) = isles s ∧ engFenced (stopIsland (.engine e) c n s) e = true := by
  have h : stopIsland (.engine e) c n s = raise (.engine e) c n s := rfl
  rw [h]
  refine ⟨isles_raise .., ?_⟩
  have hm := mem_fenced_raise hc (u := .engine e) rfl n s
  rw [engFenced]
  simp [hm]

theorem execPllLost_engine {e : Eng} (hp : powered s = true) (he : .engine e ∈ s.pllParked) : execPllLost (.engine e) s =
    .next (stopIsland (.engine e) 0x22 0 { unpark (.engine e) s with stopped := s.stopped ++ [.engine e] }) := by
  unfold execPllLost
  rw [if_neg (by simp [hp, he, lostToRefclk])]
  rfl

theorem execUnitStall_engine {e : Eng} {u : FUnit} (hp : powered s = true) (hl : liveSide s (.engine e) u = true)
    (hs : .engine e ∉ s.stopped) (hq : islandQuiet s (.engine e) = false) : execUnitStall (.engine e) u s =
    .next (stopIsland (.engine e) 0x21 (srcOf u) (unpark (.engine e) { s with stopped := s.stopped ++ [.engine e] })) := by
  unfold execUnitStall
  rw [if_neg (by simp [hp, hl]), if_neg (by simp [hs]), if_neg (by simp [hq])]

theorem isles_cutKilns (s : State) : isles (cutKilns s) = isles s := by
  unfold cutKilns
  exact foldl_same (P := fun s t => isles t = isles s) (fun _ => rfl) (fun _ _ _ h k => k.trans h) (fun s k => isles_raise _ _ _ s) _ s

/-- A detour that has been installed. -/
def detoured (l : Link) (s : State) : State :=
  { s with detours := if s.detours.contains l then s.detours else s.detours ++ [l] }

theorem mem_detoured (l : Link) (s : State) : l ∈ (detoured l s).detours := by
  unfold detoured
  dsimp only
  split
  · next h => simpa using h
  · simp

theorem execDetourInstall_installs {l : Link} (hl : l.ok = true) (hp : powered s = true) (hf : linkFenced s l = true) :
    execDetourInstall l s = .next (cutKilns (detoured l s)) := by
  unfold execDetourInstall
  rw [if_neg (by simp [Instr.wf, hl]), if_neg (by simp [hp, hf])]
  rfl

end Islands

/-! ## A unit takes a committed set up -/

section Sets

variable {s t u : State}

theorem rereadLine_steady (v : Vi) (s : State) (k : LineKind) : Steady s (rereadLine v s k) :=
  .ite (updVi_steady v _ s fun x => (setWake_step k true x).stands)
    (.of_ringwise (readLine_ringwise s v k) fun w => (readLine_linesKept s v k w).stands)

theorem rereadLines_steady (s : State) : Steady s (rereadLines s) := by
  unfold rereadLines
  refine .foldl (fun s n => ?_) _ s
  dsimp only
  refine .ite ?_ (.refl s)
  exact .ite ((rereadLine_steady _ s _).trans (rereadLine_steady _ _ _)) (rereadLine_steady _ s _)

theorem leavePartitions_steady (e : Eng) (s : State) : Steady s (leavePartitions e s) :=
  .foldl (fun s v => .ite (.refl s) (dropIndexes_steady v _ s e)) _ s

/-- Units that leave a committed set: it goes on with the others, or it is over (R603). -/
theorem leaveSet_takes (p : CUnit → Bool) (h : s.applying = true) :
    ((leaveSet p s).applying = false ∧ (leaveSet p s).unitsLeft = []) ∨
    ((leaveSet p s).applying = true ∧ (leaveSet p s).unitsLeft = s.unitsLeft.filter fun u => !p u) := by
  unfold leaveSet
  rw [if_neg (by simp [h])]
  dsimp only
  split
  · exact .inl (finishSet_ends s).2
  · exact .inr ⟨h, rfl⟩

/-- What a unit that takes the set up leaves: itself gone from UNITS_LEFT, and the other units as they were. -/
structure Taken (c : CUnit) (s t : State) : Prop where
  ended : t.applying = false → t.unitsLeft = []
  gone : c ∉ t.unitsLeft
  left : t.applying = true → ∀ d, d ≠ c → (d ∈ t.unitsLeft ↔ d ∈ s.unitsLeft)
  runs : NoCommit s t
  asks : ∀ m, CUnit.mover m ≠ c → (getMv t m).asked ≠ 0 → (getMv s m).asked ≠ 0

/-- With its partitions left and its lines read again, the unit leaves the set. -/
theorem taken_leaveSet {c : CUnit} (ha : s.applying = true)
    (h : Steady { s with unitsLeft := s.unitsLeft.filter fun d => d != c } t) : Taken c s (leaveSet (fun d => d == c) t) := by
  have hu := h.units
  simp only [unitPart, Prod.mk.injEq] at hu
  obtain ⟨-, -, -, -, -, -, hleft, happ⟩ := hu
  have hs := leaveSet_step (fun d => d == c) t
  have hmem : ∀ d ∈ (leaveSet (fun d => d == c) t).unitsLeft, d ∈ t.unitsLeft ∧ d ≠ c := by
    intro d hd
    obtain ⟨-, hn⟩ | ⟨-, hn⟩ := leaveSet_takes (fun d => d == c) (happ.trans ha)
    · rw [hn] at hd
      cases hd
    · rw [hn] at hd
      simpa using hd
  refine ⟨fun hf => ?_, fun hc => (hmem c hc).2 rfl, fun ht d hd => ⟨fun hm => ?_, fun hm => ?_⟩, ?_, fun m _ hm => ?_⟩
  · obtain ⟨-, hn⟩ | ⟨ht, -⟩ := leaveSet_takes (fun d => d == c) (happ.trans ha)
    · exact hn
    · rw [hf] at ht
      cases ht
  · have := (hmem d hm).1
    rw [hleft] at this
    exact (List.mem_filter.mp this).1
  · obtain ⟨hf, -⟩ | ⟨-, hn⟩ := leaveSet_takes (fun d => d == c) (happ.trans ha)
    · rw [hf] at ht
      cases ht
    · rw [hn, hleft]
      simp [hm, hd]
  · obtain ⟨_, _, _, _, _, _, _, hs⟩ := hs
    exact h.runs.trans (.of_engs (by rw [hs]))
  · obtain ⟨_, _, _, _, _, _, _, hs⟩ := hs
    rw [getMv_of_movers (by rw [hs])] at hm
    exact h.asks m hm

/-- What the unit does before it leaves the set. -/
def readied (c : CUnit) (b : Bool) (s : State) : State :=
  match c with
  | .engine e => leavePartitions e s
  | .ring => if b then rereadLines s else s
  | _ => s

theorem readied_steady (c : CUnit) (b : Bool) (s : State) : Steady s (readied c b s) := by
  cases c with
  | engine e => exact leavePartitions_steady e s
  | ring =>
    cases b with
    | true => exact rereadLines_steady s
    | false => exact .refl s
  | mover m => exact .refl s
  | coll f => exact .refl s
  | fport p => exact .refl s
  | memory k => exact .refl s
  | home => exact .refl s

theorem Taken.mover {m : Mover} (h : Taken (.mover m) s t) (k : MoverStep m t u) : Taken (.mover m) s u := by
  have hu := k.units
  simp only [unitPart, Prod.mk.injEq] at hu
  obtain ⟨-, -, -, -, -, -, hleft, happ⟩ := hu
  refine ⟨fun hf => ?_, ?_, fun ht => ?_, h.runs.trans k.runs, fun n hn ha => ?_⟩
  · rw [hleft, h.ended (happ.symm.trans hf)]
  · rw [hleft]
    exact h.gone
  · rw [hleft]
    exact h.left (happ.symm.trans ht)
  · exact h.asks n hn (k.asks n (fun e => hn (by rw [e])) ha)

theorem takeSet_taken {c : CUnit} (ha : s.applying = true) (hc : c ∈ s.unitsLeft) : Taken c s (takeSet c s) := by
  have hl := taken_leaveSet ha (readied_steady c (deliveryChanged s) { s with unitsLeft := s.unitsLeft.filter fun d => d != c })
  unfold takeSet
  rw [if_neg (by simp [ha, hc])]
  cases c with
  | mover m => exact hl.mover (startBlock_moverStep m _)
  | engine e => exact hl
  | ring => exact hl
  | coll f => exact hl
  | fport p => exact hl
  | memory k => exact hl
  | home => exact hl

/-! ## Forced take-up -/

/-- A unit that forced take-up leaves alone: an engine past its commit, or a mover inside a block (R606). -/
def LeftAlone (s : State) (c : CUnit) : Prop :=
  (∃ e r, c = .engine e ∧ runOf s e = some r ∧ r.phase = .post) ∨ ∃ m, c = .mover m ∧ (getMv s m).asked ≠ 0

/-- As units are forced: the set goes on while units are left, and no unit that is left has come to where it is left alone. -/
structure Forced (s t : State) : Prop where
  ended : t.applying = false → t.unitsLeft = []
  sub : ∀ c ∈ t.unitsLeft, c ∈ s.unitsLeft
  runs : NoCommit s t
  asks : ∀ m, CUnit.mover m ∈ t.unitsLeft → (getMv t m).asked ≠ 0 → (getMv s m).asked ≠ 0

theorem Taken.sub {c : CUnit} (h : Taken c s t) : ∀ d ∈ t.unitsLeft, d ∈ s.unitsLeft := by
  intro d hd
  cases ha : t.applying with
  | false =>
    rw [h.ended ha] at hd
    cases hd
  | true => exact (h.left ha d fun e => h.gone (e ▸ hd)).mp hd

theorem Forced.taken {c : CUnit} (h : Forced s t) (k : Taken c t u) : Forced s u :=
  ⟨k.ended, fun d hd => h.sub d (k.sub d hd), h.runs.trans k.runs,
    fun m hm ha => h.asks m (k.sub _ hm) (k.asks m (fun e => k.gone (e ▸ hm)) ha)⟩

theorem Forced.steady (h : Forced s t) (k : Steady t u) : Forced s u := by
  have hu := k.units
  simp only [unitPart, Prod.mk.injEq] at hu
  obtain ⟨-, -, -, -, -, -, hleft, happ⟩ := hu
  refine ⟨fun hf => ?_, fun c hc => h.sub c (hleft ▸ hc), h.runs.trans k.runs, fun m hm ha => h.asks m (hleft ▸ hm) (k.asks m ha)⟩
  rw [hleft, h.ended (happ.symm.trans hf)]

theorem Forced.applying {c : CUnit} (h : Forced s t) (hc : c ∈ t.unitsLeft) : t.applying = true := by
  cases ha : t.applying with
  | true => rfl
  | false =>
    rw [h.ended ha] at hc
    cases hc

theorem leftAlone_of_post {e : Eng} {r : Run} (h : Forced s t) (hr : runOf t e = some r) (hp : r.phase = .post) :
    LeftAlone s (.engine e) := by
  have hs := h.runs e (by rw [pastCommit, hr]; simp [hp])
  rw [pastCommit] at hs
  cases hx : runOf s e with
  | none =>
    rw [hx] at hs
    cases hs
  | some x =>
    rw [hx] at hs
    exact .inl ⟨e, x, rfl, hx, by simpa using hs⟩

/-- A unit that is forced is no longer left, or is one that is left alone. -/
structure ForceStep (s t u : State) (c : CUnit) : Prop where
  forced : Forced s u
  fewer : ∀ d ∈ u.unitsLeft, d ∈ t.unitsLeft
  alone : c ∈ u.unitsLeft → LeftAlone s c

theorem ForceStep.taken {c : CUnit} (h : Forced s t) (hk : Steady t u) (hc : c ∈ t.unitsLeft) : ForceStep s t (takeSet c u) c := by
  have hu := hk.units
  simp only [unitPart, Prod.mk.injEq] at hu
  obtain ⟨-, -, -, -, -, -, hleft, happ⟩ := hu
  have ht := takeSet_taken (happ.trans (h.applying hc)) (hleft ▸ hc)
  exact ⟨(h.steady hk).taken ht, fun d hd => hleft ▸ ht.sub d hd, fun hm => absurd hm ht.gone⟩

theorem forceUnit_step (h : Forced s t) (c : CUnit) : ForceStep s t (forceUnit t c) c := by
  have stays (ha : c ∈ t.unitsLeft → LeftAlone s c) : ForceStep s t t c := ⟨h, fun _ => id, ha⟩
  unfold forceUnit
  split
  · next hc => exact stays fun hm => absurd hm (by simpa using hc)
  · next hn =>
    have hc : c ∈ t.unitsLeft := by simpa using hn
    clear hn
    split
    · next e =>
      split
      · next r hr =>
        split
        · next hp => exact stays fun _ => leftAlone_of_post h hr hp
        · exact .taken h (.ite (abandon_steady e t) (.refl t)) hc
      · exact .taken h (.refl t) hc
    · next m =>
      split
      · exact .taken h (.refl t) hc
      · next ha => exact stays fun _ => .inr ⟨m, rfl, h.asks m hc ha⟩
    · exact .taken h (.refl t) hc

theorem forced_all (l : List CUnit) (h : Forced s t) : (∀ c ∈ (l.foldl forceUnit t).unitsLeft, c ∈ t.unitsLeft) ∧
    ∀ c ∈ l, c ∈ (l.foldl forceUnit t).unitsLeft → LeftAlone s c := by
  induction l generalizing t with
  | nil => exact ⟨fun _ => id, nofun⟩
  | cons d l ih =>
    obtain ⟨hf, hs, ha⟩ := forceUnit_step h d
    obtain ⟨hsub, hall⟩ := ih hf
    rw [List.foldl_cons]
    refine ⟨fun c hc => hs c (hsub c hc), fun c hc hm => ?_⟩
    rcases List.mem_cons.mp hc with rfl | hc
    · exact ha (hsub c hm)
    · exact hall c hc hm

theorem forced_refl (h : s.applying = true) : Forced s s :=
  ⟨fun hf => Bool.noConfusion (h.symm.trans hf), fun _ => id, fun _ => id, fun _ _ => id⟩

end Sets

/-- Settles O51: resets of a port's VIs one after the other, islands by the fence that stops them, and a committed set by
the units that are left. -/
theorem unitCommandsTakeEffect : Obligations.UnitCommandsTakeEffect := by
  refine ⟨fun s hp hr hb n hn => ?_, fun s p hp hr hb hv => ?_, fun s p hd => ?_, fun s v n hb ha => ?_, fun s e hp he => ?_,
    fun s e u hp hl hs hq => ?_, fun s l hl hp hf => ?_, fun s c hr hp ha hc => ?_, fun s hr ha => ?_⟩
  case refine_1 =>
    obtain ⟨hboard, hport, hpf, hall⟩ := port1Reset_leaves (updBoard (fun b => { b with perst1 := true }) s)
    exact ⟨_, execPerst1Assert_resets hp hr hb hn, by rw [hboard]; rfl, hport, hpf, hall⟩
  case refine_2 =>
    refine ⟨_, execVfEnableClear_resets hp hr hb hv, ?_, inReset_resets _⟩
    rw [getPf_of_units (units_resets _ _), getPf_updPf_same]
  case refine_3 =>
    have he : exec (.d0Return p) s = .next (resumePort p (updPf p (fun x => { x with d3hot := false }) s)) :=
      congrArg Host.Outcome.next (if_pos hd)
    refine ⟨_, he, ?_⟩
    dsimp only
    rw [getPf_resumePort, getPf_updPf_same]
  case refine_4 =>
    have he : exec (.msixUnmask v n) s = .next (flushVec v (unmasked v n s)) := congrArg Host.Outcome.next (if_pos (by simp [hb, ha]))
    obtain ⟨o, f, hs⟩ := flushVec_same v (unmasked v n s)
    refine ⟨_, he, ?_, by rw [hs]; rfl⟩
    rw [msix_flushVec]
    exact masked_unmasked v n s
  case refine_5 =>
    obtain ⟨hi, hf⟩ := stopIsland_engine (c := 0x22) rfl e 0 { unpark (.engine e) s with stopped := s.stopped ++ [.engine e] }
    simp only [isles, Prod.mk.injEq] at hi
    obtain ⟨hpll, hstop, -⟩ := hi
    refine ⟨_, execPllLost_engine hp he, ?_, ?_, hf⟩
    · rw [hpll]
      exact not_mem_pllParked_unpark (.engine e) s
    · rw [hstop]
      simp
  case refine_6 =>
    obtain ⟨hi, hf⟩ := stopIsland_engine (c := 0x21) rfl e (srcOf u)
      (unpark (.engine e) { s with stopped := s.stopped ++ [.engine e] })
    simp only [isles, Prod.mk.injEq] at hi
    obtain ⟨-, hstop, -⟩ := hi
    refine ⟨_, execUnitStall_engine hp hl hs hq, ?_, hf⟩
    rw [hstop]
    simp [unpark]
  case refine_7 =>
    have hi := isles_cutKilns (detoured l s)
    simp only [isles, Prod.mk.injEq] at hi
    obtain ⟨-, -, hd⟩ := hi
    refine ⟨_, execDetourInstall_installs hl hp hf, ?_⟩
    dsimp only
    rw [hd]
    exact mem_detoured l s
  case refine_8 =>
    obtain ⟨-, hgone, hleft, -⟩ := takeSet_taken ha hc
    exact ⟨_, congrArg Host.Outcome.next (if_pos (by simp [hr, hp])), hgone, hleft⟩
  case refine_9 =>
    obtain ⟨hsub, hall⟩ := forced_all s.unitsLeft (forced_refl ha)
    exact ⟨_, congrArg Host.Outcome.next (if_pos (by simp [hr, ha])), fun c hc => hall c (hsub c hc) hc⟩

end Sys2Proof.Proofs
